-- ==== Sys2Proof/Word.lean ====
section
/-!
DEFINITION. Words, bytes, bits and the association lists that hold every sparse table of the machine (R1 to R3).
-/

namespace Sys2Proof

/-- A 64-bit word: a scalar register, an address, a special register (R1, R121). -/
abbrev Word := BitVec 64

/-- A byte of memory (R1). -/
abbrev Byte := BitVec 8

/-- A 32-bit instruction word (R62). -/
abbrev IWord := BitVec 32

/-- One accumulator row or vector-queue row: 1,024 bytes, byte 0 lowest (R201). -/
abbrev Row := BitVec 8192

/-- A predicate of X: one bit for each of 1,024 lanes; C, L and S use bit 0 (R121, R123). -/
abbrev Mask := BitVec 1024

/-- A tensor handle, pool descriptor or cask handle (R175, R296, R298). -/
abbrev Handle := BitVec 256

/-- A sparse table: what differs from the table's default, by key. -/
abbrev Tab (κ α : Type) := List (κ × α)

end Sys2Proof
end

