-- ==== Sys2Proof/Syntax.lean ====
section
/-!
DEFINITION. The syntax of every operation and event of the Alaes AX70: one constructor of `Instr` for each row of
the opcode table, in the table's order. A device word's or a host form's constructor carries the fields of its encoding strip
as bits, in the order of the strip (R63, R85); an event's constructor carries what the outside world, a timer or an agent
supplies with it.
-/

namespace Sys2Proof

/-- The four sequencers of a unit, in the order C, L, X, S (R16). -/
inductive Seq where
  | c | l | x | s
  deriving DecidableEq, Repr

/-- The engines that take commands from a sequencer's queues (R35, R136). -/
inductive Eng where
  /-- the copy engine, queue `ce` -/
  | copy
  /-- the gather engine, queue `ge` -/
  | gather
  /-- the collective engine of the base die, queue `xe` -/
  | coll
  /-- the row engine, queue `rwe` -/
  | row
  /-- the cluster's press, queue `prs` -/
  | press
  deriving DecidableEq, Repr

/-- An agent of the memory order (R266). `kind`, `que` and `id` are the fields of the agent word of R281, with kind 11
for the vintner and 12 for the external host; `uid` names the unit a sequencer or command acts for, `cont` and `launch`
its continuation and launch, and `sub` tells apart relocated commands, which share no program order (R194). -/
structure Agent where
  kind   : Nat
  que    : Nat
  id     : Nat
  uid    : Nat
  cont   : Nat
  launch : Nat
  sub    : Nat
  deriving DecidableEq, Repr

/-- A node of a phase of a job of a continuation (R361). -/
structure NodeKey where
  cont  : Nat
  job   : Nat
  phase : Nat
  node  : Nat
  deriving DecidableEq, Repr

/-- Where the scheduler puts one unit of a gang: its global core, its resident slot, the physical base of its
partition and the row group reserved for it (R162, R374). -/
structure UnitPlace where
  core  : Nat
  slot  : Nat
  base  : Nat
  group : Nat
  deriving DecidableEq, Repr

/-- What another member contributes to a collective command (R431, R432): `count` is the E of its command, `elems` the data that it sends, and `hist` what its C had done
and acquired when the command started (R434). -/
structure Contribution where
  set   : Nat
  tag   : BitVec 32
  code  : Nat
  rank  : Nat
  peer  : Nat
  op    : Nat
  fmt   : Nat
  stamp : BitVec 32
  count : Nat
  elems : List Word
  hist  : List (Agent × Nat)
  deriving DecidableEq, Repr

/-- A heartbeat of a group member (R419). -/
structure Heartbeat where
  member : Nat
  state  : Nat
  seq    : Nat
  limit  : Nat
  next   : Option (Nat × Nat)
  breach : Bool
  deriving DecidableEq, Repr

/-- A flit of a Trellis link (R424): its class and its number among the flits of that class, whether its CRC holds, and its 240 bytes of payload. -/
structure Flit where
  cls   : Nat
  seq   : Nat
  good  : Bool
  bytes : List Byte
  deriving DecidableEq, Repr

/-- An access of a Rilow hart: a plain load or store, an atomic memory operation (the function coded as fn4 of R284
and the order of R69), or a fence of an order (R269, R278). -/
inductive HartAcc where
  | load  (rd : BitVec 5) (va : Word) (size : Nat)
  | store (va : Word) (size : Nat) (data : Word)
  | amo   (rd : BitVec 5) (fn : Nat) (ord : Nat) (w32 : Bool) (va : Word) (b c : Word)
  | fence (ord : Nat)
  /-- a read of a control and status register by its number (R8, R322, R353) -/
  | csr (rd : BitVec 5) (num : Nat)
  /-- a load of a register of the Rilow complex's device register space (R396) -/
  | deviceLoad (rd : BitVec 5) (addr : Nat)
  /-- a store to a register of the Rilow complex's device register space (R396) -/
  | deviceStore (addr : Nat) (data : Word)
  deriving DecidableEq, Repr

/-- The fences of translations that a hart executes (R391). -/
inductive FenceKind where
  /-- `SFENCE.VMA`, with a virtual address and an ASID -/
  | sfence
  /-- `HFENCE.VVMA`, with a virtual address and an ASID of a guest -/
  | vvma
  /-- `HFENCE.GVMA`, with a guest physical address and a VMID -/
  | gvma
  deriving DecidableEq, Repr

/-- An access of the external host to the module's physical space: an `sc` atomic of its size at `sys` (R269). `via` is the partition through whose TDISP interface the request
of a tenant comes (R444, R445). -/
inductive ExtAcc where
  | read  (via : Option Nat) (pa : Nat) (size : Nat)
  | write (via : Option Nat) (pa : Nat) (size : Nat) (data : Word)
  deriving DecidableEq, Repr

/-- A piece of a slot's images as one request of the firmware interface carries it, at most 4 KiB, with its place among the slot's bytes (R439, R442). -/
structure SlotPiece where
  off   : Nat
  bytes : List Byte
  deriving DecidableEq, Repr

/-- How an SPDM request reaches the vintner: the PCIe DOE mailbox, or MCTP on the firmware interface (R443). -/
inductive SpdmVia where
  | doe | mctp
  deriving DecidableEq, Repr

/-- The registers that `REGISTER_WRITE` names: those with no command of their own (R8, R10). -/
inductive RegName where
  /-- `FQBASE` of a die (R396) -/
  | fqbase (die : Nat)
  /-- `FQHEAD` of a die, read only (R396) -/
  | fqhead (die : Nat)
  /-- `FQSEQ` of a die, read only (R396) -/
  | fqseq (die : Nat)
  /-- `WSLOT` of a core (R174) -/
  | wslot (core : Nat)
  /-- 8 bytes at an offset of a core's block: its register and queue windows (R133, R172) -/
  | window (core off : Nat)
  /-- `cpthr` of a hart (R322) -/
  | cpthr (hart : Nat)
  /-- `cpsel` of a hart (R322) -/
  | cpsel (hart : Nat)
  /-- `cpgdrop` of a hart, read only (R322) -/
  | cpgdrop (hart : Nat)
  /-- `sie` of a hart, whose bit 19 enables the port-attention interrupt (R353) -/
  | sie (hart : Nat)
  deriving DecidableEq, Repr

/-- Every operation and event of the part. -/
inductive Instr where
  /-- `ILL` (R154). -/
  | ill (d : BitVec 6) (a : BitVec 6) (i : BitVec 6) (t : BitVec 2)
  /-- `NOP` (R154). -/
  | nop (t : BitVec 2)
  /-- `HALT` (R158). -/
  | halt (t : BitVec 2)
  /-- `TRAP` (R159). -/
  | trap (i : BitVec 6) (t : BitVec 2)
  /-- `RETT` (R159). -/
  | rett (t : BitVec 2)
  /-- `MFS` (R155). -/
  | mfs (d : BitVec 6) (i : BitVec 6) (t : BitVec 2)
  /-- `MTS` (R155). -/
  | mts (a : BitVec 6) (i : BitVec 6) (t : BitVec 2)
  /-- `VCYC` (R154). -/
  | vcyc (d : BitVec 6) (t : BitVec 2)
  /-- `DBGPEND` (R135). -/
  | dbgpend (d : BitVec 6) (i : BitVec 6) (t : BitVec 2)
  /-- `BKPT` (R154). -/
  | bkpt (i : BitVec 6) (t : BitVec 2)
  /-- `WFE` (R158). -/
  | wfe (t : BitVec 2)
  /-- `SEV` (R158). -/
  | sev (i : BitVec 6) (t : BitVec 2)
  /-- `TKCFG` (R156). -/
  | tkcfg (i : BitVec 6) (t : BitVec 2)
  /-- `IDENT` (R157). -/
  | ident (d : BitVec 6) (i : BitVec 6) (t : BitVec 2)
  /-- `PACE` (R414). -/
  | pace (a : BitVec 6) (i : BitVec 6) (t : BitVec 2)
  /-- `ENRD` (R157). -/
  | enrd (d : BitVec 6) (i : BitVec 6) (t : BitVec 2)
  /-- `GCEIL` (R154). -/
  | gceil (d : BitVec 6) (t : BitVec 2)
  /-- `ADD` (R143). -/
  | add (d : BitVec 6) (a : BitVec 6) (b : BitVec 6) (t : BitVec 2)
  /-- `SUB` (R143). -/
  | sub (d : BitVec 6) (a : BitVec 6) (b : BitVec 6) (t : BitVec 2)
  /-- `AND` (R143). -/
  | and (d : BitVec 6) (a : BitVec 6) (b : BitVec 6) (t : BitVec 2)
  /-- `OR` (R143). -/
  | or (d : BitVec 6) (a : BitVec 6) (b : BitVec 6) (t : BitVec 2)
  /-- `XOR` (R143). -/
  | xor (d : BitVec 6) (a : BitVec 6) (b : BitVec 6) (t : BitVec 2)
  /-- `ANDN` (R143). -/
  | andn (d : BitVec 6) (a : BitVec 6) (b : BitVec 6) (t : BitVec 2)
  /-- `SLL` (R143). -/
  | sll (d : BitVec 6) (a : BitVec 6) (b : BitVec 6) (t : BitVec 2)
  /-- `SRL` (R143). -/
  | srl (d : BitVec 6) (a : BitVec 6) (b : BitVec 6) (t : BitVec 2)
  /-- `SRA` (R143). -/
  | sra (d : BitVec 6) (a : BitVec 6) (b : BitVec 6) (t : BitVec 2)
  /-- `ROL` (R143). -/
  | rol (d : BitVec 6) (a : BitVec 6) (b : BitVec 6) (t : BitVec 2)
  /-- `SLT` (R143). -/
  | slt (d : BitVec 6) (a : BitVec 6) (b : BitVec 6) (t : BitVec 2)
  /-- `SLTU` (R143). -/
  | sltu (d : BitVec 6) (a : BitVec 6) (b : BitVec 6) (t : BitVec 2)
  /-- `MIN` (R143). -/
  | min (d : BitVec 6) (a : BitVec 6) (b : BitVec 6) (t : BitVec 2)
  /-- `MAX` (R143). -/
  | max (d : BitVec 6) (a : BitVec 6) (b : BitVec 6) (t : BitVec 2)
  /-- `MINU` (R143). -/
  | minu (d : BitVec 6) (a : BitVec 6) (b : BitVec 6) (t : BitVec 2)
  /-- `MAXU` (R143). -/
  | maxu (d : BitVec 6) (a : BitVec 6) (b : BitVec 6) (t : BitVec 2)
  /-- `MUL` (R143). -/
  | mul (d : BitVec 6) (a : BitVec 6) (b : BitVec 6) (t : BitVec 2)
  /-- `MULH` (R143). -/
  | mulh (d : BitVec 6) (a : BitVec 6) (b : BitVec 6) (t : BitVec 2)
  /-- `MULHU` (R143). -/
  | mulhu (d : BitVec 6) (a : BitVec 6) (b : BitVec 6) (t : BitVec 2)
  /-- `DIV` (R143). -/
  | div (d : BitVec 6) (a : BitVec 6) (b : BitVec 6) (t : BitVec 2)
  /-- `DIVU` (R143). -/
  | divu (d : BitVec 6) (a : BitVec 6) (b : BitVec 6) (t : BitVec 2)
  /-- `REM` (R143). -/
  | rem (d : BitVec 6) (a : BitVec 6) (b : BitVec 6) (t : BitVec 2)
  /-- `REMU` (R143). -/
  | remu (d : BitVec 6) (a : BitVec 6) (b : BitVec 6) (t : BitVec 2)
  /-- `CLZ` (R143). -/
  | clz (d : BitVec 6) (a : BitVec 6) (t : BitVec 2)
  /-- `CTZ` (R143). -/
  | ctz (d : BitVec 6) (a : BitVec 6) (t : BitVec 2)
  /-- `POPC` (R143). -/
  | popc (d : BitVec 6) (a : BitVec 6) (t : BitVec 2)
  /-- `SEXT` (R143). -/
  | sext (d : BitVec 6) (a : BitVec 6) (b : BitVec 6) (t : BitVec 2)
  /-- `ZEXT` (R143). -/
  | zext (d : BitVec 6) (a : BitVec 6) (b : BitVec 6) (t : BitVec 2)
  /-- `ADDW` (R143). -/
  | addw (d : BitVec 6) (a : BitVec 6) (b : BitVec 6) (t : BitVec 2)
  /-- `SUBW` (R143). -/
  | subw (d : BitVec 6) (a : BitVec 6) (b : BitVec 6) (t : BitVec 2)
  /-- `MULW` (R143). -/
  | mulw (d : BitVec 6) (a : BitVec 6) (b : BitVec 6) (t : BitVec 2)
  /-- `ADDI` (R144). -/
  | addi (d : BitVec 6) (a : BitVec 6) (i : BitVec 10) (t : BitVec 2)
  /-- `ANDI` (R144). -/
  | andi (d : BitVec 6) (a : BitVec 6) (i : BitVec 10) (t : BitVec 2)
  /-- `ORI` (R144). -/
  | ori (d : BitVec 6) (a : BitVec 6) (i : BitVec 10) (t : BitVec 2)
  /-- `XORI` (R144). -/
  | xori (d : BitVec 6) (a : BitVec 6) (i : BitVec 10) (t : BitVec 2)
  /-- `SLTI` (R144). -/
  | slti (d : BitVec 6) (a : BitVec 6) (i : BitVec 10) (t : BitVec 2)
  /-- `SLLI` (R144). -/
  | slli (d : BitVec 6) (a : BitVec 6) (i : BitVec 10) (t : BitVec 2)
  /-- `SRLI` (R144). -/
  | srli (d : BitVec 6) (a : BitVec 6) (i : BitVec 10) (t : BitVec 2)
  /-- `SRAI` (R144). -/
  | srai (d : BitVec 6) (a : BitVec 6) (i : BitVec 10) (t : BitVec 2)
  /-- `MOVHI` (R145). -/
  | movhi (d : BitVec 6) (i : BitVec 19) (t : BitVec 2)
  /-- `LD` (R146). -/
  | ld (d : BitVec 6) (a : BitVec 6) (o : BitVec 11) (z : BitVec 2) (t : BitVec 2)
  /-- `LDS` (R146). -/
  | lds (d : BitVec 6) (a : BitVec 6) (o : BitVec 11) (z : BitVec 2) (t : BitVec 2)
  /-- `ST` (R146). -/
  | st (d : BitVec 6) (a : BitVec 6) (o : BitVec 11) (z : BitVec 2) (t : BitVec 2)
  /-- `BEQZ` (R148). -/
  | beqz (a : BitVec 6) (o : BitVec 15) (t : BitVec 2)
  /-- `BNEZ` (R148). -/
  | bnez (a : BitVec 6) (o : BitVec 15) (t : BitVec 2)
  /-- `BLTZ` (R148). -/
  | bltz (a : BitVec 6) (o : BitVec 15) (t : BitVec 2)
  /-- `BGEZ` (R148). -/
  | bgez (a : BitVec 6) (o : BitVec 15) (t : BitVec 2)
  /-- `BGTZ` (R148). -/
  | bgtz (a : BitVec 6) (o : BitVec 15) (t : BitVec 2)
  /-- `BLEZ` (R148). -/
  | blez (a : BitVec 6) (o : BitVec 15) (t : BitVec 2)
  /-- `BP` (R148). -/
  | bp (a : BitVec 6) (o : BitVec 15) (t : BitVec 2)
  /-- `BNP` (R148). -/
  | bnp (a : BitVec 6) (o : BitVec 15) (t : BitVec 2)
  /-- `BQ` (R148). -/
  | bq (o : BitVec 15) (t : BitVec 2)
  /-- `BNQ` (R148). -/
  | bnq (o : BitVec 15) (t : BitVec 2)
  /-- `JMP` (R149). -/
  | jmp (o : BitVec 25) (t : BitVec 2)
  /-- `CALL` (R149). -/
  | call (o : BitVec 25) (t : BitVec 2)
  /-- `JR` (R150). -/
  | jr (d : BitVec 6) (a : BitVec 6) (i : BitVec 10) (t : BitVec 2)
  /-- `CALLR` (R150). -/
  | callr (d : BitVec 6) (a : BitVec 6) (i : BitVec 10) (t : BitVec 2)
  /-- `TKPUSH` (R153). -/
  | tkpush (q : BitVec 6) (t : BitVec 2)
  /-- `TKPOP` (R153). -/
  | tkpop (q : BitVec 6) (t : BitVec 2)
  /-- `TKCNT` (R153). -/
  | tkcnt (d : BitVec 6) (q : BitVec 6) (t : BitVec 2)
  /-- `QPEEK` (R153). -/
  | qpeek (d : BitVec 6) (q : BitVec 6) (t : BitVec 2)
  /-- `QCNT` (R153). -/
  | qcnt (d : BitVec 6) (q : BitVec 6) (t : BitVec 2)
  /-- `QSQUASH` (R142). -/
  | qsquash (q : BitVec 6) (t : BitVec 2)
  /-- `QFMT` (R139). -/
  | qfmt (a : BitVec 6) (q : BitVec 6) (t : BitVec 2)
  /-- `QSEL` (R153). -/
  | qsel (q : BitVec 6) (t : BitVec 2)
  /-- `BQPUSH` (R153). -/
  | bqpush (a : BitVec 6) (t : BitVec 2)
  /-- `QWAIT` (R153). -/
  | qwait (q : BitVec 6) (t : BitVec 2)
  /-- `EPOP` (R153). -/
  | epop (d : BitVec 6) (q : BitVec 6) (t : BitVec 2)
  /-- `HMOV` (R181). -/
  | hmov (d : BitVec 4) (a : BitVec 4) (t : BitVec 2)
  /-- `HLD` (R182). -/
  | hld (d : BitVec 4) (r : BitVec 6) (t : BitVec 2)
  /-- `HST` (R182). -/
  | hst (a : BitVec 4) (r : BitVec 6) (t : BitVec 2)
  /-- `HSETB` (R181). -/
  | hsetb (d : BitVec 4) (a : BitVec 4) (r : BitVec 6) (t : BitVec 2)
  /-- `HSETD` (R181). -/
  | hsetd (d : BitVec 4) (a : BitVec 4) (k : BitVec 4) (r : BitVec 6) (t : BitVec 2)
  /-- `HSETS` (R181). -/
  | hsets (d : BitVec 4) (a : BitVec 4) (k : BitVec 4) (r : BitVec 6) (t : BitVec 2)
  /-- `HSETF` (R181). -/
  | hsetf (d : BitVec 4) (a : BitVec 4) (r : BitVec 6) (t : BitVec 2)
  /-- `HGETB` (R181). -/
  | hgetb (a : BitVec 4) (r : BitVec 6) (t : BitVec 2)
  /-- `HGETD` (R181). -/
  | hgetd (a : BitVec 4) (k : BitVec 4) (r : BitVec 6) (t : BitVec 2)
  /-- `HOFF` (R181). -/
  | hoff (d : BitVec 4) (a : BitVec 4) (k : BitVec 4) (r : BitVec 6) (t : BitVec 2)
  /-- `HSUB` (R181). -/
  | hsub (d : BitVec 4) (a : BitVec 4) (r : BitVec 6) (t : BitVec 2)
  /-- `HCHK` (R179). -/
  | hchk (a : BitVec 4) (r : BitVec 6) (t : BitVec 2)
  /-- `HCLR` (R181). -/
  | hclr (d : BitVec 4) (t : BitVec 2)
  /-- `CTLD` (R187). -/
  | ctld (h : BitVec 4) (a : BitVec 6) (b : BitVec 6) (l : BitVec 1) (t : BitVec 2)
  /-- `CTST` (R187). -/
  | ctst (h : BitVec 4) (a : BitVec 6) (b : BitVec 6) (l : BitVec 1) (t : BitVec 2)
  /-- `CCPY` (R187). -/
  | ccpy (h : BitVec 3) (a : BitVec 6) (b : BitVec 6) (l : BitVec 1) (t : BitVec 2)
  /-- `CFILL` (R187). -/
  | cfill (h : BitVec 4) (a : BitVec 6) (b : BitVec 6) (l : BitVec 1) (t : BitVec 2)
  /-- `CPFX` (R187). -/
  | cpfx (h : BitVec 4) (a : BitVec 6) (b : BitVec 6) (l : BitVec 1) (t : BitVec 2)
  /-- `CXFR` (R187). -/
  | cxfr (a : BitVec 6) (b : BitVec 6) (l : BitVec 1) (t : BitVec 2)
  /-- `GATH` (R190). -/
  | gath (h : BitVec 4) (a : BitVec 6) (b : BitVec 6) (t : BitVec 2)
  /-- `SCAT` (R190). -/
  | scat (h : BitVec 4) (a : BitVec 6) (b : BitVec 6) (t : BitVec 2)
  /-- `GATHP` (R190). -/
  | gathp (h : BitVec 4) (a : BitVec 6) (b : BitVec 6) (t : BitVec 2)
  /-- `SCATA` (R191). -/
  | scata (h : BitVec 4) (a : BitVec 6) (b : BitVec 6) (t : BitVec 2)
  /-- `XALLR` (R432). -/
  | xallr (h : BitVec 4) (a : BitVec 6) (b : BitVec 6) (t : BitVec 2)
  /-- `XRDS` (R432). -/
  | xrds (h : BitVec 4) (a : BitVec 6) (b : BitVec 6) (t : BitVec 2)
  /-- `XALLG` (R432). -/
  | xallg (h : BitVec 4) (a : BitVec 6) (b : BitVec 6) (t : BitVec 2)
  /-- `XSEND` (R432). -/
  | xsend (h : BitVec 4) (a : BitVec 6) (b : BitVec 6) (t : BitVec 2)
  /-- `XRECV` (R432). -/
  | xrecv (h : BitVec 4) (a : BitVec 6) (b : BitVec 6) (t : BitVec 2)
  /-- `XEXCH` (R432). -/
  | xexch (h : BitVec 4) (a : BitVec 6) (b : BitVec 6) (t : BitVec 2)
  /-- `ALD` (R284). -/
  | ald (d : BitVec 5) (a : BitVec 5) (o : BitVec 3) (s : BitVec 4) (z : BitVec 1)
  /-- `AST` (R284). -/
  | ast (a : BitVec 5) (b : BitVec 5) (o : BitVec 3) (s : BitVec 4) (z : BitVec 1)
  /-- `ASWP` (R284). -/
  | aswp (d : BitVec 5) (a : BitVec 5) (b : BitVec 5) (o : BitVec 3) (s : BitVec 4) (z : BitVec 1)
  /-- `ACAS` (R284). -/
  | acas (d : BitVec 5) (a : BitVec 5) (b : BitVec 5) (o : BitVec 3) (s : BitVec 4) (z : BitVec 1)
  /-- `AADD` (R284). -/
  | aadd (d : BitVec 5) (a : BitVec 5) (b : BitVec 5) (o : BitVec 3) (s : BitVec 4) (z : BitVec 1)
  /-- `AAND` (R284). -/
  | aand (d : BitVec 5) (a : BitVec 5) (b : BitVec 5) (o : BitVec 3) (s : BitVec 4) (z : BitVec 1)
  /-- `AOR` (R284). -/
  | aor (d : BitVec 5) (a : BitVec 5) (b : BitVec 5) (o : BitVec 3) (s : BitVec 4) (z : BitVec 1)
  /-- `AXOR` (R284). -/
  | axor (d : BitVec 5) (a : BitVec 5) (b : BitVec 5) (o : BitVec 3) (s : BitVec 4) (z : BitVec 1)
  /-- `AMIN` (R284). -/
  | amin (d : BitVec 5) (a : BitVec 5) (b : BitVec 5) (o : BitVec 3) (s : BitVec 4) (z : BitVec 1)
  /-- `AMAX` (R284). -/
  | amax (d : BitVec 5) (a : BitVec 5) (b : BitVec 5) (o : BitVec 3) (s : BitVec 4) (z : BitVec 1)
  /-- `AMINU` (R284). -/
  | aminu (d : BitVec 5) (a : BitVec 5) (b : BitVec 5) (o : BitVec 3) (s : BitVec 4) (z : BitVec 1)
  /-- `AMAXU` (R284). -/
  | amaxu (d : BitVec 5) (a : BitVec 5) (b : BitVec 5) (o : BitVec 3) (s : BitVec 4) (z : BitVec 1)
  /-- `AFADD` (R284). -/
  | afadd (d : BitVec 5) (a : BitVec 5) (b : BitVec 5) (o : BitVec 3) (s : BitVec 4)
  /-- `SIGDEC` (R284). -/
  | sigdec (d : BitVec 5) (a : BitVec 5) (b : BitVec 5) (o : BitVec 3) (s : BitVec 4)
  /-- `SIGADD` (R284). -/
  | sigadd (d : BitVec 5) (a : BitVec 5) (b : BitVec 5) (o : BitVec 3) (s : BitVec 4)
  /-- `FENCE` (R287). -/
  | fence (s : BitVec 4) (o : BitVec 3) (t : BitVec 2)
  /-- `FENCEE` (R287). -/
  | fencee (s : BitVec 4) (o : BitVec 3) (m : BitVec 8) (t : BitVec 2)
  /-- `SSYNC` (R288). -/
  | ssync (t : BitVec 2)
  /-- `CBAR` (R288). -/
  | cbar (t : BitVec 2)
  /-- `WAITV` (R289). -/
  | waitv (s : BitVec 4) (o : BitVec 3) (a : BitVec 6) (c : BitVec 8) (t : BitVec 2)
  /-- `CKOPEN` (R308). -/
  | ckopen (d : BitVec 4) (a : BitVec 4) (t : BitVec 2)
  /-- `CKOPEN_GROW` (R308). -/
  | ckopenGrow (d : BitVec 4) (a : BitVec 4) (t : BitVec 2)
  /-- `CKSEAL` (R309). -/
  | ckseal (d : BitVec 4) (a : BitVec 4) (t : BitVec 2)
  /-- `CKBLND` (R310). -/
  | ckblnd (d : BitVec 4) (a : BitVec 4) (b : BitVec 4) (t : BitVec 2)
  /-- `CKFILT` (R310). -/
  | ckfilt (d : BitVec 4) (a : BitVec 4) (r : BitVec 6) (t : BitVec 2)
  /-- `CKREBS` (R310). -/
  | ckrebs (d : BitVec 4) (a : BitVec 4) (r : BitVec 6) (t : BitVec 2)
  /-- `CKPOUR` (R311). -/
  | ckpour (a : BitVec 4) (r : BitVec 6) (t : BitVec 2)
  /-- `CKDROP` (R312). -/
  | ckdrop (a : BitVec 4) (t : BitVec 2)
  /-- `CKINFO` (R312). -/
  | ckinfo (a : BitVec 4) (k : BitVec 4) (r : BitVec 6) (t : BitVec 2)
  /-- `CKABORT` (R313). -/
  | ckabort (a : BitVec 4) (t : BitVec 2)
  /-- `GLAUNCH` (R380). -/
  | glaunch (d : BitVec 6) (a : BitVec 6) (t : BitVec 2)
  /-- `GWAIT` (R381). -/
  | gwait (d : BitVec 6) (a : BitVec 6) (i : BitVec 6) (t : BitVec 2)
  /-- `GCANCEL` (R381). -/
  | gcancel (d : BitVec 6) (a : BitVec 6) (i : BitVec 6) (t : BitVec 2)
  /-- `GCNT` (R381). -/
  | gcnt (d : BitVec 6) (a : BitVec 6) (i : BitVec 6) (t : BitVec 2)
  /-- `YIELD` (R382). -/
  | yield (t : BitVec 2)
  /-- `UEXIT` (R382). -/
  | uexit (t : BitVec 2)
  /-- `PRISET` (R382). -/
  | priset (d : BitVec 6) (a : BitVec 6) (t : BitVec 2)
  /-- `PSET` (R152). -/
  | pset (d : BitVec 6) (a : BitVec 6) (i : BitVec 6) (t : BitVec 2)
  /-- `PAND` (R152). -/
  | pand (d : BitVec 6) (a : BitVec 6) (i : BitVec 6) (t : BitVec 2)
  /-- `POR` (R152). -/
  | por (d : BitVec 6) (a : BitVec 6) (i : BitVec 6) (t : BitVec 2)
  /-- `PXOR` (R152). -/
  | pxor (d : BitVec 6) (a : BitVec 6) (i : BitVec 6) (t : BitVec 2)
  /-- `PNOT` (R152). -/
  | pnot (d : BitVec 6) (a : BitVec 6) (t : BitVec 2)
  /-- `PMOV` (R152). -/
  | pmov (d : BitVec 6) (a : BitVec 6) (t : BitVec 2)
  /-- `PTOS` (R152). -/
  | ptos (d : BitVec 6) (a : BitVec 6) (i : BitVec 6) (t : BitVec 2)
  /-- `PALL` (R152). -/
  | pall (d : BitVec 6) (a : BitVec 6) (i : BitVec 6) (t : BitVec 2)
  /-- `PANY` (R152). -/
  | pany (d : BitVec 6) (a : BitVec 6) (i : BitVec 6) (t : BitVec 2)
  /-- `VWIN` (R215). -/
  | vwin (a : BitVec 6) (t : BitVec 2)
  /-- `LOOPX` (R216). -/
  | loopx (a : BitVec 6) (i : BitVec 8) (t : BitVec 2)
  /-- `LOOPE` (R216). -/
  | loope (t : BitVec 2)
  /-- `VROT` (R217). -/
  | vrot (i : BitVec 8) (t : BitVec 2)
  /-- `VTAG` (R218). -/
  | vtag (d : BitVec 5) (f : BitVec 6) (t : BitVec 2)
  /-- `VTAGR` (R218). -/
  | vtagr (d : BitVec 5) (a : BitVec 6) (t : BitVec 2)
  /-- `VLD` (R198). -/
  | vld (d : BitVec 5) (a : BitVec 6) (i : BitVec 8) (t : BitVec 2)
  /-- `VST` (R198). -/
  | vst (d : BitVec 5) (a : BitVec 6) (i : BitVec 8) (t : BitVec 2)
  /-- `VLDT` (R198). -/
  | vldt (d : BitVec 5) (a : BitVec 6) (m : BitVec 4) (t : BitVec 2)
  /-- `VLDG` (R198). -/
  | vldg (d : BitVec 5) (a : BitVec 6) (b : BitVec 6) (t : BitVec 2)
  /-- `VSTS` (R198). -/
  | vsts (d : BitVec 5) (a : BitVec 6) (m : BitVec 4) (t : BitVec 2)
  /-- `VLDB` (R198). -/
  | vldb (d : BitVec 5) (a : BitVec 6) (m : BitVec 4) (t : BitVec 2)
  /-- `VLDS` (R198). -/
  | vlds (d : BitVec 5) (a : BitVec 6) (m : BitVec 4) (t : BitVec 2)
  /-- `PLSE` (R250). -/
  | plse (t : BitVec 2)
  /-- `PREL` (R250). -/
  | prel (t : BitVec 2)
  /-- `PWLD` (R252). -/
  | pwld (h : BitVec 4) (a : BitVec 6) (t : BitVec 2)
  /-- `PMUL` (R253). -/
  | pmul (h : BitVec 4) (a : BitVec 6) (b : BitVec 6) (t : BitVec 2)
  /-- `PMULZ` (R253). -/
  | pmulz (h : BitVec 4) (a : BitVec 6) (b : BitVec 6) (t : BitVec 2)
  /-- `PDRN` (R255). -/
  | pdrn (c : BitVec 3) (h : BitVec 4) (a : BitVec 6) (t : BitVec 2)
  /-- `PSTAT` (R251). -/
  | pstat (a : BitVec 6) (t : BitVec 2)
  /-- `RWSMX` (R232). -/
  | rwsmx (c : BitVec 3) (h : BitVec 4) (a : BitVec 6) (b : BitVec 6) (l : BitVec 1) (t : BitVec 2)
  /-- `RWMAX` (R232). -/
  | rwmax (c : BitVec 3) (h : BitVec 4) (a : BitVec 6) (b : BitVec 6) (l : BitVec 1) (t : BitVec 2)
  /-- `RWEXPS` (R232). -/
  | rwexps (c : BitVec 3) (h : BitVec 4) (a : BitVec 6) (b : BitVec 6) (l : BitVec 1) (t : BitVec 2)
  /-- `RWSCL` (R232). -/
  | rwscl (c : BitVec 3) (h : BitVec 4) (a : BitVec 6) (b : BitVec 6) (l : BitVec 1) (t : BitVec 2)
  /-- `RWRMS` (R232). -/
  | rwrms (c : BitVec 3) (h : BitVec 4) (a : BitVec 6) (b : BitVec 6) (l : BitVec 1) (t : BitVec 2)
  /-- `RWLNRM` (R232). -/
  | rwlnrm (c : BitVec 3) (h : BitVec 4) (a : BitVec 6) (b : BitVec 6) (l : BitVec 1) (t : BitVec 2)
  /-- `VADD` (R219). -/
  | vadd (d : BitVec 5) (a : BitVec 5) (b : BitVec 5) (p : BitVec 4) (t : BitVec 2)
  /-- `VSUB` (R219). -/
  | vsub (d : BitVec 5) (a : BitVec 5) (b : BitVec 5) (p : BitVec 4) (t : BitVec 2)
  /-- `VMUL` (R219). -/
  | vmul (d : BitVec 5) (a : BitVec 5) (b : BitVec 5) (p : BitVec 4) (t : BitVec 2)
  /-- `VFMA` (R219). -/
  | vfma (d : BitVec 5) (a : BitVec 5) (b : BitVec 5) (p : BitVec 4) (t : BitVec 2)
  /-- `VFMS` (R219). -/
  | vfms (d : BitVec 5) (a : BitVec 5) (b : BitVec 5) (p : BitVec 4) (t : BitVec 2)
  /-- `VMIN` (R219). -/
  | vmin (d : BitVec 5) (a : BitVec 5) (b : BitVec 5) (p : BitVec 4) (t : BitVec 2)
  /-- `VMAX` (R219). -/
  | vmax (d : BitVec 5) (a : BitVec 5) (b : BitVec 5) (p : BitVec 4) (t : BitVec 2)
  /-- `VABS` (R219). -/
  | vabs (d : BitVec 5) (a : BitVec 5) (p : BitVec 4) (t : BitVec 2)
  /-- `VNEG` (R219). -/
  | vneg (d : BitVec 5) (a : BitVec 5) (p : BitVec 4) (t : BitVec 2)
  /-- `VAND` (R219). -/
  | vand (d : BitVec 5) (a : BitVec 5) (b : BitVec 5) (p : BitVec 4) (t : BitVec 2)
  /-- `VOR` (R219). -/
  | vor (d : BitVec 5) (a : BitVec 5) (b : BitVec 5) (p : BitVec 4) (t : BitVec 2)
  /-- `VXOR` (R219). -/
  | vxor (d : BitVec 5) (a : BitVec 5) (b : BitVec 5) (p : BitVec 4) (t : BitVec 2)
  /-- `VSLL` (R219). -/
  | vsll (d : BitVec 5) (a : BitVec 5) (b : BitVec 5) (p : BitVec 4) (t : BitVec 2)
  /-- `VSRL` (R219). -/
  | vsrl (d : BitVec 5) (a : BitVec 5) (b : BitVec 5) (p : BitVec 4) (t : BitVec 2)
  /-- `VSRA` (R219). -/
  | vsra (d : BitVec 5) (a : BitVec 5) (b : BitVec 5) (p : BitVec 4) (t : BitVec 2)
  /-- `VCMPEQ` (R220). -/
  | vcmpeq (d : BitVec 5) (a : BitVec 5) (b : BitVec 5) (p : BitVec 4) (t : BitVec 2)
  /-- `VCMPLT` (R220). -/
  | vcmplt (d : BitVec 5) (a : BitVec 5) (b : BitVec 5) (p : BitVec 4) (t : BitVec 2)
  /-- `VCMPLE` (R220). -/
  | vcmple (d : BitVec 5) (a : BitVec 5) (b : BitVec 5) (p : BitVec 4) (t : BitVec 2)
  /-- `VSEL` (R220). -/
  | vsel (d : BitVec 5) (a : BitVec 5) (b : BitVec 5) (p : BitVec 4) (t : BitVec 2)
  /-- `VMOV` (R219). -/
  | vmov (d : BitVec 5) (a : BitVec 5) (p : BitVec 4) (t : BitVec 2)
  /-- `VSAT` (R220). -/
  | vsat (d : BitVec 5) (a : BitVec 5) (b : BitVec 5) (p : BitVec 4) (t : BitVec 2)
  /-- `VADDSAT` (R219). -/
  | vaddsat (d : BitVec 5) (a : BitVec 5) (b : BitVec 5) (p : BitVec 4) (t : BitVec 2)
  /-- `VRCP` (R118). -/
  | vrcp (d : BitVec 5) (a : BitVec 5) (p : BitVec 4) (t : BitVec 2)
  /-- `VSQRT` (R118). -/
  | vsqrt (d : BitVec 5) (a : BitVec 5) (p : BitVec 4) (t : BitVec 2)
  /-- `VRSQRT` (R118). -/
  | vrsqrt (d : BitVec 5) (a : BitVec 5) (p : BitVec 4) (t : BitVec 2)
  /-- `VEXP2` (R118). -/
  | vexp2 (d : BitVec 5) (a : BitVec 5) (p : BitVec 4) (t : BitVec 2)
  /-- `VLOG2` (R118). -/
  | vlog2 (d : BitVec 5) (a : BitVec 5) (p : BitVec 4) (t : BitVec 2)
  /-- `VEXP` (R119). -/
  | vexp (d : BitVec 5) (a : BitVec 5) (p : BitVec 4) (t : BitVec 2)
  /-- `VTANH` (R119). -/
  | vtanh (d : BitVec 5) (a : BitVec 5) (p : BitVec 4) (t : BitVec 2)
  /-- `VSIGM` (R119). -/
  | vsigm (d : BitVec 5) (a : BitVec 5) (p : BitVec 4) (t : BitVec 2)
  /-- `VGELU` (R119). -/
  | vgelu (d : BitVec 5) (a : BitVec 5) (p : BitVec 4) (t : BitVec 2)
  /-- `VSILU` (R119). -/
  | vsilu (d : BitVec 5) (a : BitVec 5) (p : BitVec 4) (t : BitVec 2)
  /-- `VCVT` (R223). -/
  | vcvt (d : BitVec 5) (a : BitVec 5) (g : BitVec 5) (p : BitVec 4) (t : BitVec 2)
  /-- `VCVTR` (R223). -/
  | vcvtr (d : BitVec 5) (a : BitVec 5) (m : BitVec 2) (g : BitVec 3) (p : BitVec 4) (t : BitVec 2)
  /-- `VQMX` (R224). -/
  | vqmx (d : BitVec 5) (a : BitVec 5) (b : BitVec 5) (g : BitVec 4) (t : BitVec 2)
  /-- `VDQMX` (R224). -/
  | vdqmx (d : BitVec 5) (a : BitVec 5) (b : BitVec 5) (g : BitVec 4) (t : BitVec 2)
  /-- `VPERM` (R225). -/
  | vperm (d : BitVec 5) (a : BitVec 5) (b : BitVec 5) (p : BitVec 4) (t : BitVec 2)
  /-- `VSHUF` (R225). -/
  | vshuf (d : BitVec 5) (a : BitVec 5) (b : BitVec 5) (p : BitVec 4) (t : BitVec 2)
  /-- `VSLIDE` (R225). -/
  | vslide (d : BitVec 5) (a : BitVec 5) (b : BitVec 5) (p : BitVec 4) (t : BitVec 2)
  /-- `VBCST` (R225). -/
  | vbcst (d : BitVec 5) (a : BitVec 5) (b : BitVec 5) (p : BitVec 4) (t : BitVec 2)
  /-- `VINS` (R225). -/
  | vins (d : BitVec 5) (a : BitVec 5) (b : BitVec 5) (t : BitVec 2)
  /-- `VEXT` (R225). -/
  | vext (d : BitVec 5) (a : BitVec 5) (b : BitVec 5) (t : BitVec 2)
  /-- `VCMPCT` (R226). -/
  | vcmpct (a : BitVec 5) (p : BitVec 4) (t : BitVec 2)
  /-- `VCPOP` (R226). -/
  | vcpop (d : BitVec 5) (p : BitVec 4) (t : BitVec 2)
  /-- `VCFLUSH` (R226). -/
  | vcflush (d : BitVec 5) (p : BitVec 4) (t : BitVec 2)
  /-- `VRSUM` (R227). -/
  | vrsum (d : BitVec 5) (a : BitVec 5) (p : BitVec 4) (t : BitVec 2)
  /-- `VRMAX` (R227). -/
  | vrmax (d : BitVec 5) (a : BitVec 5) (p : BitVec 4) (t : BitVec 2)
  /-- `VRMIN` (R227). -/
  | vrmin (d : BitVec 5) (a : BitVec 5) (p : BitVec 4) (t : BitVec 2)
  /-- `VRAND` (R227). -/
  | vrand (d : BitVec 5) (a : BitVec 5) (p : BitVec 4) (t : BitVec 2)
  /-- `VROR` (R227). -/
  | vror (d : BitVec 5) (a : BitVec 5) (p : BitVec 4) (t : BitVec 2)
  /-- `VDOT` (R227). -/
  | vdot (d : BitVec 5) (a : BitVec 5) (b : BitVec 5) (p : BitVec 4) (t : BitVec 2)
  /-- `VSCAN` (R228). -/
  | vscan (d : BitVec 5) (a : BitVec 5) (p : BitVec 4) (t : BitVec 2)
  /-- `VPCNT` (R227). -/
  | vpcnt (d : BitVec 5) (a : BitVec 5) (p : BitVec 4) (t : BitVec 2)
  /-- `CBIND` (R329). -/
  | cbind (s : BitVec 5) (p : BitVec 1) (d : BitVec 5)
  /-- `CSTART` (R330). -/
  | cstart (r : BitVec 5) (s : BitVec 5) (p : BitVec 1) (d : BitVec 5)
  /-- `CJOIN` (R331). -/
  | cjoin (s : BitVec 5) (p : BitVec 1) (d : BitVec 5)
  /-- `CQUERY` (R331). -/
  | cquery (s : BitVec 5) (p : BitVec 1) (d : BitVec 5)
  /-- `CFENCE` (R331). -/
  | cfence (p : BitVec 1) (d : BitVec 5)
  /-- `CPARK` (R332). -/
  | cpark (p : BitVec 1) (d : BitVec 5)
  /-- `CCANCEL` (R333). -/
  | ccancel (r : BitVec 5) (s : BitVec 5) (p : BitVec 1) (d : BitVec 5)
  /-- `CFREE` (R334). -/
  | cfree (p : BitVec 1) (d : BitVec 5)
  /-- `CSIGNAL` (R335). -/
  | csignal (r : BitVec 5) (s : BitVec 5) (p : BitVec 1) (d : BitVec 5)
  /-- `CVERS` (R336). -/
  | cvers (s : BitVec 5) (p : BitVec 1) (d : BitVec 5)
  /-- `CFAULT` (R337). -/
  | cfault (r : BitVec 5) (s : BitVec 5) (p : BitVec 1) (d : BitVec 5)
  /-- Event `HOST_FORM_INTERRUPT` (R339). -/
  | hostFormInterrupt (hart : Nat)
  /-- Event `BLOCKING_FORM_RETURN` (R331). -/
  | blockingFormReturn (hart : Nat)
  /-- Event `CPSAVE` (R322). -/
  | cpsave (hart : Nat) (addr : Word)
  /-- Event `CPLOAD` (R322). -/
  | cpload (hart : Nat) (addr : Word)
  /-- Event `CPATTN` (R353). -/
  | cpattn (hart : Nat) (rd : BitVec 5)
  /-- Event `REGISTER_WRITE` (R8). -/
  | registerWrite (reg : RegName) (v : Word)
  /-- Event `RESULT_LAND` (R126). -/
  | resultLand (u : Nat) (q : Seq)
  /-- Event `DQOUT_FORWARD` (R138). -/
  | dqoutForward (u : Nat) (q : Seq)
  /-- Event `LOAD_MISS_RETURN` (R128). -/
  | loadMissReturn (u : Nat) (q : Seq)
  /-- Event `STORE_PERFORMED` (R67). -/
  | storePerformed (u : Nat) (q : Seq)
  /-- Event `ATOMIC_PERFORMED` (R285). -/
  | atomicPerformed (u : Nat) (q : Seq)
  /-- Event `BARRIER_DEPART` (R288). -/
  | barrierDepart (u : Nat) (cluster : Bool) (late : List Nat)
  /-- Event `WAITV_RECHECK` (R289). -/
  | waitvRecheck (u : Nat) (q : Seq)
  /-- Event `RETT_RETURN` (R131). -/
  | rettReturn (u : Nat) (q : Seq)
  /-- Event `SEQUENCER_EXIT` (R158). -/
  | sequencerExit (u : Nat) (q : Seq)
  /-- Event `ENGINE_COMMAND_START` (R185). -/
  | engineCommandStart (core : Nat) (eng : Eng)
  /-- Event `ENGINE_COMMAND_COMPLETE` (R185). -/
  | engineCommandComplete (core : Nat) (eng : Eng)
  /-- Event `ENGINE_COMMAND_FAIL` (R186). -/
  | engineCommandFail (core : Nat) (eng : Eng)
  /-- Event `RELOCATION_TAKE` (R193). -/
  | relocationTake (core : Nat) (eng : Eng) (u : Nat) (q : Seq)
  /-- Event `ENGINE_FAULT_WAIT_RESUME` (R403). -/
  | engineFaultWaitResume (core : Nat) (eng : Eng)
  /-- Event `PRESS_ARBITRATE` (R243). -/
  | pressArbitrate (cl : Nat)
  /-- Event `PRESS_RELOAD_COMPLETE` (R246). -/
  | pressReloadComplete (cl : Nat)
  /-- Event `PRESS_COMMAND_START` (R248). -/
  | pressCommandStart (cl : Nat)
  /-- Event `PRESS_COMMAND_COMPLETE` (R248). -/
  | pressCommandComplete (cl : Nat)
  /-- Event `PRESS_GRANT_CYCLES_EXPIRE` (R244). -/
  | pressGrantCyclesExpire (cl : Nat)
  /-- Event `COLLECTIVE_CONTRIBUTION` (R432). -/
  | collectiveContribution (die : Nat) (c : Contribution)
  /-- Event `COLLECTIVE_COMMIT` (R432). -/
  | collectiveCommit (die : Nat) (idx : Nat) (late : Bool)
  /-- Event `COLLECTIVE_TIMEOUT` (R433). -/
  | collectiveTimeout (die : Nat) (idx : Nat)
  /-- Event `WALK_COMPLETE` (R392). -/
  | walkComplete (die : Nat) (idx : Nat)
  /-- Event `FQTAIL_WRITE` (R396). -/
  | fqtailWrite (die : Nat) (v : Word)
  /-- Event `FQCFG_WRITE` (R396). -/
  | fqcfgWrite (die : Nat) (v : Word)
  /-- Event `FQRPL_RETRY` (R397). -/
  | fqrplRetry (die : Nat) (w : Word)
  /-- Event `FQRPL_REJECT` (R397). -/
  | fqrplReject (die : Nat) (w : Word)
  /-- Event `FQRPL_TERMINATE` (R397). -/
  | fqrplTerminate (die : Nat) (w : Word)
  /-- Event `SFENCE_VMA` (R391): a fence of a kind, for one address or all, and for one space or all. -/
  | sfenceVma (hart : Nat) (addr : Option Word) (space : FenceKind × Option Word)
  /-- Event `LEES_SPILL` (R282). -/
  | leesSpill (agent : Agent) (n : Nat)
  /-- Event `STAGE_FLUSH` (R306). -/
  | stageFlush (u : Nat) (level : Nat)
  /-- Event `HART_DEVICE_RACE` (R350). -/
  | hartDeviceRace (hart : Nat) (va : Word) (write : Bool)
  /-- Event `SCHED_TICK` (R375). -/
  | schedTick (now : Nat)
  /-- Event `PARK` (R341). -/
  | park (u : Nat)
  /-- Event `UNPARK` (R341). -/
  | unpark (u : Nat) (places : List UnitPlace)
  /-- Event `LAUNCH_PLACE` (R374). -/
  | launchPlace (k : NodeKey) (places : List UnitPlace) (params : Word)
  /-- Event `NODE_COMPLETE` (R365). -/
  | nodeComplete (k : NodeKey)
  /-- Event `WAIT_EVALUATE` (R367). -/
  | waitEvaluate (k : NodeKey)
  /-- Event `SIGNAL_NODE` (R368). -/
  | signalNode (k : NodeKey)
  /-- Event `COPY_NODE_COMPLETE` (R368). -/
  | copyNodeComplete (k : NodeKey)
  /-- Event `PHASE_PERIOD_TIMER` (R371). -/
  | phasePeriodTimer (cont job : Nat) (now : Nat)
  /-- Event `AGING_EXPIRE` (R377). -/
  | agingExpire (k : NodeKey) (now : Nat)
  /-- Event `ENERGY_ESTIMATE_TICK` (R408). -/
  | energyEstimateTick (now : Nat)
  /-- Event `REFILL_BOUNDARY` (R410). -/
  | refillBoundary (cont : Nat) (now : Nat)
  /-- Event `ARBITER_PERIOD` (R415). -/
  | arbiterPeriod (now : Nat)
  /-- Event `BIAS_MOVE_COMPLETE` (R411). -/
  | biasMoveComplete (cl : Nat)
  /-- Event `THERMAL_HEADROOM_LOST` (R413). -/
  | thermalHeadroomLost (cl : Nat)
  /-- Event `THERMAL_HEADROOM_REGAINED` (R413). -/
  | thermalHeadroomRegained (cl : Nat)
  /-- Event `THERMAL_STEP_DOWN` (R413). -/
  | thermalStepDown (cl : Nat)
  /-- Event `BALLAST_START` (R416). -/
  | ballastStart (die : Nat)
  /-- Event `BALLAST_SHED` (R416). -/
  | ballastShed (die : Nat)
  /-- Event `TRIP` (R422). -/
  | trip (die : Nat) (limit : Nat) (now : Nat)
  /-- Event `BREACH_RECEIVE` (R422). -/
  | breachReceive (member : Nat) (limit : Nat) (now : Nat)
  /-- Event `CEILING_STAMP` (R420). -/
  | ceilingStamp (now : Nat)
  /-- Event `HEARTBEAT_SEND` (R419). -/
  | heartbeatSend (now : Nat)
  /-- Event `HEARTBEAT_RECEIVE` (R421). -/
  | heartbeatReceive (hb : Heartbeat) (now : Nat)
  /-- Event `HEARTBEAT_MISS` (R421). -/
  | heartbeatMiss (member : Nat) (now : Nat)
  /-- Event `MEMBER_EVICT` (R421). -/
  | memberEvict (member : Nat) (now : Nat)
  /-- Event `LEAVE_COMPLETE` (R421). -/
  | leaveComplete (now : Nat)
  /-- Event `GROUP_LINK_UP` (R421). -/
  | groupLinkUp (index : Nat) (peers : List Heartbeat) (version : Nat)
  /-- Event `GROUP_VERSION_CHANGE` (R435). -/
  | groupVersionChange (version : Nat) (now : Nat)
  /-- Event `LINK_BRINGUP` (R435). -/
  | linkBringup (port : Nat) (lo hi : Nat)
  /-- Event `FLIT_RECEIVE` (R424). -/
  | flitReceive (port : Nat) (flit : Flit)
  /-- Event `PAUSE_RECEIVE` (R426). -/
  | pauseReceive (port : Nat) (cls : Nat)
  /-- Event `RESUME_RECEIVE` (R426). -/
  | resumeReceive (port : Nat) (cls : Nat)
  /-- Event `ADMISSION_WINDOW` (R425). -/
  | admissionWindow (port : Nat) (now : Nat)
  /-- Event `MODULE_RESET` (R436). -/
  | moduleReset
  /-- Event `WATCHDOG_EXPIRE` (R440). -/
  | watchdogExpire
  /-- Event `GETVER` (R442). -/
  | getver (major : Nat)
  /-- Event `SLOTWR` (R439). -/
  | slotwr (piece : SlotPiece)
  /-- Event `SLOTACT` (R439). -/
  | slotact
  /-- Event `CONFIRM` (R440). -/
  | confirm (atDeadline : Bool)
  /-- Event `WDSET` (R439). -/
  | wdset (seconds : Nat)
  /-- Event `MEXT` (R438). -/
  | mext (reg : Nat) (digest : List Byte)
  /-- Event `LEESCFG` (R282). -/
  | leescfg (base size max : Nat)
  /-- Event `SCHCFG` (R358). -/
  | schcfg (base size : Nat)
  /-- Event `ENSET` (R410). -/
  | enset (cont : Nat) (setting : Word)
  /-- Event `CAPSET` (R417). -/
  | capset (cap : Nat) (floors : List Nat)
  /-- Event `PWRSTAT` (R418). -/
  | pwrstat (clear : Word)
  /-- Event `QSET` (R375). -/
  | qset (q : Nat)
  /-- Event `LAYSET` (R178). -/
  | layset (cls : Nat) (params : Word)
  /-- Event `CSETPROG` (R428). -/
  | csetprog (set : Nat) (ranks : List Nat) (stamp : BitVec 32)
  /-- Event `PARTCFG` (R444). -/
  | partcfg (part : Nat) (clusters : List Nat)
  /-- Event `GET_VERSION` (R443). -/
  | getVersion (via : SpdmVia)
  /-- Event `GET_CAPABILITIES` (R443). -/
  | getCapabilities (via : SpdmVia)
  /-- Event `NEGOTIATE_ALGORITHMS` (R443). -/
  | negotiateAlgorithms (via : SpdmVia)
  /-- Event `GET_DIGESTS` (R443). -/
  | getDigests (via : SpdmVia)
  /-- Event `GET_CERTIFICATE` (R443). -/
  | getCertificate (via : SpdmVia)
  /-- Event `CHALLENGE` (R443). -/
  | challenge (via : SpdmVia)
  /-- Event `GET_MEASUREMENTS` (R443). -/
  | getMeasurements (via : SpdmVia) (block : Nat)
  /-- Event `KEY_EXCHANGE` (R443). -/
  | keyExchange (via : SpdmVia) (part : Option Nat)
  /-- Event `FINISH` (R443). -/
  | finish (via : SpdmVia)
  /-- Event `END_SESSION` (R443). -/
  | endSession (via : SpdmVia)
  /-- Event `TDISP_LOCK` (R444). -/
  | tdispLock (part : Nat)
  /-- Event `TDISP_LEAVE_RUN` (R445). -/
  | tdispLeaveRun (part : Nat)
  /-- Event `SPDM_SESSION_EXPIRE` (R445). -/
  | spdmSessionExpire (part : Nat)
  /-- Event `TDISP_UNLOCK` (R445). -/
  | tdispUnlock (part : Nat)
  /-- Event `HART_ACCESS` (R278). -/
  | hartAccess (hart : Nat) (acc : HartAcc)
  /-- Event `EXTERNAL_HOST_ACCESS` (R269). -/
  | externalHostAccess (acc : ExtAcc)
  /-- Event `TDISP_RUN` (R444). -/
  | tdispRun (part : Nat)
  deriving DecidableEq, Repr

/-- The eleven host forms with their fields, as a port reads them from a word (R85, R328); `HostForm.toInstr` names the constructor
of `Instr` each one is. -/
inductive HostForm where

  /-- `CBIND` (R329). -/
  | cbind (s : BitVec 5) (p : BitVec 1) (d : BitVec 5)
  /-- `CSTART` (R330). -/
  | cstart (r : BitVec 5) (s : BitVec 5) (p : BitVec 1) (d : BitVec 5)
  /-- `CJOIN` (R331). -/
  | cjoin (s : BitVec 5) (p : BitVec 1) (d : BitVec 5)
  /-- `CQUERY` (R331). -/
  | cquery (s : BitVec 5) (p : BitVec 1) (d : BitVec 5)
  /-- `CFENCE` (R331). -/
  | cfence (p : BitVec 1) (d : BitVec 5)
  /-- `CPARK` (R332). -/
  | cpark (p : BitVec 1) (d : BitVec 5)
  /-- `CCANCEL` (R333). -/
  | ccancel (r : BitVec 5) (s : BitVec 5) (p : BitVec 1) (d : BitVec 5)
  /-- `CFREE` (R334). -/
  | cfree (p : BitVec 1) (d : BitVec 5)
  /-- `CSIGNAL` (R335). -/
  | csignal (r : BitVec 5) (s : BitVec 5) (p : BitVec 1) (d : BitVec 5)
  /-- `CVERS` (R336). -/
  | cvers (s : BitVec 5) (p : BitVec 1) (d : BitVec 5)
  /-- `CFAULT` (R337). -/
  | cfault (r : BitVec 5) (s : BitVec 5) (p : BitVec 1) (d : BitVec 5)
  deriving DecidableEq, Repr

/-- The instruction of a host form. (Lean's runtime has no tags left for the last of these constructors, so this map has no
compiled code; the kernel evaluates it, and `step` runs host forms without it.) -/
noncomputable def HostForm.toInstr : HostForm → Instr
  | .cbind s p d => .cbind s p d
  | .cstart r s p d => .cstart r s p d
  | .cjoin s p d => .cjoin s p d
  | .cquery s p d => .cquery s p d
  | .cfence p d => .cfence p d
  | .cpark p d => .cpark p d
  | .ccancel r s p d => .ccancel r s p d
  | .cfree p d => .cfree p d
  | .csignal r s p d => .csignal r s p d
  | .cvers s p d => .cvers s p d
  | .cfault r s p d => .cfault r s p d

end Sys2Proof
end

