-- ==== Sys2Proof/WellFormed.lean ====
section
/-!
DEFINITION. Which instructions are well formed: the limits of the fields (R64, R69, R70, R73 to R78), the
sequencers that accept each form (R77 to R80), and the host forms' own condition (R85). Reserved fields (R65) have no place
in `Instr`: the decoder refuses a word whose reserved fields are not 0.
-/

namespace Sys2Proof

/-- The place of a sequencer in the order C, L, X, S, as queue names and windows count it (R35, R133). -/
def Seq.idx : Seq → Nat
  | .c => 0
  | .l => 1
  | .x => 2
  | .s => 3

/-- The queue indices that a sequencer may name (R77). -/
def queueLegal (q : Seq) (n : Nat) : Bool :=
  if n ≤ 3 then n != q.idx
  else if n ≤ 7 then n - 4 != q.idx
  else if n ≤ 9 then true
  else if n == 10 then q == .l || q == .x
  else if n == 11 then q == .x || q == .s
  else if n == 12 then q == .l || q == .x
  else if n == 16 then q != .x
  else if n == 17 then q == .c || q == .l
  else n == 18 && q == .c || n == 19 && q == .c || n == 20 && q == .c

/-- The engine queues a `FENCEE` mask names are those legal in the sequencer (R287): bit k is queue 16 + k. -/
def maskLegal (q : Seq) (m : BitVec 8) : Bool :=
  [0, 1, 2, 3, 4].all fun k => !m.getLsbD k || queueLegal q (16 + k)

/-- The registers that the module has: of four dies, 768 cores and 128 harts (R13, R16). -/
def RegName.inRange : RegName → Bool
  | .fqbase d => d < 4
  | .fqhead d => d < 4
  | .fqseq d => d < 4
  | .wslot c => c < 768
  | .window c _ => c < 768
  | .cpthr h => h < 128
  | .cpsel h => h < 128
  | .cpgdrop h => h < 128
  | .sie h => h < 128

/-- The limits of an instruction's fields that do not depend on the sequencer (R64, R69, R70, R73 to R76, R85, R214,
R222, R307, R379). An event names a die, port, cluster, core, hart or continuation identifier that the module has (R13 to R16, R320). -/
def Instr.fieldsLegal : Instr → Bool
  | .ill _ _ _ _ => true
  | .nop _ => true
  | .halt _ => true
  | .trap _ _ => true
  | .rett _ => true
  | .mfs _ i _ => i.toNat < 10
  | .mts _ i _ => i.toNat < 10
  | .vcyc _ _ => true
  | .dbgpend _ i _ => i.toNat < 4
  | .bkpt _ _ => true
  | .wfe _ => true
  | .sev i _ => i &&& 0b110100#6 == 0#6
  | .tkcfg i _ => i.extractLsb' 4 2 != 0#2
  | .ident _ i _ => i.toNat ≤ 11
  | .pace _ _ _ => true
  | .enrd _ i _ => i.toNat ≤ 5
  | .gceil _ _ => true
  | .add _ _ _ _ => true
  | .sub _ _ _ _ => true
  | .and _ _ _ _ => true
  | .or _ _ _ _ => true
  | .xor _ _ _ _ => true
  | .andn _ _ _ _ => true
  | .sll _ _ _ _ => true
  | .srl _ _ _ _ => true
  | .sra _ _ _ _ => true
  | .rol _ _ _ _ => true
  | .slt _ _ _ _ => true
  | .sltu _ _ _ _ => true
  | .min _ _ _ _ => true
  | .max _ _ _ _ => true
  | .minu _ _ _ _ => true
  | .maxu _ _ _ _ => true
  | .mul _ _ _ _ => true
  | .mulh _ _ _ _ => true
  | .mulhu _ _ _ _ => true
  | .div _ _ _ _ => true
  | .divu _ _ _ _ => true
  | .rem _ _ _ _ => true
  | .remu _ _ _ _ => true
  | .clz _ _ _ => true
  | .ctz _ _ _ => true
  | .popc _ _ _ => true
  | .sext _ _ _ _ => true
  | .zext _ _ _ _ => true
  | .addw _ _ _ _ => true
  | .subw _ _ _ _ => true
  | .mulw _ _ _ _ => true
  | .addi _ _ _ _ => true
  | .andi _ _ _ _ => true
  | .ori _ _ _ _ => true
  | .xori _ _ _ _ => true
  | .slti _ _ _ _ => true
  | .slli _ _ i _ => i.toNat < 64
  | .srli _ _ i _ => i.toNat < 64
  | .srai _ _ i _ => i.toNat < 64
  | .movhi _ _ _ => true
  | .ld _ _ _ _ _ => true
  | .lds _ _ _ _ _ => true
  | .st _ _ _ _ _ => true
  | .beqz _ _ _ => true
  | .bnez _ _ _ => true
  | .bltz _ _ _ => true
  | .bgez _ _ _ => true
  | .bgtz _ _ _ => true
  | .blez _ _ _ => true
  | .bp a _ _ => a.toNat ≤ 11
  | .bnp a _ _ => a.toNat ≤ 11
  | .bq _ _ => true
  | .bnq _ _ => true
  | .jmp _ _ => true
  | .call _ _ => true
  | .jr _ _ _ _ => true
  | .callr _ _ _ _ => true
  | .tkpush _ _ => true
  | .tkpop _ _ => true
  | .tkcnt _ _ _ => true
  | .qpeek _ _ _ => true
  | .qcnt _ _ _ => true
  | .qsquash _ _ => true
  | .qfmt _ _ _ => true
  | .qsel _ _ => true
  | .bqpush a _ => a.toNat ≤ 11
  | .qwait _ _ => true
  | .epop _ _ _ => true
  | .hmov _ _ _ => true
  | .hld _ _ _ => true
  | .hst _ _ _ => true
  | .hsetb _ _ _ _ => true
  | .hsetd _ _ k _ _ => k.toNat ≤ 3
  | .hsets _ _ k _ _ => 1 ≤ k.toNat && k.toNat ≤ 3
  | .hsetf _ _ _ _ => true
  | .hgetb _ _ _ => true
  | .hgetd _ k _ _ => k.toNat ≤ 7
  | .hoff _ _ k _ _ => k.toNat ≤ 3
  | .hsub _ _ _ _ => true
  | .hchk _ _ _ => true
  | .hclr _ _ => true
  | .ctld _ _ _ _ _ => true
  | .ctst _ _ _ _ _ => true
  | .ccpy _ _ _ _ _ => true
  | .cfill _ _ _ _ _ => true
  | .cpfx _ _ _ _ _ => true
  | .cxfr _ _ _ _ => true
  | .gath _ _ _ _ => true
  | .scat _ _ _ _ => true
  | .gathp _ _ _ _ => true
  | .scata _ _ _ _ => true
  | .xallr _ _ _ _ => true
  | .xrds _ _ _ _ => true
  | .xallg _ _ _ _ => true
  | .xsend _ _ _ _ => true
  | .xrecv _ _ _ _ => true
  | .xexch _ _ _ _ => true
  | .ald _ _ o s _ => (o.toNat == 0 || o.toNat == 1 || o.toNat == 4) && s.toNat ≤ 10
  | .ast _ _ o s _ => (o.toNat == 0 || o.toNat == 2 || o.toNat == 4) && s.toNat ≤ 10
  | .aswp _ _ _ o s _ => o.toNat ≤ 4 && s.toNat ≤ 10
  | .acas _ _ _ o s _ => o.toNat ≤ 4 && s.toNat ≤ 10
  | .aadd _ _ _ o s _ => o.toNat ≤ 4 && s.toNat ≤ 10
  | .aand _ _ _ o s _ => o.toNat ≤ 4 && s.toNat ≤ 10
  | .aor _ _ _ o s _ => o.toNat ≤ 4 && s.toNat ≤ 10
  | .axor _ _ _ o s _ => o.toNat ≤ 4 && s.toNat ≤ 10
  | .amin _ _ _ o s _ => o.toNat ≤ 4 && s.toNat ≤ 10
  | .amax _ _ _ o s _ => o.toNat ≤ 4 && s.toNat ≤ 10
  | .aminu _ _ _ o s _ => o.toNat ≤ 4 && s.toNat ≤ 10
  | .amaxu _ _ _ o s _ => o.toNat ≤ 4 && s.toNat ≤ 10
  | .afadd _ _ _ o s => o.toNat ≤ 4 && s.toNat ≤ 10
  | .sigdec _ _ _ o s => 2 ≤ o.toNat && o.toNat ≤ 4 && s.toNat ≤ 10
  | .sigadd _ _ _ o s => 2 ≤ o.toNat && o.toNat ≤ 4 && s.toNat ≤ 10
  | .fence s o _ => s.toNat ≤ 10 && 1 ≤ o.toNat && o.toNat ≤ 4
  | .fencee s o m _ => s.toNat ≤ 10 && 1 ≤ o.toNat && o.toNat ≤ 4 && 1 ≤ m.toNat && m.toNat < 32
  | .ssync _ => true
  | .cbar _ => true
  | .waitv s o _ c _ => s.toNat ≤ 10 && (o.toNat == 0 || o.toNat == 1 || o.toNat == 4) && c.toNat ≤ 5
  | .ckopen _ _ _ => true
  | .ckopenGrow _ _ _ => true
  | .ckseal _ _ _ => true
  | .ckblnd _ _ _ _ => true
  | .ckfilt _ _ r _ => 1 ≤ r.toNat && r.toNat ≤ 58
  | .ckrebs _ _ r _ => 1 ≤ r.toNat && r.toNat ≤ 57
  | .ckpour _ r _ => 1 ≤ r.toNat && r.toNat != 60 && r.toNat != 61
  | .ckdrop _ _ => true
  | .ckinfo _ k _ _ => k.toNat ≤ 4
  | .ckabort _ _ => true
  | .glaunch _ a _ => 1 ≤ a.toNat && a.toNat ≤ 58
  | .gwait _ a i _ => i.toNat ≤ 5 && (i.toNat != 0 || a.toNat < 59)
  | .gcancel _ a i _ => i.toNat ≤ 5 && (i.toNat != 0 || a.toNat < 59)
  | .gcnt _ a i _ => i.toNat ≤ 5 && (i.toNat != 0 || a.toNat < 59)
  | .yield _ => true
  | .uexit _ => true
  | .priset _ _ _ => true
  | .pset d _ i _ => d.toNat ≤ 11 && i.toNat ≤ 7
  | .pand d a i _ => d.toNat ≤ 11 && a.toNat ≤ 11 && i.toNat ≤ 11
  | .por d a i _ => d.toNat ≤ 11 && a.toNat ≤ 11 && i.toNat ≤ 11
  | .pxor d a i _ => d.toNat ≤ 11 && a.toNat ≤ 11 && i.toNat ≤ 11
  | .pnot d a _ => d.toNat ≤ 11 && a.toNat ≤ 11
  | .pmov d a _ => d.toNat ≤ 11 && a.toNat ≤ 11
  | .ptos _ a i _ => a.toNat ≤ 11 && i.toNat ≤ 15
  | .pall _ a i _ => a.toNat ≤ 11 && i.toNat ≤ 3
  | .pany _ a i _ => a.toNat ≤ 11 && i.toNat ≤ 3
  | .vwin _ _ => true
  | .loopx _ i _ => 1 ≤ i.toNat && i.toNat ≤ 4
  | .loope _ => true
  | .vrot _ _ => true
  | .vtag d _ _ => d.toNat ≤ 29
  | .vtagr d _ _ => d.toNat ≤ 29
  | .vld _ _ _ _ => true
  | .vst _ _ _ _ => true
  | .vldt _ _ m _ => m.toNat ≤ 10
  | .vldg _ _ _ _ => true
  | .vsts _ _ m _ => m.toNat ≤ 10
  | .vldb _ _ m _ => m.toNat ≤ 10
  | .vlds _ _ m _ => m.toNat ≤ 10
  | .plse _ => true
  | .prel _ => true
  | .pwld _ _ _ => true
  | .pmul _ _ _ _ => true
  | .pmulz _ _ _ _ => true
  | .pdrn _ _ _ _ => true
  | .pstat _ _ => true
  | .rwsmx _ _ _ _ _ _ => true
  | .rwmax _ _ _ _ _ _ => true
  | .rwexps _ _ _ _ _ _ => true
  | .rwscl _ _ _ _ _ _ => true
  | .rwrms _ _ _ _ _ _ => true
  | .rwlnrm _ _ _ _ _ _ => true
  | .vadd _ _ _ p _ => p.toNat ≤ 11
  | .vsub _ _ _ p _ => p.toNat ≤ 11
  | .vmul _ _ _ p _ => p.toNat ≤ 11
  | .vfma _ _ _ p _ => p.toNat ≤ 11
  | .vfms _ _ _ p _ => p.toNat ≤ 11
  | .vmin _ _ _ p _ => p.toNat ≤ 11
  | .vmax _ _ _ p _ => p.toNat ≤ 11
  | .vabs _ _ p _ => p.toNat ≤ 11
  | .vneg _ _ p _ => p.toNat ≤ 11
  | .vand _ _ _ p _ => p.toNat ≤ 11
  | .vor _ _ _ p _ => p.toNat ≤ 11
  | .vxor _ _ _ p _ => p.toNat ≤ 11
  | .vsll _ _ _ p _ => p.toNat ≤ 11
  | .vsrl _ _ _ p _ => p.toNat ≤ 11
  | .vsra _ _ _ p _ => p.toNat ≤ 11
  | .vcmpeq d _ _ p _ => d.toNat ≤ 11 && p.toNat ≤ 11
  | .vcmplt d _ _ p _ => d.toNat ≤ 11 && p.toNat ≤ 11
  | .vcmple d _ _ p _ => d.toNat ≤ 11 && p.toNat ≤ 11
  | .vsel _ _ _ p _ => p.toNat ≤ 11
  | .vmov _ _ p _ => p.toNat ≤ 11
  | .vsat _ _ _ p _ => p.toNat ≤ 11
  | .vaddsat _ _ _ p _ => p.toNat ≤ 11
  | .vrcp _ _ p _ => p.toNat ≤ 11
  | .vsqrt _ _ p _ => p.toNat ≤ 11
  | .vrsqrt _ _ p _ => p.toNat ≤ 11
  | .vexp2 _ _ p _ => p.toNat ≤ 11
  | .vlog2 _ _ p _ => p.toNat ≤ 11
  | .vexp _ _ p _ => p.toNat ≤ 11
  | .vtanh _ _ p _ => p.toNat ≤ 11
  | .vsigm _ _ p _ => p.toNat ≤ 11
  | .vgelu _ _ p _ => p.toNat ≤ 11
  | .vsilu _ _ p _ => p.toNat ≤ 11
  | .vcvt _ _ g p _ => 1 ≤ g.toNat && g.toNat ≤ 18 && p.toNat ≤ 11
  | .vcvtr _ _ m _ p _ => 1 ≤ m.toNat && p.toNat ≤ 11
  | .vqmx _ _ _ g _ => g.toNat ≤ 4
  | .vdqmx _ _ _ g _ => g.toNat ≤ 2
  | .vperm _ _ _ p _ => p.toNat ≤ 11
  | .vshuf _ _ _ p _ => p.toNat ≤ 11
  | .vslide _ _ _ p _ => p.toNat ≤ 11
  | .vbcst _ _ _ p _ => p.toNat ≤ 11
  | .vins _ _ _ _ => true
  | .vext _ _ _ _ => true
  | .vcmpct _ p _ => p.toNat ≤ 11
  | .vcpop _ p _ => p.toNat ≤ 11
  | .vcflush _ p _ => p.toNat ≤ 11
  | .vrsum _ _ p _ => p.toNat ≤ 11
  | .vrmax _ _ p _ => p.toNat ≤ 11
  | .vrmin _ _ p _ => p.toNat ≤ 11
  | .vrand _ _ p _ => p.toNat ≤ 11
  | .vror _ _ p _ => p.toNat ≤ 11
  | .vdot _ _ _ p _ => p.toNat ≤ 11
  | .vscan _ _ p _ => p.toNat ≤ 11
  | .vpcnt _ _ p _ => p.toNat ≤ 11
  | .cbind _ p d => p == 1#1 || d == 0#5
  | .cstart _ _ p d => p == 1#1 || d == 0#5
  | .cjoin _ p d => p == 1#1 || d == 0#5
  | .cquery _ p d => p == 1#1 || d == 0#5
  | .cfence p d => p == 1#1 || d == 0#5
  | .cpark p d => p == 1#1 || d == 0#5
  | .ccancel _ _ p d => p == 1#1 || d == 0#5
  | .cfree p d => p == 1#1 || d == 0#5
  | .csignal _ _ p d => p == 1#1 || d == 0#5
  | .cvers _ p d => p == 1#1 || d == 0#5
  | .cfault _ _ p d => p == 1#1 || d == 0#5
  | .hostFormInterrupt h => h < 128
  | .blockingFormReturn h => h < 128
  | .cpsave h _ => h < 128
  | .cpload h _ => h < 128
  | .cpattn h _ => h < 128
  | .registerWrite r _ => r.inRange
  | .resultLand _ _ => true
  | .dqoutForward _ _ => true
  | .loadMissReturn _ _ => true
  | .storePerformed _ _ => true
  | .atomicPerformed _ _ => true
  | .barrierDepart _ _ _ => true
  | .waitvRecheck _ _ => true
  | .rettReturn _ _ => true
  | .sequencerExit _ _ => true
  | .engineCommandStart c _ => c < 768
  | .engineCommandComplete c _ => c < 768
  | .engineCommandFail c _ => c < 768
  | .relocationTake c _ _ _ => c < 768
  | .engineFaultWaitResume c _ => c < 768
  | .pressArbitrate c => c < 192
  | .pressReloadComplete c => c < 192
  | .pressCommandStart c => c < 192
  | .pressCommandComplete c => c < 192
  | .pressGrantCyclesExpire c => c < 192
  | .collectiveContribution d _ => d < 4
  | .collectiveCommit d _ _ => d < 4
  | .collectiveTimeout d _ => d < 4
  | .walkComplete d _ => d < 4
  | .fqtailWrite d _ => d < 4
  | .fqcfgWrite d _ => d < 4
  | .fqrplRetry d _ => d < 4
  | .fqrplReject d _ => d < 4
  | .fqrplTerminate d _ => d < 4
  | .sfenceVma h _ _ => h < 128
  | .leesSpill _ _ => true
  | .stageFlush _ _ => true
  | .hartDeviceRace h _ _ => h < 128
  | .schedTick _ => true
  | .park _ => true
  | .unpark _ ps => ps.all (fun p => p.core < 768)
  | .launchPlace k ps _ => k.cont < 1048576 && ps.all (fun p => p.core < 768)
  | .nodeComplete k => k.cont < 1048576
  | .waitEvaluate k => k.cont < 1048576
  | .signalNode k => k.cont < 1048576
  | .copyNodeComplete k => k.cont < 1048576
  | .phasePeriodTimer c _ _ => c < 1048576
  | .agingExpire k _ => k.cont < 1048576
  | .energyEstimateTick _ => true
  | .refillBoundary c _ => c < 1048576
  | .arbiterPeriod _ => true
  | .biasMoveComplete c => c < 192
  | .thermalHeadroomLost c => c < 192
  | .thermalHeadroomRegained c => c < 192
  | .thermalStepDown c => c < 192
  | .ballastStart d => d < 4
  | .ballastShed d => d < 4
  | .trip d _ _ => d < 4
  | .breachReceive _ _ _ => true
  | .ceilingStamp _ => true
  | .heartbeatSend _ => true
  | .heartbeatReceive _ _ => true
  | .heartbeatMiss _ _ => true
  | .memberEvict _ _ => true
  | .leaveComplete _ => true
  | .groupLinkUp _ _ _ => true
  | .groupVersionChange _ _ => true
  | .linkBringup p _ _ => p < 36
  | .flitReceive p f => p < 36 && f.cls < 4 && f.bytes.length == 240
  | .pauseReceive p _ => p < 36
  | .resumeReceive p _ => p < 36
  | .admissionWindow p _ => p < 36
  | .moduleReset => true
  | .watchdogExpire => true
  | .getver _ => true
  | .slotwr p => p.bytes.length ≤ 4096
  | .slotact => true
  | .confirm _ => true
  | .wdset _ => true
  | .mext _ _ => true
  | .leescfg _ _ _ => true
  | .schcfg _ _ => true
  | .enset c _ => c < 1048576
  | .capset _ _ => true
  | .pwrstat _ => true
  | .qset _ => true
  | .layset _ _ => true
  | .csetprog _ _ _ => true
  | .partcfg _ _ => true
  | .getVersion _ => true
  | .getCapabilities _ => true
  | .negotiateAlgorithms _ => true
  | .getDigests _ => true
  | .getCertificate _ => true
  | .challenge _ => true
  | .getMeasurements _ _ => true
  | .keyExchange _ _ => true
  | .finish _ => true
  | .endSession _ => true
  | .tdispLock _ => true
  | .tdispLeaveRun _ => true
  | .spdmSessionExpire _ => true
  | .tdispUnlock _ => true
  | .hartAccess h _ => h < 128
  | .externalHostAccess _ => true
  | .tdispRun _ => true

/-- The forms that a sequencer accepts (R77 to R80, R142, R152, R153). Host forms and events are no sequencer's. -/
def Instr.acceptedIn (q : Seq) : Instr → Bool
  | .ill _ _ _ _ => true
  | .nop _ => true
  | .halt _ => true
  | .trap _ _ => true
  | .rett _ => true
  | .mfs _ _ _ => true
  | .mts _ _ _ => true
  | .vcyc _ _ => true
  | .dbgpend _ _ _ => true
  | .bkpt _ _ => true
  | .wfe _ => q != .x
  | .sev _ _ => q != .x
  | .tkcfg _ _ => true
  | .ident _ _ _ => true
  | .pace _ i _ => 16 ≤ i.toNat && queueLegal q i.toNat
  | .enrd _ _ _ => q == .c
  | .gceil _ _ => q == .c
  | .add _ _ _ _ => true
  | .sub _ _ _ _ => true
  | .and _ _ _ _ => true
  | .or _ _ _ _ => true
  | .xor _ _ _ _ => true
  | .andn _ _ _ _ => true
  | .sll _ _ _ _ => true
  | .srl _ _ _ _ => true
  | .sra _ _ _ _ => true
  | .rol _ _ _ _ => true
  | .slt _ _ _ _ => true
  | .sltu _ _ _ _ => true
  | .min _ _ _ _ => true
  | .max _ _ _ _ => true
  | .minu _ _ _ _ => true
  | .maxu _ _ _ _ => true
  | .mul _ _ _ _ => true
  | .mulh _ _ _ _ => true
  | .mulhu _ _ _ _ => true
  | .div _ _ _ _ => true
  | .divu _ _ _ _ => true
  | .rem _ _ _ _ => true
  | .remu _ _ _ _ => true
  | .clz _ _ _ => true
  | .ctz _ _ _ => true
  | .popc _ _ _ => true
  | .sext _ _ _ _ => true
  | .zext _ _ _ _ => true
  | .addw _ _ _ _ => true
  | .subw _ _ _ _ => true
  | .mulw _ _ _ _ => true
  | .addi _ _ _ _ => true
  | .andi _ _ _ _ => true
  | .ori _ _ _ _ => true
  | .xori _ _ _ _ => true
  | .slti _ _ _ _ => true
  | .slli _ _ _ _ => true
  | .srli _ _ _ _ => true
  | .srai _ _ _ _ => true
  | .movhi _ _ _ => true
  | .ld _ _ _ _ _ => q != .x
  | .lds _ _ _ _ _ => q != .x
  | .st _ _ _ _ _ => q != .x
  | .beqz _ _ _ => q != .x
  | .bnez _ _ _ => q != .x
  | .bltz _ _ _ => q != .x
  | .bgez _ _ _ => q != .x
  | .bgtz _ _ _ => q != .x
  | .blez _ _ _ => q != .x
  | .bp _ _ _ => q != .x
  | .bnp _ _ _ => q != .x
  | .bq _ _ => q == .x
  | .bnq _ _ => q == .x
  | .jmp _ _ => q != .x
  | .call _ _ => q != .x
  | .jr _ _ _ _ => q != .x
  | .callr _ _ _ _ => q != .x
  | .tkpush k _ => k.toNat ≤ 3 && queueLegal q k.toNat
  | .tkpop k _ => 4 ≤ k.toNat && k.toNat ≤ 7 && queueLegal q k.toNat
  | .tkcnt _ k _ => k.toNat ≤ 7 && queueLegal q k.toNat
  | .qpeek _ k _ => (k.toNat == 8 || 12 ≤ k.toNat) && queueLegal q k.toNat
  | .qcnt _ k _ => queueLegal q k.toNat
  | .qsquash k _ => queueLegal q k.toNat
  | .qfmt _ k _ => (k.toNat == 8 || k.toNat == 10 || k.toNat == 11) && queueLegal q k.toNat
  | .qsel k _ => k.toNat ≤ 3 && queueLegal q k.toNat
  | .bqpush _ _ => q == .l
  | .qwait k _ => queueLegal q k.toNat
  | .epop _ k _ => 16 ≤ k.toNat && queueLegal q k.toNat
  | .hmov _ _ _ => q != .x
  | .hld _ _ _ => q != .x
  | .hst _ _ _ => q != .x
  | .hsetb _ _ _ _ => q != .x
  | .hsetd _ _ _ _ _ => q != .x
  | .hsets _ _ _ _ _ => q != .x
  | .hsetf _ _ _ _ => q != .x
  | .hgetb _ _ _ => q != .x
  | .hgetd _ _ _ _ => q != .x
  | .hoff _ _ _ _ _ => q != .x
  | .hsub _ _ _ _ => q != .x
  | .hchk _ _ _ => q != .x
  | .hclr _ _ => q != .x
  | .ctld _ _ _ _ _ => q != .x
  | .ctst _ _ _ _ _ => q != .x
  | .ccpy _ _ _ _ _ => q != .x
  | .cfill _ _ _ _ _ => q != .x
  | .cpfx _ _ _ _ _ => q != .x
  | .cxfr _ _ _ _ => q != .x
  | .gath _ _ _ _ => q == .c || q == .l
  | .scat _ _ _ _ => q == .c || q == .l
  | .gathp _ _ _ _ => q == .c || q == .l
  | .scata _ _ _ _ => q == .c || q == .l
  | .xallr _ _ _ _ => q == .c
  | .xrds _ _ _ _ => q == .c
  | .xallg _ _ _ _ => q == .c
  | .xsend _ _ _ _ => q == .c
  | .xrecv _ _ _ _ => q == .c
  | .xexch _ _ _ _ => q == .c
  | .ald _ _ _ _ _ => q == .c || q == .l
  | .ast _ _ _ _ _ => q == .c || q == .l
  | .aswp _ _ _ _ _ _ => q == .c || q == .l
  | .acas _ _ _ _ _ _ => q == .c || q == .l
  | .aadd _ _ _ _ _ _ => q == .c || q == .l
  | .aand _ _ _ _ _ _ => q == .c || q == .l
  | .aor _ _ _ _ _ _ => q == .c || q == .l
  | .axor _ _ _ _ _ _ => q == .c || q == .l
  | .amin _ _ _ _ _ _ => q == .c || q == .l
  | .amax _ _ _ _ _ _ => q == .c || q == .l
  | .aminu _ _ _ _ _ _ => q == .c || q == .l
  | .amaxu _ _ _ _ _ _ => q == .c || q == .l
  | .afadd _ _ _ _ _ => q == .c || q == .l
  | .sigdec _ _ _ _ _ => q == .c || q == .l
  | .sigadd _ _ _ _ _ => q == .c || q == .l
  | .fence _ _ _ => q != .x
  | .fencee _ _ m _ => q != .x && maskLegal q m
  | .ssync _ => q != .x
  | .cbar _ => q != .x
  | .waitv _ _ _ _ _ => q != .x
  | .ckopen _ _ _ => q == .c
  | .ckopenGrow _ _ _ => q == .c
  | .ckseal _ _ _ => q == .c
  | .ckblnd _ _ _ _ => q == .c
  | .ckfilt _ _ _ _ => q == .c
  | .ckrebs _ _ _ _ => q == .c
  | .ckpour _ _ _ => q == .c
  | .ckdrop _ _ => q == .c
  | .ckinfo _ _ _ _ => q == .c
  | .ckabort _ _ => q == .c
  | .glaunch _ _ _ => q == .c
  | .gwait _ _ _ _ => q == .c
  | .gcancel _ _ _ _ => q == .c
  | .gcnt _ _ _ _ => q == .c
  | .yield _ => q == .c
  | .uexit _ => q == .c
  | .priset _ _ _ => q == .c
  | .pset _ _ i _ => i.toNat != 7 || q == .x
  | .pand _ _ _ _ => true
  | .por _ _ _ _ => true
  | .pxor _ _ _ _ => true
  | .pnot _ _ _ => true
  | .pmov _ _ _ => true
  | .ptos _ _ i _ => i.toNat == 0 || q == .x
  | .pall _ _ i _ => i.toNat == 0 || q == .x
  | .pany _ _ i _ => i.toNat == 0 || q == .x
  | .vwin _ _ => q == .x
  | .loopx _ _ _ => q == .x
  | .loope _ => q == .x
  | .vrot _ _ => q == .x
  | .vtag _ _ _ => q == .x
  | .vtagr _ _ _ => q == .x
  | .vld d _ _ _ => q == .x || q == .l && d == 30#5
  | .vst d _ _ _ => q == .x || q == .s && d == 30#5
  | .vldt d _ _ _ => q == .x || q == .l && d == 30#5
  | .vldg d _ _ _ => q == .x || q == .l && d == 30#5
  | .vsts d _ _ _ => q == .x || q == .s && d == 30#5
  | .vldb d _ _ _ => q == .x || q == .l && d == 30#5
  | .vlds d _ _ _ => q == .x || q == .l && d == 30#5
  | .plse _ => q == .c
  | .prel _ => q == .c
  | .pwld _ _ _ => q == .c
  | .pmul _ _ _ _ => q == .c
  | .pmulz _ _ _ _ => q == .c
  | .pdrn _ _ _ _ => q == .c
  | .pstat _ _ => q == .c
  | .rwsmx _ _ _ _ _ _ => q == .c
  | .rwmax _ _ _ _ _ _ => q == .c
  | .rwexps _ _ _ _ _ _ => q == .c
  | .rwscl _ _ _ _ _ _ => q == .c
  | .rwrms _ _ _ _ _ _ => q == .c
  | .rwlnrm _ _ _ _ _ _ => q == .c
  | .vadd _ _ _ _ _ => q == .x
  | .vsub _ _ _ _ _ => q == .x
  | .vmul _ _ _ _ _ => q == .x
  | .vfma _ _ _ _ _ => q == .x
  | .vfms _ _ _ _ _ => q == .x
  | .vmin _ _ _ _ _ => q == .x
  | .vmax _ _ _ _ _ => q == .x
  | .vabs _ _ _ _ => q == .x
  | .vneg _ _ _ _ => q == .x
  | .vand _ _ _ _ _ => q == .x
  | .vor _ _ _ _ _ => q == .x
  | .vxor _ _ _ _ _ => q == .x
  | .vsll _ _ _ _ _ => q == .x
  | .vsrl _ _ _ _ _ => q == .x
  | .vsra _ _ _ _ _ => q == .x
  | .vcmpeq _ _ _ _ _ => q == .x
  | .vcmplt _ _ _ _ _ => q == .x
  | .vcmple _ _ _ _ _ => q == .x
  | .vsel _ _ _ _ _ => q == .x
  | .vmov _ _ _ _ => q == .x
  | .vsat _ _ _ _ _ => q == .x
  | .vaddsat _ _ _ _ _ => q == .x
  | .vrcp _ _ _ _ => q == .x
  | .vsqrt _ _ _ _ => q == .x
  | .vrsqrt _ _ _ _ => q == .x
  | .vexp2 _ _ _ _ => q == .x
  | .vlog2 _ _ _ _ => q == .x
  | .vexp _ _ _ _ => q == .x
  | .vtanh _ _ _ _ => q == .x
  | .vsigm _ _ _ _ => q == .x
  | .vgelu _ _ _ _ => q == .x
  | .vsilu _ _ _ _ => q == .x
  | .vcvt _ _ _ _ _ => q == .x
  | .vcvtr _ _ _ _ _ _ => q == .x
  | .vqmx _ _ _ _ _ => q == .x
  | .vdqmx _ _ _ _ _ => q == .x
  | .vperm _ _ _ _ _ => q == .x
  | .vshuf _ _ _ _ _ => q == .x
  | .vslide _ _ _ _ _ => q == .x
  | .vbcst _ _ _ _ _ => q == .x
  | .vins _ _ _ _ => q == .x
  | .vext _ _ _ _ => q == .x
  | .vcmpct _ _ _ => q == .x
  | .vcpop _ _ _ => q == .x
  | .vcflush _ _ _ => q == .x
  | .vrsum _ _ _ _ => q == .x
  | .vrmax _ _ _ _ => q == .x
  | .vrmin _ _ _ _ => q == .x
  | .vrand _ _ _ _ => q == .x
  | .vror _ _ _ _ => q == .x
  | .vdot _ _ _ _ _ => q == .x
  | .vscan _ _ _ _ => q == .x
  | .vpcnt _ _ _ _ => q == .x
  | .cbind _ _ _ => false
  | .cstart _ _ _ _ => false
  | .cjoin _ _ _ => false
  | .cquery _ _ _ => false
  | .cfence _ _ => false
  | .cpark _ _ => false
  | .ccancel _ _ _ _ => false
  | .cfree _ _ => false
  | .csignal _ _ _ _ => false
  | .cvers _ _ _ => false
  | .cfault _ _ _ _ => false
  | .hostFormInterrupt _ => false
  | .blockingFormReturn _ => false
  | .cpsave _ _ => false
  | .cpload _ _ => false
  | .cpattn _ _ => false
  | .registerWrite _ _ => false
  | .resultLand _ _ => false
  | .dqoutForward _ _ => false
  | .loadMissReturn _ _ => false
  | .storePerformed _ _ => false
  | .atomicPerformed _ _ => false
  | .barrierDepart _ _ _ => false
  | .waitvRecheck _ _ => false
  | .rettReturn _ _ => false
  | .sequencerExit _ _ => false
  | .engineCommandStart _ _ => false
  | .engineCommandComplete _ _ => false
  | .engineCommandFail _ _ => false
  | .relocationTake _ _ _ _ => false
  | .engineFaultWaitResume _ _ => false
  | .pressArbitrate _ => false
  | .pressReloadComplete _ => false
  | .pressCommandStart _ => false
  | .pressCommandComplete _ => false
  | .pressGrantCyclesExpire _ => false
  | .collectiveContribution _ _ => false
  | .collectiveCommit _ _ _ => false
  | .collectiveTimeout _ _ => false
  | .walkComplete _ _ => false
  | .fqtailWrite _ _ => false
  | .fqcfgWrite _ _ => false
  | .fqrplRetry _ _ => false
  | .fqrplReject _ _ => false
  | .fqrplTerminate _ _ => false
  | .sfenceVma _ _ _ => false
  | .leesSpill _ _ => false
  | .stageFlush _ _ => false
  | .hartDeviceRace _ _ _ => false
  | .schedTick _ => false
  | .park _ => false
  | .unpark _ _ => false
  | .launchPlace _ _ _ => false
  | .nodeComplete _ => false
  | .waitEvaluate _ => false
  | .signalNode _ => false
  | .copyNodeComplete _ => false
  | .phasePeriodTimer _ _ _ => false
  | .agingExpire _ _ => false
  | .energyEstimateTick _ => false
  | .refillBoundary _ _ => false
  | .arbiterPeriod _ => false
  | .biasMoveComplete _ => false
  | .thermalHeadroomLost _ => false
  | .thermalHeadroomRegained _ => false
  | .thermalStepDown _ => false
  | .ballastStart _ => false
  | .ballastShed _ => false
  | .trip _ _ _ => false
  | .breachReceive _ _ _ => false
  | .ceilingStamp _ => false
  | .heartbeatSend _ => false
  | .heartbeatReceive _ _ => false
  | .heartbeatMiss _ _ => false
  | .memberEvict _ _ => false
  | .leaveComplete _ => false
  | .groupLinkUp _ _ _ => false
  | .groupVersionChange _ _ => false
  | .linkBringup _ _ _ => false
  | .flitReceive _ _ => false
  | .pauseReceive _ _ => false
  | .resumeReceive _ _ => false
  | .admissionWindow _ _ => false
  | .moduleReset => false
  | .watchdogExpire => false
  | .getver _ => false
  | .slotwr _ => false
  | .slotact => false
  | .confirm _ => false
  | .wdset _ => false
  | .mext _ _ => false
  | .leescfg _ _ _ => false
  | .schcfg _ _ => false
  | .enset _ _ => false
  | .capset _ _ => false
  | .pwrstat _ => false
  | .qset _ => false
  | .layset _ _ => false
  | .csetprog _ _ _ => false
  | .partcfg _ _ => false
  | .getVersion _ => false
  | .getCapabilities _ => false
  | .negotiateAlgorithms _ => false
  | .getDigests _ => false
  | .getCertificate _ => false
  | .challenge _ => false
  | .getMeasurements _ _ => false
  | .keyExchange _ _ => false
  | .finish _ => false
  | .endSession _ => false
  | .tdispLock _ => false
  | .tdispLeaveRun _ => false
  | .spdmSessionExpire _ => false
  | .tdispUnlock _ => false
  | .hartAccess _ _ => false
  | .externalHostAccess _ => false
  | .tdispRun _ => false

/-- A sequencer executes an instruction only when its fields hold legal values and the sequencer accepts it (R81). -/
def Instr.legalIn (q : Seq) (i : Instr) : Bool :=
  i.fieldsLegal && i.acceptedIn q

/-- A host form (R85). -/
def Instr.isHost : Instr → Bool
  | .ill _ _ _ _ => false
  | .nop _ => false
  | .halt _ => false
  | .trap _ _ => false
  | .rett _ => false
  | .mfs _ _ _ => false
  | .mts _ _ _ => false
  | .vcyc _ _ => false
  | .dbgpend _ _ _ => false
  | .bkpt _ _ => false
  | .wfe _ => false
  | .sev _ _ => false
  | .tkcfg _ _ => false
  | .ident _ _ _ => false
  | .pace _ _ _ => false
  | .enrd _ _ _ => false
  | .gceil _ _ => false
  | .add _ _ _ _ => false
  | .sub _ _ _ _ => false
  | .and _ _ _ _ => false
  | .or _ _ _ _ => false
  | .xor _ _ _ _ => false
  | .andn _ _ _ _ => false
  | .sll _ _ _ _ => false
  | .srl _ _ _ _ => false
  | .sra _ _ _ _ => false
  | .rol _ _ _ _ => false
  | .slt _ _ _ _ => false
  | .sltu _ _ _ _ => false
  | .min _ _ _ _ => false
  | .max _ _ _ _ => false
  | .minu _ _ _ _ => false
  | .maxu _ _ _ _ => false
  | .mul _ _ _ _ => false
  | .mulh _ _ _ _ => false
  | .mulhu _ _ _ _ => false
  | .div _ _ _ _ => false
  | .divu _ _ _ _ => false
  | .rem _ _ _ _ => false
  | .remu _ _ _ _ => false
  | .clz _ _ _ => false
  | .ctz _ _ _ => false
  | .popc _ _ _ => false
  | .sext _ _ _ _ => false
  | .zext _ _ _ _ => false
  | .addw _ _ _ _ => false
  | .subw _ _ _ _ => false
  | .mulw _ _ _ _ => false
  | .addi _ _ _ _ => false
  | .andi _ _ _ _ => false
  | .ori _ _ _ _ => false
  | .xori _ _ _ _ => false
  | .slti _ _ _ _ => false
  | .slli _ _ _ _ => false
  | .srli _ _ _ _ => false
  | .srai _ _ _ _ => false
  | .movhi _ _ _ => false
  | .ld _ _ _ _ _ => false
  | .lds _ _ _ _ _ => false
  | .st _ _ _ _ _ => false
  | .beqz _ _ _ => false
  | .bnez _ _ _ => false
  | .bltz _ _ _ => false
  | .bgez _ _ _ => false
  | .bgtz _ _ _ => false
  | .blez _ _ _ => false
  | .bp _ _ _ => false
  | .bnp _ _ _ => false
  | .bq _ _ => false
  | .bnq _ _ => false
  | .jmp _ _ => false
  | .call _ _ => false
  | .jr _ _ _ _ => false
  | .callr _ _ _ _ => false
  | .tkpush _ _ => false
  | .tkpop _ _ => false
  | .tkcnt _ _ _ => false
  | .qpeek _ _ _ => false
  | .qcnt _ _ _ => false
  | .qsquash _ _ => false
  | .qfmt _ _ _ => false
  | .qsel _ _ => false
  | .bqpush _ _ => false
  | .qwait _ _ => false
  | .epop _ _ _ => false
  | .hmov _ _ _ => false
  | .hld _ _ _ => false
  | .hst _ _ _ => false
  | .hsetb _ _ _ _ => false
  | .hsetd _ _ _ _ _ => false
  | .hsets _ _ _ _ _ => false
  | .hsetf _ _ _ _ => false
  | .hgetb _ _ _ => false
  | .hgetd _ _ _ _ => false
  | .hoff _ _ _ _ _ => false
  | .hsub _ _ _ _ => false
  | .hchk _ _ _ => false
  | .hclr _ _ => false
  | .ctld _ _ _ _ _ => false
  | .ctst _ _ _ _ _ => false
  | .ccpy _ _ _ _ _ => false
  | .cfill _ _ _ _ _ => false
  | .cpfx _ _ _ _ _ => false
  | .cxfr _ _ _ _ => false
  | .gath _ _ _ _ => false
  | .scat _ _ _ _ => false
  | .gathp _ _ _ _ => false
  | .scata _ _ _ _ => false
  | .xallr _ _ _ _ => false
  | .xrds _ _ _ _ => false
  | .xallg _ _ _ _ => false
  | .xsend _ _ _ _ => false
  | .xrecv _ _ _ _ => false
  | .xexch _ _ _ _ => false
  | .ald _ _ _ _ _ => false
  | .ast _ _ _ _ _ => false
  | .aswp _ _ _ _ _ _ => false
  | .acas _ _ _ _ _ _ => false
  | .aadd _ _ _ _ _ _ => false
  | .aand _ _ _ _ _ _ => false
  | .aor _ _ _ _ _ _ => false
  | .axor _ _ _ _ _ _ => false
  | .amin _ _ _ _ _ _ => false
  | .amax _ _ _ _ _ _ => false
  | .aminu _ _ _ _ _ _ => false
  | .amaxu _ _ _ _ _ _ => false
  | .afadd _ _ _ _ _ => false
  | .sigdec _ _ _ _ _ => false
  | .sigadd _ _ _ _ _ => false
  | .fence _ _ _ => false
  | .fencee _ _ _ _ => false
  | .ssync _ => false
  | .cbar _ => false
  | .waitv _ _ _ _ _ => false
  | .ckopen _ _ _ => false
  | .ckopenGrow _ _ _ => false
  | .ckseal _ _ _ => false
  | .ckblnd _ _ _ _ => false
  | .ckfilt _ _ _ _ => false
  | .ckrebs _ _ _ _ => false
  | .ckpour _ _ _ => false
  | .ckdrop _ _ => false
  | .ckinfo _ _ _ _ => false
  | .ckabort _ _ => false
  | .glaunch _ _ _ => false
  | .gwait _ _ _ _ => false
  | .gcancel _ _ _ _ => false
  | .gcnt _ _ _ _ => false
  | .yield _ => false
  | .uexit _ => false
  | .priset _ _ _ => false
  | .pset _ _ _ _ => false
  | .pand _ _ _ _ => false
  | .por _ _ _ _ => false
  | .pxor _ _ _ _ => false
  | .pnot _ _ _ => false
  | .pmov _ _ _ => false
  | .ptos _ _ _ _ => false
  | .pall _ _ _ _ => false
  | .pany _ _ _ _ => false
  | .vwin _ _ => false
  | .loopx _ _ _ => false
  | .loope _ => false
  | .vrot _ _ => false
  | .vtag _ _ _ => false
  | .vtagr _ _ _ => false
  | .vld _ _ _ _ => false
  | .vst _ _ _ _ => false
  | .vldt _ _ _ _ => false
  | .vldg _ _ _ _ => false
  | .vsts _ _ _ _ => false
  | .vldb _ _ _ _ => false
  | .vlds _ _ _ _ => false
  | .plse _ => false
  | .prel _ => false
  | .pwld _ _ _ => false
  | .pmul _ _ _ _ => false
  | .pmulz _ _ _ _ => false
  | .pdrn _ _ _ _ => false
  | .pstat _ _ => false
  | .rwsmx _ _ _ _ _ _ => false
  | .rwmax _ _ _ _ _ _ => false
  | .rwexps _ _ _ _ _ _ => false
  | .rwscl _ _ _ _ _ _ => false
  | .rwrms _ _ _ _ _ _ => false
  | .rwlnrm _ _ _ _ _ _ => false
  | .vadd _ _ _ _ _ => false
  | .vsub _ _ _ _ _ => false
  | .vmul _ _ _ _ _ => false
  | .vfma _ _ _ _ _ => false
  | .vfms _ _ _ _ _ => false
  | .vmin _ _ _ _ _ => false
  | .vmax _ _ _ _ _ => false
  | .vabs _ _ _ _ => false
  | .vneg _ _ _ _ => false
  | .vand _ _ _ _ _ => false
  | .vor _ _ _ _ _ => false
  | .vxor _ _ _ _ _ => false
  | .vsll _ _ _ _ _ => false
  | .vsrl _ _ _ _ _ => false
  | .vsra _ _ _ _ _ => false
  | .vcmpeq _ _ _ _ _ => false
  | .vcmplt _ _ _ _ _ => false
  | .vcmple _ _ _ _ _ => false
  | .vsel _ _ _ _ _ => false
  | .vmov _ _ _ _ => false
  | .vsat _ _ _ _ _ => false
  | .vaddsat _ _ _ _ _ => false
  | .vrcp _ _ _ _ => false
  | .vsqrt _ _ _ _ => false
  | .vrsqrt _ _ _ _ => false
  | .vexp2 _ _ _ _ => false
  | .vlog2 _ _ _ _ => false
  | .vexp _ _ _ _ => false
  | .vtanh _ _ _ _ => false
  | .vsigm _ _ _ _ => false
  | .vgelu _ _ _ _ => false
  | .vsilu _ _ _ _ => false
  | .vcvt _ _ _ _ _ => false
  | .vcvtr _ _ _ _ _ _ => false
  | .vqmx _ _ _ _ _ => false
  | .vdqmx _ _ _ _ _ => false
  | .vperm _ _ _ _ _ => false
  | .vshuf _ _ _ _ _ => false
  | .vslide _ _ _ _ _ => false
  | .vbcst _ _ _ _ _ => false
  | .vins _ _ _ _ => false
  | .vext _ _ _ _ => false
  | .vcmpct _ _ _ => false
  | .vcpop _ _ _ => false
  | .vcflush _ _ _ => false
  | .vrsum _ _ _ _ => false
  | .vrmax _ _ _ _ => false
  | .vrmin _ _ _ _ => false
  | .vrand _ _ _ _ => false
  | .vror _ _ _ _ => false
  | .vdot _ _ _ _ _ => false
  | .vscan _ _ _ _ => false
  | .vpcnt _ _ _ _ => false
  | .cbind _ _ _ => true
  | .cstart _ _ _ _ => true
  | .cjoin _ _ _ => true
  | .cquery _ _ _ => true
  | .cfence _ _ => true
  | .cpark _ _ => true
  | .ccancel _ _ _ _ => true
  | .cfree _ _ => true
  | .csignal _ _ _ _ => true
  | .cvers _ _ _ => true
  | .cfault _ _ _ _ => true
  | .hostFormInterrupt _ => false
  | .blockingFormReturn _ => false
  | .cpsave _ _ => false
  | .cpload _ _ => false
  | .cpattn _ _ => false
  | .registerWrite _ _ => false
  | .resultLand _ _ => false
  | .dqoutForward _ _ => false
  | .loadMissReturn _ _ => false
  | .storePerformed _ _ => false
  | .atomicPerformed _ _ => false
  | .barrierDepart _ _ _ => false
  | .waitvRecheck _ _ => false
  | .rettReturn _ _ => false
  | .sequencerExit _ _ => false
  | .engineCommandStart _ _ => false
  | .engineCommandComplete _ _ => false
  | .engineCommandFail _ _ => false
  | .relocationTake _ _ _ _ => false
  | .engineFaultWaitResume _ _ => false
  | .pressArbitrate _ => false
  | .pressReloadComplete _ => false
  | .pressCommandStart _ => false
  | .pressCommandComplete _ => false
  | .pressGrantCyclesExpire _ => false
  | .collectiveContribution _ _ => false
  | .collectiveCommit _ _ _ => false
  | .collectiveTimeout _ _ => false
  | .walkComplete _ _ => false
  | .fqtailWrite _ _ => false
  | .fqcfgWrite _ _ => false
  | .fqrplRetry _ _ => false
  | .fqrplReject _ _ => false
  | .fqrplTerminate _ _ => false
  | .sfenceVma _ _ _ => false
  | .leesSpill _ _ => false
  | .stageFlush _ _ => false
  | .hartDeviceRace _ _ _ => false
  | .schedTick _ => false
  | .park _ => false
  | .unpark _ _ => false
  | .launchPlace _ _ _ => false
  | .nodeComplete _ => false
  | .waitEvaluate _ => false
  | .signalNode _ => false
  | .copyNodeComplete _ => false
  | .phasePeriodTimer _ _ _ => false
  | .agingExpire _ _ => false
  | .energyEstimateTick _ => false
  | .refillBoundary _ _ => false
  | .arbiterPeriod _ => false
  | .biasMoveComplete _ => false
  | .thermalHeadroomLost _ => false
  | .thermalHeadroomRegained _ => false
  | .thermalStepDown _ => false
  | .ballastStart _ => false
  | .ballastShed _ => false
  | .trip _ _ _ => false
  | .breachReceive _ _ _ => false
  | .ceilingStamp _ => false
  | .heartbeatSend _ => false
  | .heartbeatReceive _ _ => false
  | .heartbeatMiss _ _ => false
  | .memberEvict _ _ => false
  | .leaveComplete _ => false
  | .groupLinkUp _ _ _ => false
  | .groupVersionChange _ _ => false
  | .linkBringup _ _ _ => false
  | .flitReceive _ _ => false
  | .pauseReceive _ _ => false
  | .resumeReceive _ _ => false
  | .admissionWindow _ _ => false
  | .moduleReset => false
  | .watchdogExpire => false
  | .getver _ => false
  | .slotwr _ => false
  | .slotact => false
  | .confirm _ => false
  | .wdset _ => false
  | .mext _ _ => false
  | .leescfg _ _ _ => false
  | .schcfg _ _ => false
  | .enset _ _ => false
  | .capset _ _ => false
  | .pwrstat _ => false
  | .qset _ => false
  | .layset _ _ => false
  | .csetprog _ _ _ => false
  | .partcfg _ _ => false
  | .getVersion _ => false
  | .getCapabilities _ => false
  | .negotiateAlgorithms _ => false
  | .getDigests _ => false
  | .getCertificate _ => false
  | .challenge _ => false
  | .getMeasurements _ _ => false
  | .keyExchange _ _ => false
  | .finish _ => false
  | .endSession _ => false
  | .tdispLock _ => false
  | .tdispLeaveRun _ => false
  | .spdmSessionExpire _ => false
  | .tdispUnlock _ => false
  | .hartAccess _ _ => false
  | .externalHostAccess _ => false
  | .tdispRun _ => false

/-- A well-formed device instruction or host form: some sequencer accepts it, or it is a host form that the hart does not
refuse (R81, R86). -/
def Instr.wellFormed (i : Instr) : Bool :=
  i.fieldsLegal && (i.isHost || [Seq.c, .l, .x, .s].any fun q => i.acceptedIn q)

end Sys2Proof
end

