-- ==== Sys2Proof/Decode.lean ====
section
/-!
DEFINITION. The decoder and the encoder, both from the thirteen formats of R63, the function codes of R71 and R72 and the host
form of R85. `decodeRaw` reads the fields and refuses reserved fields and unassigned codes; `decode` adds the checks that depend on
the sequencer (R81). `encode` builds the word of an instruction, and `decodeTableWord` reads a row of the opcode table.
-/

namespace Sys2Proof

/-- A word of format R (R63). -/
def wordR (major : BitVec 5) (rd : BitVec 6) (ra : BitVec 6) (rb : BitVec 6) (fn : BitVec 7) (tk : BitVec 2) : IWord :=
  major ++ rd ++ ra ++ rb ++ fn ++ tk

/-- A word of format I (R63). -/
def wordI (major : BitVec 5) (rd : BitVec 6) (ra : BitVec 6) (fn : BitVec 3) (imm : BitVec 10) (tk : BitVec 2) : IWord :=
  major ++ rd ++ ra ++ fn ++ imm ++ tk

/-- A word of format U (R63). -/
def wordU (major : BitVec 5) (rd : BitVec 6) (imm : BitVec 19) (tk : BitVec 2) : IWord :=
  major ++ rd ++ imm ++ tk

/-- A word of format M (R63). -/
def wordM (major : BitVec 5) (rd : BitVec 6) (ra : BitVec 6) (off : BitVec 11) (sz : BitVec 2) (tk : BitVec 2) : IWord :=
  major ++ rd ++ ra ++ off ++ sz ++ tk

/-- A word of format B (R63). -/
def wordB (major : BitVec 5) (cond : BitVec 4) (ra : BitVec 6) (off : BitVec 15) (tk : BitVec 2) : IWord :=
  major ++ cond ++ ra ++ off ++ tk

/-- A word of format J (R63). -/
def wordJ (major : BitVec 5) (off : BitVec 25) (tk : BitVec 2) : IWord :=
  major ++ off ++ tk

/-- A word of format S (R63). -/
def wordS (major : BitVec 5) (fn : BitVec 7) (rd : BitVec 6) (ra : BitVec 6) (imm : BitVec 6) (tk : BitVec 2) : IWord :=
  major ++ fn ++ rd ++ ra ++ imm ++ tk

/-- A word of format H (R63). -/
def wordH (major : BitVec 5) (hd : BitVec 4) (ha : BitVec 4) (hb : BitVec 4) (ra : BitVec 6) (fn : BitVec 7) (tk : BitVec 2) : IWord :=
  major ++ hd ++ ha ++ hb ++ ra ++ fn ++ tk

/-- A word of format E (R63). -/
def wordE (major : BitVec 5) (eng : BitVec 3) (ha : BitVec 4) (ra : BitVec 6) (rb : BitVec 6) (fn : BitVec 6) (tk : BitVec 2) : IWord :=
  major ++ eng ++ ha ++ ra ++ rb ++ fn ++ tk

/-- A word of format V (R63). -/
def wordV (major : BitVec 5) (vd : BitVec 5) (va : BitVec 5) (vb : BitVec 5) (pg : BitVec 4) (fn : BitVec 6) (tk : BitVec 2) : IWord :=
  major ++ vd ++ va ++ vb ++ pg ++ fn ++ tk

/-- A word of format VL (R63). -/
def wordVL (major : BitVec 5) (vd : BitVec 5) (ra : BitVec 6) (imm : BitVec 8) (fn : BitVec 6) (tk : BitVec 2) : IWord :=
  major ++ vd ++ ra ++ imm ++ fn ++ tk

/-- A word of format A (R63). -/
def wordA (major : BitVec 5) (rd : BitVec 5) (ra : BitVec 5) (rb : BitVec 5) (fn : BitVec 4) (ord : BitVec 3) (scope : BitVec 4) (sz : BitVec 1) : IWord :=
  major ++ rd ++ ra ++ rb ++ fn ++ ord ++ scope ++ sz

/-- A word of format F (R63). -/
def wordF (major : BitVec 5) (fn : BitVec 4) (scope : BitVec 4) (ord : BitVec 3) (ra : BitVec 6) (imm : BitVec 8) (tk : BitVec 2) : IWord :=
  major ++ fn ++ scope ++ ord ++ ra ++ imm ++ tk

/-- The functions of major 0x00, SYS (R71, R72). -/
def decodeSYS (fn : BitVec 7) (rd : BitVec 6) (ra : BitVec 6) (imm : BitVec 6) (tk : BitVec 2) : Option Instr :=
  match fn.toNat with
  | 0 => some (.ill rd ra imm tk)
  | 1 => if rd = 0#6 ∧ ra = 0#6 ∧ imm = 0#6 then some (.nop tk) else none
  | 2 => if rd = 0#6 ∧ ra = 0#6 ∧ imm = 0#6 then some (.halt tk) else none
  | 3 => if rd = 0#6 ∧ ra = 0#6 then some (.trap imm tk) else none
  | 4 => if rd = 0#6 ∧ ra = 0#6 ∧ imm = 0#6 then some (.rett tk) else none
  | 5 => if ra = 0#6 then some (.mfs rd imm tk) else none
  | 6 => if rd = 0#6 then some (.mts ra imm tk) else none
  | 7 => if ra = 0#6 ∧ imm = 0#6 then some (.vcyc rd tk) else none
  | 8 => if ra = 0#6 then some (.dbgpend rd imm tk) else none
  | 9 => if rd = 0#6 ∧ ra = 0#6 then some (.bkpt imm tk) else none
  | 10 => if rd = 0#6 ∧ ra = 0#6 ∧ imm = 0#6 then some (.wfe tk) else none
  | 11 => if rd = 0#6 ∧ ra = 0#6 then some (.sev imm tk) else none
  | 12 => if rd = 0#6 ∧ ra = 0#6 then some (.tkcfg imm tk) else none
  | 13 => if ra = 0#6 then some (.ident rd imm tk) else none
  | 14 => if rd = 0#6 then some (.pace ra imm tk) else none
  | 15 => if ra = 0#6 then some (.enrd rd imm tk) else none
  | 16 => if ra = 0#6 ∧ imm = 0#6 then some (.gceil rd tk) else none
  | _ => none

/-- The functions of major 0x01, ALUR (R71, R72). -/
def decodeALUR (rd : BitVec 6) (ra : BitVec 6) (rb : BitVec 6) (fn : BitVec 7) (tk : BitVec 2) : Option Instr :=
  match fn.toNat with
  | 0 => some (.add rd ra rb tk)
  | 1 => some (.sub rd ra rb tk)
  | 2 => some (.and rd ra rb tk)
  | 3 => some (.or rd ra rb tk)
  | 4 => some (.xor rd ra rb tk)
  | 5 => some (.andn rd ra rb tk)
  | 6 => some (.sll rd ra rb tk)
  | 7 => some (.srl rd ra rb tk)
  | 8 => some (.sra rd ra rb tk)
  | 9 => some (.rol rd ra rb tk)
  | 10 => some (.slt rd ra rb tk)
  | 11 => some (.sltu rd ra rb tk)
  | 12 => some (.min rd ra rb tk)
  | 13 => some (.max rd ra rb tk)
  | 14 => some (.minu rd ra rb tk)
  | 15 => some (.maxu rd ra rb tk)
  | 16 => some (.mul rd ra rb tk)
  | 17 => some (.mulh rd ra rb tk)
  | 18 => some (.mulhu rd ra rb tk)
  | 19 => some (.div rd ra rb tk)
  | 20 => some (.divu rd ra rb tk)
  | 21 => some (.rem rd ra rb tk)
  | 22 => some (.remu rd ra rb tk)
  | 23 => if rb = 0#6 then some (.clz rd ra tk) else none
  | 24 => if rb = 0#6 then some (.ctz rd ra tk) else none
  | 25 => if rb = 0#6 then some (.popc rd ra tk) else none
  | 26 => some (.sext rd ra rb tk)
  | 27 => some (.zext rd ra rb tk)
  | 28 => some (.addw rd ra rb tk)
  | 29 => some (.subw rd ra rb tk)
  | 30 => some (.mulw rd ra rb tk)
  | _ => none

/-- The functions of major 0x02, ALUI (R71, R72). -/
def decodeALUI (rd : BitVec 6) (ra : BitVec 6) (fn : BitVec 3) (imm : BitVec 10) (tk : BitVec 2) : Option Instr :=
  match fn.toNat with
  | 0 => some (.addi rd ra imm tk)
  | 1 => some (.andi rd ra imm tk)
  | 2 => some (.ori rd ra imm tk)
  | 3 => some (.xori rd ra imm tk)
  | 4 => some (.slti rd ra imm tk)
  | 5 => some (.slli rd ra imm tk)
  | 6 => some (.srli rd ra imm tk)
  | 7 => some (.srai rd ra imm tk)
  | _ => none

/-- The functions of major 0x03, MOVHI (R71, R72). -/
def decodeMOVHI (rd : BitVec 6) (imm : BitVec 19) (tk : BitVec 2) : Option Instr :=
  some (.movhi rd imm tk)

/-- The functions of major 0x04, LD (R71, R72). -/
def decodeLD (rd : BitVec 6) (ra : BitVec 6) (off : BitVec 11) (sz : BitVec 2) (tk : BitVec 2) : Option Instr :=
  some (.ld rd ra off sz tk)

/-- The functions of major 0x05, LDS (R71, R72). -/
def decodeLDS (rd : BitVec 6) (ra : BitVec 6) (off : BitVec 11) (sz : BitVec 2) (tk : BitVec 2) : Option Instr :=
  some (.lds rd ra off sz tk)

/-- The functions of major 0x06, ST (R71, R72). -/
def decodeST (rd : BitVec 6) (ra : BitVec 6) (off : BitVec 11) (sz : BitVec 2) (tk : BitVec 2) : Option Instr :=
  some (.st rd ra off sz tk)

/-- The functions of major 0x07, BR (R71, R72). -/
def decodeBR (cond : BitVec 4) (ra : BitVec 6) (off : BitVec 15) (tk : BitVec 2) : Option Instr :=
  match cond.toNat with
  | 0 => some (.beqz ra off tk)
  | 1 => some (.bnez ra off tk)
  | 2 => some (.bltz ra off tk)
  | 3 => some (.bgez ra off tk)
  | 4 => some (.bgtz ra off tk)
  | 5 => some (.blez ra off tk)
  | 6 => some (.bp ra off tk)
  | 7 => some (.bnp ra off tk)
  | 8 => if ra = 12#6 then some (.bq off tk) else none
  | 9 => if ra = 12#6 then some (.bnq off tk) else none
  | _ => none

/-- The functions of major 0x08, JMP (R71, R72). -/
def decodeJMP (off : BitVec 25) (tk : BitVec 2) : Option Instr :=
  some (.jmp off tk)

/-- The functions of major 0x09, CALL (R71, R72). -/
def decodeCALL (off : BitVec 25) (tk : BitVec 2) : Option Instr :=
  some (.call off tk)

/-- The functions of major 0x0a, JREG (R71, R72). -/
def decodeJREG (rd : BitVec 6) (ra : BitVec 6) (fn : BitVec 3) (imm : BitVec 10) (tk : BitVec 2) : Option Instr :=
  match fn.toNat with
  | 0 => some (.jr rd ra imm tk)
  | 1 => some (.callr rd ra imm tk)
  | _ => none

/-- The functions of major 0x0b, QUE (R71, R72). -/
def decodeQUE (fn : BitVec 7) (rd : BitVec 6) (ra : BitVec 6) (imm : BitVec 6) (tk : BitVec 2) : Option Instr :=
  match fn.toNat with
  | 0 => if rd = 0#6 ∧ ra = 0#6 then some (.tkpush imm tk) else none
  | 1 => if rd = 0#6 ∧ ra = 0#6 then some (.tkpop imm tk) else none
  | 2 => if ra = 0#6 then some (.tkcnt rd imm tk) else none
  | 3 => if ra = 0#6 then some (.qpeek rd imm tk) else none
  | 4 => if ra = 0#6 then some (.qcnt rd imm tk) else none
  | 5 => if rd = 0#6 ∧ ra = 0#6 then some (.qsquash imm tk) else none
  | 6 => if rd = 0#6 then some (.qfmt ra imm tk) else none
  | 7 => if rd = 0#6 ∧ ra = 0#6 then some (.qsel imm tk) else none
  | 8 => if rd = 0#6 ∧ imm = 12#6 then some (.bqpush ra tk) else none
  | 9 => if rd = 0#6 ∧ ra = 0#6 then some (.qwait imm tk) else none
  | 10 => if ra = 0#6 then some (.epop rd imm tk) else none
  | _ => none

/-- The functions of major 0x0c, HND (R71, R72). -/
def decodeHND (hd : BitVec 4) (ha : BitVec 4) (hb : BitVec 4) (ra : BitVec 6) (fn : BitVec 7) (tk : BitVec 2) : Option Instr :=
  match fn.toNat with
  | 0 => if hb = 0#4 ∧ ra = 0#6 then some (.hmov hd ha tk) else none
  | 1 => if ha = 0#4 ∧ hb = 0#4 then some (.hld hd ra tk) else none
  | 2 => if hd = 0#4 ∧ hb = 0#4 then some (.hst ha ra tk) else none
  | 3 => if hb = 0#4 then some (.hsetb hd ha ra tk) else none
  | 4 => some (.hsetd hd ha hb ra tk)
  | 5 => some (.hsets hd ha hb ra tk)
  | 6 => if hb = 0#4 then some (.hsetf hd ha ra tk) else none
  | 7 => if hd = 0#4 ∧ hb = 0#4 then some (.hgetb ha ra tk) else none
  | 8 => if hd = 0#4 then some (.hgetd ha hb ra tk) else none
  | 9 => some (.hoff hd ha hb ra tk)
  | 10 => if hb = 0#4 then some (.hsub hd ha ra tk) else none
  | 11 => if hd = 0#4 ∧ hb = 0#4 then some (.hchk ha ra tk) else none
  | 12 => if ha = 0#4 ∧ hb = 0#4 ∧ ra = 0#6 then some (.hclr hd tk) else none
  | _ => none

/-- The functions of major 0x0d, ENG (R71, R72). -/
def decodeENG (eng : BitVec 3) (ha : BitVec 4) (ra : BitVec 6) (rb : BitVec 6) (fn : BitVec 6) (tk : BitVec 2) : Option Instr :=
  match eng.toNat, (fn.extractLsb' 0 5).toNat with
  | 0, 0 => some (.ctld ha ra rb (fn.extractLsb' 5 1) tk)
  | 0, 1 => some (.ctst ha ra rb (fn.extractLsb' 5 1) tk)
  | 0, 2 => if ha.extractLsb' 0 1 = 0#1 then some (.ccpy (ha.extractLsb' 1 3) ra rb (fn.extractLsb' 5 1) tk) else none
  | 0, 3 => some (.cfill ha ra rb (fn.extractLsb' 5 1) tk)
  | 0, 4 => some (.cpfx ha ra rb (fn.extractLsb' 5 1) tk)
  | 0, 5 => if ha = 0#4 then some (.cxfr ra rb (fn.extractLsb' 5 1) tk) else none
  | 1, 0 => if fn.extractLsb' 5 1 = 0#1 then some (.gath ha ra rb tk) else none
  | 1, 1 => if fn.extractLsb' 5 1 = 0#1 then some (.scat ha ra rb tk) else none
  | 1, 2 => if fn.extractLsb' 5 1 = 0#1 then some (.gathp ha ra rb tk) else none
  | 1, 3 => if fn.extractLsb' 5 1 = 0#1 then some (.scata ha ra rb tk) else none
  | 2, 0 => if fn.extractLsb' 5 1 = 0#1 then some (.xallr ha ra rb tk) else none
  | 2, 1 => if fn.extractLsb' 5 1 = 0#1 then some (.xrds ha ra rb tk) else none
  | 2, 2 => if fn.extractLsb' 5 1 = 0#1 then some (.xallg ha ra rb tk) else none
  | 2, 3 => if fn.extractLsb' 5 1 = 0#1 then some (.xsend ha ra rb tk) else none
  | 2, 4 => if fn.extractLsb' 5 1 = 0#1 then some (.xrecv ha ra rb tk) else none
  | 2, 5 => if fn.extractLsb' 5 1 = 0#1 then some (.xexch ha ra rb tk) else none
  | _, _ => none

/-- The functions of major 0x0e, ATM (R71, R72). -/
def decodeATM (rd : BitVec 5) (ra : BitVec 5) (rb : BitVec 5) (fn : BitVec 4) (ord : BitVec 3) (scope : BitVec 4) (sz : BitVec 1) : Option Instr :=
  match fn.toNat with
  | 0 => if rb = 0#5 then some (.ald rd ra ord scope sz) else none
  | 1 => if rd = 0#5 then some (.ast ra rb ord scope sz) else none
  | 2 => some (.aswp rd ra rb ord scope sz)
  | 3 => some (.acas rd ra rb ord scope sz)
  | 4 => some (.aadd rd ra rb ord scope sz)
  | 5 => some (.aand rd ra rb ord scope sz)
  | 6 => some (.aor rd ra rb ord scope sz)
  | 7 => some (.axor rd ra rb ord scope sz)
  | 8 => some (.amin rd ra rb ord scope sz)
  | 9 => some (.amax rd ra rb ord scope sz)
  | 10 => some (.aminu rd ra rb ord scope sz)
  | 11 => some (.amaxu rd ra rb ord scope sz)
  | 12 => if sz = 1#1 then some (.afadd rd ra rb ord scope) else none
  | 13 => if sz = 0#1 then some (.sigdec rd ra rb ord scope) else none
  | 14 => if sz = 0#1 then some (.sigadd rd ra rb ord scope) else none
  | _ => none

/-- The functions of major 0x0f, FEN (R71, R72). -/
def decodeFEN (fn : BitVec 4) (scope : BitVec 4) (ord : BitVec 3) (ra : BitVec 6) (imm : BitVec 8) (tk : BitVec 2) : Option Instr :=
  match fn.toNat with
  | 0 => if ra = 0#6 ∧ imm = 0#8 then some (.fence scope ord tk) else none
  | 1 => if ra = 0#6 then some (.fencee scope ord imm tk) else none
  | 2 => if scope = 0#4 ∧ ord = 0#3 ∧ ra = 0#6 ∧ imm = 0#8 then some (.ssync tk) else none
  | 3 => if scope = 0#4 ∧ ord = 0#3 ∧ ra = 0#6 ∧ imm = 0#8 then some (.cbar tk) else none
  | 4 => some (.waitv scope ord ra imm tk)
  | _ => none

/-- The functions of major 0x10, CKS (R71, R72). -/
def decodeCKS (hd : BitVec 4) (ha : BitVec 4) (hb : BitVec 4) (ra : BitVec 6) (fn : BitVec 7) (tk : BitVec 2) : Option Instr :=
  match fn.toNat with
  | 0 =>
    if hb = 0#4 ∧ ra = 0#6 then some (.ckopen hd ha tk)
    else if hb = 1#4 ∧ ra = 0#6 then some (.ckopenGrow hd ha tk) else none
  | 1 => if hb = 0#4 ∧ ra = 0#6 then some (.ckseal hd ha tk) else none
  | 2 => if ra = 0#6 then some (.ckblnd hd ha hb tk) else none
  | 3 => if hb = 0#4 then some (.ckfilt hd ha ra tk) else none
  | 4 => if hb = 0#4 then some (.ckrebs hd ha ra tk) else none
  | 5 => if hd = 0#4 ∧ hb = 0#4 then some (.ckpour ha ra tk) else none
  | 6 => if hd = 0#4 ∧ hb = 0#4 ∧ ra = 0#6 then some (.ckdrop ha tk) else none
  | 7 => if hd = 0#4 then some (.ckinfo ha hb ra tk) else none
  | 8 => if hd = 0#4 ∧ hb = 0#4 ∧ ra = 0#6 then some (.ckabort ha tk) else none
  | _ => none

/-- The functions of major 0x11, SCH (R71, R72). -/
def decodeSCH (fn : BitVec 7) (rd : BitVec 6) (ra : BitVec 6) (imm : BitVec 6) (tk : BitVec 2) : Option Instr :=
  match fn.toNat with
  | 0 => if imm = 0#6 then some (.glaunch rd ra tk) else none
  | 1 => some (.gwait rd ra imm tk)
  | 2 => some (.gcancel rd ra imm tk)
  | 3 => some (.gcnt rd ra imm tk)
  | 4 => if rd = 0#6 ∧ ra = 0#6 ∧ imm = 0#6 then some (.yield tk) else none
  | 5 => if rd = 0#6 ∧ ra = 0#6 ∧ imm = 0#6 then some (.uexit tk) else none
  | 6 => if imm = 0#6 then some (.priset rd ra tk) else none
  | _ => none

/-- The functions of major 0x12, PRD (R71, R72). -/
def decodePRD (fn : BitVec 7) (rd : BitVec 6) (ra : BitVec 6) (imm : BitVec 6) (tk : BitVec 2) : Option Instr :=
  match fn.toNat with
  | 0 => some (.pset rd ra imm tk)
  | 1 => some (.pand rd ra imm tk)
  | 2 => some (.por rd ra imm tk)
  | 3 => some (.pxor rd ra imm tk)
  | 4 => if imm = 0#6 then some (.pnot rd ra tk) else none
  | 5 => if imm = 0#6 then some (.pmov rd ra tk) else none
  | 6 => some (.ptos rd ra imm tk)
  | 7 => some (.pall rd ra imm tk)
  | 8 => some (.pany rd ra imm tk)
  | _ => none

/-- The functions of major 0x13, VLP (R71, R72). -/
def decodeVLP (vd : BitVec 5) (ra : BitVec 6) (imm : BitVec 8) (fn : BitVec 6) (tk : BitVec 2) : Option Instr :=
  match fn.toNat with
  | 0 => if vd = 0#5 ∧ imm = 0#8 then some (.vwin ra tk) else none
  | 1 => if vd = 0#5 then some (.loopx ra imm tk) else none
  | 2 => if vd = 0#5 ∧ ra = 0#6 ∧ imm = 0#8 then some (.loope tk) else none
  | 3 => if vd = 0#5 ∧ ra = 0#6 then some (.vrot imm tk) else none
  | 4 => if imm.extractLsb' 6 2 = 0#2 ∧ ra = 0#6 then some (.vtag vd (imm.extractLsb' 0 6) tk) else none
  | 5 => if imm = 0#8 then some (.vtagr vd ra tk) else none
  | _ => none

/-- The functions of major 0x14, VLS (R71, R72). -/
def decodeVLS (vd : BitVec 5) (ra : BitVec 6) (imm : BitVec 8) (fn : BitVec 6) (tk : BitVec 2) : Option Instr :=
  match fn.toNat with
  | 0 => some (.vld vd ra imm tk)
  | 1 => some (.vst vd ra imm tk)
  | 2 => if imm.extractLsb' 4 4 = 0#4 then some (.vldt vd ra (imm.extractLsb' 0 4) tk) else none
  | 3 => if imm.extractLsb' 6 2 = 0#2 then some (.vldg vd ra (imm.extractLsb' 0 6) tk) else none
  | 4 => if imm.extractLsb' 4 4 = 0#4 then some (.vsts vd ra (imm.extractLsb' 0 4) tk) else none
  | 5 => if imm.extractLsb' 4 4 = 0#4 then some (.vldb vd ra (imm.extractLsb' 0 4) tk) else none
  | 6 => if imm.extractLsb' 4 4 = 0#4 then some (.vlds vd ra (imm.extractLsb' 0 4) tk) else none
  | _ => none

/-- The functions of major 0x15, PRS (R71, R72). -/
def decodePRS (eng : BitVec 3) (ha : BitVec 4) (ra : BitVec 6) (rb : BitVec 6) (fn : BitVec 6) (tk : BitVec 2) : Option Instr :=
  match fn.toNat with
  | 0 => if eng = 0#3 ∧ ha = 0#4 ∧ ra = 0#6 ∧ rb = 0#6 then some (.plse tk) else none
  | 1 => if eng = 0#3 ∧ ha = 0#4 ∧ ra = 0#6 ∧ rb = 0#6 then some (.prel tk) else none
  | 2 => if eng = 0#3 ∧ rb = 0#6 then some (.pwld ha ra tk) else none
  | 3 => if eng = 0#3 then some (.pmul ha ra rb tk) else none
  | 4 => if eng = 0#3 then some (.pmulz ha ra rb tk) else none
  | 5 => if rb = 0#6 then some (.pdrn eng ha ra tk) else none
  | 6 => if eng = 0#3 ∧ ha = 0#4 ∧ rb = 0#6 then some (.pstat ra tk) else none
  | _ => none

/-- The functions of major 0x16, RWE (R71, R72). -/
def decodeRWE (eng : BitVec 3) (ha : BitVec 4) (ra : BitVec 6) (rb : BitVec 6) (fn : BitVec 6) (tk : BitVec 2) : Option Instr :=
  match (fn.extractLsb' 0 5).toNat with
  | 0 => some (.rwsmx eng ha ra rb (fn.extractLsb' 5 1) tk)
  | 1 => some (.rwmax eng ha ra rb (fn.extractLsb' 5 1) tk)
  | 2 => some (.rwexps eng ha ra rb (fn.extractLsb' 5 1) tk)
  | 3 => some (.rwscl eng ha ra rb (fn.extractLsb' 5 1) tk)
  | 4 => some (.rwrms eng ha ra rb (fn.extractLsb' 5 1) tk)
  | 5 => some (.rwlnrm eng ha ra rb (fn.extractLsb' 5 1) tk)
  | _ => none

/-- The functions of major 0x18, VEC0 (R71, R72). -/
def decodeVEC0 (vd : BitVec 5) (va : BitVec 5) (vb : BitVec 5) (pg : BitVec 4) (fn : BitVec 6) (tk : BitVec 2) : Option Instr :=
  match fn.toNat with
  | 0 => some (.vadd vd va vb pg tk)
  | 1 => some (.vsub vd va vb pg tk)
  | 2 => some (.vmul vd va vb pg tk)
  | 3 => some (.vfma vd va vb pg tk)
  | 4 => some (.vfms vd va vb pg tk)
  | 5 => some (.vmin vd va vb pg tk)
  | 6 => some (.vmax vd va vb pg tk)
  | 7 => if vb = 0#5 then some (.vabs vd va pg tk) else none
  | 8 => if vb = 0#5 then some (.vneg vd va pg tk) else none
  | 9 => some (.vand vd va vb pg tk)
  | 10 => some (.vor vd va vb pg tk)
  | 11 => some (.vxor vd va vb pg tk)
  | 12 => some (.vsll vd va vb pg tk)
  | 13 => some (.vsrl vd va vb pg tk)
  | 14 => some (.vsra vd va vb pg tk)
  | 15 => some (.vcmpeq vd va vb pg tk)
  | 16 => some (.vcmplt vd va vb pg tk)
  | 17 => some (.vcmple vd va vb pg tk)
  | 18 => some (.vsel vd va vb pg tk)
  | 19 => if vb = 0#5 then some (.vmov vd va pg tk) else none
  | 20 => some (.vsat vd va vb pg tk)
  | 21 => some (.vaddsat vd va vb pg tk)
  | _ => none

/-- The functions of major 0x19, VEC1 (R71, R72). -/
def decodeVEC1 (vd : BitVec 5) (va : BitVec 5) (vb : BitVec 5) (pg : BitVec 4) (fn : BitVec 6) (tk : BitVec 2) : Option Instr :=
  match fn.toNat with
  | 0 => if vb = 0#5 then some (.vrcp vd va pg tk) else none
  | 1 => if vb = 0#5 then some (.vsqrt vd va pg tk) else none
  | 2 => if vb = 0#5 then some (.vrsqrt vd va pg tk) else none
  | 3 => if vb = 0#5 then some (.vexp2 vd va pg tk) else none
  | 4 => if vb = 0#5 then some (.vlog2 vd va pg tk) else none
  | 5 => if vb = 0#5 then some (.vexp vd va pg tk) else none
  | 6 => if vb = 0#5 then some (.vtanh vd va pg tk) else none
  | 7 => if vb = 0#5 then some (.vsigm vd va pg tk) else none
  | 8 => if vb = 0#5 then some (.vgelu vd va pg tk) else none
  | 9 => if vb = 0#5 then some (.vsilu vd va pg tk) else none
  | _ => none

/-- The functions of major 0x1a, VEC2 (R71, R72). -/
def decodeVEC2 (vd : BitVec 5) (va : BitVec 5) (vb : BitVec 5) (pg : BitVec 4) (fn : BitVec 6) (tk : BitVec 2) : Option Instr :=
  match fn.toNat with
  | 0 => some (.vcvt vd va vb pg tk)
  | 1 => some (.vcvtr vd va (vb.extractLsb' 3 2) (vb.extractLsb' 0 3) pg tk)
  | 2 => some (.vqmx vd va vb pg tk)
  | 3 => some (.vdqmx vd va vb pg tk)
  | 4 => some (.vperm vd va vb pg tk)
  | 5 => some (.vshuf vd va vb pg tk)
  | 6 => some (.vslide vd va vb pg tk)
  | 7 => some (.vbcst vd va vb pg tk)
  | 8 => if pg = 0#4 then some (.vins vd va vb tk) else none
  | 9 => if pg = 0#4 then some (.vext vd va vb tk) else none
  | 10 => if vd = 0#5 ∧ vb = 0#5 then some (.vcmpct va pg tk) else none
  | 11 => if va = 0#5 ∧ vb = 0#5 then some (.vcpop vd pg tk) else none
  | 12 => if va = 0#5 ∧ vb = 0#5 then some (.vcflush vd pg tk) else none
  | _ => none

/-- The functions of major 0x1b, VEC3 (R71, R72). -/
def decodeVEC3 (vd : BitVec 5) (va : BitVec 5) (vb : BitVec 5) (pg : BitVec 4) (fn : BitVec 6) (tk : BitVec 2) : Option Instr :=
  match fn.toNat with
  | 0 => if vb = 0#5 then some (.vrsum vd va pg tk) else none
  | 1 => if vb = 0#5 then some (.vrmax vd va pg tk) else none
  | 2 => if vb = 0#5 then some (.vrmin vd va pg tk) else none
  | 3 => if vb = 0#5 then some (.vrand vd va pg tk) else none
  | 4 => if vb = 0#5 then some (.vror vd va pg tk) else none
  | 5 => some (.vdot vd va vb pg tk)
  | 6 => if vb = 0#5 then some (.vscan vd va pg tk) else none
  | 7 => if vb = 0#5 then some (.vpcnt vd va pg tk) else none
  | _ => none

/-- The instruction of a device word before the checks that depend on the sequencer: `none` for a reserved major, an
unassigned code or a reserved field that is not 0 (R65, R71). -/
def decodeRaw (w : IWord) : Option Instr :=
  match (w.extractLsb' 27 5).toNat with
  | 0 => decodeSYS (w.extractLsb' 20 7) (w.extractLsb' 14 6) (w.extractLsb' 8 6) (w.extractLsb' 2 6) (w.extractLsb' 0 2)
  | 1 => decodeALUR (w.extractLsb' 21 6) (w.extractLsb' 15 6) (w.extractLsb' 9 6) (w.extractLsb' 2 7) (w.extractLsb' 0 2)
  | 2 => decodeALUI (w.extractLsb' 21 6) (w.extractLsb' 15 6) (w.extractLsb' 12 3) (w.extractLsb' 2 10) (w.extractLsb' 0 2)
  | 3 => decodeMOVHI (w.extractLsb' 21 6) (w.extractLsb' 2 19) (w.extractLsb' 0 2)
  | 4 => decodeLD (w.extractLsb' 21 6) (w.extractLsb' 15 6) (w.extractLsb' 4 11) (w.extractLsb' 2 2) (w.extractLsb' 0 2)
  | 5 => decodeLDS (w.extractLsb' 21 6) (w.extractLsb' 15 6) (w.extractLsb' 4 11) (w.extractLsb' 2 2) (w.extractLsb' 0 2)
  | 6 => decodeST (w.extractLsb' 21 6) (w.extractLsb' 15 6) (w.extractLsb' 4 11) (w.extractLsb' 2 2) (w.extractLsb' 0 2)
  | 7 => decodeBR (w.extractLsb' 23 4) (w.extractLsb' 17 6) (w.extractLsb' 2 15) (w.extractLsb' 0 2)
  | 8 => decodeJMP (w.extractLsb' 2 25) (w.extractLsb' 0 2)
  | 9 => decodeCALL (w.extractLsb' 2 25) (w.extractLsb' 0 2)
  | 10 => decodeJREG (w.extractLsb' 21 6) (w.extractLsb' 15 6) (w.extractLsb' 12 3) (w.extractLsb' 2 10) (w.extractLsb' 0 2)
  | 11 => decodeQUE (w.extractLsb' 20 7) (w.extractLsb' 14 6) (w.extractLsb' 8 6) (w.extractLsb' 2 6) (w.extractLsb' 0 2)
  | 12 => decodeHND (w.extractLsb' 23 4) (w.extractLsb' 19 4) (w.extractLsb' 15 4) (w.extractLsb' 9 6) (w.extractLsb' 2 7) (w.extractLsb' 0 2)
  | 13 => decodeENG (w.extractLsb' 24 3) (w.extractLsb' 20 4) (w.extractLsb' 14 6) (w.extractLsb' 8 6) (w.extractLsb' 2 6) (w.extractLsb' 0 2)
  | 14 => decodeATM (w.extractLsb' 22 5) (w.extractLsb' 17 5) (w.extractLsb' 12 5) (w.extractLsb' 8 4) (w.extractLsb' 5 3) (w.extractLsb' 1 4) (w.extractLsb' 0 1)
  | 15 => decodeFEN (w.extractLsb' 23 4) (w.extractLsb' 19 4) (w.extractLsb' 16 3) (w.extractLsb' 10 6) (w.extractLsb' 2 8) (w.extractLsb' 0 2)
  | 16 => decodeCKS (w.extractLsb' 23 4) (w.extractLsb' 19 4) (w.extractLsb' 15 4) (w.extractLsb' 9 6) (w.extractLsb' 2 7) (w.extractLsb' 0 2)
  | 17 => decodeSCH (w.extractLsb' 20 7) (w.extractLsb' 14 6) (w.extractLsb' 8 6) (w.extractLsb' 2 6) (w.extractLsb' 0 2)
  | 18 => decodePRD (w.extractLsb' 20 7) (w.extractLsb' 14 6) (w.extractLsb' 8 6) (w.extractLsb' 2 6) (w.extractLsb' 0 2)
  | 19 => decodeVLP (w.extractLsb' 22 5) (w.extractLsb' 16 6) (w.extractLsb' 8 8) (w.extractLsb' 2 6) (w.extractLsb' 0 2)
  | 20 => decodeVLS (w.extractLsb' 22 5) (w.extractLsb' 16 6) (w.extractLsb' 8 8) (w.extractLsb' 2 6) (w.extractLsb' 0 2)
  | 21 => decodePRS (w.extractLsb' 24 3) (w.extractLsb' 20 4) (w.extractLsb' 14 6) (w.extractLsb' 8 6) (w.extractLsb' 2 6) (w.extractLsb' 0 2)
  | 22 => decodeRWE (w.extractLsb' 24 3) (w.extractLsb' 20 4) (w.extractLsb' 14 6) (w.extractLsb' 8 6) (w.extractLsb' 2 6) (w.extractLsb' 0 2)
  | 24 => decodeVEC0 (w.extractLsb' 22 5) (w.extractLsb' 17 5) (w.extractLsb' 12 5) (w.extractLsb' 8 4) (w.extractLsb' 2 6) (w.extractLsb' 0 2)
  | 25 => decodeVEC1 (w.extractLsb' 22 5) (w.extractLsb' 17 5) (w.extractLsb' 12 5) (w.extractLsb' 8 4) (w.extractLsb' 2 6) (w.extractLsb' 0 2)
  | 26 => decodeVEC2 (w.extractLsb' 22 5) (w.extractLsb' 17 5) (w.extractLsb' 12 5) (w.extractLsb' 8 4) (w.extractLsb' 2 6) (w.extractLsb' 0 2)
  | 27 => decodeVEC3 (w.extractLsb' 22 5) (w.extractLsb' 17 5) (w.extractLsb' 12 5) (w.extractLsb' 8 4) (w.extractLsb' 2 6) (w.extractLsb' 0 2)
  | _ => none

/-- The decoder of a sequencer: total on every word, `none` where the word raises an illegal-instruction trap (R81). -/
def decode (q : Seq) (w : IWord) : Option Instr :=
  match decodeRaw w with
  | some i => if i.legalIn q then some i else none
  | none => none

/-- A host form word of R85. -/
def wordHost (funct7 : BitVec 7) (rs2 rs1 : BitVec 5) (reply : BitVec 1) (rd : BitVec 5) : IWord :=
  funct7 ++ rs2 ++ rs1 ++ 0#2 ++ reply ++ rd ++ 0x0B#7

/-- The host form of a custom-0 word: `none` where the hart raises its illegal-instruction exception (R85, R86). -/
def decodeHostForm (w : IWord) : Option HostForm :=
  let rs2 := w.extractLsb' 20 5
  let rs1 := w.extractLsb' 15 5
  let reply := w.extractLsb' 12 1
  let rd := w.extractLsb' 7 5
  let form : Option HostForm :=
    match (w.extractLsb' 25 7).toNat with
    | 0 => if rs2 = 0#5 then some (.cbind rs1 reply rd) else none
    | 1 => some (.cstart rs2 rs1 reply rd)
    | 2 => if rs2 = 0#5 then some (.cjoin rs1 reply rd) else none
    | 3 => if rs2 = 0#5 then some (.cquery rs1 reply rd) else none
    | 4 => if rs2 = 0#5 ∧ rs1 = 0#5 then some (.cfence reply rd) else none
    | 5 => if rs2 = 0#5 ∧ rs1 = 0#5 then some (.cpark reply rd) else none
    | 6 => some (.ccancel rs2 rs1 reply rd)
    | 7 => if rs2 = 0#5 ∧ rs1 = 0#5 then some (.cfree reply rd) else none
    | 8 => some (.csignal rs2 rs1 reply rd)
    | 9 => if rs2 = 0#5 then some (.cvers rs1 reply rd) else none
    | 10 => some (.cfault rs2 rs1 reply rd)
    | _ => none
  if w.extractLsb' 0 7 = 0x0B#7 ∧ w.extractLsb' 13 2 = 0#2 then
    if reply = 1#1 ∨ rd = 0#5 then form else none
  else none

/-- The host form's instruction (R85, R86). -/
noncomputable def decodeHost (w : IWord) : Option Instr :=
  (decodeHostForm w).map HostForm.toInstr

/-- The word of a device instruction or host form; an event has none. -/
def encode : Instr → Option IWord
  | .ill d a i t => some (wordS 0#5 0#7 d a i t)
  | .nop t => some (wordS 0#5 1#7 0#6 0#6 0#6 t)
  | .halt t => some (wordS 0#5 2#7 0#6 0#6 0#6 t)
  | .trap i t => some (wordS 0#5 3#7 0#6 0#6 i t)
  | .rett t => some (wordS 0#5 4#7 0#6 0#6 0#6 t)
  | .mfs d i t => some (wordS 0#5 5#7 d 0#6 i t)
  | .mts a i t => some (wordS 0#5 6#7 0#6 a i t)
  | .vcyc d t => some (wordS 0#5 7#7 d 0#6 0#6 t)
  | .dbgpend d i t => some (wordS 0#5 8#7 d 0#6 i t)
  | .bkpt i t => some (wordS 0#5 9#7 0#6 0#6 i t)
  | .wfe t => some (wordS 0#5 10#7 0#6 0#6 0#6 t)
  | .sev i t => some (wordS 0#5 11#7 0#6 0#6 i t)
  | .tkcfg i t => some (wordS 0#5 12#7 0#6 0#6 i t)
  | .ident d i t => some (wordS 0#5 13#7 d 0#6 i t)
  | .pace a i t => some (wordS 0#5 14#7 0#6 a i t)
  | .enrd d i t => some (wordS 0#5 15#7 d 0#6 i t)
  | .gceil d t => some (wordS 0#5 16#7 d 0#6 0#6 t)
  | .add d a b t => some (wordR 1#5 d a b 0#7 t)
  | .sub d a b t => some (wordR 1#5 d a b 1#7 t)
  | .and d a b t => some (wordR 1#5 d a b 2#7 t)
  | .or d a b t => some (wordR 1#5 d a b 3#7 t)
  | .xor d a b t => some (wordR 1#5 d a b 4#7 t)
  | .andn d a b t => some (wordR 1#5 d a b 5#7 t)
  | .sll d a b t => some (wordR 1#5 d a b 6#7 t)
  | .srl d a b t => some (wordR 1#5 d a b 7#7 t)
  | .sra d a b t => some (wordR 1#5 d a b 8#7 t)
  | .rol d a b t => some (wordR 1#5 d a b 9#7 t)
  | .slt d a b t => some (wordR 1#5 d a b 10#7 t)
  | .sltu d a b t => some (wordR 1#5 d a b 11#7 t)
  | .min d a b t => some (wordR 1#5 d a b 12#7 t)
  | .max d a b t => some (wordR 1#5 d a b 13#7 t)
  | .minu d a b t => some (wordR 1#5 d a b 14#7 t)
  | .maxu d a b t => some (wordR 1#5 d a b 15#7 t)
  | .mul d a b t => some (wordR 1#5 d a b 16#7 t)
  | .mulh d a b t => some (wordR 1#5 d a b 17#7 t)
  | .mulhu d a b t => some (wordR 1#5 d a b 18#7 t)
  | .div d a b t => some (wordR 1#5 d a b 19#7 t)
  | .divu d a b t => some (wordR 1#5 d a b 20#7 t)
  | .rem d a b t => some (wordR 1#5 d a b 21#7 t)
  | .remu d a b t => some (wordR 1#5 d a b 22#7 t)
  | .clz d a t => some (wordR 1#5 d a 0#6 23#7 t)
  | .ctz d a t => some (wordR 1#5 d a 0#6 24#7 t)
  | .popc d a t => some (wordR 1#5 d a 0#6 25#7 t)
  | .sext d a b t => some (wordR 1#5 d a b 26#7 t)
  | .zext d a b t => some (wordR 1#5 d a b 27#7 t)
  | .addw d a b t => some (wordR 1#5 d a b 28#7 t)
  | .subw d a b t => some (wordR 1#5 d a b 29#7 t)
  | .mulw d a b t => some (wordR 1#5 d a b 30#7 t)
  | .addi d a i t => some (wordI 2#5 d a 0#3 i t)
  | .andi d a i t => some (wordI 2#5 d a 1#3 i t)
  | .ori d a i t => some (wordI 2#5 d a 2#3 i t)
  | .xori d a i t => some (wordI 2#5 d a 3#3 i t)
  | .slti d a i t => some (wordI 2#5 d a 4#3 i t)
  | .slli d a i t => some (wordI 2#5 d a 5#3 i t)
  | .srli d a i t => some (wordI 2#5 d a 6#3 i t)
  | .srai d a i t => some (wordI 2#5 d a 7#3 i t)
  | .movhi d i t => some (wordU 3#5 d i t)
  | .ld d a o z t => some (wordM 4#5 d a o z t)
  | .lds d a o z t => some (wordM 5#5 d a o z t)
  | .st d a o z t => some (wordM 6#5 d a o z t)
  | .beqz a o t => some (wordB 7#5 0#4 a o t)
  | .bnez a o t => some (wordB 7#5 1#4 a o t)
  | .bltz a o t => some (wordB 7#5 2#4 a o t)
  | .bgez a o t => some (wordB 7#5 3#4 a o t)
  | .bgtz a o t => some (wordB 7#5 4#4 a o t)
  | .blez a o t => some (wordB 7#5 5#4 a o t)
  | .bp a o t => some (wordB 7#5 6#4 a o t)
  | .bnp a o t => some (wordB 7#5 7#4 a o t)
  | .bq o t => some (wordB 7#5 8#4 12#6 o t)
  | .bnq o t => some (wordB 7#5 9#4 12#6 o t)
  | .jmp o t => some (wordJ 8#5 o t)
  | .call o t => some (wordJ 9#5 o t)
  | .jr d a i t => some (wordI 10#5 d a 0#3 i t)
  | .callr d a i t => some (wordI 10#5 d a 1#3 i t)
  | .tkpush q t => some (wordS 11#5 0#7 0#6 0#6 q t)
  | .tkpop q t => some (wordS 11#5 1#7 0#6 0#6 q t)
  | .tkcnt d q t => some (wordS 11#5 2#7 d 0#6 q t)
  | .qpeek d q t => some (wordS 11#5 3#7 d 0#6 q t)
  | .qcnt d q t => some (wordS 11#5 4#7 d 0#6 q t)
  | .qsquash q t => some (wordS 11#5 5#7 0#6 0#6 q t)
  | .qfmt a q t => some (wordS 11#5 6#7 0#6 a q t)
  | .qsel q t => some (wordS 11#5 7#7 0#6 0#6 q t)
  | .bqpush a t => some (wordS 11#5 8#7 0#6 a 12#6 t)
  | .qwait q t => some (wordS 11#5 9#7 0#6 0#6 q t)
  | .epop d q t => some (wordS 11#5 10#7 d 0#6 q t)
  | .hmov d a t => some (wordH 12#5 d a 0#4 0#6 0#7 t)
  | .hld d r t => some (wordH 12#5 d 0#4 0#4 r 1#7 t)
  | .hst a r t => some (wordH 12#5 0#4 a 0#4 r 2#7 t)
  | .hsetb d a r t => some (wordH 12#5 d a 0#4 r 3#7 t)
  | .hsetd d a k r t => some (wordH 12#5 d a k r 4#7 t)
  | .hsets d a k r t => some (wordH 12#5 d a k r 5#7 t)
  | .hsetf d a r t => some (wordH 12#5 d a 0#4 r 6#7 t)
  | .hgetb a r t => some (wordH 12#5 0#4 a 0#4 r 7#7 t)
  | .hgetd a k r t => some (wordH 12#5 0#4 a k r 8#7 t)
  | .hoff d a k r t => some (wordH 12#5 d a k r 9#7 t)
  | .hsub d a r t => some (wordH 12#5 d a 0#4 r 10#7 t)
  | .hchk a r t => some (wordH 12#5 0#4 a 0#4 r 11#7 t)
  | .hclr d t => some (wordH 12#5 d 0#4 0#4 0#6 12#7 t)
  | .ctld h a b l t => some (wordE 13#5 0#3 h a b (l ++ 0#5) t)
  | .ctst h a b l t => some (wordE 13#5 0#3 h a b (l ++ 1#5) t)
  | .ccpy h a b l t => some (wordE 13#5 0#3 (h ++ 0#1) a b (l ++ 2#5) t)
  | .cfill h a b l t => some (wordE 13#5 0#3 h a b (l ++ 3#5) t)
  | .cpfx h a b l t => some (wordE 13#5 0#3 h a b (l ++ 4#5) t)
  | .cxfr a b l t => some (wordE 13#5 0#3 0#4 a b (l ++ 5#5) t)
  | .gath h a b t => some (wordE 13#5 1#3 h a b 0#6 t)
  | .scat h a b t => some (wordE 13#5 1#3 h a b 1#6 t)
  | .gathp h a b t => some (wordE 13#5 1#3 h a b 2#6 t)
  | .scata h a b t => some (wordE 13#5 1#3 h a b 3#6 t)
  | .xallr h a b t => some (wordE 13#5 2#3 h a b 0#6 t)
  | .xrds h a b t => some (wordE 13#5 2#3 h a b 1#6 t)
  | .xallg h a b t => some (wordE 13#5 2#3 h a b 2#6 t)
  | .xsend h a b t => some (wordE 13#5 2#3 h a b 3#6 t)
  | .xrecv h a b t => some (wordE 13#5 2#3 h a b 4#6 t)
  | .xexch h a b t => some (wordE 13#5 2#3 h a b 5#6 t)
  | .ald d a o s z => some (wordA 14#5 d a 0#5 0#4 o s z)
  | .ast a b o s z => some (wordA 14#5 0#5 a b 1#4 o s z)
  | .aswp d a b o s z => some (wordA 14#5 d a b 2#4 o s z)
  | .acas d a b o s z => some (wordA 14#5 d a b 3#4 o s z)
  | .aadd d a b o s z => some (wordA 14#5 d a b 4#4 o s z)
  | .aand d a b o s z => some (wordA 14#5 d a b 5#4 o s z)
  | .aor d a b o s z => some (wordA 14#5 d a b 6#4 o s z)
  | .axor d a b o s z => some (wordA 14#5 d a b 7#4 o s z)
  | .amin d a b o s z => some (wordA 14#5 d a b 8#4 o s z)
  | .amax d a b o s z => some (wordA 14#5 d a b 9#4 o s z)
  | .aminu d a b o s z => some (wordA 14#5 d a b 10#4 o s z)
  | .amaxu d a b o s z => some (wordA 14#5 d a b 11#4 o s z)
  | .afadd d a b o s => some (wordA 14#5 d a b 12#4 o s 1#1)
  | .sigdec d a b o s => some (wordA 14#5 d a b 13#4 o s 0#1)
  | .sigadd d a b o s => some (wordA 14#5 d a b 14#4 o s 0#1)
  | .fence s o t => some (wordF 15#5 0#4 s o 0#6 0#8 t)
  | .fencee s o m t => some (wordF 15#5 1#4 s o 0#6 m t)
  | .ssync t => some (wordF 15#5 2#4 0#4 0#3 0#6 0#8 t)
  | .cbar t => some (wordF 15#5 3#4 0#4 0#3 0#6 0#8 t)
  | .waitv s o a c t => some (wordF 15#5 4#4 s o a c t)
  | .ckopen d a t => some (wordH 16#5 d a 0#4 0#6 0#7 t)
  | .ckopenGrow d a t => some (wordH 16#5 d a 1#4 0#6 0#7 t)
  | .ckseal d a t => some (wordH 16#5 d a 0#4 0#6 1#7 t)
  | .ckblnd d a b t => some (wordH 16#5 d a b 0#6 2#7 t)
  | .ckfilt d a r t => some (wordH 16#5 d a 0#4 r 3#7 t)
  | .ckrebs d a r t => some (wordH 16#5 d a 0#4 r 4#7 t)
  | .ckpour a r t => some (wordH 16#5 0#4 a 0#4 r 5#7 t)
  | .ckdrop a t => some (wordH 16#5 0#4 a 0#4 0#6 6#7 t)
  | .ckinfo a k r t => some (wordH 16#5 0#4 a k r 7#7 t)
  | .ckabort a t => some (wordH 16#5 0#4 a 0#4 0#6 8#7 t)
  | .glaunch d a t => some (wordS 17#5 0#7 d a 0#6 t)
  | .gwait d a i t => some (wordS 17#5 1#7 d a i t)
  | .gcancel d a i t => some (wordS 17#5 2#7 d a i t)
  | .gcnt d a i t => some (wordS 17#5 3#7 d a i t)
  | .yield t => some (wordS 17#5 4#7 0#6 0#6 0#6 t)
  | .uexit t => some (wordS 17#5 5#7 0#6 0#6 0#6 t)
  | .priset d a t => some (wordS 17#5 6#7 d a 0#6 t)
  | .pset d a i t => some (wordS 18#5 0#7 d a i t)
  | .pand d a i t => some (wordS 18#5 1#7 d a i t)
  | .por d a i t => some (wordS 18#5 2#7 d a i t)
  | .pxor d a i t => some (wordS 18#5 3#7 d a i t)
  | .pnot d a t => some (wordS 18#5 4#7 d a 0#6 t)
  | .pmov d a t => some (wordS 18#5 5#7 d a 0#6 t)
  | .ptos d a i t => some (wordS 18#5 6#7 d a i t)
  | .pall d a i t => some (wordS 18#5 7#7 d a i t)
  | .pany d a i t => some (wordS 18#5 8#7 d a i t)
  | .vwin a t => some (wordVL 19#5 0#5 a 0#8 0#6 t)
  | .loopx a i t => some (wordVL 19#5 0#5 a i 1#6 t)
  | .loope t => some (wordVL 19#5 0#5 0#6 0#8 2#6 t)
  | .vrot i t => some (wordVL 19#5 0#5 0#6 i 3#6 t)
  | .vtag d f t => some (wordVL 19#5 d 0#6 (0#2 ++ f) 4#6 t)
  | .vtagr d a t => some (wordVL 19#5 d a 0#8 5#6 t)
  | .vld d a i t => some (wordVL 20#5 d a i 0#6 t)
  | .vst d a i t => some (wordVL 20#5 d a i 1#6 t)
  | .vldt d a m t => some (wordVL 20#5 d a (0#4 ++ m) 2#6 t)
  | .vldg d a b t => some (wordVL 20#5 d a (0#2 ++ b) 3#6 t)
  | .vsts d a m t => some (wordVL 20#5 d a (0#4 ++ m) 4#6 t)
  | .vldb d a m t => some (wordVL 20#5 d a (0#4 ++ m) 5#6 t)
  | .vlds d a m t => some (wordVL 20#5 d a (0#4 ++ m) 6#6 t)
  | .plse t => some (wordE 21#5 0#3 0#4 0#6 0#6 0#6 t)
  | .prel t => some (wordE 21#5 0#3 0#4 0#6 0#6 1#6 t)
  | .pwld h a t => some (wordE 21#5 0#3 h a 0#6 2#6 t)
  | .pmul h a b t => some (wordE 21#5 0#3 h a b 3#6 t)
  | .pmulz h a b t => some (wordE 21#5 0#3 h a b 4#6 t)
  | .pdrn c h a t => some (wordE 21#5 c h a 0#6 5#6 t)
  | .pstat a t => some (wordE 21#5 0#3 0#4 a 0#6 6#6 t)
  | .rwsmx c h a b l t => some (wordE 22#5 c h a b (l ++ 0#5) t)
  | .rwmax c h a b l t => some (wordE 22#5 c h a b (l ++ 1#5) t)
  | .rwexps c h a b l t => some (wordE 22#5 c h a b (l ++ 2#5) t)
  | .rwscl c h a b l t => some (wordE 22#5 c h a b (l ++ 3#5) t)
  | .rwrms c h a b l t => some (wordE 22#5 c h a b (l ++ 4#5) t)
  | .rwlnrm c h a b l t => some (wordE 22#5 c h a b (l ++ 5#5) t)
  | .vadd d a b p t => some (wordV 24#5 d a b p 0#6 t)
  | .vsub d a b p t => some (wordV 24#5 d a b p 1#6 t)
  | .vmul d a b p t => some (wordV 24#5 d a b p 2#6 t)
  | .vfma d a b p t => some (wordV 24#5 d a b p 3#6 t)
  | .vfms d a b p t => some (wordV 24#5 d a b p 4#6 t)
  | .vmin d a b p t => some (wordV 24#5 d a b p 5#6 t)
  | .vmax d a b p t => some (wordV 24#5 d a b p 6#6 t)
  | .vabs d a p t => some (wordV 24#5 d a 0#5 p 7#6 t)
  | .vneg d a p t => some (wordV 24#5 d a 0#5 p 8#6 t)
  | .vand d a b p t => some (wordV 24#5 d a b p 9#6 t)
  | .vor d a b p t => some (wordV 24#5 d a b p 10#6 t)
  | .vxor d a b p t => some (wordV 24#5 d a b p 11#6 t)
  | .vsll d a b p t => some (wordV 24#5 d a b p 12#6 t)
  | .vsrl d a b p t => some (wordV 24#5 d a b p 13#6 t)
  | .vsra d a b p t => some (wordV 24#5 d a b p 14#6 t)
  | .vcmpeq d a b p t => some (wordV 24#5 d a b p 15#6 t)
  | .vcmplt d a b p t => some (wordV 24#5 d a b p 16#6 t)
  | .vcmple d a b p t => some (wordV 24#5 d a b p 17#6 t)
  | .vsel d a b p t => some (wordV 24#5 d a b p 18#6 t)
  | .vmov d a p t => some (wordV 24#5 d a 0#5 p 19#6 t)
  | .vsat d a b p t => some (wordV 24#5 d a b p 20#6 t)
  | .vaddsat d a b p t => some (wordV 24#5 d a b p 21#6 t)
  | .vrcp d a p t => some (wordV 25#5 d a 0#5 p 0#6 t)
  | .vsqrt d a p t => some (wordV 25#5 d a 0#5 p 1#6 t)
  | .vrsqrt d a p t => some (wordV 25#5 d a 0#5 p 2#6 t)
  | .vexp2 d a p t => some (wordV 25#5 d a 0#5 p 3#6 t)
  | .vlog2 d a p t => some (wordV 25#5 d a 0#5 p 4#6 t)
  | .vexp d a p t => some (wordV 25#5 d a 0#5 p 5#6 t)
  | .vtanh d a p t => some (wordV 25#5 d a 0#5 p 6#6 t)
  | .vsigm d a p t => some (wordV 25#5 d a 0#5 p 7#6 t)
  | .vgelu d a p t => some (wordV 25#5 d a 0#5 p 8#6 t)
  | .vsilu d a p t => some (wordV 25#5 d a 0#5 p 9#6 t)
  | .vcvt d a g p t => some (wordV 26#5 d a g p 0#6 t)
  | .vcvtr d a m g p t => some (wordV 26#5 d a (m ++ g) p 1#6 t)
  | .vqmx d a b g t => some (wordV 26#5 d a b g 2#6 t)
  | .vdqmx d a b g t => some (wordV 26#5 d a b g 3#6 t)
  | .vperm d a b p t => some (wordV 26#5 d a b p 4#6 t)
  | .vshuf d a b p t => some (wordV 26#5 d a b p 5#6 t)
  | .vslide d a b p t => some (wordV 26#5 d a b p 6#6 t)
  | .vbcst d a b p t => some (wordV 26#5 d a b p 7#6 t)
  | .vins d a b t => some (wordV 26#5 d a b 0#4 8#6 t)
  | .vext d a b t => some (wordV 26#5 d a b 0#4 9#6 t)
  | .vcmpct a p t => some (wordV 26#5 0#5 a 0#5 p 10#6 t)
  | .vcpop d p t => some (wordV 26#5 d 0#5 0#5 p 11#6 t)
  | .vcflush d p t => some (wordV 26#5 d 0#5 0#5 p 12#6 t)
  | .vrsum d a p t => some (wordV 27#5 d a 0#5 p 0#6 t)
  | .vrmax d a p t => some (wordV 27#5 d a 0#5 p 1#6 t)
  | .vrmin d a p t => some (wordV 27#5 d a 0#5 p 2#6 t)
  | .vrand d a p t => some (wordV 27#5 d a 0#5 p 3#6 t)
  | .vror d a p t => some (wordV 27#5 d a 0#5 p 4#6 t)
  | .vdot d a b p t => some (wordV 27#5 d a b p 5#6 t)
  | .vscan d a p t => some (wordV 27#5 d a 0#5 p 6#6 t)
  | .vpcnt d a p t => some (wordV 27#5 d a 0#5 p 7#6 t)
  | .cbind s p d => some (wordHost 0#7 0#5 s p d)
  | .cstart r s p d => some (wordHost 1#7 r s p d)
  | .cjoin s p d => some (wordHost 2#7 0#5 s p d)
  | .cquery s p d => some (wordHost 3#7 0#5 s p d)
  | .cfence p d => some (wordHost 4#7 0#5 0#5 p d)
  | .cpark p d => some (wordHost 5#7 0#5 0#5 p d)
  | .ccancel r s p d => some (wordHost 6#7 r s p d)
  | .cfree p d => some (wordHost 7#7 0#5 0#5 p d)
  | .csignal r s p d => some (wordHost 8#7 r s p d)
  | .cvers s p d => some (wordHost 9#7 0#5 s p d)
  | .cfault r s p d => some (wordHost 10#7 r s p d)
  | .hostFormInterrupt _ => none
  | .blockingFormReturn _ => none
  | .cpsave _ _ => none
  | .cpload _ _ => none
  | .cpattn _ _ => none
  | .registerWrite _ _ => none
  | .resultLand _ _ => none
  | .dqoutForward _ _ => none
  | .loadMissReturn _ _ => none
  | .storePerformed _ _ => none
  | .atomicPerformed _ _ => none
  | .barrierDepart _ _ _ => none
  | .waitvRecheck _ _ => none
  | .rettReturn _ _ => none
  | .sequencerExit _ _ => none
  | .engineCommandStart _ _ => none
  | .engineCommandComplete _ _ => none
  | .engineCommandFail _ _ => none
  | .relocationTake _ _ _ _ => none
  | .engineFaultWaitResume _ _ => none
  | .pressArbitrate _ => none
  | .pressReloadComplete _ => none
  | .pressCommandStart _ => none
  | .pressCommandComplete _ => none
  | .pressGrantCyclesExpire _ => none
  | .collectiveContribution _ _ => none
  | .collectiveCommit _ _ _ => none
  | .collectiveTimeout _ _ => none
  | .walkComplete _ _ => none
  | .fqtailWrite _ _ => none
  | .fqcfgWrite _ _ => none
  | .fqrplRetry _ _ => none
  | .fqrplReject _ _ => none
  | .fqrplTerminate _ _ => none
  | .sfenceVma _ _ _ => none
  | .leesSpill _ _ => none
  | .stageFlush _ _ => none
  | .hartDeviceRace _ _ _ => none
  | .schedTick _ => none
  | .park _ => none
  | .unpark _ _ => none
  | .launchPlace _ _ _ => none
  | .nodeComplete _ => none
  | .waitEvaluate _ => none
  | .signalNode _ => none
  | .copyNodeComplete _ => none
  | .phasePeriodTimer _ _ _ => none
  | .agingExpire _ _ => none
  | .energyEstimateTick _ => none
  | .refillBoundary _ _ => none
  | .arbiterPeriod _ => none
  | .biasMoveComplete _ => none
  | .thermalHeadroomLost _ => none
  | .thermalHeadroomRegained _ => none
  | .thermalStepDown _ => none
  | .ballastStart _ => none
  | .ballastShed _ => none
  | .trip _ _ _ => none
  | .breachReceive _ _ _ => none
  | .ceilingStamp _ => none
  | .heartbeatSend _ => none
  | .heartbeatReceive _ _ => none
  | .heartbeatMiss _ _ => none
  | .memberEvict _ _ => none
  | .leaveComplete _ => none
  | .groupLinkUp _ _ _ => none
  | .groupVersionChange _ _ => none
  | .linkBringup _ _ _ => none
  | .flitReceive _ _ => none
  | .pauseReceive _ _ => none
  | .resumeReceive _ _ => none
  | .admissionWindow _ _ => none
  | .moduleReset => none
  | .watchdogExpire => none
  | .getver _ => none
  | .slotwr _ => none
  | .slotact => none
  | .confirm _ => none
  | .wdset _ => none
  | .mext _ _ => none
  | .leescfg _ _ _ => none
  | .schcfg _ _ => none
  | .enset _ _ => none
  | .capset _ _ => none
  | .pwrstat _ => none
  | .qset _ => none
  | .layset _ _ => none
  | .csetprog _ _ _ => none
  | .partcfg _ _ => none
  | .getVersion _ => none
  | .getCapabilities _ => none
  | .negotiateAlgorithms _ => none
  | .getDigests _ => none
  | .getCertificate _ => none
  | .challenge _ => none
  | .getMeasurements _ _ => none
  | .keyExchange _ _ => none
  | .finish _ => none
  | .endSession _ => none
  | .tdispLock _ => none
  | .tdispLeaveRun _ => none
  | .spdmSessionExpire _ => none
  | .tdispUnlock _ => none
  | .hartAccess _ _ => none
  | .externalHostAccess _ => none
  | .tdispRun _ => none

/-- The first sequencer, in the order C, L, X, S, whose decoder accepts a word, with the instruction. -/
def decodeAny (w : IWord) : Option (Seq × Instr) :=
  match decode .c w with
  | some i => some (.c, i)
  | none =>
    match decode .l w with
    | some i => some (.l, i)
    | none =>
      match decode .x w with
      | some i => some (.x, i)
      | none =>
        match decode .s w with
        | some i => some (.s, i)
        | none => none

/-- The instruction of a word as the opcode table numbers its bits: a custom-0 word is a host form, any other word is read by
the first sequencer that accepts it. Every word of the part is 32 bits, so only 32 bits or fewer make one. -/
noncomputable def decodeTableWord (nbits w : Nat) : Option Instr :=
  if 32 < nbits ∨ 2 ^ 32 ≤ w then none
  else
    let v := BitVec.ofNat 32 w
    match decodeHost v with
    | some i => some i
    | none => (decodeAny v).map Prod.snd

end Sys2Proof
end

