-- ==== Sys2Proof/Config.lean ====
section
/-!
DEFINITION. What the manual leaves to an implementation or leaves open, as constants without a body: no proof can see what they are,
so a claim holds whatever they are. The constants that the manual does fix stand with the rules that use them.
-/

namespace Sys2Proof

/-- Which of the enabled turns comes next, by the count of free choices made so far (R25, R29; log 2). -/
opaque Config.pick : Nat → Nat

/-- A fresh value the manual leaves open, by the count of free values used so far (log 5). -/
opaque Config.freeValue : Nat → Word

/-- Whether a sum of two finite values that is exactly zero, though not both are zeros of one sign, is −0; by the sign of the first
value and the magnitudes and exponents of both (R113; log 6). -/
opaque Config.zeroSumNeg : Bool → Nat → Int → Nat → Int → Bool

/-- SHAKE256 of a byte string, taken to 64 bytes (R437, R438; log 11). -/
opaque Config.shake256 : List Byte → List Byte

/-- Whether an Ed448 signature over a byte string verifies under a key: key, message, signature (R437; log 11). -/
opaque Config.ed448Verifies : List Byte → List Byte → List Byte → Bool

/-- The 32-byte seal of a saved port block, keyed per module boot: boot count, bytes 0x00 to 0xDF (R321; log 11). -/
opaque Config.portSeal : Nat → List Byte → List Byte

/-- The 160 bytes of port-private state that a save of a port writes: boot count, hart (R321; log 11). -/
opaque Config.portPrivate : Nat → Nat → List Byte

/-- The digest of the root key in the fuses (R437; log 11). -/
opaque Config.rootKeyDigest : List Byte

/-- The device identity key that the vintner derives from a fused secret and MR0 (R443; log 11). -/
opaque Config.identityKey : List Byte → List Byte

/-- The body of an SPDM response, by the request's number in the order of R443, the identity key under which it is signed, and a fresh number (R443; log 13). -/
opaque Config.spdmBody : Nat → List Byte → Nat → List Byte

/-- The arguments of a command of the firmware interface, as its payload gives them (R442). -/
inductive FwArgs where
  | none
  | numbers (a b c : Nat)
  | bytes (n : Nat) (bs : List Byte)
  | list (a : Nat) (ns : List Nat) (b : Nat)
  deriving DecidableEq, Repr, Inhabited

/-- What the payload of a command of a code stands for: its layout is not in the manual (R442; log 88). -/
opaque Config.payload : Nat → List Byte → FwArgs

/-- The number of the interrupt that serves a fault ring: the manual names its hart and not its number (R394, R396; log 27). -/
opaque Config.serviceInterrupt : Nat

/-- The energy in pJ of one event of a kind at a body-bias level, as the vintner calibrates it: level, kind (R408; log 9). -/
opaque Config.eventEnergy : Nat → Nat → Nat

/-- The leakage of a core in pJ for one cycle at a body-bias level (R408; log 9). -/
opaque Config.leakage : Nat → Nat

/-- Whether the caches serve an access to a memory node, so that it reaches no controller, by the number of such accesses before it (R125, R400; log 86). -/
opaque Config.servedByCache : Nat → Bool

/-- The energy in µJ that a cluster's work of a period asks for, by the period and the cluster (R415; log 9). -/
opaque Config.clusterDemand : Nat → Nat → Nat

/-- The energy in µJ that a cluster is estimated to take in a period, by the cluster, its body-bias level and a clock in MHz (R415; log 9). -/
opaque Config.clusterEnergy : Nat → Nat → Nat → Nat

/-- The demand in µJ that is queued as a period begins, by the period and the sharer: 0 to 7 an HBM stack, 8 the compute dies (R415; log 9). -/
opaque Config.queuedDemand : Nat → Nat → Nat

/-- The energy in µJ that walker traffic asks for at an HBM stack, by the period and the stack (R401, R415; log 9). -/
opaque Config.walkerDemand : Nat → Nat → Nat

/-- The share in µJ of a cellar package for a period, by the period and the package (R415; log 9). -/
opaque Config.cellarShare : Nat → Nat → Nat

/-- The clock limit in MHz that an effective module cap in W sets a member of a group (R419; log 9). -/
opaque Config.capClock : Nat → Nat

/-- The draw in W of the cellar, the base-die logic and the Rilow complex in a period, as the vintner estimates it (R415; log 9). -/
opaque Config.fixedDraw : Nat → Nat

/-- The swizzle code that the loader records for a scratchpad block: by its bytes and its number among the image's blocks (R60; log 21). -/
opaque Config.blockSwizzle : List Byte → Nat → Nat

/-- How many slots at the end of a parameter block hold addresses of global data blocks, by the bytes of the image's relocation section
(R57, R59; log 21). -/
opaque Config.addressSlots : List Byte → Nat

/-- The digest of the vintner's configuration: slot number, rollback counters, watchdog deadline (R438; log 11). -/
opaque Config.vintnerConfig : Nat → List Nat → Nat → List Byte

/-- The digest of a partition's interface configuration: partition, clusters (R438, R444; log 11). -/
opaque Config.interfaceConfig : Nat → List Nat → List Byte

/-- The digest of an image loaded into a partition, by the bytes of the image (R438; log 11). -/
opaque Config.imageDigest : List Byte → List Byte

end Sys2Proof
end

