-- ==== Sys2Proof/Machine/Float.lean ====
section
/-!
DEFINITION. Number formats and arithmetic: the element formats of R87 to R94, exact values, the one rounding of R99 to R101, the
operations of R95, R96 and R113, and the special functions of R118 to R120. Flags are the bits of `AFLAGS` (R97).
-/

namespace Sys2Proof.Machine

open Sys2Proof

/-- Sticky flags, numbered as in `AFLAGS` (R97). -/
abbrev Flags := BitVec 5

/-- `INV` (R96, R97). -/
def flagINV : Flags := 1#5
/-- `OVF` (R97, R100). -/
def flagOVF : Flags := 2#5
/-- `SATN` (R92, R97). -/
def flagSATN : Flags := 4#5
/-- `SATA` (R97, R112). -/
def flagSATA : Flags := 8#5
/-- `SCLUF` (R97, R109). -/
def flagSCLUF : Flags := 16#5

/-! ## Formats -/

/-- The format codes of R87 that name a format. -/
def fmtValid (f : Nat) : Bool :=
  f ≤ 0x13 || 0x20 ≤ f && f ≤ 0x2F

/-- The element width in bits; for the aligned forms, their plane count (R87, R176). -/
def fmtBits (f : Nat) : Nat :=
  match f with
  | 0x00 => 8 | 0x01 => 8 | 0x02 => 16 | 0x03 => 32 | 0x04 => 64
  | 0x05 => 8 | 0x06 => 16 | 0x07 => 32 | 0x08 => 32 | 0x09 => 16 | 0x0A => 16
  | 0x0B => 8 | 0x0C => 8 | 0x0D => 6 | 0x0E => 6 | 0x0F => 4
  | 0x10 => 4 | 0x11 => 2 | 0x12 => 2 | 0x13 => 8 | 0x2F => 2
  | n => if 0x20 ≤ n ∧ n ≤ 0x2E then n - 0x1E else 8

/-- The aligned forms `ap2` to `ap16` and `at` (R87). -/
def fmtAligned (f : Nat) : Bool := 0x20 ≤ f && f ≤ 0x2F

/-- The binary and narrow floats (R87). -/
def fmtFloat (f : Nat) : Bool := 0x08 ≤ f && f ≤ 0x0F

/-- The signed integers, `i4` and `i2` among them (R87, R91). -/
def fmtSigned (f : Nat) : Bool := 0x01 ≤ f && f ≤ 0x04 || f == 0x10 || f == 0x11

/-- The unsigned integers (R87). -/
def fmtUnsigned (f : Nat) : Bool := 0x05 ≤ f && f ≤ 0x07

/-- The integer formats, `t2` not among them. -/
def fmtInt (f : Nat) : Bool := fmtSigned f || fmtUnsigned f

/-- The element formats of MX64 (R107). -/
def fmtMx (f : Nat) : Bool := 0x0B ≤ f && f ≤ 0x0F

/-- The width of an element's lane in a row: formats of 8 bits or fewer take 8; an aligned form of 9 to 15 planes takes 16 (R89). -/
def laneBits (f : Nat) : Nat := if fmtBits f ≤ 8 then 8 else if fmtBits f ≤ 16 then 16 else fmtBits f

/-- The elements of a row (R89). -/
def laneCount (f : Nat) : Nat := 8192 / laneBits f

/-- The parameters of a float format (R93): exponent bits, fraction bits, bias, whether the top exponent field holds infinities
and NaN, and whether the code of all ones is a NaN though it does not. -/
structure FloatFmt where
  ebits : Nat
  mbits : Nat
  bias  : Nat
  top   : Bool
  nan1  : Bool
  deriving DecidableEq, Repr

/-- The float formats (R93). -/
def floatFmt (f : Nat) : FloatFmt :=
  match f with
  | 0x08 => ⟨8, 23, 127, true, false⟩
  | 0x09 => ⟨8, 7, 127, true, false⟩
  | 0x0A => ⟨5, 10, 15, true, false⟩
  | 0x0C => ⟨5, 2, 15, true, false⟩
  | 0x0B => ⟨4, 3, 7, false, true⟩
  | 0x0D => ⟨3, 2, 3, false, false⟩
  | 0x0E => ⟨2, 3, 1, false, false⟩
  | _ => ⟨2, 1, 1, false, false⟩

/-! ## Exact values -/

/-- An exact value: a NaN, an infinity, or (−1)^neg × mant × 2^exp. -/
inductive FVal where
  | nan
  | inf (neg : Bool)
  | fin (neg : Bool) (mant : Nat) (exp : Int)
  deriving DecidableEq, Repr

/-- +0. -/
def fzero : FVal := .fin false 0 0

/-- The exact value of a float code (R93). -/
def floatValue (ff : FloatFmt) (bits : Nat) : FVal :=
  let m := 2 ^ ff.mbits
  let frac := bits % m
  let e := bits / m % 2 ^ ff.ebits
  let neg := bits / m / 2 ^ ff.ebits % 2 == 1
  if ff.top && e == 2 ^ ff.ebits - 1 then if frac == 0 then .inf neg else .nan
  else if ff.nan1 && e == 2 ^ ff.ebits - 1 && frac == m - 1 then .nan
  else if e == 0 then .fin neg frac (1 - (ff.bias : Int) - ff.mbits)
  else .fin neg (m + frac) ((e : Int) - ff.bias - ff.mbits)

/-- A signalling NaN: the top fraction bit of a NaN is 0, in the formats that have infinities (R96). -/
def floatSNaN (ff : FloatFmt) (bits : Nat) : Bool :=
  ff.top && (match floatValue ff bits with
    | .nan => bits / 2 ^ (ff.mbits - 1) % 2 == 0
    | _ => false)

/-- The canonical NaN of a format, +0 in a format without one (R96, R101). -/
def floatNaN (ff : FloatFmt) : Nat :=
  if ff.top then (2 ^ ff.ebits - 1) * 2 ^ ff.mbits + 2 ^ (ff.mbits - 1)
  else if ff.nan1 then 2 ^ (ff.ebits + ff.mbits) - 1
  else 0

/-- The sign bit of a float code. -/
def floatSign (ff : FloatFmt) (neg : Bool) : Nat :=
  if neg then 2 ^ (ff.ebits + ff.mbits) else 0

/-- The code of the largest finite magnitude (R93). -/
def floatMax (ff : FloatFmt) : Nat :=
  if ff.top then (2 ^ ff.ebits - 1) * 2 ^ ff.mbits - 1
  else if ff.nan1 then 2 ^ (ff.ebits + ff.mbits) - 2
  else 2 ^ (ff.ebits + ff.mbits) - 1

/-- The code of infinity. -/
def floatInf (ff : FloatFmt) : Nat := (2 ^ ff.ebits - 1) * 2 ^ ff.mbits

/-! ## Rounding -/

/-- The rounding modes of R99. -/
inductive RMode where
  | rne | rtz | rdn | rup
  deriving DecidableEq, Repr

/-- mant × 2^exp in units of 2^q, rounded once (R99). -/
def roundUnits (mode : RMode) (neg : Bool) (mant : Nat) (exp q : Int) : Nat :=
  if q ≤ exp then mant * 2 ^ (exp - q).toNat
  else
    let k := (q - exp).toNat
    let n := mant / 2 ^ k
    let r := mant % 2 ^ k
    let up := match mode with
      | .rne => 2 ^ k < 2 * r || 2 * r == 2 ^ k && n % 2 == 1
      | .rtz => false
      | .rdn => neg && r != 0
      | .rup => !neg && r != 0
    if up then n + 1 else n

/-- What a finite value above the largest finite magnitude becomes (R100). -/
def floatOverflow (ff : FloatFmt) (mode : RMode) (neg : Bool) : Nat :=
  if ff.top && ff.mbits != 2 then
    match mode, neg with
    | .rne, _ => floatInf ff
    | .rtz, _ => floatMax ff
    | .rdn, true => floatInf ff
    | .rdn, false => floatMax ff
    | .rup, true => floatMax ff
    | .rup, false => floatInf ff
  else floatMax ff

/-- An exact value rounded once into a float format, with the overflow rule of R100 and the NaN rule of R96 and R101. -/
def roundFloat (ff : FloatFmt) (mode : RMode) : FVal → Nat × Flags
  | .nan => (floatNaN ff, if ff.top || ff.nan1 then 0 else flagINV)
  | .inf neg =>
    if ff.top then (floatSign ff neg + floatInf ff, 0) else (floatSign ff neg + floatMax ff, flagOVF)
  | .fin neg mant exp =>
    if mant = 0 then (floatSign ff neg, 0)
    else
      let emin : Int := 1 - (ff.bias : Int)
      let e : Int := (Nat.log2 mant : Int) + exp
      let q : Int := (if e < emin then emin else e) - ff.mbits
      let n := roundUnits mode neg mant exp q
      -- the code of n × 2^q: adding the fraction to the exponent field carries into it
      let base : Nat := (q + ff.mbits - emin).toNat * 2 ^ ff.mbits
      let code := base + n
      if floatMax ff < code then (floatSign ff neg + floatOverflow ff mode neg, flagOVF)
      else (floatSign ff neg + code, 0)

/-- An exact value rounded to an integer (R99, R101); only finite values have one. -/
def roundInt (mode : RMode) (neg : Bool) (mant : Nat) (exp : Int) : Int :=
  let n := roundUnits mode neg mant exp 0
  if neg then -(n : Int) else n

/-! ## Exact arithmetic -/

/-- −v. -/
def fneg : FVal → FVal
  | .nan => .nan
  | .inf n => .inf (!n)
  | .fin n m e => .fin (!n) m e

/-- |v|. -/
def fabs : FVal → FVal
  | .nan => .nan
  | .inf _ => .inf false
  | .fin _ m e => .fin false m e

/-- A signed integer times 2^exp as an exact value; zero takes the sign given. -/
def fofInt (zneg : Bool) (i : Int) (exp : Int) : FVal :=
  if i = 0 then .fin zneg 0 exp else .fin (i < 0) i.natAbs exp

/-- The signed mantissa of a finite value in units of 2^q, q at most its exponent. -/
def funits (neg : Bool) (mant : Nat) (exp q : Int) : Int :=
  let n : Int := mant * 2 ^ (exp - q).toNat
  if neg then -n else n

/-- a + b, exact (R113), with whether it is an invalid operation (R96). -/
def fadd : FVal → FVal → FVal × Bool
  | .nan, _ => (.nan, false)
  | _, .nan => (.nan, false)
  | .inf a, .inf b => if a == b then (.inf a, false) else (.nan, true)
  | .inf a, .fin .. => (.inf a, false)
  | .fin .., .inf b => (.inf b, false)
  | .fin na ma ea, .fin nb mb eb =>
    let q := if ea ≤ eb then ea else eb
    let z := if ma = 0 ∧ mb = 0 ∧ na = nb then na else Config.zeroSumNeg na ma ea mb eb
    let sum := funits na ma ea q + funits nb mb eb q
    if sum = 0 then (.fin z 0 q, false) else (fofInt false sum q, false)

/-- a × b, exact, with whether it is an invalid operation (R96). -/
def fmul : FVal → FVal → FVal × Bool
  | .nan, _ => (.nan, false)
  | _, .nan => (.nan, false)
  | .inf a, .inf b => (.inf (a != b), false)
  | .inf a, .fin n m _ => if m = 0 then (.nan, true) else (.inf (a != n), false)
  | .fin n m _, .inf b => if m = 0 then (.nan, true) else (.inf (n != b), false)
  | .fin na ma ea, .fin nb mb eb => (.fin (na != nb) (ma * mb) (ea + eb), false)

/-- a < b of two values that are not NaN; both zeros are equal (R95). -/
def flt : FVal → FVal → Bool
  | .nan, _ => false
  | _, .nan => false
  | .inf a, .inf b => a && !b
  | .inf a, .fin .. => a
  | .fin .., .inf b => !b
  | .fin na ma ea, .fin nb mb eb =>
    let q := if ea ≤ eb then ea else eb
    funits na ma ea q < funits nb mb eb q

/-- a = b (R95). -/
def feq : FVal → FVal → Bool
  | .nan, _ => false
  | _, .nan => false
  | a, b => !(flt a b) && !(flt b a)

/-- The sign of a value. -/
def fsign : FVal → Bool
  | .nan => false
  | .inf n => n
  | .fin n _ _ => n

/-- Whether a value is a NaN. -/
def fisNaN : FVal → Bool
  | .nan => true
  | _ => false

/-- a is below b in the order of the minimum and maximum, which puts −0 below +0 (R95). -/
def fbelow (a b : FVal) : Bool :=
  flt a b || feq a b && fsign a && !(fsign b)

/-! ## Elements -/

/-- An element's value: an integer or an exact value. -/
inductive EVal where
  | int (i : Int)
  | flt (v : FVal)
  deriving DecidableEq, Repr

/-- The integer that the low w bits of a code stand for, as two's complement. -/
def signedOf (w bits : Nat) : Int :=
  let b := bits % 2 ^ w
  if 2 ^ (w - 1) ≤ b then (b : Int) - 2 ^ w else b

/-- An integer as a code of w bits, mod 2^w. -/
def wrapTo (w : Nat) (i : Int) : Nat := (i % 2 ^ w).toNat

/-- The value of an element of an integer, `t2` or float format; none for a `t2` code 0b10 and for formats that hold no value (R91,
R93). -/
def elemValue (f bits : Nat) : Option EVal :=
  let w := fmtBits f
  if fmtFloat f then some (.flt (floatValue (floatFmt f) (bits % 2 ^ w)))
  else if fmtSigned f then some (.int (signedOf w bits))
  else if fmtUnsigned f then some (.int (bits % 2 ^ w : Nat))
  else if f = 0x12 then if bits % 4 = 2 then none else some (.int (signedOf 2 bits))
  else none

/-- The range of an integer or `t2` format (R91). -/
def intRange (f : Nat) : Int × Int :=
  if f = 0x12 then (-1, 1)
  else if fmtUnsigned f then (0, 2 ^ fmtBits f - 1)
  else (-2 ^ (fmtBits f - 1), 2 ^ (fmtBits f - 1) - 1)

/-- An integer saturated to a format (R92, R102). -/
def saturate (f : Nat) (i : Int) : Nat × Flags :=
  let (lo, hi) := intRange f
  let j := if i < lo then lo else if hi < i then hi else i
  (wrapTo (fmtBits f) j, if j = i then 0 else flagSATN)

/-- A value converted once to an integer, `t2` or float format (R99 to R102). -/
def convertTo (f : Nat) (mode : RMode) : EVal → Nat × Flags
  | .int i =>
    if fmtFloat f then roundFloat (floatFmt f) mode (fofInt false i 0)
    else saturate f i
  | .flt v =>
    if fmtFloat f then roundFloat (floatFmt f) mode v
    else match v with
      | .nan => (0, flagINV)
      | .inf n => (wrapTo (fmtBits f) (if n then (intRange f).1 else (intRange f).2), flagSATN)
      | .fin n m e => saturate f (roundInt mode n m e)

/-- Whether R99 to R102 give a conversion from a format to another: from integer or float to integer or float, and into `t2` from
integers only; `t2` itself is a source of integers (R102). -/
def convLegal (src dst : Nat) : Bool :=
  let val f := fmtInt f || fmtFloat f || f == 0x12
  val src && val dst && !(dst == 0x12 && fmtFloat src)

/-- The flag of a signalling NaN that a conversion or operation consumes (R96). -/
def snanFlag (f bits : Nat) : Flags :=
  if fmtFloat f && floatSNaN (floatFmt f) (bits % 2 ^ fmtBits f) then flagINV else 0

/-- An element converted between two formats; none where a `t2` source holds 0b10 (R91, R99 to R102). -/
def convertElem (src dst : Nat) (mode : RMode) (bits : Nat) : Option (Nat × Flags) :=
  (elemValue src bits).map fun v =>
    let (b, fl) := convertTo dst mode v
    (b, fl ||| snanFlag src bits)

/-! ## Operations of one float format -/

/-- An exact result rounded with RNE; an invalid operation sets `INV` (R96, R113). -/
def finish (f : Nat) (r : FVal × Bool) : Nat × Flags :=
  let (b, fl) := roundFloat (floatFmt f) .rne r.1
  (b, fl ||| if r.2 then flagINV else 0)

/-- The value of a float code of format f. -/
def fval (f bits : Nat) : FVal := floatValue (floatFmt f) (bits % 2 ^ fmtBits f)

/-- Addition of two codes of format f (R95, R96, R113). -/
def floatAdd (f a b : Nat) : Nat × Flags :=
  let (r, fl) := finish f (fadd (fval f a) (fval f b))
  (r, fl ||| snanFlag f a ||| snanFlag f b)

/-- Subtraction. -/
def floatSub (f a b : Nat) : Nat × Flags :=
  let (r, fl) := finish f (fadd (fval f a) (fneg (fval f b)))
  (r, fl ||| snanFlag f a ||| snanFlag f b)

/-- Multiplication. -/
def floatMul (f a b : Nat) : Nat × Flags :=
  let (r, fl) := finish f (fmul (fval f a) (fval f b))
  (r, fl ||| snanFlag f a ||| snanFlag f b)

/-- a × b + c or a × b − c, rounded once (R113); it is invalid only where no operand is a NaN, or one is signalling (R96). -/
def floatFma (f : Nat) (sub : Bool) (a b c : Nat) : Nat × Flags :=
  let p := fmul (fval f a) (fval f b)
  let s := fadd p.1 (if sub then fneg (fval f c) else fval f c)
  let (r, fl) := finish f (s.1, p.2 && !(fisNaN (fval f c)) || s.2)
  (r, fl ||| snanFlag f a ||| snanFlag f b ||| snanFlag f c)

/-- The minimum or maximum of two codes (R95). -/
def floatMinMax (f : Nat) (isMax : Bool) (a b : Nat) : Nat × Flags :=
  let va := fval f a
  let vb := fval f b
  let r :=
    if fisNaN va && fisNaN vb then floatNaN (floatFmt f)
    else if fisNaN va then b
    else if fisNaN vb then a
    else if fbelow va vb then (if isMax then b else a)
    else (if isMax then a else b)
  (r, snanFlag f a ||| snanFlag f b)

/-! ## Special functions -/

/-- The integer square root by Newton's steps from above, at most `fuel` of them. -/
def isqrtLoop (n : Nat) : Nat → Nat → Nat
  | 0, x => x
  | fuel + 1, x =>
    let y := (x + n / x) / 2
    if y < x then isqrtLoop n fuel y else x

/-- The integer square root of n. -/
def isqrt (n : Nat) : Nat :=
  if n = 0 then 0 else isqrtLoop n (Nat.log2 n + 4) (2 ^ (Nat.log2 n / 2 + 1))

/-- The fraction bits of the enclosures of the special functions (log 7). -/
def specPrec : Nat := 320

/-- ln 2 in units of 2^−320, rounded down. -/
def ln2Units : Nat :=
  1480553391661173448385607439722553250922680800745876974795605978609098082859138712941075737848984

/-- The terms y^n / n! from n = k on, in units of 2^−320, y in the same units; `t` is the term before. -/
def expTerms (y : Nat) : Nat → Nat → Nat → Nat
  | 0, _, _ => 0
  | fuel + 1, k, t =>
    let t' := t * y / 2 ^ specPrec / k
    t' + expTerms y fuel (k + 1) t'

/-- 2^f for a fraction f of `k` bits, n / 2^k, in units of 2^−320. -/
def exp2Units (n k : Nat) : Nat :=
  let y := n * ln2Units / 2 ^ k
  2 ^ specPrec + expTerms y 80 1 (2 ^ specPrec)

/-- The terms z^(2i+1) / (2i+1) from i = k on, in units of 2^−320; `t` is z^(2k+1). -/
def atanhTerms (z2 : Nat) : Nat → Nat → Nat → Nat
  | 0, _, _ => 0
  | fuel + 1, k, t => t / (2 * k + 1) + atanhTerms z2 fuel (k + 1) (t * z2 / 2 ^ specPrec)

/-- ln m for m = n / 2^k in [1, 2), in units of 2^−320. -/
def lnUnits (n k : Nat) : Nat :=
  let z := (n - 2 ^ k) * 2 ^ specPrec / (n + 2 ^ k)
  2 * atanhTerms (z * z / 2 ^ specPrec) 110 0 z

/-- 1 / v (R118): the quotient to 64 bits and more, with a last bit that stands for the rest. -/
def frcp : FVal → FVal
  | .nan => .nan
  | .inf n => .fin n 0 0
  | .fin n m e =>
    if m = 0 then .inf n
    else
      let k := Nat.log2 m + 80
      let q := 2 ^ k / m
      .fin n (2 * q + if 2 ^ k % m = 0 then 0 else 1) (-(k : Int) - e - 1)

/-- √v with whether it is invalid (R118). -/
def fsqrt : FVal → FVal × Bool
  | .nan => (.nan, false)
  | .inf n => if n then (.nan, true) else (.inf false, false)
  | .fin n m e =>
    if m = 0 then (.fin n 0 0, false)
    else if n then (.nan, true)
    else
      let odd := e % 2 != 0
      let m' := (if odd then 2 * m else m) * 2 ^ 160
      let e' := (if odd then e - 1 else e) - 160
      let r := isqrt m'
      (.fin false (2 * r + if r * r = m' then 0 else 1) (e' / 2 - 1), false)

/-- 1 / √v with whether it is invalid (R118). -/
def frsqrt : FVal → FVal × Bool
  | .nan => (.nan, false)
  | .inf n => if n then (.nan, true) else (fzero, false)
  | .fin n m e =>
    if m = 0 then (.inf n, false)
    else if n then (.nan, true)
    else
      let odd := e % 2 != 0
      let m' := if odd then 2 * m else m
      let e' := if odd then e - 1 else e
      let k := Nat.log2 m' + 160
      let r := isqrt (2 ^ (2 * k) / m')
      (.fin false (2 * r + if r * r * m' = 2 ^ (2 * k) then 0 else 1) (-(k : Int) - e' / 2 - 1), false)

/-- 2^v (R118). Beyond any format's range the exponent is cut, which rounds alike. -/
def fexp2 : FVal → FVal
  | .nan => .nan
  | .inf n => if n then fzero else .inf false
  | .fin n m e =>
    if m = 0 then .fin false 1 0
    else if 12 < (Nat.log2 m : Int) + e then .fin false 1 (if n then -4096 else 4096)
    else if 0 ≤ e then
      let i : Int := m * 2 ^ e.toNat
      .fin false 1 (if n then -i else i)
    else
      let k := (-e).toNat
      let i : Int := if n then -(m : Int) else m
      let fl : Int := i / 2 ^ k
      let fr := (i % 2 ^ k).toNat
      if fr = 0 then .fin false 1 fl
      else .fin false (2 * exp2Units fr k + 1) (fl - specPrec - 1)

/-- log2 v with whether it is invalid (R118). -/
def flog2 : FVal → FVal × Bool
  | .nan => (.nan, false)
  | .inf n => if n then (.nan, true) else (.inf false, false)
  | .fin n m e =>
    if m = 0 then (.inf true, false)
    else if n then (.nan, true)
    else
      let k := Nat.log2 m
      let ip : Int := (k : Int) + e
      if m = 2 ^ k then (fofInt false ip 0, false)
      else
        let fr := lnUnits m k * 2 ^ specPrec / ln2Units
        (fofInt false (2 * (ip * 2 ^ specPrec + fr) + 1) (-(specPrec : Int) - 1), false)

/-- The primitives of R118 on a code of format f. -/
def specPrim (g : FVal → FVal × Bool) (f a : Nat) : Nat × Flags :=
  let (r, fl) := finish f (g (fval f a))
  (r, fl ||| snanFlag f a)

/-- `VRCP` (R118). -/
def specRcp (f a : Nat) : Nat × Flags := specPrim (fun v => (frcp v, false)) f a
/-- `VSQRT` (R118). -/
def specSqrt (f a : Nat) : Nat × Flags := specPrim fsqrt f a
/-- `VRSQRT` (R118). -/
def specRsqrt (f a : Nat) : Nat × Flags := specPrim frsqrt f a
/-- `VEXP2` (R118). -/
def specExp2 (f a : Nat) : Nat × Flags := specPrim (fun v => (fexp2 v, false)) f a
/-- `VLOG2` (R118). -/
def specLog2 (f a : Nat) : Nat × Flags := specPrim flog2 f a

/-- `VEXP` on F32 (R119). -/
def f32Exp (a : Nat) : Nat × Flags :=
  let (t, f1) := floatMul 8 a 0x3FB8AA3B
  let (r, f2) := specExp2 8 t
  (r, f1 ||| f2)

/-- The code of F32 1.0. -/
def f32One : Nat := 0x3F800000

/-- −a of an F32 code, exact. -/
def f32Neg (a : Nat) : Nat := a ^^^ 0x80000000

/-- `VTANH` on F32 (R119). -/
def f32Tanh (a : Nat) : Nat × Flags :=
  let neg := 2 ^ 31 ≤ a % 2 ^ 32
  let (m, f1) := floatMul 8 0xC0000000 (a % 2 ^ 31)
  let (e, f2) := f32Exp m
  let (n, f3) := floatSub 8 f32One e
  let (d, f4) := floatAdd 8 f32One e
  let (r, f5) := specRcp 8 d
  let (q, f6) := floatMul 8 n r
  let q' := if fisNaN (fval 8 q) then floatNaN (floatFmt 8) else q % 2 ^ 31 + if neg then 2 ^ 31 else 0
  (q', f1 ||| f2 ||| f3 ||| f4 ||| f5 ||| f6 ||| snanFlag 8 a)

/-- `VSIGM` on F32 (R119). -/
def f32Sigm (a : Nat) : Nat × Flags :=
  let (e, f1) := f32Exp (f32Neg a)
  let (d, f2) := floatAdd 8 f32One e
  let (r, f3) := specRcp 8 d
  (r, f1 ||| f2 ||| f3)

/-- `VSILU` on F32 (R119). -/
def f32Silu (a : Nat) : Nat × Flags :=
  let (s, f1) := f32Sigm a
  let (r, f2) := floatMul 8 a s
  (r, f1 ||| f2)

/-- `VGELU` on F32 (R119). -/
def f32Gelu (a : Nat) : Nat × Flags :=
  let (x2, f1) := floatMul 8 a a
  let (x3, f2) := floatMul 8 x2 a
  let (u, f3) := floatFma 8 false 0x3D372713 x3 a
  let (w, f4) := floatMul 8 0x3F4C422A u
  let (t, f5) := f32Tanh w
  let (h, f6) := floatAdd 8 f32One t
  let (hx, f7) := floatMul 8 0x3F000000 a
  let (r, f8) := floatMul 8 hx h
  (r, f1 ||| f2 ||| f3 ||| f4 ||| f5 ||| f6 ||| f7 ||| f8)

/-- A composite function in a format: widened exactly to F32 and converted once at the end (R120). -/
def specComposite (g : Nat → Nat × Flags) (f a : Nat) : Nat × Flags :=
  if f = 8 then g (a % 2 ^ 32)
  else
    let (x, _) := roundFloat (floatFmt 8) .rne (fval f a)
    let (r, f1) := g x
    let (o, f2) := roundFloat (floatFmt f) .rne (fval 8 r)
    (o, f1 ||| f2 ||| snanFlag f a)

/-! ## Sums, aligned planes and MX64 -/

/-- One level of the tree of R114: neighbours added and rounded to F32. -/
def treeLevel : List (FVal × Bool) → List (FVal × Bool) × Flags
  | a :: b :: r =>
    let s := fadd a.1 b.1
    let (c, fl) := finish 8 (s.1, s.2 || a.2 || b.2)
    let (t, fl') := treeLevel r
    ((fval 8 c, false) :: t, fl ||| fl')
  | [a] => ([a], 0)
  | [] => ([], 0)

/-- The tree sum of exact values, each with whether forming it was invalid, in F32 (R114); `fuel` bounds the levels. -/
def treeSum : Nat → List (FVal × Bool) → Nat × Flags
  | 0, _ => (0, 0)
  | fuel + 1, vs =>
    match vs with
    | [] => (0, 0)
    | [a] => finish 8 a
    | _ =>
      let (t, fl) := treeLevel vs
      let (r, fl') := treeSum fuel t
      (r, fl ||| fl')

/-- The chunked sum of F32 codes of the row engine: trees over chunks of 256 completed with +0, added in sequence (R116); `fuel` bounds the
chunks. -/
def chunkedSum (xs : List Nat) : Nat × Flags :=
  let rec chunks : Nat → List Nat → List (List Nat)
    | 0, _ => []
    | fuel + 1, l => if l.length ≤ 256 then [l] else l.take 256 :: chunks fuel (l.drop 256)
  let sums := (chunks (xs.length + 1) xs).map fun c =>
    treeSum 12 ((c.map fun x => (fval 8 x, false)) ++ List.replicate (256 - c.length) (fzero, false))
  match sums with
  | [] => (0, 0)
  | s :: r => r.foldl (fun acc t => let (v, fl) := floatAdd 8 acc.1 t.1; (v, acc.2 ||| t.2 ||| fl)) s

/-- The magnitude a / 2^s compared exactly: the larger of two finite magnitudes. -/
def maxMag (a b : FVal) : FVal := if flt (fabs a) (fabs b) then fabs b else fabs a

/-- floor(log2) of a finite non-zero magnitude. -/
def floorLog2 : FVal → Int
  | .fin _ m e => (Nat.log2 m : Int) + e
  | _ => 0

/-- A block of 64 exact values brought into aligned form of width n: the integers, the exponent byte, and the flags (R105). -/
def alignBlock (xs : List FVal) (n : Nat) : List Int × Nat × Flags :=
  if xs.any (fun v => match v with | .fin .. => false | _ => true) then (xs.map fun _ => 0, 0xFF, flagINV)
  else
    let amax := xs.foldl maxMag fzero
    match amax with
    | .fin _ 0 _ => (xs.map fun _ => 0, 127, 0)
    | _ =>
      let e0 := floorLog2 amax - ((n : Int) - 2)
      let e := if e0 < -127 then -127 else e0
      let q (v : FVal) : Int := match v with
        | .fin ng m x =>
          let i := roundInt .rne ng m (x - e)
          if i < -2 ^ (n - 1) then -2 ^ (n - 1) else if 2 ^ (n - 1) - 1 < i then 2 ^ (n - 1) - 1 else i
        | _ => 0
      (xs.map q, (e + 127).toNat, 0)

/-- The exponent of a target's largest finite value (R109). -/
def mxEmax (f : Nat) : Int :=
  match f with
  | 0x0B => 8 | 0x0C => 15 | 0x0D => 4 | _ => 2

/-- A run of 64 exact values requantised to an MX64 format: scale code, elements, flags (R109). -/
def requantise (xs : List FVal) (f : Nat) : Nat × List Nat × Flags :=
  if xs.any (fun v => match v with | .fin .. => false | _ => true) then (0xFF, xs.map fun _ => 0, flagINV)
  else
    let amax := xs.foldl maxMag fzero
    match amax with
    | .fin _ 0 _ => (0, xs.map fun _ => 0, 0)
    | _ =>
      let e0 := floorLog2 amax - mxEmax f
      let e := if e0 < -127 then -127 else e0
      let rs := xs.map fun v => match v with
        | .fin n m x => roundFloat (floatFmt f) .rne (.fin n m (x - e))
        | v => roundFloat (floatFmt f) .rne v
      ((e + 127).toNat, rs.map Prod.fst,
        rs.foldl (fun a r => a ||| r.2) (if e0 < -127 then flagSCLUF else 0))

/-- The exact value of an MX64 element under a scale code (R108); `INV` where the scale is a NaN. -/
def mxDecode (f bits scale : Nat) : FVal × Flags :=
  if scale = 0xFF then (.nan, flagINV)
  else match fval f bits with
    | .fin n m e => (.fin n m (e + (scale : Int) - 127), 0)
    | v => (v, 0)

end Sys2Proof.Machine
end

