-- ==== Sys2Proof/Machine/State.lean ====
section
/-!
DEFINITION. The state of the module: every piece of state that the manual names, as plain data, and the state right after
a module reset. Every record says which rule names its fields; INVENTORY.md lists them one by one with their reset values.
-/

namespace Sys2Proof.Machine

open Sys2Proof

/-- Why the machine stops with a fault. -/
inductive Fault where
  /-- An access from outside the module (R269) or from a Rilow hart names a physical address that R398 calls unpopulated, and no
  rule says what that access does. Raised by `EXTERNAL_HOST_ACCESS`, `HART_ACCESS`, `CPSAVE` and `CPLOAD`. Safe: the model stops. -/
  | unpopulatedAddress
  deriving DecidableEq, Repr

/-- Why the model gives an instruction no meaning. -/
inductive Refusal where
  /-- The instruction has no meaning in this model yet. Raised by `exec` only, by name. Safe: nothing is claimed of it. -/
  | notModelled (mnemonic : String)
  deriving DecidableEq, Repr

/-! ## Order of memory -/

/-- What an agent knows of other agents: regions below the number are before it (R271, R280). -/
abbrev Hist := Tab Agent Nat

/-- The place of one byte: a physical address of the module (R398), or a byte of a logical accumulator row of a unit
(R201, R204). -/
inductive Place where
  | mem (pa : Nat)
  | acc (uid row byte : Nat)
  deriving DecidableEq, Repr

/-- A mark that one access leaves on `words` aligned 4-byte words from `word` on, reached at the virtual address `va` (R277, R279, R280). -/
structure Mark where
  word    : Place
  words   : Nat
  va      : Nat
  agent   : Agent
  region  : Nat
  write   : Bool
  atomic  : Bool
  cont    : Nat
  job     : Nat
  spilled : Bool
  deriving DecidableEq, Repr

/-- A release at the head of a release sequence, or one an agent has read or holds: its agent, scope and history (R270, R276). -/
structure Release where
  agent : Agent
  scope : Nat
  hist  : Hist
  deriving DecidableEq, Repr

/-- A race, as its record gives it (R281). -/
structure Race where
  vaddr       : Word
  paddr       : Nat
  late        : Agent
  early       : Agent
  regionLate  : Nat
  regionEarly : Nat
  contLate    : Nat
  contEarly   : Nat
  kinds       : BitVec 32
  jobEarly    : Nat
  deriving DecidableEq, Repr

/-- The order of memory: histories, region numbers, marks and releases (R266 to R287). -/
structure OrderState where
  hist      : Tab Agent Hist
  regions   : Tab Agent Nat
  marks     : List Mark
  heads     : Tab Nat (List Release)
  readHeads : Tab Agent (List Release)
  relFence  : Tab Agent (List Release)
  deriving DecidableEq, Repr

/-! ## A sequencer -/

/-- The kinds of landing-buffer entry (R134); `reserved` is code 7, which an entry that system software wrote may hold and a restore rejects. -/
inductive LandKind where
  | scalar | pred | handle | row | dqout | vq | tag | reserved
  deriving DecidableEq, Repr

/-- A token push of an instruction that has issued and not yet retired (R66, R141): its peer, recorded at issue, and what the agent had done
and acquired in program order up to the instruction (R270, R271). -/
structure Push where
  peer : Seq
  rel  : Release
  deriving DecidableEq, Repr

/-- A landing-buffer entry (R129, R134). `slot` is its place in its bank, `push` the token push that its landing makes (R67), `rid` the reservation that a queue
result fills (R137), and `region` the region of its instruction (R280). `hidden` holds the bytes of a lane mask that is not present, and `resv` tells which of its
four header words were written with a reserved bit set, which reads 0 (R10) and which a restore rejects (R357). -/
structure Landing where
  ord     : BitVec 32
  flg     : BitVec 5
  tag     : BitVec 6
  dst     : Nat
  kind    : LandKind
  rem     : Nat
  payload : Row
  mask    : Option Mask
  push    : Option Push
  rid     : Nat
  region  : Nat
  slot    : Nat
  hidden  : Mask
  resv    : BitVec 4
  deriving DecidableEq, Repr

/-- A token slot: its push peer and its pop peer (R66, R156). -/
structure TokSlot where
  push : Option Seq
  pop  : Option Seq
  deriving DecidableEq, Repr

/-- The trap registers and write permissions of a sequencer, special registers 1 to 8 (R155). -/
structure TrapRegs where
  tvec   : Word
  tcause : Word
  tval   : Word
  tepc   : Word
  tstat  : Word
  tvc    : Word
  wperm  : Word
  wpermh : Word
  deriving DecidableEq, Repr

/-- An entry of `dqout`: its target and, once filled, its value (R136 to R138). -/
structure DqOut where
  rid    : Nat
  target : Seq
  val    : Option Word
  deriving DecidableEq, Repr

/-- An entry of `dqin`: its value, and what an engine that wrote the port released with it (R172, R270). -/
structure DqIn where
  val : Word
  acq : Option Release
  deriving DecidableEq, Repr

/-- The kinds of access that a translation serves, coded as in a fault-queue entry (R389, R395). -/
inductive AccKind where
  | read | write | atomic | fetch
  deriving DecidableEq, Repr

/-- What a frozen sequencer waits for (R125). -/
inductive Wait where
  /-- a token, an entry or room in the queue of an index of R35 -/
  | queue (n : Nat)
  /-- a token push at retirement -/
  | retire
  /-- the locks of these numbers (R169, R203); none for a 33rd lock (R169) -/
  | lock (nos : List Nat)
  /-- a free row group (R201) -/
  | rowGroup
  /-- a translation on a die (R392) -/
  | walk (die : Nat) (va : Word) (kind : AccKind)
  /-- an atomic to be performed (R285) -/
  | atomic
  /-- the press lease (R250) -/
  | lease
  /-- its event flag (R158) -/
  | event
  /-- the others of an `SSYNC` or a `CBAR` (R288) -/
  | barrier (cluster : Bool)
  /-- the word at a place (R289) -/
  | watch (place : Place)
  /-- an instance to end (R381) -/
  | join
  /-- room in a cask level; the value is the `TVAL` of the capacity fault that C takes (R305) -/
  | capacity (tval : Word)
  /-- engine commands to complete (R287, R309) -/
  | engines
  /-- the effect of a blocked cask form (R307) -/
  | cask
  /-- the byte budget of a controller, with a ticket of its queue (R401) -/
  | budget (controller ticket : Nat)
  deriving DecidableEq, Repr

/-- An atomic operation: its function, order, scope, size and operands (R284). -/
structure AtomOp where
  fn    : Nat
  ord   : Nat
  scope : Nat
  w32   : Bool
  b     : Word
  c     : Word
  deriving DecidableEq, Repr

/-- A store or non-returning atomic that has issued and is not yet performed (R67, R147, R285). `bytes` are the places and values
of a plain store, or the places of an atomic; `due` counts the virtual cycles until a vector store is performed (R199); `rels` are the
releases that an atomic write begins (R270). -/
structure StoreOp where
  bytes : List (Place × Byte)
  atom  : Option AtomOp
  va    : Word
  due   : Nat
  push  : Option Push
  rels  : List Release
  deriving DecidableEq, Repr

/-- A fault to raise at a sequencer's next instruction boundary (R186, R274, R305, R373). -/
structure PendFault where
  cause : Nat
  tval  : Word
  eng   : Option Eng
  race  : Option Race
  deriving DecidableEq, Repr

/-- A record of a cask: its header's fields and its data (R302), with the region of the agent that made it (R303). -/
structure CaskRec where
  vaddr  : Word
  paddr  : Nat
  rk     : Nat
  afn    : Nat
  ord    : Nat
  scp    : Nat
  szw    : Bool
  agt    : Nat
  data   : List Byte
  agent  : Agent
  region : Nat
  deriving DecidableEq, Repr

/-- Scratchpad bits that a command writes (R135): rows of `len` bits in a unit's partition from byte `base` on, the first at bit `start`, with counts and strides in bits
along three dimensions. -/
structure WriteBox where
  owner : Nat
  base  : Nat
  start : Nat
  len   : Nat
  n1    : Nat
  n2    : Nat
  n3    : Nat
  s1    : Nat
  s2    : Nat
  s3    : Nat
  deriving DecidableEq, Repr

/-- An engine or press command (R136, R185): the operands as they stood at issue, its issue number, its token's consumer, the cask
level it belongs to (R300), the history it acquires at its start (R270), and the restart point of one that a park stopped: whether it had started, its steps
done, the accesses of its present step that are done, the records it has captured and whether it is held at a race (R142, R192, R274, R314). `writes` are the scratchpad bits that it writes (R135), and `flags` those of
`AFLAGS` that it has raised since the context save that stopped it, which its completion sets (R98). -/
structure EngCmd where
  code   : Nat
  rl     : Bool
  seqNo  : Nat
  uid    : Nat
  issuer : Seq
  ra     : Word
  rb     : Word
  h      : Handle
  h2     : Handle
  scale  : Handle
  scale2 : Handle
  push   : Option Seq
  level  : Option Nat
  rel    : Release
  lockNo : Nat
  word   : IWord
  pos    : Nat
  trace  : List (List Byte)
  recs   : List CaskRec
  held   : Bool
  started : Bool
  writes : List WriteBox
  flags  : BitVec 5
  deriving DecidableEq, Repr

/-- A result element with the release of its command (R185, R270). -/
structure Result where
  word : Word
  rel  : Option Release
  deriving DecidableEq, Repr

/-- The queues of one engine at one sequencer: commands, result elements, issue counter, whether a failure has stopped it (R186),
and its pacing register (R414). `done` keeps the releases of completed commands for `FENCEE` and for results that were
discarded (R153, R287). -/
structure EngQueue where
  cmds    : List EngCmd
  results : List Result
  issueNo : Nat
  stopped : Bool
  pace    : BitVec 16
  done    : List Release
  deriving DecidableEq, Repr

/-- The phases of a sequencer's life (R125, R131, R158); a returning one goes on at the target once its handler's results have landed. -/
inductive SeqStatus where
  | running | halting | exited | stopped
  | returning (target : Word)
  deriving DecidableEq, Repr

/-- The data queues of a sequencer (R136 to R139). -/
structure DataQueues where
  dqout   : List DqOut
  dqin    : List DqIn
  src     : BitVec 6
  snk     : BitVec 6
  target  : Seq
  deriving DecidableEq, Repr

/-- What stands between issue and retirement at a sequencer, and what it waits for. `runSpare` and `heldSpare` are the empty entries of the two banks that system
software has written (R133, R134). `pour` is a `CKPOUR` in progress: its ra field and
the index of the next record, and `pourAt` the address of the record at which it last waited (R311). -/
structure Flight where
  running  : List Landing
  held     : List Landing
  runSpare : List Landing
  heldSpare : List Landing
  stores   : List StoreOp
  pushes   : List Push
  frozen   : Option Wait
  tkDone   : Bool
  data     : Bool
  pour     : Option (Nat × Nat)
  pourAt   : Word
  faults   : List PendFault
  arrivedS : Bool
  arrivedC : Bool
  departed : Bool
  deriving DecidableEq, Repr

/-- A sequencer (R121). -/
structure SeqState where
  regs       : Vector Word 64
  handles    : Vector Handle 16
  preds      : Vector Mask 12
  pc         : Word
  streamBase : Word
  streamSize : Nat
  vc         : Word
  slots      : Vector TokSlot 3
  event      : Bool
  dbg        : BitVec 2
  tr         : TrapRegs
  dq         : DataQueues
  eng        : Vector EngQueue 5
  fl         : Flight
  status     : SeqStatus
  deriving DecidableEq, Repr

/-! ## A unit -/

/-- A token: what its push released (R66, R270). -/
abbrev Token := Release

/-- An entry of a vector queue: its reservation and, once filled, its tag and row (R136, R137). -/
structure VqEntry where
  rid : Nat
  val : Option (BitVec 6 × Row)
  deriving DecidableEq, Repr

/-- A vector queue with its format registers and the elements already popped of a widened head entry (R139). -/
structure VecQueue where
  entries : List VqEntry
  src     : BitVec 6
  snk     : BitVec 6
  part    : Nat
  deriving DecidableEq, Repr

/-- A lock of a command over scratchpad bytes of the partition or over accumulator rows (R168, R203). -/
structure Lock where
  eng    : Eng
  issuer : Seq
  seqNo  : Nat
  no     : Nat
  rows   : Bool
  write  : Bool
  lo     : Nat
  hi     : Nat
  deriving DecidableEq, Repr

/-- An open cask level (R300, R308). `id` names the level among all that the unit has opened. -/
structure CaskLevel where
  id     : Nat
  pool   : Word
  cap    : Nat
  serial : Nat
  used   : Nat
  recs   : List CaskRec
  stage  : Nat
  stageN : Nat
  abt    : Nat
  deriving DecidableEq, Repr

/-- A read that a collecting unit's agent made of a byte range, kept for the check of R303. -/
structure CaskRead where
  lo     : Nat
  hi     : Nat
  agent  : Agent
  region : Nat
  deriving DecidableEq, Repr

/-- The identity of a unit and of its launch (R157, R361), with the launch's parameter block (R59). -/
structure UnitIdent where
  key    : NodeKey
  gen    : Nat
  graph  : Nat
  index  : Nat
  size   : Nat
  cls    : Nat
  bind   : Nat
  press  : Bool
  image  : Word
  params : Word
  paramSize : Nat
  clusters : List Nat
  deriving DecidableEq, Repr

/-- X's window, loop and compaction state (R205, R213): `tv`, `tag` and `count` are the fields of `CMPS`, `buf` the 2 KiB compaction buffer. `stray` tells whether `VWS`
and `CMPS` were written with a bit outside their fields set, which reads 0 (R10) and which a restore rejects (R357). -/
structure XState where
  base  : BitVec 8
  k     : BitVec 5
  rot   : BitVec 5
  start : BitVec 26
  stages : BitVec 3
  act   : Bool
  lpn   : Word
  lpi   : Word
  tv    : Bool
  tag   : BitVec 6
  count : Nat
  buf   : BitVec 16384
  stray : BitVec 2
  deriving DecidableEq, Repr

/-- The place of a unit: core, slot, partition and row groups (R162, R201, R340, R374); `tagStray` are the rows whose tag bytes were written with a bit above the tag set,
which a restore rejects (R87, R357). -/
structure UnitPlaceState where
  core     : Nat
  slot     : Nat
  resident : Bool
  spadSize : Nat
  spadBase : Nat
  tags     : Tab Nat (BitVec 3)
  groups   : Tab Nat Nat
  reserve  : Option Nat
  rowTags  : Tab Nat (BitVec 6)
  tagStray : List Nat
  locks    : List Lock
  deriving DecidableEq, Repr

/-- What a park saves of a unit beyond what `UnitState` keeps (R279, R342): partition bytes that are not zero, by offset; rows, by logical number;
the marks on the partition, with offsets for addresses; the release sequences on partition offsets and on bytes of logical rows. `record` says
whether it took a record of the context store, `spill` how many bytes of the spill area. -/
structure SavedUnit where
  spad  : List (Nat × Byte)
  rows  : List (Nat × Row)
  marks : List Mark
  heads : Tab Nat (List Release)
  rowHeads : Tab Nat (List Release)
  record : Bool
  spill : Nat
  deriving DecidableEq, Repr

/-- What a unit keeps of the press (R239). -/
structure PressShare where
  wrec   : Option (Handle × Nat)
  lreq   : Bool
  deriving DecidableEq, Repr

/-- A unit (R21, R121, R136, R340). -/
structure UnitState where
  ident  : UnitIdent
  place  : UnitPlaceState
  seqs   : Vector SeqState 4
  tokens : Tab Nat (List Token)
  bq     : List Bool
  vqin   : VecQueue
  vqout  : VecQueue
  aflags : BitVec 5
  xs     : XState
  levels : List CaskLevel
  nlevel : Nat
  levelSpare : Tab Nat Word
  reads  : List CaskRead
  press  : PressShare
  superstep : Nat
  energy : Nat
  energyPj : Nat
  exitLeft : Nat
  saved  : Option SavedUnit
  debugger : Bool
  alive  : Bool
  deriving DecidableEq, Repr

/-! ## What activity costs -/

/-- The account that activity is charged to (R409): a unit with its continuation, a continuation at a core, or the device's overhead for what a core
does. -/
inductive Account where
  | unit (uid : Nat)
  | cont (cont core : Nat)
  | overhead (core : Nat)
  deriving DecidableEq, Repr

/-- The activity counters of an account (R408): press passes, vector and scalar issues, scratchpad and accumulator accesses, engine elements, and bytes moved to the two
memory nodes. -/
structure Activity where
  press  : Nat
  vector : Nat
  scalar : Nat
  onChip : Nat
  elems  : Nat
  hbm    : Nat
  cellar : Nat
  deriving DecidableEq, Repr

/-- Counters at 0. -/
def Activity.init : Activity := { press := 0, vector := 0, scalar := 0, onChip := 0, elems := 0, hbm := 0, cellar := 0 }

/-- Who, beside sequencers and commands, has a request in a controller's queue (R401): a hart with an access, a form's word or a save or a
load of a port, the external host, a node of a phase, the stage of a cask level, or the save of a launch's context. -/
inductive Asker where
  | hart (hart : Nat) (acc : HartAcc)
  | form (hart : Nat) (w : IWord)
  | port (hart : Nat) (addr : Word) (load : Bool)
  | ext (acc : ExtAcc)
  | node (k : NodeKey)
  | flush (uid level : Nat)
  | context (k : NodeKey)
  deriving DecidableEq, Repr

/-- A request in a controller's queue, with its ticket (R401). -/
structure QueuedAsk where
  who        : Asker
  controller : Nat
  ticket     : Nat
  deriving DecidableEq, Repr

/-- The bytes charged to each controller in this period (R400), the activity since the last estimate (R408), the count of accesses made to the memory nodes, the next
ticket of a request that waits for a budget, and the requests of others than sequencers and commands that wait (R401). -/
structure MeterState where
  spent   : Tab Nat Nat
  acts    : Tab Account Activity
  asked   : Nat
  tickets : Nat
  queue   : List QueuedAsk
  deriving DecidableEq, Repr

/-! ## Cores, clusters and dies -/

/-- Why a running command does not go on (R172, R186, R274, R305, R392, R401, R432). -/
inductive Hold where
  | none
  | walk (die : Nat) (va : Word) (kind : AccKind)
  | race
  | dqin
  | offer
  | budget (controller ticket : Nat)
  | staging
  | failed (stat : Nat)
  deriving DecidableEq, Repr

/-- A command that an engine runs: its elements performed so far, the accesses of the present one that are done, with the bytes that they read (R274), and
the records it offers (R185, R301). -/
structure RunCmd where
  cmd  : EngCmd
  pos  : Nat
  trace : List (List Byte)
  fin  : Bool
  hold : Hold
  recs : List CaskRec
  deriving DecidableEq, Repr

/-- An engine of a core: the running command, the commands that wait for a fault record (R403), and the round-robin pointer over C, L and S
(R136). -/
structure EngineState where
  run     : Option RunCmd
  waiting : List RunCmd
  next    : Nat
  deriving DecidableEq, Repr

/-- A core (R16, R174, R340). -/
structure CoreState where
  slots    : Vector (Option Nat) 8
  issuing  : Option Nat
  iss      : Bool
  slot     : BitVec 3
  rows     : Tab Nat Row
  copy     : EngineState
  gather   : EngineState
  row      : EngineState
  relocC   : Option RunCmd
  relocR   : Option RunCmd
  lockNo   : Nat
  deriving DecidableEq, Repr

/-- The press of a cluster (R239, R243, R244). `cells` are the bytes of the loaded image, `cellFmt` its format and `cellPlanes`
the planes loaded; `unit` is the holder's unit at the grant, `expired` that the grant ends when the running command completes, `timedOut` that its cycles have passed, and `reload` a
reload in progress. -/
structure PressState where
  cells      : List Byte
  cellFmt    : BitVec 6
  cellPlanes : Nat
  owner      : Option Nat
  holder     : Option Nat
  unit       : Option Nat
  ptr        : Nat
  run        : Nat
  cmds       : Nat
  expired    : Bool
  timedOut   : Bool
  cur        : Option RunCmd
  reload     : Bool
  deriving DecidableEq, Repr

/-- A cluster (R26, R239, R411 to R413, R415, R444). `ran` says whether a core of it has issued since the last arbitration boundary, `charged` is the energy charged to it
since then, in pJ. -/
structure ClusterState where
  press     : PressState
  bias      : Nat
  moving    : Option Nat
  grant     : Nat
  headroom  : Bool
  atLimit   : Bool
  ran       : Bool
  charged   : Nat
  partition : Option Nat
  deriving DecidableEq, Repr

/-- A cached translation: continuation, generation, the virtual and physical bases, log2 of its size, and what it
permits (R389). `gbase` is its guest physical base, and `leaf` and `gleaf` are log2 of the sizes of the leaves of the two stages that it is a piece of (R391). -/
structure TlbEntry where
  cont  : Nat
  gen   : Nat
  base  : Nat
  pbase : Nat
  log2  : Nat
  read  : Bool
  write : Bool
  leaf  : Nat
  gbase : Nat
  gleaf : Nat
  deriving DecidableEq, Repr

/-- Who waits for a translation (R392, R394). `block` tells a LAUNCH node that reads its defaults block from one that reads its image (R363). -/
inductive Waiter where
  | seq (uid : Nat) (q : Seq)
  | eng (core : Nat) (e : Eng) (reloc : Bool)
  | press (cluster : Nat)
  | coll (idx : Nat)
  | node (k : NodeKey) (block : Bool)
  deriving DecidableEq, Repr

/-- A page-table walk, in progress or queued in arrival order (R392). -/
structure Walk where
  cont   : Nat
  gen    : Nat
  va     : Word
  kind   : AccKind
  waiter : Waiter
  agent  : Agent
  core   : Nat
  deriving DecidableEq, Repr

/-- A record of the outstanding-fault table (R394, R395). `posted` is its place in the ring once an entry has been written, as the `nth` entry of the ring. -/
structure FaultRec where
  cont    : Nat
  gen     : Nat
  va      : Word
  count   : Nat
  kind    : Nat
  why     : Nat
  agent   : Nat
  core    : Nat
  seq     : Nat
  posted  : Option Nat
  nth     : Nat
  waiters : List Walk
  deriving DecidableEq, Repr

/-- The fault ring's registers of a die (R396); `posts` counts the entries written. -/
structure FaultRing where
  base  : Word
  cfg   : Word
  head  : Nat
  tail  : Nat
  seq   : BitVec 32
  irq   : Bool
  posts : Nat
  deriving DecidableEq, Repr

/-- A collective command in flight at a base die: the command, the own elements once they are read, the contributions in the order of their
arrival, the device's own among them, what ends it (R431, R432), the elements that its commit writes once they are known, and the accesses done of a
read or a commit that is held (R274). -/
structure CollCmd where
  core     : Nat
  cmd      : EngCmd
  started  : Bool
  elems    : List Word
  contribs : List Contribution
  mismatch : Bool
  silent   : Bool
  hold     : Hold
  trace    : List (List Byte)
  result   : Option (List Word)
  deriving DecidableEq, Repr

/-- A piece of a message, of at most 4 KiB, that waits at a port: its class, its bytes, and the collective command that sends it, by unit and lock number (R425). -/
structure Piece where
  cls   : Nat
  bytes : Nat
  cmd   : Option (Nat × Nat)
  deriving DecidableEq, Repr

/-- A Trellis port of a base die (R424 to R426, R435): the classes that its link partner and it have paused, its receive buffers, the number of the flit of each class that comes
next in order, the class-0 bytes admitted in its window, and the pieces that wait to be sent. -/
structure PortState where
  version  : Option Nat
  paused   : List Nat
  sentPause : List Nat
  buffers  : Tab Nat (List (List Byte))
  nextFlit : Tab Nat Nat
  window   : Nat
  windowAt : Nat
  waiting  : List Piece
  deriving DecidableEq, Repr

/-- A die: its translation, its fault ring, its controllers, its collective engine with the contributions that no command has matched yet, and its
ports (R392 to R401, R429). -/
structure DieState where
  tlb      : List TlbEntry
  walks    : List Walk
  faults   : List FaultRec
  parkedFaults : List (Walk × Nat)
  ring     : FaultRing
  budgets  : Tab Nat Nat
  coll     : List CollCmd
  early    : List Contribution
  ballast  : Bool
  ports    : Vector PortState 9
  deriving DecidableEq, Repr

/-! ## Continuations, jobs and graphs -/

/-- A node record of a graph (R363). -/
structure NodeRec where
  kind  : Nat
  hold  : Bool
  press : Bool
  preds : Nat
  f08   : Word
  f10   : Word
  f18   : Word
  f20   : Word
  deriving DecidableEq, Repr

/-- A graph (R362). -/
structure GraphRec where
  image : Word
  nodes : List NodeRec
  edges : List (Nat × Nat)
  waits : List (Word × Word)
  deriving DecidableEq, Repr

/-- The states of a node of a running phase (R365). -/
inductive NodeStatus where
  | waiting | ready | running | complete | failed | cancelled
  deriving DecidableEq, Repr

/-- A transfer of an exchange table (R372). -/
structure Transfer where
  src   : Nat
  dst   : Nat
  foff  : Nat
  toff  : Nat
  bytes : Nat
  at0   : Nat
  deriving DecidableEq, Repr

/-- An exchange table (R372). -/
structure ExTable where
  len  : Nat
  xfers : List Transfer
  deriving DecidableEq, Repr

/-- What the scheduler has read of a ready LAUNCH node's image and defaults block (R57, R363): the streams as file offset and size, the entry and
trap offsets, the partition, the scratchpad data as placement, swizzle code and bytes, the parameter block and the exchange tables; `file` holds the image's bytes for a launch of a partition, whose images are measured (R438). -/
structure LaunchInfo where
  image   : Word
  streams : List (Nat × Nat)
  entry   : List Nat
  trap    : List Nat
  spad    : Nat
  data    : List (Nat × Nat × List Byte)
  block   : List Byte
  tables  : List ExTable
  file    : List Byte
  deriving DecidableEq, Repr

/-- The run of one node: its status, how far a COPY has gone, when it became ready and last ran, its units' statuses, what its completion releases, and whether
a WAIT node is to be evaluated (R365 to R370, R377). -/
structure NodeRun where
  status  : NodeStatus
  done    : Nat
  readyAt : Nat
  idleAt  : Nat
  aged    : Bool
  units   : Tab Nat Nat
  launch  : Option LaunchInfo
  rel     : List Release
  due     : Bool
  deriving DecidableEq, Repr

/-- A phase of a job: its graph with the patches applied to its nodes, and the run of each node (R364, R365). `rel` is what its start
acquires. -/
structure PhaseRun where
  index  : Nat
  graph  : GraphRec
  nodes  : List NodeRun
  status : Nat
  rel    : List Release
  deriving DecidableEq, Repr

/-- An entry of a patch list (R360). -/
structure Patch where
  phase : Nat
  node  : Nat
  slot  : Nat
  val   : Word
  deriving DecidableEq, Repr

/-- A job (R327, R359, R371): its descriptor, with the class that the descriptor gives, its patches, its start, the next phase, the running phase and the phases that have ended. -/
structure Job where
  id      : Nat
  op      : Nat
  cls     : Nat
  nphase  : Nat
  graph   : Nat
  image   : Word
  gindex  : Nat
  period  : Nat
  patches : List Patch
  hart    : Option Nat
  t0      : Nat
  next    : Nat
  phase   : Option PhaseRun
  past    : List PhaseRun
  status  : Nat
  rel     : List Release
  endRel  : List Release
  deriving DecidableEq, Repr

/-- A fault record (R351, R447). -/
structure FaultRecord where
  cause  : Nat
  agent  : Nat
  jst    : Nat
  active : Bool
  cont   : Nat
  gen    : Nat
  job    : Nat
  phase  : Nat
  launch : Nat
  core   : Nat
  tepc   : Word
  tval   : Word
  tvc    : Word
  word   : IWord
  lost   : Nat
  stamp  : Nat
  race   : Option Race
  deriving DecidableEq, Repr

/-- The energy account of a continuation (R408, R410): its setting, a setting that waits for its boundary, `ENRD` 0 and
`ENRD` 1; `pj` are the picojoules charged that make no whole microjoule yet. -/
structure EnergyState where
  period  : Nat
  quota   : Nat
  pending : Option Word
  charged : Nat
  pj      : Nat
  left    : Int
  exhausted : Bool
  deficit : Int
  deriving DecidableEq, Repr

/-- A continuation (R320). `parkAsked` are the launches that a `CPARK` asked to park and that are still resident (R332); `topClusters` is the number of clusters of its
largest class-0 placement and `topAt` the stamp at which a class-0 job of it last ran (R412). -/
structure ContState where
  live    : Bool
  gen     : BitVec 32
  satp    : Word
  hgatp   : Word
  flags   : Word
  cls     : Nat
  bind    : Nat
  hart    : Nat
  nextJob : Nat
  jobs    : List Job
  faultQ  : List FaultRecord
  lost    : Nat
  graphs  : Tab Nat GraphRec
  energy  : EnergyState
  terminated : Option Nat
  partition : Option Nat
  spill   : Nat
  parkAsked : List NodeKey
  topClusters : Nat
  topAt   : Nat
  bases   : Tab Nat Nat
  deriving DecidableEq, Repr

/-! ## Harts -/

/-- A blocking form that a hart waits in (R331, R334, R335, R339). -/
inductive HostWait where
  | join (cont job : Nat)
  | fence (cont : Nat) (jobs : List Nat)
  | free (cont : Nat)
  deriving DecidableEq, Repr

/-- A form that a hart waits in, with its reply bit and its rd (R85, R339). -/
structure Waiting where
  what  : HostWait
  reply : Bool
  rd    : BitVec 5
  deriving DecidableEq, Repr

/-- The state of a port (R321): `owner` is the tag of the owning thread, none when the port is empty. -/
structure Port where
  owner   : Option Word
  cont    : BitVec 32
  gen     : BitVec 32
  vers    : BitVec 32
  flags   : BitVec 32
  hart    : BitVec 32
  lastjob : BitVec 32
  deriving DecidableEq, Repr

/-- A Rilow hart and its port, as far as the manual describes them (R278, R321 to R323, R353). `waiting` is the blocking form it stands in
(R339). -/
structure HartState where
  x      : Vector Word 32
  pc     : Word
  satp   : Word
  hgatp  : Word
  scause : Word
  sepc   : Word
  stval  : Word
  user   : Bool
  cpthr  : Word
  cpsel  : Word
  port   : Port
  waiting : Option Waiting
  attn   : List Word
  attnLost : Nat
  sie    : Word
  deriving DecidableEq, Repr

/-! ## The scheduler, the group, power, boot -/

/-- A collective set (R428). -/
structure CollSet where
  ranks : List Nat
  stamp : BitVec 32
  deriving DecidableEq, Repr

/-- What an entry of the lees table stands for: the marks of one region of an agent on one 128-byte line, and their continuation (R282). -/
structure LeesEntry where
  agent  : Agent
  region : Nat
  cont   : Nat
  line   : Nat
  deriving DecidableEq, Repr

/-- The schedulers' registers and rings (R282, R358, R375, R428); `lees` are the entries of the lees table by their slots. -/
structure SchedState where
  quantum  : Nat
  rings    : Vector (List Nat) 4
  pointers : Vector Nat 4
  backBase : Nat
  backSize : Nat
  used     : Vector Nat 4
  layouts  : Tab Nat Word
  colsets  : Tab Nat CollSet
  leesBase : Nat
  leesSize : Nat
  leesMax  : Nat
  lees     : Tab Nat LeesEntry
  records  : Nat
  deriving DecidableEq, Repr

/-- Another member of the group, as its heartbeats show it (R419, R421): `leaveAt` is the stamp at which it leaves, `evictAt` that at which its limit stops counting. -/
structure Peer where
  state   : Nat
  seq     : Nat
  limit   : Nat
  next    : Option (Nat × Nat)
  missed  : Nat
  leaveAt : Option Nat
  evictAt : Option Nat
  deriving DecidableEq, Repr

/-- The collective group and its ceiling (R419 to R423, R435); `soft` is the limit that system software has set. -/
structure GroupState where
  state   : Nat
  index   : Nat
  seq     : Nat
  limit   : Nat
  soft    : Nat
  next    : Option (Nat × Nat)
  leaveAt : Option Nat
  ceiling : Nat
  noRise  : Nat
  holdTill : Nat
  peers   : Tab Nat Peer
  version : Nat
  nextVersion : Option (Nat × Nat)
  deriving DecidableEq, Repr

/-- Caps, floors, the power status word and the overhead account (R409, R417, R418): `overheadPj` are its picojoules that make no whole microjoule yet, `ballast` is the
ballast energy of this period in µJ (R416). -/
structure PowerState where
  capSet   : Nat
  floors   : List Nat
  effFloors : List Nat
  pendingCap : Option (Nat × List Nat)
  trip     : BitVec 4
  blst     : Bool
  flrb     : Bool
  ovr      : Bool
  breaches : Nat
  overhead : Nat
  overheadPj : Nat
  ballast  : Nat
  deriving DecidableEq, Repr

/-- The states of a firmware slot (R439). -/
inductive SlotWord where
  | empty | valid | pending | active | failed
  deriving DecidableEq, Repr

/-- The stages of boot (R436, R440). -/
inductive BootStage where
  | rom | running | recovery
  deriving DecidableEq, Repr

/-- The states of a TDISP interface (R444). -/
inductive TdispState where
  | unlocked | locked | run | error
  deriving DecidableEq, Repr

/-- A partition (R444, R445), bound to the TDISP interface of its own number; `root` is the second-stage root that its continuations translate by, once one is bound. -/
structure Partition where
  clusters : List Nat
  tdisp    : TdispState
  session  : Bool
  root     : Option Word
  deriving DecidableEq, Repr

/-- What SPDM stands at over one of its two ways (R443): how far its opening requests have come, a key exchange that is not finished, and the sessions, the newest first, each with
its partition. -/
structure SpdmWay where
  asked     : Nat
  handshake : Option (Option Nat)
  sessions  : List (Option Nat)
  deriving DecidableEq, Repr

/-- The access point of the firmware interface in the Rilow complex (R442): the bytes of a request as far as they are written, the last reply, and whether its caller's major
differs. -/
structure MailPoint where
  request : List Byte
  reply   : Nat × List Byte
  refused : Bool
  deriving DecidableEq, Repr

/-- Boot, firmware slots, measurement and attestation (R436 to R445). `booted` is 0 or 1 for slot A or B, `armed` says that the ROM booted a pending slot
and its watchdog runs, `expired` that its deadline has passed. `identity` is the device identity key. `reply` is the last reply of the firmware interface at its
access point in BAR 2 or of SPDM, and `refused` that the caller's major there differs; `mail` is the other access point. -/
structure BootState where
  stage    : BootStage
  slotA    : SlotWord
  slotB    : SlotWord
  imageA   : List Byte
  imageB   : List Byte
  booted   : Nat
  svn      : Vector Nat 3
  deadline : Nat
  armed    : Bool
  expired  : Bool
  mrs      : Vector (List Byte) 16
  boots    : Nat
  identity : List Byte
  doe      : SpdmWay
  mctp     : SpdmWay
  reply    : Nat × List Byte
  refused  : Bool
  mail     : MailPoint
  parts    : Tab Nat Partition
  deriving DecidableEq, Repr

/-! ## The whole -/

/-- A turn that the outside gives the machine: which sequencer issues, which host form a hart runs, or which event comes about. -/
inductive Turn where
  | issue (uid : Nat) (q : Seq)
  | hostWord (hart : Nat) (w : IWord)
  | event (e : Instr)
  deriving DecidableEq, Repr

/-- Who acts in the present step: the unit and sequencer of a device word, or the hart of a host form; and the ticket of a request of a hart or of the external host that a
controller serves now (R401). -/
structure Cursor where
  uid  : Nat
  q    : Seq
  hart : Nat
  ticket : Option (Nat × Nat)
  deriving DecidableEq, Repr

/-- The module. -/
structure State where
  mem      : List Host.Cell
  units    : Tab Nat UnitState
  nextUid  : Nat
  cores    : Tab Nat CoreState
  clusters : Tab Nat ClusterState
  dies     : Vector DieState 4
  conts    : Tab Nat ContState
  harts    : Tab Nat HartState
  order    : OrderState
  meter    : MeterState
  sched    : SchedState
  group    : GroupState
  power    : PowerState
  boot     : BootState
  stamp    : Nat
  gendrop  : Word
  cur      : Cursor
  agenda   : List Turn
  free     : Nat
  deriving DecidableEq, Repr

/-! ## Reset -/

/-- A port of a base die at reset: its link is down (R435). -/
def PortState.init : PortState :=
  { version := none, paused := [], sentPause := [], buffers := [], nextFlit := [], window := 0, windowAt := 0, waiting := [] }

/-- A base die at reset (R394, R396). -/
def DieState.init : DieState :=
  { tlb := [], walks := [], faults := [], parkedFaults := [],
    ring := { base := 0, cfg := 0, head := 0, tail := 0, seq := 0, irq := false, posts := 0 },
    budgets := [], coll := [], early := [], ballast := false,
    ports := Vector.replicate 9 PortState.init }

/-- An idle engine. -/
def EngineState.init : EngineState := { run := none, waiting := [], next := 0 }

/-- A core at reset: no unit in any slot, `WSLOT` at its reset value (R174). -/
def CoreState.init : CoreState :=
  { slots := Vector.replicate 8 none, issuing := none, iss := true, slot := 0, rows := [],
    copy := EngineState.init, gather := EngineState.init, row := EngineState.init,
    relocC := none, relocR := none, lockNo := 0 }

/-- The press at reset (R239). -/
def PressState.init : PressState :=
  { cells := [], cellFmt := 0, cellPlanes := 0, owner := none, holder := none, unit := none, ptr := 0, run := 0, cmds := 0,
    expired := false, timedOut := false, cur := none, reload := false }

/-- A cluster at reset. -/
def ClusterState.init : ClusterState :=
  { press := PressState.init, bias := 4, moving := none, grant := 1600, headroom := true, atLimit := false, ran := false,
    charged := 0, partition := none }

/-- An empty port (R321, R322). -/
def Port.init : Port :=
  { owner := none, cont := 0xFFFFFFFF, gen := 0, vers := 0, flags := 0, hart := 0, lastjob := 0 }

/-- A hart at reset; `cpsel` holds its own number (R322). -/
def HartState.init (hart : Nat) : HartState :=
  { x := Vector.replicate 32 0, pc := 0, satp := 0, hgatp := 0, scause := 0, sepc := 0, stval := 0, user := false,
    cpthr := 0, cpsel := BitVec.ofNat 64 hart, port := Port.init, waiting := none, attn := [],
    attnLost := 0, sie := 0 }

/-- A continuation identifier that names no continuation (R320). -/
def ContState.init : ContState :=
  { live := false, gen := 0, satp := 0, hgatp := 0, flags := 0, cls := 0, bind := 0, hart := 0, nextJob := 1, jobs := [],
    faultQ := [], lost := 0, graphs := [],
    energy := { period := 10, quota := 0, pending := none, charged := 0, pj := 0, left := 0, exhausted := false, deficit := 0 },
    terminated := none, partition := none, spill := 0, parkAsked := [], topClusters := 0, topAt := 0, bases := [] }

/-- An empty engine queue (R124, R414). -/
def EngQueue.init : EngQueue :=
  { cmds := [], results := [], issueNo := 0, stopped := false, pace := 0, done := [] }

/-- Nothing in flight (R124). -/
def Flight.init : Flight :=
  { running := [], held := [], runSpare := [], heldSpare := [], stores := [], pushes := [], frozen := none, tkDone := false, data := false, pour := none, pourAt := 0, faults := [],
    arrivedS := false, arrivedC := false, departed := false }

/-- A sequencer as R124 leaves it at unit start, before the loader's values: `dqout` targets C, or L in C. -/
def SeqState.init (q : Seq) : SeqState :=
  { regs := Vector.replicate 64 0, handles := Vector.replicate 16 0,
    preds := (Vector.replicate 12 0).set 0 (BitVec.allOnes 1024), pc := 0, streamBase := 0, streamSize := 0, vc := 0,
    slots := Vector.replicate 3 { push := none, pop := none }, event := false, dbg := 0,
    tr := { tvec := BitVec.allOnes 64, tcause := 0, tval := 0, tepc := 0, tstat := 0, tvc := 0, wperm := 0, wpermh := 0 },
    dq := { dqout := [], dqin := [], src := 0, snk := 0, target := if q = .c then .l else .c },
    eng := Vector.replicate 5 EngQueue.init, fl := Flight.init, status := .running }

/-- An empty vector queue, both formats `raw` (R124). -/
def VecQueue.init : VecQueue := { entries := [], src := 0, snk := 0, part := 0 }

/-- X's window, loop and compaction state at unit start (R205, R213). -/
def XState.init : XState :=
  { base := 0, k := 0, rot := 0, start := 0, stages := 0, act := false, lpn := 0, lpi := 0, tv := false, tag := 0, count := 0, buf := 0, stray := 0 }

/-- A unit at its start (R21, R124, R162, R239). -/
def UnitState.init : UnitState :=
  { ident := { key := { cont := 0, job := 0, phase := 0, node := 0 }, gen := 0, graph := 0, index := 0, size := 1, cls := 0,
               bind := 0, press := false, image := 0, params := 0, paramSize := 0, clusters := [] },
    place := { core := 0, slot := 0, resident := false, spadSize := 0, spadBase := 0, tags := [], groups := [],
               reserve := none, rowTags := [], tagStray := [], locks := [] },
    seqs := #v[SeqState.init .c, SeqState.init .l, SeqState.init .x, SeqState.init .s],
    tokens := [], bq := [], vqin := VecQueue.init, vqout := VecQueue.init, aflags := 0, xs := XState.init, levels := [],
    nlevel := 0, levelSpare := [], reads := [], press := { wrec := none, lreq := false }, superstep := 0, energy := 0, energyPj := 0,
    exitLeft := 4, saved := none, debugger := false, alive := true }

/-- SPDM before its first request. -/
def SpdmWay.init : SpdmWay := { asked := 0, handshake := none, sessions := [] }

/-- The machine right after a module reset: the vintner is in the ROM and the compute dies and the Rilow complex are held in
reset (R436); no unit, continuation or translation exists; the sparse tables list nothing, so every core, cluster and hart stands at
its reset value. -/
def State.reset : State :=
  { mem := [], units := [], nextUid := 0, cores := [], clusters := [], dies := Vector.replicate 4 DieState.init,
    conts := [], harts := [],
    order := { hist := [], regions := [], marks := [], heads := [], readHeads := [], relFence := [] },
    meter := { spent := [], acts := [], asked := 0, tickets := 0, queue := [] },
    sched := { quantum := 500, rings := Vector.replicate 4 [], pointers := Vector.replicate 4 0, backBase := 0,
               backSize := 0, used := Vector.replicate 4 0, layouts := [], colsets := [], leesBase := 0, leesSize := 0,
               leesMax := 0, lees := [], records := 100000 },
    group := { state := 6, index := 0, seq := 0, limit := 1600, soft := 1600, next := none, leaveAt := none, ceiling := 1600, noRise := 0,
               holdTill := 0, peers := [], version := 0x10001, nextVersion := none },
    power := { capSet := 3200, floors := [], effFloors := [], pendingCap := none, trip := 0, blst := false, flrb := false,
               ovr := false, breaches := 0, overhead := 0, overheadPj := 0, ballast := 0 },
    boot := { stage := .rom, slotA := .empty, slotB := .empty, imageA := [], imageB := [], booted := 0,
              svn := Vector.replicate 3 0, deadline := 30, armed := false, expired := false,
              mrs := Vector.replicate 16 (List.replicate 64 0), boots := 0, identity := [],
              doe := SpdmWay.init, mctp := SpdmWay.init, reply := (0, []), refused := false,
              mail := { request := [], reply := (0, []), refused := false }, parts := [] },
    stamp := 0, gendrop := 0, cur := { uid := 0, q := .c, hart := 0, ticket := none }, agenda := [], free := 0 }

end Sys2Proof.Machine
end

