-- ==== Sys2Proof/Machine/Tables.lean ====
section
/-!
DEFINITION. The sparse tables, the canonical memory and its byte order, and the reads and writes of the parts of the state.
-/

namespace Sys2Proof.Machine

open Sys2Proof

/-! ## Tables -/

/-- What a table lists for a key. -/
def tabGet {κ α : Type} [DecidableEq κ] : Tab κ α → κ → Option α
  | [], _ => none
  | (k', v) :: r, k => if k' = k then some v else tabGet r k

/-- The table with a key's value replaced in its place, or added at the end. -/
def tabPut {κ α : Type} [DecidableEq κ] : Tab κ α → κ → α → Tab κ α
  | [], k, v => [(k, v)]
  | (k', v') :: r, k, v => if k' = k then (k, v) :: r else (k', v') :: tabPut r k v

/-- The table without a key. -/
def tabDel {κ α : Type} [DecidableEq κ] (t : Tab κ α) (k : κ) : Tab κ α :=
  t.filter fun p => !(decide (p.1 = k))

/-! ## Memory -/

/-- What an address that memory does not list reads as (log 1). -/
def memDefault : Byte := 0

/-- One byte of memory. -/
def memGet : List Host.Cell → Nat → Byte
  | [], _ => memDefault
  | (b, v) :: r, a => if b = a then v else memGet r a

/-- Memory with one byte written, in canonical form: addresses rise, and no listed byte reads as an unlisted one would. -/
def memPut : List Host.Cell → Nat → Byte → List Host.Cell
  | [], a, v => if v = memDefault then [] else [(a, v)]
  | (b, w) :: r, a, v =>
    if a < b then (if v = memDefault then (b, w) :: r else (a, v) :: (b, w) :: r)
    else if a = b then (if v = memDefault then r else (a, v) :: r)
    else (b, w) :: memPut r a v

/-- The canonical form of memory: strictly rising addresses, nothing listed that reads as unlisted. -/
def memWf : List Host.Cell → Bool
  | [] => true
  | [(_, v)] => v != memDefault
  | (a, v) :: (b, w) :: r => v != memDefault && a < b && memWf ((b, w) :: r)

/-- n bytes from an address. -/
def memBytes (m : List Host.Cell) (a : Nat) : Nat → List Byte
  | 0 => []
  | n + 1 => memGet m a :: memBytes m (a + 1) n

/-- Bytes written in ascending order from an address. -/
def memPutBytes (m : List Host.Cell) (a : Nat) : List Byte → List Host.Cell
  | [] => m
  | b :: r => memPutBytes (memPut m a b) (a + 1) r

/-- Memory with nothing listed from lo up to hi, so that those bytes read as unlisted. -/
def memDrop (m : List Host.Cell) (lo hi : Nat) : List Host.Cell := m.filter fun c => c.1 < lo || hi ≤ c.1

/-- Little-endian value of bytes (R90, R146). -/
def leValue : List Byte → Nat
  | [] => 0
  | b :: r => b.toNat + 256 * leValue r

/-- The n bytes of a value, little-endian. -/
def leBytes : Nat → Nat → List Byte
  | 0, _ => []
  | n + 1, v => BitVec.ofNat 8 v :: leBytes n (v / 256)

/-! ## Parts of the state -/

/-- A unit. -/
def getUnit (s : State) (uid : Nat) : UnitState := (tabGet s.units uid).getD UnitState.init

/-- The state with a unit replaced. -/
def setUnit (s : State) (uid : Nat) (u : UnitState) : State := { s with units := tabPut s.units uid u }

/-- The state with a unit changed. -/
def modUnit (s : State) (uid : Nat) (f : UnitState → UnitState) : State := setUnit s uid (f (getUnit s uid))

/-- A sequencer of a unit. -/
def UnitState.seq (u : UnitState) : Seq → SeqState
  | .c => u.seqs[0]
  | .l => u.seqs[1]
  | .x => u.seqs[2]
  | .s => u.seqs[3]

/-- A unit with one sequencer replaced. -/
def UnitState.setSeq (u : UnitState) (q : Seq) (c : SeqState) : UnitState :=
  match q with
  | .c => { u with seqs := u.seqs.set 0 c }
  | .l => { u with seqs := u.seqs.set 1 c }
  | .x => { u with seqs := u.seqs.set 2 c }
  | .s => { u with seqs := u.seqs.set 3 c }

/-- A sequencer of the module. -/
def getSeq (s : State) (uid : Nat) (q : Seq) : SeqState := (getUnit s uid).seq q

/-- The state with a sequencer changed. -/
def modSeq (s : State) (uid : Nat) (q : Seq) (f : SeqState → SeqState) : State :=
  modUnit s uid fun u => u.setSeq q (f (u.seq q))

/-- The four sequencers in their order. -/
def allSeqs : List Seq := [.c, .l, .x, .s]

/-- The sequencer of a number 0 to 3. -/
def seqOf : Nat → Seq
  | 0 => .c
  | 1 => .l
  | 2 => .x
  | _ => .s

/-- The queues of an engine at a sequencer. -/
def SeqState.eq (c : SeqState) : Eng → EngQueue
  | .copy => c.eng[0]
  | .gather => c.eng[1]
  | .coll => c.eng[2]
  | .row => c.eng[3]
  | .press => c.eng[4]

/-- A sequencer with one engine's queues replaced. -/
def SeqState.setEq (c : SeqState) (e : Eng) (v : EngQueue) : SeqState :=
  match e with
  | .copy => { c with eng := c.eng.set 0 v }
  | .gather => { c with eng := c.eng.set 1 v }
  | .coll => { c with eng := c.eng.set 2 v }
  | .row => { c with eng := c.eng.set 3 v }
  | .press => { c with eng := c.eng.set 4 v }

/-- A unit with all four sequencers changed. -/
def UnitState.mapSeqs (u : UnitState) (f : SeqState → SeqState) : UnitState :=
  { u with seqs := #v[f u.seqs[0], f u.seqs[1], f u.seqs[2], f u.seqs[3]] }

/-- A sequencer with the queues of all five engines changed. -/
def SeqState.mapEq (c : SeqState) (f : EngQueue → EngQueue) : SeqState :=
  { c with eng := #v[f c.eng[0], f c.eng[1], f c.eng[2], f c.eng[3], f c.eng[4]] }

/-- The number of an engine, as `ENG` of a result element and the queue indices 16 to 20 count it (R35, R185). -/
def engNum : Eng → Nat
  | .copy => 0
  | .gather => 1
  | .coll => 2
  | .row => 3
  | .press => 4

/-- The engine of a queue index of 16 to 20 (R35). -/
def engOfQueue : Nat → Option Eng
  | 16 => some .copy
  | 17 => some .gather
  | 18 => some .coll
  | 19 => some .row
  | 20 => some .press
  | _ => none

/-- The state with an engine's queues at a sequencer changed. -/
def modEq (s : State) (uid : Nat) (q : Seq) (e : Eng) (f : EngQueue → EngQueue) : State :=
  modSeq s uid q fun c => c.setEq e (f (c.eq e))

/-- A core. -/
def getCore (s : State) (core : Nat) : CoreState := (tabGet s.cores core).getD CoreState.init

/-- The state with a core changed. -/
def modCore (s : State) (core : Nat) (f : CoreState → CoreState) : State :=
  { s with cores := tabPut s.cores core (f (getCore s core)) }

/-- A core's engine. -/
def CoreState.engine (c : CoreState) : Eng → EngineState
  | .copy => c.copy
  | .gather => c.gather
  | _ => c.row

/-- A core with an engine replaced. -/
def CoreState.setEngine (c : CoreState) (e : Eng) (v : EngineState) : CoreState :=
  match e with
  | .copy => { c with copy := v }
  | .gather => { c with gather := v }
  | _ => { c with row := v }

/-- A cluster. -/
def getCluster (s : State) (cl : Nat) : ClusterState := (tabGet s.clusters cl).getD ClusterState.init

/-- The state with a cluster changed. -/
def modCluster (s : State) (cl : Nat) (f : ClusterState → ClusterState) : State :=
  { s with clusters := tabPut s.clusters cl (f (getCluster s cl)) }

/-- The state with a press changed. -/
def modPress (s : State) (cl : Nat) (f : PressState → PressState) : State :=
  modCluster s cl fun c => { c with press := f c.press }

/-- A die. -/
def getDie (s : State) (d : Nat) : DieState := s.dies[d]?.getD DieState.init

/-- The state with a die changed. -/
def modDie (s : State) (d : Nat) (f : DieState → DieState) : State :=
  { s with dies := s.dies.setIfInBounds d (f (getDie s d)) }

/-- A Trellis port of a die. -/
def getPort (s : State) (die port : Nat) : PortState := (getDie s die).ports[port]?.getD PortState.init

/-- The state with a Trellis port changed. -/
def modPort (s : State) (die port : Nat) (f : PortState → PortState) : State :=
  modDie s die fun d => { d with ports := d.ports.setIfInBounds port (f (d.ports[port]?.getD PortState.init)) }

/-- A continuation. -/
def getCont (s : State) (c : Nat) : ContState := (tabGet s.conts c).getD ContState.init

/-- The state with a continuation changed. -/
def modCont (s : State) (c : Nat) (f : ContState → ContState) : State :=
  { s with conts := tabPut s.conts c (f (getCont s c)) }

/-- A hart. -/
def getHart (s : State) (h : Nat) : HartState := (tabGet s.harts h).getD (HartState.init h)

/-- The state with a hart changed. -/
def modHart (s : State) (h : Nat) (f : HartState → HartState) : State :=
  { s with harts := tabPut s.harts h (f (getHart s h)) }

/-! ## Bits -/

/-- Bits [lo + n − 1 : lo] of a number. -/
def bits (v lo n : Nat) : Nat := v / 2 ^ lo % 2 ^ n

/-- Element k of a row read at lanes of w bits (R89). -/
def rowLane (r : Row) (w k : Nat) : Nat := (r >>> (k * w)).toNat % 2 ^ w

/-- A row made of lanes of w bits, lane 0 lowest; lanes not given are 0. -/
def rowOf (w : Nat) (xs : List Nat) : Row :=
  BitVec.ofNat 8192 (xs.foldr (fun x acc => x % 2 ^ w + 2 ^ w * acc) 0)

end Sys2Proof.Machine
end

