-- ==== Sys2Proof/Machine/Order.lean ====
section
/-!
DEFINITION. The order of shared memory: agents and scopes (R266 to R268), histories and releases (R270, R271, R276, R287), marks and
the detection of races (R274, R279, R280).
-/

namespace Sys2Proof.Machine

open Sys2Proof

/-! ## Agents and scopes -/

/-- The launch identifier (R361). -/
def launchId (k : NodeKey) : Nat := (k.job * 65536 + k.phase) * 65536 + k.node

/-- The agent of a sequencer (R266, R281). -/
def seqAgent (u : UnitState) (uid : Nat) (q : Seq) : Agent :=
  { kind := q.idx, que := 0, id := u.place.core, uid := uid, cont := u.ident.key.cont,
    launch := launchId u.ident.key, sub := 0 }

/-- The agent of an engine or press command (R266, R281). A relocated command is an agent of its own (R194). -/
def engAgent (u : UnitState) (uid : Nat) (e : Eng) (q : Seq) (sub : Nat) : Agent :=
  let kind := match e with
    | .copy => 4
    | .gather => 5
    | .row => 6
    | .press => 7
    | .coll => 8
  let id := match e with
    | .press => u.place.core / 4
    | .coll => u.place.core / 192
    | _ => u.place.core
  { kind := kind, que := q.idx, id := id, uid := uid, cont := u.ident.key.cont, launch := launchId u.ident.key, sub := sub }

/-- The agent of a die's scheduler running nodes of a phase (R266). -/
def schedAgent (die : Nat) (k : NodeKey) : Agent :=
  { kind := 9, que := 0, id := die, uid := 0, cont := k.cont, launch := launchId { k with node := 0 }, sub := 0 }

/-- The agent of a Rilow hart running the thread bound to a continuation (R266, R267). -/
def hartAgent (hart cont : Nat) : Agent :=
  { kind := 10, que := 0, id := hart, uid := 0, cont := cont, launch := 0, sub := 0 }

/-- The external host (R266). -/
def extAgent : Agent := { kind := 12, que := 0, id := 0, uid := 0, cont := 0, launch := 0, sub := 0 }

/-- An agent as orders and marks know it: a hart is one agent whichever thread it runs, since its program order is one (R266); whose thread it runs decides
only which scopes contain it (R267). -/
def agentKey (a : Agent) : Agent := if a.kind = 10 then { a with cont := 0 } else a

/-- The core of an agent that has one: kinds 0 to 6 (R281). -/
def agentCore (a : Agent) : Option Nat := if a.kind ≤ 6 then some a.id else none

/-- The cluster of an agent that has one. -/
def agentCluster (a : Agent) : Option Nat :=
  if a.kind ≤ 6 then some (a.id / 4) else if a.kind = 7 then some a.id else none

/-- The die of an agent that has one. -/
def agentDie (a : Agent) : Option Nat :=
  if a.kind ≤ 6 then some (a.id / 192) else if a.kind = 7 then some (a.id / 48)
  else if a.kind ≤ 9 then some a.id else none

/-- Whether the scope of an operation of agent a contains agent b (R267). -/
def inScope (scope : Nat) (a b : Agent) : Bool :=
  match scope with
  | 0 => agentKey a == agentKey b
  | 1 => (agentCore a).isSome && (agentCore a) == (agentCore b)
  | 2 => (agentCluster a).isSome && (agentCluster a) == (agentCluster b)
  | 3 => (agentDie a).isSome && (agentDie a) == (agentDie b)
  | 4 => a.kind ≤ 8 && b.kind ≤ 8 && a.cont == b.cont && a.launch == b.launch
  | 5 => a.kind ≤ 10 && b.kind ≤ 10 && a.cont == b.cont
  | 6 => b.kind ≤ 9
  | 7 => b.kind ≤ 10
  | 8 => true
  | 9 => b.kind ≤ 9
  | _ => true

/-! ## Histories -/

/-- What an agent knows. -/
def histOf (s : State) (a : Agent) : Hist := (tabGet s.order.hist (agentKey a)).getD []

/-- The region number of an agent (R280). -/
def regionOf (s : State) (a : Agent) : Nat := (tabGet s.order.regions (agentKey a)).getD 0

/-- Two histories joined: the greater number for each agent. -/
def histJoin (h : Hist) : Hist → Hist
  | [] => h
  | (a, n) :: r =>
    let m := (tabGet h a).getD 0
    histJoin (if m < n then tabPut h a n else h) r

/-- What an agent knows joined with a history (R270). -/
def learn (s : State) (a : Agent) (h : Hist) : State :=
  { s with order := { s.order with hist := tabPut s.order.hist (agentKey a) (histJoin (histOf s a) h) } }

/-- A synchronisation operation of an agent begins its next region (R280). -/
def bumpRegion (s : State) (a : Agent) : State :=
  { s with order := { s.order with regions := tabPut s.order.regions (agentKey a) (regionOf s a + 1) } }

/-- An agent acquires a history by an operation of its own (R270, R280). -/
def acquireHist (s : State) (a : Agent) (h : Hist) : State := bumpRegion (learn s a h) a

/-- What a release of an agent carries: all that it has acquired and all that it has done, its present region included
(R271). -/
def releaseOf (s : State) (a : Agent) (scope : Nat) : Release :=
  { agent := a, scope := scope, hist := tabPut (histOf s a) (agentKey a) (regionOf s a + 1) }

/-- All that the agents which satisfy a test have done and acquired, as the completion of units, nodes and jobs releases it (R366, R370). -/
def agentsHist (s : State) (p : Agent → Bool) : Hist :=
  let h := (s.order.hist.filter fun x => p x.1).foldl (fun h x => histJoin h x.2) []
  let h := histJoin h ((s.order.regions.filter fun x => p x.1).map fun x => (x.1, x.2 + 1))
  (s.order.marks.filter fun m => p m.agent).foldl (fun h m => histJoin h [(m.agent, m.region + 1)]) h

/-- Whether a release and an acquire of agent b at a scope synchronise: each scope contains both agents (R268). -/
def syncs (r : Release) (b : Agent) (scope : Nat) : Bool :=
  inScope r.scope r.agent b && inScope scope b r.agent

/-- An agent learns of every release of a list that its scope admits. -/
def learnAll (s : State) (a : Agent) (scope : Nat) (rs : List Release) : State :=
  learn s a ((rs.filter fun r => syncs r a scope).foldl (fun h r => histJoin h r.hist) [])

/-- Whether an order acquires: `acq`, `acqrel`, `sc` (R69). -/
def ordAcquires (ord : Nat) : Bool := ord == 1 || ord == 3 || ord == 4

/-- Whether an order releases: `rel`, `acqrel`, `sc`. -/
def ordReleases (ord : Nat) : Bool := ord == 2 || ord == 3 || ord == 4

/-- An agent acquires a release of a queue or a command, whose scope the rule itself gives (R270). -/
def acquireRel (s : State) (a : Agent) (r : Release) : State := acquireHist s a r.hist

/-! ## Marks -/

/-- The aligned 4-byte word of a byte. -/
def Place.word : Place → Place
  | .mem pa => .mem (pa / 4 * 4)
  | .acc uid row b => .acc uid row (b / 4 * 4)

/-- Whether two runs of words share one. -/
def wordsMeet (a : Place) (n : Nat) (b : Place) (m : Nat) : Bool :=
  match a, b with
  | .mem x, .mem y => x < y + 4 * m && y < x + 4 * n
  | .acc u r x, .acc v t y => u == v && r == t && x < y + 4 * m && y < x + 4 * n
  | _, _ => false

/-- Whether a mark happens before what an agent does now (R271): it is the agent's own, or of a region that the agent has
acquired. -/
def markBefore (s : State) (a : Agent) (m : Mark) : Bool :=
  m.agent == agentKey a || m.region < (tabGet (histOf s a) m.agent).getD 0

/-- The mark that an access of an agent races with, if one stands (R271, R279): another agent's, one of the two a write, not both
atomic, and not ordered before. DESIGN CHOICE (log 96): of several such marks it is the one listed last, and the record names the first word that both accesses have. -/
def raceWith (s : State) (a : Agent) (w : Place) (n : Nat) (write atomic : Bool) : Option Mark :=
  s.order.marks.find? fun m =>
    wordsMeet w n m.word m.words && !(markBefore s a m) && (write || m.write) && !(atomic && m.atomic)

/-- The first word that two runs share. -/
def firstShared (a b : Place) : Place :=
  match a, b with
  | .mem x, .mem y => .mem (Nat.max x y)
  | .acc u r x, .acc _ _ y => .acc u r (Nat.max x y)
  | p, _ => p

/-- The physical address that a race record gives a place: accumulator bytes lie in the on-chip map (R171, R281). -/
def placePa (s : State) : Place → Nat
  | .mem pa => pa
  | .acc uid row b =>
    let u := getUnit s uid
    let phys := (tabGet u.place.groups (row / 16)).getD 0 * 16 + row % 16
    0x1000000 * u.place.core + 0x400000 + phys * 1024 + b

/-- A region number as a record and the lees table show it: a hart's are counted from the start of the job of its continuation (R280). -/
def shownRegion (s : State) (a : Agent) (region : Nat) : Nat :=
  if a.kind = 10 then region - (tabGet (getCont s a.cont).bases a.id).getD 0 else region

/-- The race record of a later access (R281). -/
def raceRecord (s : State) (a : Agent) (region : Nat) (va : Word) (w : Place) (write : Bool) (cont : Nat) (m : Mark) : Race :=
  { vaddr := va, paddr := placePa s (firstShared w m.word), late := a, early := m.agent,
    regionLate := shownRegion s a region, regionEarly := shownRegion s m.agent m.region, contLate := cont, contEarly := m.cont,
    kinds := (if write then 1#32 else 0#32) ||| (if m.write then 2#32 else 0#32) ||| (if m.spilled then 4#32 else 0#32),
    jobEarly := m.job }

/-- An access leaves its mark (R279); a mark that already stands is not listed twice. -/
def addMark (s : State) (m : Mark) : State :=
  if s.order.marks.contains m then s
  else { s with order := { s.order with marks := m :: s.order.marks } }

/-- The marks that satisfy a test retire (R277, R279). -/
def retireMarks (s : State) (p : Mark → Bool) : State :=
  { s with order := { s.order with marks := s.order.marks.filter fun m => !(p m) } }

/-! ## Releases on words -/

/-- The key of an atomic word's release sequence: its physical 4-byte word. -/
def headKey (s : State) (p : Place) : Nat := placePa s p.word

/-- The heads of a word's release sequence (R276). -/
def headsAt (s : State) (k : Nat) : List Release := (tabGet s.order.heads k).getD []

/-- The heads of a word's release sequence replaced. -/
def setHeads (s : State) (k : Nat) (rs : List Release) : State :=
  { s with order := { s.order with heads := if rs.isEmpty then tabDel s.order.heads k else tabPut s.order.heads k rs } }

/-- A plain write ends the release sequences of the words it touches (R276). -/
def endHeads (s : State) (ks : List Nat) : State := ks.foldl (fun t k => setHeads t k []) s

/-- The releases an agent holds from fences of order `rel` or stronger (R287). -/
def fenceRels (s : State) (a : Agent) : List Release := (tabGet s.order.relFence (agentKey a)).getD []

/-- The releases that an agent's atomic reads have read and that each later acquire fence takes at its scope (R270, R287). -/
def readRels (s : State) (a : Agent) : List Release := (tabGet s.order.readHeads (agentKey a)).getD []

/-- The heads of the release sequences of the words an atomic touches, each once. -/
def headsOf (s : State) (ks : List Nat) : List Release :=
  ks.foldl (fun acc k => acc ++ (headsAt s k).filter fun r => !(acc.contains r)) []

/-- An atomic read of words is kept for a later acquire fence (R270). -/
def rememberReads (s : State) (a : Agent) (ks : List Nat) : State :=
  { s with order := { s.order with
    readHeads := tabPut s.order.readHeads (agentKey a) (readRels s a ++ (headsOf s ks).filter fun r => !((readRels s a).contains r)) } }

/-- The order effects of an atomic read of words by an agent (R270): any read is kept for a later acquire fence, and an acquire takes the words'
releases. -/
def atomicReadOrder (s : State) (a : Agent) (ks : List Nat) (ord scope : Nat) : State :=
  let t := rememberReads s a ks
  if ordAcquires ord then learnAll t a scope (headsOf s ks) else t

/-- The releases that an atomic write of an agent begins (R270, R287): its own where its order releases, and those of the release fences
before it. -/
def writeRels (s : State) (a : Agent) (ord scope : Nat) : List Release :=
  (if ordReleases ord then [releaseOf s a scope] else []) ++ fenceRels s a

/-- The release sequences of words after an atomic write (R276): a read-modify-write continues them, any other write ends them; the write's own
releases begin new ones. -/
def writeHeads (s : State) (ks : List Nat) (rels : List Release) (rmw : Bool) : State :=
  ks.foldl (fun t k => setHeads t k (rels ++ if rmw then (headsAt t k).filter fun r => !(rels.contains r) else [])) s

/-- A fence of an agent at a scope (R287); it begins the agent's next region. -/
def fenceOrder (s : State) (a : Agent) (ord scope : Nat) : State :=
  let s := if ordAcquires ord then learnAll s a scope (readRels s a) else s
  let s := if ordReleases ord then
      { s with order := { s.order with relFence := tabPut s.order.relFence (agentKey a) (releaseOf s a scope :: fenceRels s a) } }
    else s
  bumpRegion s a

end Sys2Proof.Machine
end

