-- ==== Sys2Proof/Machine/PageTable.lean ====
section
/-!
DEFINITION. The physical map (R398) and the page-table walk (R388 to R391).
-/

namespace Sys2Proof.Machine

open Sys2Proof

/-! ## The physical map (R398) -/

/-- Whether a physical address lies in node 0 or node 1. -/
def inNodes (pa : Nat) : Bool := (0x10000000000 ≤ pa && pa < 0x1C000000000) || (0x20000000000 ≤ pa && pa < 0x40000000000)

/-- Whether a physical address lies in node 0, HBM. -/
def inNode0 (pa : Nat) : Bool := 0x10000000000 ≤ pa && pa < 0x1C000000000

/-- Whether a physical address lies in the on-chip map (R171). -/
def onChip (pa : Nat) : Bool := pa < 0x300000000

/-- Whether a physical address is populated. -/
def populated (pa : Nat) : Bool := onChip pa || inNodes pa

/-! ## Page-table entries (the RISC-V Sv57 layout, log 20) -/

/-- V. -/
def pteV (p : Nat) : Bool := p.testBit 0
/-- R. -/
def pteR (p : Nat) : Bool := p.testBit 1
/-- W. -/
def pteW (p : Nat) : Bool := p.testBit 2
/-- X. -/
def pteX (p : Nat) : Bool := p.testBit 3
/-- U. -/
def pteU (p : Nat) : Bool := p.testBit 4
/-- The physical page number. -/
def ptePpn (p : Nat) : Nat := bits p 10 44
/-- N (Svnapot). -/
def pteN (p : Nat) : Bool := p.testBit 63
/-- PBMT (Svpbmt). -/
def ptePbmt (p : Nat) : Nat := bits p 61 2

/-- A leaf: the address of its entry, the entry, the base of its page and log2 of its size. -/
structure Leaf where
  at0  : Nat
  pte  : Nat
  base : Nat
  log2 : Nat
  deriving DecidableEq, Repr

/-- A translation of one address: its page's base and log2 of its size, what it permits, the guest physical base of the page and log2 of the sizes of the leaves of the
two stages, and the entries it leaves to update. -/
structure Mapped where
  base  : Nat
  log2  : Nat
  read  : Bool
  write : Bool
  leaf  : Nat
  gbase : Nat
  gleaf : Nat
  sets  : List (Nat × Nat)
  deriving DecidableEq, Repr

/-- What a walk ends in: a mapping, a fault with its `why` (R395), or an unmapped access without a fault (R389, R390). -/
inductive Walked where
  | mapped (m : Mapped)
  | fault (why : Nat)
  | unmapped
  deriving DecidableEq, Repr

/-- What a walk of one stage finds: a leaf with the second-stage entries that its table reads update, no valid leaf, or what stops it at one of its entries. -/
inductive Found where
  | leaf (l : Leaf) (sets : List (Nat × Nat))
  | absent
  | stop (w : Walked)
  deriving DecidableEq, Repr

/-- The leaf that an entry at level n is, if it is a well-formed one (R389). -/
def leafOf (a p n : Nat) : Option Leaf :=
  if bits p 54 7 ≠ 0 ∨ (pteW p && !pteR p) then none
  else if pteN p then
    if n = 0 ∧ ptePpn p % 16 = 8 then some { at0 := a, pte := p, base := ptePpn p / 16 * 65536, log2 := 16 } else none
  else if ptePpn p % 2 ^ (9 * n) ≠ 0 then none
  else some { at0 := a, pte := p, base := ptePpn p * 4096, log2 := 12 + 9 * n }

/-- Whether an entry points to a table: V with R, W and X clear. One with a reserved bit, N, PBMT, D, A or U set is no valid entry of the format (log 20). -/
def ptePointer (p : Nat) : Bool := !(pteR p) && !(pteW p) && !(pteX p)

/-- Whether a pointer entry keeps the bits of the format clear that it reserves (log 20). -/
def pointerSound (p : Nat) : Bool := bits p 54 10 == 0 && bits p 6 2 == 0 && !(pteU p)

/-- A walk from a table at level n − 1 down (R391); `stage2` gives the physical address of an entry with the entries that reading it updates, or what stops the
walk there. `wide` is the two further index bits of a second-stage root. PRESUMED (log 20): an entry outside the two nodes is no valid one. -/
def walkTable (m : List Host.Cell) (stage2 : Nat → Except Walked (Nat × List (Nat × Nat))) (wide : Bool) (va : Nat) : Nat → Nat → List (Nat × Nat) → Found
  | 0, _, _ => .absent
  | n + 1, table, sets =>
    match stage2 (table + 8 * (va / 2 ^ (12 + 9 * n) % (if wide && n == 4 then 2048 else 512))) with
    | .error w => .stop w
    | .ok (a, more) =>
      let p := leValue (memBytes m a 8)
      if !(pteV p) || !(inNodes a) then .absent
      else if ptePointer p then if pointerSound p then walkTable m stage2 wide va n (ptePpn p * 4096) (sets ++ more) else .absent
      else match leafOf a p n with | some l => .leaf l (sets ++ more) | none => .absent

/-- Whether a `satp` or `hgatp` names tables of five levels (mode 10). -/
def fiveLevels (v : Word) : Bool := bits v.toNat 60 4 == 10

/-- The root of a `satp` or `hgatp`. -/
def rootOf (v : Word) : Nat := bits v.toNat 0 44 * 4096

/-- The bits that a permitted access sets in its entry: A, and D for a write or an atomic (R389). -/
def adBits (w : Bool) : Nat := if w then 0xC0 else 0x40

/-- A leaf's entry with the bits that a permitted access sets. -/
def Leaf.used (l : Leaf) (w : Bool) : Nat × Nat := (l.at0, l.pte ||| adBits w)

/-- Whether a leaf permits an access (R389). -/
def leafPermits (l : Leaf) (w : Bool) : Bool := pteU l.pte && (if w then pteW l.pte else pteR l.pte)

/-- Whether a cached copy of a leaf serves writes: only once the walker has set D (R389). -/
def writable (l : Leaf) (w : Bool) : Bool := pteW l.pte && (w || l.pte.testBit 7)

/-- The second stage of a guest physical address (Sv57x4): its leaf, none without a second stage. A leaf with PBMT ≠ 0, or with its page outside the two nodes, makes the
access unmapped whatever it permits (R389, R390). -/
def secondStage (m : List Host.Cell) (hgatp : Word) (gpa : Nat) (w : Bool) : Except Walked (Option Leaf) :=
  if !(fiveLevels hgatp) then .ok none
  else
    match walkTable m (fun a => .ok (a, [])) true gpa 5 (rootOf hgatp) [] with
    | .leaf l _ =>
      if ptePbmt l.pte ≠ 0 ∨ !(inNodes (l.base + gpa % 2 ^ l.log2)) then .error .unmapped
      else if leafPermits l w then .ok (some l)
      else .error (.fault 2)
    | _ => .error (.fault 2)

/-- The physical address of a first-stage entry, with the second-stage entry that reading it updates: a leaf's A (R389). -/
def entryPa (m : List Host.Cell) (hgatp : Word) (gpa : Nat) : Except Walked (Nat × List (Nat × Nat)) :=
  match secondStage m hgatp gpa false with
  | .error w => .error w
  | .ok none => .ok (gpa, [])
  | .ok (some l) => .ok (l.base + gpa % 2 ^ l.log2, [l.used false])

/-- The walk of a virtual address under a `satp` and an `hgatp` for an access (R388 to R390): what makes the access unmapped comes before what the leaf forbids. -/
def walkVa (m : List Host.Cell) (satp hgatp : Word) (va : Nat) (w : Bool) : Walked :=
  if !(fiveLevels satp) then .fault 0
  else
    match walkTable m (entryPa m hgatp) false va 5 (rootOf satp) [] with
    | .absent => .fault 0
    | .stop x => x
    | .leaf l sets =>
      let gpa := l.base + va % 2 ^ l.log2
      if ptePbmt l.pte ≠ 0 ∨ (!(fiveLevels hgatp) && !(inNodes gpa)) then .unmapped
      else if !(leafPermits l w) then .fault 1
      else
        match secondStage m hgatp gpa w with
        | .error x => x
        | .ok none =>
          let k := Nat.min 30 l.log2
          .mapped { base := gpa / 2 ^ k * 2 ^ k, log2 := k, read := pteR l.pte, write := writable l w, leaf := l.log2, gbase := gpa / 2 ^ k * 2 ^ k, gleaf := k
                    sets := sets ++ [l.used w] }
        | .ok (some l2) =>
          let k := Nat.min 30 (Nat.min l.log2 l2.log2)
          .mapped { base := (l2.base + gpa % 2 ^ l2.log2) / 2 ^ k * 2 ^ k, log2 := k, read := pteR l.pte && pteR l2.pte,
                    write := writable l w && writable l2 w, leaf := l.log2, gbase := gpa / 2 ^ k * 2 ^ k, gleaf := l2.log2
                    sets := sets ++ [l.used w, l2.used w] }

/-- The entries of a permitted walk updated (R389). -/
def setEntries (s : State) (sets : List (Nat × Nat)) : State :=
  { s with mem := sets.foldl (fun m x => memPutBytes m x.1 (leBytes 8 x.2)) s.mem }

end Sys2Proof.Machine
end

