-- ==== Sys2Proof/Machine/Meter.lean ====
section
/-!
DEFINITION. What accesses cost: the byte budgets of the memory controllers (R400 to R402) and the activity counters behind the energy estimate (R408, R409).
-/

namespace Sys2Proof.Machine

open Sys2Proof

/-- Whether a kind of access writes. -/
def AccKind.writes : AccKind → Bool
  | .write => true
  | .atomic => true
  | _ => false

/-! ## Controllers and budgets (R398, R400, R401) -/

/-- The controller of a physical address: six to a die, numbers 0 and 1 of a die its HBM stacks, 2 to 5 its cellar packages (R13, R398); none on the chip. -/
def controllerOf (pa : Nat) : Option Nat :=
  if inNode0 pa then let k := (pa - 0x10000000000) / 0x1800000000; some (6 * (k / 2) + k % 2)
  else if inNodes pa then let k := (pa - 0x20000000000) / 0x2000000000; some (6 * (k / 4) + 2 + k % 4)
  else none

/-- What a controller's full rate moves in 1 ms: an HBM stack 6.4 TB/s, a cellar package 86.4 GB/s (R13). -/
def fullRate (k : Nat) : Nat := if k < 2 then 6400000000 else 86400000

/-- The byte budget of a controller in this period. DESIGN CHOICE (log 86): until the arbiter has set one it is the full rate. -/
def budgetOf (s : State) (k : Nat) : Nat := (tabGet (getDie s (k / 6)).budgets (k % 6)).getD (fullRate (k % 6))

/-- The bytes charged to a controller in this period. -/
def spentOf (s : State) (k : Nat) : Nat := (tabGet s.meter.spent k).getD 0

/-- Whether a controller serves no more requests of a kind: the rest is spent beside the reserve of 3 %, or for those that draw on it all of it (R401). -/
def overBudget (s : State) (k : Nat) (favoured : Bool) : Bool :=
  let b := budgetOf s k
  (if favoured then b else b * 97 / 100) ≤ spentOf s k

/-- A hold for the budget of a controller whose request came before a ticket. -/
def holdAhead (k ticket : Nat) : Hold → Bool
  | .budget j t => j == k && t < ticket
  | _ => false

/-- A running command that waits for a controller with a ticket before another. -/
def runAhead (k ticket : Nat) (r : Option RunCmd) : Bool := match r with | some x => holdAhead k ticket x.hold | none => false

/-- Whether who has a request in a controller's queue can still take it up (R401): a job that is not final, with its node ready or running, an open level, a launch that is to be
parked. -/
def askerLives (s : State) : Asker → Bool
  | .hart .. => true
  | .form .. => true
  | .port .. => true
  | .ext _ => true
  | .node k =>
    match (tabGet s.conts k.cont).bind fun c => c.jobs.find? fun j => j.id == k.job with
    | none => false
    | some j => (j.status == 1 || j.status == 2) && match j.phase with
      | none => true
      | some p => p.index == k.phase && match p.nodes[k.node]? with | some r => r.status == .ready || r.status == .running | none => false
  | .flush uid level => match tabGet s.units uid with | some u => u.alive && level < u.levels.length | none => false
  | .context k => s.units.any fun p => p.2.alive && p.2.ident.key == k

/-- Whether a request that came before a ticket still waits at a controller, of an agent that can take it up now (R401): requests are served in arrival order. A frozen word of a
unit that does not issue has not issued, and makes its request again when the unit resumes (R344). -/
def waitsAhead (s : State) (k ticket : Nat) : Bool :=
  (s.units.any fun p => p.2.alive && p.2.place.resident && (getCore s p.2.place.core).issuing == some p.2.place.slot &&
    allSeqs.any fun q => (p.2.seq q).status == .running && match (p.2.seq q).fl.frozen with
      | some (.budget j t) => j == k && t < ticket
      | _ => false) ||
  (s.cores.any fun p => [p.2.copy.run, p.2.gather.run, p.2.row.run, p.2.relocC, p.2.relocR].any (runAhead k ticket)) ||
  (s.clusters.any fun p => runAhead k ticket p.2.press.cur) ||
  (s.meter.queue.any fun a => a.controller == k && a.ticket < ticket && askerLives s a.who) ||
  [0, 1, 2, 3].any fun d => (getDie s d).coll.any fun x => holdAhead k ticket x.hold

/-- Whether a request with a ticket waits at a controller. -/
def mustQueue (s : State) (k : Nat) (favoured : Bool) (ticket : Nat) : Bool :=
  overBudget s k favoured || (!(overBudget s k false) && waitsAhead s k ticket)

/-- The controller of a place. -/
def placeController : Place → Option Nat
  | .mem pa => controllerOf pa
  | .acc .. => none

/-- The controller among some at which a request waits, with its ticket, if one makes it wait; `held` is the ticket that the agent already has at a controller. -/
def queueStop (s : State) (favoured : Bool) (held : Option (Nat × Nat)) (ks : List Nat) : Option (Nat × Nat) :=
  let ticket (k : Nat) : Nat := match held with
    | some (j, t) => if j = k then t else s.meter.tickets
    | none => s.meter.tickets
  ks.findSome? fun k => if mustQueue s k favoured (ticket k) then some (k, ticket k) else none

/-- The controller at which an access to places waits, with its ticket. One that the caches serve reaches no controller: which they serve is open (log 86). -/
def budgetStop (s : State) (favoured : Bool) (held : Option (Nat × Nat)) (ps : List Place) : Option (Nat × Nat) :=
  match queueStop s favoured held (ps.filterMap placeController) with
  | none => none
  | some x => if Config.servedByCache s.meter.asked then none else some x

/-- A request has taken its place in a controller's queue: the next one gets another ticket. -/
def queued (s : State) (ticket : Nat) : State :=
  if ticket = s.meter.tickets then { s with meter := { s.meter with tickets := ticket + 1 } } else s

/-- The ticket that someone has at a controller. -/
def ticketOf (s : State) (w : Asker) : Option (Nat × Nat) :=
  match s.cur.ticket with
  | some x => some x
  | none => (s.meter.queue.find? fun a => a.who == w).map fun a => (a.controller, a.ticket)

/-- A request of someone put into a controller's queue, where it stays if it stands there. -/
def enterQueue (s : State) (w : Asker) (x : Nat × Nat) : State :=
  let s := queued s x.2
  { s with meter := { s.meter with queue := (s.meter.queue.filter fun a => a.who != w) ++ [{ who := w, controller := x.1, ticket := x.2 }] } }

/-- A request of someone that is served: it stands in no queue any more. -/
def leaveQueue (s : State) (w : Asker) : State :=
  if s.meter.queue.isEmpty then s else { s with meter := { s.meter with queue := s.meter.queue.filter fun a => a.who != w } }

/-- The state in which someone's access to places waits at a controller, if a spent budget makes it wait (R401). -/
def askBudget (s : State) (w : Asker) (favoured : Bool) (ps : List Place) : Option State :=
  (budgetStop s favoured (ticketOf s w) ps).map (enterQueue s w)

/-- Whether a hart stands at a controller with an access or a form (R401). -/
def hartQueued (s : State) (hart : Nat) : Bool :=
  s.meter.queue.any fun a => match a.who with
    | .hart h _ => h == hart
    | .form h _ => h == hart
    | .port h _ _ => h == hart
    | _ => false

/-! ## Charges (R400, R408, R409) -/

/-- A controller is charged the bytes of a request, rounded up to 32 (R400). -/
def MeterState.charge (m : MeterState) (k n : Nat) : MeterState :=
  { m with spent := tabPut m.spent k ((tabGet m.spent k).getD 0 + (n + 31) / 32 * 32) }

/-- The counters of an account. -/
def MeterState.activity (m : MeterState) (a : Account) : Activity := (tabGet m.acts a).getD Activity.init

/-- The counters of an account changed. -/
def MeterState.count (m : MeterState) (a : Account) (f : Activity → Activity) : MeterState := { m with acts := tabPut m.acts a (f (m.activity a)) }

/-- The account of what an agent does (R409); a hart and the external host have none. -/
def accountOf (a : Agent) : Option Account :=
  if a.kind ≤ 8 then some (.unit a.uid) else if a.kind = 9 then some (.cont a.cont (192 * a.id)) else none

/-- An agent's counters changed. -/
def MeterState.countFor (m : MeterState) (a : Agent) (f : Activity → Activity) : MeterState := match accountOf a with | some x => m.count x f | none => m

/-- Bytes moved to or from a controller in the counters. -/
def Activity.moved (k n : Nat) (a : Activity) : Activity :=
  if k % 6 < 2 then { a with hbm := a.hbm + (n + 31) / 32 * 32 } else { a with cellar := a.cellar + (n + 31) / 32 * 32 }

/-- The meter after an agent's access to n words (R400, R408): a request to a controller, or an access on the chip. -/
def metered (m : MeterState) (a : Agent) (w : Place) (n : Nat) : MeterState :=
  match placeController w with
  | none => m.countFor a fun x => { x with onChip := x.onChip + 1 }
  | some k =>
    let t := { m with asked := m.asked + 1 }
    if Config.servedByCache m.asked then t else (t.charge k (4 * n)).countFor a (Activity.moved k (4 * n))

/-- An access of an agent to n words from a word, metered. -/
def meterAccess (s : State) (a : Agent) (w : Place) (n : Nat) : State := { s with meter := metered s.meter a w n }

/-- Activity of a unit counted. -/
def countUnit (s : State) (uid : Nat) (f : Activity → Activity) : State := { s with meter := s.meter.count (.unit uid) f }

/-- Bytes at physical addresses moved for an account, each run of them one request: page-table entries, pools and saved contexts (R400, R409). -/
def chargeRuns (s : State) (acct : Account) (runs : List (Nat × Nat)) : State :=
  { s with meter := runs.foldl (fun m r => match controllerOf r.1 with
      | some k => (m.charge k r.2).count acct (Activity.moved k r.2)
      | none => m) s.meter }

/-- Where a context is saved for a core. PRESUMED (log 86): in the first HBM stack of its die. -/
def contextPa (core : Nat) : Nat := 0x10000000000 + 2 * (core / 192) * 0x1800000000

/-- A context saved or restored: so many bytes of the context store or a spill area, whose energy is the device's overhead (R409). -/
def chargeContext (s : State) (core n : Nat) : State := chargeRuns s (.overhead core) [(contextPa core, n)]

/-- The controller at which the save or the restore of contexts on some cores waits, with its ticket (R400, R401). -/
def contextStop (s : State) (w : Asker) (favoured : Bool) (cores : List Nat) : Option (Nat × Nat) :=
  queueStop s favoured (ticketOf s w) (cores.filterMap fun c => controllerOf (contextPa c))

/-! ## The reads of a walk (R391, R401) -/

/-- The physical addresses of the entries that a walk of a table reads, with those that reaching each of them reads in the second stage. -/
def tableReads (m : List Host.Cell) (stage2 : Nat → Except Walked (Nat × List (Nat × Nat))) (before : Nat → List Nat) (wide : Bool) (va : Nat) : Nat → Nat → List Nat
  | 0, _ => []
  | n + 1, table =>
    let at0 := table + 8 * (va / 2 ^ (12 + 9 * n) % (if wide && n == 4 then 2048 else 512))
    before at0 ++ match stage2 at0 with
      | .error _ => []
      | .ok (a, _) =>
        let p := leValue (memBytes m a 8)
        a :: if pteV p && inNodes a && ptePointer p && pointerSound p then tableReads m stage2 before wide va n (ptePpn p * 4096) else []

/-- The entries that a second-stage walk of a guest physical address reads. -/
def guestReads (m : List Host.Cell) (hgatp : Word) (gpa : Nat) : List Nat :=
  if fiveLevels hgatp then tableReads m (fun a => .ok (a, [])) (fun _ => []) true gpa 5 (rootOf hgatp) else []

/-- The entries that a walk of a virtual address reads, and those that it updates. -/
def walkReads (m : List Host.Cell) (satp hgatp : Word) (va : Nat) (w : Bool) : List Nat :=
  if !(fiveLevels satp) then []
  else
    tableReads m (entryPa m hgatp) (guestReads m hgatp) false va 5 (rootOf satp) ++
      (match walkTable m (entryPa m hgatp) false va 5 (rootOf satp) [] with
        | .leaf l _ => guestReads m hgatp (l.base + va % 2 ^ l.log2)
        | _ => []) ++
      match walkVa m satp hgatp va w with
      | .mapped x => x.sets.map Prod.fst
      | _ => []

/-- The entries that a queued walk will read. -/
def Walk.reads (s : State) (w : Walk) : List Nat :=
  let c := getCont s w.cont
  if c.live && c.gen.toNat == w.gen then walkReads s.mem c.satp c.hgatp w.va.toNat w.kind.writes else []

/-- Whether a walk waits for a budget: every reserve counts for it (R401). -/
def walkQueues (s : State) (w : Walk) : Bool :=
  (w.reads s).any fun pa => match controllerOf pa with | some k => overBudget s k true | none => false

/-- The entries that a walk reads, charged (R400, R409). -/
def chargeWalk (s : State) (w : Walk) : State := chargeRuns s (.cont w.cont w.core) ((w.reads s).map fun pa => (pa, 8))

end Sys2Proof.Machine
end

