-- ==== Sys2Proof/Machine/Ops.lean ====
section
/-!
DEFINITION. The operations that the instructions share: addresses and places, accumulator rows, tokens and queues, landing, the virtual
clock, ending work, TAKING A TRAP and returning from one, and the issue of a word (R66, R81, R125 to R141, R158, R159, R348, R349).
-/

namespace Sys2Proof.Machine

open Sys2Proof

/-! ## The body of an instruction -/

/-- Why a word does not issue: it freezes, with every change of its body undone, or kept where the state is given; or it raises a fault with
its cause, `TVAL` and race, likewise. -/
inductive Stop where
  | freeze (w : Wait) (keep : Option State)
  | trap (cause : Nat) (tval : Word) (race : Option Race) (keep : Option State)
  deriving Repr

/-- A computation over the state that can stop. -/
abbrev M := StateT State (Except Stop)

/-- What the body of an instruction is given: who issues, the word and its address, the token peer of its push (R141), and its virtual
cycle. -/
structure Ctx where
  uid  : Nat
  q    : Seq
  word : IWord
  pc   : Word
  vc   : Word
  push : Option Seq
  deriving DecidableEq, Repr

/-- The word freezes and nothing of it stays. -/
def freeze {α : Type} (w : Wait) : M α := fun _ => .error (.freeze w none)

/-- The word freezes and what its body has done so far stays. -/
def freezeKeep {α : Type} (w : Wait) : M α := fun s => .error (.freeze w (some s))

/-- The word raises a fault. -/
def raise {α : Type} (cause : Nat) (tval : Word) : M α := fun _ => .error (.trap cause tval none none)

/-- The word raises the memory-model exception (R274). -/
def raiseRace {α : Type} (va : Word) (r : Race) : M α := fun _ => .error (.trap 5 va (some r) none)

/-- The trapping word as `TVAL` holds it (R347). -/
def Ctx.tval (c : Ctx) : Word := c.word.setWidth 64

/-- A format fault whose rule names no `TVAL` (R347). -/
def formatFault {α : Type} (c : Ctx) : M α := raise 2 c.tval

/-- A window-permission fault whose rule names no `TVAL` (R347). -/
def windowFault {α : Type} (c : Ctx) : M α := raise 4 c.tval

/-- A swizzle-mismatch fault whose rule names no `TVAL` (R347). -/
def swizzleFault {α : Type} (c : Ctx) : M α := raise 3 c.tval

/-- The issuing unit. -/
def theUnit (c : Ctx) : M UnitState := fun s => .ok (getUnit s c.uid, s)

/-- The issuing sequencer. -/
def theSeq (c : Ctx) : M SeqState := fun s => .ok (getSeq s c.uid c.q, s)

/-- A change of the issuing unit. -/
def updUnit (c : Ctx) (f : UnitState → UnitState) : M Unit := fun s => .ok ((), modUnit s c.uid f)

/-- A change of the issuing sequencer. -/
def updSeq (c : Ctx) (f : SeqState → SeqState) : M Unit := fun s => .ok ((), modSeq s c.uid c.q f)

/-- A change of the state. -/
def upd (f : State → State) : M Unit := fun s => .ok ((), f s)

/-- A change of what is in flight at a sequencer. -/
def SeqState.modFl (c : SeqState) (f : Flight → Flight) : SeqState := { c with fl := f c.fl }

/-- A fresh value the manual leaves open (log 5). -/
def freeWord : M Word := fun s => .ok (Config.freeValue s.free, { s with free := s.free + 1 })

/-! ## Places -/

/-- Why an address names no place now. -/
inductive AccErr where
  /-- a window-permission fault (R160, R161, R300) -/
  | window
  /-- an unmapped access (R393) -/
  | unmapped
  /-- a translation miss (R392) -/
  | miss
  deriving DecidableEq, Repr

/-- The physical address of a byte of a unit's partition (R162, R171). -/
def spadPa (u : UnitState) (off : Nat) : Nat := 0x1000000 * u.place.core + u.place.spadBase + off

/-- The unit of a launch on a core of a cluster (R161, R173). -/
def siblingOn (s : State) (u : UnitState) (core : Nat) : Option Nat :=
  (s.units.find? fun p => p.2.alive && p.2.place.resident && p.2.place.core == core && p.2.ident.key == u.ident.key).map Prod.fst

/-- Whether an offset of a unit's own partition lies in the stage of an open level (R300). -/
def inStage (u : UnitState) (off : Nat) : Bool :=
  u.levels.any fun l => l.stage ≤ off && off < l.stage + l.stageN * 4096

/-- The place of a partition offset of a unit, for an agent of unit `me` (R160, R161, R300). -/
def partPlace (s : State) (me uid off : Nat) : Except AccErr Place :=
  let u := getUnit s uid
  if off < u.place.spadSize then
    if me = uid ∧ inStage u off then .error .window else .ok (.mem (spadPa u off))
  else .error .window

/-- The cached translation of a global address that permits an access (R389). -/
def tlbFind (s : State) (die cont gen : Nat) (va : Nat) (kind : AccKind) : Option TlbEntry :=
  (getDie s die).tlb.find? fun e =>
    e.cont == cont && e.gen == gen && e.base ≤ va && va < e.base + 2 ^ e.log2 &&
      match kind with
      | .read => e.read
      | .fetch => e.read
      | .write => e.write
      | .atomic => e.write

/-- Whether a range of addresses touches the parameter block of a launch of a continuation, which the units only read (R59). -/
def inParams (s : State) (cont a n : Nat) : Bool :=
  s.units.any fun p => p.2.alive && p.2.ident.key.cont == cont && p.2.ident.params.toNat < a + n && a < p.2.ident.params.toNat + p.2.ident.paramSize

/-- The place of a virtual address for an agent of a unit (R160, R161, R388). DESIGN CHOICE (log 71): a write into the launch's parameter block, which R59 makes
read-only to the units without a word on how, is refused as one outside a window is. -/
def locate (s : State) (uid : Nat) (va : Word) (kind : AccKind) : Except AccErr Place :=
  let u := getUnit s uid
  let a := va.toNat
  if a / 2 ^ 56 = 0 then
    if kind.writes && inParams s u.ident.key.cont a 1 then .error .window
    else match tlbFind s (u.place.core / 192) u.ident.key.cont u.ident.gen a kind with
    | some e => .ok (.mem (e.pbase + (a - e.base)))
    | none => .error .miss
  else if a / 2 ^ 48 = 0xFF00 then
    let off := a % 2 ^ 48
    if off < 0x180000 then partPlace s uid uid off
    else if 0x200000 ≤ off ∧ off < 0x240000 then .ok (.acc uid ((off - 0x200000) / 1024) (off % 1024))
    else .error .window
  else if a / 2 ^ 24 = 0xFF01000000 then
    let k := a % 2 ^ 24 / 0x400000
    let off := a % 0x400000
    if off < 0x180000 then
      match siblingOn s u (u.place.core / 4 * 4 + k) with
      | some v => partPlace s uid v off
      | none => .error .window
    else .error .window
  else if a / 2 ^ 48 = 0xFF01 then .error .unmapped
  else .error .unmapped

/-- The places of n bytes from an address, in ascending order. -/
def locateN (s : State) (uid : Nat) (va : Word) (kind : AccKind) : Nat → Except AccErr (List Place)
  | 0 => .ok []
  | n + 1 =>
    match locate s uid va kind with
    | .error e => .error e
    | .ok p =>
      match locateN s uid (va + 1) kind n with
      | .error e => .error e
      | .ok ps => .ok (p :: ps)

/-- The first of n addresses that names no place, with the reason (R392, R393). -/
def locateErr (s : State) (uid : Nat) (va : Word) (kind : AccKind) : Nat → Option (Word × AccErr)
  | 0 => none
  | n + 1 =>
    match locate s uid va kind with
    | .error e => some (va, e)
    | .ok _ => locateErr s uid (va + 1) kind n

/-- The ticket that a frozen sequencer has at a controller (R401). -/
def seqTicket (s : State) (uid : Nat) (q : Seq) : Option (Nat × Nat) :=
  match (getSeq s uid q).fl.frozen with
  | some (.budget k t) => some (k, t)
  | _ => none

/-- What makes a sequencer's access to places wait at a controller, if anything does (R401): a class-0 launch draws on the reserve. -/
def seqBudget (s : State) (uid : Nat) (q : Seq) (ps : List Place) : Option (Nat × Nat) :=
  budgetStop s ((getUnit s uid).ident.cls == 0) (seqTicket s uid q) ps

/-- The places of n bytes for a sequencer: an address outside a segment's partition or in a reserved range raises a window-permission fault, an
unmapped one with `TVAL` holding the virtual address, and a miss or a spent budget freezes the sequencer (R160, R392, R393, R401). -/
def seqPlaces (c : Ctx) (va : Word) (kind : AccKind) (n : Nat) : M (List Place) := fun s =>
  match locateN s c.uid va kind n with
  | .ok ps =>
    match seqBudget s c.uid c.q ps with
    | some (k, t) => freeze (.budget k t) s
    | none => .ok (ps, s)
  | .error _ =>
    match locateErr s c.uid va kind n with
    | some (_, .window) => windowFault c s
    | some (a, .unmapped) => raise 4 a s
    | some (a, .miss) => freeze (.walk ((getUnit s c.uid).place.core / 192) a kind) s
    | none => windowFault c s

/-! ## Accumulator rows -/

/-- The physical row group of a logical one (R201). -/
def rowGroup (u : UnitState) (row : Nat) : Option Nat := tabGet u.place.groups (row / 16)

/-- The bits of a logical row; zero where its group is not allotted (R202). -/
def getRow (s : State) (uid row : Nat) : Row :=
  let u := getUnit s uid
  match rowGroup u row with
  | some g => (tabGet (getCore s u.place.core).rows (g * 16 + row % 16)).getD 0
  | none => 0

/-- The tag of a logical row; `raw` where its group is not allotted (R202). -/
def rowTag (u : UnitState) (row : Nat) : BitVec 6 :=
  match rowGroup u row with
  | some _ => (tabGet u.place.rowTags row).getD 0
  | none => 0

/-- The state with a row's bits written; nothing where its group is not allotted. -/
def setRow (s : State) (uid row : Nat) (r : Row) : State :=
  let u := getUnit s uid
  match rowGroup u row with
  | some g => modCore s u.place.core fun c => { c with rows := tabPut c.rows (g * 16 + row % 16) r }
  | none => s

/-- The state with a row's tag written. -/
def setRowTag (s : State) (uid row : Nat) (t : BitVec 6) : State :=
  modUnit s uid fun u => { u with place := { u.place with
    rowTags := tabPut u.place.rowTags row t, tagStray := u.place.tagStray.filter fun r => r != row } }

/-- The row groups of a core that are taken or reserved (R201). -/
def takenGroups (s : State) (core : Nat) : List Nat :=
  s.units.foldr (fun p acc =>
    if p.2.place.resident && p.2.place.core == core then
      p.2.place.groups.map Prod.snd ++ p.2.place.reserve.toList ++ acc
    else acc) []

/-- The group of a row allotted, zero and `raw`: the reserved one first, else a free one of the core; none when there is none (R201). -/
def allotGroup (s : State) (uid row : Nat) : Option State :=
  let u := getUnit s uid
  match rowGroup u row with
  | some _ => some s
  | none =>
    let core := u.place.core
    let free := match u.place.reserve with
      | some g => some g
      | none => (List.range 16).find? fun g => !((takenGroups s core).contains g)
    free.map fun g =>
      let s := modUnit s uid fun u => { u with place := { u.place with
        groups := tabPut u.place.groups (row / 16) g, reserve := none
        rowTags := u.place.rowTags.filter fun p => p.1 / 16 != row / 16
        tagStray := u.place.tagStray.filter fun r => r / 16 != row / 16 } }
      modCore s core fun c => { c with rows := c.rows.filter fun p => p.1 / 16 != g }

/-- A sequencer's write of a row allots its group, or freezes (R201). -/
def needGroup (c : Ctx) (row : Nat) : M Unit := fun s =>
  match allotGroup s c.uid row with
  | some s => .ok ((), s)
  | none => freeze .rowGroup s

/-- A byte of a place. -/
def placeGet (s : State) : Place → Byte
  | .mem pa => memGet s.mem pa
  | .acc uid row b => (getRow s uid row).extractLsb' (8 * b) 8

/-- The state with a byte of a place written. -/
def placePut (s : State) (p : Place) (v : Byte) : State :=
  match p with
  | .mem pa => { s with mem := memPut s.mem pa v }
  | .acc uid row b =>
    let old := getRow s uid row
    let m : Row := (0xFF#8192) <<< (8 * b)
    setRow s uid row ((old &&& ~~~m) ||| (v.setWidth 8192 <<< (8 * b)))

/-- The state with bytes written at places, in order. -/
def placesPut (s : State) (bs : List (Place × Byte)) : State := bs.foldl (fun s p => placePut s p.1 p.2) s

/-! ## Plain accesses -/

/-- The runs of consecutive words that places touch (R271). -/
def placeRuns : List Place → List (Place × Nat)
  | [] => []
  | p :: r =>
    match placeRuns r with
    | [] => [(p.word, 1)]
    | (w, n) :: rest =>
      if p.word = w then (w, n) :: rest
      else
        let joins := match p.word, w with
          | .mem x, .mem y => x + 4 == y
          | .acc u t x, .acc v t' y => u == v && t == t' && x + 4 == y
          | _, _ => false
        if joins then (p.word, n + 1) :: rest else (p.word, 1) :: (w, n) :: rest

/-- The runs of places charged as requests to their controllers (R400, R409). -/
def chargePlaces (s : State) (acct : Account) (ps : List Place) : State :=
  chargeRuns s acct ((placeRuns ps).filterMap fun r => match r.1 with | .mem pa => some (pa, 4 * r.2) | .acc .. => none)

/-- An agent's access to the places of its bytes, metered, each run of them one request. -/
def meterPlaces (s : State) (a : Agent) (ps : List Place) : State := (placeRuns ps).foldl (fun s r => meterAccess s a r.1 r.2) s

/-- The virtual address of a word that an access from va to places touches. -/
def wordVa (va : Word) (ps : List Place) (w : Place) : Word :=
  match ps.findIdx? fun p => p.word == w with
  | some i => (va + BitVec.ofNat 64 i) &&& ~~~(3#64)
  | none => va

/-- The virtual address of a row's byte (R160). -/
def accVa : Place → Word
  | .acc _ row b => BitVec.ofNat 64 (0xFF00000000200000 + row * 1024 + b)
  | .mem pa => BitVec.ofNat 64 pa

/-- Final statuses: complete, or fault and above (R327). -/
def statusFinal (st : Nat) : Bool := st != 1 && st != 2

/-- A job of a continuation. -/
def findJob (s : State) (cont job : Nat) : Option Job := (getCont s cont).jobs.find? fun j => j.id == job

/-- Whether an agent is a command that goes on for a unit that lives no more, or the COPY node of a job that has ended: a race of it has no boundary at which it could be raised,
and does not hold it (R274, R349, R369). -/
def orphaned (s : State) (a : Agent) : Bool :=
  4 ≤ a.kind && a.kind ≤ 8 && !(getUnit s a.uid).alive ||
    a.kind == 9 && match findJob s a.cont (a.launch / 2 ^ 32) with | some j => statusFinal j.status | none => false

/-- Whether an agent's accesses leave marks: not those of a command whose job has ended, since they would have retired (R279). -/
def leavesMarks (s : State) (a : Agent) (cont job : Nat) : Bool :=
  !(orphaned s a) || match findJob s cont job with | some j => !(statusFinal j.status) | none => false

/-- An access of an agent is checked against the marks of others and leaves its own (R274, R279), and is metered (R400, R408). `vaOf` gives the virtual address of a word
of the access. -/
def checkMark (a : Agent) (region cont job : Nat) (vaOf : Place → Word) (write atomic : Bool) :
    List (Place × Nat) → State → Except Race State
  | [], s => .ok s
  | (w, n) :: r, s =>
    match if orphaned s a then none else raceWith s a w n write atomic with
    | some m => .error (raceRecord s a region (vaOf (firstShared w m.word)) w write cont m)
    | none =>
      let t := meterAccess s a w n
      checkMark a region cont job vaOf write atomic r (if leavesMarks s a cont job then addMark t
        { word := w, words := n, va := (vaOf w).toNat, agent := agentKey a, region := region, write := write, atomic := atomic, cont := cont, job := job,
          spilled := false } else t)

/-- A plain or atomic access of a sequencer (R274): one that races raises the memory-model exception with its address. -/
def seqAccess (c : Ctx) (va : Word) (ps : List Place) (write atomic : Bool) : M Unit := fun s =>
  let u := getUnit s c.uid
  let a := seqAgent u c.uid c.q
  match checkMark a (regionOf s a) u.ident.key.cont u.ident.key.job (wordVa va ps) write atomic (placeRuns ps) s with
  | .ok s => .ok ((), s)
  | .error r => raiseRace va r s

/-! ## Locks -/

/-- Whether a lock of the unit forbids an access of its own core to a place (R168, R169, R203). -/
def lockForbids (u : UnitState) (uid : Nat) (write : Bool) (p : Place) (l : Lock) : Bool :=
  match p with
  | .mem pa =>
    !l.rows && (write || l.write) && spadPa u l.lo ≤ pa && pa < spadPa u l.hi
  | .acc v row _ => l.rows && v == uid && l.lo ≤ row && row < l.hi

/-- The numbers of the locks of a unit that forbid an access to any of the places. -/
def forbidding (u : UnitState) (uid : Nat) (write : Bool) (ps : List Place) : List Nat :=
  (u.place.locks.filter fun l => ps.any fun p => lockForbids u uid write p l).map (·.no)

/-- A sequencer stalls while a lock forbids one of its accesses (R169, R203). -/
def seqLocks (c : Ctx) (ps : List Place) (write : Bool) : M Unit := fun s =>
  match forbidding (getUnit s c.uid) c.uid write ps with
  | [] => .ok ((), s)
  | ns => freeze (.lock ns) s

/-! ## Tokens (R66, R136, R141) -/

/-- The number of a token queue from a sequencer to another. -/
def tokQueue (src dst : Seq) : Nat := 4 * src.idx + dst.idx

/-- The tokens from a sequencer to another. -/
def tokensOf (u : UnitState) (src dst : Seq) : List Token := (tabGet u.tokens (tokQueue src dst)).getD []

/-- A token queue replaced. -/
def setTokens (u : UnitState) (src dst : Seq) (ts : List Token) : UnitState :=
  { u with tokens := tabPut u.tokens (tokQueue src dst) ts }

/-- The push of an instruction that issues now: a release at `core` scope of what stands before it in program order (R67, R271). -/
def pushOf (s : State) (uid : Nat) (q : Seq) (peer : Option Seq) : Option Push :=
  peer.map fun p => { peer := p, rel := releaseOf s (seqAgent (getUnit s uid) uid q) 1 }

/-- The pushes of retired instructions that wait at a sequencer are made in order while their queues have room; a queue holds 15
(R66). -/
def flushPushes : Nat → State → Nat → Seq → State
  | 0, s, _, _ => s
  | fuel + 1, s, uid, q =>
    match (getSeq s uid q).fl.pushes with
    | [] => s
    | p :: r =>
      if (tokensOf (getUnit s uid) q p.peer).length < 15 then
        flushPushes fuel
          (modUnit (modSeq s uid q fun c => c.modFl fun f => { f with pushes := r }) uid fun u =>
            setTokens u q p.peer (tokensOf u q p.peer ++ [p.rel])) uid q
      else s

/-- A retired instruction's push is made, or waits for room (R66). -/
def makePush (s : State) (uid : Nat) (q : Seq) : Option Push → State
  | none => s
  | some p => flushPushes 64 (modSeq s uid q fun c => c.modFl fun f => { f with pushes := f.pushes ++ [p] }) uid q

/-- The head of a sequencer's queue from a peer taken out, which makes room for a push that waits at the peer (R66); none when the queue is empty. -/
def takeToken (s : State) (uid : Nat) (q peer : Seq) : Option (Token × State) :=
  match tokensOf (getUnit s uid) peer q with
  | [] => none
  | t :: r => some (t, flushPushes 64 (modUnit s uid fun u => setTokens u peer q r) uid peer)

/-- A sequencer pops a token from a peer: an acquire at `core` scope (R67); none when the queue is empty. -/
def popToken (s : State) (uid : Nat) (q peer : Seq) : Option State :=
  (takeToken s uid q peer).map fun x => acquireRel x.2 (seqAgent (getUnit x.2 uid) uid q) x.1

/-! ## Stores and atomics performed (R147, R284) -/

/-- What memory becomes under an atomic operation, as a number of its width; none where nothing is written (R284). -/
def atomNew (o : AtomOp) (old : Nat) : Option Nat :=
  let w := if o.w32 then 32 else 64
  let b := o.b.toNat % 2 ^ w
  let c := o.c.toNat % 2 ^ w
  match o.fn with
  | 0 => none
  | 1 => some b
  | 2 => some b
  | 3 => if old = c then some b else none
  | 4 => some ((old + b) % 2 ^ w)
  | 5 => some (old &&& b)
  | 6 => some (old ||| b)
  | 7 => some (old ^^^ b)
  | 8 => some (if signedOf w old ≤ signedOf w b then old else b)
  | 9 => some (if signedOf w old ≤ signedOf w b then b else old)
  | 10 => some (if old ≤ b then old else b)
  | 11 => some (if old ≤ b then b else old)
  | 12 => some (floatAdd 8 old b).1
  | 13 => some ((old + 2 ^ w - b) % 2 ^ w)
  | _ => some ((old + b) % 2 ^ w)

/-- The bytes of an atomic operation. -/
def AtomOp.size (o : AtomOp) : Nat := if o.w32 then 4 else 8

/-- The keys of the words that places touch. -/
def wordKeys (s : State) (ps : List Place) : List Nat :=
  (placeRuns ps).flatMap fun p => (List.range p.2).map fun i => headKey s p.1 + 4 * i

/-- The value at places, little-endian. -/
def placesValue (s : State) (ps : List Place) : Nat := leValue (ps.map (placeGet s))

/-- An atomic operation performed on places in one step (R284): the old value, and the state with the new value and the release
sequences of its words. -/
def performAtomic (s : State) (ps : List Place) (o : AtomOp) (rels : List Release) : Nat × State :=
  let old := placesValue s ps
  match atomNew o old with
  | none => (old, s)
  | some v => (old, placesPut (writeHeads s (wordKeys s ps) rels (o.fn != 1)) (ps.zip (leBytes ps.length v)))

/-- A plain write of places ends the release sequences of their words (R276). -/
def storeMarksEnd (s : State) (bs : List (Place × Byte)) : State :=
  endHeads s ((placeRuns (bs.map Prod.fst)).foldr (fun p acc =>
    (List.range p.2).filterMap (fun i => match p.1 with
      | .mem x => if (tabGet s.order.heads (x + 4 * i)).isSome then some (x + 4 * i) else none
      | _ => none) ++ acc) [])

/-- A plain write of bytes at places: it ends the release sequences of its words (R276). -/
def performBytes (s : State) (bs : List (Place × Byte)) : State := placesPut (storeMarksEnd s bs) bs

/-- A store or non-returning atomic of an agent performed on memory (R67, R147); an atomic that reads is kept for a later acquire
fence (R270). -/
def performOp (s : State) (ag : Agent) (o : StoreOp) : State :=
  match o.atom with
  | none => performBytes s o.bytes
  | some a =>
    let ps := o.bytes.map Prod.fst
    let s := if a.fn = 1 then s else rememberReads s ag (wordKeys s ps)
    (performAtomic s ps a o.rels).2

/-- A store of a sequencer performed. -/
def performFor (s : State) (uid : Nat) (q : Seq) (o : StoreOp) : State := performOp s (seqAgent (getUnit s uid) uid q) o

/-- Every store of a sequencer that has issued is performed, in order (R67, R147): a store that has no time to wait for retires and makes its push;
a vector store retires at its own time. -/
def performAll (s : State) (uid : Nat) (q : Seq) : State :=
  let os := (getSeq s uid q).fl.stores
  let s := os.foldl (fun s o => performFor s uid q o) s
  let s := modSeq s uid q fun c => c.modFl fun f => { f with
    stores := (os.filter fun o => o.due != 0).map fun o => { o with bytes := [], atom := none } }
  (os.filter fun o => o.due == 0).foldl (fun s o => makePush s uid q o.push) s

/-- An instruction retires (R66, R67): a push of a token follows everything that the sequencer did before it, so its stores are
performed first. -/
def retire (s : State) (uid : Nat) (q : Seq) (p : Option Push) : State :=
  match p with
  | none => s
  | some _ => makePush (performAll s uid q) uid q p

/-- The first store of a sequencer is performed and retires, if it has no time to wait for (R67, R147). -/
def performHead (s : State) (uid : Nat) (q : Seq) : State :=
  match (getSeq s uid q).fl.stores with
  | [] => s
  | o :: r =>
    if o.due = 0 then
      makePush (performFor (modSeq s uid q fun c => c.modFl fun f => { f with stores := r }) uid q o) uid q o.push
    else s

/-- Vector stores whose time has come are performed, after the stores before them, and retire (R199). -/
def performDue : Nat → State → Nat → Seq → State
  | 0, s, _, _ => s
  | fuel + 1, s, uid, q =>
    if (getSeq s uid q).fl.stores.any fun o => o.due == 1 then
      match (getSeq s uid q).fl.stores with
      | [] => s
      | o :: r =>
        performDue fuel
          (makePush (performFor (modSeq s uid q fun c => c.modFl fun f => { f with stores := r }) uid q o) uid q o.push) uid q
    else s

/-! ## Landing (R126, R129, R134) -/

/-- A predicate of a number 0 to 11; p0 reads true (R123). -/
def SeqState.pred (c : SeqState) (n : Nat) : Mask :=
  if n = 0 then BitVec.allOnes 1024 else c.preds[n]?.getD 0

/-- A scalar register written; s0 and s60 discard (R122). -/
def SeqState.setReg (c : SeqState) (n : Nat) (v : Word) : SeqState :=
  if n = 0 ∨ n = 60 then c else { c with regs := c.regs.setIfInBounds n v }

/-- A predicate written; p0 discards (R123). -/
def SeqState.setPred (c : SeqState) (n : Nat) (m : Mask) : SeqState :=
  if n = 0 then c else { c with preds := c.preds.setIfInBounds n m }

/-- A handle register written. -/
def SeqState.setHandle (c : SeqState) (n : Nat) (h : Handle) : SeqState :=
  { c with handles := c.handles.setIfInBounds n h }

/-- The bits of a row that a lane mask at a tag's lanes selects; lanes beyond N count as selected, so that they are written as 0
(R134, R209). -/
def maskBits (t : BitVec 6) (m : Mask) : Row :=
  let w := laneBits t.toNat
  let n := laneCount t.toNat
  rowOf w ((List.range n).map fun k => if m.getLsbD k then 2 ^ w - 1 else 0) ||| ~~~(rowOf w (List.replicate n (2 ^ w - 1)))

/-- The entry of a vector queue filled (R137). -/
def fillVq (v : VecQueue) (rid : Nat) (t : BitVec 6) (r : Row) : VecQueue :=
  { v with entries := v.entries.map fun e => if e.rid = rid then { e with val := some (t, r) } else e }

/-- The state with what an entry writes: its register, queue entry, tag, or row (R134). -/
def landValue (s : State) (uid : Nat) (q : Seq) (e : Landing) : State :=
  match e.kind with
  | .scalar => modSeq s uid q fun c => c.setReg e.dst (e.payload.setWidth 64)
  | .pred => modSeq s uid q fun c => c.setPred e.dst (e.payload.setWidth 1024)
  | .handle => modSeq s uid q fun c => c.setHandle e.dst (e.payload.setWidth 256)
  | .tag => setRowTag s uid e.dst e.tag
  | .reserved => s
  | .dqout => modSeq s uid q fun c =>
      { c with dq := { c.dq with dqout := c.dq.dqout.map fun d =>
          if d.rid = e.rid then { d with val := some (e.payload.setWidth 64) } else d } }
  | .vq => modUnit s uid fun u =>
      if q = .l then { u with vqin := fillVq u.vqin e.rid e.tag e.payload }
      else { u with vqout := fillVq u.vqout e.rid e.tag e.payload }
  | .row =>
    let r := match e.mask with
      | none => e.payload
      | some m =>
        let b := maskBits e.tag m
        (e.payload &&& b) ||| (getRow s uid e.dst &&& ~~~b)
    setRowTag (setRow s uid e.dst r) uid e.dst e.tag

/-- A row write is a plain access at its landing (R204): it is checked and leaves its mark; no other entry is. -/
def landCheck (s : State) (uid : Nat) (q : Seq) (e : Landing) : Except Race State :=
  if e.kind = .row then
    let u := getUnit s uid
    checkMark (seqAgent u uid q) e.region u.ident.key.cont u.ident.key.job accVa true false [(.acc uid e.dst 0, 256)] s
  else .ok s

/-- An entry whose row write races is not performed (R274): it stays in the running bank and lands, checked again, in the first virtual cycle that ends after
the handler's return; the fault is raised at the next boundary. -/
def landLater (s : State) (uid : Nat) (q : Seq) (e : Landing) (r : Race) : State :=
  let x : PendFault := { cause := 5, tval := accVa (.acc uid e.dst 0), eng := none, race := some r }
  modSeq s uid q fun c => c.modFl fun f =>
    { f with running := f.running ++ [{ e with rem := 1 }], faults := if f.faults.contains x then f.faults else f.faults ++ [x] }

/-- One entry lands (R134, R204): its flags, its value and its token push, or none of them where its row write races. -/
def landEntry (s : State) (uid : Nat) (q : Seq) (e : Landing) : State :=
  match landCheck s uid q e with
  | .error r => landLater s uid q e r
  | .ok s => retire (landValue (modUnit s uid fun u => { u with aflags := u.aflags ||| e.flg }) uid q e) uid q e.push

/-- An entry placed among others by the virtual cycle of its issue: the greatest `ORD` last (R134). -/
def insertOrd (e : Landing) : List Landing → List Landing
  | [] => [e]
  | d :: r => if e.ord.toNat < d.ord.toNat then e :: d :: r else d :: insertOrd e r

/-- Entries in the order of `ORD`. -/
def sortOrd (es : List Landing) : List Landing := es.foldl (fun acc e => insertOrd e acc) []

/-- The end of one virtual cycle of a sequencer: the clock advances, every result in flight counts down, and those due land in the order
of issue (R125, R126). A count of 1 or less lands: an entry that issued in this cycle was made with one more than its latency. -/
def tick (s : State) (uid : Nat) (q : Seq) : State :=
  let c := getSeq s uid q
  let es := c.fl.running.map fun e => { e with rem := e.rem - 1 }
  let s := performDue 24 s uid q
  let s := modSeq s uid q fun c => { c with vc := c.vc + 1, fl := { c.fl with
    running := es.filter fun e => 1 < e.rem
    stores := c.fl.stores.map fun o => { o with due := o.due - 1 } } }
  (sortOrd (es.filter fun e => e.rem ≤ 1)).foldl (fun s e => landEntry s uid q e) s

/-- The first entry of a bank that is empty (R129). -/
def freeSlot (es : List Landing) : Nat := ((List.range 24).find? fun n => !(es.any fun e => e.slot == n)).getD 24

/-- A result put in flight at issue with its latency (R126, R129). -/
def addLanding (c : Ctx) (e : Landing) : M Unit := fun s =>
  let a := seqAgent (getUnit s c.uid) c.uid c.q
  let e := { e with push := pushOf s c.uid c.q c.push, region := regionOf s a, slot := freeSlot (getSeq s c.uid c.q).fl.running }
  .ok ((), modSeq s c.uid c.q fun sq => sq.modFl fun f => { f with running := f.running ++ [e] })

/-- A blank entry of the issuing word. -/
def Ctx.entry (c : Ctx) (kind : LandKind) (dst lat : Nat) (payload : Row) : Landing :=
  { ord := c.vc.setWidth 32, flg := 0, tag := 0, dst := dst, kind := kind, rem := lat + 1, payload := payload, mask := none,
    push := none, rid := 0, region := 0, slot := 0, hidden := 0, resv := 0 }

/-- The first reservation number that no entry of `dqout` holds. -/
def nextRid : List Nat → Nat
  | [] => 0
  | n :: r => Nat.max (n + 1) (nextRid r)

/-- A scalar result of latency L: into a register, or into a `dqout` entry reserved now (R122, R137, R138). -/
def landScalar (c : Ctx) (dst : Nat) (v : Word) (lat : Nat) : M Unit := fun s =>
  if dst = 61 then
    let sq := getSeq s c.uid c.q
    if 16 ≤ sq.dq.dqout.length then freeze (.queue 9) s
    else
      let rid := nextRid (sq.dq.dqout.map (·.rid) ++ sq.fl.running.map (·.rid) ++ sq.fl.held.map (·.rid))
      let s := modSeq s c.uid c.q fun sq => { sq with dq := { sq.dq with
        dqout := sq.dq.dqout ++ [{ rid := rid, target := sq.dq.target, val := none }] } }
      addLanding c { c.entry .dqout 0 lat (v.setWidth 8192) with rid := rid } s
  else addLanding c (c.entry .scalar dst lat (v.setWidth 8192)) s

/-- A predicate result. -/
def landPred (c : Ctx) (dst : Nat) (m : Mask) (lat : Nat) : M Unit :=
  addLanding c (c.entry .pred dst lat (m.setWidth 8192))

/-- A handle result. -/
def landHandle (c : Ctx) (dst : Nat) (h : Handle) (lat : Nat) : M Unit :=
  addLanding c (c.entry .handle dst lat (h.setWidth 8192))

/-! ## Records and the ends of work -/

/-- An attention entry's word (R353). -/
def attnWord (kind jst cont job : Nat) : Word :=
  BitVec.ofNat 64 (kind % 16 * 2 ^ 60 + jst % 256 * 2 ^ 52 + cont % 2 ^ 20 * 2 ^ 32 + job % 2 ^ 32)

/-- An attention entry queued for a continuation's hart, or counted when 64 wait or some are already counted (R353). -/
def postAttn (s : State) (cont kind jst job : Nat) : State :=
  modHart s (getCont s cont).hart fun h =>
    if h.attn.length < 64 ∧ h.attnLost = 0 then { h with attn := h.attn ++ [attnWord kind jst cont job] }
    else { h with attnLost := h.attnLost + 1 }

/-- A fault record posted to its continuation's queue, with its attention entry of kind 2; a full queue counts it (R351 to
R353). -/
def postFault (s : State) (r : FaultRecord) : State :=
  let c := getCont s r.cont
  if c.faultQ.length < 16 then
    postAttn (modCont s r.cont fun c => { c with faultQ := c.faultQ ++ [{ r with lost := c.lost }], lost := 0 })
      r.cont 2 r.jst r.job
  else modCont s r.cont fun c => { c with lost := c.lost + 1 }

/-- A change of a job. -/
def modJob (s : State) (cont job : Nat) (f : Job → Job) : State :=
  modCont s cont fun c => { c with jobs := c.jobs.map fun j => if j.id = job then f j else j }

/-- A change of the run of a node. -/
def modNode (s : State) (k : NodeKey) (f : NodeRun → NodeRun) : State :=
  modJob s k.cont k.job fun j => { j with phase := j.phase.map fun p =>
    if p.index = k.phase then { p with nodes := p.nodes.zipIdx.map fun x => if x.2 = k.node then f x.1 else x.1 } else p }

/-- The run of a node. -/
def findNode (s : State) (k : NodeKey) : Option NodeRun :=
  (findJob s k.cont k.job).bind fun j => j.phase.bind fun p => if p.index = k.phase then p.nodes[k.node]? else none

/-- The units of a launch. -/
def unitsOf (s : State) (k : NodeKey) : List Nat :=
  (s.units.filter fun p => p.2.alive && p.2.ident.key == k).map Prod.fst

/-- A resident unit leaves its slot (R340): the core no longer holds it. A parked one has left it. -/
def leaveSlot (s : State) (uid : Nat) : State :=
  let u := getUnit s uid
  if u.place.resident then modCore s u.place.core fun c =>
    { c with slots := c.slots.setIfInBounds u.place.slot none
             issuing := if c.issuing = some u.place.slot then none else c.issuing }
  else s

/-- Whether an engine, a press or the collective engine still runs a command of a unit (R163). -/
def unitBusy (s : State) (uid : Nat) : Bool :=
  (s.cores.any fun p => ([p.2.copy.run, p.2.gather.run, p.2.row.run, p.2.relocC, p.2.relocR].any fun r =>
      match r with | some c => c.cmd.uid == uid | none => false) ||
    (p.2.copy.waiting ++ p.2.gather.waiting ++ p.2.row.waiting).any fun c => c.cmd.uid == uid) ||
  (s.clusters.any fun p => match p.2.press.cur with | some c => c.cmd.uid == uid | none => false) ||
  ([0, 1, 2, 3].any fun d => (getDie s d).coll.any fun c => c.cmd.uid == uid)

/-- The marks on a unit's partition and rows retire when they are reclaimed (R163, R201, R279); those of a parked one's partition lie in its context. -/
def reclaimMarks (s : State) (uid : Nat) : State :=
  let u := getUnit s uid
  retireMarks s fun m =>
    match m.word with
    | .mem pa => u.place.resident && spadPa u 0 ≤ pa && pa < spadPa u u.place.spadSize
    | .acc v _ _ => v == uid

/-- A unit that no longer lives gives back its slot, partition, row groups, queues and saved context once its started commands are done (R141, R163,
R201, R258, R314, R342). -/
def reclaim (s : State) (uid : Nat) : State :=
  if (getUnit s uid).alive || unitBusy s uid then s
  else
    let u := getUnit s uid
    let s := reclaimMarks (leaveSlot s uid) uid
    let s := modPress s (u.place.core / 4) fun p => if p.owner = some uid then { p with owner := none } else p
    modUnit s uid fun u =>
      { u with place := { u.place with resident := false, groups := [], reserve := none, rowTags := [], tagStray := [], locks := [], spadSize := 0 }
               levels := [], levelSpare := [], reads := [], press := { wrec := none, lreq := false }, saved := none }

/-- The header of a pool (R297): serial, records, bytes used, continuation. -/
def poolHeader (serial nrec used cont : Nat) : List Byte :=
  leBytes 8 (serial % 2 ^ 32) ++ leBytes 8 nrec ++ leBytes 8 used ++ leBytes 8 cont

/-- The physical address of a global address for a unit's port, by its cached translation or by a walk of its own, with the entries that the walk updates (R389); none
where the address is not mapped. -/
def portPa (s : State) (uid : Nat) (va : Word) : Option (Nat × List (Nat × Nat)) :=
  let u := getUnit s uid
  match locate s uid va .write with
  | .ok (.mem pa) => some (pa, [])
  | _ =>
    let c := getCont s u.ident.key.cont
    if va.toNat / 2 ^ 56 ≠ 0 then none
    else match walkVa s.mem c.satp c.hgatp va.toNat true with
      | .mapped m => some (m.base + va.toNat % 2 ^ m.log2, m.sets)
      | _ => none

/-- An open level's pool when the level is discarded: its serial rises by one and it holds no record (R297, R313, R314). The header's 32 bytes lie in one page. A pool
that is not mapped keeps its bytes (log 47). -/
def bumpSerial (s : State) (uid : Nat) (l : CaskLevel) : State :=
  match portPa s uid l.pool with
  | some (pa, sets) =>
    let s := setEntries s sets
    { s with mem := memPutBytes s.mem pa (poolHeader (l.serial + 1) 0 32 (getUnit s uid).ident.key.cont) }
  | none => s

/-- A sequencer of a unit that stops living: nothing of it is in flight, its commands and results are gone (R141, R349). -/
def stopSeq (c : SeqState) : SeqState :=
  let c : SeqState := { c with
    status := if c.status = .exited then .exited else .stopped
    fl := Flight.init
    dq := { c.dq with dqout := [], dqin := [] } }
  c.mapEq fun e => { e with cmds := [], results := [] }

/-! ## Walks (R392, R397) -/

/-- A walk asked of a die, once for each waiter and address (R392). -/
def askWalk (s : State) (die : Nat) (w : Walk) : State :=
  let d := getDie s die
  let same (x : Walk) : Bool := x.waiter == w.waiter && x.agent == w.agent && x.va == w.va
  if d.walks.any same || d.faults.any (fun r => r.waiters.any same) || d.parkedFaults.any (fun x => same x.1) then s
  else modDie s die fun d => { d with walks := d.walks ++ [w] }

/-- Waiters that are parked, stopped or cancelled leave the walks and the fault records; a record stays, if need be without waiters (R397). -/
def dropWaiters (s : State) (p : Walk → Bool) : State :=
  if [0, 1, 2, 3].any fun d => (getDie s d).walks.any p || (getDie s d).parkedFaults.any (fun x => p x.1) ||
      (getDie s d).faults.any fun r => r.waiters.any p then
    [0, 1, 2, 3].foldl (fun s d => modDie s d fun k => { k with
      walks := k.walks.filter fun w => !(p w)
      parkedFaults := k.parkedFaults.filter fun w => !(p w.1)
      faults := k.faults.map fun r => { r with waiters := r.waiters.filter fun w => !(p w) } }) s
  else s

/-- Whether a walk is asked by a sequencer of a unit. -/
def Walk.bySeq (w : Walk) (uid : Nat) : Bool :=
  match w.waiter with
  | .seq v _ => v == uid
  | _ => false

/-- Whether a walk is asked for a node of a job. -/
def Walk.byJob (w : Walk) (cont job : Nat) : Bool :=
  match w.waiter with
  | .node k _ => k.cont == cont && k.job == job
  | _ => false

/-- The press without a holder (R244). DESIGN CHOICE (log 81): a reload that the end of its grant cuts short leaves a partial image in the cells, so they have no owner, as after a
reload that fails (R246). -/
def endGrant (p : PressState) : PressState :=
  { p with holder := none, unit := none, cmds := 0, expired := false, timedOut := false, reload := false
           owner := if p.reload then none else p.owner }

/-- The press once the unit of its holder has gone: the grant ends, or ends when the running command completes (R244, R257, R258). -/
def holderGone (p : PressState) : PressState := if p.cur.isSome then { p with expired := true } else endGrant p

/-- A unit stops living: nothing of it issues, its results in flight and its unstarted commands are discarded without tokens, its cask
levels with their records (R141, R314, R349). -/
def killUnit (s : State) (uid : Nat) : State :=
  let s := dropWaiters s fun w => w.bySeq uid
  let s := (getUnit s uid).levels.foldl (fun s l => bumpSerial s uid l) s
  -- what has issued is performed; records of the discarded levels are dropped
  let s := allSeqs.foldl (fun s q => (getSeq s uid q).fl.stores.foldl (fun s o => performFor s uid q o) s) s
  let s := modUnit s uid fun u =>
    let u : UnitState := { u with
      alive := false, levels := [], reads := [], tokens := [], bq := []
      vqin := { u.vqin with entries := [], part := 0 }
      vqout := { u.vqout with entries := [], part := 0 }
      place := { u.place with locks := u.place.locks.filter fun l =>
        !((u.seq l.issuer).eq l.eng).cmds.any fun c => c.seqNo == l.seqNo } }
    u.mapSeqs fun c => stopSeq c
  let s := modPress s ((getUnit s uid).place.core / 4) fun p => if p.unit = some uid then holderGone p else p
  reclaim s uid

/-- The jobs of a continuation that are kept: those not final, and the last 64 that ended; a job that ends goes to the end of the list (R320). -/
def trimJobs (js : List Job) : List Job :=
  let ended := js.filter fun j => statusFinal j.status
  let drop := ended.length - 64
  let old := (ended.take drop).map (·.id)
  js.filter fun j => !(old.contains j.id)

/-- A class clamped to no better than the one bound (R382). -/
def clampClass (c : ContState) (cls : Nat) : Nat := Nat.max (if cls = 0xFF then c.cls else cls) c.bind

/-- A job ends with a status: its marks retire, and with the last job those of the bound hart (R278, R279); its 4 KiB of scheduler state return, the end is released to those who join it, and the
attention entry of R353 is posted, but none for a revoked job or one of a terminated continuation (R334, R355). -/
def endJob (s : State) (cont job st : Nat) : State :=
  match findJob s cont job with
  | none => s
  | some j =>
    if statusFinal j.status then s
    else
      let acted (a : Agent) : Bool := a.kind ≤ 9 && a.cont == cont && a.launch / 2 ^ 32 == job
      let rel : Release := { agent := schedAgent (cont % 4) { cont := cont, job := job, phase := 0, node := 0 }, scope := 7,
                             hist := agentsHist s acted }
      let s := retireMarks s fun m => m.cont == cont && m.job == job
      let s := modJob s cont job fun j => { j with status := st, endRel := [rel] }
      let last := !((getCont s cont).jobs.any fun j => !(statusFinal j.status))
      let s := if last then retireMarks s fun m => m.agent.kind == 10 && m.cont == cont else s
      let s := modCont s cont fun c => { c with
        topAt := if clampClass c j.cls = 0 then s.stamp else c.topAt
        jobs := trimJobs ((c.jobs.filter fun j => j.id != job) ++ c.jobs.filter fun j => j.id == job) }
      let home := cont % 4
      let s := { s with sched := { s.sched with used := s.sched.used.setIfInBounds home ((s.sched.used[home]?.getD 0) - 4096) } }
      if st = 11 ∨ (getCont s cont).terminated.isSome then s
      else if st ≠ 0 ∨ (getCont s cont).flags.getLsbD 2 then postAttn s cont 1 st job
      else s

/-- A phase is cancelled and its job takes a status (R22, R369): it starts no further node, its launches stop without records, its
waiting and running nodes are cancelled. -/
def cancelPhase (s : State) (cont job st : Nat) : State :=
  match findJob s cont job with
  | none => s
  | some j =>
    if statusFinal j.status then s
    else
      let us := (s.units.filter fun p => p.2.alive && p.2.ident.key.cont == cont && p.2.ident.key.job == job).map Prod.fst
      let s := us.foldl (fun s uid =>
        let u := getUnit s uid
        let s := modNode s u.ident.key fun n =>
          if (tabGet n.units u.ident.index).isSome then n else { n with units := tabPut n.units u.ident.index 4 }
        killUnit s uid) s
      let stop (n : NodeRun) : NodeRun :=
        match n.status with
        | .complete => n
        | .failed => n
        | _ => { n with status := .cancelled }
      let s := modJob s cont job fun j =>
        let p := j.phase.map fun p => { p with status := 4, nodes := p.nodes.map stop }
        { j with phase := none, past := j.past ++ p.toList }
      endJob (dropWaiters s fun w => w.byJob cont job) cont job st

/-- A node fails and takes its phase with it (R369). -/
def failNode (s : State) (k : NodeKey) (st : Nat) : State :=
  cancelPhase (modNode s k fun n => { n with status := .failed }) k.cont k.job st

/-- The fault record of a sequencer or of an engine that acts for it (R351). -/
def seqFaultRecord (s : State) (uid : Nat) (q : Seq) (cause : Nat) (tval : Word) (word : IWord) (eng : Bool) (race : Option Race) :
    FaultRecord :=
  let u := getUnit s uid
  let c := u.seq q
  { cause := cause, agent := if eng then 4 else q.idx, jst := 3, active := c.tr.tstat.getLsbD 0, cont := u.ident.key.cont,
    gen := u.ident.gen, job := u.ident.key.job, phase := u.ident.key.phase,
    launch := u.ident.key.node % 65536 + u.ident.graph % 256 * 65536, core := u.place.core, tepc := c.pc, tval := tval,
    tvc := c.vc, word := word, lost := 0, stamp := s.stamp, race := race }

/-! ## Taking a trap, and the return (R130, R131, R159, R348, R349) -/

/-- Whether a cause enters the sequencer's handler: causes 1 to 9, with a vector installed and no handler running (R348). -/
def trapToHandler (c : SeqState) (cause : Nat) : Bool :=
  1 ≤ cause && cause ≤ 9 && c.tr.tvec != BitVec.allOnes 64 && !(c.tr.tstat.getLsbD 0)

/-- The fault that a sequencer's instruction boundary raises now: the first that waits, but a capacity fault of R305 waits while a handler
runs, and an exchange overrun of R373 waits for the word after the `SSYNC` that departs. -/
def dueFault (c : SeqState) : Option PendFault :=
  c.fl.faults.find? fun f => !(f.cause == 6 && c.tr.tstat.getLsbD 0) && !(f.cause == 7 && f.eng.isNone && c.fl.departed)

/-- The word at a sequencer's pc, as a trap's record shows it; 0 where it cannot be fetched (R351). -/
def wordAtPc (s : State) (uid : Nat) (q : Seq) : IWord :=
  let c := getSeq s uid q
  if c.pc.toNat % 4 ≠ 0 ∨ c.streamSize ≤ c.pc.toNat then 0
  else
    match locateN s uid (c.streamBase + c.pc) .fetch 4 with
    | .ok ps => BitVec.ofNat 32 (placesValue s ps)
    | .error _ => 0

/-- The trap registers with what an entry records: the cause, its value, the address and the virtual clock (R130, R159, R347). -/
def recordTrap (t : TrapRegs) (cause : Nat) (tval tepc vc : Word) : TrapRegs :=
  { t with tcause := BitVec.ofNat 64 cause, tval := tval, tepc := tepc, tvc := vc }

/-- The sequencer of a unit whose boundary raises a fault that stops the unit, with the fault. -/
def stopsToo (s : State) (uid : Nat) : Option (Seq × PendFault) :=
  allSeqs.findSome? fun q =>
    let u := getUnit s uid
    if u.place.resident && (getCore s u.place.core).issuing == some u.place.slot && (u.seq q).status == .running then
      match dueFault (u.seq q) with
      | some f => if trapToHandler (u.seq q) f.cause then none else some (q, f)
      | none => none
    else none

/-- A record among others by the number of its core (R349). -/
def insertCore (r : FaultRecord) : List FaultRecord → List FaultRecord
  | [] => [r]
  | x :: xs => if r.core < x.core then r :: x :: xs else x :: insertCore r xs

/-- The records that a stop posts, by core: the stopping unit's, and those of the other units of its launch that stop in the same cycle. DESIGN CHOICE (log 76): a fault
that waits at another unit's boundary may be raised in this cycle or not, as a free value says. -/
def stopRecords (s : State) (uid : Nat) (r : FaultRecord) : List FaultRecord :=
  ((unitsOf s (getUnit s uid).ident.key).filter fun v => v != uid).foldl (fun rs v =>
    match stopsToo s v with
    | some (q, f) =>
      if (Config.freeValue s.free).getLsbD ((getUnit s v).ident.index % 64) then
        insertCore (seqFaultRecord s v q f.cause f.tval (wordAtPc s v q) f.eng.isSome f.race) rs
      else rs
    | none => rs) [r]

/-- A unit stops on a fault: its trap registers say what it was, one record is posted, and its launch is cancelled at once with its job in status fault (R159, R349). -/
def stopUnit (s : State) (uid : Nat) (q : Seq) (cause : Nat) (tval : Word) (word : IWord) (eng : Bool) (race : Option Race) : State :=
  let k := (getUnit s uid).ident.key
  let rs := stopRecords s uid (seqFaultRecord s uid q cause tval word eng race)
  let s := modSeq { s with free := s.free + 1 } uid q fun c => { c with tr := recordTrap c.tr cause tval c.pc c.vc }
  let s := rs.foldl postFault s
  let s := modNode s k fun n => { n with units := (unitsOf s k).foldl (fun t v =>
    if rs.any fun r => r.core == (getUnit s v).place.core then tabPut t (getUnit s v).ident.index 3 else t) n.units }
  let s := failNode s k 3
  -- a unit without a job (placed from outside) stops all the same
  (unitsOf s k).foldl (fun s v => killUnit s v) s

/-- A pour that stops leaves the index of the next record in s[ra][31:0] (R311). -/
def stopPour (c : SeqState) : SeqState :=
  match c.fl.pour with
  | none => c
  | some (ra, k) =>
    let old := c.regs[ra]?.getD 0
    let c := c.setReg ra ((old &&& ~~~(0xFFFFFFFF#64)) ||| BitVec.ofNat 64 (k % 2 ^ 32))
    c.modFl fun f => { f with pour := none }

/-- The state of a sequencer that enters its handler: the clock saved, the running bank held, cause and value recorded, `TEPC` at
the word or after it, `ACT` 1 and `TKP` as the word's token pop stands (R130, R140, R159). -/
def enterHandler (c : SeqState) (cause : Nat) (tval tepc : Word) (tkp : Bool) : SeqState :=
  let c := stopPour c
  { c with
    pc := c.tr.tvec
    tr := { recordTrap c.tr cause tval tepc c.vc with tstat := if tkp then 5 else 1 }
    fl := { c.fl with held := c.fl.running, running := [], frozen := none, tkDone := false, data := false } }

/-- A sequencer takes a trap at the word at its pc (R159): into its handler, or the unit stops (R348, R349). An illegal word has made no token action (R68); any other word's pop
stands (R83). -/
def takeTrap (s : State) (uid : Nat) (q : Seq) (cause : Nat) (tval : Word) (word : IWord) (eng : Bool) (race : Option Race) : State :=
  let c := getSeq s uid q
  if trapToHandler c cause then
    modSeq s uid q fun c => enterHandler c cause tval c.pc c.fl.tkDone
  else stopUnit s uid q cause tval word eng race

/-- The engine queues of a sequencer run again when its handler returns (R186); held commands are checked again (R274). -/
def resumeQueues (c : SeqState) : SeqState :=
  c.mapEq fun e => { e with stopped := false, cmds := e.cmds.map fun k => { k with held := false } }

/-- A running command held at a race goes on (R274). -/
def releaseHold (r : Option RunCmd) (uid : Nat) (q : Seq) : Option RunCmd :=
  r.map fun c => if c.cmd.uid = uid ∧ c.cmd.issuer = q ∧ c.hold = .race then { c with hold := .none } else c

/-- The commands of a sequencer that are held at a race go on from their elements (R274). -/
def releaseHolds (s : State) (uid : Nat) (q : Seq) : State :=
  let core := (getUnit s uid).place.core
  let rel := fun e : EngineState => { e with run := releaseHold e.run uid q }
  let s := (List.range 4).foldl (fun s k =>
    modCore s (core / 4 * 4 + k) fun c => { c with
      copy := rel c.copy, gather := rel c.gather, row := rel c.row
      relocC := releaseHold c.relocC uid q, relocR := releaseHold c.relocR uid q }) s
  let s := modPress s (core / 4) fun p => { p with cur := releaseHold p.cur uid q }
  modDie s (core / 192) fun d => { d with coll := d.coll.map fun x =>
    if x.cmd.uid = uid ∧ x.cmd.issuer = q ∧ x.hold = .race then { x with hold := .none } else x }

/-- The return of a handler at a target, once its own results have landed: `ACT` and `TKP` 0, the clock back to `TVC`, the held entries
back in the running bank, and the token pop of the word there skipped when `TKP` was 1 (R131, R159). -/
def leaveHandler (c : SeqState) (target : Word) : SeqState :=
  { c with
    pc := target
    vc := c.tr.tvc
    status := .running
    tr := { c.tr with tstat := c.tr.tstat &&& 2 }
    fl := { c.fl with running := c.fl.held, held := [], frozen := none, tkDone := c.tr.tstat.getLsbD 2 } }

/-! ## Issue (R66, R81, R125, R135) -/

/-- Whether a sequencer may issue now: its unit lives, is resident in the slot that its core issues from, and the sequencer
runs (R125, R340). -/
def canIssue (s : State) (uid : Nat) (q : Seq) : Bool :=
  let u := getUnit s uid
  (tabGet s.units uid).isSome && u.alive && u.place.resident &&
    (getCore s u.place.core).issuing == some u.place.slot && (u.seq q).status == .running

/-- The capacity fault that a record without room raises at C's next boundary (R305): once, and again for a record that has waited only when C's handler
has returned. -/
def capacityFault (s : State) (uid : Nat) (tval : Word) (waited : Bool) : State :=
  let c := getSeq s uid .c
  if c.fl.faults.any (fun f => f.cause == 6 && f.tval == tval) || (waited && c.tr.tstat.getLsbD 0) then s
  else modSeq s uid .c fun c => c.modFl fun f =>
    { f with faults := f.faults ++ [{ cause := 6, tval := tval, eng := none, race := none }] }

/-- A sequencer frozen at its word; a miss asks its die for a walk, once (R392), a record without room raises C's capacity fault at its next
boundary, again only when C's handler has returned (R305), and a request that a budget holds up takes its place in the controller's queue (R401). -/
def setFrozen (s : State) (uid : Nat) (q : Seq) (w : Wait) : State :=
  let waited := (getSeq s uid q).fl.frozen == some w
  let s := modSeq s uid q fun c => c.modFl fun f => { f with frozen := some w }
  match w with
  | .walk die va kind =>
    let u := getUnit s uid
    askWalk s die { cont := u.ident.key.cont, gen := u.ident.gen, va := va, kind := kind, waiter := .seq uid q,
                    agent := seqAgent u uid q, core := u.place.core }
  | .capacity tval => capacityFault s uid tval waited
  | .budget _ ticket => queued s ticket
  | _ => s

/-- A token slot of a sequencer by the tk field: none for 0 (R66). -/
def tokSlot (c : SeqState) (tk : BitVec 2) : TokSlot :=
  if tk = 0#2 then { push := none, pop := none } else c.slots[tk.toNat - 1]?.getD { push := none, pop := none }

/-- The token pop of a word's slot: not made twice (R66, R140, R344); none while the queue is empty. -/
def tokenPop (s : State) (uid : Nat) (q : Seq) (slot : TokSlot) : Option State :=
  let c := getSeq s uid q
  match slot.pop with
  | none => some s
  | some p =>
    if c.fl.tkDone then some s
    else (popToken s uid q p).map fun t => modSeq t uid q fun c => c.modFl fun f => { f with tkDone := true }

/-- The activity of a word that issues: vector and predicate words from the rest by their major (R62, R408). -/
def countIssue (s : State) (c : Ctx) : State :=
  let m := (c.word.extractLsb' 27 5).toNat
  countUnit s c.uid fun a => if 18 ≤ m ∧ m ≤ 20 ∨ 24 ≤ m then { a with vector := a.vector + 1 } else { a with scalar := a.scalar + 1 }

/-- The state after a word has issued: nothing waits, its push is made if it retires at issue, and its virtual cycle ends (R67, R125,
R126). -/
def issued (s : State) (c : Ctx) (carried : Bool) : State :=
  let s := modSeq (countIssue s c) c.uid c.q fun sq => sq.modFl fun f => { f with frozen := none, tkDone := false, data := false }
  let s := if carried then s else retire s c.uid c.q (pushOf s c.uid c.q c.push)
  let s := if c.push.isSome then bumpRegion s (seqAgent (getUnit s c.uid) c.uid c.q) else s
  tick s c.uid c.q

/-- What a stop of a word makes of the state before its body (R125, R159). -/
def stopWord (s : State) (c : Ctx) : Stop → State
  | .freeze w none => setFrozen s c.uid c.q w
  | .freeze w (some t) => setFrozen (modSeq t c.uid c.q fun sq => { sq with pc := c.pc }) c.uid c.q w
  | .trap cause tval race none => takeTrap s c.uid c.q cause tval c.word false race
  | .trap cause tval race (some t) => takeTrap (modSeq t c.uid c.q fun sq => { sq with pc := c.pc }) c.uid c.q cause tval c.word false race

/-- The word of an instruction as `TVAL` shows it. -/
def wordOf (i : Instr) : IWord := (encode i).getD 0

/-- The context of a word at a sequencer. -/
def issueCtx (s : State) (i : Instr) (tk : BitVec 2) : Ctx :=
  let q := s.cur.q
  let c := getSeq s s.cur.uid q
  { uid := s.cur.uid, q := q, word := wordOf i, pc := c.pc, vc := c.vc, push := (tokSlot c tk).push }

/-- Whether an instruction jumps to a target that it reads from a register: it may still be illegal when its source comes (R150, R151). -/
def readsTarget : Instr → Bool
  | .jr .. => true
  | .callr .. => true
  | _ => false

/-- Whether a stop leaves the token pop of its word unmade (R68): an illegal-instruction trap does, and so does the wait of a jump for the register that may
make it illegal. -/
def Stop.unpops (i : Instr) : Stop → Bool
  | .trap cause _ _ _ => cause == 1
  | .freeze _ _ => readsTarget i

/-- The state with a sequencer's pc at the next word (R125). -/
def nextWord (s : State) (uid : Nat) (q : Seq) : State := modSeq s uid q fun c => { c with pc := c.pc + 4 }

/-- Earlier pushes of a sequencer that wait at retirement come before anything of its next word: they are made in order, and while one has no room the
sequencer waits (R66). -/
def afterPushes (s : State) (uid : Nat) (q : Seq) (k : State → Host.Outcome State Fault Refusal) : Host.Outcome State Fault Refusal :=
  let s := flushPushes 64 s uid q
  if (getSeq s uid q).fl.pushes ≠ [] then .next (setFrozen s uid q .retire) else k s

/-- A sequencer comes to a word (R66, R81): earlier pushes that wait at retirement are made first, a word that is illegal in it traps with no token action, and the
token pop of the word's slot follows. `k` goes on from the states before and after the pop. -/
def popThen (i : Instr) (tk : BitVec 2) (k : State → State → Host.Outcome State Fault Refusal) (s : State) : Host.Outcome State Fault Refusal :=
  let uid := s.cur.uid
  let q := s.cur.q
  if !(canIssue s uid q) then .next s
  else
    let ctx := issueCtx s i tk
    afterPushes s uid q fun s =>
      if !(i.legalIn q) then .next (takeTrap s uid q 1 (ctx.word.setWidth 64) ctx.word false none)
      else
        match tokenPop s uid q (tokSlot (getSeq s uid q) tk) with
        | none => .next (setFrozen s uid q (.queue (4 + ((tokSlot (getSeq s uid q) tk).pop.getD .c).idx)))
        | some p => k s p

/-- A sequencer issues a word (R66, R81, R125): after its token pop the body runs with the pc at the next word. `carried` says that the push is made later, by
a landing, a store or a command (R67). `after` acts at the boundary that follows a word that has issued. -/
def issueThen (i : Instr) (tk : BitVec 2) (carried : Bool) (body : Ctx → M Unit) (after : Ctx → State → State) (s : State) :
    Host.Outcome State Fault Refusal :=
  let ctx := issueCtx s i tk
  popThen i tk (fun r p => match body ctx (nextWord p s.cur.uid s.cur.q) with
    | .ok (_, t) => .next (after ctx (issued t ctx carried))
    | .error e => .next (stopWord (if e.unpops i then r else p) ctx e)) s

/-- A word that is illegal whatever its fields: it traps with no token action (R68, R154). -/
def issueIllegal (i : Instr) (s : State) : Host.Outcome State Fault Refusal :=
  let uid := s.cur.uid
  let q := s.cur.q
  if !(canIssue s uid q) then .next s
  else afterPushes s uid q fun s => .next (takeTrap s uid q 1 ((wordOf i).setWidth 64) (wordOf i) false none)

/-- A sequencer issues a word with nothing to follow at its boundary. -/
def issue (i : Instr) (tk : BitVec 2) (carried : Bool) (body : Ctx → M Unit) (s : State) : Host.Outcome State Fault Refusal :=
  issueThen i tk carried body (fun _ s => s) s

end Sys2Proof.Machine
end

