-- ==== Sys2Proof/Machine/Elem.lean ====
section
/-!
DEFINITION. Rows as elements of a format, and the conversion of a vector-queue entry as it is popped (R89, R139).
-/

namespace Sys2Proof.Machine

open Sys2Proof

/-- The elements of a row under a format: the low bits of each lane (R89). -/
def rowElems (f : Nat) (r : Row) : List Nat :=
  (List.range (laneCount f)).map fun k => rowLane r (laneBits f) k % 2 ^ fmtBits f

/-- A row of elements of a format, each in the low bits of its lane (R89). -/
def rowFrom (f : Nat) (xs : List Nat) : Row := rowOf (laneBits f) (xs.map fun x => x % 2 ^ fmtBits f)

/-- The tag of the compaction buffer, if it has one (R213, R226). -/
def XState.cmpTag (x : XState) : Option (BitVec 6) := if x.tv then some x.tag else none

/-- The width of the compaction buffer's elements: the lane width of its tag, or of `raw`. -/
def XState.cmpWidth (x : XState) : Nat := laneBits (x.cmpTag.getD 0).toNat

/-- The elements that the compaction buffer holds (R226). -/
def XState.cmp (x : XState) : List Nat := (List.range x.count).map fun i => bits x.buf.toNat (x.cmpWidth * i) x.cmpWidth

/-- The compaction buffer with elements under a tag; without a tag `TAG` reads 0. The bytes beyond the elements stay. -/
def XState.setCmp (x : XState) (es : List Nat) (t : Option (BitVec 6)) : XState :=
  let w := laneBits (t.getD 0).toNat
  let n := w * es.length
  let low := es.foldr (fun e acc => e % 2 ^ w + 2 ^ w * acc) 0
  { x with tv := t.isSome, tag := t.getD 0, count := es.length, buf := BitVec.ofNat 16384 (low + x.buf.toNat / 2 ^ n * 2 ^ n) }

/-- Elements converted one by one with their flags joined; none where one holds no value (R91, R98). -/
def convertAll (src dst : Nat) (mode : RMode) : List Nat → Option (List Nat × Flags)
  | [] => some ([], 0)
  | x :: r =>
    match convertElem src dst mode x, convertAll src dst mode r with
    | some (y, f), some (ys, g) => some (y :: ys, f ||| g)
    | _, _ => none

/-- What a pop of a queue gives: a value, a wait for an entry, or a format fault. -/
inductive Popped (α : Type) where
  | got (v : α)
  | wait
  | fault
  deriving Repr

/-- A `dqin` entry as a pop reads it (R139): the value and its flags; none for a format fault. DEDUCED (log 84): a sink of the source's own format passes all 64 bits, as a `raw` sink
does. -/
def dqinConvert (src snk : Nat) (v : Word) : Option (Word × Flags) :=
  if snk = 0 ∨ src = snk then some (v, 0)
  else
    let ext (b : Nat) : Word :=
      if fmtSigned snk || snk == 0x12 then BitVec.ofInt 64 (signedOf (fmtBits snk) b)
      else BitVec.ofNat 64 (b % 2 ^ fmtBits snk)
    if src = 0 then
      let b := v.toNat % 2 ^ fmtBits snk
      if snk = 0x12 ∧ b = 2 then none else some (ext b, 0)
    else (convertElem src snk .rne (v.toNat % 2 ^ fmtBits src)).map fun r => (ext r.1, r.2)

/-- The head of a vector queue as a pop reads it (R139): its tag and row, the flags, and the queue after the pop. DESIGN CHOICE (log 83): where
`QFMT` changes the sink while an entry is partly popped, the part popped so far stands, and the next pop goes on from it in the new format. -/
def vqPop (v : VecQueue) : Popped ((BitVec 6 × Row) × Flags × VecQueue) :=
  match v.entries with
  | [] => .wait
  | e :: r =>
    match e.val with
    | none => .wait
    | some (tag, row) =>
      let f := tag.toNat
      let g := v.snk.toNat
      if g = 0 ∨ f = g then .got ((tag, row), 0, { v with entries := r, part := 0 })
      else if !(convLegal f g) || laneBits g < laneBits f then .fault
      else
        let n := laneCount g
        match convertAll f g .rne (((rowElems f row).drop v.part).take n) with
        | none => .fault
        | some (xs, fl) =>
          let last := laneCount f ≤ v.part + n
          .got ((v.snk, rowFrom g xs), fl,
            if last then { v with entries := r, part := 0 } else { v with part := v.part + n })

end Sys2Proof.Machine
end

