-- ==== Sys2Proof/Machine/Operands.lean ====
section
/-!
DEFINITION. The operand forms: scalar, predicate and handle sources, vector sources and destinations, with their fixed roles (R122,
R123, R205 to R207), queue pops (R139, R140), locks (R203) and the checks of pending-bit debug mode (R135).
-/

namespace Sys2Proof.Machine

open Sys2Proof

/-! ## Pending-bit debug mode (R135) -/

/-- Whether a result for a register is in flight: it has issued and has not landed, whichever bank holds it. -/
def pendingReg (c : SeqState) (kind : LandKind) (n : Nat) : Bool :=
  (c.fl.running ++ c.fl.held).any fun e => e.kind == kind && e.dst == n

/-- A read of a pending register raises the pending-read trap while register checks are on; `TVAL` holds the register's number (R135,
R347). -/
def pendCheck (c : Ctx) (kind : LandKind) (n : Nat) : M Unit := do
  let sq ← theSeq c
  if sq.dbg.getLsbD 0 && pendingReg sq kind n then raise 9 (BitVec.ofNat 64 n) else pure ()

/-- The commands that have issued and not completed: those in the queues, those at work in the engines, the presses and the base dies. -/
def issuedCmds (s : State) : List EngCmd :=
  (s.units.flatMap fun x => allSeqs.flatMap fun q => [Eng.copy, .gather, .coll, .row, .press].flatMap fun e => ((x.2.seq q).eq e).cmds) ++
    (s.cores.flatMap fun x => [x.2.copy, x.2.gather, x.2.row].flatMap fun e => e.run.toList.map (·.cmd) ++ e.waiting.map (·.cmd)) ++
    (s.cores.flatMap fun x => (x.2.relocC.toList ++ x.2.relocR.toList).map (·.cmd)) ++
    (s.clusters.flatMap fun x => x.2.press.cur.toList.map (·.cmd)) ++
    [0, 1, 2, 3].flatMap fun d => (getDie s d).coll.map (·.cmd)

/-- Whether one of the rows that a command writes touches a scratchpad word (R135). -/
def boxTouches (s : State) (pa : Nat) (w : WriteBox) : Bool :=
  let b := spadPa (getUnit s w.owner) w.base
  0 < w.len && (List.range w.n3).any fun k => (List.range w.n2).any fun j => (List.range w.n1).any fun i =>
    let lo := w.start + i * w.s1 + j * w.s2 + k * w.s3
    (b + lo / 8) / 4 ≤ pa / 4 && pa / 4 ≤ (b + (lo + w.len - 1) / 8) / 4

/-- Whether a command writes a scratchpad word. -/
def cmdWrites (s : State) (pa : Nat) (k : EngCmd) : Bool := k.writes.any (boxTouches s pa)

/-- Whether a write to a place has issued and is not yet performed: a store of any sequencer, or an engine command, whose writes count until it completes (R135; log 77). -/
def pendingPlace (s : State) (p : Place) : Bool :=
  (s.units.any fun x => x.2.alive && allSeqs.any fun q =>
    ((x.2.seq q).fl.stores).any fun o => o.bytes.any fun b => b.1.word == p.word) ||
    match p with
    | .mem pa => (issuedCmds s).any (cmdWrites s pa)
    | .acc .. => false

/-- Whether a place is a scratchpad byte of a core. -/
def isSpad : Place → Bool
  | .mem pa => pa < 0x300000000 && pa % 0x1000000 < 0x180000
  | .acc .. => false

/-- A read of a pending scratchpad word that no lock of the issuing core covers raises the pending-read trap while scratchpad checks are on; `TVAL`
holds its address (R135, R347). The bytes read are given with their addresses. -/
def pendBytes (c : Ctx) (bs : List (Word × Place)) : M Unit := do
  let sq ← theSeq c
  if sq.dbg.getLsbD 1 then
    let s ← get
    let u ← theUnit c
    match bs.find? fun x => isSpad x.2 && pendingPlace s x.2 && !(u.place.locks.any fun l => lockForbids u c.uid true x.2 l) with
    | some x => raise 9 x.1
    | none => pure ()
  else pure ()

/-- The check of the n bytes that a word reads at an address, which comes before any fault, lock or wait of its issue (R81); bytes that are not there have no pending bit. -/
def pendAt (c : Ctx) (va : Word) (kind : AccKind) (n : Nat) : M Unit := fun s =>
  match locateN s c.uid va kind n with
  | .ok ps => pendBytes c (ps.zipIdx.map fun x => (va + BitVec.ofNat 64 x.2, x.1)) s
  | .error _ => .ok ((), s)

/-! ## Scalars, predicates and handles -/

/-- A pop of `dqin` (R122, R139, R140): the head leaves, its flags are set, and what an engine released with it is acquired (R172,
R270). -/
def popDqin (c : Ctx) : M Word := do
  let sq ← theSeq c
  match sq.dq.dqin with
  | [] => freeze (.queue 8)
  | e :: r =>
    match dqinConvert sq.dq.src.toNat sq.dq.snk.toNat e.val with
    | none => formatFault c
    | some (v, fl) => do
      updSeq c fun sq => { sq with dq := { sq.dq with dqin := r } }
      updUnit c fun u => { u with aflags := u.aflags ||| fl }
      match e.acq with
      | none => pure ()
      | some rel => upd fun s => acquireRel s (seqAgent (getUnit s c.uid) c.uid c.q) rel
      pure v

/-- A scalar source: s0 and s61 read 0, s60 pops `dqin` (R122). -/
def rs (c : Ctx) {w : Nat} (r : BitVec w) : M Word := do
  let n := r.toNat
  if n = 0 ∨ n = 61 then pure 0
  else if n = 60 then popDqin c
  else do
    pendCheck c .scalar n
    let sq ← theSeq c
    pure (sq.regs[n]?.getD 0)

/-- The check of a scalar source in pending-bit debug mode, which comes before the word pops or waits for anything (R81). DESIGN CHOICE (log 77): the registers of fixed roles are
never pending. -/
def pendScalar (c : Ctx) {w : Nat} (r : BitVec w) : M Unit :=
  if r.toNat = 0 ∨ r.toNat = 60 ∨ r.toNat = 61 then pure () else pendCheck c .scalar r.toNat

/-- Two scalar sources, ra before rb (R122). -/
def rs2 (c : Ctx) {w : Nat} (a b : BitVec w) : M (Word × Word) := do
  pendScalar c a
  pendScalar c b
  let x ← rs c a
  let y ← rs c b
  pure (x, y)

/-- A predicate source (R123). DESIGN CHOICE (log 77): a discarded write to p0 leaves p0 pending while it is in flight, as R135 says of each register. -/
def rp (c : Ctx) {w : Nat} (r : BitVec w) : M Mask := do
  pendCheck c .pred r.toNat
  let sq ← theSeq c
  pure (sq.pred r.toNat)

/-- A predicate of C, L or S: one bit (R121). -/
def rp1 (c : Ctx) {w : Nat} (r : BitVec w) : M Bool := do
  let m ← rp c r
  pure (m.getLsbD 0)

/-- A handle source. -/
def rh (c : Ctx) (n : Nat) : M Handle := do
  pendCheck c .handle n
  let sq ← theSeq c
  pure (sq.handles[n]?.getD 0)

/-! ## Vector names (R205 to R207) -/

/-- The logical row of vi, i from 0 to 29 (R205). -/
def vecRow (x : XState) (i : Nat) : Nat :=
  let k := x.k.toNat
  if i < k then (x.base.toNat + (i + x.rot.toNat) % k) % 256 else (x.base.toNat + i) % 256

/-- The virtual address of an accumulator row (R160). -/
def rowVa (row : Nat) : Word := BitVec.ofNat 64 (0xFF00000000200000 + row * 1024)

/-- X stalls at issue while a row it reads or writes is locked (R203). -/
def rowLock (c : Ctx) (row : Nat) : M Unit := seqLocks c [.acc c.uid row 0] true

/-- The check of a row in pending-bit debug mode (R135). -/
def pendRow (c : Ctx) (row : Nat) : M Unit := do
  pendCheck c .row row
  pendCheck c .tag row

/-- The check of a vector source in pending-bit debug mode, before the word pops or waits for anything (R81). -/
def pendVec (c : Ctx) (v : BitVec 5) : M Unit := do
  let u ← theUnit c
  if 30 ≤ v.toNat then pure () else pendRow c (vecRow u.xs v.toNat)

/-- A read of a row at issue: it stalls on a lock, and is a plain access to the row's bytes; a row whose group is not allotted reads zero and `raw` (R202 to
R204). -/
def readRow (c : Ctx) (row : Nat) : M (BitVec 6 × Row) := do
  pendRow c row
  rowLock c row
  let u ← theUnit c
  let a := seqAgent u c.uid c.q
  let s ← get
  match checkMark a (regionOf s a) u.ident.key.cont u.ident.key.job accVa false false [(.acc c.uid row 0, 256)] s with
  | .error r => raiseRace (rowVa row) r
  | .ok t => do
    set t
    pure (rowTag u row, getRow s c.uid row)

/-- A pop of `vqin` by X (R139, R207). -/
def popVqin (c : Ctx) : M (BitVec 6 × Row) := do
  let u ← theUnit c
  match vqPop u.vqin with
  | .wait => freeze (.queue 10)
  | .fault => formatFault c
  | .got (r, fl, v) => do
    updUnit c fun u => { u with vqin := v, aflags := u.aflags ||| fl }
    pure r

/-- A pop of `vqout` by S (R139, R196). -/
def popVqout (c : Ctx) : M (BitVec 6 × Row) := do
  let u ← theUnit c
  match vqPop u.vqout with
  | .wait => freeze (.queue 11)
  | .fault => formatFault c
  | .got (r, fl, v) => do
    updUnit c fun u => { u with vqout := v, aflags := u.aflags ||| fl }
    pure r

/-- A vector source: v30 pops `vqin`; v31 reads zero bits and has no tag of its own; any other names its row (R207). -/
def rv (c : Ctx) (v : BitVec 5) : M (Option (BitVec 6) × Row) := do
  let i := v.toNat
  if i = 31 then pure (none, 0)
  else if i = 30 then do
    let (t, r) ← popVqin c
    pure (some t, r)
  else do
    let u ← theUnit c
    let (t, r) ← readRow c (vecRow u.xs i)
    pure (some t, r)

/-- The tags of one or two sources: v31 takes the other's tag, or `raw` when there is no other (R207). -/
def tagOf (a : Option (BitVec 6)) : Nat := (a.getD 0).toNat

/-- A row result of latency L into a vector name, resolved now (R206, R207, R210): into a `vqout` entry reserved now, whose source format must permit the
tag (R137, R139); discarded for v31, flags set all the same; else into its row, whose group is allotted now (R201). `guard` is none when every lane is
written. -/
def landVec (c : Ctx) (vd : BitVec 5) (tag : Nat) (row : Row) (guard : Option Mask) (fl : Flags) (lat : Nat) : M Unit := do
  let i := vd.toNat
  let t := BitVec.ofNat 6 tag
  let e := c.entry .row 0 lat row
  if i = 31 then addLanding c { c.entry .scalar 0 lat 0 with flg := fl }
  else if i = 30 then do
    let u ← theUnit c
    if u.vqout.src ≠ 0 ∧ u.vqout.src ≠ t then formatFault c
    else if 8 ≤ u.vqout.entries.length then freeze (.queue 11)
    else do
      let sq ← theSeq c
      let rid := nextRid (u.vqout.entries.map (·.rid) ++ sq.fl.running.map (·.rid) ++ sq.fl.held.map (·.rid))
      updUnit c fun u => { u with vqout := { u.vqout with entries := u.vqout.entries ++ [{ rid := rid, val := none }] } }
      let kept := match guard with
        | none => row
        | some g => row &&& rowOf (laneBits tag) ((List.range (laneCount tag)).map fun k => if g.getLsbD k then 2 ^ laneBits tag - 1 else 0)
      addLanding c { e with kind := .vq, tag := t, payload := kept, flg := fl, rid := rid }
  else do
    let u ← theUnit c
    let r := vecRow u.xs i
    rowLock c r
    needGroup c r
    addLanding c { e with dst := r, tag := t, mask := guard, flg := fl }

end Sys2Proof.Machine
end

