-- ==== Sys2Proof/Machine/Alu.lean ====
section
/-!
DEFINITION. The scalar instructions of majors 0x01 to 0x03: `ALUR`, `ALUI` and `MOVHI` (R143 to R145), with the latencies of R127.
-/

namespace Sys2Proof.Machine

open Sys2Proof

/-! ## The functions of R143 -/

/-- 1 for true, 0 for false. -/
def boolWord (b : Bool) : Word := if b then 1 else 0

/-- `SLL`: a shifted left by b[5:0]. -/
def aluSll (a b : Word) : Word := a <<< (b.toNat % 64)

/-- `SRL`: a shifted right by b[5:0], filled with 0. -/
def aluSrl (a b : Word) : Word := a >>> (b.toNat % 64)

/-- `SRA`: a shifted right by b[5:0], filled with the sign. -/
def aluSra (a b : Word) : Word := a.sshiftRight (b.toNat % 64)

/-- `ROL`: a rotated left by b[5:0]. -/
def aluRol (a b : Word) : Word := a.rotateLeft (b.toNat % 64)

/-- `SLT`: 1 if a < b signed. -/
def aluSlt (a b : Word) : Word := boolWord (a.toInt < b.toInt)

/-- `SLTU`: 1 if a < b unsigned. -/
def aluSltu (a b : Word) : Word := boolWord (a.toNat < b.toNat)

/-- `MIN`: the signed minimum. -/
def aluMin (a b : Word) : Word := if a.toInt ≤ b.toInt then a else b

/-- `MAX`: the signed maximum. -/
def aluMax (a b : Word) : Word := if a.toInt ≤ b.toInt then b else a

/-- `MINU`: the unsigned minimum. -/
def aluMinu (a b : Word) : Word := if a.toNat ≤ b.toNat then a else b

/-- `MAXU`: the unsigned maximum. -/
def aluMaxu (a b : Word) : Word := if a.toNat ≤ b.toNat then b else a

/-- `MULH`: the high 64 bits of the signed product. -/
def aluMulh (a b : Word) : Word := BitVec.ofInt 64 (a.toInt * b.toInt / 2 ^ 64)

/-- `MULHU`: the high 64 bits of the unsigned product. -/
def aluMulhu (a b : Word) : Word := BitVec.ofNat 64 (a.toNat * b.toNat / 2 ^ 64)

/-- `DIV`: the quotient truncated toward zero; all ones for b = 0; −2^63 by −1 gives −2^63. -/
def aluDiv (a b : Word) : Word := if b = 0 then BitVec.allOnes 64 else BitVec.ofInt 64 (a.toInt.tdiv b.toInt)

/-- `DIVU`: the unsigned quotient; all ones for b = 0. -/
def aluDivu (a b : Word) : Word := if b = 0 then BitVec.allOnes 64 else BitVec.ofNat 64 (a.toNat / b.toNat)

/-- `REM`: what the quotient leaves; a for b = 0; 0 for −2^63 by −1. -/
def aluRem (a b : Word) : Word := if b = 0 then a else BitVec.ofInt 64 (a.toInt - a.toInt.tdiv b.toInt * b.toInt)

/-- `REMU`: what the unsigned quotient leaves; a for b = 0. -/
def aluRemu (a b : Word) : Word := if b = 0 then a else BitVec.ofNat 64 (a.toNat % b.toNat)

/-- The zeros above the highest 1 among the low n bits. -/
def leadingZeros (a : Nat) : Nat → Nat
  | 0 => 0
  | n + 1 => if a.testBit n then 0 else leadingZeros a n + 1

/-- The zeros below the lowest 1 among n bits from bit k. -/
def trailingZeros (a : Nat) (k : Nat) : Nat → Nat
  | 0 => 0
  | n + 1 => if a.testBit k then 0 else trailingZeros a (k + 1) n + 1

/-- The count of ones among the low n bits. -/
def countOnes (a : Nat) : Nat → Nat
  | 0 => 0
  | n + 1 => (if a.testBit n then 1 else 0) + countOnes a n

/-- `CLZ`: leading zeros, 64 for 0. -/
def aluClz (a : Word) : Word := BitVec.ofNat 64 (leadingZeros a.toNat 64)

/-- `CTZ`: trailing zeros, 64 for 0. -/
def aluCtz (a : Word) : Word := BitVec.ofNat 64 (trailingZeros a.toNat 0 64)

/-- `POPC`: the count of ones. -/
def aluPopc (a : Word) : Word := BitVec.ofNat 64 (countOnes a.toNat 64)

/-- `SEXT`: bits above bit n = b[5:0] replaced by copies of bit n. -/
def aluSext (a b : Word) : Word :=
  let n := b.toNat % 64 + 1
  (a <<< (64 - n)).sshiftRight (64 - n)

/-- `ZEXT`: bits above bit n = b[5:0] replaced by 0. -/
def aluZext (a b : Word) : Word :=
  let n := b.toNat % 64 + 1
  (a <<< (64 - n)) >>> (64 - n)

/-- A 32-bit result sign-extended from bit 31. -/
def word32 (a : BitVec 32) : Word := a.signExtend 64

/-- `ADDW`: the 32-bit sum. -/
def aluAddw (a b : Word) : Word := word32 (a.setWidth 32 + b.setWidth 32)

/-- `SUBW`: the 32-bit difference. -/
def aluSubw (a b : Word) : Word := word32 (a.setWidth 32 - b.setWidth 32)

/-- `MULW`: the low product. -/
def aluMulw (a b : Word) : Word := word32 (a.setWidth 32 * b.setWidth 32)

/-! ## Issue -/

/-- rd := f(s[ra], s[rb]) with latency L (R143). -/
def aluRR (i : Instr) (t : BitVec 2) (d a b : BitVec 6) (lat : Nat) (f : Word → Word → Word) (s : State) :
    Host.Outcome State Fault Refusal :=
  issue i t true (fun c => do
    let (x, y) ← rs2 c a b
    landScalar c d.toNat (f x y) lat) s

/-- rd := f(s[ra]) with latency L (R143, R144). -/
def aluR (i : Instr) (t : BitVec 2) (d a : BitVec 6) (lat : Nat) (f : Word → Word) (s : State) :
    Host.Outcome State Fault Refusal :=
  issue i t true (fun c => do
    let x ← rs c a
    landScalar c d.toNat (f x) lat) s

/-- `ADD`: a + b (R143), latency 1 (R127). -/
def execAdd (d a b : BitVec 6) (t : BitVec 2) (s : State) : Host.Outcome State Fault Refusal :=
  aluRR (.add d a b t) t d a b 1 (fun x y => x + y) s

/-- `SUB`: a − b (R143), latency 1 (R127). -/
def execSub (d a b : BitVec 6) (t : BitVec 2) (s : State) : Host.Outcome State Fault Refusal :=
  aluRR (.sub d a b t) t d a b 1 (fun x y => x - y) s

/-- `AND`: a and b (R143), latency 1 (R127). -/
def execAnd (d a b : BitVec 6) (t : BitVec 2) (s : State) : Host.Outcome State Fault Refusal :=
  aluRR (.and d a b t) t d a b 1 (fun x y => x &&& y) s

/-- `OR`: a or b (R143), latency 1 (R127). -/
def execOr (d a b : BitVec 6) (t : BitVec 2) (s : State) : Host.Outcome State Fault Refusal :=
  aluRR (.or d a b t) t d a b 1 (fun x y => x ||| y) s

/-- `XOR`: a xor b (R143), latency 1 (R127). -/
def execXor (d a b : BitVec 6) (t : BitVec 2) (s : State) : Host.Outcome State Fault Refusal :=
  aluRR (.xor d a b t) t d a b 1 (fun x y => x ^^^ y) s

/-- `ANDN`: a and not b (R143), latency 1 (R127). -/
def execAndn (d a b : BitVec 6) (t : BitVec 2) (s : State) : Host.Outcome State Fault Refusal :=
  aluRR (.andn d a b t) t d a b 1 (fun x y => x &&& ~~~y) s

/-- `SLL` (R143), latency 1 (R127). -/
def execSll (d a b : BitVec 6) (t : BitVec 2) (s : State) : Host.Outcome State Fault Refusal :=
  aluRR (.sll d a b t) t d a b 1 aluSll s

/-- `SRL` (R143), latency 1 (R127). -/
def execSrl (d a b : BitVec 6) (t : BitVec 2) (s : State) : Host.Outcome State Fault Refusal :=
  aluRR (.srl d a b t) t d a b 1 aluSrl s

/-- `SRA` (R143), latency 1 (R127). -/
def execSra (d a b : BitVec 6) (t : BitVec 2) (s : State) : Host.Outcome State Fault Refusal :=
  aluRR (.sra d a b t) t d a b 1 aluSra s

/-- `ROL` (R143), latency 1 (R127). -/
def execRol (d a b : BitVec 6) (t : BitVec 2) (s : State) : Host.Outcome State Fault Refusal :=
  aluRR (.rol d a b t) t d a b 1 aluRol s

/-- `SLT` (R143), latency 1 (R127). -/
def execSlt (d a b : BitVec 6) (t : BitVec 2) (s : State) : Host.Outcome State Fault Refusal :=
  aluRR (.slt d a b t) t d a b 1 aluSlt s

/-- `SLTU` (R143), latency 1 (R127). -/
def execSltu (d a b : BitVec 6) (t : BitVec 2) (s : State) : Host.Outcome State Fault Refusal :=
  aluRR (.sltu d a b t) t d a b 1 aluSltu s

/-- `MIN` (R143), latency 1 (R127). -/
def execMin (d a b : BitVec 6) (t : BitVec 2) (s : State) : Host.Outcome State Fault Refusal :=
  aluRR (.min d a b t) t d a b 1 aluMin s

/-- `MAX` (R143), latency 1 (R127). -/
def execMax (d a b : BitVec 6) (t : BitVec 2) (s : State) : Host.Outcome State Fault Refusal :=
  aluRR (.max d a b t) t d a b 1 aluMax s

/-- `MINU` (R143), latency 1 (R127). -/
def execMinu (d a b : BitVec 6) (t : BitVec 2) (s : State) : Host.Outcome State Fault Refusal :=
  aluRR (.minu d a b t) t d a b 1 aluMinu s

/-- `MAXU` (R143), latency 1 (R127). -/
def execMaxu (d a b : BitVec 6) (t : BitVec 2) (s : State) : Host.Outcome State Fault Refusal :=
  aluRR (.maxu d a b t) t d a b 1 aluMaxu s

/-- `MUL`: the low 64 bits of a × b (R143), latency 3 (R127). -/
def execMul (d a b : BitVec 6) (t : BitVec 2) (s : State) : Host.Outcome State Fault Refusal :=
  aluRR (.mul d a b t) t d a b 3 (fun x y => x * y) s

/-- `MULH` (R143), latency 3 (R127). -/
def execMulh (d a b : BitVec 6) (t : BitVec 2) (s : State) : Host.Outcome State Fault Refusal :=
  aluRR (.mulh d a b t) t d a b 3 aluMulh s

/-- `MULHU` (R143), latency 3 (R127). -/
def execMulhu (d a b : BitVec 6) (t : BitVec 2) (s : State) : Host.Outcome State Fault Refusal :=
  aluRR (.mulhu d a b t) t d a b 3 aluMulhu s

/-- `DIV` (R143), latency 18 (R127). -/
def execDiv (d a b : BitVec 6) (t : BitVec 2) (s : State) : Host.Outcome State Fault Refusal :=
  aluRR (.div d a b t) t d a b 18 aluDiv s

/-- `DIVU` (R143), latency 18 (R127). -/
def execDivu (d a b : BitVec 6) (t : BitVec 2) (s : State) : Host.Outcome State Fault Refusal :=
  aluRR (.divu d a b t) t d a b 18 aluDivu s

/-- `REM` (R143), latency 18 (R127). -/
def execRem (d a b : BitVec 6) (t : BitVec 2) (s : State) : Host.Outcome State Fault Refusal :=
  aluRR (.rem d a b t) t d a b 18 aluRem s

/-- `REMU` (R143), latency 18 (R127). -/
def execRemu (d a b : BitVec 6) (t : BitVec 2) (s : State) : Host.Outcome State Fault Refusal :=
  aluRR (.remu d a b t) t d a b 18 aluRemu s

/-- `CLZ` (R143), latency 1 (R127). -/
def execClz (d a : BitVec 6) (t : BitVec 2) (s : State) : Host.Outcome State Fault Refusal :=
  aluR (.clz d a t) t d a 1 aluClz s

/-- `CTZ` (R143), latency 1 (R127). -/
def execCtz (d a : BitVec 6) (t : BitVec 2) (s : State) : Host.Outcome State Fault Refusal :=
  aluR (.ctz d a t) t d a 1 aluCtz s

/-- `POPC` (R143), latency 1 (R127). -/
def execPopc (d a : BitVec 6) (t : BitVec 2) (s : State) : Host.Outcome State Fault Refusal :=
  aluR (.popc d a t) t d a 1 aluPopc s

/-- `SEXT` (R143), latency 1 (R127). -/
def execSext (d a b : BitVec 6) (t : BitVec 2) (s : State) : Host.Outcome State Fault Refusal :=
  aluRR (.sext d a b t) t d a b 1 aluSext s

/-- `ZEXT` (R143), latency 1 (R127). -/
def execZext (d a b : BitVec 6) (t : BitVec 2) (s : State) : Host.Outcome State Fault Refusal :=
  aluRR (.zext d a b t) t d a b 1 aluZext s

/-- `ADDW` (R143), latency 1 (R127). -/
def execAddw (d a b : BitVec 6) (t : BitVec 2) (s : State) : Host.Outcome State Fault Refusal :=
  aluRR (.addw d a b t) t d a b 1 aluAddw s

/-- `SUBW` (R143), latency 1 (R127). -/
def execSubw (d a b : BitVec 6) (t : BitVec 2) (s : State) : Host.Outcome State Fault Refusal :=
  aluRR (.subw d a b t) t d a b 1 aluSubw s

/-- `MULW` (R143), latency 3 (R127). -/
def execMulw (d a b : BitVec 6) (t : BitVec 2) (s : State) : Host.Outcome State Fault Refusal :=
  aluRR (.mulw d a b t) t d a b 3 aluMulw s

/-- `ADDI` (R144), latency 1 (R127). -/
def execAddi (d a : BitVec 6) (i : BitVec 10) (t : BitVec 2) (s : State) : Host.Outcome State Fault Refusal :=
  aluR (.addi d a i t) t d a 1 (fun x => x + i.signExtend 64) s

/-- `ANDI` (R144), latency 1 (R127). -/
def execAndi (d a : BitVec 6) (i : BitVec 10) (t : BitVec 2) (s : State) : Host.Outcome State Fault Refusal :=
  aluR (.andi d a i t) t d a 1 (fun x => x &&& i.signExtend 64) s

/-- `ORI` (R144), latency 1 (R127). -/
def execOri (d a : BitVec 6) (i : BitVec 10) (t : BitVec 2) (s : State) : Host.Outcome State Fault Refusal :=
  aluR (.ori d a i t) t d a 1 (fun x => x ||| i.signExtend 64) s

/-- `XORI` (R144), latency 1 (R127). -/
def execXori (d a : BitVec 6) (i : BitVec 10) (t : BitVec 2) (s : State) : Host.Outcome State Fault Refusal :=
  aluR (.xori d a i t) t d a 1 (fun x => x ^^^ i.signExtend 64) s

/-- `SLTI` (R144), latency 1 (R127). -/
def execSlti (d a : BitVec 6) (i : BitVec 10) (t : BitVec 2) (s : State) : Host.Outcome State Fault Refusal :=
  aluR (.slti d a i t) t d a 1 (fun x => aluSlt x (i.signExtend 64)) s

/-- `SLLI` (R144), latency 1 (R127). -/
def execSlli (d a : BitVec 6) (i : BitVec 10) (t : BitVec 2) (s : State) : Host.Outcome State Fault Refusal :=
  aluR (.slli d a i t) t d a 1 (fun x => aluSll x (i.setWidth 64)) s

/-- `SRLI` (R144), latency 1 (R127). -/
def execSrli (d a : BitVec 6) (i : BitVec 10) (t : BitVec 2) (s : State) : Host.Outcome State Fault Refusal :=
  aluR (.srli d a i t) t d a 1 (fun x => aluSrl x (i.setWidth 64)) s

/-- `SRAI` (R144), latency 1 (R127). -/
def execSrai (d a : BitVec 6) (i : BitVec 10) (t : BitVec 2) (s : State) : Host.Outcome State Fault Refusal :=
  aluR (.srai d a i t) t d a 1 (fun x => aluSra x (i.setWidth 64)) s

/-- `MOVHI`: rd := the signed immediate times 1,024 (R145), latency 1. -/
def execMovhi (d : BitVec 6) (i : BitVec 19) (t : BitVec 2) (s : State) : Host.Outcome State Fault Refusal :=
  issue (.movhi d i t) t true (fun c => landScalar c d.toNat (i.signExtend 64 * 1024) 1) s

end Sys2Proof.Machine
end

