-- ==== Sys2Proof/Machine/CaskPort.lean ====
section
/-!
DEFINITION. The cask port of a unit: records and their layout (R297, R302), their order, races and capacity (R303, R305), the lookup of loads
(R304), and the stage (R306).
-/

namespace Sys2Proof.Machine

open Sys2Proof

/-- Whether a unit collects (R300). -/
def collecting (u : UnitState) : Bool := !u.levels.isEmpty

/-- Whether an address is a global one (R388). -/
def isGlobalVa (va : Word) : Bool := va.toNat / 2 ^ 56 == 0

/-! ## Records (R302) -/

/-- The size of a record in a pool. -/
def CaskRec.size (r : CaskRec) : Nat := if r.rk = 1 then 32 + (r.data.length + 31) / 32 * 32 else 32

/-- The meta word of a record. -/
def CaskRec.metaWord (r : CaskRec) : Nat :=
  (r.data.length - 1) % 4096 + r.rk * 2 ^ 23 + r.afn * 2 ^ 25 + r.ord * 2 ^ 29 + r.scp * 2 ^ 32 + (if r.szw then 2 ^ 36 else 0) +
    r.agt * 2 ^ 40

/-- The bytes of a record in a pool: header, and for a block its payload padded with zeros. -/
def CaskRec.bytes (r : CaskRec) : List Byte :=
  leBytes 8 r.vaddr.toNat ++ leBytes 8 r.paddr ++ leBytes 8 r.metaWord ++
    (if r.rk = 1 then leBytes 8 0 ++ r.data ++ List.replicate (r.size - 32 - r.data.length) 0
     else leBytes 8 (leValue r.data))

/-- A record read back from the 32 bytes of its header and the payload that follows. -/
def readRecord (hdr : List Byte) (payload : Nat → List Byte) : CaskRec :=
  let va := leValue (hdr.take 8)
  let pa := leValue ((hdr.drop 8).take 8)
  let m := leValue ((hdr.drop 16).take 8)
  let d := leValue ((hdr.drop 24).take 8)
  let rk := bits m 23 2
  let len := bits m 0 12 + 1
  { vaddr := BitVec.ofNat 64 va, paddr := pa, rk := rk, afn := bits m 25 4, ord := bits m 29 3, scp := bits m 32 4,
    szw := m.testBit 36, agt := bits m 40 8, data := if rk = 1 then payload len else leBytes (Nat.min len 8) d,
    agent := extAgent, region := 0 }

/-- Whether a record covers a byte by physical address (R304). -/
def CaskRec.covers (r : CaskRec) (pa : Nat) : Bool := r.paddr ≤ pa && pa < r.paddr + r.data.length

/-- A record's byte at a physical address that it covers. -/
def CaskRec.byteAt (r : CaskRec) (pa : Nat) : Byte := r.data[pa - r.paddr]?.getD 0

/-- The open levels, the innermost first; `LVL` of the innermost (R298). -/
def innerLevel (u : UnitState) : Nat := u.levels.length - 1

/-! ## Order within the unit (R303) -/

/-- Whether what an agent did in a region happens before what another does now (R271). -/
def actedBefore (s : State) (a b : Agent) (region : Nat) : Bool :=
  b == a || region < (tabGet (histOf s a) b).getD 0

/-- The race record of the port: both agents are the unit's, and the physical address is the record's (R303). -/
def portRace (u : UnitState) (va : Word) (pa : Nat) (a : Agent) (region : Nat) (write : Bool) (b : Agent) (region' : Nat)
    (write' : Bool) : Race :=
  { vaddr := va, paddr := pa, late := a, early := b, regionLate := region, regionEarly := region',
    contLate := u.ident.key.cont, contEarly := u.ident.key.cont,
    kinds := (if write then 1#32 else 0#32) ||| (if write' then 2#32 else 0#32), jobEarly := u.ident.key.job }

/-- The race of a load's byte with a record of another agent (R303). -/
def loadRace (s : State) (u : UnitState) (a : Agent) (region : Nat) (va : Word) (pa : Nat) : Option Race :=
  ((u.levels.flatMap fun l => l.recs).find? fun r => r.covers pa && !(actedBefore s a r.agent r.region)).map fun r =>
    portRace u va r.paddr a region false r.agent r.region true

/-- The race of a record with a record or load of another agent (R303). -/
def recordRace (s : State) (u : UnitState) (r : CaskRec) : Option Race :=
  let meets (lo hi : Nat) := r.paddr < hi && lo < r.paddr + r.data.length
  match (u.levels.flatMap fun l => l.recs).find? fun x =>
      meets x.paddr (x.paddr + x.data.length) && !(actedBefore s r.agent x.agent x.region) with
  | some x => some (portRace u r.vaddr r.paddr r.agent r.region true x.agent x.region true)
  | none =>
    (u.reads.find? fun x => meets x.lo x.hi && !(actedBefore s r.agent x.agent x.region)).map fun x =>
      portRace u r.vaddr r.paddr r.agent r.region true x.agent x.region false

/-! ## Acceptance (R300, R305, R306) -/

/-- What the port says to a record. -/
inductive Accept where
  | taken (s : State)
  | race (r : Race)
  | full (tval : Word)

/-- The `TVAL` of a capacity fault of R305. -/
def capacityVal (r : CaskRec) (level : Nat) : Word :=
  BitVec.ofNat 64 (r.agt % 256 + level % 4 * 256 + r.size % 65536 * 65536)

/-- The bytes of a record written in a level's stage, from a place in it that the manual leaves open (R306, log 14). -/
def stageWrite (s : State) (u : UnitState) (l : CaskLevel) (bs : List Byte) : State :=
  let n := l.stageN * 4096
  let at0 := (Config.freeValue s.free).toNat
  let s := { s with free := s.free + 1 }
  if n = 0 then s
  else (bs.zipIdx).foldl (fun s x => { s with mem := memPut s.mem (spadPa u (l.stage + (at0 + x.2) % n)) x.1 }) s

/-- The port accepts a record into a level, if the level stands, no race forbids it and it fits (R300, R303, R305). A record of a level that is gone
is discarded (R300). -/
def acceptRecord (s : State) (uid : Nat) (id : Nat) (r : CaskRec) : Accept :=
  let u := getUnit s uid
  match u.levels.findIdx? fun l => l.id == id with
  | none => .taken s
  | some i =>
    match u.levels[i]? with
    | none => .taken s
    | some l =>
      match recordRace s u r with
      | some x => .race x
      | none =>
        if l.cap < l.used + r.size then .full (capacityVal r (u.levels.length - 1 - i))
        else
          let s := stageWrite s u l r.bytes
          .taken (modUnit s uid fun u => { u with levels := u.levels.map fun x =>
            if x.id = id then { x with used := x.used + r.size, recs := x.recs ++ [r] } else x })

/-- The pieces of a write whose bytes stay within 4 KiB of virtual address (R302). -/
def pagePieces (va : Nat) : List Byte → List Place → List (Nat × List Byte × List Place)
  | b :: bs, p :: ps =>
    match pagePieces (va + 1) bs ps with
    | [] => [(va, [b], [p])]
    | (v, cs, qs) :: r =>
      if v % 4096 = 0 then (va, [b], [p]) :: (v, cs, qs) :: r else (va, b :: cs, p :: qs) :: r
  | _, _ => []

/-- A record of an agent for one piece of a write. -/
def makeRecord (a : Agent) (region rk : Nat) (o : Option AtomOp) (va : Nat) (bs : List Byte) (p : Place) : CaskRec :=
  { vaddr := BitVec.ofNat 64 va, paddr := match p with | .mem pa => pa | .acc .. => 0
    rk := rk
    afn := match o with | some x => x.fn | none => 0
    ord := match o with | some x => x.ord | none => 0
    scp := match o with | some x => x.scope | none => 0
    szw := match o with | some x => x.w32 | none => false
    agt := a.kind, data := bs, agent := a, region := region }

/-- A sequencer's records offered in order to the innermost level: the acceptance is precise, and a record without room raises the capacity fault
at C's own store or freezes the sequencer (R303, R305). DEDUCED (log 45): C's own store raises it at once also while C's handler runs, which stops the unit (R348). -/
def offerRecords (c : Ctx) : List CaskRec → M Unit
  | [] => pure ()
  | r :: rest => do
    let s ← get
    match (getUnit s c.uid).levels with
    | [] => pure ()
    | l :: _ =>
      match acceptRecord s c.uid l.id r with
      | .race x => raiseRace r.vaddr x
      | .full tval => if c.q = .c then raise 6 tval else freeze (.capacity tval)
      | .taken s => do
        set s
        offerRecords c rest

/-- Whether the record that a sequencer waits to have accepted was dropped by an abort (R313): its write is done. -/
def recordDropped (sq : SeqState) : Bool :=
  sq.fl.data && match sq.fl.frozen with
    | some (.capacity _) => true
    | _ => false

/-- Whether a write of a sequencer to an address is collected (R301): the unit collects, or it did and an abort has dropped the record (R313). -/
def collectsWrite (u : UnitState) (sq : SeqState) (va : Word) : Bool := (collecting u || recordDropped sq) && isGlobalVa va

/-- A collected write of a sequencer to a global address (R301, R302): records of kind `rk`, 0 store, 1 block, 2 deferred atomic. The acceptance
retires it. -/
def collectWrite (c : Ctx) (va : Word) (rk : Nat) (o : Option AtomOp) (bs : List Byte) : M Unit := do
  let sq ← theSeq c
  if recordDropped sq then pure ()
  else do
    let ps ← seqPlaces c va .write bs.length
    let s ← get
    let a := seqAgent (getUnit s c.uid) c.uid c.q
    offerRecords c ((pagePieces va.toNat bs ps).map fun x =>
      makeRecord a (regionOf s a) rk o x.1 x.2.1 (x.2.2.headD (.mem 0)))
  upd fun s => retire s c.uid c.q (pushOf s c.uid c.q c.push)

/-! ## Reads (R147, R304) -/

/-- Where a byte that a unit's agent reads comes from. -/
inductive ByteSource where
  | memory
  | record (b : Byte)
  | deferred

/-- The lookup of one byte in the open levels, the innermost first (R304). -/
def lookupByte (pa : Nat) : List CaskLevel → ByteSource
  | [] => .memory
  | l :: r =>
    if l.recs.any fun x => x.rk == 2 && x.covers pa then .deferred
    else
      match l.recs.reverse.find? fun x => x.covers pa with
      | some x => .record (x.byteAt pa)
      | none => lookupByte pa r

/-- Why a read gives no value. -/
inductive ReadErr where
  /-- an earlier atomic of the sequencer stands on the byte (R147) -/
  | wait
  /-- a deferred atomic record covers the byte (R304) -/
  | deferred
  /-- a race -/
  | race (r : Race)

/-- What the sequencer's own stores that have issued say of a byte, the latest first (R147): `some none` for an atomic. -/
def ownStore (p : Place) (os : List StoreOp) : Option (Option Byte) :=
  os.reverse.findSome? fun o =>
    (o.bytes.reverse.find? fun b => b.1 = p).map fun b => if o.atom.isSome then none else some b.2

/-- The sources of the bytes of a read: the sequencer's own stores, the records of the open levels, memory (R147, R304). `none` marks a byte
from memory. -/
def readSources (s : State) (uid : Nat) (a : Agent) (region : Nat) (va : Word) (own : List StoreOp) :
    List Place → Except ReadErr (List (Place × Option Byte))
  | [] => .ok []
  | p :: ps =>
    match readSources s uid a region (va + 1) own ps with
    | .error e => .error e
    | .ok r =>
      match ownStore p own with
      | some none => .error .wait
      | some (some b) => .ok ((p, some b) :: r)
      | none =>
        let u := getUnit s uid
        match p with
        | .acc .. => .ok ((p, none) :: r)
        | .mem pa =>
          match loadRace s u a region va pa with
          | some x => .error (.race x)
          | none =>
            match lookupByte pa u.levels with
            | .memory => .ok ((p, none) :: r)
            | .record b => .ok ((p, some b) :: r)
            | .deferred => .error .deferred

/-- The runs of consecutive physical bytes of places. -/
def byteRuns : List Place → List (Nat × Nat)
  | [] => []
  | .acc .. :: r => byteRuns r
  | .mem pa :: r =>
    match byteRuns r with
    | (lo, hi) :: rest => if pa + 1 = lo then (pa, hi) :: rest else (pa, pa + 1) :: (lo, hi) :: rest
    | [] => [(pa, pa + 1)]

/-- A read of a collecting unit's agent kept for the check of R303. -/
def keepRead (u : UnitState) (a : Agent) (region : Nat) (ps : List Place) : UnitState :=
  { u with reads := (byteRuns ps).map (fun x => { lo := x.1, hi := x.2, agent := a, region := region }) ++ u.reads }

/-- A plain read of places by an agent of a unit (R147, R274, R304): bytes from memory are checked and marked; while the unit collects, every
global byte read is kept for the check of R303. -/
def plainRead (s : State) (uid : Nat) (a : Agent) (region : Nat) (va : Word) (own : List StoreOp) (ps : List Place) :
    Except ReadErr (List Byte × State) :=
  match readSources s uid a region va own ps with
  | .error e => .error e
  | .ok src =>
    let u := getUnit s uid
    let plain := (src.filter fun x => x.2.isNone).map Prod.fst
    match checkMark a region u.ident.key.cont u.ident.key.job (wordVa va ps) false false (placeRuns plain) s with
    | .error r => .error (.race r)
    | .ok t =>
      let t := if collecting u && isGlobalVa va then modUnit t uid fun u => keepRead u a region ps else t
      .ok (src.map fun x => x.2.getD (placeGet s x.1), t)

end Sys2Proof.Machine
end

