-- ==== Sys2Proof/Machine/LoadStore.lean ====
section
/-!
DEFINITION. The scalar loads and stores (R146, R147), with the latencies of R127 and what collecting makes of them (R301, R304).
-/

namespace Sys2Proof.Machine

open Sys2Proof

/-- A sequencer's plain read of n bytes (R146, R147): the check of pending-bit debug mode, translation, locks, then the bytes. -/
def loadBytes (c : Ctx) (va : Word) (n : Nat) : M (List Byte) := do
  pendAt c va .read n
  let ps ← seqPlaces c va .read n
  seqLocks c ps false
  let s ← get
  let u ← theUnit c
  let a := seqAgent u c.uid c.q
  match plainRead s c.uid a (regionOf s a) va (getSeq s c.uid c.q).fl.stores ps with
  | .error .wait => freeze .atomic
  | .error .deferred => formatFault c
  | .error (.race r) => raiseRace va r
  | .ok (bs, t) => do
    set t
    pure bs

/-- The latency of a load: 10 while the unit collects, else 4 (R127). -/
def loadLatency (u : UnitState) : Nat := if collecting u then 10 else 4

/-- The row groups that a store to accumulator bytes needs (R201). -/
def needGroups (c : Ctx) : List Place → M Unit
  | [] => pure ()
  | .acc _ row _ :: r => do
    needGroup c row
    needGroups c r
  | .mem _ :: r => needGroups c r

/-- A sequencer's plain write of bytes (R146, R147): it is checked and marked now, and performed later; `due` counts the virtual cycles of a vector
store. -/
def storeBytes (c : Ctx) (va : Word) (ps : List Place) (bs : List Byte) (due : Nat) : M Unit := do
  seqLocks c ps true
  needGroups c ps
  seqAccess c va ps true false
  upd fun s => modSeq s c.uid c.q fun sq => sq.modFl fun f =>
    { f with stores := f.stores ++ [{ bytes := ps.zip bs, atom := none, va := va, due := due,
                                      push := pushOf s c.uid c.q c.push, rels := [] }] }

/-- A sequencer's write of bytes at an address: a record while the unit collects and the address is global, else a plain store (R301). -/
def writeBytes (c : Ctx) (va : Word) (rk : Nat) (bs : List Byte) : M Unit := do
  let u ← theUnit c
  let sq ← theSeq c
  if collectsWrite u sq va then collectWrite c va rk none bs
  else do
    let ps ← seqPlaces c va .write bs.length
    storeBytes c va ps bs 0

/-- The address of a format-M access: s[ra] + off11 × size (R146). -/
def accessAddr (base : Word) (o : BitVec 11) (z : BitVec 2) : Word := base + o.signExtend 64 * BitVec.ofNat 64 (2 ^ z.toNat)

/-- A load into rd, sign-extended when asked (R146). -/
def loadInto (c : Ctx) (d a : BitVec 6) (o : BitVec 11) (z : BitVec 2) (signed : Bool) : M Unit := do
  let base ← rs c a
  let n := 2 ^ z.toNat
  let bs ← loadBytes c (accessAddr base o z) n
  let u ← theUnit c
  let v := if signed then BitVec.ofInt 64 (signedOf (8 * n) (leValue bs)) else BitVec.ofNat 64 (leValue bs)
  landScalar c d.toNat v (loadLatency u)

/-- `LD`: rd := the zero-extended value (R146). -/
def execLd (d a : BitVec 6) (o : BitVec 11) (z : BitVec 2) (t : BitVec 2) (s : State) : Host.Outcome State Fault Refusal :=
  issue (.ld d a o z t) t true (fun c => loadInto c d a o z false) s

/-- `LDS`: rd := the sign-extended value (R146). -/
def execLds (d a : BitVec 6) (o : BitVec 11) (z : BitVec 2) (t : BitVec 2) (s : State) : Host.Outcome State Fault Refusal :=
  issue (.lds d a o z t) t true (fun c => loadInto c d a o z true) s

/-- `ST`: writes the low bytes of s[rd] (R146). -/
def execSt (d a : BitVec 6) (o : BitVec 11) (z : BitVec 2) (t : BitVec 2) (s : State) : Host.Outcome State Fault Refusal :=
  issue (.st d a o z t) t true (fun c => do
    let (base, v) ← rs2 c a d
    writeBytes c (accessAddr base o z) 0 (leBytes (2 ^ z.toNat) v.toNat)) s

end Sys2Proof.Machine
end

