-- ==== Sys2Proof/Machine/Atomic.lean ====
section
/-!
DEFINITION. The atomic instructions (R284, R285), and what collecting makes of them (R301, R304).
-/

namespace Sys2Proof.Machine

open Sys2Proof

/-- Whether a function and its destination form a returning instruction (R284): every form but `AST` with rd ≠ s0. -/
def returning (fn : Nat) (d : BitVec 5) : Bool := fn != 1 && d != 0

/-- Whether a form freezes its sequencer until it is performed (R285): a returning one, and any of an order stronger than `rlx` and `rel`. -/
def atomicFreezes (fn : Nat) (d : BitVec 5) (ord : Nat) : Bool := returning fn d || ord == 1 || 3 ≤ ord

/-- An atomic of a sequencer performed now (R270, R274, R284): checked and marked, its reads and releases in the order of memory, then the
single-copy atomic step; the old value. -/
def performNow (c : Ctx) (va : Word) (ps : List Place) (o : AtomOp) : M Nat := do
  let s ← get
  let writes := (atomNew o (placesValue s ps)).isSome
  seqAccess c va ps writes true
  let s ← get
  let a := seqAgent (getUnit s c.uid) c.uid c.q
  let ks := wordKeys s ps
  let s := if o.fn = 1 then s else atomicReadOrder s a ks o.ord o.scope
  let (old, t) := performAtomic s ps o (if writes then writeRels s a o.ord o.scope else [])
  upd fun _ => bumpRegion t a
  pure old

/-- A non-returning atomic that always writes enters the sequencer's stores and is performed in their order (R285). -/
def atomicLater (c : Ctx) (va : Word) (ps : List Place) (o : AtomOp) : M Unit := do
  seqAccess c va ps true true
  let s ← get
  let a := seqAgent (getUnit s c.uid) c.uid c.q
  let rels := writeRels s a o.ord o.scope
  upd fun s => modSeq s c.uid c.q fun sq => sq.modFl fun f =>
    { f with stores := f.stores ++ [{ bytes := ps.map fun p => (p, 0), atom := some o, va := va, due := 0, push := none, rels := rels }] }
  upd fun s => bumpRegion s a

/-- Whether a place is a byte of an accumulator row. -/
def isAcc : Place → Bool
  | .acc .. => true
  | .mem _ => false

/-- An atomic on memory (R285); its result lands with a latency. A non-returning `ALD` or `ACAS`, which may write nothing, is checked by what it does (R279, R284), so
it is performed at its issue, after the sequencer's earlier stores (log 17). -/
def atomicMem (c : Ctx) (va : Word) (o : AtomOp) (d : BitVec 5) (lat : Nat) : M Unit := do
  let ps ← seqPlaces c va .atomic o.size
  if ps.any isAcc then windowFault c
  else do
    seqLocks c ps (o.fn != 0)
    if atomicFreezes o.fn d o.ord then do
      let sq ← theSeq c
      if sq.fl.stores.isEmpty then do
        let old ← performNow c va ps o
        if returning o.fn d then landScalar c d.toNat (BitVec.ofNat 64 old) lat else pure ()
      else freeze .atomic
    else if o.fn = 0 ∨ o.fn = 3 then do
      upd fun s => performAll s c.uid c.q
      let _ ← performNow c va ps o
    else atomicLater c va ps o

/-- `ALD` to a global address while the unit collects: the lookup of R304, with its 6 cycles; where it takes no byte from a record, an atomic load (R301), kept for the check
of R303. -/
def collectLoad (c : Ctx) (va : Word) (o : AtomOp) (d : BitVec 5) : M Unit := do
  let ps ← seqPlaces c va .atomic o.size
  let s ← get
  let u ← theUnit c
  let a := seqAgent u c.uid c.q
  match readSources s c.uid a (regionOf s a) va (getSeq s c.uid c.q).fl.stores ps with
  | .error .wait => freeze .atomic
  | .error .deferred => formatFault c
  | .error (.race r) => raiseRace va r
  | .ok src =>
    if src.all fun x => x.2.isNone then do
      let g := regionOf s a
      atomicMem c va o d 10
      updUnit c fun u => keepRead u a g ps
    else do
      let bs ← loadBytes c va o.size
      upd fun s => bumpRegion s a
      landScalar c d.toNat (BitVec.ofNat 64 (leValue bs)) 10

/-- The body of an atomic instruction: address s[ra], operand b = s[rb], and for `ACAS` the expected value c = s[rd] (R284). -/
def atomicBody (c : Ctx) (fn : Nat) (d a b : BitVec 5) (ord scope : Nat) (w32 : Bool) : M Unit := do
  if fn = 3 then pendScalar c d else pure ()
  let (va, x) ← rs2 c a b
  let y ← if fn = 3 then rs c d else pure 0
  let o : AtomOp := { fn := fn, ord := ord, scope := scope, w32 := w32, b := x, c := y }
  if fn = 1 then pure () else pendAt c va .atomic o.size
  let u ← theUnit c
  if va.toNat % o.size ≠ 0 then windowFault c
  else if collectsWrite u (u.seq c.q) va then
    if fn = 0 then collectLoad c va o d
    else if returning fn d then formatFault c
    else do
      upd fun s => bumpRegion s (seqAgent u c.uid c.q)
      collectWrite c va (if fn = 1 ∧ ord = 0 then 0 else 2) (if fn = 1 ∧ ord = 0 then none else some o) (leBytes o.size x.toNat)
  else atomicMem c va o d 4

/-- `ALD`: rd := the word (R284). -/
def execAld (d a : BitVec 5) (o : BitVec 3) (x : BitVec 4) (z : BitVec 1) (s : State) : Host.Outcome State Fault Refusal :=
  issue (.ald d a o x z) 0 true (fun c => atomicBody c 0 d a 0 o.toNat x.toNat (z == 1)) s

/-- `AST`: the word := b (R284). -/
def execAst (a b : BitVec 5) (o : BitVec 3) (x : BitVec 4) (z : BitVec 1) (s : State) : Host.Outcome State Fault Refusal :=
  issue (.ast a b o x z) 0 true (fun c => atomicBody c 1 0 a b o.toNat x.toNat (z == 1)) s

/-- `ASWP`: the word := b, rd := old (R284). -/
def execAswp (d a b : BitVec 5) (o : BitVec 3) (x : BitVec 4) (z : BitVec 1) (s : State) : Host.Outcome State Fault Refusal :=
  issue (.aswp d a b o x z) 0 true (fun c => atomicBody c 2 d a b o.toNat x.toNat (z == 1)) s

/-- `ACAS`: the word := b if old = s[rd], rd := old (R284). -/
def execAcas (d a b : BitVec 5) (o : BitVec 3) (x : BitVec 4) (z : BitVec 1) (s : State) : Host.Outcome State Fault Refusal :=
  issue (.acas d a b o x z) 0 true (fun c => atomicBody c 3 d a b o.toNat x.toNat (z == 1)) s

/-- `AADD`: old + b (R284). -/
def execAadd (d a b : BitVec 5) (o : BitVec 3) (x : BitVec 4) (z : BitVec 1) (s : State) : Host.Outcome State Fault Refusal :=
  issue (.aadd d a b o x z) 0 true (fun c => atomicBody c 4 d a b o.toNat x.toNat (z == 1)) s

/-- `AAND`: AND (R284). -/
def execAand (d a b : BitVec 5) (o : BitVec 3) (x : BitVec 4) (z : BitVec 1) (s : State) : Host.Outcome State Fault Refusal :=
  issue (.aand d a b o x z) 0 true (fun c => atomicBody c 5 d a b o.toNat x.toNat (z == 1)) s

/-- `AOR`: OR (R284). -/
def execAor (d a b : BitVec 5) (o : BitVec 3) (x : BitVec 4) (z : BitVec 1) (s : State) : Host.Outcome State Fault Refusal :=
  issue (.aor d a b o x z) 0 true (fun c => atomicBody c 6 d a b o.toNat x.toNat (z == 1)) s

/-- `AXOR`: XOR (R284). -/
def execAxor (d a b : BitVec 5) (o : BitVec 3) (x : BitVec 4) (z : BitVec 1) (s : State) : Host.Outcome State Fault Refusal :=
  issue (.axor d a b o x z) 0 true (fun c => atomicBody c 7 d a b o.toNat x.toNat (z == 1)) s

/-- `AMIN`: the signed minimum (R284). -/
def execAmin (d a b : BitVec 5) (o : BitVec 3) (x : BitVec 4) (z : BitVec 1) (s : State) : Host.Outcome State Fault Refusal :=
  issue (.amin d a b o x z) 0 true (fun c => atomicBody c 8 d a b o.toNat x.toNat (z == 1)) s

/-- `AMAX`: the signed maximum (R284). -/
def execAmax (d a b : BitVec 5) (o : BitVec 3) (x : BitVec 4) (z : BitVec 1) (s : State) : Host.Outcome State Fault Refusal :=
  issue (.amax d a b o x z) 0 true (fun c => atomicBody c 9 d a b o.toNat x.toNat (z == 1)) s

/-- `AMINU`: the unsigned minimum (R284). -/
def execAminu (d a b : BitVec 5) (o : BitVec 3) (x : BitVec 4) (z : BitVec 1) (s : State) : Host.Outcome State Fault Refusal :=
  issue (.aminu d a b o x z) 0 true (fun c => atomicBody c 10 d a b o.toNat x.toNat (z == 1)) s

/-- `AMAXU`: the unsigned maximum (R284). -/
def execAmaxu (d a b : BitVec 5) (o : BitVec 3) (x : BitVec 4) (z : BitVec 1) (s : State) : Host.Outcome State Fault Refusal :=
  issue (.amaxu d a b o x z) 0 true (fun c => atomicBody c 11 d a b o.toNat x.toNat (z == 1)) s

/-- `AFADD`: F32 old + b, rounded once (R284). -/
def execAfadd (d a b : BitVec 5) (o : BitVec 3) (x : BitVec 4) (s : State) : Host.Outcome State Fault Refusal :=
  issue (.afadd d a b o x) 0 true (fun c => atomicBody c 12 d a b o.toNat x.toNat true) s

/-- `SIGDEC`: old − b (R284). -/
def execSigdec (d a b : BitVec 5) (o : BitVec 3) (x : BitVec 4) (s : State) : Host.Outcome State Fault Refusal :=
  issue (.sigdec d a b o x) 0 true (fun c => atomicBody c 13 d a b o.toNat x.toNat false) s

/-- `SIGADD`: old + b (R284). -/
def execSigadd (d a b : BitVec 5) (o : BitVec 3) (x : BitVec 4) (s : State) : Host.Outcome State Fault Refusal :=
  issue (.sigadd d a b o x) 0 true (fun c => atomicBody c 14 d a b o.toNat x.toNat false) s

end Sys2Proof.Machine
end

