-- ==== Sys2Proof/Machine/Flags.lean ====
section
/-!
DEFINITION. The flags of `AFLAGS` as instructions read and clear them (R97), and the conditions that branches and `PSET` compute from a
scalar (R148, R152).
-/

namespace Sys2Proof.Machine

open Sys2Proof

/-- What reading `AFLAGS` gives: the sticky bits [4:0] (R97). -/
def readFlags (u : UnitState) : Word := u.aflags.setWidth 64

/-- A write of `AFLAGS` clears each flag whose bit is 1 (R97). -/
def clearFlags (u : UnitState) (v : Word) : UnitState := { u with aflags := u.aflags &&& ~~~(v.setWidth 5) }

/-- Events set flags by a logical OR (R98). -/
def setFlags (u : UnitState) (f : Flags) : UnitState := { u with aflags := u.aflags ||| f }

/-- The six signed comparisons with 0, codes 0 to 5: =, ≠, <, ≥, >, ≤ (R148, R152). -/
def signCond (code : Nat) (v : Word) : Bool :=
  match code with
  | 0 => v == 0
  | 1 => v != 0
  | 2 => v.toInt < 0
  | 3 => 0 ≤ v.toInt
  | 4 => 0 < v.toInt
  | _ => v.toInt ≤ 0

/-- The condition of `PSET` in a sequencer of one-bit predicates: codes 0 to 5 as above, 6 bit 0 of the scalar (R152). -/
def psetCond (code : Nat) (v : Word) : Bool := if code = 6 then v.getLsbD 0 else signCond code v

/-- The mask that `PSET` writes in X: every bit the one condition, or for `.firstn` (7) the bits below the scalar read unsigned
(R152). -/
def psetMask (code : Nat) (v : Word) : Mask :=
  if code = 7 then BitVec.ofNat 1024 (2 ^ Nat.min v.toNat 1024 - 1)
  else if psetCond code v then BitVec.allOnes 1024 else 0

end Sys2Proof.Machine
end

