-- ==== Sys2Proof/Machine/Clock.lean ====
section
/-!
DEFINITION. The frequencies of the body-bias levels and a cluster's effective clock (R26, R411), and the words that `GCEIL`, `ENRD` and
`IDENT` return (R154, R157).
-/

namespace Sys2Proof.Machine

open Sys2Proof

/-- The frequency of a body-bias level in MHz (R411). -/
def biasMHz : Nat → Nat
  | 0 => 800
  | 1 => 900
  | 2 => 1000
  | 3 => 1100
  | 4 => 1200
  | 5 => 1300
  | 6 => 1450
  | _ => 1600

/-- The frequency that the bias allows: of the present level, or the lower of two levels during a move (R26). -/
def biasLimit (c : ClusterState) : Nat :=
  match c.moving with
  | none => biasMHz c.bias
  | some t => Nat.min (biasMHz c.bias) (biasMHz t)

/-- The effective clock of a cluster in MHz: the least of bias, group ceiling and arbiter grant (R26). -/
def effectiveClock (s : State) (cl : Nat) : Nat :=
  let c := getCluster s cl
  Nat.min (biasLimit c) (Nat.min s.group.ceiling c.grant)

/-- The level that a cluster has, or moves to (R157). -/
def targetLevel (c : ClusterState) : Nat := c.moving.getD c.bias

/-- A cluster set to a level (R411): a move begins, never up without thermal headroom (R413). A move that is redirected starts from the lower of its two
levels. -/
def setLevel (s : State) (cl lvl : Nat) : State :=
  let c := getCluster s cl
  if lvl = targetLevel c ∨ targetLevel c < lvl ∧ c.headroom = false then s
  else modCluster s cl fun c => { c with bias := Nat.min c.bias (targetLevel c), moving := some lvl }

/-- What `GCEIL` returns: the ceiling in [15:0], the cluster's effective clock in [31:16], the membership state in [34:32]
(R154). -/
def gceilWord (s : State) (cl : Nat) : Word :=
  BitVec.ofNat 64 (s.group.ceiling % 65536 + effectiveClock s cl % 65536 * 65536 + s.group.state % 8 * 2 ^ 32)

/-- What `ENRD` 1 returns: the quota remaining, signed; 2^63 − 1 without a quota (R410). -/
def quotaLeft (e : EnergyState) : Word := if e.quota = 0 then BitVec.ofNat 64 (2 ^ 63 - 1) else BitVec.ofInt 64 e.left

/-- The bytes still unspent in this period, the reserve included, summed over some of a die's controllers (R402). -/
def budgetLeft (s : State) (die : Nat) (ks : List Nat) : Nat := ks.foldl (fun n k => n + (budgetOf s (6 * die + k) - spentOf s (6 * die + k))) 0

/-- The identifier that `IDENT` returns for a selector (R157). DESIGN CHOICE (log 85): selector 9 follows the group's state, as R421 says it reads 0 after leaving, although R157 calls
the values fixed for the unit's lifetime. -/
def identWord (s : State) (u : UnitState) (n : Nat) : Word :=
  let k := u.ident.key
  let core := u.place.core
  BitVec.ofNat 64 <|
    match n with
    | 0 => u.ident.index
    | 1 => u.ident.size
    | 2 => core / 4
    | 3 => core / 192
    | 4 => (k.job * 65536 + k.phase) * 65536 + k.node
    | 5 => k.job * 65536 + k.phase
    | 6 => k.job
    | 7 => k.cont
    | 8 => u.superstep
    | 9 => if s.group.state = 6 then 0 else s.group.index
    | 10 => core % 4
    | _ => core

/-- The reading that `ENRD` returns for a selector (R157, R402). -/
def energyWord (s : State) (u : UnitState) (n : Nat) : Word :=
  let e := (getCont s u.ident.key.cont).energy
  let core := u.place.core
  match n with
  | 0 => BitVec.ofNat 64 e.charged
  | 1 => quotaLeft e
  | 2 => BitVec.ofNat 64 u.energy
  | 3 =>
    let c := getCluster s (core / 4)
    BitVec.ofNat 64 (targetLevel c)
  | 4 => BitVec.ofNat 64 (budgetLeft s (core / 192) [0, 1])
  | _ => BitVec.ofNat 64 (budgetLeft s (core / 192) [2, 3, 4, 5])

end Sys2Proof.Machine
end

