-- ==== Sys2Proof/Machine/Sys.lean ====
section
/-!
DEFINITION. The system instructions of major 0x00 (R154 to R159).
-/

namespace Sys2Proof.Machine

open Sys2Proof

/-! ## Special registers (R155) -/

/-- A special register as `MFS` reads it. -/
def readSpecial (u : UnitState) (q : Seq) (n : Nat) : Word :=
  let c := u.seq q
  match n with
  | 0 => readFlags u
  | 1 => c.tr.tvec
  | 2 => c.tr.tcause
  | 3 => c.tr.tval
  | 4 => c.tr.tepc
  | 5 => c.tr.tstat
  | 6 => c.tr.tvc
  | 7 => c.tr.wperm
  | 8 => c.tr.wpermh
  | 9 => BitVec.ofNat 64 c.dq.target.idx
  | _ => 0

/-- The trap registers after `MTS` writes register n by its access code (R8, R155): `TCAUSE` and `TVAL` are read only, `TSTAT` takes its bits
`TKP` and `ACT` and keeps `DBG`, `WPERMH` takes bits [27:0] and in X only `PRED`. -/
def writeTrapReg (t : TrapRegs) (q : Seq) (n : Nat) (v : Word) : TrapRegs :=
  match n with
  | 1 => { t with tvec := v }
  | 4 => { t with tepc := v }
  | 5 => { t with tstat := (v &&& 5) ||| (t.tstat &&& 2) }
  | 6 => { t with tvc := v }
  | 7 => { t with wperm := v }
  | 8 => { t with wpermh := v &&& (if q = .x then 0xFFF0000 else 0xFFFFFFF) }
  | _ => t

/-- A unit after `MTS` in one of its sequencers: `AFLAGS` is the unit's, the others the sequencer's (R155). -/
def writeSpecial (u : UnitState) (q : Seq) (n : Nat) (v : Word) : UnitState :=
  if n = 0 then clearFlags u v else u.setSeq q { u.seq q with tr := writeTrapReg (u.seq q).tr q n v }

/-! ## The instructions -/

/-- `ILL`: an illegal-instruction trap, whatever its fields (R154). -/
def execIll (d a i : BitVec 6) (t : BitVec 2) (s : State) : Host.Outcome State Fault Refusal :=
  issueIllegal (.ill d a i t) s

/-- `NOP` (R154). -/
def execNop (t : BitVec 2) (s : State) : Host.Outcome State Fault Refusal :=
  issue (.nop t) t false (fun _ => pure ()) s

/-- `HALT` stops fetch (R158); `RESULT_LAND` and `SEQUENCER_EXIT` do the rest. -/
def execHalt (t : BitVec 2) (s : State) : Host.Outcome State Fault Refusal :=
  issue (.halt t) t false (fun c => updSeq c fun sq => { sq with status := .halting }) s

/-- A sequencer takes the trap of a `TRAP` that has issued: `TEPC` is the next word (R159). -/
def softwareTrap (s : State) (uid : Nat) (q : Seq) (code : Word) (word : IWord) : State :=
  let c := getSeq s uid q
  if trapToHandler c 8 then modSeq s uid q fun c => enterHandler c 8 code c.pc false
  else stopUnit s uid q 8 code word false none

/-- `TRAP n`: the software trap, cause 8 with `TVAL` n, taken at the boundary after the word (R159, R347). -/
def execTrap (i : BitVec 6) (t : BitVec 2) (s : State) : Host.Outcome State Fault Refusal :=
  issueThen (.trap i t) t false (fun _ => pure ()) (fun c s => softwareTrap s c.uid c.q (i.setWidth 64) c.word) s

/-- Whether a code address lies in a sequencer's stream section (R151). -/
def codeLegal (sq : SeqState) (a : Word) : Bool := a.toNat % 4 == 0 && a.toNat < sq.streamSize

/-- A sequencer leaves its handler for a target once the handler's results have landed; its engine queues run again and its held commands go on
as the return issues (R131, R159, R186, R274). -/
def beginReturn (s : State) (uid : Nat) (q : Seq) (target : Word) : State :=
  releaseHolds (modSeq s uid q fun c => { resumeQueues c with status := .returning target }) uid q

/-- `RETT`: the return of a handler, which completes once its own results have landed (R131); with `ACT` 0 a jump to `TEPC` (R159).
A `TEPC` outside the section is a jump target that R151 refuses. -/
def execRett (t : BitVec 2) (s : State) : Host.Outcome State Fault Refusal :=
  issue (.rett t) t false (fun c => do
    let sq ← theSeq c
    if !(codeLegal sq sq.tr.tepc) then raise 1 sq.tr.tepc
    else if sq.tr.tstat.getLsbD 0 then upd fun s => beginReturn s c.uid c.q sq.tr.tepc
    else updSeq c fun sq => { sq with pc := sq.tr.tepc }) s

/-- `MFS`: rd := a special register (R155). -/
def execMfs (d i : BitVec 6) (t : BitVec 2) (s : State) : Host.Outcome State Fault Refusal :=
  issue (.mfs d i t) t true (fun c => do
    let u ← theUnit c
    landScalar c d.toNat (readSpecial u c.q i.toNat) 1) s

/-- A scalar source with the flags that its pop raises, which are not yet set. -/
def rsFlags (c : Ctx) {w : Nat} (r : BitVec w) : M (Word × Flags) := do
  let u ← theUnit c
  updUnit c fun u => { u with aflags := 0 }
  let v ← rs c r
  let t ← theUnit c
  updUnit c fun x => { x with aflags := u.aflags }
  pure (v, t.aflags)

/-- A unit after `MTS`, with flags raised in the same virtual cycle, which a clear of `AFLAGS` leaves set (R98). -/
def writeRaised (u : UnitState) (q : Seq) (n : Nat) (v : Word) (fl : Flags) : UnitState :=
  let u := writeSpecial u q n v
  { u with aflags := u.aflags ||| fl }

/-- `MTS`: a special register := s[ra], by its access code (R155). -/
def execMts (a i : BitVec 6) (t : BitVec 2) (s : State) : Host.Outcome State Fault Refusal :=
  issue (.mts a i t) t false (fun c => do
    let (v, fl) ← rsFlags c a
    updUnit c fun u => writeRaised u c.q i.toNat v fl) s

/-- `VCYC`: rd := the virtual clock at issue (R154). -/
def execVcyc (d : BitVec 6) (t : BitVec 2) (s : State) : Host.Outcome State Fault Refusal :=
  issue (.vcyc d t) t true (fun c => landScalar c d.toNat c.vc 1) s

/-- `DBGPEND`: rd := the previous mode of pending-bit debug; the mode := m (R135, R154). -/
def execDbgpend (d i : BitVec 6) (t : BitVec 2) (s : State) : Host.Outcome State Fault Refusal :=
  issue (.dbgpend d i t) t true (fun c => do
    let sq ← theSeq c
    landScalar c d.toNat (sq.dbg.setWidth 64) 1
    updSeq c fun sq => { sq with dbg := i.setWidth 2 }) s

/-- A unit stopped at a `BKPT` under a debugger: its four sequencers stop, and the issuing one records the debug event, cause 10
(R154, R347). -/
def debugStop (u : UnitState) (q : Seq) (pc : Word) (code : Word) : UnitState :=
  let u := u.mapSeqs fun c => if c.status = .exited then c else { c with status := .stopped }
  let c := u.seq q
  u.setSeq q { c with tr := { c.tr with tcause := 10, tval := code, tepc := pc, tstat := c.tr.tstat ||| 2 } }

/-- `BKPT n`: with a debugger attached the unit stops at this word, which has not issued; otherwise nothing (R154). -/
def execBkpt (i : BitVec 6) (t : BitVec 2) (s : State) : Host.Outcome State Fault Refusal :=
  if (getUnit s s.cur.uid).debugger then
    popThen (.bkpt i t) t (fun _ p => .next (modUnit p s.cur.uid fun u => debugStop u s.cur.q (u.seq s.cur.q).pc (i.setWidth 64))) s
  else issue (.bkpt i t) t false (fun _ => pure ()) s

/-- The event flags that a mask of `SEV` sets: C, L and S for bits 0, 1 and 3 (R154). -/
def setEvents (u : UnitState) (m : BitVec 6) : UnitState :=
  [Seq.c, Seq.l, Seq.s].foldl (fun u q => if m.getLsbD q.idx then u.setSeq q { u.seq q with event := true } else u) u

/-- `SEV` (R154, R158). -/
def execSev (i : BitVec 6) (t : BitVec 2) (s : State) : Host.Outcome State Fault Refusal :=
  issue (.sev i t) t false (fun c => updUnit c fun u => setEvents u i) s

/-- The other sequencers in the order C, L, X, S (R35, R156). -/
def otherSeqs (q : Seq) : List Seq := allSeqs.filter fun r => !(r == q)

/-- A peer of a token slot by its code: none for 0, else the first, second or third of the other sequencers (R156). -/
def peerOf (q : Seq) (code : Nat) : Option Seq := if code = 0 then none else (otherSeqs q)[code - 1]?

/-- `TKCFG`: sets token slot k, its push peer and its pop peer (R156). -/
def execTkcfg (i : BitVec 6) (t : BitVec 2) (s : State) : Host.Outcome State Fault Refusal :=
  issue (.tkcfg i t) t false (fun c => updSeq c fun sq =>
    { sq with slots := sq.slots.setIfInBounds (bits i.toNat 4 2 - 1)
                { push := peerOf c.q (bits i.toNat 2 2), pop := peerOf c.q (bits i.toNat 0 2) } }) s

/-- `IDENT`: rd := an identifier (R157). -/
def execIdent (d i : BitVec 6) (t : BitVec 2) (s : State) : Host.Outcome State Fault Refusal :=
  issue (.ident d i t) t true (fun c => do
    let s ← get
    let u ← theUnit c
    landScalar c d.toNat (identWord s u i.toNat) 1) s

/-- `PACE`: the pacing register of one of the sequencer's command queues := min(s[ra], 65,535) (R414). -/
def execPace (a i : BitVec 6) (t : BitVec 2) (s : State) : Host.Outcome State Fault Refusal :=
  issue (.pace a i t) t false (fun c => do
    let v ← rs c a
    match engOfQueue i.toNat with
    | none => pure ()
    | some e => upd fun s => modEq s c.uid c.q e fun x => { x with pace := BitVec.ofNat 16 (Nat.min v.toNat 65535) }) s

/-- `ENRD`: rd := an energy reading (R157). -/
def execEnrd (d i : BitVec 6) (t : BitVec 2) (s : State) : Host.Outcome State Fault Refusal :=
  issue (.enrd d i t) t true (fun c => do
    let s ← get
    let u ← theUnit c
    landScalar c d.toNat (energyWord s u i.toNat) 1) s

/-- `GCEIL`: rd := the group ceiling, the cluster's clock and the membership state (R154). -/
def execGceil (d : BitVec 6) (t : BitVec 2) (s : State) : Host.Outcome State Fault Refusal :=
  issue (.gceil d t) t true (fun c => do
    let s ← get
    let u ← theUnit c
    landScalar c d.toNat (gceilWord s (u.place.core / 4)) 1) s

end Sys2Proof.Machine
end

