-- ==== Sys2Proof/Machine/Branch.lean ====
section
/-!
DEFINITION. Branches, jumps and calls (R148 to R151).
-/

namespace Sys2Proof.Machine

open Sys2Proof

/-- The address of a word plus four times a signed word offset (R148, R149). -/
def codeTarget (c : Ctx) {w : Nat} (o : BitVec w) : Word := c.pc + o.signExtend 64 * 4

/-- Control goes to a code address; one outside the section raises the illegal-instruction trap with the target in `TVAL` (R151). -/
def goTo (c : Ctx) (a : Word) : M Unit := do
  let sq ← theSeq c
  if codeLegal sq a then updSeq c fun sq => { sq with pc := a } else raise 1 a

/-- A link register written with the address of the next word, latency 1 (R149, R150); the word itself retires at issue (R67). -/
def link (c : Ctx) (d : Nat) : M Unit := landScalar { c with push := none } d (c.pc + 4) 1

/-- A branch on a signed comparison of s[ra] with 0 (R148). -/
def branchSign (i : Instr) (t : BitVec 2) (code : Nat) (a : BitVec 6) (o : BitVec 15) (s : State) : Host.Outcome State Fault Refusal :=
  issue i t false (fun c => do
    let v ← rs c a
    if signCond code v then goTo c (codeTarget c o) else pure ()) s

/-- A branch on a predicate (R148). -/
def branchPred (i : Instr) (t : BitVec 2) (want : Bool) (a : BitVec 6) (o : BitVec 15) (s : State) : Host.Outcome State Fault Refusal :=
  issue i t false (fun c => do
    let v ← rp1 c a
    if v == want then goTo c (codeTarget c o) else pure ()) s

/-- A branch on the bit popped from `bq`, which freezes while the queue is empty (R148). -/
def branchQueue (i : Instr) (t : BitVec 2) (want : Bool) (o : BitVec 15) (s : State) : Host.Outcome State Fault Refusal :=
  issue i t false (fun c => do
    let u ← theUnit c
    match u.bq with
    | [] => freeze (.queue 12)
    | b :: r => do
      updUnit c fun u => { u with bq := r }
      if b == want then goTo c (codeTarget c o) else pure ()) s

/-- `BEQZ`: taken when s[ra] = 0, signed (R148). -/
def execBeqz (a : BitVec 6) (o : BitVec 15) (t : BitVec 2) (s : State) : Host.Outcome State Fault Refusal :=
  branchSign (.beqz a o t) t 0 a o s

/-- `BNEZ`: taken when s[ra] ≠ 0, signed (R148). -/
def execBnez (a : BitVec 6) (o : BitVec 15) (t : BitVec 2) (s : State) : Host.Outcome State Fault Refusal :=
  branchSign (.bnez a o t) t 1 a o s

/-- `BLTZ`: taken when s[ra] < 0, signed (R148). -/
def execBltz (a : BitVec 6) (o : BitVec 15) (t : BitVec 2) (s : State) : Host.Outcome State Fault Refusal :=
  branchSign (.bltz a o t) t 2 a o s

/-- `BGEZ`: taken when s[ra] ≥ 0, signed (R148). -/
def execBgez (a : BitVec 6) (o : BitVec 15) (t : BitVec 2) (s : State) : Host.Outcome State Fault Refusal :=
  branchSign (.bgez a o t) t 3 a o s

/-- `BGTZ`: taken when s[ra] > 0, signed (R148). -/
def execBgtz (a : BitVec 6) (o : BitVec 15) (t : BitVec 2) (s : State) : Host.Outcome State Fault Refusal :=
  branchSign (.bgtz a o t) t 4 a o s

/-- `BLEZ`: taken when s[ra] ≤ 0, signed (R148). -/
def execBlez (a : BitVec 6) (o : BitVec 15) (t : BitVec 2) (s : State) : Host.Outcome State Fault Refusal :=
  branchSign (.blez a o t) t 5 a o s

/-- `BP`: taken when p[ra] is 1 (R148). -/
def execBp (a : BitVec 6) (o : BitVec 15) (t : BitVec 2) (s : State) : Host.Outcome State Fault Refusal :=
  branchPred (.bp a o t) t true a o s

/-- `BNP`: taken when p[ra] is 0 (R148). -/
def execBnp (a : BitVec 6) (o : BitVec 15) (t : BitVec 2) (s : State) : Host.Outcome State Fault Refusal :=
  branchPred (.bnp a o t) t false a o s

/-- `BQ`: taken when the bit popped from `bq` is 1 (R148). -/
def execBq (o : BitVec 15) (t : BitVec 2) (s : State) : Host.Outcome State Fault Refusal :=
  branchQueue (.bq o t) t true o s

/-- `BNQ`: taken when the bit popped from `bq` is 0 (R148). -/
def execBnq (o : BitVec 15) (t : BitVec 2) (s : State) : Host.Outcome State Fault Refusal :=
  branchQueue (.bnq o t) t false o s

/-- `JMP` (R149). -/
def execJmp (o : BitVec 25) (t : BitVec 2) (s : State) : Host.Outcome State Fault Refusal :=
  issue (.jmp o t) t false (fun c => goTo c (codeTarget c o)) s

/-- `CALL`: a jump that links in s62 (R149). -/
def execCall (o : BitVec 25) (t : BitVec 2) (s : State) : Host.Outcome State Fault Refusal :=
  issue (.call o t) t false (fun c => do
    goTo c (codeTarget c o)
    link c 62) s

/-- `JR`: to s[ra] + 4 × imm10, linking in rd (R150). -/
def execJr (d a : BitVec 6) (i : BitVec 10) (t : BitVec 2) (s : State) : Host.Outcome State Fault Refusal :=
  issue (.jr d a i t) t false (fun c => do
    let v ← rs c a
    goTo c (v + i.signExtend 64 * 4)
    link c d.toNat) s

/-- `CALLR`: to the address of the word + s[ra] + 4 × imm10, linking in rd (R150). -/
def execCallr (d a : BitVec 6) (i : BitVec 10) (t : BitVec 2) (s : State) : Host.Outcome State Fault Refusal :=
  issue (.callr d a i t) t false (fun c => do
    let v ← rs c a
    goTo c (c.pc + v + i.signExtend 64 * 4)
    link c d.toNat) s

end Sys2Proof.Machine
end

