-- ==== Sys2Proof/Machine/EngineQueue.lean ====
section
/-!
DEFINITION. Engine command queues as sequencers see them (R136, R142, R168, R184, R185): what is outstanding, cancellation, and the issue of a
command.
-/

namespace Sys2Proof.Machine

open Sys2Proof

/-- Whether a running command is one that a sequencer issued to an engine. -/
def runsFor (uid : Nat) (q : Seq) (r : Option RunCmd) : Bool :=
  match r with
  | some c => c.cmd.uid == uid && c.cmd.issuer == q
  | none => false

/-- Whether a command that a sequencer issued to an engine has started and not ended, on the engine of its core, a sibling's, the press or the base
die (R185, R193, R248, R430). -/
def runningFor (s : State) (uid : Nat) (q : Seq) (e : Eng) : Bool :=
  let core := (getUnit s uid).place.core
  let cl := (List.range 4).map fun k => getCore s (core / 4 * 4 + k)
  let waits (c : EngineState) := c.waiting.any fun r => runsFor uid q (some r)
  match e with
  | .copy => cl.any fun c => runsFor uid q c.copy.run || runsFor uid q c.relocC || waits c.copy
  | .gather => runsFor uid q (getCore s core).gather.run || waits (getCore s core).gather
  | .row => cl.any fun c => runsFor uid q c.row.run || runsFor uid q c.relocR || waits c.row
  | .press => runsFor uid q (getCluster s (core / 4)).press.cur
  | .coll => (getDie s (core / 192)).coll.any fun c => c.cmd.uid == uid && c.cmd.issuer == q

/-- Whether a sequencer has a command at an engine that has neither completed nor been cancelled. -/
def outstanding (s : State) (uid : Nat) (q : Seq) (e : Eng) : Bool :=
  !((getSeq s uid q).eq e).cmds.isEmpty || runningFor s uid q e

/-- The locks of commands given up (R168). -/
def dropLocks (u : UnitState) (e : Eng) (q : Seq) (seqNos : List Nat) : UnitState :=
  { u with place := { u.place with locks := u.place.locks.filter fun l =>
      !(l.eng == e && l.issuer == q && seqNos.contains l.seqNo) } }

/-- The queued commands of a sequencer at an engine that satisfy a test are cancelled: no token, no result, their locks released (R142,
R168). -/
def dropCmds (s : State) (uid : Nat) (q : Seq) (e : Eng) (p : EngCmd → Bool) : State :=
  let gone := (((getSeq s uid q).eq e).cmds.filter p).map (·.seqNo)
  let s := modEq s uid q e fun x => { x with cmds := x.cmds.filter fun c => !(p c) }
  modUnit s uid fun u => dropLocks u e q gone

/-- What a command releases as it ends, run by an agent (R270): all its accesses and what it acquired; at `core`, or at `clus` when a sibling ran it (R194). -/
def agentRelease (s : State) (a : Agent) (moved : Bool) (c : EngCmd) : Release :=
  { agent := a, scope := if moved then 2 else 1, hist := tabPut (histOf s a) a (c.seqNo + 1) }

/-- The flags that a command has kept since the context save that stopped it are set as it ends (R98). -/
def raiseKept (s : State) (c : EngCmd) : State := modUnit s c.uid fun u => { u with aflags := u.aflags ||| c.flags }

/-- What a started command that is cancelled leaves (R98, R287, R313): the flags that it has kept, and what it has performed, which a later `FENCEE` counts. -/
def leaveCancelled (s : State) (e : Eng) (rel : Release) (c : EngCmd) : State :=
  modEq (raiseKept s c) c.uid c.issuer e fun q => { q with done := rel :: q.done }

/-- The unstarted commands of a sequencer at an engine are cancelled (R142): one that a park put back at its restart point has started. -/
def cancelCmds (s : State) (uid : Nat) (q : Seq) (e : Eng) : State := dropCmds s uid q e fun c => !c.started

/-- The extents that a command locks: write, low, high; rows for accumulator rows (R168, R203). -/
structure Extent where
  rows  : Bool
  write : Bool
  lo    : Nat
  hi    : Nat
  deriving DecidableEq, Repr

/-- The locks of all units resident on a core over its scratchpad (R169). -/
def scratchLocks (s : State) (core : Nat) : Nat :=
  s.units.foldl (fun n p =>
    if p.2.place.resident && p.2.place.core == core then n + (p.2.place.locks.filter fun l => !l.rows).length else n) 0

/-- A command enters its sequencer's queue (R136, R168, R169, R184): the queue holds 16 and a core 32 scratchpad locks; earlier stores are performed and
released, and the command is numbered. -/
def pushCommand (c : Ctx) (e : Eng) (extents : List Extent) (mk : EngCmd → EngCmd) : M Unit := do
  let s ← get
  let u ← theUnit c
  let sq ← theSeq c
  let core := u.place.core
  if 16 ≤ (sq.eq e).cmds.length then freeze (.queue (16 + engNum e))
  else if 32 < scratchLocks s core + (extents.filter fun x => !x.rows).length then freeze (.lock [])
  else do
    upd fun s => performAll s c.uid c.q
    let s ← get
    let a := seqAgent u c.uid c.q
    let no := (getCore s core).lockNo
    let seqNo := (sq.eq e).issueNo
    let cmd := mk { code := 0, rl := false, seqNo := seqNo, uid := c.uid, issuer := c.q, ra := 0, rb := 0, h := 0, h2 := 0,
                    scale := 0, scale2 := 0, push := c.push, level := u.levels.head?.map (·.id), rel := releaseOf s a 1,
                    lockNo := no, word := c.word, pos := 0, trace := [], recs := [], held := false, started := false, writes := [], flags := 0 }
    upd fun s => bumpRegion s a
    upd fun s => modCore s core fun k => { k with lockNo := k.lockNo + 1 }
    upd fun s => modEq s c.uid c.q e fun x => { x with cmds := x.cmds ++ [cmd], issueNo := x.issueNo + 1 }
    updUnit c fun u => { u with place := { u.place with locks := u.place.locks ++ extents.map fun x =>
      { eng := e, issuer := c.q, seqNo := seqNo, no := no, rows := x.rows, write := x.write, lo := x.lo, hi := x.hi } } }

end Sys2Proof.Machine
end

