-- ==== Sys2Proof/Machine/Tensor.lean ====
section
/-!
DEFINITION. Tensor handles: their fields (R175), the places and pads of their elements (R176), and the check word (R179).
-/

namespace Sys2Proof.Machine

open Sys2Proof

/-! ## Words of wide values -/

/-- The 64-bit word k of a vector of bits. -/
def wordAt {n : Nat} (v : BitVec n) (k : Nat) : Word := v.extractLsb' (64 * k) 64

/-- A vector of bits with n bits from lo replaced. -/
def putBits {m : Nat} (v : BitVec m) (lo n : Nat) (x : Nat) : BitVec m :=
  (v &&& ~~~(BitVec.ofNat m (2 ^ n - 1) <<< lo)) ||| (BitVec.ofNat m (x % 2 ^ n) <<< lo)

/-! ## Fields (R175) -/

/-- Bits [lo + n − 1 : lo] of a handle. -/
def hbits (h : Handle) (lo n : Nat) : Nat := (h.extractLsb' lo n).toNat

/-- A handle with n bits from lo replaced. -/
def hset (h : Handle) (lo n : Nat) (v : Nat) : Handle :=
  (h &&& ~~~(BitVec.ofNat 256 (2 ^ n - 1) <<< lo)) ||| (BitVec.ofNat 256 (v % 2 ^ n) <<< lo)

/-- `BASE`. -/
def hBase (h : Handle) : Word := h.extractLsb' 0 64
/-- `D`k as an extent, 0 meaning 65,536. -/
def hDim (h : Handle) (k : Nat) : Nat := if hbits h (64 + 16 * k) 16 = 0 then 65536 else hbits h (64 + 16 * k) 16
/-- `S`k, with S0 = 1. -/
def hStride (h : Handle) (k : Nat) : Nat := if k = 0 then 1 else hbits h (104 + 24 * k) 24
/-- `FMT`. -/
def hFmt (h : Handle) : Nat := hbits h 200 6
/-- `SWZ`. -/
def hSwz (h : Handle) : Nat := hbits h 206 4
/-- `PLACE`. -/
def hPlace (h : Handle) : Nat := hbits h 210 2
/-- `PAD`. -/
def hPad (h : Handle) : Nat := hbits h 212 16
/-- The rank: `RANK` + 1. -/
def hRank (h : Handle) : Nat := hbits h 228 4 + 1
/-- `LAYOUT`. -/
def hLayout (h : Handle) : Nat := hbits h 232 8
/-- `SIDX`. -/
def hSidx (h : Handle) : Nat := hbits h 240 4
/-- `VAL`. -/
def hVal (h : Handle) : Bool := h.getLsbD 248
/-- `RO`. -/
def hRo (h : Handle) : Bool := h.getLsbD 249
/-- `SCL`. -/
def hScl (h : Handle) : Bool := h.getLsbD 250

/-! ## Elements (R176) -/

/-- A coordinate of four dimensions. -/
structure Coord where
  c0 : Nat
  c1 : Nat
  c2 : Nat
  c3 : Nat
  deriving DecidableEq, Repr

/-- The coordinate word (R183). -/
def coordOf (w : Word) : Coord :=
  { c0 := bits w.toNat 0 16, c1 := bits w.toNat 16 16, c2 := bits w.toNat 32 16, c3 := bits w.toNat 48 16 }

/-- The sum of two coordinates. -/
def Coord.add (a b : Coord) : Coord := ⟨a.c0 + b.c0, a.c1 + b.c1, a.c2 + b.c2, a.c3 + b.c3⟩

/-- The extent of a dimension: 1 at and above the rank. -/
def hExtent (h : Handle) (k : Nat) : Nat := if k < hRank h then hDim h k else 1

/-- Whether a coordinate lies within the extents. -/
def inExtent (h : Handle) (u : Coord) : Bool :=
  u.c0 < hExtent h 0 && u.c1 < hExtent h 1 && u.c2 < hExtent h 2 && u.c3 < hExtent h 3

/-- The offset of an element from `BASE`, in elements. -/
def elemIndex (h : Handle) (u : Coord) : Nat :=
  u.c0 + u.c1 * hStride h 1 + u.c2 * hStride h 2 + u.c3 * hStride h 3

/-- The offset of an element from `BASE`, in bits. -/
def elemBit (h : Handle) (u : Coord) : Nat := elemIndex h u * fmtBits (hFmt h)

/-- The pad value as a code of the handle's format: the low w bits; for F32 the BF16 value widened; for I32 and I64 sign-extended; for UI32
zero-extended. -/
def padCode (h : Handle) : Nat :=
  match hFmt h with
  | 0x08 => hPad h * 65536
  | 0x03 => wrapTo 32 (signedOf 16 (hPad h))
  | 0x04 => wrapTo 64 (signedOf 16 (hPad h))
  | 0x07 => hPad h
  | f => hPad h % 2 ^ fmtBits f

/-- The bytes that a handle covers from `BASE`: a weight image for the aligned formats, else up to the last byte of its last element (R176,
R240). -/
def hSpan (h : Handle) : Nat :=
  if fmtAligned (hFmt h) then 1024 + 8192 * fmtBits (hFmt h)
  else
    let top := (hExtent h 0 - 1) + (hExtent h 1 - 1) * hStride h 1 + (hExtent h 2 - 1) * hStride h 2 + (hExtent h 3 - 1) * hStride h 3
    ((top + 1) * fmtBits (hFmt h) + 7) / 8

/-! ## Segment addresses (R160, R161) -/

/-- The unit and partition offset that a local or cluster segment address names; none where it names no partition byte. -/
def partOf (s : State) (uid : Nat) (va : Word) : Option (Nat × Nat) :=
  let u := getUnit s uid
  let a := va.toNat
  if a / 2 ^ 48 = 0xFF00 then
    if a % 2 ^ 48 < u.place.spadSize then some (uid, a % 2 ^ 48) else none
  else if a / 2 ^ 24 = 0xFF01000000 then
    match siblingOn s u (u.place.core / 4 * 4 + a % 2 ^ 24 / 0x400000) with
    | some v => if a % 0x400000 < (getUnit s v).place.spadSize then some (v, a % 0x400000) else none
    | none => none
  else none

/-- Whether an address lies in the local or the cluster segment (R388). -/
def inSegments (va : Word) : Bool := va.toNat / 2 ^ 48 == 0xFF00 || va.toNat / 2 ^ 24 == 0xFF01000000

/-- The tag of a partition's 4 KiB region (R165). -/
def regionTag (s : State) (uid r : Nat) : Nat := ((tabGet (getUnit s uid).place.tags r).getD 0).toNat

/-- Whether every region of a partition that n bytes from an offset touch holds a tag. -/
def regionsAre (s : State) (uid off n z : Nat) : Bool :=
  (List.range ((off + n + 4095) / 4096 - off / 4096)).all fun i => regionTag s uid (off / 4096 + i) == z

/-! ## Banks (R164) -/

/-- What a swizzle code adds to the word number of a bank row, by exclusive or (R164). -/
def bankShift (z rr : Nat) : Nat := rr % 2 ^ z * 2 ^ (6 - z)

/-- The address at which the bytes that one code places at a scratchpad address stand under another: the same bank row, the word in the same bank (R164). -/
def rebank (z t pa : Nat) : Nat :=
  pa / 256 * 256 + 4 * ((pa / 4 % 64) ^^^ bankShift z (pa / 256) ^^^ bankShift t (pa / 256)) + pa % 4

/-- A region of a partition that takes another code: each of its addresses reads what stands in the bank that the new code gives it (R164, R166). -/
def retagRegion (s : State) (uid r z : Nat) : State :=
  let u := getUnit s uid
  let base := spadPa u (4096 * r)
  let t := regionTag s uid r
  let s := if t = z then s
    else { s with mem := memPutBytes s.mem base ((List.range 4096).map fun i => memGet s.mem (rebank t z (base + i))) }
  modUnit s uid fun u => { u with place := { u.place with tags := tabPut u.place.tags r (BitVec.ofNat 3 z) } }

/-! ## The check word (R179) -/

/-- Whether a layout class is usable: 0 to 2, and 3 to 7 once programmed (R178). -/
def layoutUsable (s : State) (l : Nat) : Bool := l ≤ 2 || l ≤ 7 && (tabGet s.sched.layouts l).isSome

/-- Whether a scale-linked handle's link is good: an MX64 element format, and a valid `e8` scale handle with the scale extents (R179). -/
def scaleLinked (sq : SeqState) (h : Handle) : Bool :=
  let g := sq.handles[hSidx h]?.getD 0
  fmtMx (hFmt h) && hVal g && hFmt g == 0x13 && hDim g 0 == (hDim h 0 + 63) / 64

/-- The check word of a handle for a sequencer's unit (R179). DESIGN CHOICE (log 99): a handle of a reserved format covers no bytes, so bits 9 and 10 are 0. -/
def checkWord (s : State) (uid : Nat) (q : Seq) (h : Handle) : Word :=
  let u := getUnit s uid
  let part := partOf s uid (hBase h)
  let size := match part with | some (v, _) => (getUnit s v).place.spadSize | none => 0
  let off := match part with | some (_, o) => o | none => 0
  let owner := match part with | some (v, _) => v | none => uid
  let place2 := hPlace h == 2
  let seg := inSegments (hBase h)
  let b (n : Nat) (x : Bool) : Word := if x then 1#64 <<< n else 0
  b 0 (!hVal h) ||| b 1 (!fmtValid (hFmt h)) ||| b 2 (6 < hSwz h || hSwz h != 0 && hPlace h < 2) ||| b 3 (hPlace h == 3) |||
    b 4 (4 < hRank h) ||| b 5 (!layoutUsable s (hLayout h)) ||| b 6 (hScl h && !scaleLinked (u.seq q) h) |||
    b 7 (hbits h 251 5 != 0 || hbits h 244 4 != 0) |||
    b 8 (hPlace h < 2 && (hBase h).toNat / 2 ^ 57 != 0 || place2 && !seg) |||
    b 9 (place2 && seg && fmtValid (hFmt h) && part.isSome &&
      !(regionsAre s owner off (Nat.min (hSpan h) (size - off)) (hSwz h))) |||
    b 10 (place2 && seg && fmtValid (hFmt h) && (part.isNone || size < off + hSpan h)) ||| b 11 (hRo h)

/-- The fault that a check word raises: none when no bit of those that apply is set; else swizzle-mismatch for bits 2 and 9, window-permission for bit
10, format for the others, by the lowest set bit (R179). -/
def checkCause (w : Word) : Option Nat :=
  ((List.range 12).find? fun b => w.getLsbD b).map fun b => if b = 2 ∨ b = 9 then 3 else if b = 10 then 4 else 2

/-- A command checks one of its handles at issue: `ROF` for a destination only, and `mask` leaves out bits another rule decides; `TVAL` holds the whole check
word (R166, R179, R188). -/
def checkHandle (c : Ctx) (h : Handle) (dest : Bool) (mask : Word) : M Unit := fun s =>
  let w := checkWord s c.uid c.q h
  match checkCause ((if dest then w else w &&& ~~~(0x800#64)) &&& ~~~mask) with
  | none => .ok ((), s)
  | some k => raise k w s

end Sys2Proof.Machine
end

