-- ==== Sys2Proof/Machine/EngineMem.lean ====
section
/-!
DEFINITION. The accesses of a running engine or press command: translation, races, casks (R185, R186, R274, R301, R392), the elements of tensors
(R89, R90, R176), weight images (R240) and tiles (R183).
-/

namespace Sys2Proof.Machine

open Sys2Proof

/-! ## A running command -/

/-- For whom a command runs: its unit, engine and queue, the core whose engine performs it, whether by relocation, its agent and region (R280), and the
cask level that takes its global writes (R300). `bad` are the siblings' regions, by unit and number, whose tag is no longer the code that the command declares (R186),
`moved` the own partition's regions that have been given another code since its issue, with the declared code and the new one (R164, R166), `ticket` its ticket at a controller (R401). -/
structure EngCtx where
  uid    : Nat
  eng    : Eng
  issuer : Seq
  core   : Nat
  reloc  : Bool
  agent  : Agent
  region : Nat
  level  : Option Nat
  bad    : List (Nat × Nat)
  moved  : List (Nat × Nat × Nat)
  ticket : Option (Nat × Nat) := none
  deriving DecidableEq, Repr

/-- The state while a command runs, with the records it has captured (R301), the accesses of its present step that a restart does not perform again, and those that
it has done, the latest first, each with the bytes that it read (R274). -/
structure ERun where
  s    : State
  recs : List CaskRec
  skip : List (List Byte) := []
  log  : List (List Byte) := []
  deriving Repr

/-- The accesses done of the present step, in order. -/
def ERun.trace (r : ERun) : List (List Byte) := r.log.reverse ++ r.skip

/-- Why a step of a command does not end: the hold, the race with its address, and what the step has done so far, which stands (R274). -/
structure EStop where
  hold : Hold
  race : Option (Word × Race)
  run  : ERun
  deriving Repr

/-- A computation of a running command; it stops in a hold. -/
abbrev E := StateT ERun (Except EStop)

/-- The command stops. -/
def holdE {α : Type} (h : Hold) : E α := fun r => .error { hold := h, race := none, run := r }

/-- The command fails with a `STAT` (R186). -/
def failE {α : Type} (stat : Nat) : E α := holdE (.failed stat)

/-- A change of the state. -/
def updE (f : State → State) : E Unit := fun r => .ok ((), { r with s := f r.s })

/-- The state. -/
def getS : E State := fun r => .ok (r.s, r)

/-- One access of a step: it is not performed again when the step is taken up at a later one (R274). -/
def logged (act : E (List Byte)) : E (List Byte) := fun r =>
  match r.skip with
  | bs :: rest => .ok (bs, { r with skip := rest, log := bs :: r.log })
  | [] =>
    match act r with
    | .ok (bs, t) => .ok (bs, { t with log := bs :: t.log })
    | .error e => .error e

/-- An effect of a step without a value, performed once. -/
def once (act : E Unit) : E Unit := do
  let _ ← logged do
    act
    pure []

/-- Flags of a command go to its unit (R98). -/
def flagE (x : EngCtx) (f : Flags) : E Unit := once (updE fun s => modUnit s x.uid fun u => { u with aflags := u.aflags ||| f })

/-- Who waits when a command waits for a walk. -/
def EngCtx.waiter (x : EngCtx) : Waiter :=
  match x.eng with
  | .press => .press (x.core / 4)
  | .coll => .coll (x.core / 192)
  | e => .eng x.core e x.reloc

/-- A command waits for the translation of an address on its die (R392). -/
def missE {α : Type} (x : EngCtx) (va : Word) (kind : AccKind) : E α := do
  let s ← getS
  holdE (.walk ((getUnit s x.uid).place.core / 192) va kind)

/-- A race of a command: it holds at its element (R274). -/
def raceE {α : Type} (va : Word) (race : Race) : E α := fun r => .error { hold := .race, race := some (va, race), run := r }

/-- The request that a held command makes: a walk, a place in a controller's queue, or the memory-model exception at its issuer's next boundary (R274, R392, R401). -/
def holdRequest (x : EngCtx) (s : State) (h : Hold) (race : Option (Word × Race)) : State :=
  match h, race with
  | .walk die va kind, _ =>
    let u := getUnit s x.uid
    askWalk s die { cont := u.ident.key.cont, gen := u.ident.gen, va := va, kind := kind, waiter := x.waiter, agent := x.agent,
                    core := u.place.core }
  | .budget _ ticket, _ => queued s ticket
  | .race, some (va, r) => modSeq s x.uid x.issuer fun c => c.modFl fun f =>
      { f with faults := f.faults ++ [{ cause := 5, tval := va, eng := some x.eng, race := some r }] }
  | _, _ => s

/-- Whether n bytes from an address touch a sibling's region that no longer holds the declared code (R186). -/
def EngCtx.retagged (x : EngCtx) (s : State) (va : Word) (n : Nat) : Bool :=
  !x.bad.isEmpty && match partOf s x.uid va with
    | some (v, o) => x.bad.any fun p => p.1 == v && o < 4096 * (p.2 + 1) && 4096 * p.2 < o + n
    | none => false

/-- The place of the bytes that a command's declared code puts at a place: another only in a region of the own partition that has been given a new code since the
command's issue (R164). -/
def EngCtx.cell (x : EngCtx) (s : State) (p : Place) : Place :=
  match p with
  | .acc .. => p
  | .mem pa =>
    let lo := spadPa (getUnit s x.uid) 0
    match x.moved.find? fun m => lo + 4096 * m.1 ≤ pa && pa < lo + 4096 * (m.1 + 1) with
    | some (_, z, t) => .mem (rebank z t pa)
    | none => p

/-- What makes a command's access to places wait at a controller, if anything does (R401). -/
def EngCtx.budget (x : EngCtx) (s : State) (ps : List Place) : Option (Nat × Nat) := budgetStop s ((getUnit s x.uid).ident.cls == 0) x.ticket ps

/-- The places of n bytes for a command: a window or unmapped address fails it with `STAT` 1, a sibling's changed tag with `STAT` 2, a miss or a spent budget holds it
(R186, R392, R393, R401). -/
def placesE (x : EngCtx) (va : Word) (kind : AccKind) (n : Nat) : E (List Place) := do
  let s ← getS
  if x.retagged s va n then failE 2 else
  match locateN s x.uid va kind n with
  | .ok ps =>
    match x.budget s ps with
    | some (k, t) => holdE (.budget k t)
    | none => pure ps
  | .error _ =>
    match locateErr s x.uid va kind n with
    | some (a, .miss) => missE x a kind
    | _ => failE 1

/-- A command reads bytes (R185, R274, R304). DESIGN CHOICE (log 98): while the unit collects, the global reads of row-engine commands, which R301's table does not name, have the lookup of
R304. -/
def readE (x : EngCtx) (va : Word) (n : Nat) : E (List Byte) := logged do
  let ps ← placesE x va .read n
  let s ← getS
  match plainRead s x.uid x.agent x.region va [] ps with
  | .error .wait => failE 3
  | .error .deferred => failE 3
  | .error (.race r) => raceE va r
  | .ok (bs, t) => do
    updE fun _ => t
    pure (if x.moved.isEmpty then bs else (ps.zip bs).map fun p => if x.cell s p.1 = p.1 then p.2 else placeGet s (x.cell s p.1))

/-- Places written plainly by a command: checked, marked and performed (R185, R274). -/
def putPlacesE (x : EngCtx) (va : Word) (ps : List Place) (bs : List Byte) : E Unit := do
  let s ← getS
  let u := getUnit s x.uid
  match checkMark x.agent x.region u.ident.key.cont u.ident.key.job (wordVa va ps) true false (placeRuns ps) s with
  | .error r => raceE va r
  | .ok t => updE fun _ => placesPut (storeMarksEnd t (ps.zip bs)) ((ps.map (x.cell t)).zip bs)

/-- How a captured byte joins the runs before it (R302): it only extends the last run; it may also complete that run's last byte, which the element before has filled in
part; or, in a weight image, whose planes and exponents advance side by side, it extends any run of its command or completes a byte of one. -/
inductive RunJoin where
  | next
  | last
  | any
  deriving DecidableEq, Repr

/-- Whether a byte extends a run: it follows it in the same 4 KiB of virtual address (R302). -/
def CaskRec.extendedBy (r : CaskRec) (va : Nat) : Bool := r.rk == 1 && va == r.vaddr.toNat + r.data.length && va % 4096 != 0

/-- Whether a byte lies in a run. -/
def CaskRec.runHolds (r : CaskRec) (va : Nat) : Bool := r.rk == 1 && r.vaddr.toNat ≤ va && va < r.vaddr.toNat + r.data.length

/-- A run with a byte of it set or added at its end. -/
def CaskRec.withByte (r : CaskRec) (va : Nat) (b : Byte) : CaskRec :=
  if r.runHolds va then { r with data := r.data.set (va - r.vaddr.toNat) b } else { r with data := r.data ++ [b] }

/-- A byte captured for a cask: it joins a run, or begins one (R302). -/
def captureByte (x : EngCtx) (join : RunJoin) (va : Nat) (p : Place) (b : Byte) (rs : List CaskRec) : List CaskRec :=
  let joins (i : Nat) (r : CaskRec) : Bool := match join with
    | .next => i + 1 == rs.length && r.extendedBy va
    | .last => i + 1 == rs.length && (r.extendedBy va || r.runHolds va && va + 1 == r.vaddr.toNat + r.data.length)
    | .any => r.extendedBy va || r.runHolds va
  match rs.zipIdx.find? fun e => joins e.2 e.1 with
  | some (r, i) => rs.set i (r.withByte va b)
  | none => rs ++ [makeRecord x.agent x.region 1 none va [b] p]

/-- Bytes captured in ascending order; only the first can complete the last byte of an element before. -/
def captureBytes (x : EngCtx) (join : RunJoin) (va : Nat) : List Place → List Byte → List CaskRec → List CaskRec
  | p :: ps, b :: bs, rs => captureBytes x (if join = .last then .next else join) (va + 1) ps bs (captureByte x join va p b rs)
  | _, _, rs => rs

/-- Bytes written for a command: into its cask level when it has one and the address is global, else to memory (R300, R301). -/
def writePart (x : EngCtx) (join : RunJoin) (va : Word) (bs : List Byte) : E Unit := do
  let ps ← placesE x va .write bs.length
  if x.level.isSome && isGlobalVa va then fun r => .ok ((), { r with recs := captureBytes x join va.toNat ps bs r.recs })
  else putPlacesE x va ps bs

/-- A command writes bytes. -/
def writeE (x : EngCtx) (va : Word) (bs : List Byte) : E Unit := once (writePart x .next va bs)

/-- What a byte holds under the command's own captured writes, its unit's records and memory, to complete a byte that an element fills only in
part; it leaves no mark. -/
def underByte (x : EngCtx) (va : Word) : E Byte := fun r =>
  let own := r.recs.reverse.findSome? fun c =>
    if c.rk = 1 ∧ c.vaddr.toNat ≤ va.toNat ∧ va.toNat < c.vaddr.toNat + c.data.length then c.data[va.toNat - c.vaddr.toNat]?
    else none
  match own with
  | some b => .ok (b, r)
  | none =>
    match placesE x va .write 1 r with
    | .error e => .error e
    | .ok (ps, r) =>
      let p := ps.headD (.mem 0)
      let b := match p with
        | .mem pa =>
          match lookupByte pa (getUnit r.s x.uid).levels with
          | .record b => b
          | _ => placeGet r.s (x.cell r.s p)
        | .acc .. => placeGet r.s p
      .ok (b, r)

/-! ## Elements as bits (R90) -/

/-- w bits at a bit offset from an address. -/
def readBits (x : EngCtx) (base : Word) (bit w : Nat) : E Nat := do
  let bs ← readE x (base + BitVec.ofNat 64 (bit / 8)) ((bit % 8 + w + 7) / 8)
  pure (leValue bs / 2 ^ (bit % 8) % 2 ^ w)

/-- w bits written at a bit offset from an address; the other bits of their bytes stay. -/
def writeBits (x : EngCtx) (base : Word) (bit w v : Nat) : E Unit := do
  let va := base + BitVec.ofNat 64 (bit / 8)
  let sub := bit % 8
  let n := (sub + w + 7) / 8
  if sub = 0 ∧ w % 8 = 0 then writeE x va (leBytes n v)
  else once do
    let lo ← underByte x va
    let hi ← if n = 1 then pure lo else underByte x (va + BitVec.ofNat 64 (n - 1))
    let old := lo.toNat % 2 ^ sub
    let above := hi.toNat / 2 ^ ((sub + w - 1) % 8 + 1) * 2 ^ ((sub + w - 1) % 8 + 1 + 8 * (n - 1))
    writePart x (if sub = 0 then .next else .last) va (leBytes n (old + v % 2 ^ w * 2 ^ sub + above))

/-! ## Elements of tensors (R176) -/

/-- Where bit q of the code of element (k, y) of a weight image lies: the bit offset from its base, plane 0 holding the top bit (R240). -/
def planeBit (planes q k y : Nat) : Nat := 8 * (1024 + 8192 * (planes - 1 - q) + 32 * y + k / 8) + k % 8

/-- Whether a coordinate names an element of a weight image, which has 256 by 256 (R240). DESIGN CHOICE (log 74): an element of an aligned handle that its extents admit
and the image has no place for reads as the pad, and a write to it is discarded. -/
def inPlanes (u : Coord) : Bool := u.c0 < 256 && u.c1 < 256 && u.c2 == 0 && u.c3 == 0

/-- The code of an element of a weight image, read plane by plane, the bits below bit q (R176, R240). -/
def readPlanes (x : EngCtx) (base : Word) (planes k y : Nat) : Nat → E Nat
  | 0 => pure 0
  | q + 1 => do
    let b ← readBits x base (planeBit planes q k y) 1
    let v ← readPlanes x base planes k y q
    pure (b * 2 ^ q + v)

/-- The code of an element of a tensor; the pad outside its extents (R176). -/
def readElem (x : EngCtx) (h : Handle) (u : Coord) : E Nat :=
  let w := fmtBits (hFmt h)
  if !(inExtent h u) then pure (padCode h)
  else if fmtAligned (hFmt h) then (if inPlanes u then readPlanes x (hBase h) w u.c0 u.c1 w else pure (padCode h))
  else readBits x (hBase h) (elemBit h u) w

/-- One bit of a weight image written; the other bits of its byte stay. -/
def writePlaneBit (x : EngCtx) (base : Word) (bit v : Nat) : E Unit := once do
  let va := base + BitVec.ofNat 64 (bit / 8)
  let old ← underByte x va
  let m : Byte := 1#8 <<< (bit % 8)
  writePart x .any va [if v % 2 = 1 then old ||| m else old &&& ~~~m]

/-- One bit of a weight image written for each plane of a code. -/
def writePlanes (x : EngCtx) (base : Word) (planes k y v : Nat) : Nat → E Unit
  | 0 => pure ()
  | q + 1 => do
    writePlaneBit x base (planeBit planes q k y) (v / 2 ^ q)
    writePlanes x base planes k y v q

/-- The code of an element of a tensor written; discarded outside its extents (R176). -/
def writeElem (x : EngCtx) (h : Handle) (u : Coord) (v : Nat) : E Unit :=
  let w := fmtBits (hFmt h)
  if !(inExtent h u) then pure ()
  else if fmtAligned (hFmt h) then (if inPlanes u then writePlanes x (hBase h) w u.c0 u.c1 v w else pure ())
  else writeBits x (hBase h) (elemBit h u) w v

/-- The exact value of an element of a tensor with its flags (R91, R108): a scale-linked one is decoded with the scale of its run of 64, a pad with
scale code 127; a code without a value fails the command. -/
def elemValueE (x : EngCtx) (h g : Handle) (u : Coord) : E (EVal × Flags) := do
  let v ← readElem x h u
  if hScl h then do
    let sc ← if inExtent h u then readElem x g { u with c0 := u.c0 / 64 } else pure 127
    let (w, fl) := mxDecode (hFmt h) v sc
    pure (.flt w, fl ||| snanFlag (hFmt h) v)
  else
    match elemValue (hFmt h) v with
    | some w => pure (w, snanFlag (hFmt h) v)
    | none => failE 3

/-! ## Tiles (R183) -/

/-- The base address of a pointer's partition side: own partition, or sibling k's through the cluster segment. -/
def sideBase (seg core addr : Nat) : Word :=
  if seg = 0 then BitVec.ofNat 64 (0xFF00000000000000 + addr)
  else BitVec.ofNat 64 (0xFF01000000000000 + core * 0x400000 + addr)

/-- The pitch of a tile: the least multiple of 4 bytes that holds a row (R183). -/
def tilePitch (n w : Nat) : Nat := (n * w + 31) / 32 * 4

/-- The bit offset of element x of tile row y. -/
def tileBit (n w y x : Nat) : Nat := 8 * (y * tilePitch n w) + x * w

end Sys2Proof.Machine
end

