-- ==== Sys2Proof/Machine/CaskForm.lean ====
section
/-!
DEFINITION. Pool descriptors and cask handles: their fields, and what an open level shows of itself (R296, R298, R314).
-/

namespace Sys2Proof.Machine

open Sys2Proof

/-! ## Fields (R296, R298) -/

/-- `POOL`. -/
def ckPool (h : Handle) : Word := h.extractLsb' 0 64
/-- `CAP`. -/
def ckCap (h : Handle) : Nat := hbits h 64 40
/-- `STG` of a descriptor. -/
def ckStg (h : Handle) : Nat := hbits h 104 21
/-- `STGN` of a descriptor. -/
def ckStgn (h : Handle) : Nat := hbits h 128 8
/-- `ABT` of a descriptor. -/
def ckAbt (h : Handle) : Nat := hbits h 144 32
/-- `USED` of a cask handle. -/
def ckUsed (h : Handle) : Nat := hbits h 104 40
/-- `NREC` of a cask handle. -/
def ckNrec (h : Handle) : Nat := hbits h 144 32
/-- `SER` of a cask handle. -/
def ckSer (h : Handle) : Nat := hbits h 176 32
/-- `CONT` of a cask handle. -/
def ckCont (h : Handle) : Nat := hbits h 208 32
/-- `LVL` of a cask handle. -/
def ckLvl (h : Handle) : Nat := hbits h 246 2
/-- `SEAL` of a cask handle. -/
def ckSeal (h : Handle) : Bool := h.getLsbD 250
/-- `CSK`. -/
def ckCsk (h : Handle) : Bool := h.getLsbD 251
/-- `PD`. -/
def ckPd (h : Handle) : Bool := h.getLsbD 252

/-- A cask handle of its fields. -/
def ckHandle (sld : Bool) (lvl cont ser nrec used cap : Nat) (pool : Word) : Handle :=
  BitVec.ofNat 256 (pool.toNat + cap % 2 ^ 40 * 2 ^ 64 + used % 2 ^ 40 * 2 ^ 104 + nrec % 2 ^ 32 * 2 ^ 144 + ser % 2 ^ 32 * 2 ^ 176 +
    cont % 2 ^ 32 * 2 ^ 208 + lvl % 4 * 2 ^ 246 + 2 ^ 248 + (if sld then 2 ^ 250 else 0) + 2 ^ 251)

/-- The place of an open level in the list of levels, the innermost first, by `LVL`. -/
def levelPlace (u : UnitState) (lvl : Nat) : Nat := u.levels.length - 1 - lvl

/-- The handle of an open level. -/
def openHandle (u : UnitState) (lvl : Nat) (l : CaskLevel) : Handle :=
  ckHandle false lvl u.ident.key.cont l.serial l.recs.length l.used l.cap l.pool

/-- The descriptor of an open level. -/
def levelDesc (l : CaskLevel) : Handle :=
  BitVec.ofNat 256 (l.pool.toNat + l.cap % 2 ^ 40 * 2 ^ 64 + l.stage % 2 ^ 21 * 2 ^ 104 + l.stageN % 2 ^ 8 * 2 ^ 128 + l.abt % 2 ^ 32 * 2 ^ 144 +
    2 ^ 248 + 2 ^ 251 + 2 ^ 252)

/-! ## The saved level stack (R314) -/

/-- The open level of a number. -/
def levelAt (u : UnitState) (lvl : Nat) : Option CaskLevel := if lvl < u.levels.length then u.levels[levelPlace u lvl]? else none

/-- A word of the level stack in C's register window. DESIGN CHOICE (log 47): the 64 bytes of a level are its open handle and its descriptor; those of a level that is
not open hold what system software wrote there. -/
def stackWord (u : UnitState) (off : Nat) (free : Word) : Word :=
  match levelAt u (off / 64) with
  | some l => wordAt (if off % 64 < 32 then openHandle u (off / 64) l else levelDesc l) (off % 32 / 8)
  | none => (tabGet u.levelSpare (off / 8)).getD free

/-- An open level with a word of its 64 bytes written. -/
def setLevelWord (u : UnitState) (lvl : Nat) (l : CaskLevel) (off : Nat) (v : Word) : CaskLevel :=
  if off < 32 then
    let h := putBits (openHandle u lvl l) (64 * (off / 8)) 64 v.toNat
    { l with pool := ckPool h, cap := ckCap h, used := ckUsed h, serial := ckSer h }
  else
    let h := putBits (levelDesc l) (64 * (off % 32 / 8)) 64 v.toNat
    { l with pool := ckPool h, cap := ckCap h, stage := ckStg h, stageN := ckStgn h, abt := ckAbt h }

/-- A word of the level stack written by system software (R314). -/
def setStackWord (u : UnitState) (off : Nat) (v : Word) : UnitState :=
  match levelAt u (off / 64) with
  | some l => { u with levels := u.levels.set (levelPlace u (off / 64)) (setLevelWord u (off / 64) l (off % 64) v) }
  | none => { u with levelSpare := tabPut u.levelSpare (off / 8) v }

end Sys2Proof.Machine
end

