-- ==== Sys2Proof/Machine/Window.lean ====
section
/-!
DEFINITION. The register and queue windows of a core in memory form (R133, R134, R172 to R174, R213), as `CXFR`, system software, debuggers and the
external host reach them.
-/

namespace Sys2Proof.Machine

open Sys2Proof

/-! ## Landing-buffer entries (R134) -/

/-- The code of a kind of entry. -/
def landCode : LandKind → Nat
  | .scalar => 0
  | .pred => 1
  | .handle => 2
  | .row => 3
  | .dqout => 4
  | .vq => 5
  | .tag => 6
  | .reserved => 7

/-- The kind of a code of three bits. -/
def landKindOf : Nat → LandKind
  | 0 => .scalar
  | 1 => .pred
  | 2 => .handle
  | 3 => .row
  | 4 => .dqout
  | 5 => .vq
  | 6 => .tag
  | _ => .reserved

/-- Whether an entry's destination is a reserved queue entry. -/
def landsInQueue (k : LandKind) : Bool := k == .dqout || k == .vq

/-- The first header word of an entry; its reserved bits read 0. -/
def landHeader (e : Landing) : Word :=
  BitVec.ofNat 64 (e.rem % 32 + landCode e.kind * 32 + (if landsInQueue e.kind then e.rid else e.dst) % 256 * 256 +
    e.tag.toNat * 65536 + e.flg.toNat * 2 ^ 22 + e.ord.toNat * 2 ^ 32)

/-- An entry whose header word k has been written with a reserved bit set or not (R134, R357). -/
def markResv (e : Landing) (k : Nat) (set : Bool) : Landing :=
  { e with resv := if set then e.resv ||| (1#4 <<< k) else e.resv &&& ~~~(1#4 <<< k) }

/-- An entry with the first header word written; its reserved bits read 0 (R10). -/
def setLandHeader (e : Landing) (v : Word) : Landing :=
  let n := v.toNat
  let x := bits n 8 8
  let k := landKindOf (bits n 5 3)
  { e with rem := bits n 0 5, kind := k, dst := if landsInQueue k then 0 else x, rid := if landsInQueue k then x else 0
           tag := BitVec.ofNat 6 (bits n 16 6), flg := BitVec.ofNat 5 (bits n 22 5), ord := BitVec.ofNat 32 (bits n 32 32) }

/-- A word of an entry by its offset: header, payload, mask. -/
def landWord (e : Landing) (off : Nat) : Word :=
  if off = 0 then landHeader e
  else if off = 8 then (if e.mask.isSome then 1 else 0)
  else if off < 0x20 then 0
  else if off < 0x420 then wordAt e.payload ((off - 0x20) / 8)
  else if off < 0x4A0 then wordAt (e.mask.getD e.hidden) ((off - 0x420) / 8)
  else 0

/-- An entry with a word of its lane mask written, whether the mask is present or not. -/
def setLandMask (e : Landing) (k : Nat) (v : Word) : Landing :=
  match e.mask with
  | some m => { e with mask := some (putBits m (64 * k) 64 v.toNat) }
  | none => { e with hidden := putBits e.hidden (64 * k) 64 v.toNat }

/-- An entry with a word written by its offset. -/
def setLandWord (e : Landing) (off : Nat) (v : Word) : Landing :=
  if off = 0 then markResv (setLandHeader e v) 0 (bits v.toNat 27 5 != 0)
  else if off = 8 then
    markResv (if v.getLsbD 0 then { e with mask := some (e.mask.getD e.hidden) } else { e with mask := none, hidden := e.mask.getD e.hidden }) 1 (1 < v.toNat)
  else if off < 0x20 then markResv e (off / 8) (v != 0)
  else if off < 0x420 then { e with payload := putBits e.payload (64 * ((off - 0x20) / 8)) 64 v.toNat }
  else if off < 0x4A0 then setLandMask e ((off - 0x420) / 8) v
  else e

/-- An empty entry at a place of its bank. -/
def Landing.blank (slot : Nat) : Landing :=
  { ord := 0, flg := 0, tag := 0, dst := 0, kind := .scalar, rem := 0, payload := 0, mask := none, push := none, rid := 0,
    region := 0, slot := slot, hidden := 0, resv := 0 }

/-- The entry at a place of a bank: a valid one, an empty one that has been written, or a blank. -/
def bankEntry (es spare : List Landing) (slot : Nat) : Landing :=
  match (es ++ spare).find? fun e => e.slot == slot with
  | some e => e
  | none => Landing.blank slot

/-- A bank, its valid and its written empty entries, with a word written at an offset from its base: `REM` 0 marks an empty entry (R134). -/
def setBankWord (es spare : List Landing) (off : Nat) (v : Word) : List Landing × List Landing :=
  let slot := off / 0x500
  let e := setLandWord (bankEntry es spare slot) (off % 0x500) v
  let others (l : List Landing) := l.filter fun x => x.slot != slot
  if e.rem = 0 then (others es, others spare ++ [e])
  else if es.any fun x => x.slot == slot then (es.map fun x => if x.slot = slot then e else x, others spare)
  else (es ++ [e], others spare)

/-- A word of a bank by its offset from the bank's base. -/
def bankWord (es spare : List Landing) (off : Nat) : Word := landWord (bankEntry es spare (off / 0x500)) (off % 0x500)

/-! ## X's state (R213) -/

/-- `VWS`. -/
def vwsWord (x : XState) : Word := BitVec.ofNat 64 (x.base.toNat + x.k.toNat * 256 + x.rot.toNat * 65536)

/-- `LPS`. -/
def lpsWord (x : XState) : Word :=
  BitVec.ofNat 64 ((if x.act then 1 else 0) + x.stages.toNat * 256 + x.start.toNat * 2048)

/-- `CMPS`. -/
def cmpsWord (x : XState) : Word := BitVec.ofNat 64 (x.count % 2048 + x.tag.toNat * 2048 + if x.tv then 2 ^ 17 else 0)

/-- X's state with slot 16 to 20 written; bits outside the fields read 0 (R10), and those of `VWS` and `CMPS` are known to a restore (R357). -/
def setXSlot (x : XState) (n : Nat) (v : Word) : XState :=
  let b := v.toNat
  match n with
  | 16 =>
    let x := { x with base := BitVec.ofNat 8 (bits b 0 8), k := BitVec.ofNat 5 (bits b 8 5), rot := BitVec.ofNat 5 (bits b 16 5) }
    { x with stray := x.stray &&& 2 ||| if vwsWord x = v then 0 else 1 }
  | 17 => { x with act := v.getLsbD 0, stages := BitVec.ofNat 3 (bits b 8 3), start := BitVec.ofNat 26 (bits b 11 26) }
  | 18 => { x with lpn := v }
  | 19 => { x with lpi := v }
  | 20 =>
    let x := { x with tv := v.getLsbD 17, tag := BitVec.ofNat 6 (bits b 11 6), count := bits b 0 11 }
    { x with stray := x.stray &&& 1 ||| if cmpsWord x = v then 0 else 2 }
  | _ => x

/-! ## The register window (R133) -/

/-- A word of special register slot n. -/
def specialSlot (u : UnitState) (q : Seq) (n : Nat) : Word :=
  if n ≤ 9 then readSpecial u q n
  else if q = .x then
    match n with
    | 16 => vwsWord u.xs
    | 17 => lpsWord u.xs
    | 18 => u.xs.lpn
    | 19 => u.xs.lpi
    | 20 => cmpsWord u.xs
    | _ => 0
  else 0

/-- Eight bytes of a sequencer's region; `free` stands in the words of C's level stack at 0xA000 that nothing defines (R314). -/
def regionWord (u : UnitState) (q : Seq) (off : Nat) (free : Word) : Word :=
  let c := u.seq q
  if off < 0x200 then (if off < 8 then 0 else c.regs[off / 8]?.getD 0)
  else if off < 0x800 then
    let m := c.pred ((off - 0x200) / 128)
    wordAt (if q = .x then m else m &&& 1) ((off - 0x200) % 128 / 8)
  else if off < 0xA00 then (if q = .x then 0 else wordAt (c.handles[(off - 0x800) / 32]?.getD 0) ((off - 0x800) % 32 / 8))
  else if off < 0xC00 then 0
  else if off < 0xE00 then specialSlot u q ((off - 0xC00) / 8)
  else if off = 0xE00 then c.vc
  else if off = 0xE08 then BitVec.ofNat 64 c.fl.running.length
  else if off = 0xE10 then BitVec.ofNat 64 c.fl.held.length
  else if 0x1000 ≤ off ∧ off < 0x1000 + 24 * 0x500 then bankWord c.fl.running c.fl.runSpare (off - 0x1000)
  else if 0x9000 ≤ off ∧ off < 0x9800 ∧ q = .x then wordAt u.xs.buf ((off - 0x9000) / 8)
  else if 0x9800 ≤ off ∧ off < 0x9900 ∧ q = .x then
    BitVec.ofNat 64 (leValue ((List.range 8).map fun i => (rowTag u (off - 0x9800 + i)).setWidth 8))
  else if 0xA000 ≤ off ∧ off < 0xA100 ∧ q = .c then stackWord u (off - 0xA000) free
  else if 0x10000 ≤ off ∧ off < 0x10000 + 24 * 0x500 then bankWord c.fl.held c.fl.heldSpare (off - 0x10000)
  else 0

/-- A predicate with one word written; C, L and S keep bit 0. -/
def predWith (q : Seq) (m : Mask) (k : Nat) (v : Word) : Mask :=
  let r := putBits m (64 * k) 64 v.toNat
  if q = .x then r else r &&& 1

/-- A scalar register, predicate or handle written through the window: the offset lies below 0xA00. -/
def setRegionReg (c : SeqState) (q : Seq) (off : Nat) (v : Word) : SeqState :=
  if off < 0x200 then c.setReg (off / 8) v
  else if off < 0x800 then
    c.setPred ((off - 0x200) / 128) (predWith q (c.pred ((off - 0x200) / 128)) ((off - 0x200) % 128 / 8) v)
  else if off < 0xA00 ∧ q ≠ .x then
    let n := (off - 0x800) / 32
    c.setHandle n (putBits (c.handles[n]?.getD 0) (64 * ((off - 0x800) % 32 / 8)) 64 v.toNat)
  else c

/-- Special register slot n written by system software. -/
def setSpecialSlot (u : UnitState) (q : Seq) (n : Nat) (v : Word) : UnitState :=
  if n ≤ 9 then writeSpecial u q n v
  else if q = .x then { u with xs := setXSlot u.xs n v }
  else u

/-- Tags of eight logical rows written; only rows whose group is allotted hold one (R202). -/
def setRowTagBytes (u : UnitState) (row : Nat) (v : Word) : UnitState :=
  (List.range 8).foldl (fun u i =>
    if (rowGroup u (row + i)).isSome then
      { u with place := { u.place with
        rowTags := tabPut u.place.rowTags (row + i) (BitVec.ofNat 6 (bits v.toNat (8 * i) 6))
        tagStray := (u.place.tagStray.filter fun r => r != row + i) ++ if bits v.toNat (8 * i + 6) 2 = 0 then [] else [row + i] } }
    else u) u

/-- Eight bytes of a sequencer's region written by system software while the sequencer is stopped. -/
def setRegionWord (u : UnitState) (q : Seq) (off : Nat) (v : Word) : UnitState :=
  let onSeq (f : SeqState → SeqState) : UnitState := u.setSeq q (f (u.seq q))
  if off < 0xA00 then onSeq fun c => setRegionReg c q off v
  else if off < 0xC00 then u
  else if off < 0xE00 then setSpecialSlot u q ((off - 0xC00) / 8) v
  else if off = 0xE00 then onSeq fun c => { c with vc := v }
  else if 0x1000 ≤ off ∧ off < 0x1000 + 24 * 0x500 then
    onSeq fun c => c.modFl fun f =>
      let b := setBankWord f.running f.runSpare (off - 0x1000) v
      { f with running := b.1, runSpare := b.2 }
  else if 0x9000 ≤ off ∧ off < 0x9800 ∧ q = .x then { u with xs := { u.xs with buf := putBits u.xs.buf (64 * ((off - 0x9000) / 8)) 64 v.toNat } }
  else if 0x9800 ≤ off ∧ off < 0x9900 ∧ q = .x then setRowTagBytes u (off - 0x9800) v
  else if 0xA000 ≤ off ∧ off < 0xA100 ∧ q = .c then setStackWord u (off - 0xA000) v
  else if 0x10000 ≤ off ∧ off < 0x10000 + 24 * 0x500 then
    onSeq fun c => c.modFl fun f =>
      let b := setBankWord f.held f.heldSpare (off - 0x10000) v
      { f with held := b.1, heldSpare := b.2 }
  else u

/-- Whether a sequencer runs, for the windows: a resident one does whether or not its slot issues (R174). -/
def seqRuns (c : SeqState) : Bool :=
  match c.status with
  | .running => true
  | .halting => true
  | .returning _ => true
  | .exited => false
  | .stopped => false

/-- Whether an engine command may write an offset of a sequencer's region (R133, R173). -/
def windowPermits (c : SeqState) (off : Nat) : Bool :=
  if off < 0x200 then !seqRuns c || c.tr.wperm.getLsbD (off / 8)
  else if off < 0x800 then !seqRuns c || c.tr.wpermh.getLsbD (16 + (off - 0x200) / 128)
  else if off < 0xA00 then !seqRuns c || c.tr.wpermh.getLsbD ((off - 0x800) / 32)
  else
    (off / 8 * 8 == 0xE00 || (0x1000 ≤ off && off < 0x1000 + 24 * 0x500) || (0x10000 ≤ off && off < 0x10000 + 24 * 0x500)) &&
      !seqRuns c

/-- A word with its low or high half replaced. -/
def setHalf (w : Word) (high : Bool) (v : Nat) : Word := putBits w (if high then 32 else 0) 32 v

/-! ## The block of a core (R171) -/

/-- The unit that a core's windows show to system software (R174). -/
def windowSlot (s : State) (core : Nat) : Option Nat :=
  let c := getCore s core
  if c.iss then c.issuing.bind fun i => (c.slots[i]?).join else (c.slots[c.slot.toNat]?).join

/-- `WSLOT`. -/
def wslotWord (c : CoreState) : Word := BitVec.ofNat 64 (c.slot.toNat + if c.iss then 8 else 0)

/-- The counts of a queue window. -/
def queueCounts (c : SeqState) : Word := BitVec.ofNat 64 (c.dq.dqin.length + c.dq.dqout.length * 65536)

/-- Eight bytes of a core's register and queue windows, from an offset of its block between 0x80_0000 and 0xFF_FFFF, as system software reads
them. -/
def readWindow (s : State) (core off : Nat) (free : Word) : Word :=
  if off = 0xC00010 then wslotWord (getCore s core)
  else
    match windowSlot s core with
    | none => 0
    | some uid =>
      let u := getUnit s uid
      let q := seqOf (off / 0x100000 % 4)
      let o := off % 0x100000
      if off < 0xC00000 then regionWord u q o free
      else if o = 8 then queueCounts (u.seq q)
      else 0

/-- An entry pushed onto a `dqin` through its port (R172). -/
def pushDqin (s : State) (uid : Nat) (q : Seq) (v : Word) (acq : Option Release) : State :=
  modSeq s uid q fun c => { c with dq := { c.dq with dqin := c.dq.dqin ++ [{ val := v, acq := acq }] } }

/-- Eight bytes of a core's windows written by system software: registers of a running sequencer by its permissions, its special registers, clock
and buffers only while it is stopped; a full `dqin` takes no push. -/
def writeWindow (s : State) (core off : Nat) (v : Word) : State :=
  if off = 0xC00010 then modCore s core fun c => { c with iss := v.getLsbD 3, slot := v.setWidth 3 }
  else
    match windowSlot s core with
    | none => s
    | some uid =>
      let u := getUnit s uid
      let q := seqOf (off / 0x100000 % 4)
      let o := off % 0x100000
      if off < 0xC00000 then
        if o < 0xA00 then (if windowPermits (u.seq q) o then setUnit s uid (setRegionWord u q o v) else s)
        else if seqRuns (u.seq q) then s
        else setUnit s uid (setRegionWord u q o v)
      else if o = 0 ∧ (u.seq q).dq.dqin.length < 16 then pushDqin s uid q v none
      else s

end Sys2Proof.Machine
end

