-- ==== Sys2Proof/Machine/CopyRun.lean ====
section
/-!
DEFINITION. What the copy and gather engines do for each element of a command (R183, R187 to R191): the operand words, the two ends of a copy, the
conversions, fills, gathers, scatters and transfers.
-/

namespace Sys2Proof.Machine

open Sys2Proof

/-! ## Operand words (R183, R187, R190) -/

/-- A tile pointer, and whether a reserved bit, a reserved `SEG` or a misaligned `ADDR` makes it unusable. -/
structure TilePtr where
  t1   : Nat
  t0   : Nat
  swz  : Nat
  dfmt : Nat
  core : Nat
  seg  : Nat
  addr : Nat
  bad  : Bool
  deriving DecidableEq, Repr

/-- The fields of a tile pointer: `t1` and `t0` are the rows and the elements of a row. -/
def tilePtr (v : Word) : TilePtr :=
  let w := v.toNat
  { t1 := bits w 52 12 + 1, t0 := bits w 36 16 + 1, swz := bits w 32 4, dfmt := bits w 25 6, core := bits w 23 2, seg := bits w 21 2,
    addr := bits w 0 21, bad := v.getLsbD 31 || 2 ≤ bits w 21 2 || bits w 0 2 != 0 }

/-- The format of the scratchpad side. -/
def tileFmt (h : Handle) (p : TilePtr) : Nat := if p.dfmt = 0 then hFmt h else p.dfmt

/-- The entries of an index pointer. -/
def indexCount (v : Word) : Nat := bits v.toNat 32 16 + 1

/-! ## The two ends of a copy (R187, R189) -/

/-- One end of a copy: a tile of a partition, or a tensor from a coordinate on. -/
inductive CopyEnd where
  | tile (base : Word) (fmt n : Nat)
  | tensor (h g : Handle) (at0 : Coord)
  deriving DecidableEq, Repr

/-- The format of an end. -/
def CopyEnd.fmt : CopyEnd → Nat
  | .tile _ f _ => f
  | .tensor h _ _ => hFmt h

/-- Whether an end is scale-linked. -/
def CopyEnd.scl : CopyEnd → Bool
  | .tile .. => false
  | .tensor h _ _ => hScl h

/-- The coordinate at which an end begins. -/
def CopyEnd.start : CopyEnd → Coord
  | .tile .. => ⟨0, 0, 0, 0⟩
  | .tensor _ _ c => c

/-- The code of an element of an end. -/
def endRead (x : EngCtx) (e : CopyEnd) (u : Coord) : E Nat :=
  match e with
  | .tile base f n => readBits x base (tileBit n (fmtBits f) u.c1 u.c0) (fmtBits f)
  | .tensor h _ c => readElem x h (c.add u)

/-- The value of an element of an end, with its flags. -/
def endValue (x : EngCtx) (e : CopyEnd) (u : Coord) : E (EVal × Flags) :=
  match e with
  | .tensor h g c => elemValueE x h g (c.add u)
  | .tile _ f _ => do
    let v ← endRead x e u
    match elemValue f v with
    | some w => pure (w, snanFlag f v)
    | none => failE 3

/-- The code of an element of an end written. The last element of a tile row completes its last byte with 0 (R90). -/
def endWrite (x : EngCtx) (e : CopyEnd) (u : Coord) (v : Nat) : E Unit :=
  match e with
  | .tile base f n =>
    let w := fmtBits f
    let more := if u.c0 + 1 = n then (8 - (n * w) % 8) % 8 else 0
    writeBits x base (tileBit n w u.c1 u.c0) (w + more) (v % 2 ^ w)
  | .tensor h _ c => writeElem x h (c.add u) v

/-- The value of a pad element of an end's format: for an aligned format the signed integer of its width; a `t2` code without a value fails the command (R91). -/
def padValue (h : Handle) : E EVal :=
  match elemValue (hFmt h) (padCode h) with
  | some v => pure v
  | none => if fmtAligned (hFmt h) then pure (.int (signedOf (fmtBits (hFmt h)) (padCode h))) else failE 3

/-- A copy from one end to another of n elements along each dimension; `pad` is the handle whose pad value completes blocks. -/
structure CopyJob where
  src : CopyEnd
  dst : CopyEnd
  n   : Coord
  pad : Handle
  deriving DecidableEq, Repr

/-- Whether a copy moves bits unchanged: equal formats, neither side scale-linked (R189). -/
def CopyJob.plain (j : CopyJob) : Bool := j.src.fmt == j.dst.fmt && !j.src.scl && !j.dst.scl

/-- Whether a copy of one format to another is legal (R189). -/
def copyLegal (src dst : CopyEnd) : Bool :=
  let f := src.fmt
  let g := dst.fmt
  !(fmtAligned f) && !dst.scl &&
    (f == g && !src.scl ||
      (if fmtAligned g then fmtInt f || f == 0x12 || fmtFloat f && g != 0x2F else convLegal f g))

/-- The blocks of 64 along d0 that a row of a copy fills in an aligned destination: the first and how many. -/
def CopyJob.blocks (j : CopyJob) : Nat × Nat :=
  let c := j.dst.start.c0
  if j.n.c0 = 0 then (c / 64, 0) else (c / 64, (c + j.n.c0 - 1) / 64 - c / 64 + 1)

/-- The coordinate of the i-th element in d0-fastest order. -/
def unrank (n : Coord) (i : Nat) : Coord :=
  ⟨i % n.c0, i / n.c0 % n.c1, i / (n.c0 * n.c1) % n.c2, i / (n.c0 * n.c1 * n.c2)⟩

/-- The steps of a copy: its elements, or its blocks for an aligned destination. -/
def CopyJob.steps (j : CopyJob) : Nat :=
  (if fmtAligned j.dst.fmt then j.blocks.2 else j.n.c0) * j.n.c1 * j.n.c2 * j.n.c3

/-- The elements that the first steps of a copy perform. -/
def CopyJob.done (j : CopyJob) (pos : Nat) : Nat :=
  if fmtAligned j.dst.fmt then
    if j.blocks.2 = 0 then 0
    else
      let row := pos / j.blocks.2
      let part := pos % j.blocks.2
      let first := 64 - j.dst.start.c0 % 64
      row * j.n.c0 + (if part = 0 then 0 else Nat.min j.n.c0 (first + 64 * (part - 1)))
  else pos

/-- One element copied (R189). -/
def copyElem (x : EngCtx) (j : CopyJob) (i : Nat) : E Unit := do
  let u := unrank j.n i
  if j.plain then do
    let v ← endRead x j.src u
    endWrite x j.dst u v
  else do
    let (v, f) ← endValue x j.src u
    let (b, g) := convertTo j.dst.fmt .rne v
    flagE x (f ||| g)
    endWrite x j.dst u b

/-- The values of a block of 64 destination elements of a row: elements of the copy, and pads where it has none. -/
def blockValues (x : EngCtx) (j : CopyJob) (u : Coord) (block : Nat) : Nat → E (List EVal × Flags)
  | 0 => pure ([], 0)
  | k + 1 => do
    let d := 64 * block + (63 - k)
    let c := j.dst.start.c0
    let (v, f) ← if c ≤ d ∧ d < c + j.n.c0 then endValue x j.src { u with c0 := d - c } else do
        let p ← padValue j.pad
        pure (p, 0)
    let (vs, g) ← blockValues x j u block k
    pure (v :: vs, f ||| g)

/-- A block in aligned form: codes, exponent byte, flags (R104, R105). -/
def alignCodes (f : Nat) (vs : List EVal) : List Nat × Nat × Flags :=
  let w := fmtBits f
  if vs.any fun v => match v with | .flt _ => true | .int _ => false then
    let (qs, c, fl) := alignBlock (vs.map fun v => match v with | .flt x => x | .int i => fofInt false i 0) w
    (qs.map (wrapTo w), c, fl)
  else
    let rs := vs.map fun v => match v with
      | .int i => saturate (if f = 0x2F then 0x12 else f) i
      | .flt _ => (0, 0)
    (rs.map Prod.fst, 127, rs.foldl (fun a r => a ||| r.2) 0)

/-- The address and the extents of an aligned destination: a tile is 256 by 256. -/
def imageBase : CopyEnd → Word
  | .tile base _ _ => base
  | .tensor h _ _ => hBase h

/-- Whether an element lies in an aligned destination. -/
def inImage (e : CopyEnd) (u : Coord) : Bool :=
  inPlanes u &&
    match e with
    | .tile .. => true
    | .tensor h _ _ => inExtent h u

/-- The codes of a block written into a weight image (R240). -/
def writeBlock (x : EngCtx) (e : CopyEnd) (at0 : Coord) : List Nat → Nat → E Unit
  | [], _ => pure ()
  | v :: r, k => do
    if inImage e { at0 with c0 := k } then
      writePlanes x (imageBase e) (fmtBits e.fmt) k at0.c1 v (fmtBits e.fmt)
    else pure ()
    writeBlock x e at0 r (k + 1)

/-- One block copied into an aligned destination: its exponent byte and its planes (R104, R105, R189). DESIGN CHOICE (log 82): of an exponent code above
255, which R105 does not bound, the low 8 bits are stored. -/
def copyBlock (x : EngCtx) (j : CopyJob) (i : Nat) : E Unit := do
  let (first, nb) := j.blocks
  let block := first + i % nb
  let u := unrank ⟨1, j.n.c1, j.n.c2, j.n.c3⟩ (i / nb)
  let (vs, f) ← blockValues x j u block 64
  let (qs, c, g) := alignCodes j.dst.fmt vs
  flagE x (f ||| g)
  let d := j.dst.start.add u
  if inImage j.dst { d with c0 := 64 * block } then
    once (writePart x .any (imageBase j.dst + BitVec.ofNat 64 (4 * d.c1 + block)) [BitVec.ofNat 8 c])
  else pure ()
  writeBlock x j.dst d qs (64 * block)

/-- One step of a copy. -/
def copyStep (x : EngCtx) (j : CopyJob) (i : Nat) : E Unit :=
  if fmtAligned j.dst.fmt then copyBlock x j i else copyElem x j i

/-! ## The jobs of the copy engine (R187) -/

/-- The counts that remain from a coordinate to the extents of a handle. -/
def restOf (h : Handle) (c : Coord) : Coord :=
  ⟨hExtent h 0 - c.c0, hExtent h 1 - c.c1, hExtent h 2 - c.c2, hExtent h 3 - c.c3⟩

/-- The tile end of `CTLD` and `CTST`. -/
def tileEnd (h : Handle) (p : TilePtr) : CopyEnd := .tile (sideBase p.seg p.core p.addr) (tileFmt h p) p.t0

/-- The job of a `CTLD`, `CTST` or `CCPY`. -/
def copyJob (c : EngCmd) : CopyJob :=
  let p := tilePtr c.rb
  match c.code with
  | 0 => { src := .tensor c.h c.scale (coordOf c.ra), dst := tileEnd c.h p, n := ⟨p.t0, p.t1, 1, 1⟩, pad := c.h }
  | 1 => { src := tileEnd c.h p, dst := .tensor c.h c.scale (coordOf c.ra), n := ⟨p.t0, p.t1, 1, 1⟩, pad := c.h }
  | _ => { src := .tensor c.h c.scale (coordOf c.ra), dst := .tensor c.h2 c.scale2 (coordOf c.rb), n := restOf c.h (coordOf c.ra), pad := c.h }

/-- One element of a `CFILL` (R187, R188). -/
def fillStep (x : EngCtx) (c : EngCmd) (i : Nat) : E Unit :=
  let a := coordOf c.ra
  writeElem x c.h (a.add (unrank (restOf c.h a) i)) (c.rb.toNat % 2 ^ fmtBits (hFmt c.h))

/-- The elements of a `CFILL`. -/
def fillCount (c : EngCmd) : Nat :=
  let r := restOf c.h (coordOf c.ra)
  r.c0 * r.c1 * r.c2 * r.c3

/-! ## `CXFR` (R173, R187) -/

/-- The unit of the command's launch with a placement index. -/
def unitByIndex (s : State) (u : UnitState) (n : Nat) : Option Nat :=
  (s.units.find? fun p => p.2.alive && p.2.place.resident && p.2.ident.key == u.ident.key && p.2.ident.index == n).map Prod.fst

/-- The row of R171 that an offset of a block lies in: its first offset and its size. -/
def blockRow (off : Nat) : Option (Nat × Nat) :=
  if off < 0x180000 then some (0, 0x180000)
  else if 0x400000 ≤ off ∧ off < 0x420000 then some (0x400000, 0x20000)
  else if 0x420000 ≤ off ∧ off < 0x440000 then some (0x420000, 0x20000)
  else if 0x800000 ≤ off ∧ off < 0xC00000 then some (0x800000, 0x400000)
  else if 0xC00000 ≤ off ∧ off < 0x1000000 then some (0xC00000, 0x400000)
  else none

/-- The words of a `CXFR`. -/
def xferWords (c : EngCmd) : Nat := (bits c.ra.toNat 32 16 + 1) / 4

/-- The target unit's index in the placement. -/
def xferTarget (c : EngCmd) : Nat := bits c.rb.toNat 32 10

/-- A word written to a target's registers through the register window. -/
def xferReg (target : Nat) (q : Seq) (o : Nat) (v : Nat) : E Unit := do
  let s ← getS
  let u := getUnit s target
  if windowPermits (u.seq q) o then
    let w := o / 8 * 8
    updE fun s => setUnit s target (setRegionWord u q w (setHalf (regionWord u q w 0) (o % 8 == 4) v))
  else failE 1

/-- A word of a `CXFR` to the `dqin` port: the pair of words that the port takes pushes one entry with its second word, which releases all that the command has done and
acquired at `lnch` (R270); a full queue holds the command (R172). -/
def xferPort (x : EngCtx) (c : EngCmd) (target : Nat) (q : Seq) (i v : Nat) (low : Nat) : E Unit := do
  let s ← getS
  if i % 2 = 0 then pure ()
  else if 16 ≤ (getSeq s target q).dq.dqin.length then holdE .dqin
  else
    let rel : Release := { agent := x.agent, scope := 4, hist := tabPut (histOf s x.agent) x.agent (c.seqNo + 1) }
    updE fun s => pushDqin s target q (BitVec.ofNat 64 (low + v * 2 ^ 32)) (some rel)

/-- One word of a `CXFR`. DESIGN CHOICE (log 43): a command to the `dqin` port is one of exactly two words, the pair that the port takes (R172); any other fails with `STAT` 1. DESIGN CHOICE (log 91): a word to an
accumulator row whose row group is not allotted to the target is dropped, and the command completes. -/
def xferStep (x : EngCtx) (c : EngCmd) (i : Nat) : E Unit := do
  let s ← getS
  let src := bits c.ra.toNat 0 21
  let at0 := bits c.rb.toNat 0 24
  let off := at0 + 4 * i
  match unitByIndex s (getUnit s x.uid) (xferTarget c) with
  | none => failE 1
  | some t => do
    let bs ← readE x (sideBase 0 0 (src + 4 * i)) 4
    if off < 0x180000 then do
      let s ← getS
      match partPlace s x.uid t off with
      | .error _ => failE 1
      | .ok _ =>
        let ps := (List.range 4).map fun k => Place.mem (spadPa (getUnit s t) (off + k))
        putPlacesE x (sideBase 1 0 off) ps bs
    else if off < 0x440000 then
      let row := (off - 0x400000) / 1024
      putPlacesE x (accVa (.acc t row (off % 1024))) ((List.range 4).map fun k => Place.acc t row (off % 1024 + k)) bs
    else if off < 0xC00000 then xferReg t (seqOf (off / 0x100000 % 4)) (off % 0x100000) (leValue bs)
    else if at0 % 0x100000 = 0 ∧ xferWords c = 2 then do
      let lo ← if i % 2 = 1 then readE x (sideBase 0 0 (src + 4 * i - 4)) 4 else pure bs
      xferPort x c t (seqOf (off / 0x100000 % 4)) i (leValue bs) (leValue lo)
    else failE 1

/-! ## The gather engine (R190, R191) -/

/-- The elements of one index entry: `D0`, or a block of `D0` by `D1` for `GATHP`. -/
def entryElems (c : EngCmd) : Nat := if c.code = 2 then hDim c.h 0 * hDim c.h 1 else hDim c.h 0

/-- The address of the index list and of the rows. -/
def listBase (v : Word) : Word := sideBase (bits v.toNat 21 2) (bits v.toNat 23 2) (bits v.toNat 0 21)

/-- The function that `SCATA` performs on each element (R191). -/
def scataOp (f : Nat) (b : Nat) : AtomOp :=
  { fn := if f = 8 then 12 else 4, ord := 0, scope := 6, w32 := f != 4, b := BitVec.ofNat 64 b, c := 0 }

/-- One element add of `SCATA` (R191): a relaxed atomic at `dev`, or a deferred record while its unit collects (R301). DESIGN CHOICE
(log 80): its F32 add raises no flag of `AFLAGS`. -/
def scataElem (x : EngCtx) (h : Handle) (u : Coord) (b : Nat) : E Unit := once do
  let o := scataOp (hFmt h) b
  let va := hBase h + BitVec.ofNat 64 (elemBit h u / 8)
  let ps ← placesE x va .atomic o.size
  if x.level.isSome && isGlobalVa va then
    fun r => .ok ((), { r with recs := r.recs ++ [makeRecord x.agent x.region 2 (some o) va.toNat (leBytes o.size b) (ps.headD (.mem 0))] })
  else do
    let s ← getS
    let u := getUnit s x.uid
    match checkMark x.agent x.region u.ident.key.cont u.ident.key.job (wordVa va ps) true true (placeRuns ps) s with
    | .error r => raceE va r
    | .ok t => updE fun _ => (performAtomic t ps o (fenceRels t x.agent)).2

/-- One element of a gather command: the index of its entry is read, then the element moves. -/
def gatherStep (x : EngCtx) (c : EngCmd) (i : Nat) : E Unit := do
  let n := entryElems c
  let e := i / n
  let k := i % n
  let w := fmtBits (hFmt c.h)
  let d0 := hDim c.h 0
  -- an index is read by the tag of its region, whatever the command declares (R165)
  let idx ← readE { x with bad := [], moved := [] } (listBase c.ra + BitVec.ofNat 64 (4 * e)) 4
  let ix := leValue idx
  let row := if c.code = 2 then e * hDim c.h 1 + k / d0 else e
  let bit := tileBit d0 w row (k % d0)
  let u : Coord := if c.code = 2 then ⟨k % d0, k / d0, ix, 0⟩ else ⟨k % d0, ix, 0, 0⟩
  let inside := if c.code = 2 then ix < hDim c.h 2 else ix < hDim c.h 1
  if ix = 0xFFFFFFFF then pure ()
  else if c.code = 0 ∨ c.code = 2 then do
    let v ← if inside then readElem x c.h u else pure (padCode c.h)
    let more := if k % d0 + 1 = d0 then (8 - (d0 * w) % 8) % 8 else 0
    writeBits x (listBase c.rb) bit (w + more) (v % 2 ^ w)
  else if !inside then pure ()
  else do
    let v ← readBits x (listBase c.rb) bit w
    if c.code = 1 then writeElem x c.h u v else scataElem x c.h u v

/-! ## Steps of a command -/

/-- The steps of a copy-engine command. -/
def copySteps (c : EngCmd) : Nat :=
  match c.code with
  | 3 => fillCount c
  | 4 => 0
  | 5 => xferWords c
  | _ => (copyJob c).steps

/-- One step of a copy-engine command. -/
def copyDo (x : EngCtx) (c : EngCmd) (i : Nat) : E Unit :=
  match c.code with
  | 3 => fillStep x c i
  | 4 => pure ()
  | 5 => xferStep x c i
  | _ => copyStep x (copyJob c) i

/-- `DONE` of a copy-engine command after a number of steps (R185, R187). -/
def copyDone (c : EngCmd) (pos : Nat) : Nat :=
  match c.code with
  | 3 => pos
  | 4 => (tilePtr c.rb).t0 * (tilePtr c.rb).t1
  | 5 => pos
  | _ => (copyJob c).done pos

/-- The steps of a gather command. -/
def gatherSteps (c : EngCmd) : Nat := indexCount c.ra * entryElems c

/-- `DONE` of a gather command: index entries performed (R185). -/
def gatherDone (c : EngCmd) (pos : Nat) : Nat := pos / entryElems c

end Sys2Proof.Machine
end

