-- ==== Sys2Proof/Machine/CopyEngine.lean ====
section
/-!
DEFINITION. The issue of copy and gather commands (R183, R184, R187 to R190): the checks in their order, the retagging of regions (R165, R166) and the
locks (R168).
-/

namespace Sys2Proof.Machine

open Sys2Proof

/-! ## The scratchpad sides of a command -/

/-- A range of a partition that a command reads or writes, with the swizzle code it declares. -/
structure Side where
  owner : Nat
  off   : Nat
  len   : Nat
  write : Bool
  swz   : Nat
  deriving DecidableEq, Repr

/-- The touched box of a tensor: the coordinates from `c` on, `n` along each dimension, within the extents; the lowest and the highest. -/
def boxOf (h : Handle) (c n : Coord) : Option (Coord × Coord) :=
  let hi (s m e : Nat) := Nat.min (s + m) e
  let t : Coord := ⟨hi c.c0 n.c0 (hExtent h 0), hi c.c1 n.c1 (hExtent h 1), hi c.c2 n.c2 (hExtent h 2), hi c.c3 n.c3 (hExtent h 3)⟩
  if c.c0 < t.c0 ∧ c.c1 < t.c1 ∧ c.c2 < t.c2 ∧ c.c3 < t.c3 then some (c, ⟨t.c0 - 1, t.c1 - 1, t.c2 - 1, t.c3 - 1⟩) else none

/-- The bytes from `BASE` that a box touches: the lowest, and the count up to the highest (R168); a weight image whole (R176). -/
def boxBytes (h : Handle) (lo hi : Coord) : Nat × Nat :=
  if fmtAligned (hFmt h) then (0, hSpan h)
  else
    let a := elemBit h lo / 8
    (a, (elemBit h hi + fmtBits (hFmt h) + 7) / 8 - a)

/-- The side of a place-2 tensor for a box; none for a tensor in global memory or an empty box. -/
def tensorSide (s : State) (uid : Nat) (h : Handle) (c n : Coord) (write : Bool) : List Side :=
  if hPlace h ≠ 2 then []
  else
    match partOf s uid (hBase h), boxOf h c n with
    | some (v, o), some (lo, hi) =>
      let (a, len) := boxBytes h lo hi
      [{ owner := v, off := o + a, len := len, write := write, swz := hSwz h }]
    | _, _ => []

/-- The side of the scale handle of a scale-linked source. -/
def scaleSide (s : State) (uid : Nat) (h g : Handle) (c n : Coord) : List Side :=
  if hScl h then
    match boxOf h c n with
    | some (lo, hi) =>
      tensorSide s uid g { lo with c0 := lo.c0 / 64 }
        ⟨hi.c0 / 64 - lo.c0 / 64 + 1, hi.c1 - lo.c1 + 1, hi.c2 - lo.c2 + 1, hi.c3 - lo.c3 + 1⟩ false
    | none => []
  else []

/-- The partition that a pointer's `SEG` and `CORE` name (R160, R161). -/
def pointerOwner (s : State) (uid seg core : Nat) : Option Nat :=
  let u := getUnit s uid
  if seg = 0 then some uid else if seg = 1 then siblingOn s u (u.place.core / 4 * 4 + core) else none

/-- The bytes of a tile of n rows of m elements of a format (R183, R241); the rows of an image are written in whole blocks of 64. -/
def tileBytes (f rows n : Nat) : Nat :=
  if fmtAligned f then (if n ≤ 256 ∧ rows ≤ 256 then 1024 + 8192 * (fmtBits f - 1) + 32 * (rows - 1) + (n + 63) / 64 * 8 else 2 ^ 32)
  else (rows - 1) * tilePitch n (fmtBits f) + (n * fmtBits f + 7) / 8

/-- Whether a range touches the stage of an open level (R300). -/
def touchesStage (u : UnitState) (off len : Nat) : Bool :=
  u.levels.any fun l => 0 < l.stageN && off < l.stage + l.stageN * 4096 && l.stage < off + len

/-- Whether a range stays within a partition, and for the issuer's own outside the stages of its open levels (R160, R161, R300). -/
def rangeFits (s : State) (uid owner off len : Nat) : Bool :=
  let v := getUnit s owner
  off + len ≤ v.place.spadSize && !(owner == uid && touchesStage v off len)

/-- Whether the scratchpad extents of a command touch a stage of its unit (R300, R315). -/
def extentsInStage (u : UnitState) (xs : List Extent) : Bool := xs.any fun x => !x.rows && touchesStage u x.lo (x.hi - x.lo)

/-- The 4 KiB regions that a range touches. -/
def regionsOf (off len : Nat) : List Nat :=
  (List.range ((off + len + 4095) / 4096 - off / 4096)).map fun i => off / 4096 + i

/-- Whether a range covers a region whole. -/
def coversRegion (off len r : Nat) : Bool := off ≤ 4096 * r && 4096 * r + 4096 ≤ off + len

/-- Whether a side's code agrees with the tags (R165, R166): a read requires its code everywhere, a write where it does not cover the region
whole. -/
def sideAgrees (s : State) (x : Side) : Bool :=
  x.swz ≤ 6 && (regionsOf x.off x.len).all fun r => (x.write && coversRegion x.off x.len r) || regionTag s x.owner r == x.swz

/-- The tags that a command sets at its issue (R166). -/
def retag (s : State) (xs : List Side) : State :=
  xs.foldl (fun s x =>
    if x.write then
      (regionsOf x.off x.len).foldl (fun s r => if coversRegion x.off x.len r then retagRegion s x.owner r x.swz else s) s
    else s) s

/-- The locks of a command: the extents in its own partition (R168). -/
def locksOf (uid : Nat) (xs : List Side) : List Extent :=
  (xs.filter fun x => x.owner == uid).map fun x => { rows := false, write := x.write, lo := x.off, hi := x.off + x.len }

/-- The pointers are checked: window-permission first, then swizzle-mismatch (R165, R166, R184). `bad` tells a pointer that is wrong in itself. -/
def checkSides (c : Ctx) (bad : Bool) (xs : List Side) : M Unit := fun s =>
  if bad || xs.any fun x => !(rangeFits s c.uid x.owner x.off x.len) then windowFault c s
  else if xs.any fun x => !(sideAgrees s x) then swizzleFault c s
  else .ok ((), s)

/-- The scratchpad bits that a command writes of a place-2 tensor in a box of coordinates (R135), none for a tensor in global memory; a weight image whole (R176). -/
def tensorBoxes (s : State) (uid : Nat) (h : Handle) (c n : Coord) : List WriteBox :=
  if hPlace h ≠ 2 then []
  else
    match partOf s uid (hBase h), boxOf h c n with
    | some (v, o), some (lo, hi) =>
      let w := fmtBits (hFmt h)
      if fmtAligned (hFmt h) then [{ owner := v, base := o, start := 0, len := 8 * hSpan h, n1 := 1, n2 := 1, n3 := 1, s1 := 0, s2 := 0, s3 := 0 }]
      else [{ owner := v, base := o, start := elemBit h lo, len := (hi.c0 - lo.c0 + 1) * w, n1 := hi.c1 - lo.c1 + 1, n2 := hi.c2 - lo.c2 + 1
              n3 := hi.c3 - lo.c3 + 1, s1 := hStride h 1 * w, s2 := hStride h 2 * w, s3 := hStride h 3 * w }]
    | _, _ => []

/-- The coordinate of element i of row r. -/
def rowCoord (h : Handle) (r i : Nat) : Coord :=
  ⟨i, r % hExtent h 1, r / hExtent h 1 % hExtent h 2, r / (hExtent h 1 * hExtent h 2)⟩

/-- The scratchpad bits of n rows of a tensor from a row on. -/
def rowsBoxes (s : State) (uid : Nat) (h : Handle) (r0 n : Nat) : List WriteBox :=
  (List.range n).flatMap fun q => tensorBoxes s uid h (rowCoord h (r0 + q) 0) ⟨hExtent h 0, 1, 1, 1⟩

/-- The scratchpad bits of a run of bytes. -/
def byteBox (owner off len : Nat) : WriteBox :=
  { owner := owner, base := off, start := 0, len := 8 * len, n1 := 1, n2 := 1, n3 := 1, s1 := 0, s2 := 0, s3 := 0 }

/-- The scratchpad bits of a tile of rows of n elements of a format (R183). -/
def tileBox (owner off f rows n : Nat) : WriteBox :=
  if fmtAligned f then byteBox owner off (tileBytes f rows n)
  else { byteBox owner off 0 with len := n * fmtBits f, n1 := rows, s1 := 8 * tilePitch n (fmtBits f) }

/-- A checked command enters its queue: its locks are taken and its regions retagged at once (R166, R184). -/
def pushChecked (c : Ctx) (e : Eng) (xs : List Side) (mk : EngCmd → EngCmd) : M Unit := do
  pushCommand c e (locksOf c.uid xs) mk
  upd fun s => retag s xs

/-- The check of the scale handle that a handle links in pending-bit debug mode, before the word pops anything (R81). -/
def pendScale (c : Ctx) (h : Handle) : M Unit := if hScl h then pendCheck c .handle (hSidx h) else pure ()

/-- The scale handle of a scale-linked handle, zero for any other. -/
def scaleOf (c : Ctx) (h : Handle) : M Handle := do
  if hScl h then rh c (hSidx h) else pure 0

/-- The mask that leaves the tag check of a destination to R166 (R188). -/
def destMask : Word := 0x200

/-! ## The copy engine (R187, R188) -/

/-- The tile side of `CTLD` and `CTST`. -/
def tileSide (s : State) (uid : Nat) (h : Handle) (p : TilePtr) (write : Bool) : Option Side :=
  (pointerOwner s uid p.seg p.core).map fun v =>
    { owner := v, off := p.addr, len := tileBytes (tileFmt h p) p.t1 p.t0, write := write, swz := p.swz }

/-- The body of `CTLD` (`store` false) and `CTST` (`store` true). -/
def tileBody (c : Ctx) (ha : Nat) (a b : BitVec 6) (l : BitVec 1) (store : Bool) : M Unit := do
  let h ← rh c ha
  pendScale c h
  let (x, y) ← rs2 c a b
  checkHandle c h store (if store then destMask else 0)
  let g ← scaleOf c h
  let p := tilePtr y
  let n : Coord := ⟨p.t0, p.t1, 1, 1⟩
  if !(fmtValid (tileFmt h p)) then formatFault c
  else do
    let s ← get
    let ts := tensorSide s c.uid h (coordOf x) n store ++ (if store then [] else scaleSide s c.uid h g (coordOf x) n)
    match tileSide s c.uid h p (!store) with
    | none => windowFault c
    | some t => do
      checkSides c p.bad (t :: ts)
      let tile : CopyEnd := tileEnd h p
      let tensor : CopyEnd := .tensor h g (coordOf x)
      if (if store then copyLegal tile tensor else copyLegal tensor tile) then
        pushChecked c .copy (t :: ts) fun k =>
          { k with code := if store then 1 else 0, rl := l == 1, ra := x, rb := y, h := h, scale := g
                   writes := if store then tensorBoxes s c.uid h (coordOf x) n else [tileBox t.owner p.addr (tileFmt h p) p.t1 p.t0] }
      else formatFault c

/-- `CTLD`: the tile from the tensor into the scratchpad (R187). -/
def execCtld (h : BitVec 4) (a b : BitVec 6) (l : BitVec 1) (t : BitVec 2) (s : State) : Host.Outcome State Fault Refusal :=
  issue (.ctld h a b l t) t true (fun c => tileBody c h.toNat a b l false) s

/-- `CTST`: the scratchpad tile into the tensor (R187). -/
def execCtst (h : BitVec 4) (a b : BitVec 6) (l : BitVec 1) (t : BitVec 2) (s : State) : Host.Outcome State Fault Refusal :=
  issue (.ctst h a b l t) t true (fun c => tileBody c h.toNat a b l true) s

/-- `CCPY`: from the handle of an even number to the next one (R187). -/
def execCcpy (h : BitVec 3) (a b : BitVec 6) (l : BitVec 1) (t : BitVec 2) (s : State) : Host.Outcome State Fault Refusal :=
  issue (.ccpy h a b l t) t true (fun c => do
    let h1 ← rh c (2 * h.toNat)
    let h2 ← rh c (2 * h.toNat + 1)
    pendScale c h1
    pendScale c h2
    let (x, y) ← rs2 c a b
    checkHandle c h1 false 0
    checkHandle c h2 true destMask
    let g1 ← scaleOf c h1
    let g2 ← scaleOf c h2
    let s ← get
    let n := restOf h1 (coordOf x)
    let xs := tensorSide s c.uid h1 (coordOf x) n false ++ scaleSide s c.uid h1 g1 (coordOf x) n ++
      tensorSide s c.uid h2 (coordOf y) n true
    checkSides c false xs
    if copyLegal (.tensor h1 g1 (coordOf x)) (.tensor h2 g2 (coordOf y)) then
      pushChecked c .copy xs fun k =>
        { k with code := 2, rl := l == 1, ra := x, rb := y, h := h1, h2 := h2, scale := g1, scale2 := g2
                 writes := tensorBoxes s c.uid h2 (coordOf y) n }
    else formatFault c) s

/-- `CFILL`: fills from the coordinates to the extents (R187, R188); a scale-linked destination is a format fault (R189). -/
def execCfill (h : BitVec 4) (a b : BitVec 6) (l : BitVec 1) (t : BitVec 2) (s : State) : Host.Outcome State Fault Refusal :=
  issue (.cfill h a b l t) t true (fun c => do
    let h1 ← rh c h.toNat
    let (x, y) ← rs2 c a b
    checkHandle c h1 true destMask
    let s ← get
    let xs := tensorSide s c.uid h1 (coordOf x) (restOf h1 (coordOf x)) true
    checkSides c false xs
    if hScl h1 then formatFault c
    else pushChecked c .copy xs fun k =>
      { k with code := 3, rl := l == 1, ra := x, rb := y, h := h1, writes := tensorBoxes s c.uid h1 (coordOf x) (restOf h1 (coordOf x)) }) s

/-- `CPFX`: a prefetch; no architectural effect but its completion (R187). -/
def execCpfx (h : BitVec 4) (a b : BitVec 6) (l : BitVec 1) (t : BitVec 2) (s : State) : Host.Outcome State Fault Refusal :=
  issue (.cpfx h a b l t) t true (fun c => do
    let h1 ← rh c h.toNat
    let (x, y) ← rs2 c a b
    checkHandle c h1 false 0
    pushChecked c .copy [] fun k => { k with code := 4, rl := l == 1, ra := x, rb := y, h := h1 }) s

/-- Whether the operand words of a `CXFR` are well-formed: reserved bits 0, offsets and length multiples of 4, the target range within one row
of R171 (R187). -/
def xferLegal (x y : Word) : Bool :=
  let a := x.toNat
  let b := y.toNat
  let len := bits a 32 16 + 1
  let off := bits b 0 24
  bits a 21 11 == 0 && bits a 48 16 == 0 && bits b 24 8 == 0 && bits b 42 22 == 0 && a % 4 == 0 && len % 4 == 0 && off % 4 == 0 &&
    match blockRow off with
    | some (lo, n) => off + len ≤ lo + n
    | none => false

/-- The sides of a `CXFR`: its source, and its target when that is its own partition. It uses the regions' tags and checks none (R165). -/
def xferLocks (s : State) (uid : Nat) (x y : Word) : List Extent :=
  let len := bits x.toNat 32 16 + 1
  let src := bits x.toNat 0 21
  let off := bits y.toNat 0 24
  { rows := false, write := false, lo := src, hi := src + len } ::
    (if bits y.toNat 32 10 = (getUnit s uid).ident.index ∧ off < 0x180000 then
      [{ rows := false, write := true, lo := off, hi := off + len }] else [])

/-- The scratchpad bytes that a `CXFR` writes, in the partition of the unit that its target word names. -/
def xferWrites (s : State) (uid : Nat) (y : Word) (len : Nat) : List WriteBox :=
  let off := bits y.toNat 0 24
  if off < 0x180000 then
    ((unitsOf s (getUnit s uid).ident.key).filter fun v => (getUnit s v).ident.index == bits y.toNat 32 10).map fun v => byteBox v off len
  else []

/-- `CXFR`: words from the own partition to another core's block (R173, R187). -/
def execCxfr (a b : BitVec 6) (l : BitVec 1) (t : BitVec 2) (s : State) : Host.Outcome State Fault Refusal :=
  issue (.cxfr a b l t) t true (fun c => do
    let (x, y) ← rs2 c a b
    let s ← get
    if !(xferLegal x y) || !(rangeFits s c.uid c.uid (bits x.toNat 0 21) (bits x.toNat 32 16 + 1)) ||
        extentsInStage (getUnit s c.uid) (xferLocks s c.uid x y) then windowFault c
    else pushCommand c .copy (xferLocks s c.uid x y) fun k =>
      { k with code := 5, rl := l == 1, ra := x, rb := y, writes := xferWrites s c.uid y (bits x.toNat 32 16 + 1) }) s

/-! ## The gather engine (R190, R191) -/

/-- Whether an index pointer or a row pointer is wrong in itself (R190). -/
def listBad (v : Word) : Bool :=
  bits v.toNat 0 2 != 0 || 2 ≤ bits v.toNat 21 2 || bits v.toNat 25 7 != 0 || bits v.toNat 48 16 != 0

/-- A row pointer uses `ADDR`, `SEG`, `CORE` and `SWZ`; its other fields are 0 (R190). -/
def rowPtrBad (v : Word) : Bool :=
  bits v.toNat 0 2 != 0 || 2 ≤ bits v.toNat 21 2 || bits v.toNat 25 7 != 0 || bits v.toNat 36 28 != 0

/-- The sides of a gather command: the index list with the tags it finds, the rows, and a place-2 tensor whole. -/
def gatherSides (s : State) (uid : Nat) (code : Nat) (h : Handle) (x y : Word) : Option (Side × List Side) :=
  let n := indexCount x
  let rows := if code = 2 then n * hDim h 1 else n
  match pointerOwner s uid (bits x.toNat 21 2) (bits x.toNat 23 2), pointerOwner s uid (bits y.toNat 21 2) (bits y.toNat 23 2) with
  | some v, some w =>
    some ({ owner := v, off := bits x.toNat 0 21, len := 4 * n, write := false, swz := 0 },
      { owner := w, off := bits y.toNat 0 21, len := tileBytes (hFmt h) rows (hDim h 0), write := code == 0 || code == 2,
        swz := bits y.toNat 32 4 } ::
      (if hPlace h = 2 then
        match partOf s uid (hBase h) with
        | some (o, at0) => [{ owner := o, off := at0, len := hSpan h, write := code == 1 || code == 3, swz := hSwz h }]
        | none => []
       else []))
  | _, _ => none

/-- The scratchpad bits that a gather command writes (R135): the rows of a gather; the tensor of a scatter whole, since its index list names them only as it runs (log 77). -/
def gatherBoxes (s : State) (uid code : Nat) (h : Handle) (x : Word) (xs : List Side) : List WriteBox :=
  if code = 1 ∨ code = 3 then tensorBoxes s uid h ⟨0, 0, 0, 0⟩ ⟨hExtent h 0, hExtent h 1, hExtent h 2, hExtent h 3⟩
  else xs.take 1 |>.map fun r => tileBox r.owner r.off (hFmt h) (if code = 2 then indexCount x * hDim h 1 else indexCount x) (hDim h 0)

/-- The body of a gather command. A rank or a format that its form does not take is a format fault, as is an aligned handle. The tensor of a scatter
keeps the tags it has: its written extent is not known at issue (R166, R190, R191). DESIGN CHOICE (log 92): the check of rank and format stands after the check of the handle and before those of the
pointers. -/
def gatherBody (c : Ctx) (code : Nat) (ha : BitVec 4) (a b : BitVec 6) : M Unit := do
  let h ← rh c ha.toNat
  let (x, y) ← rs2 c a b
  checkHandle c h (code == 1 || code == 3) 0
  let f := hFmt h
  if (if code = 2 then hRank h != 3 else hRank h < 2) || fmtAligned f || (code == 3 && !(f == 8 || f == 3 || f == 4)) then formatFault c
  else do
    let s ← get
    match gatherSides s c.uid code h x y with
    | none => windowFault c
    | some (list, xs) => do
      if !(rangeFits s c.uid list.owner list.off list.len) then windowFault c
      else do
        checkSides c (listBad x || rowPtrBad y) xs
        pushCommand c .gather (locksOf c.uid (list :: xs)) fun k =>
          { k with code := code, ra := x, rb := y, h := h, writes := gatherBoxes s c.uid code h x xs }
        upd fun s => retag s (xs.take 1)

/-- `GATH`: row e of the scratchpad from row x of the tensor (R190). -/
def execGath (h : BitVec 4) (a b : BitVec 6) (t : BitVec 2) (s : State) : Host.Outcome State Fault Refusal :=
  issue (.gath h a b t) t true (fun c => gatherBody c 0 h a b) s

/-- `SCAT`: row x of the tensor from row e of the scratchpad (R190). -/
def execScat (h : BitVec 4) (a b : BitVec 6) (t : BitVec 2) (s : State) : Host.Outcome State Fault Refusal :=
  issue (.scat h a b t) t true (fun c => gatherBody c 1 h a b) s

/-- `GATHP`: a block of `D1` rows for each entry (R190). -/
def execGathp (h : BitVec 4) (a b : BitVec 6) (t : BitVec 2) (s : State) : Host.Outcome State Fault Refusal :=
  issue (.gathp h a b t) t true (fun c => gatherBody c 2 h a b) s

/-- `SCATA`: each element of row x of the tensor plus the matching element of row e (R190, R191). -/
def execScata (h : BitVec 4) (a b : BitVec 6) (t : BitVec 2) (s : State) : Host.Outcome State Fault Refusal :=
  issue (.scata h a b t) t true (fun c => gatherBody c 3 h a b) s

end Sys2Proof.Machine
end

