-- ==== Sys2Proof/Machine/Cask.lean ====
section
/-!
DEFINITION. The CKS instructions: their checks (R299), opening, sealing, deriving, pouring and aborting (R307 to R313).
-/

namespace Sys2Proof.Machine

open Sys2Proof

/-! ## Checks (R299) -/

/-- Whether two ranges overlap. -/
def overlap (a n b m : Nat) : Bool := a < b + m && b < a + n

/-- Whether `POOL` and `CAP` of a descriptor lie within their limits (R296). -/
def poolLimits (h : Handle) : Bool :=
  (ckPool h).toNat % 4096 == 0 && (ckPool h).toNat / 2 ^ 57 == 0 && ckCap h % 32 == 0 && 64 ≤ ckCap h

/-- Whether the stage and the abort target of a descriptor lie within their limits (R296, R308). -/
def stageLimits (u : UnitState) (h : Handle) : Bool :=
  ckAbt h % 4 == 0 && ckAbt h < (u.seq .c).streamSize && 1 ≤ ckStgn h && ckStgn h ≤ 16 && ckStg h % 4096 == 0 &&
    ckStg h + ckStgn h * 4096 ≤ u.place.spadSize &&
    !(u.levels.any fun l => overlap (ckStg h) (ckStgn h * 4096) l.stage (l.stageN * 4096))

/-- Bit n of a check word. -/
def flagBit (n : Nat) (x : Bool) : Word := if x then 1#64 <<< n else 0

/-- The check word of a descriptor; `full` is `CKOPEN`'s check, any other use reads `POOL` and `CAP` only (R296, R299). -/
def descWord (u : UnitState) (h : Handle) (full : Bool) : Word :=
  flagBit 0 (!hVal h) ||| flagBit 1 (!(ckPd h) || !(ckCsk h)) |||
    flagBit 2 (hbits h 253 3 != 0 || hbits h 249 2 != 0 || hbits h 176 72 != 0 || hbits h 136 8 != 0 || hbits h 125 3 != 0) |||
    flagBit 6 (full && 4 ≤ u.levels.length) ||| flagBit 7 (!(poolLimits h) || full && !(stageLimits u h))

/-- What a form expects of a cask handle. -/
inductive CaskWant where
  | sealed | innermost | anyOpen | either
  deriving DecidableEq, Repr

/-- The check word of a cask handle without its `STALE` bit (R299). -/
def caskWord (u : UnitState) (h : Handle) (w : CaskWant) : Word :=
  flagBit 0 (!hVal h) ||| flagBit 1 (!(ckCsk h) || ckPd h) |||
    flagBit 2 (hbits h 252 4 != 0 || hbits h 249 1 != 0 || hbits h 240 6 != 0) ||| flagBit 3 (ckCont h != u.ident.key.cont) |||
    flagBit 5 (match w with
      | .sealed => !(ckSeal h)
      | .innermost => ckSeal h || ckLvl h + 1 != u.levels.length
      | .anyOpen => ckSeal h || u.levels.length ≤ ckLvl h
      | .either => false)

/-- The format fault of a check word that has a bit set. -/
def failCheck (w : Word) : M Unit := if w = 0 then pure () else raise 2 w

/-- The places of n bytes of a pool, for the port's read or write. A miss freezes C, an unmapped page faults (R389, R392, R393). -/
def poolPlaces (c : Ctx) (pool : Word) (off : Nat) (kind : AccKind) (n : Nat) : M (List Place) :=
  seqPlaces c (pool + BitVec.ofNat 64 off) kind n

/-- Bytes of a pool read by the port: no program access (R297), but a request that its controllers charge (R306, R400). -/
def poolRead (c : Ctx) (pool : Word) (off n : Nat) : M (List Byte) := do
  let ps ← poolPlaces c pool off .read n
  upd fun s => chargePlaces s (.unit c.uid) ps
  let s ← get
  pure (ps.map (placeGet s))

/-- Bytes of a pool written by the port; each run of them is a request that its controllers charge (R306, R400). -/
def poolWrite (c : Ctx) (pool : Word) (off : Nat) (bs : List Byte) : M Unit := do
  let ps ← poolPlaces c pool off .write bs.length
  upd fun s => placesPut (chargePlaces s (.unit c.uid) ps) (ps.zip bs)

/-- The serial number in a pool's header. -/
def poolSerial (c : Ctx) (pool : Word) : M Nat := do
  let bs ← poolRead c pool 0 4
  pure (leValue bs)

/-- Whether a value is a sealed cask handle, whose serial counts wherever a form names it. -/
def isSealed (h : Handle) : Bool := hVal h && ckCsk h && !(ckPd h) && ckSeal h

/-- A check word with the `STALE` bit of a handle: C freezes for the read of the pool's header. A header that is not mapped leaves a word that has another bit set as it
is, and else raises its own fault (R299, R393). -/
def staleWord (c : Ctx) (h : Handle) (w : Word) : M Word := fun s =>
  if !(isSealed h) then .ok (w, s)
  else
    match poolSerial c (ckPool h) s with
    | .ok (ser, t) => .ok (w ||| flagBit 4 (ser != ckSer h), t)
    | .error (.freeze x t) => .error (.freeze x t)
    | .error e => if w = 0 then .error e else .ok (w, s)

/-- The `STALE` bits of several handles. -/
def staleWords (c : Ctx) : List Handle → Word → M Word
  | [], w => pure w
  | h :: r, w => do
    let w ← staleWord c h w
    staleWords c r w

/-- The handle operands of a form are checked: a format fault with one check word for all of them, their bits ORed (R299). -/
def checkOperands (c : Ctx) (w : Word) (hs : List Handle) : M Unit := do
  let w ← staleWords c hs w
  failCheck w

/-- A form's only operand, a cask handle, is checked. -/
def checkCask (c : Ctx) (h : Handle) (w : CaskWant) : M Unit := do
  let u ← theUnit c
  checkOperands c (caskWord u h w) [h]

/-! ## Opening and growing (R308) -/

/-- The stores of all four sequencers performed: they belong to what was open before (R300). -/
def performUnit (s : State) (uid : Nat) : State := allSeqs.foldl (fun s q => performAll s uid q) s

/-- `CKOPEN`: a level is pushed (R300, R308). -/
def execCkopen (d a : BitVec 4) (t : BitVec 2) (s : State) : Host.Outcome State Fault Refusal :=
  issue (.ckopen d a t) t true (fun c => do
    let h ← rh c a.toNat
    let u ← theUnit c
    checkOperands c (descWord u h true) [h]
    let ser ← poolSerial c (ckPool h)
    poolWrite c (ckPool h) 0 (poolHeader (ser + 1) 0 32 u.ident.key.cont)
    upd fun s => performUnit s c.uid
    let l : CaskLevel := { id := u.nlevel, pool := ckPool h, cap := ckCap h, serial := (ser + 1) % 2 ^ 32, used := 32, recs := [],
                           stage := ckStg h, stageN := ckStgn h, abt := ckAbt h }
    updUnit c fun u => { u with levels := l :: u.levels, nlevel := u.nlevel + 1 }
    landHandle c d.toNat (openHandle u u.levels.length l) 1) s

/-- The bytes of a level's pool: its header and its records (R297, R302). -/
def levelImage (cont : Nat) (l : CaskLevel) : List Byte :=
  poolHeader l.serial l.recs.length l.used cont ++ l.recs.flatMap CaskRec.bytes

/-- The check word of `CKOPEN` in grow form: the open handle, the descriptor, and a pool that holds the level's records apart from its present one (R308). -/
def growWord (u : UnitState) (g h : Handle) : Word :=
  caskWord u g .anyOpen ||| descWord u h false |||
    flagBit 7 (match levelAt u (ckLvl g) with
      | some l => ckCap h < l.used || overlap (ckPool h).toNat (ckCap h) l.pool.toNat l.cap
      | none => false)

/-- `CKOPEN` in grow form: an open level moves to a larger pool (R308). -/
def execCkopenGrow (d a : BitVec 4) (t : BitVec 2) (s : State) : Host.Outcome State Fault Refusal :=
  issue (.ckopenGrow d a t) t true (fun c => do
    let g ← rh c d.toNat
    let h ← rh c a.toNat
    let u ← theUnit c
    checkOperands c (growWord u g h) [g, h]
    match levelAt u (ckLvl g) with
    | none => raise 2 0x20
    | some l => do
      let m : CaskLevel := { l with pool := ckPool h, cap := ckCap h }
      poolWrite c m.pool 0 (levelImage u.ident.key.cont m)
      updUnit c fun u => { u with levels := u.levels.map fun x => if x.id = l.id then m else x }
      landHandle c d.toNat (openHandle u (ckLvl g) m) 1) s

/-! ## Sealing (R309) -/

/-- Whether a command belongs to a level. -/
def ofLevel (id : Nat) (c : EngCmd) : Bool := c.level == some id

/-- Whether a running command of a unit belongs to a level. -/
def runsOfLevel (uid id : Nat) (r : Option RunCmd) : Bool :=
  match r with
  | some x => x.cmd.uid == uid && ofLevel id x.cmd
  | none => false

/-- Whether an engine command of a level has not completed, wherever it runs (R309). -/
def levelBusy (s : State) (uid id : Nat) : Bool :=
  let u := getUnit s uid
  let core := u.place.core
  let engs : List Eng := [.copy, .gather, .coll, .row, .press]
  (allSeqs.any fun q => engs.any fun e => ((u.seq q).eq e).cmds.any (ofLevel id)) ||
    ((List.range 4).any fun k =>
      let x := getCore s (core / 4 * 4 + k)
      [x.copy.run, x.gather.run, x.row.run, x.relocC, x.relocR].any (runsOfLevel uid id) ||
        (x.copy.waiting ++ x.gather.waiting ++ x.row.waiting).any fun r => runsOfLevel uid id (some r)) ||
    runsOfLevel uid id (getCluster s (core / 4)).press.cur ||
    (getDie s (core / 192)).coll.any fun x => x.cmd.uid == uid && ofLevel id x.cmd

/-- The innermost level popped; a unit that collects no more keeps no reads. -/
def popLevel (u : UnitState) : UnitState :=
  let ls := u.levels.drop 1
  { u with levels := ls, reads := if ls.isEmpty then [] else u.reads }

/-- `CKSEAL`: the innermost level becomes a sealed cask (R309). -/
def execCkseal (d a : BitVec 4) (t : BitVec 2) (s : State) : Host.Outcome State Fault Refusal :=
  issue (.ckseal d a t) t true (fun c => do
    let h ← rh c a.toNat
    checkCask c h .innermost
    let u ← theUnit c
    match u.levels with
    | [] => raise 2 0x20
    | l :: _ => do
      let s ← get
      if levelBusy s c.uid l.id then freeze .engines
      else do
        poolWrite c l.pool 0 (levelImage u.ident.key.cont l)
        updUnit c popLevel
        landHandle c d.toNat (ckHandle true 0 u.ident.key.cont l.serial l.recs.length l.used l.cap l.pool) 1) s

/-! ## Deriving (R310) -/

/-- Records read back from the bytes that follow a pool's header, at most n of them. -/
def parseRecords : Nat → List Byte → List CaskRec
  | 0, _ => []
  | n + 1, bs =>
    if bs.length < 32 then []
    else
      let r := readRecord (bs.take 32) fun len => (bs.drop 32).take len
      r :: parseRecords n (bs.drop r.size)

/-- The records of a sealed cask in its pool. -/
def caskRecords (c : Ctx) (h : Handle) : M (List CaskRec) := do
  let bs ← poolRead c (ckPool h) 0 (ckUsed h)
  pure (parseRecords (Nat.min (ckNrec h) (bs.length / 32)) (bs.drop 32))

/-- Whether a record's first byte lies in a range, computed exactly and unsigned (R310). -/
def inRange (r : CaskRec) (lo n : Word) : Bool := lo.toNat ≤ r.vaddr.toNat && r.vaddr.toNat < lo.toNat + n.toNat

/-- The check word of a derivation: its descriptor, its sealed sources, and storage that overlaps none of them (R299, R310). -/
def deriveWord (u : UnitState) (d : Handle) (srcs : List Handle) : Word :=
  srcs.foldl (fun w h => w ||| caskWord u h .sealed ||| flagBit 7 (overlap (ckPool d).toNat (ckCap d) (ckPool h).toNat (ckUsed h)))
    (descWord u d false)

/-- A derivation is checked: its operands, then the room for the bound (R310). -/
def checkDerive (c : Ctx) (d : Handle) (srcs : List Handle) (bound : Nat) : M Unit := do
  let u ← theUnit c
  checkOperands c (deriveWord u d srcs) (d :: srcs)
  if ckCap d < bound then raise 6 (BitVec.ofNat 64 (2 ^ 63 + bound % 2 ^ 41)) else pure ()

/-- The records of a derived cask written to its pool, and its handle (R310). -/
def writeDerived (c : Ctx) (hd : BitVec 4) (d : Handle) (rs : List CaskRec) : M Unit := do
  let u ← theUnit c
  let ser ← poolSerial c (ckPool d)
  let used := 32 + rs.foldl (fun n r => n + r.size) 0
  poolWrite c (ckPool d) 0 (poolHeader (ser + 1) rs.length used u.ident.key.cont ++ rs.flatMap CaskRec.bytes)
  landHandle c hd.toNat (ckHandle true 0 u.ident.key.cont (ser + 1) rs.length used (ckCap d) (ckPool d)) 1

/-- `CKBLND`: the records of a, then those of b (R310). -/
def execCkblnd (d a b : BitVec 4) (t : BitVec 2) (s : State) : Host.Outcome State Fault Refusal :=
  issue (.ckblnd d a b t) t true (fun c => do
    let g ← rh c d.toNat
    let x ← rh c a.toNat
    let y ← rh c b.toNat
    checkDerive c g [x, y] (ckUsed x + ckUsed y - 32)
    let rs ← caskRecords c x
    let ss ← caskRecords c y
    writeDerived c d g (rs ++ ss)) s

/-- `CKFILT`: the records of a range (R310). -/
def execCkfilt (d a : BitVec 4) (r : BitVec 6) (t : BitVec 2) (s : State) : Host.Outcome State Fault Refusal :=
  issue (.ckfilt d a r t) t true (fun c => do
    let g ← rh c d.toNat
    let x ← rh c a.toNat
    let (lo, n) ← rs2 c r (r + 1)
    checkDerive c g [x] (ckUsed x)
    let rs ← caskRecords c x
    writeDerived c d g (rs.filter fun r => inRange r lo n)) s

/-- `CKREBS`: the records of a range move by an offset (R310). -/
def execCkrebs (d a : BitVec 4) (r : BitVec 6) (t : BitVec 2) (s : State) : Host.Outcome State Fault Refusal :=
  issue (.ckrebs d a r t) t true (fun c => do
    let g ← rh c d.toNat
    let x ← rh c a.toNat
    let (lo, n) ← rs2 c r (r + 1)
    let off ← rs c (r + 2)
    checkDerive c g [x] (ckUsed x)
    let rs ← caskRecords c x
    writeDerived c d g (rs.map fun r => if inRange r lo n then { r with vaddr := r.vaddr + off, paddr := 0 } else r)) s

/-! ## Pouring (R311) -/

/-- Whether a record can be performed as a release. -/
def releasable (r : CaskRec) : Bool :=
  r.rk == 2 || r.rk == 0 && (r.data.length == 4 || r.data.length == 8) && r.vaddr.toNat % r.data.length == 0

/-- The pour word is checked against the cask's records. -/
def pourLegal (w : Word) (rs : List CaskRec) : Bool :=
  bits w.toNat 37 27 == 0 && bits w.toNat 32 4 ≤ 10 &&
    (!(w.getLsbD 36) || match rs.getLast? with | some r => releasable r | none => true)

/-- The atomic that a record performs: a deferred atomic by its own fields, or the last record as a release (R311). -/
def recordAtom (r : CaskRec) (last : Bool) (scp : Nat) : AtomOp :=
  if r.rk = 2 then
    { fn := r.afn, ord := if last then (if r.ord = 0 then 2 else if r.ord = 1 then 3 else r.ord) else r.ord, scope := r.scp
      w32 := r.szw, b := BitVec.ofNat 64 (leValue r.data), c := 0 }
  else { fn := 1, ord := 2, scope := scp, w32 := r.data.length == 4, b := BitVec.ofNat 64 (leValue r.data), c := 0 }

/-- A plain store of C performed at once. -/
def storeNow (c : Ctx) (va : Word) (bs : List Byte) : M Unit := do
  let ps ← seqPlaces c va .write bs.length
  seqLocks c ps true
  needGroups c ps
  seqAccess c va ps true false
  upd fun s => performBytes s (ps.zip bs)

/-- One record of a pour: performed, or while the unit collects a record of the innermost level (R301, R311). -/
def pourRecord (c : Ctx) (r : CaskRec) (last : Bool) (scp : Nat) : M Unit := do
  let u ← theUnit c
  let s ← get
  let a := seqAgent u c.uid c.q
  let collect := collecting u && isGlobalVa r.vaddr
  if r.rk = 2 ∨ last then do
    let o := recordAtom r last scp
    if r.vaddr.toNat % o.size ≠ 0 then raise 4 r.vaddr
    else do
      let ps ← seqPlaces c r.vaddr .atomic o.size
      if collect then
        offerRecords c [makeRecord a (regionOf s a) 2 (some o) r.vaddr.toNat (leBytes o.size o.b.toNat) (ps.headD (.mem 0))]
      else if ps.any isAcc then raise 4 r.vaddr
      else do
        seqLocks c ps true
        let _ ← performNow c r.vaddr ps o
  else if collect then do
    let ps ← seqPlaces c r.vaddr .write r.data.length
    offerRecords c ((pagePieces r.vaddr.toNat r.data ps).map fun x =>
      makeRecord a (regionOf s a) r.rk none x.1 x.2.1 (x.2.2.headD (.mem 0)))
  else storeNow c r.vaddr r.data

/-- What a stop at a record makes of the pour: its progress stays, and a fault holds the record's address, but a capacity fault its own value
(R305, R311). -/
def pourStop (c : Ctx) (t : State) (va : Word) : Stop → Stop
  | .freeze w _ => .freeze w (some (modSeq t c.uid c.q fun sq => sq.modFl fun f => { f with pourAt := va }))
  | .trap cause tval race _ => .trap cause (if cause = 6 then tval else va) race (some t)

/-- One record of a pour from a state that knows its progress. -/
def pourStep (c : Ctx) (r : CaskRec) (last : Bool) (scp : Nat) : M Unit := fun s =>
  match pourRecord c r last scp s with
  | .ok x => .ok x
  | .error e => .error (pourStop c s r.vaddr e)

/-- `CKPOUR`: a record of the cask in each turn, C frozen until the last one is performed (R275, R311). -/
def execCkpour (a : BitVec 4) (r : BitVec 6) (t : BitVec 2) (s : State) : Host.Outcome State Fault Refusal :=
  issue (.ckpour a r t) t false (fun c => do
    let h ← rh c a.toNat
    let sq ← theSeq c
    let w ← rs c r
    if sq.fl.pour.isNone then checkCask c h .sealed else pure ()
    let rs ← caskRecords c h
    if sq.fl.pour.isNone && !(pourLegal w rs) then formatFault c
    else do
      upd fun s => performAll s c.uid c.q
      let k := match sq.fl.pour with
        | some (_, k) => k
        | none => bits w.toNat 0 32
      let progress (k : Nat) : M Unit := updSeq c fun sq => sq.modFl fun f => { f with pour := some (r.toNat, k) }
      match rs[k]? with
      | none => updSeq c fun sq => sq.modFl fun f => { f with pour := none }
      | some x => do
        progress k
        pourStep c x (k + 1 == rs.length && w.getLsbD 36) (bits w.toNat 32 4)
        if k + 1 < rs.length then do
          progress (k + 1)
          freezeKeep .cask
        else updSeq c fun sq => sq.modFl fun f => { f with pour := none }) s

/-! ## Dropping, reading and aborting (R312, R313) -/

/-- `CKDROP`: the pool's serial rises, and every copy of the handle is stale (R312). -/
def execCkdrop (a : BitVec 4) (t : BitVec 2) (s : State) : Host.Outcome State Fault Refusal :=
  issue (.ckdrop a t) t false (fun c => do
    let h ← rh c a.toNat
    checkCask c h .sealed
    let ser ← poolSerial c (ckPool h)
    poolWrite c (ckPool h) 0 (leBytes 8 ((ser + 1) % 2 ^ 32))) s

/-- The values of `CKINFO` (R312); those of an open handle that names no open level are `free`. -/
def infoWord (u : UnitState) (h : Handle) (k : Nat) (free : Word) : Word :=
  let n := u.levels.length
  let level := if ckSeal h then none else levelAt u (ckLvl h)
  match k with
  | 3 => BitVec.ofNat 64 ((if ckSeal h then 1 else 0) + 2 * ckLvl h + if !(ckSeal h) && ckLvl h + 1 == n then 8 else 0)
  | 4 => BitVec.ofNat 64 n
  | k =>
    match level with
    | some l => BitVec.ofNat 64 (if k = 0 then l.recs.length else if k = 1 then l.used else l.cap)
    | none => if ckSeal h then BitVec.ofNat 64 (if k = 0 then ckNrec h else if k = 1 then ckUsed h else ckCap h) else free

/-- `CKINFO`: s[ra] := a value of a cask (R312). -/
def execCkinfo (a k : BitVec 4) (r : BitVec 6) (t : BitVec 2) (s : State) : Host.Outcome State Fault Refusal :=
  issue (.ckinfo a k r t) t true (fun c => do
    let h ← rh c a.toNat
    checkCask c h .either
    let u ← theUnit c
    let f ← freeWord
    landScalar c r.toNat (infoWord u h k.toNat f) 1) s

/-- A running command of an aborted level (R313): one that is held goes without completing, and one that waits for room goes on as if its records had been accepted. -/
def abortRun (uid id : Nat) (r : Option RunCmd) : Option RunCmd :=
  r.bind fun x =>
    if !(runsOfLevel uid id r) then r
    else match x.hold with
      | .race => none
      | .offer => some { x with hold := .none, recs := [], fin := true }
      | _ => r

/-- What a held command that an abort cancels leaves at its engine, run by a sibling or not (R287, R313), and its locks given up (R168). -/
def leaveHeld (uid id : Nat) (s : State) (x : Eng × Bool × Option RunCmd) : State :=
  match x.2.2 with
  | some r =>
    if (abortRun uid id x.2.2).isSome then s
    else
      let a := engAgent (getUnit s uid) uid x.1 r.cmd.issuer (if x.2.1 then r.cmd.lockNo + 1 else 0)
      modUnit (leaveCancelled s x.1 (agentRelease s a x.2.1 r.cmd) r.cmd) uid fun u => dropLocks u x.1 r.cmd.issuer [r.cmd.seqNo]
  | none => s

/-- Where the commands of a unit may run in its cluster, by engine, and whether a sibling runs them: its core's and its siblings' engines, and the press. -/
def clusterRuns (s : State) (core : Nat) : List (Eng × Bool × Option RunCmd) :=
  (.press, false, (getCluster s (core / 4)).press.cur) :: (List.range 4).flatMap fun k =>
    let x := getCore s (core / 4 * 4 + k)
    [(.copy, false, x.copy.run), (.gather, false, x.gather.run), (.row, false, x.row.run), (.copy, true, x.relocC), (.row, true, x.relocR)]

/-- The commands of an aborted level in a queue: the unstarted ones are cancelled, and those that a park put back held, which leave what they have performed (R142, R287, R313). -/
def abortQueued (uid id : Nat) (q : Seq) (s : State) (e : Eng) : State :=
  let held (c : EngCmd) : Bool := ofLevel id c && c.started && c.held
  let s := (((getSeq s uid q).eq e).cmds.filter held).foldl (fun s c =>
    leaveCancelled s e (agentRelease s (engAgent (getUnit s uid) uid e q 0) false c |> fun r => { r with hist := histJoin r.hist c.rel.hist }) c) s
  dropCmds s uid q e fun c => ofLevel id c && !c.started || held c

/-- The engine commands of an aborted level (R313). -/
def abortCommands (s : State) (uid id : Nat) : State :=
  let engs : List Eng := [.copy, .gather, .coll, .row, .press]
  let s := allSeqs.foldl (fun s q => engs.foldl (abortQueued uid id q) s) s
  let core := (getUnit s uid).place.core
  let s := (clusterRuns s core).foldl (leaveHeld uid id) s
  let drop := abortRun uid id
  let s := (List.range 4).foldl (fun s k => modCore s (core / 4 * 4 + k) fun x => { x with
      copy := { x.copy with run := drop x.copy.run }, gather := { x.gather with run := drop x.gather.run }
      row := { x.row with run := drop x.row.run }, relocC := drop x.relocC, relocR := drop x.relocR }) s
  modPress s (core / 4) fun p => { p with cur := drop p.cur }

/-- The agents that wait for room go on as if their writes had been accepted (R313). -/
def dropWaiting (u : UnitState) : UnitState :=
  u.mapSeqs fun c => match c.fl.frozen with
    | some (.capacity _) => c.modFl fun f => { f with data := true }
    | _ => c

/-- `CKABORT`: the innermost level is discarded and control goes to its `ABT` (R313). -/
def execCkabort (a : BitVec 4) (t : BitVec 2) (s : State) : Host.Outcome State Fault Refusal :=
  issue (.ckabort a t) t false (fun c => do
    let h ← rh c a.toNat
    checkCask c h .innermost
    let u ← theUnit c
    match u.levels with
    | [] => raise 2 0x20
    | l :: _ => do
      poolWrite c l.pool 0 (poolHeader (l.serial + 1) 0 32 u.ident.key.cont)
      upd fun s => abortCommands s c.uid l.id
      updUnit c dropWaiting
      updUnit c popLevel
      let sq ← theSeq c
      if sq.tr.tstat.getLsbD 0 then upd fun s => beginReturn s c.uid c.q (BitVec.ofNat 64 l.abt)
      else updSeq c fun sq => { sq with pc := BitVec.ofNat 64 l.abt }) s

end Sys2Proof.Machine
end

