-- ==== Sys2Proof/Machine/Collective.lean ====
section
/-!
DEFINITION. The issue of the collective commands (R429, R430) and the words, chunks and reductions they use (R430 to R432).
-/

namespace Sys2Proof.Machine

open Sys2Proof

/-! ## Operand words (R429) -/

/-- `SET`. -/
def colSet (v : Word) : Nat := bits v.toNat 0 6
/-- `OP`: 0 sum, 1 max, 2 min. -/
def colOp (v : Word) : Nat := bits v.toNat 6 2
/-- `PEER`. -/
def colPeer (v : Word) : Nat := bits v.toNat 16 9
/-- `TAG`. -/
def colTag (v : Word) : BitVec 32 := v.extractLsb' 32 32

/-- The members of a programmed set (R428); none when it is not programmed. -/
def colMembers (s : State) (v : Word) : Option CollSet := tabGet s.sched.colsets (colSet v)

/-- The device's own rank in a set: its position in the list (R428). -/
def ownRank (s : State) (cs : CollSet) : Nat := (cs.ranks.findIdx? fun d => d == s.group.index).getD 0

/-- The elements of a handle. -/
def elemCount (h : Handle) : Nat := hExtent h 0 * hExtent h 1 * hExtent h 2 * hExtent h 3

/-- Whether the collective word and the time word are well-formed for a command: reserved bits 0, `OP` and `PEER` 0 where the command does not use
them (R429, R430). -/
def colWordsLegal (code : Nat) (x y : Word) : Bool :=
  bits x.toNat 8 8 == 0 && bits x.toNat 25 7 == 0 &&
    (if code ≤ 1 then colOp x != 3 else colOp x == 0) &&
    (if code = 3 ∨ code = 4 then true else colPeer x == 0) &&
    (if code = 5 then bits y.toNat 32 32 == 0 && bits y.toNat 0 32 != 0 else bits y.toNat 24 40 == 0)

/-- Whether a command's set, peer, format and extents are legal (R430). DESIGN CHOICE (log 79): a command that only moves elements takes a handle of an aligned format, whose
elements are those of its image (R88, R241). -/
def colLegal (s : State) (code : Nat) (h : Handle) (x : Word) : Bool :=
  match colMembers s x with
  | none => false
  | some cs =>
    let n := cs.ranks.length
    let e := elemCount h
    let f := hFmt h
    (if code = 3 ∨ code = 4 then colPeer x < n && colPeer x != ownRank s cs else true) &&
      e * fmtBits f ≤ 8 * 8388608 &&
      (if code ≤ 1 then f == 8 || f == 3 || f == 4 || f == 7 else true) &&
      (if code = 1 ∨ code = 2 ∨ code = 5 then e % n == 0 else true)

/-- The first element of chunk k of e elements among n (R430). -/
def chunkStart (k e n : Nat) : Nat := k * e / n

/-- The scratchpad bits of elements a to b of a tensor in d0-fastest order. -/
def flatBoxes (s : State) (uid : Nat) (h : Handle) (a b : Nat) : List WriteBox :=
  let d := hExtent h 0
  if b ≤ a then []
  else (List.range ((b + d - 1) / d - a / d)).flatMap fun i =>
    let r := a / d + i
    let lo := if i = 0 then a % d else 0
    tensorBoxes s uid h (rowCoord h r lo) ⟨Nat.min d (b - r * d) - lo, 1, 1, 1⟩

/-- The scratchpad bits that a collective command writes (R135, R432): all elements, its own chunk, or the chunks of the others. -/
def colBoxes (s : State) (uid code : Nat) (h : Handle) (x : Word) : List WriteBox :=
  let cs := (colMembers s x).getD { ranks := [], stamp := 0 }
  let n := cs.ranks.length
  let e := elemCount h
  let lo := chunkStart (ownRank s cs) e n
  let hi := chunkStart (ownRank s cs + 1) e n
  match code with
  | 0 => flatBoxes s uid h 0 e
  | 1 => flatBoxes s uid h lo hi
  | 3 => []
  | 4 => flatBoxes s uid h 0 e
  | _ => flatBoxes s uid h 0 lo ++ flatBoxes s uid h hi e

/-- The body of a collective command (R430, R434). -/
def colBody (c : Ctx) (code : Nat) (ha : BitVec 4) (a b : BitVec 6) : M Unit := do
  let h ← rh c ha.toNat
  pendScale c h
  let (x, y) ← rs2 c a b
  checkHandle c h (code != 3) 0
  let g ← scaleOf c h
  let s ← get
  let u ← theUnit c
  if !(colWordsLegal code x y) || !(colLegal s code h x) || collecting u then formatFault c
  else
    pushCommand c .coll [] fun k =>
      { k with code := code, ra := x, rb := y, h := h, scale := g, writes := colBoxes s c.uid code h x }

/-- `XALLR` (R429, R432). -/
def execXallr (h : BitVec 4) (a b : BitVec 6) (t : BitVec 2) (s : State) : Host.Outcome State Fault Refusal :=
  issue (.xallr h a b t) t true (fun c => colBody c 0 h a b) s

/-- `XRDS` (R429, R432). -/
def execXrds (h : BitVec 4) (a b : BitVec 6) (t : BitVec 2) (s : State) : Host.Outcome State Fault Refusal :=
  issue (.xrds h a b t) t true (fun c => colBody c 1 h a b) s

/-- `XALLG` (R429, R432). -/
def execXallg (h : BitVec 4) (a b : BitVec 6) (t : BitVec 2) (s : State) : Host.Outcome State Fault Refusal :=
  issue (.xallg h a b t) t true (fun c => colBody c 2 h a b) s

/-- `XSEND` (R429, R432). -/
def execXsend (h : BitVec 4) (a b : BitVec 6) (t : BitVec 2) (s : State) : Host.Outcome State Fault Refusal :=
  issue (.xsend h a b t) t true (fun c => colBody c 3 h a b) s

/-- `XRECV` (R429, R432). -/
def execXrecv (h : BitVec 4) (a b : BitVec 6) (t : BitVec 2) (s : State) : Host.Outcome State Fault Refusal :=
  issue (.xrecv h a b t) t true (fun c => colBody c 4 h a b) s

/-- `XEXCH` (R429, R432). -/
def execXexch (h : BitVec 4) (a b : BitVec 6) (t : BitVec 2) (s : State) : Host.Outcome State Fault Refusal :=
  issue (.xexch h a b t) t true (fun c => colBody c 5 h a b) s

/-! ## Chunks and reductions (R430, R432) -/

/-- Whether element i lies in chunk k. -/
def inChunk (k e n i : Nat) : Bool := chunkStart k e n ≤ i && i < chunkStart (k + 1) e n

/-- Two elements of a format combined: sums by R113 or wrapping, maximum and minimum by R95. DESIGN CHOICE (log 80): no flag of `AFLAGS` is raised. -/
def combine (op f a b : Nat) : Nat :=
  match op with
  | 0 => if f = 8 then (floatAdd 8 a b).1 else (a + b) % 2 ^ fmtBits f
  | 1 =>
    if f = 8 then (floatMinMax 8 true a b).1
    else if f = 7 then Nat.max a b
    else if signedOf (fmtBits f) a ≤ signedOf (fmtBits f) b then b else a
  | _ =>
    if f = 8 then (floatMinMax 8 false a b).1
    else if f = 7 then Nat.min a b
    else if signedOf (fmtBits f) a ≤ signedOf (fmtBits f) b then a else b

/-- Two contributions combined element by element. -/
def combineLists (op f : Nat) (x y : List Word) : List Word :=
  (x.zip y).map fun p => BitVec.ofNat 64 (combine op f p.1.toNat p.2.toNat)

/-- Contributions combined in the order they stand. -/
def reduceAll (op f : Nat) : List (List Word) → List Word
  | [] => []
  | x :: r => r.foldl (combineLists op f) x

end Sys2Proof.Machine
end

