-- ==== Sys2Proof/Machine/RowEng.lean ====
section
/-!
DEFINITION. The row engine (R229 to R235): the issue of its commands and what a command does for one row.
-/

namespace Sys2Proof.Machine

open Sys2Proof

/-! ## F32 helpers -/

/-- The exact quotient of a value by a count, with what it leaves kept as a lowest bit. -/
def fdivNat (v : FVal) (n : Nat) : FVal :=
  match v with
  | .fin s m e =>
    let q := m * 2 ^ 80 / n
    .fin s (2 * q + (if m * 2 ^ 80 % n = 0 then 0 else 1)) (e - 81)
  | v => v

/-- An F32 code divided by a count and rounded once (R232). -/
def f32DivNat (a n : Nat) : Nat × Flags := finish 8 (fdivNat (fval 8 a) n, false)

/-- The code of F32 −∞. -/
def f32NegInf : Nat := 0xFF800000

/-- The exact maximum of a list of F32 codes (R95). -/
def f32MaxOf : List Nat → Nat × Flags
  | [] => (f32NegInf, 0)
  | a :: r => r.foldl (fun acc x => let (m, f) := floatMinMax 8 true acc.1 x; (m, acc.2 ||| f)) (if fisNaN (fval 8 a) then (floatNaN (floatFmt 8)) else a, snanFlag 8 a)

/-- An F32 function applied to every code, flags joined. -/
def f32Map (g : Nat → Nat × Flags) (xs : List Nat) : List Nat × Flags :=
  xs.foldr (fun x acc => let (y, f) := g x; (y :: acc.1, f ||| acc.2)) ([], 0)

/-! ## Rows (R230) -/

/-- The first row and the number of rows of a row word. -/
def rowFirst (v : Word) : Nat := bits v.toNat 0 32
/-- n of a row word. -/
def rowCount (v : Word) : Nat := bits v.toNat 32 16 + 1

/-- The rows of a handle. -/
def rowsOf (h : Handle) : Nat := hExtent h 1 * hExtent h 2 * hExtent h 3

/-- c of R232: how many elements of row r0 + q are valid. -/
def validCount (l : Nat) (mask : Word) (q : Nat) : Nat :=
  let v := bits mask.toNat 0 32
  Nat.min l ((if v = 0 then l else v) + if mask.getLsbD 32 then q else 0)

/-- An element read as F32 (R231). -/
def rowElem (x : EngCtx) (h g : Handle) (r i : Nat) : E Nat := do
  let (v, f) ← elemValueE x h g (rowCoord h r i)
  let (b, f') := convertTo 8 .rne v
  flagE x (f ||| f')
  pure b

/-- The first n elements of a row from element i on; those that are not valid read as −∞ (R232). -/
def rowElemsFrom (x : EngCtx) (h g : Handle) (r valid i : Nat) : Nat → E (List Nat)
  | 0 => pure []
  | n + 1 => do
    let a ← if i < valid then rowElem x h g r i else pure f32NegInf
    let as ← rowElemsFrom x h g r valid (i + 1) n
    pure (a :: as)

/-- A result element converted once to its destination format and written (R231). -/
def rowPut (x : EngCtx) (h : Handle) (r i v : Nat) : E Unit := do
  let (b, f) := convertTo (hFmt h) .rne (.flt (fval 8 v))
  flagE x f
  writeElem x h (rowCoord h r i) b

/-- The final pass: each element read, its result computed and written before the next one is read (R232). -/
def finalPass (x : EngCtx) (h g dst : Handle) (r valid : Nat) (f : Nat → Nat → Nat × Flags) (i : Nat) : Nat → E (List Nat)
  | 0 => pure []
  | n + 1 => do
    let a ← if i < valid then rowElem x h g r i else pure f32NegInf
    let (y, fl) := f i a
    flagE x fl
    rowPut x dst r i y
    let ys ← finalPass x h g dst r valid f (i + 1) n
    pure (y :: ys)

/-- The F32 value of the auxiliary handle for a row. -/
def auxGet (x : EngCtx) (h : Handle) (r : Nat) : E Nat := readElem x h ⟨r, 0, 0, 0⟩

/-- The auxiliary value of a row written. -/
def auxPut (x : EngCtx) (h : Handle) (r v : Nat) : E Unit := writeElem x h ⟨r, 0, 0, 0⟩ v

/-! ## The commands (R232) -/

/-- VEXP of a rounded difference. -/
def expDiff (m a : Nat) : Nat × Flags :=
  let (d, f) := floatSub 8 a m
  let (e, f') := f32Exp d
  (e, f ||| f')

/-- A rounded product. -/
def f32Sq (a : Nat) : Nat × Flags := floatMul 8 a a

/-- `rwsmx` of one row (R116, R232). -/
def rowSoftmax (x : EngCtx) (c : EngCmd) (r q : Nat) : E Unit := do
  let l := hDim c.h2 0
  let valid := validCount l c.rb q
  let xs ← rowElemsFrom x c.h2 c.scale r valid 0 l
  let (m, f) := f32MaxOf (xs.take valid)
  flagE x f
  if fisNaN (fval 8 m) || m == 0x7F800000 || m == f32NegInf then do
    flagE x flagINV
    let _ ← finalPass x c.h2 c.scale c.h r valid (fun i _ => (if i < valid then floatNaN (floatFmt 8) else 0, 0)) 0 l
  else do
    let ys ← rowElemsFrom x c.h2 c.scale r valid 0 l
    let (es, f1) := f32Map (expDiff m) (ys.take valid)
    let (t, f2) := chunkedSum (es ++ List.replicate (l - valid) 0)
    let (k, f3) := specRcp 8 t
    flagE x (f1 ||| f2 ||| f3)
    let _ ← finalPass x c.h2 c.scale c.h r valid (fun i a =>
      if i < valid then
        let (e, g) := expDiff m a
        let (y, g') := floatMul 8 e k
        (y, g ||| g')
      else (0, 0)) 0 l

/-- `rwmax` of one row. -/
def rowMax (x : EngCtx) (c : EngCmd) (r q : Nat) : E Unit := do
  let l := hDim c.h2 0
  let xs ← rowElemsFrom x c.h2 c.scale r (validCount l c.rb q) 0 l
  let (m, f) := f32MaxOf xs
  flagE x f
  auxPut x c.h r m

/-- `rwexps` of one row. -/
def rowExps (x : EngCtx) (c : EngCmd) (r q : Nat) : E Unit := do
  let l := hDim c.h2 0
  let m ← auxGet x c.h r
  let es ← finalPass x c.h2 c.scale c.h2 r (validCount l c.rb q) (fun _ a => expDiff m a) 0 l
  let (t, f) := chunkedSum es
  flagE x f
  auxPut x c.h r t

/-- `rwscl` of one row. DEDUCED (log 94) from the steps of R232: an invalid element of a masked row whose factor is a NaN becomes a NaN, where R233's comparison with `rwsmx` would have +0. -/
def rowScale (x : EngCtx) (c : EngCmd) (r : Nat) : E Unit := do
  let l := hDim c.h2 0
  let a ← auxGet x c.h r
  let (f, fl) := if c.rb.getLsbD 0 then specRcp 8 a else (a, 0)
  flagE x fl
  let _ ← finalPass x c.h2 c.scale c.h2 r l (fun _ v => floatMul 8 v f) 0 l

/-- The reciprocal root of a mean of squares plus ε, from the sum (R232). -/
def normFactor (l eps sum : Nat) : Nat × Flags :=
  let (ms, f1) := f32DivNat sum l
  let (t, f2) := floatAdd 8 ms eps
  let (k, f3) := specRsqrt 8 t
  (k, f1 ||| f2 ||| f3)

/-- `rwrms` of one row. -/
def rowRms (x : EngCtx) (c : EngCmd) (r : Nat) : E Unit := do
  let l := hDim c.h2 0
  let xs ← rowElemsFrom x c.h2 c.scale r l 0 l
  let (ss, f1) := f32Map f32Sq xs
  let (t, f2) := chunkedSum ss
  let (k, f3) := normFactor l (bits c.rb.toNat 0 32) t
  flagE x (f1 ||| f2 ||| f3)
  let _ ← finalPass x c.h2 c.scale c.h r l (fun _ v => floatMul 8 v k) 0 l

/-- `rwlnrm` of one row. -/
def rowLayerNorm (x : EngCtx) (c : EngCmd) (r : Nat) : E Unit := do
  let l := hDim c.h2 0
  let xs ← rowElemsFrom x c.h2 c.scale r l 0 l
  let (t, f1) := chunkedSum xs
  let (mu, f2) := f32DivNat t l
  let ys ← rowElemsFrom x c.h2 c.scale r l 0 l
  let (ds, f3) := f32Map (fun a => floatSub 8 a mu) ys
  let (ss, f4) := f32Map f32Sq ds
  let (v, f5) := chunkedSum ss
  let (k, f6) := normFactor l (bits c.rb.toNat 0 32) v
  flagE x (f1 ||| f2 ||| f3 ||| f4 ||| f5 ||| f6)
  let _ ← finalPass x c.h2 c.scale c.h r l (fun _ a =>
    let (d, g) := floatSub 8 a mu
    let (y, g') := floatMul 8 d k
    (y, g ||| g')) 0 l

/-- One row of a command. -/
def rowDo (x : EngCtx) (c : EngCmd) (q : Nat) : E Unit :=
  let r := rowFirst c.ra + q
  match c.code with
  | 0 => rowSoftmax x c r q
  | 1 => rowMax x c r q
  | 2 => rowExps x c r q
  | 3 => rowScale x c r
  | 4 => rowRms x c r
  | _ => rowLayerNorm x c r

/-- The rows of a command. -/
def rowSteps (c : EngCmd) : Nat := rowCount c.ra

/-! ## Issue (R229, R231) -/

/-- Whether the first handle of a command is the auxiliary one. -/
def rowHasAux (code : Nat) : Bool := code == 1 || code == 2 || code == 3

/-- Whether a command writes its source in place. -/
def rowInPlace (code : Nat) : Bool := code == 2 || code == 3

/-- A format that a row-engine destination takes. -/
def rowDstFmt (f : Nat) : Bool := f == 8 || f == 9 || f == 0x0A

/-- Whether the reserved bits of s[ra] and s[rb] are 0 (R230, R232). -/
def rowWordsLegal (code : Nat) (x y : Word) : Bool :=
  bits x.toNat 48 16 == 0 &&
    match code with
    | 3 => bits y.toNat 1 63 == 0
    | 4 => bits y.toNat 32 32 == 0
    | 5 => bits y.toNat 32 32 == 0
    | _ => bits y.toNat 33 31 == 0

/-- Whether the extents of two handles agree. -/
def sameExtents (g h : Handle) : Bool :=
  hExtent g 0 == hExtent h 0 && hExtent g 1 == hExtent h 1 && hExtent g 2 == hExtent h 2 && hExtent g 3 == hExtent h 3

/-- Whether a command's handles and words are legal (R231): `b` is the destination or the auxiliary handle, `a` the source. -/
def rowLegal (code : Nat) (b a : Handle) (x y : Word) : Bool :=
  let last := rowFirst x + rowCount x
  (rowDstFmt (hFmt a) && !hScl a || fmtMx (hFmt a) && hScl a) && (!(rowInPlace code) || rowDstFmt (hFmt a) && !hRo a) &&
    (if rowHasAux code then hRank b == 1 && hFmt b == 8 && !hScl b && last ≤ hDim b 0 && (code == 3 || !hRo b)
     else rowDstFmt (hFmt b) && !hScl b && !hRo b && sameExtents b a) &&
    last ≤ rowsOf a && rowWordsLegal code x y

/-- The lowest and the highest bit, one past, of the rows r0 to r0 + n − 1 of a handle. -/
def rowSpan (h : Handle) (r0 : Nat) : Nat → Nat × Nat
  | 0 => (2 ^ 62, 0)
  | n + 1 =>
    let (lo, hi) := rowSpan h r0 n
    let a := elemBit h (rowCoord h (r0 + n) 0)
    (Nat.min lo a, Nat.max hi (elemBit h (rowCoord h (r0 + n) (hDim h 0 - 1)) + fmtBits (hFmt h)))

/-- The lock over a range of bits of a handle in the own partition. -/
def handleLock (s : State) (uid : Nat) (h : Handle) (write : Bool) (lo hi : Nat) : List Extent :=
  if hPlace h ≠ 2 then []
  else
    match partOf s uid (hBase h) with
    | some (v, o) => if v = uid then [{ rows := false, write := write, lo := o + lo / 8, hi := o + (hi + 7) / 8 }] else []
    | none => []

/-- The locks of a command (R168, R229). -/
def rowLocks (s : State) (uid : Nat) (code : Nat) (b a g : Handle) (x : Word) : List Extent :=
  let r0 := rowFirst x
  let n := rowCount x
  let (lo, hi) := rowSpan a r0 n
  let first := if rowHasAux code then (32 * r0, 32 * (r0 + n)) else rowSpan b r0 n
  handleLock s uid a (rowInPlace code) lo hi ++
    (if hScl a then
      let (lo, hi) := rowSpan g r0 n
      handleLock s uid g false lo hi
     else []) ++
    handleLock s uid b true first.1 first.2

/-- Whether a command writes global memory while its unit collects (R301). -/
def rowCollects (u : UnitState) (code : Nat) (b a : Handle) : Bool :=
  collecting u && (code != 3 && isGlobalVa (hBase b) || rowInPlace code && isGlobalVa (hBase a))

/-- The scratchpad bits that a row-engine command writes (R135): its rows of the destination, or its elements of the auxiliary handle, and its rows of the source where it works in
place. -/
def rowBoxes (s : State) (uid code : Nat) (b a : Handle) (x : Word) : List WriteBox :=
  (if code = 3 then [] else if rowHasAux code then tensorBoxes s uid b ⟨rowFirst x, 0, 0, 0⟩ ⟨rowCount x, 1, 1, 1⟩
   else rowsBoxes s uid b (rowFirst x) (rowCount x)) ++ if rowInPlace code then rowsBoxes s uid a (rowFirst x) (rowCount x) else []

/-- The body of a row-engine command (R229, R231). -/
def rowBody (c : Ctx) (code : Nat) (hb : BitVec 3) (ha : BitVec 4) (a b : BitVec 6) (l : BitVec 1) : M Unit := do
  let src ← rh c ha.toNat
  let dst ← rh c hb.toNat
  pendScale c src
  let (x, y) ← rs2 c a b
  checkHandle c src (rowInPlace code) 0
  checkHandle c dst (code != 3) 0
  let g ← scaleOf c src
  let u ← theUnit c
  let s ← get
  if !(rowLegal code dst src x y) || rowCollects u code dst src then formatFault c
  else if extentsInStage u (rowLocks s c.uid code dst src g x) then windowFault c
  else
    pushCommand c .row (rowLocks s c.uid code dst src g x) fun k =>
      { k with code := code, rl := l == 1, ra := x, rb := y, h := dst, h2 := src, scale := g
               writes := rowBoxes s c.uid code dst src x }

/-- `RWSMX`: softmax of rows (R116, R232). -/
def execRwsmx (c : BitVec 3) (h : BitVec 4) (a b : BitVec 6) (l : BitVec 1) (t : BitVec 2) (s : State) : Host.Outcome State Fault Refusal :=
  issue (.rwsmx c h a b l t) t true (fun k => rowBody k 0 c h a b l) s

/-- `RWMAX`: row maxima (R232). -/
def execRwmax (c : BitVec 3) (h : BitVec 4) (a b : BitVec 6) (l : BitVec 1) (t : BitVec 2) (s : State) : Host.Outcome State Fault Refusal :=
  issue (.rwmax c h a b l t) t true (fun k => rowBody k 1 c h a b l) s

/-- `RWEXPS`: exponentials and their sums (R232). -/
def execRwexps (c : BitVec 3) (h : BitVec 4) (a b : BitVec 6) (l : BitVec 1) (t : BitVec 2) (s : State) : Host.Outcome State Fault Refusal :=
  issue (.rwexps c h a b l t) t true (fun k => rowBody k 2 c h a b l) s

/-- `RWSCL`: rows scaled (R232). -/
def execRwscl (c : BitVec 3) (h : BitVec 4) (a b : BitVec 6) (l : BitVec 1) (t : BitVec 2) (s : State) : Host.Outcome State Fault Refusal :=
  issue (.rwscl c h a b l t) t true (fun k => rowBody k 3 c h a b l) s

/-- `RWRMS`: root-mean-square normalisation (R232). -/
def execRwrms (c : BitVec 3) (h : BitVec 4) (a b : BitVec 6) (l : BitVec 1) (t : BitVec 2) (s : State) : Host.Outcome State Fault Refusal :=
  issue (.rwrms c h a b l t) t true (fun k => rowBody k 4 c h a b l) s

/-- `RWLNRM`: layer normalisation (R232). -/
def execRwlnrm (c : BitVec 3) (h : BitVec 4) (a b : BitVec 6) (l : BitVec 1) (t : BitVec 2) (s : State) : Host.Outcome State Fault Refusal :=
  issue (.rwlnrm c h a b l t) t true (fun k => rowBody k 5 c h a b l) s

end Sys2Proof.Machine
end

