-- ==== Sys2Proof/Machine/PressRun.lean ====
section
/-!
DEFINITION. What the press does for each step of a command (R240, R245, R252 to R255): loading an image, streaming activation rows, draining
accumulator rows.
-/

namespace Sys2Proof.Machine

open Sys2Proof

/-! ## Words and images (R240, R249, R252, R253) -/

/-- The planes of a weight image of an aligned format: n of `apN`, 2 of `at`. -/
def imagePlanes (f : Nat) : Nat := fmtBits f

/-- The planes that a plane word declares for an image (R252). -/
def declaredPlanes (f : Nat) (v : Word) : Nat := if bits v.toNat 0 5 = 0 then imagePlanes f else bits v.toNat 0 5

/-- The bytes of an image read to a count of planes. -/
def imageBytes (planes : Nat) : Nat := 1024 + 8192 * planes

/-- `HROW` of a stream word. -/
def streamHrow (v : Word) : Nat := bits v.toNat 32 16
/-- n of a stream word. -/
def streamCount (v : Word) : Nat := bits v.toNat 16 8 + 1
/-- The first logical accumulator row of a stream word: tile and row. -/
def streamRow (v : Word) : Nat := 128 * bits v.toNat 7 1 + bits v.toNat 0 7
/-- `AW` of a mode word. -/
def modeAw (v : Word) : Bool := v.getLsbD 0
/-- `ACCI` of a mode word. -/
def modeAcci (v : Word) : Bool := v.getLsbD 1

/-! ## Loading (R245, R252) -/

/-- Whether the bytes of an `at` image hold an element with s = 1 and z = 0 among its planes (R240). -/
def badAt (bs : List Byte) : Bool :=
  let s := (bs.drop 1024).take 8192
  let z := (bs.drop (1024 + 8192)).take 8192
  (s.zip z).any fun p => p.1 &&& ~~~p.2 != 0

/-- The cells after a load of an image (R252). -/
def loadCells (p : PressState) (f planes : Nat) (bs : List Byte) : PressState :=
  { p with cells := bs, cellFmt := BitVec.ofNat 6 f, cellPlanes := planes }

/-- A failed load leaves no owner, and its unit without a weight record (R246, R252). -/
def loadFailed (s : State) (cl uid : Nat) : State :=
  modUnit (modPress s cl fun p => { p with owner := none }) uid fun u => { u with press := { u.press with wrec := none } }

/-- `PWLD` in the press: the image is read and loaded; its unit becomes the owner when the command completes. -/
def pwldStep (x : EngCtx) (c : EngCmd) : E Unit := do
  let f := hFmt c.h
  let m := declaredPlanes f c.ra
  let bs ← readE x (hBase c.h) (imageBytes m)
  if f = 0x2F ∧ badAt bs then do
    updE fun s => loadFailed s (x.core / 4) x.uid
    failE 3
  else updE fun s => modPress s (x.core / 4) fun p => loadCells p f m bs

/-! ## The weights in the cells (R103, R106, R240) -/

/-- Bit (k, y) of plane q of the cells. -/
def cellBit (cells : Array Byte) (q k y : Nat) : Bool := (cells[1024 + 8192 * q + 32 * y + k / 8]?.getD 0).getLsbD (k % 8)

/-- The weight that multiplies element k in column y: `at` is z × (−1)^s; `apN` the planes read, the sign plane first (R106). -/
def cellWeight (cells : Array Byte) (f m k y : Nat) : Int :=
  if f = 0x2F then (if cellBit cells 1 k y then (if cellBit cells 0 k y then -1 else 1) else 0)
  else signedOf m ((List.range m).foldl (fun v q => 2 * v + (cellBit cells q k y).toNat) 0)

/-- The quantum exponent of block b of column y; none for the code 0xFF (R103, R106). -/
def cellExp (cells : Array Byte) (f m y b : Nat) : Option Int :=
  let c := (cells[4 * y + b]?.getD 0).toNat
  if c = 0xFF then none
  else if f = 0x2F then some ((c : Int) - 127) else some ((c : Int) - 127 + (fmtBits f - m : Nat))

/-! ## Activations (R104, R105, R253) -/

/-- A block of an activation row in aligned form: values, quantum exponent (none for 0xFF) and flags. -/
structure ActBlock where
  q   : List Int
  exp : Option Int
  deriving Repr

/-- The values of n elements of a row of a handle from element i on, with the flags of decoding set. -/
def rowValues (x : EngCtx) (h g : Handle) (r i : Nat) : Nat → E (List EVal)
  | 0 => pure []
  | n + 1 => do
    let (v, f) ← elemValueE x h g (rowCoord h r i)
    flagE x f
    let vs ← rowValues x h g r (i + 1) n
    pure (v :: vs)

/-- Block b of an activation row in aligned form. DESIGN CHOICE (log 82): an exponent code that R105 makes 255 reads as the mark of a block with a NaN. -/
def actBlock (x : EngCtx) (c : EngCmd) (r b : Nat) : E ActBlock := do
  let vs ← rowValues x c.h c.scale r (64 * b) 64
  if fmtFloat (hFmt c.h) then do
    let (qs, e, f) := alignBlock (vs.map fun v => match v with | .flt w => w | .int i => fofInt false i 0) (if modeAw c.rb then 16 else 8)
    flagE x f
    pure { q := qs, exp := if e = 0xFF then none else some ((e : Int) - 127) }
  else pure { q := vs.map fun v => match v with | .int i => i | .flt _ => 0, exp := some 0 }

/-- The four blocks of an activation row. -/
def actRow (x : EngCtx) (c : EngCmd) (r : Nat) : E (List ActBlock) := do
  let b0 ← actBlock x c r 0
  let b1 ← actBlock x c r 1
  let b2 ← actBlock x c r 2
  let b3 ← actBlock x c r 3
  pure [b0, b1, b2, b3]

/-! ## `PMUL` and `PMULZ` (R110 to R112, R254) -/

/-- The exact block sum of a column and an activation block (R110). -/
def blockSum (cells : Array Byte) (f m y b : Nat) (a : ActBlock) : Int :=
  (a.q.zipIdx).foldl (fun t p => t + cellWeight cells f m (64 * b + p.2) y * p.1) 0

/-- The F32 contribution of a block pair (R110). -/
def contribution (sum : Int) (ew ea : Option Int) : Nat × Flags :=
  match ew, ea with
  | some i, some j => roundFloat (floatFmt 8) .rne (fofInt false sum (i + j))
  | _, _ => (floatNaN (floatFmt 8), 0)

/-- An accumulator element after the four contributions of a column, in block order (R111, R112). -/
def accumulate (cells : Array Byte) (f m y : Nat) (acci : Bool) (acc0 : Nat) (row : List ActBlock) : Nat × Flags :=
  (row.zipIdx).foldl (fun acc p =>
    let s := blockSum cells f m y p.2 p.1
    if acci then
      let t := signedOf 32 acc.1 + s
      let v : Int := if t < -2 ^ 31 then -2 ^ 31 else if 2 ^ 31 - 1 < t then 2 ^ 31 - 1 else t
      (wrapTo 32 v, acc.2 ||| if v = t then 0 else flagSATA)
    else
      let (k, g) := contribution s (cellExp cells f m y p.2) p.1.exp
      let (v, g') := floatAdd 8 acc.1 k
      (v, acc.2 ||| g ||| g')) (acc0, 0)

/-- Whether every block pair of a row has exponents that cancel (R112). -/
def pairsCancel (cells : Array Byte) (f m : Nat) (row : List ActBlock) : Bool :=
  (List.range 256).all fun y => (row.zipIdx).all fun p =>
    match cellExp cells f m y p.2, p.1.exp with
    | some i, some j => i + j == 0
    | _, _ => false

/-- The blocks of n activation rows aligned and checked before an I32 command writes (R254); the alignment sets its flags (R105, R253). -/
def checkPairs (x : EngCtx) (c : EngCmd) (cells : Array Byte) (f m r : Nat) : Nat → E Unit
  | 0 => pure ()
  | n + 1 => do
    let row ← actRow x c r
    if pairsCancel cells f m row then checkPairs x c cells f m (r + 1) n else failE 3

/-- The tags of the n accumulator rows from a row on. -/
def rowTagsAll (u : UnitState) (row n : Nat) (p : Nat → Bool) : Bool := (List.range n).all fun q => p (rowTag u (row + q)).toNat

/-- The checks of R254 as a product starts. -/
def pmulCheck (x : EngCtx) (c : EngCmd) : E Unit := do
  let s ← getS
  let u := getUnit s x.uid
  let p := (getCluster s (x.core / 4)).press
  let f := p.cellFmt.toNat
  let m := if f = 0x2F then 1 else p.cellPlanes
  let n := streamCount c.ra
  if u.press.wrec.isNone || p.owner != some x.uid || 2048 < n * m * (if modeAw c.rb then 2 else 1) ||
      (c.code == 3 && !(rowTagsAll u (streamRow c.ra) n fun t => t == if modeAcci c.rb then 3 else 8)) then failE 3
  else if modeAcci c.rb then checkPairs x c p.cells.toArray f p.cellPlanes (streamHrow c.ra) n
  else pure ()

/-- A write of a whole accumulator row by a command, with its tag (R204, R254). -/
def writeRowE (x : EngCtx) (row : Nat) (t : BitVec 6) (r : Row) : E Unit := once do
  let s ← getS
  let u := getUnit s x.uid
  match checkMark x.agent x.region u.ident.key.cont u.ident.key.job accVa true false [(.acc x.uid row 0, 256)] s with
  | .error w => raceE (accVa (.acc x.uid row 0)) w
  | .ok s => updE fun _ => setRowTag (setRow s x.uid row r) x.uid row t

/-- A read of a whole accumulator row by a command. -/
def readRowE (x : EngCtx) (row : Nat) : E Row := do
  let bs ← logged do
    let s ← getS
    let u := getUnit s x.uid
    match checkMark x.agent x.region u.ident.key.cont u.ident.key.job accVa false false [(.acc x.uid row 0, 256)] s with
    | .error w => raceE (accVa (.acc x.uid row 0)) w
    | .ok t => do
      updE fun _ => t
      pure (leBytes 1024 (getRow t x.uid row).toNat)
  pure (BitVec.ofNat 8192 (leValue bs))

/-- Row q of a product (R254). -/
def pmulRow (x : EngCtx) (c : EngCmd) (q : Nat) : E Unit := do
  let s ← getS
  let p := (getCluster s (x.core / 4)).press
  let cells := p.cells.toArray
  let f := p.cellFmt.toNat
  let acci := modeAcci c.rb
  let act ← actRow x c (streamHrow c.ra + q)
  let row := streamRow c.ra + q
  let old ← if c.code = 4 then pure 0 else readRowE x row
  let rs := (List.range 256).map fun y => accumulate cells f p.cellPlanes y acci (rowLane old 32 y) act
  flagE x (rs.foldl (fun a r => a ||| r.2) 0)
  writeRowE x row (if acci then 3 else 8) (rowOf 32 (rs.map Prod.fst))

/-! ## `PDRN` (R255) -/

/-- The check as a drain starts. -/
def pdrnCheck (x : EngCtx) (c : EngCmd) : E Unit := do
  let s ← getS
  if rowTagsAll (getUnit s x.uid) (streamRow c.ra) (streamCount c.ra) fun t => t == 8 || t == 3 then pure () else failE 3

/-- The elements of an accumulator row as values, with the flags of signalling NaNs (R96). -/
def accValues (tag : Nat) (r : Row) : List (EVal × Flags) :=
  (List.range 256).map fun y =>
    let b := rowLane r 32 y
    if tag = 3 then (.int (signedOf 32 b), 0) else (.flt (fval 8 b), snanFlag 8 b)

/-- Codes written to consecutive elements of a row of a handle. -/
def writeCodes (x : EngCtx) (h : Handle) (d : Nat) : List Nat → Nat → E Unit
  | [], _ => pure ()
  | v :: r, i => do
    writeElem x h (rowCoord h d i) v
    writeCodes x h d r (i + 1)

/-- The four runs of a row requantised (R109). -/
def writeRuns (x : EngCtx) (c : EngCmd) (d : Nat) (vs : List EVal) (b : Nat) : Nat → E Unit
  | 0 => pure ()
  | n + 1 => do
    let fs := ((vs.drop (64 * b)).take 64).map fun v => match v with | .flt w => w | .int i => fofInt false i 0
    let (sc, es, f) := requantise fs (hFmt c.h)
    flagE x f
    writeCodes x c.h d es (64 * b)
    writeElem x c.h2 (rowCoord c.h2 d b) sc
    writeRuns x c d vs (b + 1) n

/-- Row q of a drain (R255). -/
def pdrnRow (x : EngCtx) (c : EngCmd) (q : Nat) : E Unit := do
  let row := streamRow c.ra + q
  let d := streamHrow c.ra + q
  let s ← getS
  let tag := (rowTag (getUnit s x.uid) row).toNat
  let r ← readRowE x row
  let vs := accValues tag r
  if hScl c.h then do
    flagE x (vs.foldl (fun a v => a ||| v.2) 0)
    writeRuns x c d (vs.map Prod.fst) 0 4
  else do
    let rs := vs.map fun v => let (b, f) := convertTo (hFmt c.h) .rne v.1; (b, f ||| v.2)
    flagE x (rs.foldl (fun a r => a ||| r.2) 0)
    writeCodes x c.h d (rs.map Prod.fst) 0

/-! ## Steps -/

/-- The steps of a press command: a load is one; a product or a drain checks, then does its rows. -/
def pressSteps (c : EngCmd) : Nat :=
  match c.code with
  | 1 => 0
  | 2 => 1
  | _ => streamCount c.ra + 1

/-- One step of a press command. -/
def pressDo (x : EngCtx) (c : EngCmd) (i : Nat) : E Unit :=
  match c.code with
  | 1 => pure ()
  | 2 => pwldStep x c
  | 5 => if i = 0 then pdrnCheck x c else pdrnRow x c (i - 1)
  | _ => if i = 0 then pmulCheck x c else pmulRow x c (i - 1)

/-- `DONE` of a press command after a number of steps (R250, R252, R254, R255). -/
def pressDone (c : EngCmd) (pos : Nat) : Nat :=
  match c.code with
  | 1 => 0
  | 2 => if pos = 0 then 0 else declaredPlanes (hFmt c.h) c.ra
  | _ => pos - 1

end Sys2Proof.Machine
end

