-- ==== Sys2Proof/Machine/Press.lean ====
section
/-!
DEFINITION. The press lease (R242 to R244) and the issue of the press words (R247 to R253, R255).
-/

namespace Sys2Proof.Machine

open Sys2Proof

/-! ## The lease (R242 to R244) -/

/-- The unit that issues on a core. -/
def issuingUnit (s : State) (core : Nat) : Option Nat :=
  let c := getCore s core
  c.issuing.bind fun k => (c.slots[k]?.getD none)

/-- Whether core k of a cluster requests the lease (R242). -/
def requestsLease (s : State) (cl k : Nat) : Bool :=
  match issuingUnit s (4 * cl + k) with
  | none => false
  | some uid =>
    let u := getUnit s uid
    u.press.lreq || !((u.seq .c).eq .press).cmds.isEmpty

/-- The class of the launch that issues on core k of a cluster (R243). -/
def leaseClass (s : State) (cl k : Nat) : Nat :=
  match issuingUnit s (4 * cl + k) with
  | none => 3
  | some uid => (getUnit s uid).ident.cls

/-- The consecutive grants of a class (R243). -/
def leaseWeight (cls : Nat) : Nat := 8 / 2 ^ cls

/-- Whether the unit that a grant was given to is no longer the one that issues on the holding core: it was pre-empted, parked or cancelled, or has exited (R244). -/
def holderLeft (s : State) (cl k : Nat) : Bool := issuingUnit s (4 * cl + k) != (getCluster s cl).press.unit

/-- Whether a class-0 unit requests the lease while the holder's is of class 1 to 3 (R244). -/
def holderBeaten (s : State) (cl k : Nat) : Bool :=
  leaseClass s cl k != 0 && (List.range 4).any fun j => requestsLease s cl j && leaseClass s cl j == 0

/-- The lease as it stands now (R244): a grant ends at once when its holder no longer requests, its unit has left or a class-0 unit requests, and with its running command when
one runs, which is a request until it completes. -/
def settlePress (s : State) (cl : Nat) : State :=
  let p := (getCluster s cl).press
  match p.holder with
  | none => s
  | some k =>
    let ends := holderLeft s cl k || holderBeaten s cl k
    if p.cur.isSome then (if ends && !p.expired then modPress s cl fun p => { p with expired := true } else s)
    else if p.expired || ends || !(requestsLease s cl k) then modPress s cl endGrant
    else s

/-- Whether a core holds the lease. -/
def holdsLease (s : State) (core : Nat) : Bool := (getCluster s (core / 4)).press.holder == some (core % 4)

/-- Whether a unit's core holds the lease by a grant to that unit. -/
def holdsGrant (s : State) (uid : Nat) : Bool :=
  let p := (getCluster s ((getUnit s uid).place.core / 4)).press
  p.holder == some ((getUnit s uid).place.core % 4) && p.unit == some uid

/-- Whether a `PREL` of C has not yet taken effect (R250). -/
def prelPending (s : State) (uid : Nat) : Bool :=
  ((getSeq s uid .c).eq .press).cmds.any (fun c => c.code == 1) ||
    match (getCluster s ((getUnit s uid).place.core / 4)).press.cur with
    | some r => r.cmd.uid == uid && r.cmd.code == 1
    | none => false

/-- `PLSE` (R250): the core requests the lease, and C freezes until it holds it by a grant of its unit. -/
def execPlse (t : BitVec 2) (s : State) : Host.Outcome State Fault Refusal :=
  issue (.plse t) t false (fun c => do
    let u ← theUnit c
    upd fun s => settlePress s (u.place.core / 4)
    let s ← get
    if prelPending s c.uid then freezeKeep .lease
    else do
      updUnit c fun u => { u with press := { u.press with lreq := true } }
      if holdsGrant s c.uid then pure () else freezeKeep .lease) s

/-- `PREL`: queued; it gives the lease back when it reaches the head (R250). -/
def execPrel (t : BitVec 2) (s : State) : Host.Outcome State Fault Refusal :=
  issue (.prel t) t true (fun c => pushCommand c .press [] fun k => { k with code := 1 }) s

/-! ## Issue checks (R248, R252, R253, R255) -/

/-- The partition offset of a local-segment `BASE`; none for any other place or segment (R252). -/
def localBase (u : UnitState) (h : Handle) : Option Nat :=
  let a := (hBase h).toNat
  if hPlace h = 2 ∧ a / 2 ^ 48 = 0xFF00 ∧ a % 2 ^ 48 < u.place.spadSize then some (a % 2 ^ 48) else none

/-- The place, bounds and swizzle of a press handle over n bytes from its `BASE`, which is a multiple of `unit` (R252). -/
def checkPlace (c : Ctx) (h : Handle) (n unit : Nat) : M Nat := do
  let s ← get
  match localBase (getUnit s c.uid) h with
  | none => windowFault c
  | some off =>
    if off % unit != 0 || !(rangeFits s c.uid c.uid off n) then windowFault c
    else if 6 < hSwz h || !(regionsAre s c.uid off n (hSwz h)) then swizzleFault c
    else pure off

/-- Whether a stream word is legal for a handle (R249). -/
def streamLegal (h : Handle) (v : Word) : Bool :=
  bits v.toNat 48 16 == 0 && bits v.toNat 24 8 == 0 && bits v.toNat 8 8 == 0 && streamCount v ≤ 128 &&
    bits v.toNat 0 7 + streamCount v ≤ 128 && streamHrow v + streamCount v ≤ rowsOf h

/-- The lock of the accumulator rows of a stream word (R203). -/
def rowExtent (v : Word) : Extent := { rows := true, write := true, lo := streamRow v, hi := streamRow v + streamCount v }

/-- The row groups that a stream word covers, by their first rows. -/
def streamGroups (v : Word) : List Nat :=
  let lo := streamRow v / 16
  (List.range ((streamRow v + streamCount v + 15) / 16 - lo)).map fun i => 16 * (lo + i)

/-- Every group that a command writes is allotted at its issue, or C freezes (R201). -/
def allotAll (c : Ctx) : List Nat → M Unit
  | [] => pure ()
  | r :: rest => do
    needGroup c r
    allotAll c rest

/-- `PWLD` (R252). -/
def execPwld (h : BitVec 4) (a : BitVec 6) (t : BitVec 2) (s : State) : Host.Outcome State Fault Refusal :=
  issue (.pwld h a t) t true (fun c => do
    let w ← rh c h.toNat
    let v ← rs c a
    let f := hFmt w
    let prec := bits v.toNat 0 5
    if !(fmtAligned f) || hRank w != 2 || hDim w 0 != 256 || hDim w 1 != 256 || imagePlanes f < prec || (f == 0x2F && prec == 1) ||
        bits v.toNat 5 59 != 0 then formatFault c
    else do
      let off ← checkPlace c w (imageBytes (imagePlanes f)) 256
      checkHandle c w false 0
      pushCommand c .press [{ rows := false, write := false, lo := off, hi := off + imageBytes (declaredPlanes f v) }] fun k =>
        { k with code := 2, ra := v, h := w }) s

/-- Whether an activation format is legal for `AW` (R253). -/
def actFmtLegal (h : Handle) (aw : Bool) : Bool :=
  let f := hFmt h
  if hScl h then fmtMx f else f == 1 || f == 2 && aw || 8 ≤ f && f ≤ 0x0C

/-- The locks of the activation rows, and of their scales. -/
def actLocks (s : State) (uid : Nat) (h g : Handle) (v : Word) : List Extent :=
  let (lo, hi) := rowSpan h (streamHrow v) (streamCount v)
  handleLock s uid h false lo hi ++
    (if hScl h then
      let (lo, hi) := rowSpan g (streamHrow v) (streamCount v)
      handleLock s uid g false lo hi
     else [])

/-- The body of `PMUL` and `PMULZ` (R253). -/
def pmulBody (c : Ctx) (code : Nat) (ha : BitVec 4) (a b : BitVec 6) : M Unit := do
  let h ← rh c ha.toNat
  pendScale c h
  let (v, m) ← rs2 c a b
  if !(actFmtLegal h (modeAw m)) || bits m.toNat 2 62 != 0 || !(streamLegal h v) then formatFault c
  else do
    let _ ← checkPlace c h (hSpan h) 1
    checkHandle c h false 0
    let g ← scaleOf c h
    let s ← get
    if extentsInStage (getUnit s c.uid) (actLocks s c.uid h g v) then windowFault c
    else do
      allotAll c (streamGroups v)
      let s ← get
      pushCommand c .press (rowExtent v :: actLocks s c.uid h g v) fun k =>
        { k with code := code, ra := v, rb := m, h := h, scale := g }

/-- `PMUL` (R253). -/
def execPmul (h : BitVec 4) (a b : BitVec 6) (t : BitVec 2) (s : State) : Host.Outcome State Fault Refusal :=
  issue (.pmul h a b t) t true (fun c => pmulBody c 3 h a b) s

/-- `PMULZ` (R253). -/
def execPmulz (h : BitVec 4) (a b : BitVec 6) (t : BitVec 2) (s : State) : Host.Outcome State Fault Refusal :=
  issue (.pmulz h a b t) t true (fun c => pmulBody c 4 h a b) s

/-- Whether the formats of a drain are legal: the destination's, and the scale handle's number (R255). -/
def drainLegal (u : UnitState) (s : State) (uid : Nat) (h g : Handle) (hb : Nat) (v : Word) : Bool :=
  let f := hFmt h
  hDim h 0 == 256 && !hRo h && streamLegal h v &&
    if hScl h then
      fmtMx f && hSidx h == hb && hFmt g == 0x13 && hDim g 0 == 4 && !hRo g && streamHrow v + streamCount v ≤ rowsOf g &&
        match localBase u g with
        | some off => off + hSpan g ≤ u.place.spadSize && hSwz g ≤ 6 && regionsAre s uid off (hSpan g) (hSwz g)
        | none => false
    else hb == 0 && (8 ≤ f && f ≤ 0x0C || 1 ≤ f && f ≤ 3)

/-- `PDRN` (R255). DEDUCED (log 95) from R255 and R261: a failed condition of `PLACE`, segment, partition or swizzle is the fault of R261's table for h[ha], and the format fault of
R255 for the scale handle. -/
def execPdrn (k : BitVec 3) (h : BitVec 4) (a : BitVec 6) (t : BitVec 2) (s : State) : Host.Outcome State Fault Refusal :=
  issue (.pdrn k h a t) t true (fun c => do
    let w ← rh c h.toNat
    let g ← if hScl w then rh c k.toNat else pure 0
    let v ← rs c a
    let s ← get
    if !(drainLegal (getUnit s c.uid) s c.uid w g k.toNat v) then formatFault c
    else do
      let _ ← checkPlace c w (hSpan w) 1
      checkHandle c w true 0
      if hScl w then do
        let _ ← checkPlace c g (hSpan g) 1
        checkHandle c g true 0
      else pure ()
      let s ← get
      let (lo, hi) := rowSpan w (streamHrow v) (streamCount v)
      let scales := if hScl w then
          let (lo, hi) := rowSpan g (streamHrow v) (streamCount v)
          handleLock s c.uid g true lo hi
        else []
      pushCommand c .press (rowExtent v :: handleLock s c.uid w true lo hi ++ scales) fun x =>
        { x with code := 5, ra := v, h := w, h2 := g
                 writes := rowsBoxes s c.uid w (streamHrow v) (streamCount v) ++
                   if hScl w then rowsBoxes s c.uid g (streamHrow v) (streamCount v) else [] }) s

/-! ## `PSTAT` (R251) -/

/-- The word of `PSTAT`; the cycles left in a grant are not counted by the model, but once they have passed none is left (log 10). -/
def pstatWord (s : State) (uid : Nat) (cycles : Nat) : Word :=
  let u := getUnit s uid
  let p := (getCluster s (u.place.core / 4)).press
  let held := holdsLease s u.place.core
  let b (n : Nat) (x : Bool) : Nat := if x then 2 ^ n else 0
  BitVec.ofNat 64 ((p.holder.getD 0) % 4 * 2 ^ 38 + b 37 p.holder.isSome + b 36 held + b 35 u.press.lreq + b 34 u.press.wrec.isSome +
    b 33 (p.owner == some uid) + (if held && !p.timedOut then cycles % 65537 else 0) * 2 ^ 16 + ((u.seq .c).eq .press).cmds.length % 32 * 2 ^ 8 +
    (if held then p.cmds % 32 else 0))

/-- `PSTAT` (R251). -/
def execPstat (a : BitVec 6) (t : BitVec 2) (s : State) : Host.Outcome State Fault Refusal :=
  issue (.pstat a t) t true (fun c => do
    let u ← theUnit c
    upd fun s => settlePress s (u.place.core / 4)
    let f ← freeWord
    let s ← get
    landScalar c a.toNat (pstatWord s c.uid f.toNat) 1) s

end Sys2Proof.Machine
end

