-- ==== Sys2Proof/Machine/EngineRun.lean ====
section
/-!
DEFINITION. The life of an engine or press command (R136, R185, R186, R192 to R194, R248, R300, R305, R403): its start, its steps, the records it
offers, its completion and its failure.
-/

namespace Sys2Proof.Machine

open Sys2Proof

/-! ## Where a command runs -/

/-- The place of a running command: its core's engine, a sibling's engine that has taken it over, or a cluster's press. -/
inductive Site where
  | own (core : Nat) (e : Eng)
  | reloc (core : Nat) (e : Eng)
  | press (cl : Nat)
  deriving DecidableEq, Repr

/-- The command that runs at a site. -/
def runAt (s : State) : Site → Option RunCmd
  | .own core e => ((getCore s core).engine e).run
  | .reloc core e => if e = .row then (getCore s core).relocR else (getCore s core).relocC
  | .press cl => (getCluster s cl).press.cur

/-- The state with the command at a site replaced. -/
def setRun (s : State) (w : Site) (r : Option RunCmd) : State :=
  match w with
  | .own core e => modCore s core fun c => c.setEngine e { c.engine e with run := r }
  | .reloc core e => modCore s core fun c => if e = .row then { c with relocR := r } else { c with relocC := r }
  | .press cl => modPress s cl fun p => { p with cur := r }

/-- The engine of a site. -/
def Site.eng : Site → Eng
  | .own _ e => e
  | .reloc _ e => e
  | .press _ => .press

/-- The context of a command at a site (R266, R280): a relocated command is an agent of its own (R194). -/
def siteCtx (s : State) (w : Site) (c : EngCmd) : EngCtx :=
  let u := getUnit s c.uid
  let core := match w with | .own k _ => k | .reloc k _ => k | .press cl => 4 * cl
  let moved := match w with | .reloc .. => true | _ => false
  { uid := c.uid, eng := w.eng, issuer := c.issuer, core := core, reloc := moved,
    agent := engAgent u c.uid w.eng c.issuer (if moved then c.lockNo + 1 else 0), region := c.seqNo, level := c.level, bad := [], moved := [] }

/-! ## Steps -/

/-- The steps of a command of an engine. -/
def cmdSteps (e : Eng) (c : EngCmd) : Nat :=
  match e with
  | .copy => copySteps c
  | .gather => gatherSteps c
  | .row => rowSteps c
  | .press => pressSteps c
  | .coll => 0

/-- One step of a command. -/
def cmdDo (x : EngCtx) (c : EngCmd) (i : Nat) : E Unit :=
  match x.eng with
  | .copy => copyDo x c i
  | .gather => gatherStep x c i
  | .row => rowDo x c i
  | .press => pressDo x c i
  | .coll => pure ()

/-- `DONE` after a number of steps (R185). -/
def cmdDone (e : Eng) (c : EngCmd) (pos : Nat) : Nat :=
  match e with
  | .copy => copyDone c pos
  | .gather => gatherDone c pos
  | .row => pos
  | .press => pressDone c pos
  | .coll => pos

/-- The side of a whole handle of a unit. -/
def wholeSide (s : State) (uid : Nat) (h : Handle) (write : Bool) : List Side :=
  tensorSide s uid h ⟨0, 0, 0, 0⟩ ⟨hExtent h 0, hExtent h 1, hExtent h 2, hExtent h 3⟩ write

/-- The side of the scale handle that a handle is linked to, whole. -/
def wholeScale (s : State) (uid : Nat) (h g : Handle) (write : Bool) : List Side := if hScl h then wholeSide s uid g write else []

/-- The sides of a command's scratchpad tensors and tiles, as its operands name them, those of the linked scale handles among them. -/
def cmdSides (s : State) (e : Eng) (c : EngCmd) : List Side :=
  let at0 := coordOf c.ra
  match e with
  | .copy =>
    match c.code with
    | 2 => tensorSide s c.uid c.h at0 (restOf c.h at0) false ++ scaleSide s c.uid c.h c.scale at0 (restOf c.h at0) ++
        tensorSide s c.uid c.h2 (coordOf c.rb) (restOf c.h at0) true
    | 3 => tensorSide s c.uid c.h at0 (restOf c.h at0) true
    | 4 => []
    | 5 => []
    | k =>
      let p := tilePtr c.rb
      let n : Coord := ⟨p.t0, p.t1, 1, 1⟩
      (tileSide s c.uid c.h p (k == 0)).toList ++ tensorSide s c.uid c.h at0 n (k == 1) ++ scaleSide s c.uid c.h c.scale at0 n
  | .gather => match gatherSides s c.uid c.code c.h c.ra c.rb with | some (_, xs) => xs | none => []
  | .row => wholeSide s c.uid c.h true ++ wholeSide s c.uid c.h2 false ++ wholeScale s c.uid c.h2 c.scale false
  | .press => wholeSide s c.uid c.h (c.code == 5) ++ wholeScale s c.uid c.h (if c.code = 5 then c.h2 else c.scale) (c.code == 5)
  | .coll => wholeSide s c.uid c.h (c.code != 3) ++ wholeScale s c.uid c.h c.scale false

/-- The regions of a command's sides whose tag is no longer the declared code: each side's owner, with the region, the code and the tag. -/
def changedTags (s : State) (e : Eng) (c : EngCmd) : List (Nat × Nat × Nat × Nat) :=
  (cmdSides s e c).flatMap fun x => ((regionsOf x.off x.len).filter fun r => regionTag s x.owner r != x.swz).map fun r =>
    (x.owner, r, x.swz, regionTag s x.owner r)

/-- A command's context with the regions whose tag has changed since its issue: a sibling's fail it, its own unit's hold its words where its code puts them (R164,
R166, R186). -/
def withTags (s : State) (x : EngCtx) (c : EngCmd) : EngCtx :=
  let ts := changedTags s x.eng c
  { x with bad := (ts.filter fun t => t.1 != c.uid).map fun t => (t.1, t.2.1), moved := (ts.filter fun t => t.1 == c.uid).map (·.2) }

/-- The steps of a command from a position on, until one does not end: what that one has done stands (R274). -/
def runSteps (x : EngCtx) (c : EngCmd) : Nat → Nat → ERun → ERun × Nat × Option EStop
  | 0, pos, r => (r, pos, none)
  | n + 1, pos, r =>
    match cmdDo x c pos r with
    | .ok (_, t) => runSteps x c n (pos + 1) { t with skip := [], log := [] }
    | .error e => (e.run, pos, some e)

/-- A record with the physical address of its first byte as its translation stands (R302); the one that it was captured with where none is cached. -/
def placedRecord (s : State) (uid : Nat) (r : CaskRec) : CaskRec :=
  match locate s uid r.vaddr .write with
  | .ok (.mem pa) => { r with paddr := pa }
  | _ => r

/-- Whether the translation of a record is not cached, so that its command walks for it before the port takes it. -/
def recordMisses (s : State) (uid : Nat) (r : CaskRec) : Bool :=
  match locate s uid r.vaddr .write with
  | .error .miss => true
  | _ => false

/-- A command's records offered one by one to its level, each with its physical address at acceptance (R301, R302, R305): the hold that stops the offer, and the
records that wait. A failed command does not walk again for the records of the elements that it performed; those of a level that is open no more are discarded (R300). -/
def offerAll (x : EngCtx) (waited failed : Bool) : List CaskRec → State → State × Hold × List CaskRec
  | [], s => (s, .none, [])
  | r :: rest, s =>
    match x.level with
    | none => (s, .none, [])
    | some id =>
      if !((getUnit s x.uid).levels.any fun l => l.id == id) then (s, .none, [])
      else if !failed && recordMisses s x.uid r then
        let h : Hold := .walk ((getUnit s x.uid).place.core / 192) r.vaddr .write
        (holdRequest x s h none, h, r :: rest)
      else
        match acceptRecord s x.uid id (placedRecord s x.uid r) with
        | .taken t => offerAll x false failed rest t
        | .race w => (holdRequest x s .race (some (r.vaddr, w)), .race, r :: rest)
        | .full tval => (capacityFault s x.uid tval waited, .offer, r :: rest)

/-- The ticket that a held command has at a controller (R401). -/
def holdTicket : Hold → Option (Nat × Nat)
  | .budget k t => some (k, t)
  | _ => none

/-- The passes of the press for so many steps of a command from a position (R256): a product's rows take one for each plane and activation byte, with one plane for `at`, a
load 32 for each plane and a drain one a row. -/
def pressPasses (c : EngCmd) (planes fmt : Nat) (pos n : Nat) : Nat :=
  let rows := if pos = 0 then n - 1 else n
  match c.code with
  | 2 => 32 * n * declaredPlanes (hFmt c.h) c.ra
  | 5 => rows
  | _ => rows * (if fmt = 0x2F then 1 else planes) * (if modeAw c.rb then 2 else 1)

/-- The steps that a command has done, counted (R408): for its issuing unit, also where a sibling ran it (R409). -/
def countSteps (s : State) (w : Site) (c : EngCmd) (pos n : Nat) : State :=
  match w with
  | .press cl =>
    let p := (getCluster s cl).press
    countUnit s c.uid fun a => { a with press := a.press + pressPasses c p.cellPlanes p.cellFmt.toNat pos n }
  | _ => countUnit s c.uid fun a => { a with elems := a.elems + n }

/-- A command goes on from where it stands for at most n steps, and once all are done offers its records. -/
def runFor (s : State) (w : Site) (r : RunCmd) (n : Nat) : State :=
  let x := { withTags s (siteCtx s w r.cmd) r.cmd with ticket := holdTicket r.hold }
  let left := cmdSteps w.eng r.cmd - r.pos
  let (t, pos, stop) := runSteps x r.cmd (Nat.min n left) r.pos { s := s, recs := r.recs, skip := r.trace }
  let t := { t with s := countSteps t.s w r.cmd r.pos (pos - r.pos) }
  match stop with
  | some e => setRun (holdRequest x t.s e.hold e.race) w (some { r with pos := pos, trace := t.trace, recs := t.recs, hold := e.hold })
  | none =>
    if n < left then setRun t.s w (some { r with pos := pos, trace := t.trace, recs := t.recs, hold := .none })
    else
      let (s, h, rest) := offerAll x (r.hold == .offer) false t.recs t.s
      setRun s w (some { r with pos := pos, trace := [], recs := rest, hold := h, fin := h == .none })

/-- A command goes on to its end. -/
def runOn (s : State) (w : Site) (r : RunCmd) : State := runFor s w r (cmdSteps w.eng r.cmd)

/-- A command begins at a site: its agent acquires what stood before it (R270), and it runs. -/
def beginCmd (s : State) (w : Site) (c : EngCmd) : State :=
  let x := siteCtx s w c
  runOn (learn s x.agent c.rel.hist) w { cmd := { c with started := true }, pos := c.pos, trace := c.trace, fin := false, hold := .none, recs := c.recs }

/-! ## Start (R136, R168, R185) -/

/-- Whether a lock that a command issued earlier holds overlaps one of a command's (R168). -/
def lockedByEarlier (u : UnitState) (c : EngCmd) : Bool :=
  u.place.locks.any fun l => l.no == c.lockNo && u.place.locks.any fun k =>
    k.no < c.lockNo && k.rows == l.rows && k.lo < l.hi && l.lo < k.hi

/-- Whether a command of a queue waits for a translation, or for room in the staging area, so that no later one of its queue runs (R403, R431, R432). -/
def queueWaits (s : State) (core : Nat) (e : Eng) (uid : Nat) (q : Seq) : Bool :=
  match e with
  | .press => false
  | .coll => (getDie s (core / 192)).coll.any fun x => x.cmd.uid == uid && x.cmd.issuer == q && (match x.hold with | .walk .. => true | .staging => true | _ => false)
  | e => ((getCore s core).engine e).waiting.any fun r => runsFor uid q (some r)

/-- Whether a sibling runs a command of a queue, after which only a relocatable one starts (R185, R194). -/
def relocatedRuns (s : State) (core : Nat) (e : Eng) (uid : Nat) (q : Seq) : Bool :=
  (e == .copy || e == .row) && (List.range 4).any fun k => runsFor uid q (runAt s (.reloc (core / 4 * 4 + k) e))

/-- The command at the head of a sequencer's queue, if it can start: the queue is not stopped by a failure, nor waiting behind a command that waits for a
fault record or that a sibling runs (R185, R186, R403). -/
def readyHead (s : State) (core : Nat) (e : Eng) (uid : Nat) (q : Seq) : Option EngCmd :=
  let u := getUnit s uid
  let x := (u.seq q).eq e
  if !u.alive || !u.place.resident || u.place.core != core || x.stopped || queueWaits s core e uid q then none
  else
    match x.cmds with
    | [] => none
    | c :: _ => if c.held || lockedByEarlier u c || !c.rl && relocatedRuns s core e uid q then none else some c

/-- The units of a core whose queue of a sequencer has a command that can start. -/
def readyUnits (s : State) (core : Nat) (e : Eng) (q : Seq) : List Nat :=
  (s.units.filter fun p => (readyHead s core e p.1 q).isSome).map Prod.fst

/-- The issuers of engine commands in the engines' order. -/
def issuers : List Seq := [.c, .l, .s]

/-- The next queue that an engine takes from: the first of C, L and S from its pointer that has a command ready (R136). -/
def nextQueue (s : State) (core : Nat) (e : Eng) (from0 : Nat) : Option (Nat × Seq × List Nat) :=
  (List.range 3).findSome? fun i =>
    let k := (from0 + i) % 3
    (issuers[k]?).bind fun q => match readyUnits s core e q with | [] => none | us => some (k, q, us)

/-- A queue without its first command. -/
def popCmd (s : State) (uid : Nat) (q : Seq) (e : Eng) : State := modEq s uid q e fun x => { x with cmds := x.cmds.drop 1 }

/-! ## Completion (R66, R158, R168, R185, R270) -/

/-- A result element (R185). -/
def resultWord (stat : Nat) (qovf : Bool) (e : Eng) (c : EngCmd) (done : Nat) : Word :=
  BitVec.ofNat 64 (stat % 16 * 2 ^ 60 + (if qovf then 2 ^ 59 else 0) + engNum e * 2 ^ 56 + c.code % 256 * 2 ^ 48 +
    c.seqNo % 65536 * 2 ^ 32 + done % 2 ^ 32)

/-- A result element written to a queue of 16: the oldest is discarded when it is full, and the new one says so (R185). -/
def pushResult (x : EngQueue) (word : Bool → Word) (rel : Release) : EngQueue :=
  let full := 16 ≤ x.results.length
  { x with results := (if full then x.results.drop 1 else x.results) ++ [{ word := word full, rel := some rel }] }

/-- Whether a completing command's token finds room (R66). -/
def tokenFits (s : State) (c : EngCmd) : Bool :=
  match c.push with
  | none => true
  | some p => (tokensOf (getUnit s c.uid) c.issuer p).length < 15

/-- What a command's completion releases (R270). -/
def cmdRelease (s : State) (x : EngCtx) (c : EngCmd) : Release := agentRelease s x.agent x.reloc c

/-- The locks of a command are released (R168): sequencers that they stall see the command whole, and overlapping commands issued later start after
it. -/
def releaseLocks (s : State) (e : Eng) (c : EngCmd) (rel : Release) : State :=
  let u := getUnit s c.uid
  let mine := u.place.locks.filter fun l => l.no == c.lockNo
  let s := allSeqs.foldl (fun s q =>
    match (getSeq s c.uid q).fl.frozen with
    | some (.lock nos) => if nos.contains c.lockNo then acquireRel s (seqAgent u c.uid q) rel else s
    | _ => s) s
  let later := (u.place.locks.filter fun l => c.lockNo < l.no &&
    mine.any fun m => m.rows == l.rows && m.lo < l.hi && l.lo < m.hi).map (·.no)
  modUnit s c.uid fun u =>
    let joined (k : EngCmd) : EngCmd :=
      if later.contains k.lockNo then { k with rel := { k.rel with hist := histJoin k.rel.hist rel.hist } } else k
    let u := dropLocks u e c.issuer [c.seqNo]
    u.mapSeqs fun sq => sq.mapEq fun x => { x with cmds := x.cmds.map joined }

/-- A command that completes for a living unit: its kept flags, its result element, its token, its issuer's event flag, its locks (R98, R158, R168, R185). -/
def deliver (s : State) (x : EngCtx) (c : EngCmd) (stat done : Nat) : State :=
  let s := raiseKept s c
  let rel := cmdRelease s x c
  let s := modEq s x.uid x.issuer x.eng fun q =>
    { pushResult q (fun f => resultWord stat f x.eng c done) rel with done := rel :: q.done }
  let s := match c.push with
    | none => s
    | some p => modUnit s x.uid fun u => setTokens u x.issuer p (tokensOf u x.issuer p ++ [rel])
  let s := modSeq s x.uid x.issuer fun q => { q with event := true }
  releaseLocks s x.eng c rel

/-- A command that ends for a unit that no longer lives: nothing is pushed; a result of a generation that has passed is counted (R320, R356). -/
def discard (s : State) (uid : Nat) : State :=
  let u := getUnit s uid
  let s : State := if (getCont s u.ident.key.cont).gen.toNat != u.ident.gen then { s with gendrop := s.gendrop + 1 } else s
  reclaim s uid

/-- What a press command's completion does beside its result (R244, R250, R252): a load sets the weight record and the owner, a `PREL` ends its unit's
grant, and the others count. -/
def pressAfter (s : State) (cl : Nat) (c : EngCmd) : State :=
  match c.code with
  | 1 => modPress (modUnit s c.uid fun u => { u with press := { u.press with lreq := false } }) cl fun p => if p.unit = some c.uid then endGrant p else p
  | k =>
    let s := if k = 2 then
        modPress (modUnit s c.uid fun u => { u with press := { u.press with wrec := some (c.h, declaredPlanes (hFmt c.h) c.ra) } }) cl fun p =>
          { p with owner := some c.uid }
      else s
    modPress s cl fun p =>
      let p := { p with cmds := p.cmds - 1 }
      if p.cmds = 0 ∨ p.expired then endGrant p else p

/-- A `PREL` at the head of the queue of the unit that issues on core k of a cluster, with the commands before it completed (R250). -/
def headPrel (s : State) (cl k : Nat) : Option EngCmd :=
  (issuingUnit s (4 * cl + k)).bind fun uid =>
    if runsFor uid .c (getCluster s cl).press.cur then none
    else (readyHead s (4 * cl + k) .press uid .c).filter fun c => c.code == 1 && tokenFits s c

/-- A `PREL` takes effect and completes, whether or not its core holds the lease (R250). -/
def takePrel (s : State) (cl : Nat) (c : EngCmd) : State :=
  let x := siteCtx s (.press cl) c
  pressAfter (deliver (learn (popCmd s c.uid .c .press) x.agent c.rel.hist) x c 0 0) cl c

/-- The lease of a cluster as it stands now, with the `PREL` commands that have reached a head (R244, R250). -/
def settleLease (s : State) (cl : Nat) : State :=
  settlePress ((List.range 4).foldl (fun s k => match headPrel s cl k with | some c => takePrel s cl c | none => s) s) cl

/-- The command at a site completes, if it has ended its work and its token finds room. -/
def completeAt (s : State) (w : Site) : State :=
  match runAt s w with
  | none => s
  | some r =>
    if !r.fin then s
    else if !(getUnit s r.cmd.uid).alive then
      let s := setRun s w none
      let s := match w with
        | .press cl => settlePress (if r.cmd.code = 2 then modPress s cl fun p => { p with owner := none } else s) cl
        | _ => s
      discard s r.cmd.uid
    else if !(tokenFits s r.cmd) then s
    else
      let x := siteCtx s w r.cmd
      let s := deliver (setRun s w none) x r.cmd 0 (cmdDone w.eng r.cmd r.pos)
      match w with
      | .press cl => settleLease (pressAfter s cl r.cmd) cl
      | _ => s

/-! ## Failure (R186, R301) -/

/-- The cause that a `STAT` raises at the issuer (R186, R347). -/
def statCause (stat : Nat) : Nat :=
  match stat with
  | 1 => 4
  | 2 => 3
  | 3 => 2
  | _ => 11

/-- A command fails for a living unit: its result element, no token, its queue stopped, the fault at its issuer's next boundary, its locks
released (R168, R186). -/
def failDeliver (s : State) (x : EngCtx) (c : EngCmd) (stat done : Nat) : State :=
  let s := raiseKept s c
  let rel := cmdRelease s x c
  let full := 16 ≤ ((getSeq s x.uid x.issuer).eq x.eng).results.length
  let s := modEq s x.uid x.issuer x.eng fun q =>
    { pushResult q (fun f => resultWord stat f x.eng c done) rel with done := rel :: q.done, stopped := true }
  let s := modSeq s x.uid x.issuer fun q => q.modFl fun f => { f with
    faults := f.faults ++ [{ cause := statCause stat, tval := resultWord stat full x.eng c done, eng := some x.eng, race := none }] }
  releaseLocks s x.eng c rel

/-- The failed command at a site ends, once the records of the elements it performed are accepted. -/
def failAt (s : State) (w : Site) : State :=
  match runAt s w with
  | none => s
  | some r =>
    match r.hold with
    | .failed stat =>
      if !(getUnit s r.cmd.uid).alive then
        let s := setRun s w none
        discard (match w with | .press cl => settlePress s cl | _ => s) r.cmd.uid
      else
        let x := siteCtx s w r.cmd
        let (s, h, rest) := offerAll x true true r.recs s
        if h != .none then setRun s w (some { r with recs := rest })
        else
          let s := failDeliver (setRun s w none) x r.cmd stat (cmdDone w.eng r.cmd r.pos)
          match w with
          | .press cl => settlePress s cl
          | _ => s
    | _ => s

/-! ## Going on (R274, R305, R403) -/

/-- Whether an address that a command waits for is translated. -/
def translated (s : State) (uid : Nat) (va : Word) (kind : AccKind) : Bool :=
  match locate s uid va kind with
  | .error .miss => false
  | _ => true

/-- Whether a command's request still waits at a controller (R401). -/
def stillQueued (s : State) (uid k t : Nat) : Bool := mustQueue s k ((getUnit s uid).ident.cls == 0) t

/-- Whether a command that has stopped can go on now; a race does not hold one whose unit lives no more (R274, R349). -/
def canResume (s : State) (r : RunCmd) : Bool :=
  !r.fin && match r.hold with
    | .none => true
    | .walk _ va kind => translated s r.cmd.uid va kind
    | .budget k t => !(stillQueued s r.cmd.uid k t)
    | .dqin => true
    | .offer => true
    | .race => !(getUnit s r.cmd.uid).alive
    | _ => false

/-- A command that waits for a translation asks for it again where no walk and no fault record of its die holds the request, as after a fence that took the translation
away before the command went on (R391). -/
def askAgain (s : State) (x : EngCtx) (r : RunCmd) : State :=
  match r.hold with
  | .walk _ va kind => if translated s r.cmd.uid va kind then s else holdRequest x s r.hold none
  | _ => s

/-- What a command that goes on keeps of its hold: that its records were offered before (R305), or its ticket (R401). -/
def holdKept : Hold → Hold
  | .offer => .offer
  | .budget k t => .budget k t
  | _ => .none

/-- The command at a site goes on from its element, if it can. -/
def resumeAt (s : State) (w : Site) : State :=
  match runAt s w with
  | none => s
  | some r =>
    if canResume s r then runOn s w { r with hold := holdKept r.hold } else askAgain s (siteCtx s w r.cmd) r

/-- Whether a command has failed. -/
def hasFailed (r : RunCmd) : Bool :=
  match r.hold with
  | .failed _ => true
  | _ => false

/-- Whether a fault record, or a fault that waits for one, still holds what a command waits for (R394, R403). -/
def recordHolds (s : State) (r : RunCmd) : Bool :=
  match r.hold with
  | .walk die va _ =>
    let mine (w : Walk) : Bool := w.agent.uid == r.cmd.uid && w.va == va && match w.waiter with | .seq .. => false | .node .. => false | _ => true
    (getDie s die).faults.any (fun f => f.waiters.any mine) || (getDie s die).parkedFaults.any fun x => mine x.1
  | _ => false

/-- An idle engine takes up a command that has waited for a fault record, once the record's replay has come: it goes on when its translation stands, and is the engine's until
then; one whose access is unmapped fails (R393, R403). -/
def resumeWaiting (s : State) (core : Nat) (e : Eng) : State :=
  let g := (getCore s core).engine e
  if g.run.isSome then s
  else
    match g.waiting.find? fun r => canResume s r || hasFailed r || !(recordHolds s r) with
    | none => s
    | some r =>
      let s := modCore s core fun c => c.setEngine e { g with waiting := g.waiting.erase r }
      if canResume s r then runOn s (.own core e) { r with hold := .none }
      else askAgain (setRun s (.own core e) (some r)) (siteCtx s (.own core e) r.cmd) r

/-- An idle engine of a core starts a command; among resident slots the choice is free (R136). A command that has waited for a fault record and can go on is taken up
first (R403). -/
def startEngine (s : State) (core : Nat) (e : Eng) : State :=
  let s := resumeWaiting s core e
  let g := (getCore s core).engine e
  if g.run.isSome then s
  else
    match nextQueue s core e g.next with
    | none => s
    | some (k, q, us) =>
      let uid := us[Config.pick s.free % us.length]?.getD 0
      let s := { s with free := s.free + 1 }
      match ((getSeq s uid q).eq e).cmds with
      | [] => s
      | c :: _ =>
        let s := modCore (popCmd s uid q e) core fun x => x.setEngine e { x.engine e with next := (k + 1) % 3 }
        beginCmd s (.own core e) c

/-! ## Parking (R192, R235) -/

/-- The bytes that the first steps of a copy command write. -/
def writtenBytes (c : EngCmd) (pos : Nat) : Nat :=
  match c.code with
  | 3 => pos * fmtBits (hFmt c.h) / 8
  | 5 => 4 * pos
  | _ => (copyJob c).done pos * fmtBits (copyJob c).dst.fmt / 8

/-- How many more steps a command does when its unit is parked: a copy command all of them within 4 KiB of its end, else as far as the next multiple of 4 KiB
of its written bytes; a gather command to the end of its index entry; a row-engine command to the end of its row. -/
def parkSteps (e : Eng) (c : EngCmd) (pos : Nat) (begun : Bool) : Nat :=
  let left := cmdSteps e c - pos
  match e with
  | .copy =>
    let b := writtenBytes c pos
    if writtenBytes c (cmdSteps e c) ≤ b + 4096 then left
    else ((List.range left).find? fun n => (b + 4095) / 4096 * 4096 ≤ writtenBytes c (pos + n)).getD left
  | .gather => if pos % entryElems c = 0 && !begun then 0 else entryElems c - pos % entryElems c
  | .row => if begun then 1 else 0
  | _ => 0

/-- A command goes on for a unit that is being parked, whose `AFLAGS` are saved already: the flags that it raises stay with it (R98). -/
def runParked (s : State) (w : Site) (r : RunCmd) (n : Nat) : State :=
  let fl := (getUnit s r.cmd.uid).aflags
  let t := runFor (modUnit s r.cmd.uid fun u => { u with aflags := 0 }) w r n
  let kept := (getUnit t r.cmd.uid).aflags
  let t := modUnit t r.cmd.uid fun u => { u with aflags := fl }
  setRun t w ((runAt t w).map fun x => { x with cmd := { x.cmd with flags := x.cmd.flags ||| kept } })

/-- The command at a site as a park leaves it: one that has ended its work completes, one that has failed ends, and one that can go on does so to its restart
point (R192, R235). One that waits stops at its element. -/
def parkAt (s : State) (w : Site) : State :=
  match runAt s w with
  | none => s
  | some r =>
    if r.fin then completeAt s w
    else if hasFailed r then failAt s w
    else if canResume s r then
      completeAt (runParked s w { r with hold := holdKept r.hold } (parkSteps w.eng r.cmd r.pos (!r.trace.isEmpty))) w
    else s

/-! ## Relocation (R193) -/

/-- Whether an engine has a command in any of its queues, or runs one of its own. -/
def engineHasWork (s : State) (core : Nat) (e : Eng) : Bool :=
  ((getCore s core).engine e).run.isSome || s.units.any fun p => p.2.alive && p.2.place.resident && p.2.place.core == core &&
    issuers.any fun q => !((p.2.seq q).eq e).cmds.isEmpty

/-- Whether all the memory that a command names can be reached from a sibling: global memory, or a partition of the cluster (R193). -/
def reachable (s : State) (c : EngCmd) : Bool :=
  c.code != 5 || match unitByIndex s (getUnit s c.uid) (xferTarget c) with
    | some t => (getUnit s t).place.core / 4 == (getUnit s c.uid).place.core / 4 && bits c.rb.toNat 0 24 < 0x180000
    | none => false

/-- A sibling's idle engine takes a relocatable command at the head of a queue, which has not started, while its own engine is busy (R193). -/
def takeRelocated (s : State) (core : Nat) (e : Eng) (uid : Nat) (q : Seq) : State :=
  let own := (getUnit s uid).place.core
  if (e = .copy ∨ e = .row) ∧ core ≠ own ∧ core / 4 = own / 4 ∧ ((getCore s own).engine e).run.isSome ∧
      !(engineHasWork s core e) ∧ (runAt s (.reloc core e)).isNone then
    match readyHead s own e uid q with
    | none => s
    | some c => if c.rl && !c.started && (e == .row || reachable s c) then beginCmd (popCmd s uid q e) (.reloc core e) c else s
  else s

end Sys2Proof.Machine
end

