-- ==== Sys2Proof/Machine/EngineEvents.lean ====
section
/-!
DEFINITION. The events of the engines, of the press and of the collective engine (R185, R186, R193, R243 to R248, R403, R431 to R433).
-/

namespace Sys2Proof.Machine

open Sys2Proof

/-! ## The collective engine (R431 to R433) -/

/-- Whether a contribution from another member matches a command (R431): the same set, tag and form, or the send and the receive of a
pair. -/
def matchesCmd (s : State) (c : EngCmd) (k : Contribution) : Bool :=
  let me := match colMembers s c.ra with | some cs => ownRank s cs | none => 0
  k.set == colSet c.ra && k.tag == colTag c.ra &&
    match c.code with
    | 3 => k.code == 4 && k.rank == colPeer c.ra && k.peer == me
    | 4 => k.code == 3 && k.rank == colPeer c.ra && k.peer == me
    | n => k.code == n

/-- Whether a contribution disagrees with a command in stamp, extent, format or operation (R428, R431). -/
def disagrees (s : State) (c : EngCmd) (k : Contribution) : Bool :=
  let stamp := match colMembers s c.ra with | some cs => cs.stamp | none => 0
  k.stamp != stamp || k.fmt != hFmt c.h || k.op != colOp c.ra || k.count != elemCount c.h

/-- A contribution reaches a command (R431): a second one of the same member is a mismatch. -/
def contribute (s : State) (x : CollCmd) (k : Contribution) : CollCmd :=
  { x with contribs := x.contribs ++ [k]
           mismatch := x.mismatch || disagrees s x.cmd k || x.contribs.any fun j => j.rank == k.rank }

/-- The elements of a handle read one by one from element i on. -/
def readAll (x : EngCtx) (h : Handle) (i : Nat) : Nat → E (List Word)
  | 0 => pure []
  | n + 1 => do
    let v ← readElem x h (unrank ⟨hExtent h 0, hExtent h 1, hExtent h 2, hExtent h 3⟩ i)
    let vs ← readAll x h (i + 1) n
    pure (BitVec.ofNat 64 v :: vs)

/-- The elements that satisfy a test, written from element i on. -/
def writeAll (x : EngCtx) (h : Handle) (p : Nat → Bool) (i : Nat) : List Word → E Unit
  | [] => pure ()
  | v :: r => do
    if p i then writeElem x h (unrank ⟨hExtent h 0, hExtent h 1, hExtent h 2, hExtent h 3⟩ i) v.toNat else pure ()
    writeAll x h p (i + 1) r

/-- The context of a collective command on its base die. -/
def collCtx (s : State) (x : CollCmd) : EngCtx :=
  let u := getUnit s x.cmd.uid
  { uid := x.cmd.uid, eng := .coll, issuer := x.cmd.issuer, core := x.core, reloc := false,
    agent := engAgent u x.cmd.uid .coll x.cmd.issuer 0, region := x.cmd.seqNo, level := none, bad := [], moved := [] }

/-- The collective command of an index at a die replaced. -/
def setColl (s : State) (die idx : Nat) (x : CollCmd) : State := modDie s die fun d => { d with coll := d.coll.set idx x }

/-- The device's own contribution to a command. -/
def ownContribution (s : State) (c : EngCmd) (es : List Word) : Contribution :=
  let cs := (colMembers s c.ra).getD { ranks := [], stamp := 0 }
  { set := colSet c.ra, tag := colTag c.ra, code := c.code, rank := ownRank s cs, peer := colPeer c.ra, op := colOp c.ra,
    fmt := hFmt c.h, stamp := cs.stamp, count := elemCount c.h, elems := es, hist := [] }

/-- A collective command that stops at an access keeps what it has done, and asks for what it waits for (R274, R392). -/
def holdColl (k : EngCtx) (die idx : Nat) (x : CollCmd) (e : EStop) : State :=
  holdRequest k (setColl e.run.s die idx { x with hold := e.hold, trace := e.run.trace }) e.hold e.race

/-- Whether a physical address lies in a unit's partition. -/
def inPartition (u : UnitState) (pa : Nat) : Bool := spadPa u 0 ≤ pa && pa < spadPa u u.place.spadSize

/-- A mark on a unit's partition, with an offset for its address. -/
def markOffset (u : UnitState) (m : Mark) : Option Mark :=
  match m.word with
  | .mem pa => if inPartition u pa then some { m with word := .mem (pa - spadPa u 0) } else none
  | .acc .. => none

/-- The partition of a parked unit taken from its context to the place that it had, for what one of its collective commands does, and back (R434): what stands there meanwhile,
and the marks and release sequences on it, come back as they were. -/
def withPartition (s : State) (uid : Nat) (f : State → State) : State :=
  let u := getUnit s uid
  match u.saved with
  | none => f s
  | some v =>
    let other := fun (m : Mark) => match m.word with | .mem pa => inPartition u pa | .acc .. => false
    let marks := s.order.marks.filter other
    let heads := s.order.heads.filter fun h => inPartition u h.1
    let cells := s.mem.filter fun c => inPartition u c.1
    let t := f { modUnit s uid (fun u => { u with place := { u.place with resident := true } }) with
      mem := v.spad.foldl (fun m c => memPut m (spadPa u 0 + c.1) c.2) (memDrop s.mem (spadPa u 0) (spadPa u u.place.spadSize))
      order := { s.order with
        marks := (v.marks.map fun m => match m.word with | .mem o => { m with word := .mem (spadPa u 0 + o) } | _ => m) ++
          s.order.marks.filter fun m => !(other m)
        heads := (v.heads.map fun h => (spadPa u 0 + h.1, h.2)) ++ s.order.heads.filter fun h => !(inPartition u h.1) } }
    let spad := (t.mem.filter fun c => inPartition u c.1).map fun c => (c.1 - spadPa u 0, c.2)
    let mine := t.order.marks.filterMap (markOffset u)
    let seqs := (t.order.heads.filter fun h => inPartition u h.1).map fun h => (h.1 - spadPa u 0, h.2)
    modUnit { t with
      mem := cells.foldl (fun m c => memPut m c.1 c.2) (memDrop t.mem (spadPa u 0) (spadPa u u.place.spadSize))
      order := { t.order with
        marks := marks ++ t.order.marks.filter fun m => !(other m)
        heads := heads ++ t.order.heads.filter fun h => !(inPartition u h.1) } } uid fun u =>
      { u with saved := u.saved.map fun v => { v with spad := spad, marks := mine, heads := seqs }
               place := { u.place with resident := false } }

/-- What a collective command of a unit does, with the partitions of its launch's parked units where they were (R434). -/
def withGang (s : State) (uid : Nat) (f : State → State) : State :=
  ((uid :: unitsOf s (getUnit s uid).ident.key).eraseDups).foldr (fun v g s => withPartition s v g) f s

/-- A collective command with the contribution of its own device, which counts as arriving when the command starts (R432). -/
def withOwn (s : State) (x : CollCmd) : CollCmd :=
  let mine := ownContribution s x.cmd []
  if x.cmd.code = 3 ∨ x.cmd.code = 4 ∨ x.contribs.any (fun k => k.rank == mine.rank) then x else contribute s x mine

/-- A collective command reads its handle, whose data then stands in its contribution (R432); a receive reads nothing. -/
def collReadNow (die idx : Nat) (x : CollCmd) (s : State) : State :=
  let k := { withTags s (collCtx s x) x.cmd with ticket := holdTicket x.hold }
  match readAll k x.cmd.h 0 (if x.cmd.code = 4 then 0 else elemCount x.cmd.h) { s := s, recs := [], skip := x.trace } with
  | .error e => holdColl k die idx x e
  | .ok (es, r) =>
    let s := countUnit r.s x.cmd.uid fun a => { a with elems := a.elems + es.length }
    let me := (ownContribution s x.cmd []).rank
    setColl s die idx { x with
      started := true, elems := es, hold := .none, trace := []
      contribs := if x.cmd.code = 3 ∨ x.cmd.code = 4 then x.contribs else x.contribs.map fun k => if k.rank = me then { k with elems := es } else k }

/-- A collective command starts, or goes on with, the read of its handle (R432); that of a parked unit goes on in its context (R434). -/
def collRead (s : State) (die idx : Nat) (x : CollCmd) : State := withGang s x.cmd.uid (collReadNow die idx (withOwn s x))

/-- The bytes that a collective command stages (R432). -/
def stageSize (c : EngCmd) : Nat := elemCount c.h * fmtBits (hFmt c.h) / 8

/-- The bytes that the collective commands of a die stage; one that waits for room stages none (R432). -/
def stagedBytes (s : State) (die : Nat) : Nat :=
  (((getDie s die).coll.filter fun x => x.hold != .staging).map fun x => stageSize x.cmd).foldl (· + ·) 0

/-- Whether the staging area of a die, 32 MiB, has room for a command (R432). -/
def stageFits (s : State) (die : Nat) (c : EngCmd) : Bool := stagedBytes s die + stageSize c ≤ 32 * 1048576

/-- The members whose contributions a command needs before it commits (R432). -/
def neededRanks (s : State) (c : EngCmd) : List Nat :=
  if c.code = 3 ∨ c.code = 4 then [colPeer c.ra] else List.range ((colMembers s c.ra).getD { ranks := [], stamp := 0 }).ranks.length

/-- The state of another member of the group; 2, a member, for one that is not known. -/
def peerState (s : State) (device : Nat) : Nat :=
  match tabGet s.group.peers device with
  | some p => p.state
  | none => 2

/-- Whether a command involves a silent member (R423). -/
def involvesSilent (s : State) (c : EngCmd) : Bool :=
  (neededRanks s c).any fun r => peerState s ((((colMembers s c.ra).getD { ranks := [], stamp := 0 }).ranks[r]?).getD 0) == 4

/-- Whether the device takes part in collectives that start now: a member, or a leaving one before its leave stamp (R421). -/
def takesPart (s : State) : Bool :=
  s.group.state == 2 || s.group.state == 3 && (match s.group.leaveAt with | some t => s.stamp < t | none => true)

/-- Whether a port sends a piece now (R425, R426): its class is not paused, none of its class waits before it, and a class-0 piece still fits the window. -/
def sendsNow (p : PortState) (w : Piece) : Bool :=
  !(p.paused.contains w.cls) && !(p.waiting.any fun x => x.cls == w.cls) && (w.cls != 0 || p.window + w.bytes ≤ 11200)

/-- Pieces of messages at a port, in order: each is sent, or waits (R425). -/
def letThrough (ws : List Piece) (p : PortState) : PortState :=
  ws.foldl (fun p w =>
    if sendsNow p w then (if w.cls = 0 then { p with window := p.window + w.bytes } else p) else { p with waiting := p.waiting ++ [w] }) p

/-- The pieces that wait at a port sent as far as they may be now. -/
def sendWaiting (p : PortState) : PortState := letThrough p.waiting { p with waiting := [] }

/-- A message as pieces of at most 4 KiB (R425). -/
def pieces (n : Nat) : List Nat := (List.range ((n + 4095) / 4096)).map fun i => Nat.min 4096 (n - 4096 * i)

/-- The message of a collective command, of the class of its launch, at a port of its die that a free choice gives (R424, R425); a receive sends nothing. -/
def sendMessage (s : State) (die : Nat) (c : EngCmd) : State :=
  if c.code = 4 then s
  else
    let ps := (pieces (stageSize c)).map fun n => { cls := (getUnit s c.uid).ident.cls, bytes := n, cmd := some (c.uid, c.lockNo) : Piece }
    modPort { s with free := s.free + 1 } die (Config.pick s.free % 9) (letThrough ps)

/-- A base die starts the next collective command of a core's C (R431, R432). One that finds the staging area full waits there for room, with its timeout running.
Contributions that came before it are taken first. A second command of this device in one match, for a send or a receive
of one peer, is a mismatch. A device that takes part in no collective starts none (R421). -/
def startColl (s : State) (core : Nat) : State :=
  let die := core / 192
  match readyUnits s core .coll .c with
  | [] => s
  | us =>
    let uid := us[Config.pick s.free % us.length]?.getD 0
    match ((getSeq s uid .c).eq .coll).cmds with
    | [] => s
    | c :: _ =>
      if !(takesPart s) then s
      else
        let room := stageFits s die c
        let s := popCmd { s with free := s.free + 1 } uid .c .coll
        let twin (x : CollCmd) : Bool := x.cmd.code == c.code && colSet x.cmd.ra == colSet c.ra && colTag x.cmd.ra == colTag c.ra &&
          ((c.code != 3 && c.code != 4) || colPeer x.cmd.ra == colPeer c.ra)
        let twice := [0, 1, 2, 3].any fun d => (getDie s d).coll.any twin
        let s := [0, 1, 2, 3].foldl (fun s d => modDie s d fun k =>
          { k with coll := k.coll.map fun x => if twin x then { x with mismatch := true } else x }) s
        let x : CollCmd := { core := core, cmd := c, started := false, elems := [], contribs := [], mismatch := twice, silent := involvesSilent s c,
                             hold := if room then .none else .staging, trace := [], result := none }
        let came := (getDie s die).early.filter (matchesCmd s c)
        let x := came.foldl (contribute s) x
        let s := modDie s die fun d => { d with coll := d.coll ++ [x], early := d.early.filter fun k => !(came.contains k) }
        let s := learn s (collCtx s x).agent c.rel.hist
        if room then collRead (sendMessage s die c) die ((getDie s die).coll.length - 1) x else s

/-- Whether all the data of a command has arrived. -/
def allArrived (s : State) (x : CollCmd) : Bool :=
  x.started && (neededRanks s x.cmd).all fun r => x.contribs.any fun k => k.rank == r

/-- Contributions in an order that free choices give: the order in which they reached another engine (R432). -/
def freeOrder {α : Type} (free : Nat) (xs : List α) : List α :=
  (xs.zipIdx).foldl (fun acc p => acc.insertIdx (Config.pick (free + p.2) % (acc.length + 1)) p.1) []

/-- The reduction of every contribution in the order of a list. -/
def reduceIn (c : EngCmd) (ks : List Contribution) : List Word := reduceAll (colOp c.ra) (hFmt c.h) (ks.map (·.elems))

/-- The elements that a commit gives, whole (R432). The own chunk is reduced in the order of arrival here; another's in the order of arrival at its
owner. -/
def commitElems (s : State) (x : CollCmd) : List Word :=
  let c := x.cmd
  let cs := (colMembers s c.ra).getD { ranks := [], stamp := 0 }
  let n := cs.ranks.length
  let me := ownRank s cs
  let e := elemCount c.h
  let from0 (k i : Nat) : Word := ((x.contribs.find? fun j => j.rank == k).bind fun j => j.elems[i]?).getD 0
  let owner (i : Nat) : Nat := ((List.range n).find? fun k => inChunk k e n i).getD 0
  match c.code with
  | 0 =>
    let results := (List.range n).map fun k => reduceIn c (if k = me then x.contribs else freeOrder (s.free + k * n) x.contribs)
    (List.range e).map fun i => ((results[owner i]?).bind fun r => r[i]?).getD 0
  | 1 => let r := reduceIn c x.contribs; (List.range e).map fun i => (r[i]?).getD 0
  | 4 => (List.range e).map fun i => from0 (colPeer c.ra) i
  | 5 => (List.range e).map fun i => let k := owner i; from0 k (chunkStart me e n + (i - chunkStart k e n))
  | _ => (List.range e).map fun i => from0 (owner i) i

/-- Which elements a commit writes (R432). -/
def commitWrites (s : State) (c : EngCmd) (i : Nat) : Bool :=
  let cs := (colMembers s c.ra).getD { ranks := [], stamp := 0 }
  let mine := inChunk (ownRank s cs) (elemCount c.h) cs.ranks.length i
  match c.code with
  | 0 => true
  | 1 => mine
  | 3 => false
  | 4 => true
  | _ => !mine

/-- `DONE` of a command that commits (R433). -/
def commitDone (s : State) (c : EngCmd) : Nat :=
  if c.code = 3 then elemCount c.h else ((List.range (elemCount c.h)).filter (commitWrites s c)).length

/-- Whether the generation of a command's continuation has passed since its unit started (R356). -/
def staleCmd (s : State) (c : EngCmd) : Bool :=
  let i := (getUnit s c.uid).ident
  (getCont s i.key.cont).gen.toNat != i.gen

/-- A collective command leaves its die with a status that pushes its token: 0, or 5, 7 and 8 (R433). -/
def endColl (s : State) (die idx : Nat) (x : CollCmd) (stat done : Nat) : State :=
  let gone := modDie s die fun d => { d with coll := d.coll.eraseIdx idx }
  if !(getUnit s x.cmd.uid).alive || staleCmd s x.cmd then discard gone x.cmd.uid
  else if !(tokenFits s x.cmd) then s
  else deliver gone (collCtx s x) x.cmd stat done

/-- A collective command ends at a failure of R186. -/
def failColl (s : State) (die idx : Nat) (x : CollCmd) (stat : Nat) : State :=
  let s := modDie s die fun d => { d with coll := d.coll.eraseIdx idx }
  if !(getUnit s x.cmd.uid).alive then discard s x.cmd.uid else failDeliver s (collCtx s x) x.cmd stat 0

/-- An exchange that committed after its declared length: its result element, no token, and the exchange-overrun exception (R433). -/
def overrunColl (s : State) (die idx : Nat) (x : CollCmd) (done : Nat) : State :=
  let s := modDie s die fun d => { d with coll := d.coll.eraseIdx idx }
  if !(getUnit s x.cmd.uid).alive then discard s x.cmd.uid
  else
    let k := collCtx s x
    let rel := cmdRelease s k x.cmd
    let s := modEq s k.uid k.issuer .coll fun q =>
      { pushResult q (fun f => resultWord 6 f .coll x.cmd done) rel with done := rel :: q.done, stopped := true }
    let s := modSeq s k.uid k.issuer fun q => q.modFl fun f => { f with
      faults := f.faults ++ [{ cause := 7, tval := BitVec.ofNat 64 (getUnit s k.uid).superstep, eng := some .coll, race := none }] }
    releaseLocks s .coll x.cmd rel

/-- The elements that a command commits, fixed once (R432): the choices of their order are taken then. -/
def fixResult (s : State) (x : CollCmd) : State × List Word :=
  match x.result with
  | some es => (s, es)
  | none =>
    let n := ((colMembers s x.cmd.ra).getD { ranks := [], stamp := 0 }).ranks.length
    ({ s with free := s.free + n * n }, if x.cmd.code = 3 then [] else commitElems s x)

/-- A collective command that commits synchronises with the start of every participant's command: its agent learns what those contributions carry (R434). -/
def learnStarts (s : State) (x : CollCmd) : State :=
  learn s (collCtx s x).agent ((x.contribs.filter fun k => (neededRanks s x.cmd).contains k.rank).foldl (fun h k => histJoin h k.hist) [])

/-- A collective command writes its destination once, in the order of its elements, and ends (R432, R433). -/
def writeColl (die idx : Nat) (late : Bool) (x : CollCmd) (s : State) : State :=
  let s := learnStarts s x
  let k := { withTags s (collCtx s x) x.cmd with ticket := holdTicket x.hold }
  let (s, es) := fixResult s x
  match writeAll k x.cmd.h (commitWrites s x.cmd) 0 es { s := s, recs := [], skip := x.trace } with
  | .error e => holdColl k die idx { x with result := some es } e
  | .ok (_, r) =>
    let r := { r with s := countUnit r.s x.cmd.uid fun a => { a with elems := a.elems + es.length } }
    if late ∧ x.cmd.code = 5 then overrunColl r.s die idx x (commitDone s x.cmd) else endColl r.s die idx x 0 (commitDone s x.cmd)

/-- Whether a collective command stands still: it has raced and waits for the handler's return, it has failed, or its translation is not there (R186, R274,
R392, R401). -/
def collStands (s : State) (x : CollCmd) : Bool :=
  match x.hold with
  | .race => (getUnit s x.cmd.uid).alive
  | .failed _ => true
  | .walk _ va kind => !(translated s x.cmd.uid va kind)
  | .budget c t => stillQueued s x.cmd.uid c t
  | _ => false

/-- A collective command that waits for a translation asks for it again where nothing holds the request (R391). -/
def askColl (s : State) (x : CollCmd) : State :=
  match x.hold with
  | .walk .. => if collStands s x then holdRequest (collCtx s x) s x.hold none else s
  | _ => s

/-- Whether an earlier command of a collective command's queue waits for a translation: no later one of the queue goes on (R403). -/
def behindWaiting (s : State) (die : Nat) (x : CollCmd) : Bool :=
  (getDie s die).coll.any fun y => y.cmd.uid == x.cmd.uid && y.cmd.issuer == x.cmd.issuer && y.cmd.lockNo < x.cmd.lockNo &&
    match y.hold with | .walk .. => true | _ => false

/-- Whether a piece of a command's message still waits at a port of its die (R425). -/
def unsent (s : State) (die : Nat) (c : EngCmd) : Bool :=
  (List.range 9).any fun p => (getPort s die p).waiting.any fun w => w.cmd == some (c.uid, c.lockNo)

/-- A collective command commits: it ends as its match decides, or writes its destination once (R432, R433), after which neither the match nor a timeout ends it. The command of a
parked unit goes on, its partition in its context (R434); one of a generation that has passed writes nothing (R356), one behind a command of its queue that waits for a fault
record stays (R403), and one whose message is not sent whole waits (R425). -/
def commitColl (s : State) (die idx : Nat) (late : Bool) (x : CollCmd) : State :=
  if staleCmd s x.cmd then endColl s die idx x 0 0
  else if x.result.isNone && x.silent then endColl s die idx x 5 0
  else if x.result.isNone && x.mismatch then endColl s die idx x 7 0
  else if !(allArrived s x) || behindWaiting s die x || unsent s die x.cmd then s
  else if collStands s x then askColl s x
  else if !(late && x.cmd.code == 5) && !(tokenFits s x.cmd) then s
  else withGang s x.cmd.uid (writeColl die idx late x)

/-- `COLLECTIVE_CONTRIBUTION`: another member's data arrives at a base die (R431, R432). -/
def execCollectiveContribution (die : Nat) (c : Contribution) (s : State) : Host.Outcome State Fault Refusal :=
  .next (match (getDie s die).coll.findIdx? fun x => matchesCmd s x.cmd c with
    | some i =>
      match (getDie s die).coll[i]? with
      | some x => setColl s die i (contribute s x c)
      | none => s
    | none => modDie s die fun d => { d with early := d.early ++ [c] })

/-- `COLLECTIVE_COMMIT`: a command whose data has arrived commits; `late` says that an exchange did so after its declared length (R432,
R433). -/
def execCollectiveCommit (die idx : Nat) (late : Bool) (s : State) : Host.Outcome State Fault Refusal :=
  .next (match (getDie s die).coll[idx]? with
    | some x => commitColl s die idx late x
    | none => s)

/-- `COLLECTIVE_TIMEOUT`: a command with a timeout that has passed ends with status 8, its destination unwritten (R429, R433); one that has begun to write it commits. -/
def execCollectiveTimeout (die idx : Nat) (s : State) : Host.Outcome State Fault Refusal :=
  .next (match (getDie s die).coll[idx]? with
    | some x => if x.cmd.code != 5 && bits x.cmd.rb.toNat 0 24 != 0 && x.result.isNone then endColl s die idx x 8 0 else s
    | none => s)

/-- The collective commands of a core's base die that wait go on: those that have not read their handle, those that can translate now, and those that find room in
the staging area. -/
def resumeColl (s : State) (core : Nat) : State :=
  let die := core / 192
  match (getDie s die).coll.findIdx? fun x => x.core == core && !x.started && (match x.hold with
      | .walk _ va kind => translated s x.cmd.uid va kind
      | .budget c t => !(stillQueued s x.cmd.uid c t)
      | .staging => stageFits s die x.cmd
      | .none => true
      | _ => false) with
  | some i =>
    match (getDie s die).coll[i]? with
    | some x => collRead (if x.hold = .staging then sendMessage s die x.cmd else s) die i { x with hold := holdKept x.hold }
    | none => s
  | none => ((getDie s die).coll.filter fun x => x.core == core).foldl askColl s

/-- The collective commands of a core that have failed. -/
def failedColl (s : State) (core : Nat) : State :=
  let die := core / 192
  match (getDie s die).coll.findIdx? fun x => x.core == core && (match x.hold with | .failed _ => true | _ => false) with
  | some i =>
    match (getDie s die).coll[i]? with
    | some x => match x.hold with
      | .failed st => failColl s die i x st
      | _ => s
    | none => s
  | none => s

/-! ## The engines (R185, R186, R193, R403) -/

/-- `ENGINE_COMMAND_START`: an idle engine takes its next command and runs it (R136, R185); for the collective engine, its base die does. -/
def execEngineCommandStart (core : Nat) (eng : Eng) (s : State) : Host.Outcome State Fault Refusal :=
  .next (match eng with
    | .press => s
    | .coll => startColl s core
    | e => startEngine s core e)

/-- The two sites of an engine of a core: its own command and one it has taken over. -/
def sitesOf (core : Nat) (e : Eng) : List Site :=
  match e with
  | .press => [.press (core / 4)]
  | .coll => []
  | .gather => [.own core .gather]
  | e => [.own core e, .reloc core e]

/-- `ENGINE_COMMAND_COMPLETE`: a command that has ended its work writes its result element and pushes its token (R185). -/
def execEngineCommandComplete (core : Nat) (eng : Eng) (s : State) : Host.Outcome State Fault Refusal :=
  .next (if eng = .press then s else (sitesOf core eng).foldl completeAt s)

/-- `ENGINE_COMMAND_FAIL`: a command that has failed ends (R186). -/
def execEngineCommandFail (core : Nat) (eng : Eng) (s : State) : Host.Outcome State Fault Refusal :=
  .next (if eng = .coll then failedColl s core else (sitesOf core eng).foldl failAt s)

/-- `RELOCATION_TAKE` (R193). -/
def execRelocationTake (core : Nat) (eng : Eng) (u : Nat) (q : Seq) (s : State) : Host.Outcome State Fault Refusal :=
  .next (takeRelocated s core eng u q)

/-- `ENGINE_FAULT_WAIT_RESUME`: a command that waits goes on at its element: the running one, a relocated one, or one that stood aside for a fault
record (R274, R305, R403). -/
def execEngineFaultWaitResume (core : Nat) (eng : Eng) (s : State) : Host.Outcome State Fault Refusal :=
  .next (match eng with
    | .coll => resumeColl s core
    | .press => resumeAt s (.press (core / 4))
    | e => resumeWaiting ((sitesOf core e).foldl resumeAt s) core e)

/-! ## The press (R243 to R248) -/

/-- The order in which the arbiter looks at the cores from its pointer (R243). -/
def fromPointer (ptr : Nat) : List Nat := (List.range 4).map fun i => (ptr + i) % 4

/-- The core that the arbiter chooses (R243): the first that requests from its pointer, among those of class 0 when there are any. -/
def arbitrate (s : State) (cl : Nat) : Option Nat :=
  let ask := (fromPointer (getCluster s cl).press.ptr).filter (requestsLease s cl)
  let top := ask.filter fun k => leaseClass s cl k == 0
  (if top.isEmpty then ask else top).head?

/-- The press after a grant to a core of a class (R243). -/
def grantTo (p : PressState) (k cls uid : Nat) : PressState :=
  let run := if k = p.ptr then p.run + 1 else 1
  let full := run = leaseWeight cls
  { p with ptr := if full then (k + 1) % 4 else k, run := if full then 0 else run, holder := some k, unit := some uid, cmds := 16, expired := false
           timedOut := false }

/-- `PRESS_ARBITRATE`: a press without a holder grants the lease (R243); the holder's weights are reloaded first when the cells hold another's
(R245). -/
def execPressArbitrate (cl : Nat) (s : State) : Host.Outcome State Fault Refusal :=
  let s := settleLease s cl
  let p := (getCluster s cl).press
  .next (if p.holder.isSome || p.cur.isSome || p.reload then s
    else
      match arbitrate s cl with
      | none => s
      | some k =>
        match issuingUnit s (4 * cl + k) with
        | none => s
        | some uid =>
          let s := modPress s cl fun p => grantTo p k (leaseClass s cl k) uid
          if (getUnit s uid).press.wrec.isSome && p.owner != some uid then modPress s cl fun p => { p with reload := true } else s)

/-- A failed reload (R246): the first command of the grant fails in its place, or, with none queued, the fault is raised with the element that a
failing `PWLD` would have written. The grant ends and the queue stays stopped. -/
def reloadFails (s : State) (cl uid stat : Nat) : State :=
  let s := modPress (loadFailed s cl uid) cl endGrant
  match ((getSeq s uid .c).eq .press).cmds with
  | c :: _ =>
    let s := popCmd s uid .c .press
    failDeliver s (siteCtx s (.press cl) c) c stat 0
  | [] =>
    let tval := BitVec.ofNat 64 (stat * 2 ^ 60 + 4 * 2 ^ 56 + 2 * 2 ^ 48)
    let s := modEq s uid .c .press fun q => { q with stopped := true }
    modSeq s uid .c fun q => q.modFl fun f => { f with
      faults := f.faults ++ [{ cause := statCause stat, tval := tval, eng := some .press, race := none }] }

/-- The reload of a unit's image by its weight record (R245, R246): the range as it stands, its tags checked, no race detection; its energy is the unit's (R260). -/
def reloadNow (s : State) (cl uid : Nat) (h : Handle) (m : Nat) : State :=
  let u := getUnit s uid
  let n := imageBytes (imagePlanes (hFmt h))
  match localBase u h with
  | none => reloadFails s cl uid 1
  | some off =>
    if !(rangeFits s uid uid off n) then reloadFails s cl uid 1
    else if !(regionsAre s uid off n (hSwz h)) then reloadFails s cl uid 2
    else
      let bs := memBytes s.mem (spadPa u off) (imageBytes m)
      if hFmt h = 0x2F ∧ badAt bs then reloadFails s cl uid 3
      else modPress (countUnit s uid fun a => { a with press := a.press + 32 * m }) cl fun p => { loadCells p (hFmt h) m bs with owner := some uid, reload := false }

/-- `PRESS_RELOAD_COMPLETE`: the reload of a grant completes or fails, once no written lock of the core lies over the range (R245, R246). -/
def execPressReloadComplete (cl : Nat) (s : State) : Host.Outcome State Fault Refusal :=
  let s := settleLease s cl
  let p := (getCluster s cl).press
  .next (if !p.reload then s
    else
      match p.unit with
      | none => modPress s cl fun p => { p with reload := false, owner := none }
      | some uid =>
        let u := getUnit s uid
        match u.press.wrec with
        | none => modPress s cl fun p => { p with reload := false }
        | some (h, m) =>
          let off := (localBase u h).getD 0
          if u.place.locks.any fun l => !l.rows && l.write && l.lo < off + imageBytes m && off < l.hi then s
          else settlePress (reloadNow (modPress s cl fun p => { p with reload := false }) cl uid h m) cl)

/-- `PRESS_COMMAND_START`: the press starts the next command of its holder's queue (R242, R248); a `PREL` at a head takes effect of itself (R250). -/
def execPressCommandStart (cl : Nat) (s : State) : Host.Outcome State Fault Refusal :=
  let s := settleLease s cl
  let p := (getCluster s cl).press
  .next (if p.reload || p.cur.isSome || p.expired then s
    else
      match p.unit with
      | none => s
      | some uid =>
        match readyHead s (getUnit s uid).place.core .press uid .c with
        | none => s
        | some c => if c.code = 1 then s else beginCmd (popCmd s uid .c .press) (.press cl) c)

/-- `PRESS_COMMAND_COMPLETE` (R244, R248). -/
def execPressCommandComplete (cl : Nat) (s : State) : Host.Outcome State Fault Refusal := .next (completeAt s (.press cl))

/-- `PRESS_GRANT_CYCLES_EXPIRE`: 65,536 cycles of a grant pass; it ends when the running command completes, or at once (R244). -/
def execPressGrantCyclesExpire (cl : Nat) (s : State) : Host.Outcome State Fault Refusal :=
  let p := (getCluster s cl).press
  .next (if p.holder.isNone then s
    else settlePress (modPress s cl fun p => { p with expired := true, timedOut := true }) cl)

end Sys2Proof.Machine
end

