-- ==== Sys2Proof/Machine/Fence.lean ====
section
/-!
DEFINITION. Fences and barriers (R286 to R288).
-/

namespace Sys2Proof.Machine

open Sys2Proof

/-- `FENCE` at a scope: the sequencer's earlier stores are performed, then the fence has the effect of its order (R286, R287). -/
def fenceBody (c : Ctx) (ord scope : Nat) : M Unit := do
  upd fun s => performAll s c.uid c.q
  upd fun s => fenceOrder s (seqAgent (getUnit s c.uid) c.uid c.q) ord scope

/-- `FENCE` (R287). -/
def execFence (x : BitVec 4) (o : BitVec 3) (t : BitVec 2) (s : State) : Host.Outcome State Fault Refusal :=
  issue (.fence x o t) t false (fun c => fenceBody c o.toNat x.toNat) s

/-- The engine of a bit of `FENCEE`'s mask (R287). -/
def engOfBit : Nat → Eng
  | 0 => .copy
  | 1 => .gather
  | 2 => .coll
  | 3 => .row
  | _ => .press

/-- The engines that a mask names. -/
def maskEngines (m : BitVec 8) : List Eng := ((List.range 5).filter fun k => m.getLsbD k).map engOfBit

/-- A sequencer acquires what its completed commands at an engine released, at `core` (R270, R287). -/
def acquireDone (s : State) (uid : Nat) (q : Seq) (e : Eng) : State :=
  let a := seqAgent (getUnit s uid) uid q
  let s := ((getSeq s uid q).eq e).done.foldl (fun s r => learn s a r.hist) s
  modEq s uid q e fun x => { x with done := [] }

/-- `FENCEE`: waits for the engines' commands, whose accesses then count as the sequencer's, and acts as `FENCE` (R287). -/
def execFencee (x : BitVec 4) (o : BitVec 3) (m : BitVec 8) (t : BitVec 2) (s : State) : Host.Outcome State Fault Refusal :=
  issue (.fencee x o m t) t false (fun c => do
    let s ← get
    if (maskEngines m).any fun e => outstanding s c.uid c.q e then freeze .engines
    else do
      upd fun s => (maskEngines m).foldl (fun s e => acquireDone s c.uid c.q e) s
      fenceBody c o.toNat x.toNat) s

/-- The body of a barrier (R288): the sequencer arrives, with everything before it performed, and freezes until `BARRIER_DEPART` has let it go. -/
def barrierBody (c : Ctx) (cluster : Bool) : M Unit := do
  let sq ← theSeq c
  if sq.fl.departed then updSeq c fun sq => sq.modFl fun f => { f with departed := false }
  else do
    upd fun s => performAll s c.uid c.q
    updSeq c fun sq => sq.modFl fun f =>
      if cluster then { f with arrivedC := true } else { f with arrivedS := true }
    freezeKeep (.barrier cluster)

/-- `SSYNC` (R288). -/
def execSsync (t : BitVec 2) (s : State) : Host.Outcome State Fault Refusal :=
  issue (.ssync t) t false (fun c => barrierBody c false) s

/-- `CBAR` (R288). -/
def execCbar (t : BitVec 2) (s : State) : Host.Outcome State Fault Refusal :=
  issue (.cbar t) t false (fun c => barrierBody c true) s

end Sys2Proof.Machine
end

