-- ==== Sys2Proof/Machine/Fetch.lean ====
section
/-!
DEFINITION. The fetch of a word at a sequencer's pc (R62, R81, R151), the faults that wait for an instruction boundary, and the state that
places one word where the next step fetches it.
-/

namespace Sys2Proof.Machine

open Sys2Proof

/-- What a fetch gives: the word with its places, or what it makes of the state: the sequencer waits for a translation, or takes a trap. -/
inductive Fetched where
  | word (w : IWord) (ps : List Place)
  | stop (k : State → State)

/-- The word at a sequencer's pc (R151): a pc outside the section, or one that is no multiple of 4, raises the illegal-instruction trap with
the address in `TVAL`; a miss waits for a walk (R392), and a request for a spent budget (R401); an unmapped stream is a window-permission fault with its address (R393). -/
def fetch (s : State) (uid : Nat) (q : Seq) : Fetched :=
  let c := getSeq s uid q
  if c.pc.toNat % 4 ≠ 0 ∨ c.streamSize ≤ c.pc.toNat then .stop fun s => takeTrap s uid q 1 c.pc 0 false none
  else
    let va := c.streamBase + c.pc
    match locateN s uid va .fetch 4 with
    | .ok ps => match seqBudget s uid q ps with
      | some (k, t) => .stop fun s => setFrozen s uid q (.budget k t)
      | none => .word (BitVec.ofNat 32 (placesValue s ps)) ps
    | .error _ =>
      match locateErr s uid va .fetch 4 with
      | some (a, .miss) => .stop fun s => setFrozen s uid q (.walk ((getUnit s uid).place.core / 192) a .fetch)
      | some (a, _) => .stop fun s => takeTrap s uid q 4 a 0 false none
      | none => .stop id

/-- A fault that waits for a sequencer's instruction boundary is raised there (R186, R274, R305, R373). -/
def boundaryFault (s : State) (uid : Nat) (q : Seq) (f : PendFault) : State :=
  let s := modSeq s uid q fun c => c.modFl fun fl => { fl with faults := fl.faults.erase f }
  takeTrap s uid q f.cause f.tval (wordAtPc s uid q) f.eng.isSome f.race

/-- The bytes of a word, the lowest at the lowest address (R62). -/
def wordBytes (w : IWord) : List Byte := leBytes 4 w.toNat

/-- Where `placeWord` puts a stream: the first page of node 0 (R398). -/
def placeBase : Nat := 0x10000000000

/-- A unit of no continuation in slot 0 of core 0 whose sequencer q has one word for its stream; the core issues from it, and the die holds the
translation of the page. -/
def placeWord (s : State) (q : Seq) (w : IWord) : State :=
  let sq := (UnitState.init.seq q)
  let u := UnitState.init.setSeq q { sq with streamBase := 0x10000, streamSize := 4 }
  let u := { u with place := { u.place with resident := true } }
  let s := setUnit s 0 u
  let s := { s with nextUid := Nat.max s.nextUid 1, mem := memPutBytes s.mem placeBase (wordBytes w) }
  let s := modCore s 0 fun c => { c with slots := c.slots.setIfInBounds 0 (some 0), issuing := some 0 }
  let s := modDie s 0 fun d => { d with tlb :=
    { cont := 0, gen := 0, base := 0x10000, pbase := placeBase, log2 := 12, read := true, write := true, leaf := 12,
      gbase := placeBase, gleaf := 12 } :: d.tlb }
  { s with agenda := [.issue 0 q] }

/-- The state with a word placed where the next step fetches and runs it: a word of the custom-0 space at hart 0, any other word in a resident unit at
the first sequencer that accepts it; the module is out of reset (log 3). -/
def placeFetchWord (s : State) (nbits w : Nat) : State :=
  let v := BitVec.ofNat 32 (w % 2 ^ Nat.min nbits 32)
  let s := { s with boot := { s.boot with stage := .running } }
  match decodeHostForm v with
  | some _ => { s with agenda := [.hostWord 0 v] }
  | none =>
    match decodeAny v with
    | some (q, _) => placeWord s q v
    | none => placeWord s .c v

end Sys2Proof.Machine
end

