-- ==== Sys2Proof/Machine/Walk.lean ====
section
/-!
DEFINITION. The translation caches (R389, R391), and the memory of a continuation as its scheduler reaches it (R363, R368).
-/

namespace Sys2Proof.Machine

open Sys2Proof

/-! ## Cached translations (R389) -/

/-- The cached translation that a walk of a continuation leaves on a die. -/
def cacheEntry (cont gen va : Nat) (m : Mapped) : TlbEntry :=
  { cont := cont, gen := gen, base := va / 2 ^ m.log2 * 2 ^ m.log2, pbase := m.base, log2 := m.log2, read := m.read, write := m.write,
    leaf := m.leaf, gbase := m.gbase, gleaf := m.gleaf }

/-- A cached translation kept on a die, in place of another of the same page. -/
def cacheOn (s : State) (die : Nat) (e : TlbEntry) : State :=
  modDie s die fun d => { d with tlb := e :: d.tlb.filter fun x => !(x.cont == e.cont && x.gen == e.gen && x.base == e.base && x.log2 == e.log2) }

/-! ## The memory of a continuation, as its scheduler and its hart reach it -/

/-- The home die of a continuation (R358). -/
def homeDie (cont : Nat) : Nat := cont % 4

/-- The physical address of a global virtual address for a continuation on a die; an address outside the global space is unmapped. -/
def contPa (s : State) (die cont : Nat) (va : Word) (kind : AccKind) : Except AccErr Nat :=
  if va.toNat / 2 ^ 56 ≠ 0 then .error .unmapped
  else
    match tlbFind s die cont (getCont s cont).gen.toNat va.toNat kind with
    | some e => .ok (e.pbase + (va.toNat - e.base))
    | none => .error .miss

/-- The physical addresses of n bytes for a continuation on a die; the error carries the first address that fails. -/
def contPas (s : State) (die cont : Nat) (va : Word) (kind : AccKind) : Nat → Except (Word × AccErr) (List Nat)
  | 0 => .ok []
  | n + 1 =>
    match contPa s die cont va kind with
    | .error e => .error (va, e)
    | .ok p =>
      match contPas s die cont (va + 1) kind n with
      | .error e => .error e
      | .ok ps => .ok (p :: ps)

/-- What a scheduler's access comes to: a value, a wait for a translation, or an unmapped address (R363, R368). -/
inductive Reach (α : Type) where
  | ok (v : α)
  | wait (s : State)
  | unmapped (va : Word)

/-- The walk that a node of a phase asks for. -/
def nodeWalk (s : State) (k : NodeKey) (block : Bool) (va : Word) (kind : AccKind) : State :=
  askWalk s (homeDie k.cont) { cont := k.cont, gen := (getCont s k.cont).gen.toNat, va := va, kind := kind, waiter := .node k block,
                               agent := schedAgent (homeDie k.cont) k, core := 0xFFFF }

/-- The places of n bytes for a node of a phase; `block` tells a read of a defaults block. -/
def nodeReach (s : State) (k : NodeKey) (block : Bool) (va : Word) (kind : AccKind) (n : Nat) : Reach (List Place) :=
  match contPas s (homeDie k.cont) k.cont va kind n with
  | .ok ps => .ok (ps.map Place.mem)
  | .error (a, .miss) => .wait (nodeWalk s k block a kind)
  | .error (a, _) => .unmapped a

/-- The places of n bytes for a node of a phase, where a spent budget makes it wait (R401); a WAIT node that waits is to be evaluated again. -/
def nodeServed (s : State) (k : NodeKey) (block : Bool) (va : Word) (kind : AccKind) (n : Nat) : Reach (List Place) :=
  match nodeReach s k block va kind n with
  | .ok ps => match askBudget s (.node k) false ps with
    | some t => .wait (modNode t k fun r => { r with due := true })
    | none => .ok ps
  | r => r

/-- The places of n bytes that a node of a phase accesses. -/
def nodePlaces (s : State) (k : NodeKey) (va : Word) (kind : AccKind) (n : Nat) : Reach (List Place) := nodeServed s k false va kind n

/-- n bytes read for a node of a phase, without marks: images, graphs and defaults blocks are not program accesses. -/
def nodeRead (s : State) (k : NodeKey) (block : Bool) (va : Word) (n : Nat) : Reach (List Byte) :=
  match nodeServed s k block va .read n with
  | .ok ps => .ok (ps.map (placeGet s))
  | .wait t => .wait t
  | .unmapped a => .unmapped a

/-- What the scheduler has read for a node, charged to the controllers (R400): each part one request, whose energy is the continuation's (R409). -/
def chargeNode (s : State) (k : NodeKey) (parts : List (Word × Nat)) : State :=
  parts.foldl (fun s x => match nodeReach s k false x.1 .read x.2 with
    | .ok ps => chargePlaces s (.cont k.cont (192 * homeDie k.cont)) ps
    | _ => s) (leaveQueue s (.node k))

/-- n bytes of an image or a graph read for a node of a phase. -/
def nodeBytes (s : State) (k : NodeKey) (va : Word) (n : Nat) : Reach (List Byte) := nodeRead s k false va n

/-- A scheduler's access followed by another. -/
def Reach.andThen {α β : Type} (r : Reach α) (f : α → Reach β) : Reach β :=
  match r with
  | .ok v => f v
  | .wait s => .wait s
  | .unmapped a => .unmapped a

end Sys2Proof.Machine
end

