-- ==== Sys2Proof/Machine/Jobs.lean ====
section
/-!
DEFINITION. Jobs, graphs, phases and nodes (R21, R22, R57 to R59, R327, R358 to R371): descriptors and patch lists, the checks of images and graphs, the
start and the end of phases, and the nodes of each kind.
-/

namespace Sys2Proof.Machine

open Sys2Proof

/-! ## Little-endian fields -/

/-- The n-byte field at an offset. -/
def field (bs : List Byte) (off n : Nat) : Nat := leValue ((bs.drop off).take n)

/-- Whether n bytes from an offset are zero. -/
def zeros (bs : List Byte) (off n : Nat) : Bool := ((bs.drop off).take n).all fun b => b == 0

/-! ## Images (R57, R58) -/

/-- A section of an image: kind, file offset, size, placement. -/
structure Section where
  kind  : Nat
  off   : Nat
  size  : Nat
  place : Nat
  deriving DecidableEq, Repr

/-- The header and the section table of an image. -/
structure Image where
  va       : Word
  flags    : Nat
  entry    : List Nat
  trap     : List Nat
  params   : Nat
  spad     : Nat
  cores    : Nat
  cls      : Nat
  sections : List Section
  deriving DecidableEq, Repr

/-- The first section of a kind. DESIGN CHOICE (log 90): where an image has several of one of the kinds 7 to 10, the first in the table is used and the others are ignored. -/
def Image.find (i : Image) (kind : Nat) : Option Section := i.sections.find? fun x => x.kind == kind

/-- Whether no two of the sections share a byte of the file. DESIGN CHOICE (log 70): R58 does not say what sections that overlap are; here they are two
sections of the table, neither empty, whose ranges of the file overlap, so neither an overlap with the header or the table nor one of two scratchpad
placements is one. -/
def disjointSections : List Section → Bool
  | [] => true
  | x :: r => (r.all fun y => x.size == 0 || y.size == 0 || !(x.off < y.off + y.size && y.off < x.off + x.size)) && disjointSections r

/-- Whether the stream of a sequencer is sound: exactly one section, not empty, the entry and the trap offset in it (R58). DESIGN CHOICE (log 68): a
section above the 2^24 words of R57 is accepted, since R58 rejects none for its length. -/
def streamSound (i : Image) (k : Nat) : Bool :=
  (i.sections.filter fun x => x.kind == k).length == 1 &&
    match i.find k with
    | none => false
    | some x =>
      let e := i.entry[k]?.getD 0
      let t := i.trap[k]?.getD 0
      x.size != 0 && e % 4 == 0 && e < x.size && (t == 0xFFFFFFFF || t % 4 == 0 && t < x.size)

/-- The third check of R58. -/
def imageSound (i : Image) : Bool :=
  (i.sections.all fun x => x.kind ≤ 11 && (x.kind != 4 || x.place + x.size ≤ i.spad)) && disjointSections i.sections &&
    [0, 1, 2, 3].all (streamSound i)

/-- The sections of a table of n entries. -/
def readSections (bs : List Byte) : Nat → List Section
  | 0 => []
  | n + 1 => { kind := field bs 0 4, off := field bs 4 4, size := field bs 8 4, place := field bs 12 4 } :: readSections (bs.drop 16) n

/-- What the check of an image gives: the image, or the status it ends a job with (R58): 9 bad-image, 10 bad-abi. -/
inductive Checked (α : Type) where
  | good (v : α)
  | bad (status : Nat)

/-- The image at an address, checked in the order of R58; an unmapped address names no image (R360). DESIGN CHOICE (log 69): a parameter size that is no
multiple of 8, which R57 rules out and R58 does not name, is rejected as bad-image. DESIGN CHOICE (log 89): set bits in the header's flags [31:1], in bytes 0x3B to 0x3F or in the
placement of a section not of kind 4, which R57 says are 0 and R58 does not reject, are ignored. -/
def readImage (s : State) (k : NodeKey) (va : Word) : Reach (Checked Image) :=
  match nodeBytes s k va 64 with
  | .wait t => .wait t
  | .unmapped _ => .ok (.bad 9)
  | .ok h =>
    if field h 0 4 ≠ 0x4D495A55 then .ok (.bad 9)
    else if field h 4 2 ≠ 1 ∨ 0 < field h 6 2 then .ok (.bad 10)
    else
      let n := field h 12 4
      if 64 < n ∨ 8192 < field h 0x30 4 ∨ field h 0x30 4 % 8 ≠ 0 ∨ 0x180000 < field h 0x34 4 then .ok (.bad 9)
      else
        match nodeBytes s k (va + 64) (16 * n) with
        | .wait t => .wait t
        | .unmapped _ => .ok (.bad 9)
        | .ok t =>
          let four (off : Nat) := [0, 1, 2, 3].map fun i => field h (off + 4 * i) 4
          let i : Image := { va := va, flags := field h 8 4, entry := four 0x10, trap := four 0x20, params := field h 0x30 4,
                             spad := field h 0x34 4, cores := field h 0x38 2, cls := field h 0x3A 1, sections := readSections t n }
          .ok (if imageSound i then .good i else .bad 9)

/-! ## Graph records (R362, R363) -/

/-- A node record as stored. -/
def readNode (bs : List Byte) : NodeRec :=
  { kind := field bs 0 1, hold := (field bs 1 1).testBit 0, press := (field bs 1 1).testBit 1, preds := field bs 4 2,
    f08 := BitVec.ofNat 64 (field bs 8 8), f10 := BitVec.ofNat 64 (field bs 16 8), f18 := BitVec.ofNat 64 (field bs 24 8),
    f20 := BitVec.ofNat 64 (field bs 32 8) }

/-- Whether the record of node i holds only legal values in its fields, aligned counter addresses, and 0 in the reserved ones (R362, R363). -/
def nodeSound (bs : List Byte) (i : Nat) : Bool :=
  let k := field bs 0 1
  let fl := field bs 1 1
  k ≤ 4 && field bs 2 2 == i && zeros bs 6 2 && zeros bs 0x28 24 && (if k = 0 then fl ≤ 3 else fl ≤ 1) &&
    match k with
    | 0 => zeros bs 0x13 5 && zeros bs 0x20 8 && (field bs 0x12 1 ≤ 3 || field bs 0x12 1 == 0xFF)
    | 1 => 1 ≤ field bs 0x0A 2 && field bs 0x0A 2 ≤ 8 && zeros bs 0x0C 28
    | 2 => field bs 8 8 % 8 == 0 && zeros bs 0x18 16
    | 3 => field bs 0x20 8 % 8 == 0
    | _ => zeros bs 8 32

/-- Whether the edges form no cycle: nodes without an unmet predecessor are taken away until none is left. -/
def acyclic (edges : List (Nat × Nat)) : Nat → List Nat → Bool
  | 0, left => left.isEmpty
  | n + 1, left =>
    let free := left.filter fun i => !(edges.any fun e => e.2 == i && left.contains e.1)
    if free.isEmpty then left.isEmpty else acyclic edges n (left.filter fun i => !(free.contains i))

/-- Whether a counter address of a wait entry and its target are legal. -/
def waitSound (w : Word × Word) : Bool := w.1.toNat % 8 == 0 && !(w.2.getLsbD 63)

/-- Whether a graph passes the checks of an upload (R362). -/
def graphSound (g : GraphRec) : Bool :=
  let n := g.nodes.length
  (g.nodes.filter fun x => x.kind == 4).length == 1 &&
    (g.edges.all fun e => e.1 < n && e.2 < n && (match g.nodes[e.1]? with | some x => x.kind != 4 | none => false)) &&
    acyclic g.edges (n + 1) (List.range n) &&
    (g.nodes.zipIdx.all fun x => x.1.preds == (g.edges.filter fun e => e.2 == x.2).length &&
      (x.1.kind != 1 || bits x.1.f08.toNat 0 16 + bits x.1.f08.toNat 16 16 ≤ g.waits.length)) &&
    g.waits.all waitSound

/-- The n node records of a list of bytes, each 64 bytes; none when one is not sound. -/
def readNodes (bs : List Byte) (i : Nat) : Nat → Option (List NodeRec)
  | 0 => some []
  | n + 1 =>
    if nodeSound (bs.take 64) i then (readNodes (bs.drop 64) (i + 1) n).map fun r => readNode (bs.take 64) :: r else none

/-- The bytes of a graph record (R358, R362), from its three counts. -/
def graphBytes (nnode nedge nwait : Nat) : Nat := 32 + 64 * nnode + 4 * nedge + 16 * nwait

/-- The bytes that a stored graph occupies (R358). -/
def graphRoom (g : GraphRec) : Nat := (graphBytes g.nodes.length g.edges.length g.waits.length + 255) / 256 * 256

/-- A graph record, checked (R362). -/
def parseGraph (image : Word) (bs : List Byte) : Option GraphRec :=
  let n := field bs 0 2
  let e := field bs 2 2
  let w := field bs 4 2
  if n < 2 ∨ 4096 < n ∨ 16384 < e ∨ 32768 < w ∨ !(zeros bs 6 26) then none
  else
    (readNodes (bs.drop 32) 0 n).bind fun nodes =>
      let eb := bs.drop (32 + 64 * n)
      let wb := eb.drop (4 * e)
      let g : GraphRec :=
        { image := image, nodes := nodes
          edges := (List.range e).map fun i => (field eb (4 * i) 2, field eb (4 * i + 2) 2)
          waits := (List.range w).map fun i => (BitVec.ofNat 64 (field wb (16 * i) 8), BitVec.ofNat 64 (field wb (16 * i + 8) 8)) }
      if graphSound g then some g else none

/-- The graph of an index in an image's graph section of a size, from an address (R359, R362). -/
def readGraph (s : State) (k : NodeKey) (image va : Word) (size : Nat) : Nat → Reach (Checked GraphRec)
  | 0 =>
    if size < 32 then .ok (.bad 9)
    else
      match nodeBytes s k va 8 with
      | .wait t => .wait t
      | .unmapped _ => .ok (.bad 9)
      | .ok h =>
        let n := graphBytes (field h 0 2) (field h 2 2) (field h 4 2)
        if size < n then .ok (.bad 9)
        else
          match nodeBytes s k va n with
          | .wait t => .wait t
          | .unmapped _ => .ok (.bad 9)
          | .ok bs => .ok (match parseGraph image bs with | some g => .good g | none => .bad 9)
  | i + 1 =>
    if size < 32 then .ok (.bad 9)
    else
      match nodeBytes s k va 8 with
      | .wait t => .wait t
      | .unmapped _ => .ok (.bad 9)
      | .ok h =>
        let n := graphBytes (field h 0 2) (field h 2 2) (field h 4 2)
        readGraph s k image (va + BitVec.ofNat 64 n) (size - n) i

/-! ## Descriptors and patch lists (R359, R360, R364) -/

/-- A job descriptor. -/
structure Desc where
  op     : Nat
  cls    : Nat
  nphase : Nat
  graph  : Nat
  image  : Word
  gindex : Nat
  period : Nat
  deriving DecidableEq, Repr

/-- The descriptor in 64 bytes. -/
def readDesc (bs : List Byte) : Desc :=
  { op := field bs 0 1, cls := field bs 1 1, nphase := field bs 2 2, graph := field bs 4 4, image := BitVec.ofNat 64 (field bs 8 8),
    gindex := field bs 0x10 4, period := field bs 0x18 8 }

/-- The n patch entries of a list of bytes; the flag tells a reserved bit of 1. -/
def readPatches (bs : List Byte) : Nat → List Patch × Bool
  | 0 => ([], false)
  | n + 1 =>
    let (r, bad) := readPatches (bs.drop 16) n
    ({ phase := field bs 0 2, node := field bs 2 2, slot := field bs 4 2, val := BitVec.ofNat 64 (field bs 8 8) } :: r,
      bad || field bs 6 2 != 0)

/-- Whether a patch names a slot that its node has and gives it a value it may take (R360, R364); `params` is the parameter block's size of a LAUNCH
node's image. -/
def slotLegal (n : NodeRec) (params : Nat) (p : Patch) : Bool :=
  match n.kind with
  | 0 => p.slot < params / 8
  | 1 => p.slot < 2 * bits n.f08.toNat 16 16 && (if p.slot % 2 = 1 then !(p.val.getLsbD 63) else p.val.toNat % 8 == 0)
  | 2 => p.slot ≤ 1 && (p.slot == 1 || p.val.toNat % 8 == 0)
  | 3 => p.slot ≤ 3 && (p.slot != 3 || p.val.toNat % 8 == 0)
  | _ => false

/-- The image that a LAUNCH node names: its own, or the one that carries the graph (R363). -/
def nodeImage (g : GraphRec) (n : NodeRec) : Word := if n.f08 = 0 then g.image else n.f08

/-- A patch applied to a graph's records (R364); a LAUNCH node's is applied to its parameter block. -/
def applyPatch (g : GraphRec) (p : Patch) : GraphRec :=
  match g.nodes[p.node]? with
  | none => g
  | some n =>
    match n.kind with
    | 1 =>
      let e := bits n.f08.toNat 0 16 + p.slot / 2
      { g with waits := g.waits.zipIdx.map fun x => if x.2 = e then (if p.slot % 2 = 0 then (p.val, x.1.2) else (x.1.1, p.val)) else x.1 }
    | 2 => { g with nodes := g.nodes.set p.node (if p.slot = 0 then { n with f08 := p.val } else { n with f10 := p.val }) }
    | 3 => { g with nodes := g.nodes.set p.node (match p.slot with
        | 0 => { n with f08 := p.val }
        | 1 => { n with f10 := p.val }
        | 2 => { n with f18 := p.val }
        | _ => { n with f20 := p.val }) }
    | _ => g

/-- The bytes of a die's part of the scheduler backing area (R358). -/
def backingPart (s : State) : Nat := s.sched.backSize / 4

/-- The bytes that a die's part holds. -/
def usedOn (s : State) (die : Nat) : Nat := s.sched.used[die]?.getD 0

/-- The bytes that a die's part holds changed. -/
def setUsed (s : State) (die n : Nat) : State := { s with sched := { s.sched with used := s.sched.used.setIfInBounds die n } }

/-- The jobs of a continuation that are queued or running. -/
def openJobs (c : ContState) : List Job := c.jobs.filter fun j => !(statusFinal j.status)

/-- Whether the reserved fields and the codes of a descriptor are legal (R360). -/
def descLegal (s : State) (cont : Nat) (bs : List Byte) : Bool :=
  let d := readDesc bs
  let c := getCont s cont
  zeros bs 0x14 4 && zeros bs 0x20 32 && d.op ≤ 2 && (d.cls ≤ 3 || d.cls == 0xFF) && d.nphase != 0 &&
    match d.op with
    | 0 => (tabGet c.graphs d.graph).isSome
    | 1 => d.graph ≤ 255 && !(c.jobs.any fun j => j.op != 2 && j.graph == d.graph && j.phase.isSome)
    | _ => true

/-- Whether a patch list is legal against what is known when a job is accepted (R360): `params` gives the parameter size of a LAUNCH node's
image. -/
def patchesLegal (s : State) (cont : Nat) (d : Desc) (ps : List Patch) (params : GraphRec → NodeRec → Nat) : Bool :=
  ps.all fun p => p.phase < d.nphase &&
    if d.op = 0 then
      match tabGet (getCont s cont).graphs d.graph with
      | none => false
      | some g => match g.nodes[p.node]? with
        | some n => slotLegal n (params g n) p
        | none => false
    else true

/-- The scheduler state of a continuation (R358): its record, its graphs, and the state of its open jobs. -/
def stateBytes (c : ContState) : Nat :=
  256 + (c.graphs.map fun g => graphRoom g.2).foldl (· + ·) 0 + 4096 * (openJobs c).length

/-- Whether a continuation has a class-0 job that has not ended. -/
def hasClass0 (c : ContState) : Bool := (openJobs c).any fun j => clampClass c j.cls == 0

/-- The pinned state of a die when one continuation takes a further class-0 job (R358): that of the continuations with a class-0 job that has not ended,
and all of that one's. -/
def pinnedWith (s : State) (die cont : Nat) : Nat :=
  ((s.conts.filter fun x => homeDie x.1 == die && x.1 != cont && hasClass0 x.2).map fun x => stateBytes x.2).foldl (· + ·) 0 +
    stateBytes (getCont s cont) + 4096

/-- Whether a job of a class can be accepted: fewer than 64 are open, its state fits, and class-0 state stays within 6 MiB (R326, R358). -/
def roomForJob (s : State) (cont cls : Nat) : Bool :=
  let die := homeDie cont
  (openJobs (getCont s cont)).length < 64 && usedOn s die + 4096 ≤ backingPart s &&
    (cls != 0 || pinnedWith s die cont ≤ 6 * 1048576)

/-- The next job identifier: 1 to 2^32 − 1 (R320). -/
def nextJobId (n : Nat) : Nat := if n = 0xFFFFFFFF then 1 else n + 1

/-- A job accepted: it is queued (R330, R371), with its class as the descriptor gives it, for the class of a launch is found when the launch is ready
(R366); `rel` is what its start releases to its first units. -/
def acceptJob (s : State) (cont : Nat) (d : Desc) (ps : List Patch) (hart : Option Nat) (rel : Release) : Nat × State :=
  let c := getCont s cont
  let id := c.nextJob
  let j : Job := { id := id, op := d.op, cls := d.cls, nphase := d.nphase, graph := if d.op = 2 then 0 else d.graph,
                   image := d.image, gindex := d.gindex, period := d.period, patches := ps, hart := hart, t0 := s.stamp, next := 0,
                   phase := none, past := [], status := 1, rel := [rel], endRel := [] }
  let s := modCont s cont fun c => { c with jobs := c.jobs ++ [j], nextJob := nextJobId id }
  (id, setUsed s (homeDie cont) (usedOn s (homeDie cont) + 4096))

/-! ## Failing nodes (R368, R447) -/

/-- A node's fault record posted, and the node fails with its phase (R351, R368, R447). -/
def nodeFault (s : State) (k : NodeKey) (cause : Nat) (va : Word) (race : Option Race) : State :=
  let j := findJob s k.cont k.job
  let graph := match j with | some j => (if j.op = 2 then 0 else j.graph) | none => 0
  let r : FaultRecord :=
    { cause := cause, agent := 4, jst := 3, active := false, cont := k.cont, gen := (getCont s k.cont).gen.toNat, job := k.job,
      phase := k.phase, launch := k.node % 65536 + graph % 256 * 65536, core := 0xFFFFFFFF, tepc := 0, tval := va, tvc := 0, word := 0,
      lost := 0, stamp := s.stamp, race := race }
  failNode (postFault s r) k 3

/-! ## Nodes that become ready (R365, R366, R370) -/

/-- The graph record of a node of the running phase. -/
def nodeRec (s : State) (k : NodeKey) : Option NodeRec :=
  (findJob s k.cont k.job).bind fun j => j.phase.bind fun p => if p.index = k.phase then p.graph.nodes[k.node]? else none

/-- Whether a node of a phase is complete. -/
def nodeDone (p : PhaseRun) (i : Nat) : Bool :=
  match p.nodes[i]? with
  | some n => n.status == .complete
  | none => false

/-- The nodes that must complete before node i starts: its predecessors and the held nodes with a smaller id; for END every other
(R365). -/
def nodesBefore (p : PhaseRun) (i : Nat) : List Nat :=
  let n := p.nodes.length
  match p.graph.nodes[i]? with
  | none => []
  | some r =>
    if r.kind = 4 then (List.range n).filter fun k => k != i
    else (List.range n).filter fun k => (p.graph.edges.any fun e => e.1 == k && e.2 == i) ||
      (k < i && match p.graph.nodes[k]? with | some x => x.hold | none => false)

/-- What a node's start acquires (R370). -/
def startHist (p : PhaseRun) (i : Nat) : Hist :=
  ((p.rel ++ (nodesBefore p i).flatMap fun k => match p.nodes[k]? with | some n => n.rel | none => []).map (·.hist)).foldl histJoin []

/-- A continuation enters the ring of a class when a launch of it becomes ready (R375). -/
def enterRing (s : State) (cls cont : Nat) : State :=
  let r := s.sched.rings[cls]?.getD []
  if r.contains cont then s else { s with sched := { s.sched with rings := s.sched.rings.setIfInBounds cls (r ++ [cont]) } }

/-- The class of a launch: its node's, else its job's, else its continuation's default; clamped (R366, R382). -/
def launchClass (s : State) (k : NodeKey) (n : NodeRec) : Nat :=
  let c := getCont s k.cont
  let job := match findJob s k.cont k.job with | some j => j.cls | none => 0xFF
  let own := bits n.f10.toNat 16 8
  clampClass c (if own = 0xFF then job else own)

/-- The cores of a launch. -/
def launchCores (n : NodeRec) : Nat := bits n.f10.toNat 0 16

/-- Whether a launch's size has a placement (R374). -/
def placeable (n : Nat) : Bool := (1 ≤ n && n ≤ 4) || (n % 4 == 0 && n ≤ 768 && n != 0)

/-- The exchange tables in the bytes of a section (R372); none when one is not well-formed. -/
def readTables : Nat → List Byte → Option (List ExTable)
  | 0, _ => some []
  | fuel + 1, bs =>
    if bs.isEmpty then some []
    else
      let n := field bs 4 4
      if bs.length < 16 + 32 * n ∨ 65536 < n ∨ !(zeros bs 8 8) then none
      else
        let xs := (List.range n).map fun i => (bs.drop (16 + 32 * i)).take 32
        let t : ExTable := { len := field bs 0 4, xfers := xs.map fun x =>
          { src := field x 0 2, dst := field x 2 2, foff := field x 4 4, toff := field x 8 4, bytes := field x 12 4, at0 := field x 16 4 } }
        if xs.all fun x => zeros x 20 12 && field x 4 4 % 4 == 0 && field x 8 4 % 4 == 0 && field x 12 4 % 4 == 0 && 4 ≤ field x 12 4 &&
            field x 12 4 ≤ 1572864 then
          (readTables fuel (bs.drop (16 + 32 * n))).map fun r => t :: r
        else none

/-- A section's bytes; nothing for an image without one of that kind. -/
def sectionBytes (s : State) (k : NodeKey) (i : Image) (kind : Nat) : Reach (List Byte) :=
  match i.find kind with
  | none => .ok []
  | some x => nodeBytes s k (i.va + BitVec.ofNat 64 x.off) x.size

/-- The swizzle code of a scratchpad block: 0 unless the block is aligned to 4 KiB and padded to a multiple of it, as one with a code is (R49); else what the
loader has recorded, where the format of R57 does not show (log 21). -/
def blockCode (x : Section) (n : Nat) (bs : List Byte) : Nat :=
  if x.place % 4096 = 0 ∧ x.size % 4096 = 0 then Config.blockSwizzle bs n % 7 else 0

/-- The scratchpad data of an image: placement, swizzle code and bytes of each section. DESIGN CHOICE (log 21): each kind-4 section is one block, with one code
for all its 4 KiB regions, and a later section overrides the tag of a region that it shares. -/
def spadData (s : State) (k : NodeKey) (i : Image) : List (Section × Nat) → Reach (List (Nat × Nat × List Byte))
  | [] => .ok []
  | (x, n) :: r =>
    (nodeBytes s k (i.va + BitVec.ofNat 64 x.off) x.size).andThen fun bs =>
      (spadData s k i r).andThen fun rest => .ok ((x.place, blockCode x n bs, bs) :: rest)

/-- A 64-bit slot of a parameter block replaced. -/
def putSlot (bs : List Byte) (slot : Nat) (v : Word) : List Byte :=
  bs.take (8 * slot) ++ leBytes 8 v.toNat ++ bs.drop (8 * slot + 8)

/-- A parameter block of a size (R59, R363): the defaults, from the node's defaults block or from the image's own; the loader's data addresses, which
stand in the address slots at the end of the image's own; then the phase's patches for the node. -/
def paramBlock (size slots : Nat) (own defaults : List Byte) (patches : List Patch) : List Byte :=
  let pad (bs : List Byte) := bs.take size ++ List.replicate (size - bs.length) 0
  let base := pad defaults
  let cut := size - 8 * slots
  patches.foldl (fun bs p => putSlot bs p.slot p.val) (base.take cut ++ (pad own).drop cut)

/-- The patches of a job for a node of its running phase. -/
def patchesOf (s : State) (k : NodeKey) : List Patch :=
  match findJob s k.cont k.job with
  | some j => j.patches.filter fun p => p.phase == k.phase && p.node == k.node
  | none => []

/-- An unmapped page of an image makes it no image (R363). -/
def Reach.orBad {α : Type} (r : Reach (Checked α)) : Reach (Checked α) :=
  match r with
  | .unmapped _ => .ok (.bad 9)
  | r => r

/-- The bytes of an image's file that its measurement covers, for a continuation of a partition (R438): up to the end of its last section. -/
def measuredFile (s : State) (k : NodeKey) (i : Image) : Reach (List Byte) :=
  if (getCont s k.cont).partition.isNone then .ok []
  else nodeBytes s k i.va (i.sections.foldl (fun n x => Nat.max n (x.off + x.size)) (64 + 16 * i.sections.length))

/-- What a LAUNCH node needs of its image (R363), with the parameter block and the count of its address slots still to be made, and the block's size. -/
def readParts (s : State) (k : NodeKey) (n : NodeRec) (image : Word) : Reach (Checked (LaunchInfo × Nat × Nat)) :=
  ((readImage s k image).andThen fun c =>
    match c with
    | .bad st => .ok (.bad st)
    | .good i =>
      (sectionBytes s k i 7).andThen fun own =>
      (sectionBytes s k i 8).andThen fun tb =>
      (sectionBytes s k i 10).andThen fun rl =>
      (spadData s k i ((i.sections.filter fun x => x.kind == 4).zipIdx)).andThen fun data =>
      (measuredFile s k i).andThen fun file =>
        match readTables (tb.length + 1) tb with
        | none => .ok (.bad 9)
        | some tables =>
          if !(placeable (launchCores n)) then .ok (.bad 9)
          else
            .ok (.good ({ image := image
                          streams := [0, 1, 2, 3].map fun q => match i.find q with | some x => (x.off, x.size) | none => (0, 0)
                          entry := i.entry, trap := i.trap, spad := i.spad, data := data, tables := tables, block := own, file := file },
                        Config.addressSlots rl, i.params))).orBad

/-- What a LAUNCH node needs, read when it becomes ready (R363): a status for an image that fails, an unmapped defaults block, or the launch's
information. -/
def readLaunch (s : State) (k : NodeKey) (n : NodeRec) (image : Word) : Reach (Checked LaunchInfo) :=
  (readParts s k n image).andThen fun c =>
    match c with
    | .bad st => .ok (.bad st)
    | .good (l, slots, size) =>
      (if n.f18 = 0 then .ok l.block else nodeRead s k true n.f18 size).andThen fun defs =>
        .ok (.good { l with block := paramBlock size slots l.block defs (patchesOf s k) })

/-- The parts of an image that the scheduler reads: its header, its section table and some sections. -/
def imageParts (i : Image) (xs : List Section) : List (Word × Nat) :=
  (i.va, 64) :: (i.va + 64, 16 * i.sections.length) :: xs.map fun x => (i.va + BitVec.ofNat 64 x.off, x.size)

/-- What the scheduler reads for a LAUNCH node, part by part (R363). -/
def launchParts (s : State) (k : NodeKey) (n : NodeRec) (image : Word) : List (Word × Nat) :=
  match readImage s k image with
  | .ok (.good i) => imageParts i ([7, 8, 10].filterMap i.find ++ i.sections.filter fun x => x.kind == 4) ++ if n.f18 = 0 then [] else [(n.f18, i.params)]
  | _ => []

/-- A ready LAUNCH node's image and defaults block are read (R363): it waits for a page, or fails. -/
def prepareLaunch (s : State) (k : NodeKey) : State :=
  match findJob s k.cont k.job, nodeRec s k, findNode s k with
  | some j, some n, some r =>
    if r.status != .ready || r.launch.isSome || n.kind != 0 then s
    else
      let image := match j.phase with | some p => nodeImage p.graph n | none => 0
      match readLaunch s k n image with
      | .wait t => t
      | .unmapped va => nodeFault s k 4 va none
      | .ok (.bad st) => failNode s k st
      | .ok (.good l) => modNode (chargeNode s k (launchParts s k n image)) k fun r => { r with launch := some l }
  | _, _, _ => s

/-- A node whose translation stands now goes on: a LAUNCH node reads on, and a WAIT node is to be evaluated (R363, R367). -/
def goOn (s : State) (k : NodeKey) : State :=
  match nodeRec s k, findNode s k with
  | some n, some r => if n.kind = 1 ∧ r.status = .running then modNode s k fun r => { r with due := true } else prepareLaunch s k
  | _, _ => s

/-- A node that has become ready starts (R365): a launch asks for its gang, a WAIT node is to be evaluated, the others act when their events come; the scheduler acquires what stood
before the node (R370). -/
def readyNode (s : State) (k : NodeKey) (p : PhaseRun) (n : NodeRec) : State :=
  let s := modNode s k fun r => { r with status := if n.kind = 0 then .ready else .running, readyAt := s.stamp, idleAt := s.stamp, due := n.kind == 1 }
  if n.kind = 0 then prepareLaunch (enterRing s (launchClass s k n) k.cont) k
  else learn s (schedAgent (homeDie k.cont) k) (startHist p k.node)

/-- The nodes of a phase that may start now start, in id order (R365). -/
def advanceFrom (cont job : Nat) : List Nat → State → State
  | [], s => s
  | i :: r, s =>
    match (findJob s cont job).bind (·.phase) with
    | none => s
    | some p =>
      let k : NodeKey := { cont := cont, job := job, phase := p.index, node := i }
      match p.graph.nodes[i]?, p.nodes[i]? with
      | some n, some x =>
        if x.status == .waiting && (nodesBefore p i).all (nodeDone p) then advanceFrom cont job r (readyNode s k p n)
        else advanceFrom cont job r s
      | _, _ => s

/-- Every node of a job's running phase looked at once. -/
def advance (s : State) (cont job : Nat) : State :=
  match (findJob s cont job).bind (·.phase) with
  | none => s
  | some p => advanceFrom cont job (List.range p.nodes.length) s

/-! ## Phases (R361, R371) -/

/-- A node that has not started. -/
def NodeRun.init : NodeRun :=
  { status := .waiting, done := 0, readyAt := 0, idleAt := 0, aged := false, units := [], launch := none, rel := [], due := false }

/-- The next phase of a job starts from a graph, with its patches applied (R59, R360, R371). -/
def startPhase (s : State) (cont : Nat) (j : Job) (g : GraphRec) : State :=
  let g := (j.patches.filter fun p => p.phase == j.next).foldl applyPatch g
  let p : PhaseRun := { index := j.next, graph := g, nodes := g.nodes.map fun _ => NodeRun.init, status := 2
                        rel := if j.next = 0 then j.rel else (j.past.map (·.rel)).flatten ++
                          (match j.past.getLast? with | some q => q.nodes.flatMap (·.rel) | none => []) }
  advance (modJob s cont j.id fun j => { j with phase := some p, next := j.next + 1, status := 2 }) cont j.id

/-- The default graph of an image (R359): one LAUNCH node and END. -/
def defaultGraph (i : Image) (press : Bool) : GraphRec :=
  { image := i.va, edges := [(0, 1)], waits := []
    nodes := [{ kind := 0, hold := false, press := press, preds := 0, f08 := 0, f10 := BitVec.ofNat 64 (i.cores + i.cls * 65536), f18 := 0, f20 := 0 },
              { kind := 4, hold := false, press := false, preds := 1, f08 := 0, f10 := 0, f18 := 0, f20 := 0 }] }

/-- Whether a stream's bytes hold a PRS word (R363). -/
def hasPress : List Byte → Bool
  | _ :: _ :: _ :: b :: r => (b >>> 3) == 0x15 || hasPress r
  | _ => false

/-- The graph that a job runs: stored, uploaded, or the default of its image (R359). -/
def jobGraph (s : State) (cont : Nat) (j : Job) : Reach (Checked GraphRec) :=
  let k : NodeKey := { cont := cont, job := j.id, phase := 0, node := 0 }
  match j.op with
  | 0 => .ok (match tabGet (getCont s cont).graphs j.graph with | some g => .good g | none => .bad 9)
  | 1 =>
    (readImage s k j.image).andThen fun c =>
      match c with
      | .bad st => .ok (.bad st)
      | .good i =>
        match i.find 9 with
        | none => .ok (.bad 9)
        | some x => readGraph s k i.va (i.va + BitVec.ofNat 64 x.off) x.size j.gindex
  | _ =>
    (readImage s k j.image).andThen fun c =>
      match c with
      | .bad st => .ok (.bad st)
      | .good i =>
        if !(i.flags.testBit 0) || !(i.cls ≤ 3 || i.cls == 0xFF) then .ok (.bad 9)
        else (sectionBytes s k i 0).andThen fun bs => .ok (.good (defaultGraph i (hasPress bs)))

/-- The parameter size of an image at an address, as far as it can be read now. -/
def paramSizeAt (s : State) (k : NodeKey) (va : Word) : Reach Nat :=
  match nodeBytes s k (va + 0x30) 4 with
  | .ok bs => .ok (leValue bs)
  | .wait t => .wait t
  | .unmapped _ => .ok 0

/-- Whether every patch of an uploaded or default graph is legal, as checked at the job's start (R360). -/
def patchesSound (s : State) (k : NodeKey) (g : GraphRec) : List Patch → Reach Bool
  | [] => .ok true
  | p :: r =>
    match g.nodes[p.node]? with
    | none => .ok false
    | some n =>
      (if n.kind = 0 then paramSizeAt s k (nodeImage g n) else .ok 0).andThen fun size =>
        if slotLegal n size p then patchesSound s k g r else .ok false

/-- An uploaded graph stored under its number, if it fits in the home die's part (R358). -/
def storeGraph (s : State) (cont num : Nat) (g : GraphRec) : Option State :=
  let die := homeDie cont
  let old := match tabGet (getCont s cont).graphs num with | some h => graphRoom h | none => 0
  let used := usedOn s die - old + graphRoom g
  if used ≤ backingPart s then some (setUsed (modCont s cont fun c => { c with graphs := tabPut c.graphs num g }) die used) else none

/-- What the scheduler reads for a job's start, part by part (R359). -/
def jobParts (s : State) (k : NodeKey) (j : Job) : List (Word × Nat) :=
  if j.op = 0 then []
  else match readImage s k j.image with
    | .ok (.good i) => imageParts i (i.find (if j.op = 1 then 9 else 0)).toList
    | _ => []

/-- A queued job starts (R360, R371): its image, its graph and its patches are checked, and phase 0 starts; a failing check ends the job. -/
def startJob (s : State) (cont : Nat) (j : Job) : State :=
  let k : NodeKey := { cont := cont, job := j.id, phase := 0, node := 0 }
  match jobGraph s cont j with
  | .wait t => t
  | .unmapped _ => endJob s cont j.id 9
  | .ok (.bad st) => endJob s cont j.id st
  | .ok (.good g) =>
    match (if j.op = 0 then .ok true else patchesSound s k g j.patches) with
    | .wait t => t
    | .unmapped _ => endJob s cont j.id 9
    | .ok false => endJob s cont j.id 9
    | .ok true =>
      let s := chargeNode s k (jobParts s k j)
      if j.op = 1 then
        match storeGraph s cont j.graph g with
        | none => endJob s cont j.id 9
        | some s => startPhase s cont j g
      else startPhase s cont j g

/-- The graph of a job's later phase. -/
def laterGraph (s : State) (cont : Nat) (j : Job) : Option GraphRec :=
  if j.op = 2 then (j.past.head?).map fun p => p.graph else tabGet (getCont s cont).graphs j.graph

/-- A job goes on if its next phase is due (R371): a queued job starts; with a period, a phase waits for its target. -/
def pokeJob (s : State) (cont job : Nat) : State :=
  match findJob s cont job with
  | none => s
  | some j =>
    if statusFinal j.status || j.phase.isSome then s
    else if j.status = 1 then startJob s cont j
    else if j.nphase ≤ j.next then s
    else if j.period ≠ 0 ∧ s.stamp < j.t0 + j.next * j.period then s
    else match laterGraph s cont j with
      | some g => startPhase s cont j g
      | none => endJob s cont job 9

/-- A phase whose END has completed is complete (R21, R371): the job ends with its last phase, or goes on. -/
def phaseDone (s : State) (cont job : Nat) : State :=
  match findJob s cont job with
  | none => s
  | some j =>
    match j.phase with
    | none => s
    | some p =>
      let s := modJob s cont job fun j => { j with phase := none, past := j.past ++ [{ p with status := 0 }] }
      if j.nphase ≤ j.next then endJob s cont job 0 else pokeJob s cont job

/-- A node completes, with what its completion releases (R365, R370). -/
def completeNode (s : State) (k : NodeKey) (rel : List Release) : State :=
  let last := match nodeRec s k with | some n => n.kind == 4 | none => false
  let s := modNode s k fun n => { n with status := .complete, rel := rel }
  if last then phaseDone s k.cont k.job else advance s k.cont k.job

/-- What a node run by the scheduler releases as it completes. -/
def schedRel (s : State) (k : NodeKey) : List Release := [releaseOf s (schedAgent (homeDie k.cont) k) 5]

/-! ## WAIT, SIGNAL and COPY nodes (R367, R368) -/

/-- An access of the scheduler for a node, which its controller serves: it is checked and leaves its mark (R368, R401). -/
def nodeMark (s : State) (k : NodeKey) (va : Word) (ps : List Place) (write atomic : Bool) : Except Race State :=
  let a := schedAgent (homeDie k.cont) k
  checkMark a (regionOf s a) k.cont k.job (wordVa va ps) write atomic (placeRuns ps) (leaveQueue s (.node k))

/-- A `SIGDEC` by the scheduler, `rel` at `host` (R368); `after` follows it. -/
def nodeSignal (s : State) (k : NodeKey) (va amount : Word) (after : State → State) : State :=
  match nodePlaces s k va .atomic 8 with
  | .wait t => t
  | .unmapped a => nodeFault s k 4 a none
  | .ok ps =>
    match nodeMark s k va ps true true with
    | .error r => nodeFault s k 5 va (some r)
    | .ok s =>
      let a := schedAgent (homeDie k.cont) k
      let o : AtomOp := { fn := 13, ord := 2, scope := 7, w32 := false, b := amount, c := 0 }
      after (bumpRegion (performAtomic s ps o (writeRels s a 2 7)).2 a)

/-- The counters of a WAIT node read as atomic loads, `acq` at `host`; a fault or a wait stops the reading (R367). -/
def readCounters (k : NodeKey) : List (Word × Word) → State → Except State (List (Int × Int) × State)
  | [], s => .ok ([], s)
  | (va, t) :: r, s =>
    match nodePlaces s k va .atomic 8 with
    | .wait u => .error u
    | .unmapped a => .error (nodeFault s k 4 a none)
    | .ok ps =>
      match nodeMark s k va ps false true with
      | .error x => .error (nodeFault s k 5 va (some x))
      | .ok s =>
        let a := schedAgent (homeDie k.cont) k
        let v := signedOf 64 (placesValue s ps)
        let s := bumpRegion (atomicReadOrder s a (wordKeys s ps) 1 7) a
        match readCounters k r s with
        | .error u => .error u
        | .ok (vs, s) => .ok ((v, signedOf 64 t.toNat) :: vs, s)

/-- The wait entries of a node. -/
def waitEntries (p : PhaseRun) (n : NodeRec) : List (Word × Word) :=
  (p.graph.waits.drop (bits n.f08.toNat 0 16)).take (bits n.f08.toNat 16 16)

/-- A WAIT node is evaluated (R367): it fails on a negative counter, completes when every counter is at or below its target, and else keeps
waiting. -/
def evaluateWait (s : State) (k : NodeKey) (p : PhaseRun) (n : NodeRec) : State :=
  match readCounters k (waitEntries p n) s with
  | .error t => t
  | .ok (vs, s) =>
    if vs.any fun v => v.1 < 0 then failNode s k 5
    else if vs.all fun v => v.1 ≤ v.2 then completeNode s k (schedRel s k)
    else s

/-- Why a COPY node stops at a byte: it waits, or it fails at an address, with the race if there is one. -/
inductive CopyStop where
  | wait (s : State)
  | fault (s : State) (cause : Nat) (va : Word) (race : Option Race)

/-- One byte of a COPY node (R368). -/
def copyByteNode (s : State) (k : NodeKey) (n : NodeRec) (i : Nat) : Except CopyStop State :=
  let src := n.f08 + BitVec.ofNat 64 i
  let dst := n.f10 + BitVec.ofNat 64 i
  match nodePlaces s k src .read 1 with
  | .wait t => .error (.wait t)
  | .unmapped a => .error (.fault s 4 a none)
  | .ok ps =>
    match nodePlaces s k dst .write 1 with
    | .wait t => .error (.wait t)
    | .unmapped a => .error (.fault s 4 a none)
    | .ok qs =>
      match nodeMark s k src ps false false with
      | .error x => .error (.fault s 5 src (some x))
      | .ok s =>
        match nodeMark s k dst qs true false with
        | .error x => .error (.fault s 5 dst (some x))
        | .ok s => .ok (performBytes s (qs.zip (ps.map (placeGet s))))

/-- Bytes of a COPY node from one on, in ascending order: the state, how far it has gone, and why it stopped before the last. -/
def copyBytesNode (k : NodeKey) (n : NodeRec) (i : Nat) : Nat → State → State × Nat × Option CopyStop
  | 0, s => (s, i, none)
  | m + 1, s =>
    match copyByteNode s k n i with
    | .error (.wait t) => (t, i, some (.wait t))
    | .error e => (s, i, some e)
    | .ok s => copyBytesNode k n (i + 1) m s

/-- The bytes that a COPY node copies before it may stop for a cancel: to the end of its present 4 KiB (R369). -/
def copyLeg (n : NodeRec) (done : Nat) : Nat := Nat.min (4096 - done % 4096) (n.f18.toNat - done)

/-- A COPY node goes on by the rest of its present 4 KiB; after its last byte it signals its counter when it has one, and completes (R368). -/
def copyNode (s : State) (k : NodeKey) (n : NodeRec) (r : NodeRun) : State :=
  match copyBytesNode k n r.done (copyLeg n r.done) s with
  | (t, i, stop) =>
    let t := modNode t k fun r => { r with done := i }
    match stop with
    | some (.wait _) => t
    | some (.fault _ cause va race) => nodeFault t k cause va race
    | none =>
      if i < n.f18.toNat then t
      else if n.f20 = 0 then completeNode t k (schedRel t k)
      else nodeSignal t k n.f20 1 fun s => completeNode s k (schedRel s k)

/-- A node run of a phase that has ended, changed. -/
def modPast (s : State) (k : NodeKey) (f : NodeRun → NodeRun) : State :=
  modJob s k.cont k.job fun j => { j with past := j.past.map fun p =>
    if p.index = k.phase then { p with nodes := p.nodes.zipIdx.map fun x => if x.2 = k.node then f x.1 else x.1 } else p }

/-- The COPY nodes of cancelled phases that stand within a 4 KiB of theirs (R369). -/
def openCopies (s : State) (cont : Nat) : List NodeKey :=
  (getCont s cont).jobs.flatMap fun j => j.past.flatMap fun p =>
    if p.status ≠ 4 then []
    else (p.nodes.zipIdx.filter fun x => x.1.status == .cancelled && x.1.done % 4096 != 0 && match p.graph.nodes[x.2]? with
      | some n => n.kind == 3 && x.1.done < n.f18.toNat
      | none => false).map fun x => { cont := cont, job := j.id, phase := p.index, node := x.2 }

/-- A COPY node of a cancelled phase goes on to the end of its present 4 KiB, and stops there; one that can go no further stops at once (R369). -/
def endCopy (s : State) (k : NodeKey) : State :=
  match (findJob s k.cont k.job).bind fun j => j.past.find? fun p => p.index == k.phase with
  | none => s
  | some p =>
    match p.graph.nodes[k.node]?, p.nodes[k.node]? with
    | some n, some r =>
      match copyBytesNode k n r.done (copyLeg n r.done) s with
      | (t, i, some (.fault ..)) => modPast t k fun r => { r with done := (i + 4095) / 4096 * 4096 }
      | (t, i, _) => modPast t k fun r => { r with done := i }
    | _, _ => s

end Sys2Proof.Machine
end

