-- ==== Sys2Proof/Machine/Paging.lean ====
section
/-!
DEFINITION. The outstanding-fault tables and the fault rings of the dies (R392 to R397), and what a walk's end means for the agent that asked it.
-/

namespace Sys2Proof.Machine

open Sys2Proof

/-! ## The fault ring (R395, R396) -/

/-- `FQCFG` as its fields keep it: the reserved bits read as 0 (R10). -/
def fqcfgMask (v : Word) : Word := v &&& 0x7F003F

/-- The number of entries of a ring: 64 to 65,536. -/
def FaultRing.size (r : FaultRing) : Nat := 2 ^ Nat.min 16 (Nat.max 6 (bits r.cfg.toNat 0 5))

/-- `FQEN`. -/
def FaultRing.on (r : FaultRing) : Bool := r.cfg.getLsbD 5

/-- The entries that the service has not read. -/
def FaultRing.count (r : FaultRing) : Nat := (r.head + r.size - r.tail % r.size) % r.size

/-- Whether a new entry finds room: `FQHEAD` never reaches `FQTAIL` (log 22). -/
def FaultRing.room (r : FaultRing) : Bool := r.count + 1 < r.size

/-- The bytes of a record's entry (R395). -/
def faultEntry (die : Nat) (r : FaultRec) : List Byte :=
  leBytes 8 (r.va.toNat % 2 ^ 57) ++ leBytes 4 r.cont ++ leBytes 4 r.gen ++ leBytes 2 r.count ++ leBytes 1 r.kind ++ leBytes 1 r.why ++
    leBytes 2 r.agent ++ leBytes 2 r.core ++ leBytes 4 r.seq ++ leBytes 4 die

/-- The physical address of a ring's entry. -/
def ringEntry (r : FaultRing) (i : Nat) : Nat := r.base.toNat + 32 * i

/-- The kind bits of an access and its `why` (R395). -/
def kindBits (k : AccKind) (why : Nat) : Nat :=
  (match k with | .read => 1 | .write => 2 | .atomic => 4 | .fetch => 8) + if why = 2 then 16 else 0

/-- Two kinds ORed. -/
def orKind (a b : Nat) : Nat := (BitVec.ofNat 8 a ||| BitVec.ofNat 8 b).toNat

/-- An entry of the ring written for the record of an index, and the service interrupt raised if the ring was empty (R394). -/
def postEntry (s : State) (die i : Nat) : State :=
  let d := getDie s die
  match d.faults[i]? with
  | none => s
  | some r =>
    let h := d.ring.head
    let s := chargeRuns s (.overhead (192 * die)) [(ringEntry d.ring h, 32)]
    let s := { s with mem := memPutBytes s.mem (ringEntry d.ring h) (faultEntry die r) }
    modDie s die fun d => { d with
      faults := d.faults.set i { r with posted := some h, nth := d.ring.posts }
      ring := { d.ring with head := (h + 1) % d.ring.size, irq := d.ring.irq || d.ring.count == 0, posts := d.ring.posts + 1 } }

/-- Whether the controller of a die's ring serves the write of an entry, which may draw on the reserve (R401). -/
def ringServed (s : State) (die : Nat) : Bool :=
  match controllerOf (ringEntry (getDie s die).ring (getDie s die).ring.head) with | some k => !(overBudget s k true) | none => true

/-- The first record that has no entry yet. -/
def unposted (d : DieState) : Option Nat := d.faults.findIdx? fun r => r.posted.isNone

/-- Whether a record's entry still lies between `FQTAIL` and `FQHEAD`: fewer entries were written from it on than the service has left. -/
def entryInRing (d : DieState) (r : FaultRec) : Bool := r.posted.isSome && d.ring.posts - r.nth ≤ d.ring.count

/-! ## Faults (R394) -/

/-- A running command of a core's engine that waits on a fault record stands aside (R403). -/
def standAside (s : State) (w : Walk) : State :=
  match w.waiter with
  | .eng core e false =>
    let g := (getCore s core).engine e
    match g.run with
    | none => s
    | some r =>
      if r.cmd.uid == w.agent.uid && (match r.hold with | .walk _ va _ => va == w.va | _ => false) then
        modCore s core fun c => c.setEngine e { g with run := none, waiting := g.waiting ++ [r] }
      else s
  | _ => s

/-- The record of a new fault; its core field is 0xFFFF for a scheduler or a collective engine (R395). -/
def newFault (d : DieState) (w : Walk) (why : Nat) : FaultRec :=
  { cont := w.cont, gen := w.gen, va := w.va, count := 1, kind := kindBits w.kind why, why := why, agent := w.agent.kind
    core := if w.agent.kind = 8 ∨ w.agent.kind = 9 then 0xFFFF else w.core, seq := d.ring.seq.toNat, posted := none, nth := 0, waiters := [w] }

/-- A fault that joins the record of its page (R394). -/
def joinFault (r : FaultRec) (w : Walk) (why : Nat) : FaultRec :=
  { r with count := Nat.min (r.count + 1) 65535, kind := orKind r.kind (kindBits w.kind why), waiters := r.waiters ++ [w] }

/-- A walk that found no permitting leaf becomes a fault of its die (R394): it joins the record of its page, whose entry takes the new count and kind while the
service has not read it, or makes one when the table, and the ring if it is enabled, have room and the ring's controller serves the entry; else it waits for that. -/
def onFault (s : State) (die : Nat) (w : Walk) (why : Nat) : State :=
  let d := getDie s die
  match d.faults.findIdx? fun r => r.cont == w.cont && r.va.toNat / 4096 == w.va.toNat / 4096 with
  | some i =>
    match d.faults[i]? with
    | none => s
    | some r =>
      let r' := joinFault r w why
      let s := modDie s die fun d => { d with faults := d.faults.set i r' }
      let s := if entryInRing d r then
          { chargeRuns s (.overhead (192 * die)) [(ringEntry d.ring (r.posted.getD 0) + 0x10, 3)] with mem := memPutBytes s.mem (ringEntry d.ring (r.posted.getD 0) + 0x10) (leBytes 2 r'.count ++ leBytes 1 r'.kind) } else s
      standAside s w
  | none =>
    if d.faults.length < 256 && (!d.ring.on || d.ring.room && (unposted d).isNone && ringServed s die) then
      let s := modDie s die fun d => { d with faults := d.faults ++ [newFault d w why], ring := { d.ring with seq := d.ring.seq + 1 } }
      standAside (if d.ring.on then postEntry s die d.faults.length else s) w
    else modDie s die fun d => { d with parkedFaults := d.parkedFaults ++ [(w, why)] }

/-- Records without an entry get one while the enabled ring has room, and faults that waited for room are taken up in order (R394, R396). -/
def settleRing : Nat → Nat → State → State
  | 0, _, s => s
  | n + 1, die, s =>
    let d := getDie s die
    match unposted d with
    | some i => if d.ring.on && d.ring.room && ringServed s die then settleRing n die (postEntry s die i) else s
    | none =>
      match d.parkedFaults with
      | [] => s
      | (w, why) :: r =>
        if d.faults.length < 256 && (!d.ring.on || d.ring.room && ringServed s die) then
          settleRing n die (onFault (modDie s die fun d => { d with parkedFaults := r }) die w why)
        else s

/-- A ring settled as far as it goes. -/
def settle (s : State) (die : Nat) : State :=
  settleRing ((getDie s die).faults.length + (getDie s die).parkedFaults.length + 1) die s

/-! ## Unmapped accesses (R393) -/

/-- A command that waits for an address made to fail with `STAT` 1. -/
def failWaiting (w : Walk) (r : RunCmd) : RunCmd :=
  if r.cmd.uid == w.agent.uid && (match r.hold with | .walk _ va _ => va == w.va | _ => false) then { r with hold := .failed 1 } else r

/-- The `TVAL` of an unmapped access that a sequencer waits for: its address, but the record's for the record of a pour (R311). -/
def unmappedVal (f : Flight) (w : Walk) : Word := if f.pour.isSome && w.kind != .read then f.pourAt else w.va

/-- What an unmapped access does to the agent that waits for its walk (R393): a sequencer that is still frozen on it takes a precise
window-permission fault, an engine or press command fails, a node fails with its phase, a job whose image is read ends bad-image. -/
def unmappedFor (s : State) (w : Walk) : State :=
  match w.waiter with
  | .seq uid q =>
    if (getUnit s uid).alive && (getSeq s uid q).fl.frozen == some (.walk ((getUnit s uid).place.core / 192) w.va w.kind) then
      takeTrap s uid q 4 (unmappedVal (getSeq s uid q).fl w) (wordAtPc s uid q) false none
    else s
  | .eng core e reloc =>
    if reloc then setRun s (.reloc core e) ((runAt s (.reloc core e)).map (failWaiting w))
    else modCore s core fun c => c.setEngine e { c.engine e with
      run := (c.engine e).run.map (failWaiting w), waiting := (c.engine e).waiting.map (failWaiting w) }
  | .press cl => setRun s (.press cl) ((runAt s (.press cl)).map (failWaiting w))
  | .coll die => modDie s die fun d => { d with coll := d.coll.map fun x =>
      if x.cmd.uid == w.agent.uid && (match x.hold with | .walk _ va _ => va == w.va | _ => false) then { x with hold := .failed 1 } else x }
  | .node k block =>
    match findJob s k.cont k.job with
    | none => s
    | some j =>
      if statusFinal j.status then s
      else if j.phase.isNone then endJob s k.cont k.job 9
      else
        match nodeRec s k with
        | none => s
        | some n =>
          if n.kind = 0 ∧ !block then failNode s k 9
          else nodeFault s k 4 w.va none

/-- A node whose translation stands now goes on reading its image or its graph, and a WAIT node is to be evaluated (R367); SIGNAL and COPY nodes go on by
their own events. -/
def mappedFor (s : State) (w : Walk) : State :=
  match w.waiter with
  | .node k _ =>
    match findJob s k.cont k.job with
    | none => s
    | some j => if j.phase.isNone then pokeJob s k.cont k.job else goOn s k
  | _ => s

/-- A walk of a generation that has passed is discarded and counted (R356); a command that waited for it ends without effect. -/
def staleWalk (s : State) (w : Walk) : State :=
  let s : State := { s with gendrop := s.gendrop + 1 }
  match w.waiter with
  | .seq .. => s
  | .node .. => s
  | _ => unmappedFor s w

/-- A walk of a die ends (R389 to R395). -/
def walkDone (s : State) (die : Nat) (w : Walk) : State :=
  let c := getCont s w.cont
  if !c.live || c.gen.toNat != w.gen then staleWalk s w
  else
    match walkVa s.mem c.satp c.hgatp w.va.toNat w.kind.writes with
    | .mapped m => mappedFor (cacheOn (setEntries s m.sets) die (cacheEntry w.cont w.gen w.va.toNat m)) w
    | .unmapped => unmappedFor s w
    | .fault why => onFault s die w why

/-! ## Replays (R397) -/

/-- What a replay word does (R397): the action on a record that it names and matches; discarded and counted otherwise. -/
def replay (s : State) (die : Nat) (w : Word) (act : Nat) (effect : State → FaultRec → State) : State :=
  let drop : State := { s with gendrop := s.gendrop + 1 }
  let a := bits w.toNat 32 2
  match (getDie s die).faults.find? fun r => r.seq == bits w.toNat 0 32 && r.gen % 65536 == bits w.toNat 48 16 with
  | none => if a = act ∨ a = 3 then drop else s
  | some r =>
    if a = 3 ∨ (a = act ∧ bits w.toNat 34 14 ≠ 0) then drop
    else if a ≠ act then s
    else settle (effect (modDie s die fun d => { d with faults := d.faults.erase r }) r) die

/-! ## Invalidation (R277, R391) -/

/-- Whether an identifier that a fence names is a continuation's (R391): its ASID, or for `HFENCE.GVMA` its VMID; a hypervisor's fence acts on partitioned
continuations. -/
def fenceNames (kind : FenceKind) (space : Option Word) (c : ContState) : Bool :=
  (kind == .sfence || c.hgatp != 0) && match space with
    | some x => if kind = .gvma then bits c.hgatp.toNat 44 14 == x.toNat else bits c.satp.toNat 44 16 == x.toNat
    | none => true

/-- Whether a fence covers a cached translation (R391): by its space, and by an address in the leaf that the translation is a piece of, a guest physical one for
`HFENCE.GVMA`. -/
def fenceCovers (s : State) (kind : FenceKind) (addr space : Option Word) (e : TlbEntry) : Bool :=
  fenceNames kind space (getCont s e.cont) && match addr with
    | some a => if kind = .gvma then a.toNat / 2 ^ e.gleaf == e.gbase / 2 ^ e.gleaf else a.toNat / 2 ^ e.leaf == e.base / 2 ^ e.leaf
    | none => true

/-- Whether a fence covers the page through which a mark was made (R277, R391): by its space, and by its page, or by a leaf in which that lay. A mark keeps no guest
physical address, so `HFENCE.GVMA` looks at every one of its guest. -/
def fenceCoversMark (s : State) (kind : FenceKind) (addr space : Option Word) (es : List TlbEntry) (m : Mark) : Bool :=
  fenceNames kind space (getCont s m.cont) && match addr with
    | some a => kind == .gvma || a.toNat / 4096 == m.va / 4096 || es.any fun e => e.cont == m.cont && m.va / 2 ^ e.leaf == e.base / 2 ^ e.leaf
    | none => true

/-- Whether the page through which a mark was made is still mapped where it was. -/
def stillMapped (s : State) (m : Mark) : Bool :=
  let c := getCont s m.cont
  match m.word, walkVa s.mem c.satp c.hgatp m.va false with
  | .mem pa, .mapped x => x.base ≤ pa && pa < x.base + 2 ^ x.log2
  | _, _ => false

/-- Whether two marks lie on one physical page. -/
def samePage (m k : Mark) : Bool :=
  match m.word, k.word with
  | .mem a, .mem b => a / 4096 == b / 4096
  | _, _ => false

/-- Whether a die still holds a translation to the page of a mark. -/
def pageCached (s : State) (m : Mark) : Bool :=
  match m.word with
  | .mem pa => [0, 1, 2, 3].any fun d => (getDie s d).tlb.any fun e => e.pbase ≤ pa && pa < e.pbase + 2 ^ e.log2
  | .acc .. => false

/-- The stores of a continuation's sequencers performed (R391). -/
def performCont (s : State) (cont : Nat) : State :=
  ((s.units.filter fun p => p.2.alive && p.2.ident.key.cont == cont).map Prod.fst).foldl
    (fun s uid => allSeqs.foldl (fun s q => performAll s uid q) s) s

/-- A fence of translations on a hart (R391): what was translated with a covered entry is performed, the covered entries are gone from all dies, and
the marks of the physical pages that are no longer mapped retire (R277): those of a page that the fence covers, through which it is mapped no more, and that no other
mark or translation shows to be mapped still (log 18). -/
def fenceVma (s : State) (kind : FenceKind) (addr space : Option Word) : State :=
  let es := [0, 1, 2, 3].flatMap fun d => (getDie s d).tlb.filter (fenceCovers s kind addr space)
  let s := ((es.map (·.cont)).eraseDups).foldl performCont s
  let s := [0, 1, 2, 3].foldl (fun s d => modDie s d fun k => { k with tlb := k.tlb.filter fun e => !(es.contains e) }) s
  let gone := s.order.marks.filter fun m => (match m.word with | .mem pa => inNodes pa | .acc .. => false) && fenceCoversMark s kind addr space es m &&
    !(stillMapped s m) && !(pageCached s m) && !(s.order.marks.any fun k => samePage m k && stillMapped s k)
  retireMarks s fun m => gone.any (samePage m)

end Sys2Proof.Machine
end

