-- ==== Sys2Proof/Machine/Levels.lean ====
section
/-!
DEFINITION. The five levels of work (R21, R22, R333, R381): which instances exist, their statuses and counters, their cancellation; the end of a
continuation (R334, R355, R356).
-/

namespace Sys2Proof.Machine

open Sys2Proof

/-! ## Instances (R21, R333) -/

/-- The status and the level counter of an instance, and whether it contains a unit. -/
structure Instance where
  status  : Nat
  counter : Nat
  holds   : Bool
  deriving DecidableEq, Repr

/-- A phase of a job that has started, running or ended. -/
def Job.phaseRun (j : Job) (index : Nat) : Option PhaseRun := (j.phase.toList ++ j.past).find? fun p => p.index == index

/-- The status that a failure gave a job; cancelled for a part of an ended job that never started. -/
def Job.endStatus (j : Job) : Nat := if statusFinal j.status && j.status != 0 then j.status else 4

/-- The status of a launch (R327, R365). -/
def launchStatus (j : Job) (n : NodeRun) : Nat :=
  match n.status with
  | .waiting => 1
  | .ready => 1
  | .running => 2
  | .complete => 0
  | .failed => j.endStatus
  | .cancelled => 4

/-- The units of a launch that are not complete (R21). -/
def launchCounter (n : NodeRec) (r : NodeRun) : Nat := launchCores n - (r.units.filter fun x => x.2 == 0).length

/-- The unit of a launch at a placement index, living or not. -/
def unitAt (s : State) (k : NodeKey) (gen index : Nat) : Option UnitState :=
  (s.units.find? fun p => p.2.ident.key == k && p.2.ident.gen == gen && p.2.ident.index == index).map Prod.snd

/-- The phases of a graph that run in a continuation (R21). -/
def graphPhases (c : ContState) (g : Nat) : List Job := (openJobs c).filter fun j => j.op != 2 && j.graph == g && j.phase.isSome

/-- The launch of a launch identifier (R361). -/
def launchOf (c : ContState) (id : Nat) : Option (Job × PhaseRun × NodeRec × NodeRun) :=
  (c.jobs.find? fun j => j.id == id / 2 ^ 32).bind fun j =>
    (j.phaseRun (id / 65536 % 65536)).bind fun p =>
      match p.graph.nodes[id % 65536]?, p.nodes[id % 65536]? with
      | some n, some r => if n.kind = 0 then some (j, p, n, r) else none
      | _, _ => none

/-- The key of a launch identifier in a continuation. -/
def launchKey (cont id : Nat) : NodeKey := { cont := cont, job := id / 2 ^ 32, phase := id / 65536 % 65536, node := id % 65536 }

/-- An instance of a continuation at a level (R333): none when it does not exist. `me` is the key and index of a unit that asks. -/
def instanceAt (s : State) (cont level id index : Nat) (me : Option (NodeKey × Nat)) : Option Instance :=
  let c := getCont s cont
  let inJob (j : Nat) : Bool := match me with | some (k, _) => k.cont == cont && k.job == j | none => false
  match level with
  | 0 =>
    (launchOf c id).bind fun x =>
      let (j, _, n, r) := x
      if launchCores n ≤ index then none
      else
        let u := unitAt s (launchKey cont id) c.gen.toNat index
        let st := match tabGet r.units index with
          | some v => v
          | none => if u.isSome then 2 else match r.status with
            | .failed => 4
            | .cancelled => 4
            | _ => 1
        some { status := if st = 3 then j.endStatus else st, counter := match u with | some u => u.exitLeft | none => 4
               holds := me == some (launchKey cont id, index) }
  | 1 => (launchOf c id).map fun x =>
      { status := launchStatus x.1 x.2.2.2, counter := launchCounter x.2.2.1 x.2.2.2
        holds := match me with | some (k, _) => k == launchKey cont id | none => false }
  | 2 =>
    if (tabGet c.graphs id).isSome then
      let js := graphPhases c id
      some { status := if js.isEmpty then 0 else 2, counter := js.length, holds := js.any fun j => inJob j.id }
    else none
  | 3 =>
    (c.jobs.find? fun j => j.id == id / 65536).bind fun j =>
      if j.nphase ≤ id % 65536 then none
      else
        match j.phaseRun (id % 65536) with
        | some p => some { status := p.status, counter := (p.nodes.filter fun n => n.status != .complete).length
                           holds := match me with | some (k, _) => k.cont == cont && k.job == j.id && k.phase == p.index | none => false }
        | none => some { status := if statusFinal j.status then 4 else 1
                         counter := match j.phaseRun 0 with | some p => p.nodes.length | none => 0, holds := false }
  | 4 =>
    (c.jobs.find? fun j => j.id == id).map fun j =>
      { status := j.status, counter := j.nphase - (j.past.filter fun p => p.status == 0).length, holds := inJob j.id }
  | 5 =>
    let n := (openJobs c).length
    some { status := if n = 0 then 0 else 2, counter := n, holds := match me with | some (k, _) => k.cont == cont | none => false }
  | _ => none

/-! ## Cancellation (R22, R369) -/

/-- Every job of a continuation that is not final cancelled with a status. -/
def cancelAll (s : State) (cont st : Nat) : State :=
  (openJobs (getCont s cont)).foldl (fun s j => cancelPhase s cont j.id st) s

/-- An instance that has not ended cancelled (R22, R333, R369). -/
def cancelLevel (s : State) (cont level id : Nat) : State :=
  match level with
  | 0 => cancelPhase s cont (id / 2 ^ 32) 4
  | 1 => cancelPhase s cont (id / 2 ^ 32) 4
  | 2 => (graphPhases (getCont s cont) id).foldl (fun s j => cancelPhase s cont j.id 4) s
  | 3 => cancelPhase s cont (id / 65536) 4
  | 4 => cancelPhase s cont id 4
  | _ => cancelAll s cont 4

/-- An instance cancelled (R22, R333, R369): one that has ended stays as it is, and nothing else is cancelled with it. -/
def cancelInstance (s : State) (cont level id index : Nat) : State :=
  match instanceAt s cont level id index none with
  | none => s
  | some i => if statusFinal i.status then s else cancelLevel s cont level id

/-- The status of an instance as a cancel reports it once it is recorded (R333): the cancelled continuation has no job that is not final. -/
def cancelledStatus (level : Nat) (i : Instance) : Nat := if level = 5 then 0 else if statusFinal i.status then i.status else 4

/-! ## The end of a continuation (R334, R355, R356) -/

/-- Every cached translation and fault record of a continuation is gone, a command that waited for one ends without effect, and its graphs and
scheduler state are returned (R356, R358, R397). -/
def revoke (s : State) (cont : Nat) : State :=
  let mine (d : DieState) : List Walk := (d.faults.filter fun r => r.cont == cont).flatMap (·.waiters) ++
    (d.parkedFaults.map Prod.fst).filter fun w => w.cont == cont
  let ws := [0, 1, 2, 3].flatMap fun d => mine (getDie s d)
  let s := [0, 1, 2, 3].foldl (fun s d => modDie s d fun k => { k with
    tlb := k.tlb.filter fun e => e.cont != cont
    faults := k.faults.filter fun r => r.cont != cont
    parkedFaults := k.parkedFaults.filter fun w => w.1.cont != cont }) s
  let s := ws.foldl (fun s w => match w.waiter with
    | .seq .. => s
    | .node .. => s
    | _ => unmappedFor s w) s
  let s := [0, 1, 2, 3].foldl settle s
  let die := homeDie cont
  let graphs := ((getCont s cont).graphs.map fun g => graphRoom g.2).foldl (· + ·) 0
  setUsed (modCont s cont fun c => { c with graphs := [] }) die (usedOn s die - graphs)

/-- Whether no unit of a continuation lives or has a started command (R334). -/
def quiet (s : State) (cont : Nat) : Bool :=
  !(s.units.any fun p => p.2.ident.key.cont == cont && (p.2.alive || unitBusy s p.1))

/-- A continuation ended (R334, steps 3 to 5): the generation rises, translations are revoked, queue and records are discarded, the identifier is
released. -/
def releaseCont (s : State) (cont : Nat) : State :=
  let s := revoke (modCont s cont fun c => { c with gen := c.gen + 1 }) cont
  let s := modCont s cont fun c => { ContState.init with gen := c.gen }
  setUsed s (homeDie cont) (usedOn s (homeDie cont) - 256)

/-- The device terminates a continuation with a status (R355): as `CFREE` does, but the identifier and the fault queue stay, and kind 3 is
posted. -/
def terminateCont (s : State) (cont st : Nat) : State :=
  if !(getCont s cont).live || (getCont s cont).terminated.isSome then s
  else
    let s := modCont s cont fun c => { c with gen := c.gen + 1, terminated := some st }
    let s := revoke (cancelAll s cont st) cont
    postAttn s cont 3 st 0

end Sys2Proof.Machine
end

