-- ==== Sys2Proof/Machine/Policy.lean ====
section
/-!
DEFINITION. The power policy, which sets the body-bias levels of the clusters (R412).
-/

namespace Sys2Proof.Machine

open Sys2Proof

/-- Whether a cluster holds a resident class-0 launch. -/
def holdsClass0 (s : State) (cl : Nat) : Bool :=
  s.units.any fun p => p.2.alive && p.2.place.resident && p.2.place.core / 4 == cl && p.2.ident.cls == 0

/-- Whether a core of a cluster issues from a slot. -/
def clusterIssues (s : State) (cl : Nat) : Bool := (List.range 4).any fun k => (getCore s (4 * cl + k)).issuing.isSome

/-- The lowest level whose frequency reaches a clock. -/
def levelFor (mhz : Nat) : Nat := ((List.range 8).find? fun l => mhz ≤ biasMHz l).getD 7

/-- Whether class-0 jobs of a continuation were running in the last 10 ms. -/
def recentClass0 (s : State) (c : ContState) : Bool := c.live && (hasClass0 c || (c.topClusters != 0 && s.stamp < c.topAt + 10000000))

/-- The number of clusters that hold class-0 launches of a continuation. -/
def topHeld (s : State) (cont : Nat) : Nat :=
  (((s.units.filter fun p => p.2.alive && p.2.place.resident && p.2.ident.cls == 0 && p.2.ident.key.cont == cont).map fun p =>
    p.2.place.core / 4).eraseDups).length

/-- The clusters of a partition, or those of none, that the class-0 placements of its continuations with recent class-0 jobs need. -/
def topNeed (s : State) (part : Option Nat) : Nat :=
  ((s.conts.filter fun p => p.2.partition == part && recentClass0 s p.2).map fun p => p.2.topClusters).foldl (· + ·) 0

/-- The clusters of a partition that are kept at the top level: those that hold class-0 launches, and enough others for the class-0 placements to come, those at
the top level first. -/
def keptOf (s : State) (part : Option Nat) : List Nat :=
  let all := (List.range 192).filter fun cl => (getCluster s cl).partition == part
  let held := all.filter (holdsClass0 s)
  let others := all.filter fun cl => !(held.contains cl)
  let (top, low) := others.partition fun cl => targetLevel (getCluster s cl) == 7
  held ++ (top ++ low).take (topNeed s part - held.length)

/-- The clusters that are kept at the top level: those that hold class-0 launches, and in each partition enough others for its continuations (R412, R444). -/
def keptClusters (s : State) : List Nat := (none :: (List.range 8).map some).flatMap (keptOf s)

/-- The level that the power policy gives a cluster. -/
def policyLevel (s : State) (cl : Nat) (keep : Bool) : Nat :=
  let c := getCluster s cl
  if keep then 7
  else if !c.ran && !(clusterIssues s cl) then 0
  else levelFor (Nat.min s.group.ceiling c.grant)

/-- The power policy sets each cluster's level. -/
def applyPolicy (s : State) : State :=
  let kept := keptClusters s
  (List.range 192).foldl (fun t cl => setLevel t cl (policyLevel s cl (kept.contains cl))) s

/-- A class-0 placement of a continuation: the clusters that its class-0 placements have needed at one time are noted, and the policy sets each cluster's level
(R412). -/
def placedTop (s : State) (cont : Nat) : State :=
  applyPolicy (modCont s cont fun c => { c with topClusters := Nat.max c.topClusters (topHeld s cont), topAt := s.stamp })

end Sys2Proof.Machine
end

