-- ==== Sys2Proof/Machine/Measure.lean ====
section
/-!
DEFINITION. The state of boot and its partitions changed, and the extension of a measurement register (R438).
-/

namespace Sys2Proof.Machine

open Sys2Proof

/-- The state with boot's part changed. -/
def modBoot (s : State) (f : BootState → BootState) : State := { s with boot := f s.boot }

/-- The state with a partition changed, where it exists. -/
def modPart (s : State) (part : Nat) (f : Partition → Partition) : State :=
  match tabGet s.boot.parts part with
  | some p => modBoot s fun b => { b with parts := tabPut b.parts part (f p) }
  | none => s

/-- Exactly n bytes of a digest. -/
def exactly (n : Nat) (bs : List Byte) : List Byte := bs.take n ++ List.replicate (n - bs.length) 0

/-- A measurement register extended with a digest (R438). -/
def extendMr (b : BootState) (i : Nat) (d : List Byte) : BootState :=
  { b with mrs := b.mrs.setIfInBounds i (exactly 64 (Config.shake256 ((b.mrs[i]?.getD []) ++ d))) }

/-- An image is loaded into a partition: MR8 + i is extended with its digest before its first unit issues (R438). -/
def measureImage (s : State) (part : Option Nat) (file : List Byte) : State :=
  match part with
  | some i => modBoot s fun b => extendMr b (8 + i) (exactly 64 (Config.imageDigest file))
  | none => s

end Sys2Proof.Machine
end

