-- ==== Sys2Proof/Machine/Sched.lean ====
section
/-!
DEFINITION. The schedulers' choice of what runs (R375 to R377, R382) and the park of a gang (R192, R341, R342, R344, R345).
-/

namespace Sys2Proof.Machine

open Sys2Proof

/-! ## Waits (R375) -/

/-- An instance that a unit names at a level (R381). -/
def namedInstance (s : State) (uid level : Nat) (id index : Word) : Option Instance :=
  let i := (getUnit s uid).ident
  instanceAt s i.key.cont level id.toNat index.toNat (some (i.key, i.index))

/-- The word at a sequencer's pc, decoded. -/
def instrAt (s : State) (uid : Nat) (q : Seq) : Option Instr :=
  match fetch s uid q with
  | .word w _ => decode q w
  | .stop _ => none

/-- A scalar register as it stands. -/
def plainReg (c : SeqState) (n : Nat) : Word := if n = 0 then 0 else c.regs[n]?.getD 0

/-- Whether the wait of a frozen `WFE`, `WAITV` or `GWAIT` has ended; any other freeze is none of them (R375). -/
def waitOver (s : State) (uid : Nat) (q : Seq) : Bool :=
  let c := getSeq s uid q
  match c.fl.frozen with
  | some .event => c.event
  | some (.watch (.mem pa)) =>
    match instrAt s uid q with
    | some (.waitv _ _ _ k _) => signCond k.toNat (BitVec.ofNat 64 (leValue (memBytes s.mem pa 8)))
    | _ => true
  | some .join =>
    match instrAt s uid q with
    | some (.gwait _ a i _) =>
      match namedInstance s uid i.toNat (plainReg c a.toNat) (plainReg c (a.toNat + 1)) with
      | some x => statusFinal x.status
      | none => true
    | _ => true
  | _ => true

/-- Whether a unit is blocked: each sequencer has exited or waits in `WAITV`, `WFE` or `GWAIT` (R375). -/
def unitBlocked (s : State) (uid : Nat) : Bool :=
  allSeqs.all fun q =>
    let c := getSeq s uid q
    match c.status with
    | .exited => true
    | .running => c.fl.frozen.isSome && !(waitOver s uid q)
    | _ => false

/-- Whether a launch is blocked. -/
def launchBlocked (s : State) (k : NodeKey) : Bool := (unitsOf s k).all (unitBlocked s)

/-! ## Launches as the schedulers see them -/

/-- A launch: its key, effective class, cores, and when it became ready. -/
structure Cand where
  key   : NodeKey
  cls   : Nat
  cores : List Nat
  since : Nat
  deriving DecidableEq, Repr

/-- The effective class of a class (R377). -/
def agedClass (cls : Nat) (aged : Bool) : Nat := if aged && 2 ≤ cls then cls - 1 else cls

/-- The launches that are resident. -/
def residentKeys (s : State) : List NodeKey :=
  ((s.units.filter fun p => p.2.alive && p.2.place.resident).map fun p => p.2.ident.key).eraseDups

/-- The launches that are parked. -/
def parkedKeys (s : State) : List NodeKey := ((s.units.filter fun p => p.2.alive && p.2.saved.isSome).map fun p => p.2.ident.key).eraseDups

/-- A launch that has units as a candidate, on the cores that it has or left. -/
def candOf (s : State) (k : NodeKey) : Cand :=
  let us := (unitsOf s k).map (getUnit s)
  let n := findNode s k
  { key := k, cls := agedClass ((us.head?.map fun u => u.ident.cls).getD 3) (match n with | some n => n.aged | none => false)
    cores := us.map (·.place.core), since := match n with | some n => n.readyAt | none => 0 }

/-- Whether the quota of a launch's continuation is exhausted (R377, R410). -/
def exhausted (s : State) (k : NodeKey) : Bool := (getCont s k.cont).energy.exhausted

/-- Whether a launch issues on a core. -/
def issuesOn (s : State) (k : NodeKey) (core : Nat) : Bool :=
  match issuingUnit s core with
  | some uid => (getUnit s uid).ident.key == k
  | none => false

/-! ## Deficit round-robin (R375) -/

/-- The deficit of a continuation. -/
def deficit (s : State) (cont : Nat) : Int := (getCont s cont).energy.deficit

/-- The quantum added to a continuation's deficit, which is capped at four of them. -/
def addQuantum (s : State) (cont : Nat) : State :=
  let q : Int := s.sched.quantum
  modCont s cont fun c => { c with energy := { c.energy with deficit := min (c.energy.deficit + q) (4 * q) } }

/-- The loop over a ring from a pointer: the continuation that it stops at, and the pointer there. -/
def drr : Nat → List Nat → Nat → List Nat → State → Option Nat × Nat × State
  | 0, _, ptr, _, s => (none, ptr, s)
  | n + 1, ring, ptr, run, s =>
    match ring[ptr]? with
    | none => (none, 0, s)
    | some x =>
      if run.contains x && 0 < deficit s x then (some x, ptr, s)
      else
        let s := if run.contains x then addQuantum s x else s
        drr n ring ((ptr + 1) % ring.length) run s

/-- How many rounds of the ring bring some deficit of a list above 0. -/
def drrRounds (s : State) (run : List Nat) : Nat := run.foldl (fun n x => Nat.max n ((- deficit s x).toNat / s.sched.quantum)) 0 + 2

/-- Whether a continuation has a launch of an effective class that is ready, resident or parked. -/
def inClass (s : State) (cls cont : Nat) : Bool :=
  ((residentKeys s ++ parkedKeys s).any fun k => k.cont == cont && (candOf s k).cls == cls) ||
    (openJobs (getCont s cont)).any fun j => match j.phase with
      | none => false
      | some p => p.nodes.zipIdx.any fun x => x.1.status == .ready && (match p.graph.nodes[x.2]? with
          | some n => n.kind == 0 && agedClass (launchClass s { cont := cont, job := j.id, phase := p.index, node := x.2 } n) x.1.aged == cls
          | none => false)

/-- A ring as it stands: continuations that have no launch of the class any more have left, those of a list that are not in it enter at the end; the
pointer stays on the continuation that it names, or moves to the next that is left. -/
def ringNow (s : State) (cls : Nat) (more : List Nat) : List Nat × Nat :=
  let old := s.sched.rings[cls]?.getD []
  let ptr := s.sched.pointers[cls]?.getD 0
  let keep := old.filter (inClass s cls)
  let before := ((old.take ptr).filter (inClass s cls)).length
  let ring := keep ++ (more.eraseDups.filter fun c => !(keep.contains c))
  (ring, if ring.isEmpty then 0 else before % ring.length)

/-- The oldest of a list of candidates. -/
def oldest : List Cand → Option Cand
  | [] => none
  | c :: r =>
    match oldest r with
    | some d => if d.since < c.since then some d else some c
    | none => some c

/-- The choice among candidates of one class. -/
def pickClass (s : State) (cls : Nat) (cs : List Cand) : Option Cand × State :=
  let run := (cs.map fun c => c.key.cont).eraseDups
  let (ring, ptr) := ringNow s cls run
  let (x, ptr, s) := drr (ring.length * drrRounds s run) ring ptr run s
  let s := { s with sched := { s.sched with rings := s.sched.rings.setIfInBounds cls ring, pointers := s.sched.pointers.setIfInBounds cls ptr } }
  match x with
  | none => (none, s)
  | some x => (oldest (cs.filter fun c => c.key.cont == x), s)

/-- The choice among candidates by class; a yielding launch comes after every other of its class (R375, R382). -/
def pickCand (yielder : Option NodeKey) (cs : List Cand) : List Nat → State → Option Cand × State
  | [], s => (none, s)
  | c :: rest, s =>
    let mine := cs.filter fun x => x.cls == c
    let others := mine.filter fun x => some x.key != yielder
    if mine.isEmpty then pickCand yielder cs rest s
    else pickClass s c (if others.isEmpty then mine else others)

/-- Launches chosen one after another for what is left of a set of cores. -/
def pickAll (yielder : Option NodeKey) : Nat → List Cand → State → List Cand × State
  | 0, _, s => ([], s)
  | n + 1, cs, s =>
    match pickCand yielder cs [0, 1, 2, 3] s with
    | (none, s) => ([], s)
    | (some c, s) =>
      let (r, s) := pickAll yielder n (cs.filter fun x => !(x.cores.any c.cores.contains)) s
      (c :: r, s)

/-! ## A decision (R375) -/

/-- The clock of a sequencer that stops outside its handler stands in `TVC` (R134). DEDUCED (log 78) from the worked case of R134; the `TVC` of a running handler stays, since its
`RETT` needs it (R131). -/
def keepClock (c : SeqState) : SeqState := if c.tr.tstat.getLsbD 0 then c else { c with tr := { c.tr with tvc := c.vc } }

/-- A unit stops issuing at its boundary: a pour of it stops (R311, R344). -/
def stopIssue (s : State) (uid : Nat) : State := modUnit s uid fun u => u.mapSeqs fun c => keepClock (stopPour c)

/-- The slot that a core issues from, after a decision chose launches for it. -/
def slotFor (s : State) (cs : List Cand) (core : Nat) : Option Nat :=
  (cs.find? fun c => c.cores.contains core).bind fun c =>
    ((unitsOf s c.key).find? fun uid => (getUnit s uid).place.core == core).map fun uid => (getUnit s uid).place.slot

/-- A launch runs again: it has its own class (R377). -/
def runAgain (s : State) (k : NodeKey) : State := modNode s k fun n => { n with aged := false, idleAt := s.stamp }

/-- The chosen launches issue on a set of cores: the others there stop, and leases that end with them end (R244, R341). -/
def applyChoice (s : State) (cores : List Nat) (cs : List Cand) : State :=
  let before := (cores.filterMap (issuingUnit s)).filter fun uid => !(cs.any fun c => c.key == (getUnit s uid).ident.key)
  let s := before.foldl (fun s uid => modNode (stopIssue s uid) (getUnit s uid).ident.key fun n => { n with idleAt := s.stamp }) s
  let s := cores.foldl (fun s core =>
    let k := slotFor s cs core
    let s := modCore s core fun c => { c with issuing := k }
    if k.isSome then modCluster s (core / 4) fun c => { c with ran := true } else s) s
  let s := cs.foldl (fun s c => runAgain s c.key) s
  ((cores.map (· / 4)).eraseDups).foldl settlePress s

/-- The cores that a decision for some cores concerns: with each core all those of the launch that issues there, which stops as a gang (R341,
R346). -/
def gangCores (s : State) (cores : List Nat) : List Nat :=
  (cores ++ (cores.filterMap (issuingUnit s)).flatMap fun uid =>
    (unitsOf s (getUnit s uid).ident.key).map fun v => (getUnit s v).place.core).eraseDups

/-- What a decision comes to: the cores it concerns, the runnable launches it chose, the blocked ones that go on issuing, and the state with the deficits and
pointers that it leaves. -/
structure Decision where
  cores  : List Nat
  first  : List Cand
  second : List Cand
  state  : State

/-- The launches that a decision chose. -/
def Decision.chosen (d : Decision) : List Cand := d.first ++ d.second

/-- A decision for a set of cores among the resident launches and ready or parked ones that can be placed there (R375): runnable launches first, then resident
blocked ones; none of a continuation whose quota is exhausted (R377). A launch that reaches beyond the set is a candidate only where the cores beyond issue from
no slot. -/
def decision (s : State) (cores : List Nat) (yielder : Option NodeKey) (more : List Cand) : Decision :=
  let cores := gangCores s cores
  let cs := (more ++ (residentKeys s).map (candOf s)).filter fun c =>
    !(exhausted s c.key) && c.cores.any cores.contains && c.cores.all fun k => cores.contains k || (issuingUnit s k).isNone
  let blocked (c : Cand) : Bool := !(unitsOf s c.key).isEmpty && launchBlocked s c.key
  let run := cs.filter fun c => !(blocked c)
  let (first, t) := pickAll yielder run.length run s
  let rest := cs.filter fun c => !(more.contains c) && !(c.cores.any fun k => first.any fun d => d.cores.contains k) && blocked c
  let (second, t) := pickAll none rest.length rest t
  { cores := cores, first := first, second := second, state := t }

/-- The launches that a decision chose issue in a state that it has led to. -/
def Decision.apply (d : Decision) (s : State) : State :=
  applyChoice s ((d.cores ++ d.chosen.flatMap (·.cores)).eraseDups) d.chosen

/-- All cores that hold a unit. -/
def busyCores (s : State) : List Nat := ((s.units.filter fun p => p.2.place.resident).map fun p => p.2.place.core).eraseDups

/-! ## Parking (R192, R341, R342, R344, R345) -/

/-- The bytes of a unit's state that a park writes (R133, R342; log 23). -/
def parkedSize (u : UnitState) : Nat :=
  4 * 4096 + u.place.spadSize + 16384 * u.place.groups.length +
    1280 * ((u.seqs.toList.map fun c => c.fl.running.length + c.fl.held.length).foldl (· + ·) 0)

/-- The context-store records in use. -/
def recordsUsed (s : State) : Nat := (s.units.filter fun p => match p.2.saved with | some v => v.record | none => false).length

/-- The bytes of a continuation's spill area in use. -/
def spillUsed (s : State) (cont : Nat) : Nat :=
  ((s.units.filter fun p => p.2.ident.key.cont == cont).map fun p => match p.2.saved with | some v => v.spill | none => 0).foldl (· + ·) 0

/-- Where a unit's state goes (R342): whether it takes a record, and its bytes in the spill area; none when it fits nowhere. -/
def parkRoom (s : State) (uid : Nat) : Option (Bool × Nat) :=
  let u := getUnit s uid
  let n := parkedSize u
  let left := 262144 * (getCont s u.ident.key.cont).spill - spillUsed s u.ident.key.cont
  if recordsUsed s < s.sched.records ∧ n - 262144 ≤ left then some (true, n - 262144)
  else if n ≤ left then some (false, n)
  else none

/-- A command put back into its queue in the order of issue, at its restart point (R192). -/
def putBack (c : EngCmd) : List EngCmd → List EngCmd
  | [] => [c]
  | d :: r => if c.lockNo < d.lockNo then c :: d :: r else d :: putBack c r

/-- A running command as a park keeps it. What it has done and acquired where it ran goes with it, since it may go on as another agent (R194, R270). -/
def restartPoint (s : State) (w : Site) (r : RunCmd) : EngCmd :=
  { r.cmd with pos := r.pos, trace := r.trace, recs := r.recs, held := r.hold == .race, started := true
               rel := { r.cmd.rel with hist := histJoin r.cmd.rel.hist (cmdRelease s (siteCtx s w r.cmd) r.cmd).hist } }

/-- A stopped command returned to its unit's queue. -/
def returnCmd (e : Eng) (w : Site) (s : State) (r : RunCmd) : State :=
  modEq s r.cmd.uid r.cmd.issuer e fun q => { q with cmds := putBack (restartPoint s w r) q.cmds }

/-- Whether a command is a unit's. -/
def RunCmd.of (r : RunCmd) (uid : Nat) : Bool := r.cmd.uid == uid

/-- The command of a unit at a site brought to its restart point. -/
def parkOf (uid : Nat) (s : State) (w : Site) : State := if (runAt s w).any fun r => r.of uid then parkAt s w else s

/-- One engine's commands of a unit stopped at their restart points. -/
def stopEngine (uid core : Nat) (e : Eng) (s : State) : State :=
  let s := (sitesOf core e).foldl (parkOf uid) s
  let g := (getCore s core).engine e
  let mine := (g.run.toList ++ g.waiting).filter fun r => r.of uid
  let s := modCore s core fun c => c.setEngine e { g with
    run := g.run.filter fun r => !(r.of uid), waiting := g.waiting.filter fun r => !(r.of uid) }
  let s := mine.foldl (returnCmd e (.own core e)) s
  if e = .gather then s
  else
    match runAt s (.reloc core e) with
    | some r => if r.of uid then returnCmd e (.reloc core e) (setRun s (.reloc core e) none) r else s
    | none => s

/-- The engine commands of a unit brought to their restart points, on its own core and where a sibling runs them. -/
def stopEngines (s : State) (uid : Nat) : State :=
  let core := (getUnit s uid).place.core
  (List.range 4).foldl (fun s k => [Eng.copy, Eng.gather, Eng.row].foldl (fun s e => stopEngine uid (core / 4 * 4 + k) e s) s) s

/-- Whether a press command of a unit is running: a park waits for it (R257). -/
def pressBusy (s : State) (uid : Nat) : Bool :=
  match (getCluster s ((getUnit s uid).place.core / 4)).press.cur with
  | some r => r.of uid
  | none => false

/-- The logical byte number of a physical accumulator byte of a core, for a unit. -/
def rowByte (u : UnitState) (pa : Nat) : Option Nat :=
  let base := 0x1000000 * u.place.core + 0x400000
  if pa < base then none
  else (u.place.groups.find? fun g => g.2 == (pa - base) / 16384).map fun g => g.1 * 16384 + (pa - base) % 16384

/-- The physical address of a logical accumulator byte of a unit. -/
def rowBytePa (u : UnitState) (b : Nat) : Nat :=
  0x1000000 * u.place.core + 0x400000 + (tabGet u.place.groups (b / 16384)).getD 0 * 16384 + b % 16384

/-- What a park saves of a unit. -/
def saveOf (s : State) (uid : Nat) (record : Bool) (spill : Nat) : SavedUnit :=
  let u := getUnit s uid
  { spad := (s.mem.filter fun c => inPartition u c.1).map fun c => (c.1 - spadPa u 0, c.2)
    rows := u.place.groups.flatMap fun g => (List.range 16).map fun i => (g.1 * 16 + i, getRow s uid (g.1 * 16 + i))
    marks := s.order.marks.filterMap (markOffset u)
    heads := (s.order.heads.filter fun h => inPartition u h.1).map fun h => (h.1 - spadPa u 0, h.2)
    rowHeads := s.order.heads.filterMap fun h => (rowByte u h.1).map fun b => (b, h.2)
    record := record, spill := spill }

/-- A unit that is being parked stands still: its stores are performed, its commands stop at their restart points, and no walk of it is left. -/
def haltUnit (s : State) (uid : Nat) : State :=
  let s := allSeqs.foldl (fun s q => performAll s uid q) (stopIssue s uid)
  dropWaiters (stopEngines s uid) fun w => w.bySeq uid || (match w.waiter with | .eng .. => w.agent.uid == uid | _ => false)

/-- A unit that stands still parked: its state is saved and its slot is free. -/
def saveUnit (s : State) (uid : Nat) : State :=
  let u := getUnit s uid
  match parkRoom s uid with
  | none => s
  | some (record, spill) =>
    let v := saveOf s uid record spill
    let s := { s with order := { s.order with
      marks := s.order.marks.filter fun m => (markOffset u m).isNone
      heads := s.order.heads.filter fun h => !(inPartition u h.1) && (rowByte u h.1).isNone } }
    let s := chargeContext (leaveSlot s uid) u.place.core (parkedSize u)
    modUnit s uid fun u => { u with saved := some v, place := { u.place with resident := false } }

/-- Whether every unit of a gang has room, one after another (R342). -/
def gangRoom (s : State) (us : List Nat) : Bool :=
  let sizes := us.map fun uid => parkedSize (getUnit s uid)
  let cont := (us.head?.map fun uid => (getUnit s uid).ident.key.cont).getD 0
  let left := 262144 * (getCont s cont).spill - spillUsed s cont
  let free := s.sched.records - recordsUsed s
  let need := ((sizes.take free).map fun n => n - 262144) ++ sizes.drop free
  need.foldl (· + ·) 0 ≤ left

/-- The resident units of a launch. -/
def residentOf (s : State) (k : NodeKey) : List Nat := (unitsOf s k).filter fun uid => (getUnit s uid).place.resident

/-- Whether a launch can be parked: it is resident, the press runs no command of it, and its state fits (R257, R342). -/
def parkable (s : State) (k : NodeKey) : Bool :=
  let us := residentOf s k
  !us.isEmpty && !(us.any (pressBusy s)) && gangRoom s us

/-- The cores of some units. -/
def coresOf (s : State) (us : List Nat) : List Nat := us.map fun uid => (getUnit s uid).place.core

/-- The controller at which the save of a launch waits, with its ticket (R400, R401). -/
def saveStop (s : State) (k : NodeKey) : Option (Nat × Nat) := contextStop s (.context k) ((candOf s k).cls == 0) (coresOf s (residentOf s k))

/-- A launch parked as a gang (R345), without a decision for the cores it leaves: its units stand still first, and are saved together; what their commands have written on the
way may leave no room for that (R342), and then they stay. -/
def parkAway (s : State) (k : NodeKey) : State :=
  let us := residentOf s k
  let cores := coresOf s us
  let s := us.foldl haltUnit (leaveQueue s (.context k))
  if !(gangRoom s us) then s
  else
  let s := us.foldl saveUnit s
  let s := modNode s k fun n => { n with idleAt := s.stamp }
  let s := modCont s k.cont fun c => { c with parkAsked := c.parkAsked.filter fun x => x != k }
  ((cores.map (· / 4)).eraseDups).foldl settlePress s

/-! ## Victims (R201, R376) -/

/-- Whether a launch that needs room may take it from a resident one (R376): one of a numerically greater effective class, or of the same class, not 0, whose
continuation has no deficit left while that of the placing launch has. -/
def victimAllowed (s : State) (cls cont : Nat) (v : Cand) : Bool :=
  cls < v.cls || (cls == v.cls && cls != 0 && deficit s v.key.cont ≤ 0 && 0 < deficit s cont)

/-- The candidate of the lowest deficit, the first among equals. -/
def lowestDeficit (s : State) : List Cand → Option Cand
  | [] => none
  | c :: r =>
    match lowestDeficit s r with
    | some d => if deficit s d.key.cont < deficit s c.key.cont then some d else some c
    | none => some c

/-- The launch to park for room on a core: of the allowed victims whose state fits somewhere the one of the lowest deficit (R342, R376). -/
def victimOn (s : State) (k : NodeKey) (cls core : Nat) : Option NodeKey :=
  (lowestDeficit s (((residentKeys s).map (candOf s)).filter fun v =>
    v.key != k && v.cores.contains core && victimAllowed s cls k.cont v && gangRoom s (residentOf s v.key))).map (·.key)

/-- The launches to park because a writer of another launch is frozen for want of a row group (R201, R376). -/
def rowVictims (s : State) : List NodeKey :=
  s.units.filterMap fun p =>
    let core := p.2.place.core
    if p.2.alive && p.2.place.resident && (allSeqs.any fun q => (p.2.seq q).fl.frozen == some .rowGroup) && 16 ≤ (takenGroups s core).length then
      victimOn s p.2.ident.key (candOf s p.2.ident.key).cls core
    else none

/-- Whether a launch is parked for a reason that the manual gives, other than a placement: its continuation has asked for it (R332), or a writer needs a row
group of it (R201). -/
def mayPark (s : State) (k : NodeKey) : Bool := (getCont s k.cont).parkAsked.contains k || (rowVictims s).contains k

end Sys2Proof.Machine
end

