-- ==== Sys2Proof/Machine/Gang.lean ====
section
/-!
DEFINITION. The unpark of a gang (R163, R201, R341, R357), the placing of gangs (R162, R372 to R374), and the decisions of the schedulers carried out, which place
the launches that they choose (R375 to R377).
-/

namespace Sys2Proof.Machine

open Sys2Proof

/-! ## Unparking (R163, R201, R341, R357) -/

/-- Whether a partition of a size fits at a base of a core: a multiple of 16 KiB, inside, and free (R162). -/
def partitionFits (s : State) (core base size : Nat) : Bool :=
  base % 16384 == 0 && base + size ≤ 0x180000 &&
    !(s.units.any fun p => p.2.place.resident && p.2.place.core == core &&
      p.2.place.spadBase < base + size && base < p.2.place.spadBase + p.2.place.spadSize)

/-- The free row groups of a core, a given one first. -/
def freeGroups (s : State) (core first : Nat) : List Nat :=
  (first :: (List.range 16).filter fun g => g != first).filter fun g => g < 16 && !((takenGroups s core).contains g)

/-- Whether a slot of a core is free. -/
def slotFree (s : State) (core slot : Nat) : Bool := core < 768 && slot < 8 && ((getCore s core).slots[slot]?.getD none).isNone

/-- What a unit needs on a core: the core, the size of its partition, and its row groups. -/
structure Need where
  core   : Nat
  size   : Nat
  groups : Nat
  deriving DecidableEq, Repr

/-- Whether a core has room for a unit (R374): a slot, a place for its partition, and its row groups. -/
def hasRoom (s : State) (n : Need) : Bool :=
  (List.range 8).any (slotFree s n.core) && ((List.range 96).any fun b => partitionFits s n.core (16384 * b) n.size) &&
    n.groups ≤ ((List.range 16).filter fun g => !((takenGroups s n.core).contains g)).length

/-- Victims parked, that of the lowest deficit first, until each core has room for its unit of a launch; none when no allowed victim is left, the press
still runs a command of the one to park, or its save must wait for a budget (R257, R376, R401). -/
def makeRoom (k : NodeKey) (cls : Nat) (needs : List Need) : Nat → State → Option State
  | 0, s => if needs.all (hasRoom s) then some s else none
  | fuel + 1, s =>
    match needs.find? fun n => !(hasRoom s n) with
    | none => some s
    | some n =>
      match victimOn s k cls n.core with
      | none => none
      | some v => if parkable s v && (saveStop s v).isNone then makeRoom k cls needs fuel (parkAway s v) else none

/-- Whether a parked unit can come back to a place. -/
def canUnpark (s : State) (uid : Nat) (p : UnitPlace) : Bool :=
  let u := getUnit s uid
  u.alive && u.saved.isSome && p.core == u.place.core && slotFree s p.core p.slot && partitionFits s p.core p.base u.place.spadSize &&
    u.place.groups.length + u.place.reserve.toList.length ≤ (freeGroups s p.core p.group).length

/-- Whether a landing-buffer entry passes the checks of a restore (R134, R357). -/
def entrySound (e : Landing) : Bool := e.rem ≤ 18 && e.kind != .reserved && e.resv == 0 && fmtValid e.tag.toNat

/-- Whether X's state passes them: the fields of `VWS` and `CMPS` (R213, R357). -/
def xStateSound (x : XState) : Bool :=
  x.stray == 0 && x.k.toNat ≤ 30 && (if x.k = 0 then x.rot == 0 else x.rot.toNat < x.k.toNat) && (!x.tv || fmtValid x.tag.toNat) &&
    x.count < (if x.tv then 2 * laneCount x.tag.toNat else 1)

/-- What a restore rejects of a unit: the sequencer and the index of the landing-buffer entry, 0 where no entry is at fault (R347, R357). -/
def restoreFlaw (u : UnitState) : Option (Seq × Nat) :=
  match allSeqs.findSome? fun q => ((u.seq q).fl.running ++ (u.seq q).fl.held).find? (fun e => !(entrySound e)) |>.map fun e => (q, e.slot) with
  | some x => some x
  | none => if xStateSound u.xs && u.place.rowTags.all (fun t => fmtValid t.2.toNat) && u.place.tagStray.isEmpty then none else some (.x, 0)

/-- Whether the restored state of a unit passes the checks of R357: the landing buffers (R134), the fields of `VWS` and `CMPS` (R213), and the tag
bytes (R87). -/
def restoreSound (u : UnitState) : Bool := (restoreFlaw u).isNone

/-- A unit restored at a place. -/
def unparkUnit (s : State) (uid : Nat) (p : UnitPlace) : State :=
  let u := getUnit s uid
  match u.saved with
  | none => s
  | some v =>
    let free := freeGroups s p.core p.group
    let groups := (u.place.groups.zip free).map fun x => (x.1.1, x.2)
    let reserve := if u.place.reserve.isSome then free[u.place.groups.length]? else none
    let s := modUnit s uid fun u => { u with saved := none, place := { u.place with
      slot := p.slot, resident := true, spadBase := p.base, groups := groups, reserve := reserve } }
    let u := getUnit s uid
    let s := chargeContext s p.core (parkedSize u)
    let s := modCore s p.core fun c => { c with slots := c.slots.setIfInBounds p.slot (some uid)
                                                rows := c.rows.filter fun r => !(groups.any fun g => g.2 == r.1 / 16) }
    let s := { s with mem := v.spad.foldl (fun m c => memPut m (spadPa u 0 + c.1) c.2) (memDrop s.mem (spadPa u 0) (spadPa u u.place.spadSize)) }
    let s := v.rows.foldl (fun s r => setRow s uid r.1 r.2) s
    let marks := v.marks.map fun m => match m.word with | .mem o => { m with word := .mem (spadPa u 0 + o) } | _ => m
    { s with order := { s.order with
      marks := marks ++ s.order.marks
      heads := s.order.heads ++ (v.heads.map fun h => (spadPa u 0 + h.1, h.2)) ++ v.rowHeads.map fun h => (rowBytePa u h.1, h.2) } }

/-- The units of a launch that are parked, in placement order. -/
def parkedUnits (s : State) (k : NodeKey) : List Nat :=
  let us := (unitsOf s k).filter fun uid => (getUnit s uid).saved.isSome
  ((List.range 768).flatMap fun i => us.filter fun uid => (getUnit s uid).ident.index == i)

/-! ## Placing gangs (R162, R201, R372 to R374) -/

/-- Whether the cores of a list rise strictly. -/
def rising : List Nat → Bool
  | a :: b :: r => a < b && rising (b :: r)
  | _ => true

/-- Whether cores, by placement index, are a placement (R374). -/
def legalPlacement (cores : List Nat) : Bool :=
  let n := cores.length
  rising cores && placeable n && cores.all (· < 768) &&
    if n ≤ 4 then (cores.all fun c => c / 4 == cores.headD 0 / 4) else cores.all fun c => (List.range 4).all fun k => cores.contains (c / 4 * 4 + k)

/-- The cycles of a transfer between two cores (R373). -/
def transferCycles (src dst : Nat) (x : Transfer) : Nat := (x.bytes + 31) / 32 + if src / 192 = dst / 192 then 0 else 24

/-- Whether no two transfers of a list share a sender or a receiver in one cycle (R373). -/
def oneTransfer (cores : List Nat) : List Transfer → Bool
  | [] => true
  | x :: r =>
    let cycles (y : Transfer) : Nat := transferCycles (cores[y.src]?.getD 0) (cores[y.dst]?.getD 0) y
    (r.all fun y => !((x.src == y.src || x.dst == y.dst) && x.at0 < y.at0 + cycles y && y.at0 < x.at0 + cycles x)) &&
      oneTransfer cores r

/-- Whether an exchange table may run in a placement of partitions of a size (R373). -/
def tableSound (cores : List Nat) (spad : Nat) (t : ExTable) : Bool :=
  (t.xfers.all fun x => x.src < cores.length && x.dst < cores.length && x.foff + x.bytes ≤ spad && x.toff + x.bytes ≤ spad) &&
    oneTransfer cores t.xfers

/-- A unit's partition as it starts: zeros, then the image's scratchpad blocks with their codes (R60, R162). -/
def fillPartition (s : State) (uid : Nat) (data : List (Nat × Nat × List Byte)) : State :=
  let u := getUnit s uid
  let s := { s with mem := memDrop s.mem (spadPa u 0) (spadPa u u.place.spadSize) }
  data.foldl (fun s d =>
    let s := { s with mem := memPutBytes s.mem (spadPa u d.1) d.2.2 }
    modUnit s uid fun u => { u with place := { u.place with tags :=
      (List.range ((d.1 + d.2.2.length + 4095) / 4096 - d.1 / 4096)).foldl (fun t i => tabPut t (d.1 / 4096 + i) (BitVec.ofNat 3 d.2.1)) u.place.tags } }) s

/-- A sequencer as it starts in a launch (R60, R124). -/
def startSeq (l : LaunchInfo) (params : Word) (q : Seq) : SeqState :=
  let c := SeqState.init q
  let st := l.streams[q.idx]?.getD (0, 0)
  let trap := l.trap[q.idx]?.getD 0xFFFFFFFF
  { c with
    regs := c.regs.setIfInBounds 1 params
    pc := BitVec.ofNat 64 (l.entry[q.idx]?.getD 0)
    streamBase := l.image + BitVec.ofNat 64 st.1
    streamSize := st.2
    tr := { c.tr with tvec := if trap = 0xFFFFFFFF then BitVec.allOnes 64 else BitVec.ofNat 64 trap } }

/-- One unit of a launch starts at a place. -/
def startUnit (k : NodeKey) (l : LaunchInfo) (ident : UnitIdent) (hist : Hist) (s : State) (x : UnitPlace × Nat) : State :=
  let (p, i) := x
  let uid := s.nextUid
  let size := (l.spad + 4095) / 4096 * 4096
  let u0 := UnitState.init
  let u : UnitState := { u0 with
    ident := { ident with key := k, index := i, image := l.image }
    place := { u0.place with core := p.core, slot := p.slot, resident := true, spadSize := size, spadBase := p.base, reserve := some p.group }
    seqs := #v[startSeq l ident.params .c, startSeq l ident.params .l, startSeq l ident.params .x, startSeq l ident.params .s] }
  let s := setUnit { s with nextUid := uid + 1 } uid u
  let s := modCore s p.core fun c => { c with slots := c.slots.setIfInBounds p.slot (some uid) }
  let s := fillPartition s uid l.data
  allSeqs.foldl (fun s q => learn s (seqAgent u uid q) hist) s

/-- Whether a place has room for a unit (R374): a free slot, the partition, a row group. -/
def placeFits (s : State) (size : Nat) (p : UnitPlace) : Bool :=
  slotFree s p.core p.slot && partitionFits s p.core p.base size && p.group < 16 && !((takenGroups s p.core).contains p.group)

/-- Whether a launch may stand on a core: in a cluster of its continuation's partition (R444), with thermal headroom for a press node (R376). -/
def coreAllowed (s : State) (cont : Nat) (press : Bool) (core : Nat) : Bool :=
  let cl := getCluster s (core / 4)
  cl.partition == (getCont s cont).partition && (cl.headroom || !press)

/-- A ready launch as a candidate on some cores. -/
def readyCand (s : State) (k : NodeKey) (n : NodeRec) (r : NodeRun) (cores : List Nat) : Cand :=
  { key := k, cls := agedClass (launchClass s k n) r.aged, cores := cores, since := r.readyAt }

/-- The cores of a cluster on which a launch of a size can stand now. -/
def openCores (s : State) (cont : Nat) (press : Bool) (size cl : Nat) : Nat :=
  ((List.range 4).filter fun j => coreAllowed s cont press (4 * cl + j) && hasRoom s { core := 4 * cl + j, size := size, groups := 1 }).length

/-- Whether a launch of n cores has room on clusters at the top level alone (R374, R412). -/
def topRoom (s : State) (cont : Nat) (press : Bool) (size n : Nat) : Bool :=
  let top := (List.range 192).filter fun cl => targetLevel (getCluster s cl) == 7
  if n ≤ 4 then top.any fun cl => n ≤ openCores s cont press size cl
  else n ≤ 4 * (top.filter fun cl => openCores s cont press size cl == 4).length

/-- Whether a launch's clusters are those that the policy wants: a class-0 launch stands on clusters at the top level where they have room for it (R412). -/
def topFirst (s : State) (k : NodeKey) (n : NodeRec) (size : Nat) (cores : List Nat) : Bool :=
  launchClass s k n != 0 || (cores.all fun c => targetLevel (getCluster s (c / 4)) == 7) || !(topRoom s k.cont n.press size cores.length)

/-! ## Placements that a decision may make (R374, R375) -/

/-- What a parked unit needs on its core. -/
def unitNeed (s : State) (uid : Nat) : Need :=
  let u := getUnit s uid
  { core := u.place.core, size := u.place.spadSize, groups := u.place.groups.length + u.place.reserve.toList.length }

/-- The size of the partition of a launch's units. -/
def LaunchInfo.size (l : LaunchInfo) : Nat := (l.spad + 4095) / 4096 * 4096

/-- Whether a core has room for a unit of a launch, or holds a victim that may be parked for it (R374, R376). -/
def coreOffers (s : State) (k : NodeKey) (cls : Nat) (n : Need) : Bool := hasRoom s n || (victimOn s k cls n.core).isSome

/-- One of a list: which one the manual leaves open (log 2). -/
def oneOf {α : Type} (s : State) (n : Nat) (xs : List α) : Option α := xs[Config.pick (s.free + n) % xs.length]?

/-- The clusters of a list from a place on, which the manual leaves open (log 2). -/
def fromOne (s : State) (xs : List Nat) : List Nat := xs.rotateLeft (Config.pick s.free % xs.length)

/-- Cores for a ready launch, among those that a test admits: in one cluster, or in whole clusters (R374). A class-0 launch takes clusters at the top level
first (R412). -/
def proposedCores (s : State) (admits : Nat → Bool) (k : NodeKey) (n : NodeRec) (r : NodeRun) (l : LaunchInfo) : Option (List Nat) :=
  let count := launchCores n
  let cls := agedClass (launchClass s k n) r.aged
  let open_ (core : Nat) : Bool := admits core && coreAllowed s k.cont n.press core && coreOffers s k cls { core := core, size := l.size, groups := 1 }
  let coresIn (cl : Nat) : List Nat := ((List.range 4).map fun j => 4 * cl + j).filter open_
  let each := Nat.min count 4
  let fit := (List.range 192).filter fun cl => each ≤ (coresIn cl).length
  let (top, low) := fit.partition fun cl => launchClass s k n == 0 && targetLevel (getCluster s cl) == 7
  let chosen := (fromOne s top ++ fromOne s low).take (if count ≤ 4 then 1 else count / 4)
  let cores := ((List.range 192).filter chosen.contains).flatMap fun cl => (coresIn cl).take each
  if cores.length = count ∧ placeable count then some cores else none

/-- The ready launches whose images have been read. -/
def readyKeys (s : State) : List NodeKey :=
  s.conts.flatMap fun c => (openJobs c.2).flatMap fun j => match j.phase with
    | none => []
    | some p => (p.nodes.zipIdx.filter fun x => x.1.status == .ready && x.1.launch.isSome).map fun x =>
        { cont := c.1, job := j.id, phase := p.index, node := x.2 }

/-- A ready launch on cores that it could take. -/
def readyProposal (s : State) (admits : Nat → Bool) (k : NodeKey) : Option Cand :=
  match nodeRec s k, findNode s k with
  | some n, some r => r.launch.bind fun l => (proposedCores s admits k n r l).map (readyCand s k n r)
  | _, _ => none

/-- A parked launch on the cores it left. -/
def parkedProposal (s : State) (admits : Nat → Bool) (k : NodeKey) : Option Cand :=
  let c := candOf s k
  if c.cores.all admits && (parkedUnits s k).all (fun uid => coreOffers s k c.cls (unitNeed s uid)) then some c else none

/-- The ready and the parked launches of some keys that can be placed on cores that a test admits. -/
def proposalsOf (s : State) (admits : Nat → Bool) (of : NodeKey → Bool) : List Cand :=
  ((readyKeys s).filter of).filterMap (readyProposal s admits) ++ ((parkedKeys s).filter of).filterMap (parkedProposal s admits)

/-- The ready and the parked launches that can be placed on cores that a test admits. -/
def proposals (s : State) (admits : Nat → Bool) : List Cand := proposalsOf s admits fun _ => true

/-- The cores that a decision for a set may give to a launch that is placed: those of the set, and those that issue from no slot. -/
def admitted (s : State) (cores : List Nat) (core : Nat) : Bool := cores.contains core || (issuingUnit s core).isNone

/-! ## Launches seated (R59, R60, R374) -/

/-- Units of a ready launch seated at places, in a state in which it has been chosen and given room: its parameter block is written at an address of the continuation that no
other block takes (R59), and its units become resident together (R374); the power policy follows a class-0 launch (R412). What keeps it from its seats leaves the state of
before the decision, or what it becomes: a bad exchange table ends the job (R373), and an access of the scheduler waits for its budget (R401). -/
def seatReady (s : State) (k : NodeKey) (j : Job) (n : NodeRec) (l : LaunchInfo) (places : List UnitPlace) (params : Word) (t : State) : Except State State :=
  let cores := places.map (·.core)
  if !(l.tables.all (tableSound cores l.size)) then .error (failNode s k 9)
  else if inParams s k.cont params.toNat l.block.length then .error s
  else match nodePlaces s k params .write l.block.length with
  | .wait u => .error u
  | .unmapped _ => .error s
  | .ok ps =>
    let s := meterPlaces (leaveQueue t (.node k)) (schedAgent (homeDie k.cont) k) ps
    let s := performBytes s (ps.zip l.block)
    let cls := launchClass s k n
    let ident : UnitIdent :=
      { key := k, gen := (getCont s k.cont).gen.toNat, graph := if j.op = 2 then 0 else j.graph, index := 0, size := cores.length,
        cls := cls, bind := (getCont s k.cont).bind, press := n.press, image := l.image, params := params,
        paramSize := l.block.length, clusters := (cores.map (· / 4)).eraseDups }
    let hist := match j.phase with | some p => startHist p k.node | none => []
    let s := measureImage s (getCont s k.cont).partition l.file
    let s := places.zipIdx.foldl (startUnit k l ident hist) s
    let s := modNode s k fun r => { r with status := .running }
    .ok (if cls = 0 then placedTop s k.cont else s)

/-- The units of a parked launch seated at places on the cores they left (R374); the restore waits for its budget (R401). -/
def seatParked (s : State) (k : NodeKey) (places : List UnitPlace) (t : State) : Except State State :=
  let us := parkedUnits s k
  if us.isEmpty || us.length != places.length || !((us.zip places).all fun x => canUnpark t x.1 x.2) then .error s
  else match contextStop s (.context k) ((candOf s k).cls == 0) (coresOf s us) with
    | some x => .error (enterQueue s (.context k) x)
    | none => .ok ((us.zip places).foldl (fun s x => unparkUnit s x.1 x.2) (leaveQueue t (.context k)))

/-- A place for a unit on a core that has room for it. Which slot, base and row group the manual leaves open (log 2). -/
def seatOn (t : State) (n : Need) (i : Nat) : Option UnitPlace :=
  match oneOf t (3 * i + 1) ((List.range 8).filter (slotFree t n.core)),
      oneOf t (3 * i + 2) (((List.range 96).map (16384 * ·)).filter fun b => partitionFits t n.core b n.size),
      oneOf t (3 * i + 3) ((List.range 16).filter fun g => !((takenGroups t n.core).contains g)) with
  | some slot, some base, some group => some { core := n.core, slot := slot, base := base, group := group }
  | _, _, _ => none

/-- Places for what the units of a launch need, one after another. -/
def seatsFor (t : State) (needs : List Need) : Option (List UnitPlace) := needs.zipIdx.mapM fun x => seatOn t x.1 x.2

/-- What the units of a launch need on the cores of a candidate. -/
def candNeeds (s : State) (c : Cand) : List Need :=
  let us := parkedUnits s c.key
  if !us.isEmpty then us.map (unitNeed s)
  else match (findNode s c.key).bind (·.launch) with
    | some l => c.cores.map fun core => { core := core, size := l.size, groups := 1 }
    | none => []

/-- A candidate that a decision has chosen is placed: victims make room, its units take places (R374, R376). The address of a ready launch's parameter block is open (log 5). -/
def seat (s : State) (c : Cand) (t : State) : Except State State :=
  match makeRoom c.key c.cls (candNeeds s c) (residentKeys s).length t with
  | none => .error s
  | some t =>
    match seatsFor t (candNeeds s c) with
    | none => .error s
    | some places =>
      let t := { t with free := t.free + 3 * places.length + 1 }
      if !(parkedUnits s c.key).isEmpty then seatParked s c.key places t
      else match findJob s c.key.cont c.key.job, nodeRec s c.key, (findNode s c.key).bind (·.launch) with
        | some j, some n, some l => seatReady s c.key j n l places (Config.freeValue t.free) { t with free := t.free + 1 }
        | _, _, _ => .error s

/-- Chosen candidates placed one after another; the first that cannot be, with the state that this leaves. -/
def seatAll (s : State) : List Cand → State → Except (Cand × State) State
  | [], t => .ok t
  | c :: r, t =>
    match seat s c t with
    | .error u => .error (c, u)
    | .ok t => seatAll s r t

/-- A launch that has come back with a unit whose state fails a check: that unit stops with cause 12, the landing buffer's entry in `TVAL` (R347, R357). -/
def stopFlawed (us : List Nat) (t : State) : State :=
  match us.findSome? fun uid => (restoreFlaw (getUnit t uid)).map fun x => (uid, x) with
  | some (uid, q, slot) => stopUnit t uid q 12 (BitVec.ofNat 64 slot) 0 false none
  | none => t

/-! ## Decisions carried out (R375) -/

/-- A decision for a set of cores, carried out: the launches that it chooses issue, those of them that are ready or parked once they are placed. One that cannot be placed after all takes no part, and
the choice is made without it. -/
def carryOut (cores : List Nat) (yielder : Option NodeKey) : Nat → List Cand → State → State
  | 0, _, s =>
    let d := decision s cores yielder []
    d.apply d.state
  | n + 1, more, s =>
    let d := decision s cores yielder more
    match seatAll s (d.first.filter more.contains) d.state with
    | .error (c, u) => carryOut cores yielder n (more.erase c) u
    | .ok t => ((d.first.filter more.contains).map fun c => parkedUnits s c.key).foldl (fun t us => stopFlawed us t) (d.apply t)

/-- A decision among the resident launches and given ready and parked ones, carried out. -/
def decideAmong (s : State) (cores : List Nat) (yielder : Option NodeKey) (more : List Cand) : State :=
  carryOut cores yielder more.length more (if more.isEmpty then s else { s with free := s.free + 1 })

/-- A decision for a set of cores, carried out (R375). -/
def decideCores (s : State) (cores : List Nat) (yielder : Option NodeKey) : State :=
  decideAmong s cores yielder ((proposals s (admitted s cores)).filter fun c => c.cores.any cores.contains)

/-- The decision of a tick: for every core that holds a unit, or on which a ready or parked launch can be placed (R375). -/
def tickDecision (s : State) : State :=
  let more := proposals s fun _ => true
  decideAmong s ((busyCores s ++ more.flatMap (·.cores)).eraseDups) none more

/-- A decision when a launch has just become blocked (R375). -/
def decideBlocked (old s : State) (uid : Nat) : State :=
  let k := (getUnit s uid).ident.key
  if (getUnit s uid).alive && launchBlocked s k && !(launchBlocked old k) then
    decideCores s ((unitsOf s k).map fun v => (getUnit s v).place.core) none
  else s

/-- Whether a ready launch has class 0. -/
def topReady (s : State) (k : NodeKey) : Bool := (nodeRec s k).any fun n => launchClass s k n == 0

/-- A class-0 launch that has become ready starts a decision for the cores it can take (R375). -/
def decideReady (old s : State) : State :=
  ((readyKeys s).filter fun k => topReady s k && !((readyKeys old).contains k)).foldl (fun s k =>
    match readyProposal s (fun _ => true) k with
    | some c => decideCores s c.cores none
    | none => s) s

/-! ## Launches placed and parked by an event -/

/-- A launch takes its cores: a decision among it, the resident launches and those that can be placed there chooses it, and victims make room where there is none (R374 to
R377). -/
def takeCores (s : State) (me : Cand) (needs : List Need) : Option (Decision × State) :=
  let others := (proposalsOf s (admitted s me.cores) fun k => k != me.key).filter fun c => c.cores.any me.cores.contains
  let d := decision s me.cores none (me :: others)
  if d.first.contains me then (makeRoom me.key me.cls needs (residentKeys s).length d.state).map fun t => ({ d with first := d.first.filter fun c => !(others.contains c) }, t)
  else none

/-- A parked launch chosen to run again, with room made for it on the cores it left (R374, R376). -/
def resuming (s : State) (k : NodeKey) (places : List UnitPlace) : Option (Decision × State) :=
  let us := parkedUnits s k
  if us.isEmpty || us.length != places.length || !((us.zip places).all fun x => (getUnit s x.1).place.core == x.2.core) then none
  else takeCores s (candOf s k) (us.map (unitNeed s))

/-- A parked launch that a decision chooses becomes resident again on its cores and issues. -/
def unparkGang (s : State) (k : NodeKey) (places : List UnitPlace) : State :=
  match resuming s k places with
  | none => s
  | some (d, t) => match seatParked s k places t with
    | .error u => u
    | .ok t => stopFlawed (parkedUnits s k) (d.apply t)

/-- A launch parked as a gang (R345): not while the press runs a command of it, nor when its state fits nowhere; the save waits for its budget (R401). The cores it leaves choose
again. -/
def parkGang (s : State) (k : NodeKey) : State :=
  if !(parkable s k) then s
  else match saveStop s k with
  | some x => enterQueue s (.context k) x
  | none =>
    let us := residentOf s k
    let cores := coresOf s us
    let running := us.any fun uid => (getCore s (getUnit s uid).place.core).issuing == some (getUnit s uid).place.slot
    let s := parkAway s k
    if running then decideCores s cores none else s

/-- A launch whose save or restore has waited for a budget goes on with it, where it still parks or comes back (R401). -/
def contextAgain (s : State) (k : NodeKey) : State :=
  if (parkedKeys s).contains k then
    match parkedProposal s (admitted s (candOf s k).cores) k with
    | some c => decideCores s c.cores none
    | none => leaveQueue s (.context k)
  else if mayPark s k then parkGang s k
  else leaveQueue s (.context k)

/-- A ready launch chosen to run at places, with room made for it there (R374 to R377, R412). -/
def placing (s : State) (k : NodeKey) (n : NodeRec) (r : NodeRun) (l : LaunchInfo) (places : List UnitPlace) : Option (Decision × State) :=
  let cores := places.map (·.core)
  if !(legalPlacement cores) || cores.length != launchCores n || !(cores.all (coreAllowed s k.cont n.press)) || !(topFirst s k n l.size cores) then none
  else (takeCores s (readyCand s k n r cores) (cores.map fun c => { core := c, size := l.size, groups := 1 })).bind fun x =>
    if places.all (placeFits x.2 l.size) then some x else none

/-- A ready launch is placed (R374): a decision chooses it for its cores (R375), victims make room where there is none (R376), and its units are seated and issue. A launch that
is not chosen or has no room changes nothing. -/
def placeLaunch (s : State) (k : NodeKey) (places : List UnitPlace) (params : Word) : State :=
  let s := prepareLaunch s k
  match findJob s k.cont k.job, nodeRec s k, findNode s k with
  | some j, some n, some r =>
    match r.launch with
    | none => s
    | some l =>
      if r.status != .ready then s
      else
        match placing s k n r l places with
        | none => s
        | some (d, t) =>
          match seatReady s k j n l places params t with
          | .error u => u
          | .ok t => d.apply t
  | _, _, _ => s

/-- A launch parked for a reason that the manual gives. -/
def parkAsked (s : State) (k : NodeKey) : State := if mayPark s k then parkGang s k else s

end Sys2Proof.Machine
end

