-- ==== Sys2Proof/Machine/SchedEvents.lean ====
section
/-!
DEFINITION. The events of the schedulers (R341, R365 to R377): ticks, parks, placements, the progress of nodes and phases.
-/

namespace Sys2Proof.Machine

open Sys2Proof

/-- The Trellis time stamp, a 64-bit count, moved on to a time that an event carries (R427); it never moves back. -/
def atTime (s : State) (now : Nat) : State := if now < 2 ^ 64 then { s with stamp := Nat.max s.stamp now } else s

/-- `SCHED_TICK`: a decision for every core that holds a unit, or on which a ready or parked launch can be placed (R375). -/
def execSchedTick (now : Nat) (s : State) : Host.Outcome State Fault Refusal :=
  .next (tickDecision (atTime s now))

/-- `PARK`: the launch of a unit is parked as a gang, as its continuation has asked or because another launch needs a row group of it (R201, R332, R341,
R345); a launch that gives its room to one that is placed is parked with that placement (R376). -/
def execPark (u : Nat) (s : State) : Host.Outcome State Fault Refusal :=
  .next (parkAsked s (getUnit s u).ident.key)

/-- `UNPARK`: the launch of a parked unit, chosen by a decision, is resident again (R332, R341, R357). -/
def execUnpark (u : Nat) (places : List UnitPlace) (s : State) : Host.Outcome State Fault Refusal :=
  .next (unparkGang s (getUnit s u).ident.key places)

/-- `LAUNCH_PLACE`: a ready launch's gang is placed (R374), with its parameter block at an address of its continuation (R59, R60). -/
def execLaunchPlace (k : NodeKey) (places : List UnitPlace) (params : Word) (s : State) : Host.Outcome State Fault Refusal :=
  .next (placeLaunch s k places params)

/-- What the completion of a launch releases: all that its units' agents did (R366, R370). -/
def launchRel (s : State) (k : NodeKey) : List Release :=
  [{ agent := schedAgent (homeDie k.cont) k, scope := 5
     hist := agentsHist s fun a => a.kind ≤ 8 && a.cont == k.cont && a.launch == launchId k }]

/-- `NODE_COMPLETE`: END completes, or a LAUNCH node whose units are all complete (R21, R365, R366). -/
def execNodeComplete (k : NodeKey) (s : State) : Host.Outcome State Fault Refusal :=
  .next (match nodeRec s k, findNode s k with
    | some n, some r =>
      if r.status != .running then s
      else if n.kind = 4 then completeNode s k []
      else if n.kind = 0 ∧ launchCounter n r = 0 then completeNode s k (launchRel s k)
      else s
    | _, _ => s)

/-- A running node of a kind, for its own event. -/
def onNode (s : State) (k : NodeKey) (kind : Nat) (f : NodeRec → NodeRun → State) : State :=
  match nodeRec s k, findNode s k with
  | some n, some r => if r.status == .running && n.kind == kind then f n r else s
  | _, _ => s

/-- `WAIT_EVALUATE` (R367). -/
def execWaitEvaluate (k : NodeKey) (s : State) : Host.Outcome State Fault Refusal :=
  .next (onNode s k 1 fun n _ =>
    match (findJob s k.cont k.job).bind (·.phase) with
    | some p => evaluateWait s k p n
    | none => s)

/-- `SIGNAL_NODE` (R368). -/
def execSignalNode (k : NodeKey) (s : State) : Host.Outcome State Fault Refusal :=
  .next (onNode s k 2 fun n _ => nodeSignal s k n.f08 n.f10 fun s => completeNode s k (schedRel s k))

/-- `COPY_NODE_COMPLETE`: a COPY node goes on by the rest of its present 4 KiB and completes with its last byte, or waits for a page (R368, R369). -/
def execCopyNodeComplete (k : NodeKey) (s : State) : Host.Outcome State Fault Refusal :=
  .next (onNode s k 3 fun n r => copyNode s k n r)

/-- `PHASE_PERIOD_TIMER`: the target time of a job's next phase has come (R371). -/
def execPhasePeriodTimer (cont job : Nat) (now : Nat) (s : State) : Host.Outcome State Fault Refusal :=
  .next (pokeJob (atTime s now) cont job)

/-- Whether a launch issues on some core. -/
def issuing (s : State) (k : NodeKey) : Bool := (unitsOf s k).any fun uid => issuesOn s k (getUnit s uid).place.core

/-- `AGING_EXPIRE`: a ready launch of class 1 to 3 that has not run for 20 ms takes an effective class one lower until it runs (R377). -/
def execAgingExpire (k : NodeKey) (now : Nat) (s : State) : Host.Outcome State Fault Refusal :=
  let s := atTime s now
  .next (match nodeRec s k, findNode s k with
    | some n, some r =>
      if n.kind == 0 && (r.status == .ready || r.status == .running) && !(issuing s k) && r.idleAt + 20000000 ≤ s.stamp then
        modNode s k fun r => { r with aged := true }
      else s
    | _, _ => s)

end Sys2Proof.Machine
end

