-- ==== Sys2Proof/Machine/Power.lean ====
section
/-!
DEFINITION. Energy and power (R408 to R418): the charging of estimates, refill boundaries, the arbiter with the bias policy, moves of the body bias, thermal
headroom, ballast, and the power status word.
-/

namespace Sys2Proof.Machine

open Sys2Proof

/-! ## Accounts (R408 to R410) -/

/-- Energy in pJ charged to a continuation: whole microjoules count, the rest is kept (R375, R409, R410). -/
def chargeCont (s : State) (cont pj : Nat) : State :=
  modCont s cont fun c =>
    let e := c.energy
    let n := (e.pj + pj) / 1000000
    let left := if e.quota = 0 then 0 else e.left - n
    { c with energy := { e with
        charged := e.charged + n, pj := (e.pj + pj) % 1000000, left := left, deficit := e.deficit - n
        exhausted := e.exhausted || (decide (e.quota ≠ 0) && decide (left ≤ 0)) } }

/-- Energy in pJ charged to the device's overhead account (R409). -/
def chargeOverhead (s : State) (pj : Nat) : State :=
  { s with power := { s.power with
      overhead := s.power.overhead + (s.power.overheadPj + pj) / 1000000, overheadPj := (s.power.overheadPj + pj) % 1000000 } }

/-- Energy in pJ charged to a unit and its continuation. -/
def chargeUnit (s : State) (uid pj : Nat) : State :=
  modUnit (chargeCont s (getUnit s uid).ident.key.cont pj) uid fun u =>
    { u with energy := u.energy + (u.energyPj + pj) / 1000000, energyPj := (u.energyPj + pj) % 1000000 }

/-- Energy in pJ counted for a cluster, as the arbiter looks at it (R415). -/
def countCluster (s : State) (cl pj : Nat) : State := modCluster s cl fun c => { c with charged := c.charged + pj }

/-- The bias level whose energies a cluster has: the lower of two during a move (R26, R408). -/
def energyLevel (s : State) (cl : Nat) : Nat :=
  let c := getCluster s cl
  Nat.min c.bias (targetLevel c)

/-- The energy in pJ of counted activity at a bias level (R408). -/
def activityPj (level : Nat) (a : Activity) : Nat :=
  a.press * Config.eventEnergy level 0 + a.vector * Config.eventEnergy level 1 + a.scalar * Config.eventEnergy level 2 + a.onChip * Config.eventEnergy level 3 +
    a.elems * Config.eventEnergy level 4 + a.hbm * Config.eventEnergy level 5 + a.cellar * Config.eventEnergy level 6

/-- The counters of an account converted and charged (R408, R409). -/
def chargeActivity (s : State) (x : Account × Activity) : State :=
  match x.1 with
  | .unit uid =>
    let cl := (getUnit s uid).place.core / 4
    let pj := activityPj (energyLevel s cl) x.2
    countCluster (chargeUnit s uid pj) cl pj
  | .cont cont core => chargeCont s cont (activityPj (energyLevel s (core / 4)) x.2)
  | .overhead core => chargeOverhead s (activityPj (energyLevel s (core / 4)) x.2)

/-- A core's leakage of 1 µs: its cycles at the effective clock. It is the issuing slot's, or the overhead account's where no slot issues (R408, R409). -/
def chargeLeakage (s : State) (core : Nat) : State :=
  let cl := core / 4
  let pj := Config.leakage (energyLevel s cl) * effectiveClock s cl
  let s := countCluster s cl pj
  match issuingUnit s core with
  | some uid => chargeUnit s uid pj
  | none => chargeOverhead s pj

/-- Ballast of a die in the last µs: its energy is open, it goes to the overhead account and counts against the next period's cap, and it may have come to its end
(R409, R416; log 9). -/
def chargeBallast (s : State) (die : Nat) : State :=
  if !(getDie s die).ballast then s
  else
    let n := (Config.freeValue s.free).toNat
    let stay := (Config.freeValue (s.free + 1)).getLsbD 0
    let s := chargeOverhead { s with free := s.free + 2 } (1000000 * n)
    modDie { s with power := { s.power with ballast := s.power.ballast + n } } die fun d => { d with ballast := stay }

/-- Slot switches, parks and arbitration go to the overhead account, which takes what they cost (R409; log 9). -/
def chargeSwitches (s : State) : State := chargeOverhead { s with free := s.free + 1 } (Config.freeValue s.free).toNat

/-- The cores that issue for an exhausted continuation: its units stop as gangs (R410). -/
def exhaustedCores (s : State) : List Nat :=
  (List.range 768).filter fun core => match issuingUnit s core with
    | some uid => exhausted s (getUnit s uid).ident.key
    | none => false

/-- The estimate of the last microsecond charged to its accounts, with the counters back at 0 (R408, R409). -/
def chargeEstimate (s : State) : State :=
  let s := s.meter.acts.foldl chargeActivity s
  let s := (List.range 768).foldl chargeLeakage { s with meter := { s.meter with acts := [] } }
  chargeSwitches ([0, 1, 2, 3].foldl chargeBallast s)

/-- `ENERGY_ESTIMATE_TICK`: units, continuations and the overhead account take what the last microsecond's estimate charges to them; units of a
continuation whose quota is exhausted stop issuing, as gangs (R408 to R410). -/
def execEnergyEstimateTick (now : Nat) (s : State) : Host.Outcome State Fault Refusal :=
  let s := chargeEstimate (atTime s now)
  let cores := exhaustedCores s
  .next (if cores.isEmpty then s else Sys2Proof.Machine.decideCores s cores none)

/-- The refill period of an energy setting in ms: 0 is read as 10 (R410). -/
def settingPeriod (w : Word) : Nat :=
  let p := bits w.toNat 40 16
  if p = 0 then 10 else p

/-- The quota of an energy setting in µJ (R410). -/
def settingQuota (w : Word) : Nat := bits w.toNat 0 40

/-- An account at a refill boundary (R410). -/
def refill (e : EnergyState) : EnergyState :=
  let e := match e.pending with
    | some w => { e with period := settingPeriod w, quota := settingQuota w, pending := none }
    | none => e
  let left := (e.quota : Int) + min e.left 0
  { e with charged := 0, left := left, exhausted := decide (e.quota ≠ 0) && decide (left ≤ 0) }

/-- `REFILL_BOUNDARY`: a continuation's account at a multiple of its period (R410). -/
def execRefillBoundary (cont : Nat) (now : Nat) (s : State) : Host.Outcome State Fault Refusal :=
  let s := atTime s now
  .next (if (getCont s cont).live ∧ s.stamp % (1000000 * (getCont s cont).energy.period) = 0 then
      modCont s cont fun c => { c with energy := refill c.energy }
    else s)

/-! ## Caps and floors (R417) -/

/-- The effective module cap in W. -/
def effectiveCap (p : PowerState) : Nat := Nat.max 420 (Nat.min p.capSet 3200)

/-- The sum of a list. -/
def total (xs : List Nat) : Nat := xs.foldl (· + ·) 0

/-- A change of cap or floors takes effect; what the partitions get depends on the fixed draw (R417). -/
def applyCaps (p : PowerState) (fixed : Nat) : PowerState :=
  let (changed, p) := match p.pendingCap with
    | some (c, fs) => (true, { p with capSet := c, floors := fs, pendingCap := none })
    | none => (false, p)
  let room := effectiveCap p - fixed
  let short := decide (room < total p.floors)
  { p with
    effFloors := if short then p.floors.map fun f => f * room / total p.floors else p.floors
    flrb := short
    breaches := if short && changed then p.breaches + 1 else p.breaches }

/-! ## The arbiter (R400, R415) -/

/-- A cluster's part in µJ of its partition's effective floor for 1 ms. DESIGN CHOICE (log 9): its clusters share the floor equally, to the microjoule; the parts
make the whole floor. -/
def floorPart (s : State) (cl : Nat) : Nat :=
  match (getCluster s cl).partition with
  | none => 0
  | some i =>
    let mine := (List.range 192).filter fun k => (getCluster s k).partition == some i
    let before := (mine.filter (· < cl)).length
    let floor := 1000 * s.power.effFloors[i]?.getD 0
    floor * (before + 1) / mine.length - floor * before / mine.length

/-- Shares taken in order, each at most what is left: the shares and what is left. -/
def serve (need : Nat → Nat) : List Nat → Nat → Tab Nat Nat × Nat
  | [], left => ([], left)
  | k :: r, left =>
    let n := Nat.min (need k) left
    let (t, rest) := serve need r (left - n)
    ((k, n) :: t, rest)

/-- What one of a table's keys has. -/
def shareIn (t : Tab Nat Nat) (k : Nat) : Nat := (tabGet t k).getD 0

/-- What the arbiter gives out for a period, in µJ: to each cluster and to each HBM stack. -/
structure Shares where
  clusters : Tab Nat Nat
  hbm      : Tab Nat Nat

/-- The controller of an HBM stack. -/
def stackController (i : Nat) : Nat := 6 * (i / 2) + i % 2

/-- The arbiter's division (R415): the cap less the fixed draw and the last period's ballast; the floors of the partitions; class-0 clusters and walker traffic; and the
rest between the compute dies and the stacks in proportion to the last period's charged energy and the queued demand. What the demands are is open (log 9). -/
def divide (s : State) (period : Nat) : Shares :=
  let room := 1000 * effectiveCap s.power - 1000 * Config.fixedDraw period - s.power.ballast
  let all := List.range 192
  let eight := List.range 8
  let floors := all.map fun cl => (cl, floorPart s cl)
  let left := room - total (floors.map Prod.snd)
  let wants (cl : Nat) : Nat := Config.clusterDemand period cl - shareIn floors cl
  let (first, left) := serve wants (all.filter (holdsClass0 s)) left
  let (walker, left) := serve (Config.walkerDemand period) eight left
  let computeW := (all.map fun cl => (getCluster s cl).charged).foldl (· + ·) 0 / 1000000 + Config.queuedDemand period 8
  let stackW (i : Nat) : Nat := 16 * spentOf s (stackController i) / 1000000 + Config.queuedDemand period i
  let whole := computeW + (eight.map stackW).foldl (· + ·) 0
  let (rest, _) := serve (fun cl => wants cl - shareIn first cl) all (left * computeW / whole)
  { clusters := all.map fun cl => (cl, shareIn floors cl + shareIn first cl + shareIn rest cl)
    hbm := eight.map fun i => (i, shareIn walker i + left * stackW i / whole) }

/-- The grants that the arbiter may give: the multiples of 50 MHz from 1,600 down to 400. -/
def grantSteps : List Nat := (List.range 25).map fun i => 1600 - 50 * i

/-- The highest grant whose estimated energy at a cluster's level fits its share; the lowest where none does. -/
def grantFor (cl level share : Nat) : Nat := (grantSteps.find? fun g => Config.clusterEnergy cl level g ≤ share).getD 400

/-- A cluster at an arbitration boundary: its grant (R415) and its level (R412). -/
def arbitrateCluster (shares : Tab Nat Nat) (kept : List Nat) (s : State) (cl : Nat) : State :=
  let s := modCluster s cl fun c => { c with grant := grantFor cl (targetLevel c) (shareIn shares cl), charged := 0 }
  let s := setLevel s cl (policyLevel s cl (kept.contains cl))
  let ran := clusterIssues s cl
  modCluster s cl fun c => { c with ran := ran }

/-- The budgets of a die's six controllers for a period: the share over the energy of a byte, 16 pJ for HBM and 25 pJ for the cellar, at most the full rate (R400,
R415). -/
def dieBudgets (hbm : Tab Nat Nat) (period d : Nat) : Tab Nat Nat :=
  (List.range 6).map fun k =>
    (k, Nat.min (fullRate k) (if k < 2 then 1000000 * shareIn hbm (2 * d + k) / 16 else 1000000 * Config.cellarShare period (4 * d + k - 2) / 25))

/-- `ARBITER_PERIOD`: a 1 ms boundary of the time stamp (R400, R412, R415, R417, R418). -/
def execArbiterPeriod (now : Nat) (s : State) : Host.Outcome State Fault Refusal :=
  let s := atTime s now
  if s.stamp % 1000000 ≠ 0 then .next s
  else
    let period := s.stamp / 1000000
    let above := (Config.freeValue s.free).getLsbD 0
    let p := applyCaps s.power (Config.fixedDraw period)
    let s := { s with free := s.free + 1, power := { p with ovr := p.ovr || above } }
    let x := divide s period
    let kept := keptClusters s
    let s := (List.range 192).foldl (arbitrateCluster x.clusters kept) s
    let s := { s with power := { s.power with ballast := 0 }, meter := { s.meter with spent := [] } }
    .next ((List.range 4).foldl (fun s d => modDie s d fun k => { k with budgets := dieBudgets x.hbm period d }) s)

/-- `BIAS_MOVE_COMPLETE`: a cluster has reached the level it moves to (R26, R411). -/
def execBiasMoveComplete (cl : Nat) (s : State) : Host.Outcome State Fault Refusal :=
  .next (match (getCluster s cl).moving with
    | some l => modCluster s cl fun c => { c with bias := l, moving := none }
    | none => s)

/-! ## Heat (R413) -/

/-- `THERMAL_HEADROOM_LOST`: a cluster within 5 °C of the junction limit (R413). -/
def execThermalHeadroomLost (cl : Nat) (s : State) : Host.Outcome State Fault Refusal :=
  .next (modCluster s cl fun c => { c with headroom := false })

/-- `THERMAL_HEADROOM_REGAINED`: a cluster 10 °C or more below it (R413). -/
def execThermalHeadroomRegained (cl : Nat) (s : State) : Host.Outcome State Fault Refusal :=
  .next (modCluster s cl fun c => { c with headroom := true, atLimit := false })

/-- `THERMAL_STEP_DOWN`: a cluster at the limit goes down one level, and is a local limit of the device's group until it is no longer there (R413, R420). -/
def execThermalStepDown (cl : Nat) (s : State) : Host.Outcome State Fault Refusal :=
  let s := modCluster s cl fun c => { c with headroom := false, atLimit := true }
  .next (setLevel s cl (targetLevel (getCluster s cl) - 1))

/-! ## Ballast (R416) -/

/-- `BALLAST_START`: the presses of a die run ballast operations, which write nothing visible, until an estimate finds their end (R416). -/
def execBallastStart (die : Nat) (s : State) : Host.Outcome State Fault Refusal :=
  .next (modDie s die fun d => { d with ballast := true })

/-- `BALLAST_SHED`: a die sheds its ballast after 2 µs at the limit, and `BLST` is set (R416, R418). -/
def execBallastShed (die : Nat) (s : State) : Host.Outcome State Fault Refusal :=
  .next (if (getDie s die).ballast then
      { modDie s die (fun d => { d with ballast := false }) with power := { s.power with blst := true } }
    else s)

/-! ## The power status word (R418) -/

/-- The power status word. -/
def powerWord (s : State) : Word :=
  let p := s.power
  BitVec.ofNat 64 (s.group.ceiling % 65536 * 2 ^ 48 + p.trip.toNat * 2 ^ 32 + effectiveCap p * 2 ^ 20 + total p.effFloors % 4096 * 2 ^ 8 +
    p.blst.toNat * 8 + p.flrb.toNat * 4 + (decide (p.capSet < 420)).toNat * 2 + p.ovr.toNat)

/-- The power status after a write of ones to its bits that are cleared so. -/
def clearPower (p : PowerState) (w : Word) : PowerState :=
  { p with trip := p.trip &&& ~~~(w.extractLsb' 32 4), blst := p.blst && !(w.getLsbD 3), ovr := p.ovr && !(w.getLsbD 0) }

end Sys2Proof.Machine
end

