-- ==== Sys2Proof/Machine/Trellis.lean ====
section
/-!
DEFINITION. The collective group with its clock ceiling (R419 to R423, R435), and the Trellis ports (R424 to R426, R435).
-/

namespace Sys2Proof.Machine

open Sys2Proof

/-- The state with the group changed. -/
def modGroup (s : State) (f : GroupState → GroupState) : State := { s with group := f s.group }

/-- The group with a peer changed. -/
def modPeer (g : GroupState) (m : Nat) (f : Peer → Peer) : GroupState :=
  match tabGet g.peers m with
  | some p => { g with peers := tabPut g.peers m (f p) }
  | none => g

/-! ## The ceiling (R420 to R423) -/

/-- The value of a limit with its schedule at a stamp. -/
def limitAt (limit : Nat) (next : Option (Nat × Nat)) (t : Nat) : Nat :=
  match next with
  | some (l, at0) => if at0 ≤ t then l else limit
  | none => limit

/-- Whether a schedule has come due. -/
def due (next : Option (Nat × Nat)) (t : Nat) : Bool :=
  match next with
  | some (_, at0) => at0 ≤ t
  | none => false

/-- A peer at a stamp: one that left 200 µs ago is in no group, its schedule is applied, and a joiner whose limit counts becomes a member (R420, R421). -/
def peerAt (t : Nat) (p : Peer) : Peer :=
  let p := if p.state = 3 ∧ (p.leaveAt.any fun l => l + 200000 ≤ t) then { p with state := 6 } else p
  if due p.next t then { p with limit := limitAt p.limit p.next t, next := none, state := if p.state = 1 then 2 else p.state } else p

/-- Whether a peer's limit counts at a stamp (R421): a member's, a leaving or a silent one's, an evicted one's until its stamp, and that of one that has left, since a rise may
be scheduled only for 200 µs after it has. DEDUCED (log 87): the rise that this allows is taken at that stamp. -/
def peerCounts (t : Nat) (p : Peer) : Bool :=
  match p.state with
  | 2 => true
  | 3 => true
  | 4 => true
  | 5 => (match p.evictAt with | some e => t < e | none => false)
  | 6 => (match p.leaveAt with | some l => t < l + 400000 | none => false)
  | _ => false

/-- Whether the device runs at the group's ceiling: as a member, or while it leaves (R421). -/
def inGroup (g : GroupState) : Bool := g.state == 2 || g.state == 3 || g.state == 4

/-- Whether the ceiling is held (R422, R423): a member is silent, or a silent one's eviction or a breach is less than 200 µs past. -/
def held (g : GroupState) (t : Nat) : Bool := (g.peers.any fun p => p.2.state == 4) || t < g.holdTill || t < g.noRise

/-- The minimum of the limits that count at a stamp (R420). -/
def lowestLimit (g : GroupState) (t : Nat) : Nat :=
  (g.peers.filter fun p => peerCounts t p.2).foldl (fun n p => Nat.min n p.2.limit) g.limit

/-- The group at a stamp: schedules applied, the ceiling moved as far as it may. A device that is not in the group keeps its ceiling. -/
def groupAt (t : Nat) (g : GroupState) : GroupState :=
  let g := if due g.next t then
      { g with limit := limitAt g.limit g.next t, next := none, state := if g.state = 1 then 2 else g.state }
    else g
  let g := { g with peers := g.peers.map fun p => (p.1, peerAt t p.2) }
  if !(inGroup g) then g
  else
    let n := lowestLimit g t
    { g with ceiling := if g.ceiling < n ∧ held g t then g.ceiling else n }

/-- `CEILING_STAMP`: the limits scheduled for a stamp take effect (R420, R421, R423). -/
def execCeilingStamp (now : Nat) (s : State) : Host.Outcome State Fault Refusal :=
  .next (let s := atTime s now; modGroup s (groupAt s.stamp))

/-! ## Heartbeats (R419, R421) -/

/-- The lowest of two limits, a multiple of 25 MHz from 400 to 1,600 (R419). -/
def lowerLimit (a b : Nat) : Nat := Nat.max 400 (Nat.min a (b / 25 * 25))

/-- The thermal limit: the lowest frequency of a cluster whose sensor has reached the limit (R413, R419). -/
def thermalLimit (s : State) : Nat :=
  (s.clusters.filter fun p => p.2.atLimit).foldl (fun n p => lowerLimit n (biasMHz (targetLevel p.2))) 1600

/-- The local limit (R419): the lowest of the thermal limit, the clock that the effective cap allows and the limit that system software has set. -/
def localLimit (s : State) : Nat := lowerLimit (lowerLimit (thermalLimit s) (Config.capClock (effectiveCap s.power))) s.group.soft

/-- A limit that system software sets, or 1,600 for none (R419). No rule says by which operation: one may have set it before any heartbeat (log 9). -/
def softLimit (v : Word) : Nat := 400 + 25 * (v.toNat % 49)

/-- The group as a heartbeat announces it: a joiner announces its limit, a change of the limit is scheduled 200 µs ahead, and a member may announce that it
leaves (R420, R421). -/
def announce (g : GroupState) (now limit : Nat) (w : Word) : GroupState :=
  let g := { g with seq := g.seq + 1 }
  let g := if g.next.isNone ∧ (g.state = 1 ∨ limit ≠ g.limit) then { g with next := some (limit, now + 200000) } else g
  if g.state = 2 ∧ w.getLsbD 0 then { g with state := 3, leaveAt := some (now + 200000) } else g

/-- `HEARTBEAT_SEND`: every 20 µs a device of a group sends a heartbeat (R419). -/
def execHeartbeatSend (now : Nat) (s : State) : Host.Outcome State Fault Refusal :=
  let s := atTime s now
  .next (if s.stamp % 20000 = 0 ∧ (s.group.state = 1 ∨ s.group.state = 2 ∨ s.group.state = 3) then
      let t := modGroup { s with free := s.free + 2 } fun g => { g with soft := softLimit (Config.freeValue s.free) }
      modGroup t fun g => announce g s.stamp (localLimit t) (Config.freeValue (s.free + 1))
    else s)

/-- A lower limit of a member applied at once; the ceiling does not rise for 200 µs (R422). -/
def breach (g : GroupState) (limit now : Nat) : GroupState :=
  { g with ceiling := Nat.min g.ceiling limit, noRise := now + 200000 }

/-- A breach message of a member (R422). -/
def memberBreach (g : GroupState) (m limit now : Nat) : GroupState :=
  let g := modPeer g m fun p => { p with limit := limit, next := none }
  if inGroup g then breach g limit now else g

/-- The peer that a heartbeat shows: a silent member that is heard again is a member; one that leaves announced it 200 µs ahead when it was first heard leaving
(R421). -/
def heardPeer (hb : Heartbeat) (state now : Nat) (old : Option Peer) : Peer :=
  { state := state, seq := hb.seq, limit := hb.limit, next := hb.next, missed := 0, evictAt := none
    leaveAt := if state = 3 then some ((old.bind (·.leaveAt)).getD (now + 200000)) else none }

/-- `HEARTBEAT_RECEIVE` (R419, R421, R422): an evicted member's heartbeats count no more, until it probes or joins again, as it does only after a reset of its group
state. -/
def execHeartbeatReceive (hb : Heartbeat) (now : Nat) (s : State) : Host.Outcome State Fault Refusal :=
  let s := atTime s now
  .next (if s.group.state = 6 ∨ s.group.state = 5 then s
    else
      let old := tabGet s.group.peers hb.member
      let st := old.map (·.state)
      if st = some 5 ∧ 2 ≤ hb.state then s
      else
        let s := modGroup s fun g => { g with peers := tabPut g.peers hb.member (heardPeer hb (if st = some 4 then 2 else hb.state) s.stamp old) }
        if hb.breach then modGroup s fun g => memberBreach g hb.member hb.limit s.stamp else s)

/-- Whether the ranks that a collective command needs hold a device. -/
def needs (s : State) (c : EngCmd) (m : Nat) : Bool :=
  (neededRanks s c).any fun r => (((colMembers s c.ra).getD { ranks := [], stamp := 0 }).ranks[r]?) == some m

/-- The collective commands that involve a member fail with member-silent (R423, R433). -/
def silence (s : State) (m : Nat) : State :=
  [0, 1, 2, 3].foldl (fun t d => modDie t d fun k => { k with
    coll := k.coll.map fun x => if needs s x.cmd m then { x with silent := true } else x }) s

/-- `HEARTBEAT_MISS`: a heartbeat of a member did not come; after five it is silent (R421, R423). -/
def execHeartbeatMiss (member : Nat) (now : Nat) (s : State) : Host.Outcome State Fault Refusal :=
  let s := atTime s now
  .next (match tabGet s.group.peers member with
    | none => s
    | some p =>
      let n := p.missed + 1
      let gone := decide (5 ≤ n) && (p.state == 2 || p.state == 3)
      let s := modGroup s fun g => modPeer g member fun p => { p with missed := n, state := if gone then 4 else p.state }
      if gone then silence s member else s)

/-- `MEMBER_EVICT`: system software evicts a member; its limit counts for another 200 µs, and so long a silent one's hold lasts (R421, R423). The device
itself may be the one. -/
def execMemberEvict (member : Nat) (now : Nat) (s : State) : Host.Outcome State Fault Refusal :=
  let s := atTime s now
  .next (modGroup s fun g =>
    if member = g.index ∧ g.state ≠ 6 then { g with state := 5 }
    else
      match tabGet g.peers member with
      | none => g
      | some p =>
        let g := modPeer g member fun p => { p with state := 5, evictAt := some (s.stamp + 200000) }
        if p.state = 4 then { g with holdTill := Nat.max g.holdTill (s.stamp + 200000) } else g)

/-- `LEAVE_COMPLETE`: 200 µs after its leave stamp a leaving device is in no group (R421). -/
def execLeaveComplete (now : Nat) (s : State) : Host.Outcome State Fault Refusal :=
  let s := atTime s now
  .next (match s.group.leaveAt with
    | some t =>
      if s.group.state = 3 ∧ t + 200000 ≤ s.stamp then
        modGroup s fun g => { g with state := 6, index := 0, leaveAt := none, next := none, peers := [], ceiling := 1600 }
      else s
    | none => s)

/-! ## Joining and versions (R421, R435) -/

/-- The versions of the group protocol and of the link protocol that the device holds: 1.0 and 1.1, the major in the upper half. -/
def heldVersion (v : Nat) : Bool := v == 0x10000 || v == 0x10001

/-- `GROUP_LINK_UP`: the link to a group comes up, and the device reads the members' heartbeats and joins; a group version that it does not hold leaves it
in probe (R421, R435). -/
def execGroupLinkUp (index : Nat) (peers : List Heartbeat) (version : Nat) (s : State) : Host.Outcome State Fault Refusal :=
  .next (if s.group.state ≠ 0 ∧ s.group.state ≠ 6 then s
    else if !(heldVersion version) then modGroup s fun g => { g with state := 0 }
    else modGroup s fun g => { g with
      state := 1, index := index, version := version, next := none, leaveAt := none
      peers := peers.foldl (fun t hb => tabPut t hb.member (heardPeer hb hb.state s.stamp none)) [] })

/-- Whether a collective command is in flight. -/
def collectivesFly (s : State) : Bool := [0, 1, 2, 3].any fun d => !((getDie s d).coll.isEmpty)

/-- An announced group version applies once its stamp has come and no collective of the group is in flight (R435). -/
def settleVersion (s : State) : State :=
  match s.group.nextVersion with
  | some (v, at0) => if at0 ≤ s.stamp ∧ !(collectivesFly s) then modGroup s fun g => { g with version := v, nextVersion := none } else s
  | none => s

/-- `GROUP_VERSION_CHANGE`: a change of the group version is announced for a stamp 200 µs ahead; a member that lacks the version leaves (R435). -/
def execGroupVersionChange (version : Nat) (now : Nat) (s : State) : Host.Outcome State Fault Refusal :=
  let s := settleVersion (atTime s now)
  .next (if !(inGroup s.group) then s
    else if !(heldVersion version) then
      if s.group.state = 2 then modGroup s fun g => { g with state := 3, leaveAt := some (s.stamp + 200000) } else s
    else if (s.group.nextVersion.any fun x => x.1 == version) || s.group.version = version then s
    else modGroup s fun g => { g with nextVersion := some (version, s.stamp + 200000) })

/-! ## Trips (R422) -/

/-- `TRIP`: the device's limit falls at once (R422): `TRIP` of the die is set and a breach is sent. Outside a group the clusters' grants fall. -/
def execTrip (die : Nat) (limit : Nat) (now : Nat) (s : State) : Host.Outcome State Fault Refusal :=
  let s := atTime s now
  let s := { s with power := { s.power with trip := s.power.trip ||| BitVec.ofNat 4 (2 ^ die) } }
  .next (if inGroup s.group then
      modGroup s fun g => breach { g with limit := limit, next := none } limit s.stamp
    else (List.range 192).foldl (fun s cl => modCluster s cl fun c => { c with grant := Nat.min c.grant limit }) s)

/-- `BREACH_RECEIVE`: a member's breach message (R422). -/
def execBreachReceive (member : Nat) (limit : Nat) (now : Nat) (s : State) : Host.Outcome State Fault Refusal :=
  .next (let s := atTime s now; modGroup s fun g => memberBreach g member limit s.stamp)

/-! ## Ports (R424 to R426, R435) -/

/-- A port of the module by its number: nine to a die (R15, R424). -/
def changePort (s : State) (port : Nat) (f : PortState → PortState) : State := modPort s (port / 9) (port % 9) f

/-- `LINK_BRINGUP`: a link runs the highest version that both ends hold, or stays down (R435). -/
def execLinkBringup (port : Nat) (lo hi : Nat) (s : State) : Host.Outcome State Fault Refusal :=
  .next (changePort s port fun _ => { PortState.init with
    version := [0x10001, 0x10000].find? fun v => lo ≤ v && v ≤ hi })

/-- The bytes that a class of a port holds. -/
def occupancy (p : PortState) (cls : Nat) : Nat := 256 * ((tabGet p.buffers cls).getD []).length

/-- The flits at the head of a class's buffer delivered, so many as an open value says. -/
def deliverFlits (n : Nat) (p : PortState) (cls : Nat) : PortState :=
  let fs := (tabGet p.buffers cls).getD []
  { p with buffers := tabPut p.buffers cls (fs.drop (n % (fs.length + 1))) }

/-- The pauses and resumes that a port sends by what its buffers hold (R426): a pause above 48 KiB, a resume below 32 KiB. -/
def flowControl (p : PortState) (cls : Nat) : PortState :=
  if 49152 < occupancy p cls then { p with sentPause := (cls :: p.sentPause).eraseDups }
  else if occupancy p cls < 32768 then { p with sentPause := p.sentPause.filter fun c => c != cls }
  else p

/-- The classes of a port (R425). -/
def classes : List Nat := [0, 1, 2, 3]

/-- A port delivers some of what its buffers hold, and pauses or resumes each class (R424, R426). -/
def drainPort (n : Nat) (p : PortState) : PortState := classes.foldl (fun p c => flowControl (deliverFlits (n / 257 ^ c) p c) c) p

/-- A flit that comes in at a port (R424, R426): a bad one is sent again by the link layer, and so are those of its class that came after it, which wait for their turn; one that
finds no room stays at its sender. -/
def takeFlit (f : Flit) (p : PortState) : PortState :=
  let next := (tabGet p.nextFlit f.cls).getD 0
  if p.version.isNone ∨ !f.good ∨ f.seq ≠ next ∨ 65536 < occupancy p f.cls + 256 then p
  else flowControl { p with
    buffers := tabPut p.buffers f.cls ((tabGet p.buffers f.cls).getD [] ++ [f.bytes]), nextFlit := tabPut p.nextFlit f.cls (next + 1) } f.cls

/-- A port drained by a free choice. -/
def drainAt (s : State) (port : Nat) : State := changePort { s with free := s.free + 1 } port (drainPort (Config.pick s.free))

/-- `FLIT_RECEIVE` (R424, R426). -/
def execFlitReceive (port : Nat) (flit : Flit) (s : State) : Host.Outcome State Fault Refusal :=
  .next (changePort (drainAt s port) port (takeFlit flit))

/-- `PAUSE_RECEIVE`: the class sends no flit (R426). -/
def execPauseReceive (port : Nat) (cls : Nat) (s : State) : Host.Outcome State Fault Refusal :=
  .next (changePort s port fun p => { p with paused := (cls :: p.paused).eraseDups })

/-- `RESUME_RECEIVE`: a paused class goes on (R426). -/
def execResumeReceive (port : Nat) (cls : Nat) (s : State) : Host.Outcome State Fault Refusal :=
  .next (changePort s port fun p => sendWaiting { p with paused := p.paused.filter fun c => c != cls })

/-- `ADMISSION_WINDOW`: the next 1 µs window of a port's class-0 traffic opens, and what waits is admitted as far as it goes (R425). -/
def execAdmissionWindow (port : Nat) (now : Nat) (s : State) : Host.Outcome State Fault Refusal :=
  let s := atTime s now
  .next (changePort s port fun p =>
    if p.windowAt + 1000 ≤ s.stamp then sendWaiting { p with window := 0, windowAt := s.stamp / 1000 * 1000 } else p)

end Sys2Proof.Machine
end

