-- ==== Sys2Proof/Machine/Firmware.lean ====
section
/-!
DEFINITION. Module reset and boot (R436 to R440), measurement (R438) and the commands of the firmware interface (R442).
-/

namespace Sys2Proof.Machine

open Sys2Proof

/-! ## Images (R437) -/

/-- The little-endian value of n bytes at an offset of an image. -/
def imageField (bs : List Byte) (off n : Nat) : Nat := leValue ((bs.drop off).take n)

/-- The kind, the security version number and the body size of an image. -/
def imageKind (bs : List Byte) : Nat := imageField bs 4 4
/-- The security version number. -/
def imageSvn (bs : List Byte) : Nat := imageField bs 8 4
/-- The size of the body. -/
def imageSize (bs : List Byte) : Nat := imageField bs 12 4
/-- The digest that a header gives. -/
def headerDigest (bs : List Byte) : List Byte := (bs.drop 0x10).take 64

/-- Whether an image of a kind is accepted (R437). -/
def imageAccepted (svn : Vector Nat 3) (kind : Nat) (bs : List Byte) : Bool :=
  let key := (bs.drop 0x50).take 57
  let sig := (bs.drop 0x89).take 114
  256 ≤ bs.length && imageField bs 0 4 == 0x564E5456 && imageKind bs == kind && imageSize bs ≤ 16777216 &&
    bs.length == 256 + imageSize bs &&
    exactly 64 (Config.shake256 (bs.drop 256)) == headerDigest bs &&
    exactly 64 (Config.shake256 key) == exactly 64 Config.rootKeyDigest &&
    Config.ed448Verifies key (bs.take 0x89) sig &&
    (svn[kind]?.getD 0) ≤ imageSvn bs

/-- The three images of a slot, one after another: vintner, Rilow boot image, operating system loader (R436; log 40). -/
def slotImages (bs : List Byte) : List (List Byte) :=
  let n0 := 256 + imageSize bs
  let r1 := bs.drop n0
  let n1 := 256 + imageSize r1
  [bs.take n0, r1.take n1, r1.drop n1]

/-- Whether a slot passes the chain of checks (R436). -/
def slotAccepted (svn : Vector Nat 3) (bs : List Byte) : Bool :=
  (slotImages bs).zipIdx.all fun x => imageAccepted svn x.2 x.1

/-! ## Measurement (R438) -/

/-- What boot measures of a slot's images; the identity key follows from MR0 (R443). -/
def measureBoot (b : BootState) (slot : Nat) (images : List (List Byte)) : BootState :=
  let v := images[0]?.getD []
  let b := extendMr b 0 (headerDigest v)
  let b := extendMr b 0 (exactly 64 (Config.shake256 (v.take 256)))
  let b := { b with identity := Config.identityKey (b.mrs[0]?.getD []) }
  let b := extendMr b 1 (exactly 64 (Config.vintnerConfig slot b.svn.toList b.deadline))
  let b := extendMr b 2 (headerDigest (images[1]?.getD []))
  extendMr b 3 (headerDigest (images[2]?.getD []))

/-! ## Slots (R439, R440) -/

/-- The state word of a slot: 0 is A, 1 is B. -/
def slotWord (b : BootState) (slot : Nat) : SlotWord := if slot = 0 then b.slotA else b.slotB
/-- The image of a slot. -/
def slotImage (b : BootState) (slot : Nat) : List Byte := if slot = 0 then b.imageA else b.imageB
/-- A slot's state word changed. -/
def setSlot (b : BootState) (slot : Nat) (w : SlotWord) : BootState := if slot = 0 then { b with slotA := w } else { b with slotB := w }
/-- A slot's image changed. -/
def setImage (b : BootState) (slot : Nat) (bs : List Byte) : BootState := if slot = 0 then { b with imageA := bs } else { b with imageB := bs }

/-- The pending slot. -/
def pendingSlot (b : BootState) : Option Nat := [0, 1].find? fun k => slotWord b k == .pending
/-- The active slot. -/
def activeSlot (b : BootState) : Option Nat := [0, 1].find? fun k => slotWord b k == .active

/-- The slot that an activation writes: the one that is not active, B when none is; A in recovery (R439, R440). -/
def targetSlot (b : BootState) : Nat :=
  match b.stage, activeSlot b with
  | .recovery, _ => 0
  | _, some k => 1 - k
  | _, none => 1

/-- Whether a slot holds an image that the ROM may boot. -/
def bootable (b : BootState) (slot : Nat) : Bool := slotWord b slot != .empty && slotWord b slot != .failed

/-- The order in which the ROM tries the slots: a pending one first, else the active one, else A (R439, R440). -/
def bootOrder (b : BootState) : List Nat :=
  let first := ((pendingSlot b).orElse fun _ => activeSlot b).getD 0
  [first, 1 - first]

/-- A slot that is tried and does not pass: a pending one has failed (R436, R439). -/
def failTried (b : BootState) (slot : Nat) : BootState := if slotWord b slot = .pending then setSlot b slot .failed else b

/-- The ROM's boot: the first slot that passes runs, measured, with the watchdog when it is pending; with none, recovery (R436, R439, R440). -/
def tryBoot : List Nat → BootState → BootState
  | [], b => { b with stage := .recovery, booted := 0, armed := false }
  | k :: r, b =>
    if bootable b k && slotAccepted b.svn (slotImage b k) then
      measureBoot { b with stage := .running, booted := k, armed := slotWord b k == .pending } k (slotImages (slotImage b k))
    else tryBoot r (failTried b k)

/-- What of boot's part a module reset keeps: the flash, the fuses, the deadline and the count of boots (R9, R436; log 40). A pending slot that had been booted
and was not confirmed has failed (R440). -/
def bootReset (b : BootState) : BootState :=
  let b' := if b.armed then setSlot b b.booted .failed else b
  { State.reset.boot with
    slotA := b'.slotA, slotB := b'.slotB, imageA := b.imageA, imageB := b.imageB, svn := b.svn, deadline := b.deadline, boots := b.boots + 1 }

/-- `MODULE_RESET`: every register takes its reset value, and the ROM boots (R9, R436). The time stamp goes on (R427), and so do the turns that the outside
has in hand and the count of free values; a group state that was evicted is back in probe (R421). -/
def execModuleReset (s : State) : Host.Outcome State Fault Refusal :=
  let b := bootReset s.boot
  .next { State.reset with
    boot := tryBoot (bootOrder b) b
    group := { State.reset.group with state := if s.group.state = 5 then 0 else 6 }
    stamp := s.stamp, agenda := s.agenda, free := s.free }

/-- `WATCHDOG_EXPIRE`: the deadline of a pending slot has passed (R439, R440). -/
def execWatchdogExpire (s : State) : Host.Outcome State Fault Refusal :=
  .next (if s.boot.armed then modBoot s fun b => { b with expired := true } else s)

/-! ## The firmware interface (R442) -/

/-- A reply of the firmware interface: 0 done, 1 unknown command, 2 bad payload, 3 refused. -/
def fwReply (s : State) (status : Nat) (bs : List Byte) : State := modBoot s fun b => { b with reply := (status, bs) }

/-- A command that ends with a status and no payload. -/
def fwEnd (s : State) (status : Nat) : State := fwReply s status []

/-- A command other than `GETVER`: nothing serves it in the ROM; it is refused to a caller of another major, and in recovery unless it is one of those
that accept an image (R435, R440, R442). -/
def fwCommand (inRecovery : Bool) (s : State) (f : State → State) : State :=
  match s.boot.stage with
  | .rom => s
  | .running => if s.boot.refused then fwEnd s 3 else f s
  | .recovery => if s.boot.refused || !inRecovery then fwEnd s 3 else f s

/-- `GETVER`: the interface version 2.0; a caller of another major is refused from now on (R442). -/
def execGetver (major : Nat) (s : State) : Host.Outcome State Fault Refusal :=
  .next (if s.boot.stage = .rom then s
    else fwReply (modBoot s fun b => { b with refused := major != 2 }) 0 (leBytes 4 0x20000))

/-- Bytes with others put at a place, filled up with zeros before it; those put at 0 are all. -/
def putPiece (old : List Byte) (p : SlotPiece) : List Byte :=
  if p.off = 0 then p.bytes
  else old.take p.off ++ List.replicate (p.off - old.length) 0 ++ p.bytes ++ old.drop (p.off + p.bytes.length)

/-- `SLOTWR`: a piece of at most 4 KiB of the images of the slot that is not active, which is not checked yet (R439, R442). Recovery accepts one image, into slot A (R440). -/
def execSlotwr (piece : SlotPiece) (s : State) : Host.Outcome State Fault Refusal :=
  .next (fwCommand true s fun s =>
    let k := targetSlot s.boot
    if 4096 < piece.bytes.length then fwEnd s 2
    else fwEnd (modBoot s fun b => setSlot (setImage b k (putPiece (slotImage b k) piece)) k .empty) 0)

/-- `SLOTACT`: the image written is checked, and its slot is pending (R437, R439). -/
def execSlotact (s : State) : Host.Outcome State Fault Refusal :=
  .next (fwCommand true s fun s =>
    let k := targetSlot s.boot
    if !(slotAccepted s.boot.svn (slotImage s.boot k)) then fwEnd s 3
    else fwEnd (modBoot s fun b => setSlot b k .pending) 0)

/-- The counters raised to a slot's svn for each kind (R437). -/
def raiseSvn (svn : Vector Nat 3) (images : List (List Byte)) : Vector Nat 3 :=
  images.zipIdx.foldl (fun v x => v.setIfInBounds x.2 (Nat.max (v[x.2]?.getD 0) (imageSvn x.1))) svn

/-- The boot state after the pending slot that runs is confirmed (R437, R440). -/
def confirmed (b : BootState) : BootState :=
  let k := b.booted
  let b := setSlot b k .active
  let b := if slotWord b (1 - k) = .empty then b else setSlot b (1 - k) .valid
  { b with armed := false, svn := raiseSvn b.svn (slotImages (slotImage b k)) }

/-- `CONFIRM`: refused in the same millisecond as the deadline, after it, or when no pending slot runs (R440). -/
def execConfirm (atDeadline : Bool) (s : State) : Host.Outcome State Fault Refusal :=
  .next (fwCommand false s fun s =>
    if !s.boot.armed || s.boot.expired || atDeadline then fwEnd s 3 else fwEnd (modBoot s confirmed) 0)

/-- `WDSET`: the watchdog's deadline, 1 to 120 s (R439). -/
def execWdset (seconds : Nat) (s : State) : Host.Outcome State Fault Refusal :=
  .next (fwCommand false s fun s =>
    if seconds = 0 ∨ 120 < seconds then fwEnd s 2 else fwEnd (modBoot s fun b => { b with deadline := seconds }) 0)

/-- `MEXT`: MR4 to MR7 extended with a 64-byte digest (R438). -/
def execMext (reg : Nat) (digest : List Byte) (s : State) : Host.Outcome State Fault Refusal :=
  .next (fwCommand false s fun s =>
    if reg < 4 ∨ 7 < reg ∨ digest.length ≠ 64 then fwEnd s 2 else fwEnd (modBoot s fun b => extendMr b reg digest) 0)

/-- Whether n bytes from a physical address lie in node 0, which alone holds the lees table and the scheduler backing area (R399). -/
def rangeInNode0 (base n : Nat) : Bool := n == 0 || inNode0 base && inNode0 (base + n - 1)

/-- `LEESCFG`: base, size and maximum of the lees table (R282, R283), which lies in node 0 (R399). DESIGN CHOICE (log 75): another place is a bad payload. -/
def execLeescfg (base size max : Nat) (s : State) : Host.Outcome State Fault Refusal :=
  .next (fwCommand false s fun s =>
    if !(rangeInNode0 base (Nat.max size max)) then fwEnd s 2
    else fwEnd { s with sched := { s.sched with leesBase := base, leesSize := size, leesMax := max, lees := [] } } 0)

/-- `SCHCFG`: base and size of the scheduler backing area (R358), which lies in node 0 (R399). DESIGN CHOICE (log 75): another place is a bad payload. -/
def execSchcfg (base size : Nat) (s : State) : Host.Outcome State Fault Refusal :=
  .next (fwCommand false s fun s =>
    if !(rangeInNode0 base size) then fwEnd s 2
    else fwEnd { s with sched := { s.sched with backBase := base, backSize := size } } 0)

/-- `ENSET`: a continuation's energy setting, in force at its next refill boundary; its reserved bits are ignored (R10, R410). -/
def execEnset (cont : Nat) (setting : Word) (s : State) : Host.Outcome State Fault Refusal :=
  .next (fwCommand false s fun s =>
    if !(getCont s cont).live ∨ 1000 < settingPeriod setting then fwEnd s 2
    else fwEnd (modCont s cont fun c => { c with energy := { c.energy with pending := some (setting &&& 0xFFFFFFFFFFFFFF) } }) 0)

/-- `CAPSET`: the module cap and the floors of the partitions, in force at the next boundary (R417). -/
def execCapset (cap : Nat) (floors : List Nat) (s : State) : Host.Outcome State Fault Refusal :=
  .next (fwCommand false s fun s =>
    if 8 < floors.length then fwEnd s 2
    else fwEnd { s with power := { s.power with pendingCap := some (Nat.min cap 3200, floors) } } 0)

/-- The module cap as it was last written (R417). -/
def capWritten (p : PowerState) : Nat := match p.pendingCap with
  | some c => c.1
  | none => p.capSet

/-- `PWRSTAT`: the power status word is read, then the bits written as 1 are cleared where their access says so (R8, R418). PRESUMED (log 88): the reply goes on with the cap as
it was written, which reads back so, and the floor-breach events posted since the last one, which it takes away (R417). -/
def execPwrstat (clear : Word) (s : State) : Host.Outcome State Fault Refusal :=
  .next (fwCommand false s fun s =>
    fwReply { s with power := { clearPower s.power clear with breaches := 0 } } 0
      (leBytes 8 (powerWord s).toNat ++ leBytes 4 (capWritten s.power) ++ leBytes 4 s.power.breaches))

/-- `QSET`: the quantum of the schedulers in µJ; 0, with which no decision would end, is a bad payload (R375; log 41). -/
def execQset (q : Nat) (s : State) : Host.Outcome State Fault Refusal :=
  .next (fwCommand false s fun s =>
    if q = 0 then fwEnd s 2 else fwEnd { s with sched := { s.sched with quantum := q } } 0)

/-- `LAYSET`: a layout class of 3 to 7 is programmed (R178). -/
def execLayset (cls : Nat) (params : Word) (s : State) : Host.Outcome State Fault Refusal :=
  .next (fwCommand false s fun s =>
    if cls < 3 ∨ 7 < cls then fwEnd s 2 else fwEnd { s with sched := { s.sched with layouts := tabPut s.sched.layouts cls params } } 0)

/-- `CSETPROG`: a collective set of 2 to 512 devices in rank order, this one among them (R428). -/
def execCsetprog (set : Nat) (ranks : List Nat) (stamp : BitVec 32) (s : State) : Host.Outcome State Fault Refusal :=
  .next (fwCommand false s fun s =>
    if 63 < set ∨ ranks.length < 2 ∨ 512 < ranks.length ∨ ranks.eraseDups.length ≠ ranks.length ∨ !(ranks.contains s.group.index) then fwEnd s 2
    else fwEnd { s with sched := { s.sched with colsets := tabPut s.sched.colsets set { ranks := ranks, stamp := stamp } } } 0)

/-- Whether a cluster holds a living unit. -/
def clusterHolds (s : State) (cl : Nat) : Bool := s.units.any fun p => p.2.alive && p.2.ident.clusters.contains cl

/-- The clusters of a partition before a `PARTCFG`. -/
def partClusters (s : State) (part : Nat) : List Nat :=
  match tabGet s.boot.parts part with
  | some p => p.clusters
  | none => []

/-- `PARTCFG`: clusters bound to a partition of 0 to 7, and so to the interface of that number, which is unlocked (R444). Clusters of another partition are a bad payload, clusters
that hold units are refused. -/
def execPartcfg (part : Nat) (clusters : List Nat) (s : State) : Host.Outcome State Fault Refusal :=
  .next (fwCommand false s fun s =>
    let other : Bool := clusters.any fun c => match (getCluster s c).partition with
      | some p => p != part
      | none => false
    let locked : Bool := match tabGet s.boot.parts part with
      | some p => p.tdisp != .unlocked
      | none => false
    let old := partClusters s part
    if 7 < part ∨ clusters.any (191 < ·) ∨ clusters.eraseDups.length ≠ clusters.length ∨ other then fwEnd s 2
    else if locked || (clusters ++ old).any (clusterHolds s) then fwEnd s 3
    else
      let s := old.foldl (fun s c => modCluster s c fun k => { k with partition := none }) s
      let s := clusters.foldl (fun s c => modCluster s c fun k => { k with partition := some part }) s
      fwEnd (modBoot s fun b => { b with parts := tabPut b.parts part { clusters := clusters, tdisp := .unlocked, session := false, root := none } }) 0)

/-! ## The mailbox of the Rilow complex (R442) -/

/-- What an event makes of a state; each command of the interface answers a next state. -/
def stateAfter (s : State) : Host.Outcome State Fault Refusal → State
  | .next t => t
  | _ => s

/-- The codes of the commands (R442). -/
def fwCodes : List Nat := [0x01, 0x10, 0x11, 0x12, 0x13, 0x20, 0x30, 0x31, 0x40, 0x41, 0x42, 0x43, 0x50, 0x60, 0x70]

/-- A request by its code and its payload: an unknown code is status 1, and a payload that does not fit its command status 2 (R442). -/
def fwRequest (code : Nat) (payload : List Byte) (s : State) : State :=
  match code, Config.payload code payload with
  | 0x01, .numbers major _ _ => stateAfter s (execGetver major s)
  | 0x10, .bytes off bs => stateAfter s (execSlotwr { off := off, bytes := bs } s)
  | 0x11, .none => stateAfter s (execSlotact s)
  | 0x12, .none => stateAfter s (execConfirm false s)
  | 0x13, .numbers seconds _ _ => stateAfter s (execWdset seconds s)
  | 0x20, .bytes reg digest => stateAfter s (execMext reg digest s)
  | 0x30, .numbers base size max => stateAfter s (execLeescfg base size max s)
  | 0x31, .numbers base size _ => stateAfter s (execSchcfg base size s)
  | 0x40, .numbers cont setting _ => stateAfter s (execEnset cont (BitVec.ofNat 64 setting) s)
  | 0x41, .list cap floors _ => stateAfter s (execCapset cap floors s)
  | 0x42, .numbers clear _ _ => stateAfter s (execPwrstat (BitVec.ofNat 64 clear) s)
  | 0x43, .numbers q _ _ => stateAfter s (execQset q s)
  | 0x50, .numbers cls params _ => stateAfter s (execLayset cls (BitVec.ofNat 64 params) s)
  | 0x60, .list set ranks stamp => stateAfter s (execCsetprog set ranks (BitVec.ofNat 32 stamp) s)
  | 0x70, .list part clusters _ => stateAfter s (execPartcfg part clusters s)
  | code, _ => if s.boot.refused then fwEnd s 3 else fwEnd s (if fwCodes.contains code then 2 else 1)

/-- The request that stands whole at the Rilow complex's access point, served there: its caller's major and its reply are its own (R442). -/
def serveMail (s : State) : State :=
  let b := s.boot
  let n := leValue ((b.mail.request.drop 2).take 2)
  if b.mail.request.length < 4 + Nat.min n 4096 then s
  else
    let code := leValue (b.mail.request.take 2)
    let t := modBoot s fun b => { b with refused := b.mail.refused }
    let t := if 4096 < n then fwEnd t 2 else fwRequest code ((b.mail.request.drop 4).take n) t
    modBoot t fun c => { c with reply := b.reply, refused := b.refused, mail := { request := [], reply := c.reply, refused := c.refused } }

/-- Where the mailbox stands in the Rilow complex's device register space (R442). -/
def mailBase : Nat := 0x40008000

/-- Whether an address lies in the mailbox: a header of 4 bytes, and up to 4 KiB. -/
def inMail (addr : Nat) : Bool := mailBase ≤ addr && addr < mailBase + 4104

/-- The 8 bytes at an offset of the mailbox as a hart loads them. PRESUMED (log 88): the status and the length of the last reply, 16 bits each, then its payload. -/
def mailLoad (s : State) (off : Nat) : Word :=
  let r := s.boot.mail.reply
  BitVec.ofNat 64 (leValue (((leBytes 2 r.1 ++ leBytes 2 r.2.length ++ r.2).drop off).take 8))

/-- A hart's store of 8 bytes at an offset of the mailbox. PRESUMED (log 88): bytes of a request, which is served once its last byte has been stored. -/
def mailStore (s : State) (off : Nat) (data : Word) : State :=
  serveMail (modBoot s fun b => { b with mail := { b.mail with request := putPiece b.mail.request { off := off, bytes := leBytes 8 data.toNat } } })

end Sys2Proof.Machine
end

