-- ==== Sys2Proof/Machine/HandleInstr.lean ====
section
/-!
DEFINITION. The handle instructions of major 0x0C (R180 to R182).
-/

namespace Sys2Proof.Machine

open Sys2Proof

/-- hd := f(h[ha]), latency 1. -/
def handleUnary (i : Instr) (t : BitVec 2) (d a : BitVec 4) (f : Handle → Handle) (s : State) : Host.Outcome State Fault Refusal :=
  issue i t true (fun c => do
    let h ← rh c a.toNat
    landHandle c d.toNat (f h) 1) s

/-- hd := f(h[ha], s[ra]), or a format fault that leaves hd unchanged (R182). -/
def handleScalar (i : Instr) (t : BitVec 2) (d a : BitVec 4) (r : BitVec 6) (f : Handle → Word → Option Handle) (s : State) :
    Host.Outcome State Fault Refusal :=
  issue i t true (fun c => do
    let h ← rh c a.toNat
    let v ← rs c r
    match f h v with
    | none => formatFault c
    | some g => landHandle c d.toNat g 1) s

/-- s[ra] := f(h[ha]), latency 1. -/
def handleRead (i : Instr) (t : BitVec 2) (a : BitVec 4) (r : BitVec 6) (f : Handle → Word) (s : State) : Host.Outcome State Fault Refusal :=
  issue i t true (fun c => do
    let h ← rh c a.toNat
    landScalar c r.toNat (f h) 1) s

/-- `HMOV` (R181). -/
def execHmov (d a : BitVec 4) (t : BitVec 2) (s : State) : Host.Outcome State Fault Refusal :=
  handleUnary (.hmov d a t) t d a (fun h => h) s

/-- `HLD`: hd := the 32 bytes at s[ra], a multiple of 32; latency of a load (R180 to R182). -/
def execHld (d : BitVec 4) (r : BitVec 6) (t : BitVec 2) (s : State) : Host.Outcome State Fault Refusal :=
  issue (.hld d r t) t true (fun c => do
    let va ← rs c r
    pendAt c va .read 32
    if va.toNat % 32 ≠ 0 then windowFault c
    else do
      let bs ← loadBytes c va 32
      let u ← theUnit c
      landHandle c d.toNat (BitVec.ofNat 256 (leValue bs)) (loadLatency u)) s

/-- `HST`: the 32 bytes at s[ra] := h[ha] (R181, R182); one block record while the unit collects (R301). -/
def execHst (a : BitVec 4) (r : BitVec 6) (t : BitVec 2) (s : State) : Host.Outcome State Fault Refusal :=
  issue (.hst a r t) t true (fun c => do
    let h ← rh c a.toNat
    let va ← rs c r
    if va.toNat % 32 ≠ 0 then windowFault c else writeBytes c va 1 (leBytes 32 h.toNat)) s

/-- `HSETB`: `BASE` := s[ra] (R181). -/
def execHsetb (d a : BitVec 4) (r : BitVec 6) (t : BitVec 2) (s : State) : Host.Outcome State Fault Refusal :=
  handleScalar (.hsetb d a r t) t d a r (fun h v => some (hset h 0 64 v.toNat)) s

/-- `HSETD`: `D`k := s[ra], from 1 to 65,536 (R181, R182). -/
def execHsetd (d a k : BitVec 4) (r : BitVec 6) (t : BitVec 2) (s : State) : Host.Outcome State Fault Refusal :=
  handleScalar (.hsetd d a k r t) t d a r (fun h v =>
    if 1 ≤ v.toNat ∧ v.toNat ≤ 65536 then some (hset h (64 + 16 * k.toNat) 16 v.toNat) else none) s

/-- `HSETS`: `S`k := s[ra], below 2^24 (R181, R182). -/
def execHsets (d a k : BitVec 4) (r : BitVec 6) (t : BitVec 2) (s : State) : Host.Outcome State Fault Refusal :=
  handleScalar (.hsets d a k r t) t d a r (fun h v =>
    if v.toNat < 2 ^ 24 then some (hset h (104 + 24 * k.toNat) 24 v.toNat) else none) s

/-- `HSETF`: bits [255:200] := s[ra][55:0], with s[ra][63:56] zero (R181, R182). -/
def execHsetf (d a : BitVec 4) (r : BitVec 6) (t : BitVec 2) (s : State) : Host.Outcome State Fault Refusal :=
  handleScalar (.hsetf d a r t) t d a r (fun h v => if v.toNat < 2 ^ 56 then some (hset h 200 56 v.toNat) else none) s

/-- `HGETB`: s[ra] := `BASE` (R181). -/
def execHgetb (a : BitVec 4) (r : BitVec 6) (t : BitVec 2) (s : State) : Host.Outcome State Fault Refusal :=
  handleRead (.hgetb a r t) t a r hBase s

/-- `HGETD`: s[ra] := `D`k as an extent, bits [255:200] for k = 4, `S`1 to `S`3 for k = 5 to 7 (R181). -/
def execHgetd (a k : BitVec 4) (r : BitVec 6) (t : BitVec 2) (s : State) : Host.Outcome State Fault Refusal :=
  handleRead (.hgetd a k r t) t a r (fun h => BitVec.ofNat 64 <|
    if k.toNat < 4 then hDim h k.toNat else if k.toNat = 4 then hbits h 200 56 else hStride h (k.toNat - 4)) s

/-- Whether a handle's elements have addresses to offset: a format with a width that is no weight image (R176, R182). DESIGN CHOICE
(log 99): a reserved format has none. -/
def hasElements (h : Handle) : Bool := fmtValid (hFmt h) && !fmtAligned (hFmt h)

/-- `BASE` advanced by a signed number of bits; none when that is no whole number of bytes (R182). -/
def advanceBase (h : Handle) (nbits : Int) : Option Handle :=
  if nbits % 8 = 0 then some (hset h 0 64 (wrapTo 64 ((hBase h).toNat + nbits / 8))) else none

/-- The handle of `HOFF`: `BASE` plus s[ra], signed, strides of dimension k (R181). -/
def offsetHandle (h : Handle) (k : Nat) (v : Word) : Option Handle :=
  if hasElements h then advanceBase h (v.toInt * hStride h k * fmtBits (hFmt h)) else none

/-- `HOFF` (R181, R182). -/
def execHoff (d a k : BitVec 4) (r : BitVec 6) (t : BitVec 2) (s : State) : Host.Outcome State Fault Refusal :=
  handleScalar (.hoff d a k r t) t d a r (fun h v => offsetHandle h k.toNat v) s

/-- The extent of a dimension below the rank reduced by the start coordinate, as a field (R181). -/
def subDim (h : Handle) (k c : Nat) (g : Handle) : Handle :=
  if k < hRank h then hset g (64 + 16 * k) 16 (hExtent h k - c) else g

/-- The handle of `HSUB`: the part of a tensor from a coordinate on (R181). -/
def subHandle (h : Handle) (v : Word) : Option Handle :=
  let u := coordOf v
  if hasElements h && inExtent h u then
    (advanceBase h (elemBit h u)).map fun g => subDim h 3 u.c3 (subDim h 2 u.c2 (subDim h 1 u.c1 (subDim h 0 u.c0 g)))
  else none

/-- `HSUB` (R181, R182). -/
def execHsub (d a : BitVec 4) (r : BitVec 6) (t : BitVec 2) (s : State) : Host.Outcome State Fault Refusal :=
  handleScalar (.hsub d a r t) t d a r subHandle s

/-- `HCHK`: s[ra] := the check word (R179, R181). -/
def execHchk (a : BitVec 4) (r : BitVec 6) (t : BitVec 2) (s : State) : Host.Outcome State Fault Refusal :=
  issue (.hchk a r t) t true (fun c => do
    let h ← rh c a.toNat
    let s ← get
    landScalar c r.toNat (checkWord s c.uid c.q h) 1) s

/-- `HCLR`: hd := 0 (R181). -/
def execHclr (d : BitVec 4) (t : BitVec 2) (s : State) : Host.Outcome State Fault Refusal :=
  issue (.hclr d t) t true (fun c => landHandle c d.toNat 0 1) s

end Sys2Proof.Machine
end

