-- ==== Sys2Proof/Machine/Starts.lean ====
section
/-!
DEFINITION. What the host forms and the SCH instructions share (R325 to R333, R360, R370, R380, R381): the reply word, the start of a job, and what the
end of an instance releases.
-/

namespace Sys2Proof.Machine

open Sys2Proof

/-- The reply word (R325). -/
def replyWord (rst jst aux id : Nat) : Word :=
  BitVec.ofNat 64 (rst % 256 * 2 ^ 56 + jst % 256 * 2 ^ 48 + aux % 65536 * 2 ^ 32 + id % 2 ^ 32)

/-- Whether the partition of a continuation is in its error state (R326). -/
def partitionFailed (s : State) (cont : Nat) : Bool :=
  match (getCont s cont).partition with
  | none => false
  | some p => match tabGet s.boot.parts p with
    | some x => x.tdisp == .error
    | none => false

/-- The images of the LAUNCH nodes that the patches of an op-0 job name: the addresses whose parameter sizes the check of R360 needs. -/
def patchedImages (s : State) (cont : Nat) (d : Desc) (ps : List Patch) : List Word :=
  if d.op ≠ 0 then []
  else
    match tabGet (getCont s cont).graphs d.graph with
    | none => []
    | some g => (ps.filterMap fun p => (g.nodes[p.node]?).bind fun n => if n.kind = 0 then some (nodeImage g n) else none).eraseDups

/-- The start of a job from a descriptor's 64 bytes and a patch list's entries (R330, R360, R380): the `RST` that refuses it, or the job's identifier and
the state with the job accepted and started. `sizes` gives the parameter size of an image. -/
def tryStart (s : State) (cont : Nat) (desc patches : List Byte) (n : Nat) (sizes : Tab Word Nat) (hart : Option Nat) (rel : Release) :
    Except Nat (Nat × State) :=
  let d := readDesc desc
  let (ps, bad) := readPatches patches n
  if bad || !(descLegal s cont desc) || !(patchesLegal s cont d ps fun g x => (tabGet sizes (nodeImage g x)).getD 0) then .error 4
  else if !(roomForJob s cont (clampClass (getCont s cont) d.cls)) then .error 5
  else
    let (id, s) := acceptJob s cont d ps hart rel
    .ok (id, pokeJob s cont id)

/-- What the agents of an instance have done and acquired, as its end releases it (R370, R381). -/
def instanceHist (s : State) (cont level id index : Nat) : Hist :=
  let c := getCont s cont
  agentsHist s fun a => a.cont == cont &&
    match level with
    | 0 => a.kind ≤ 8 && a.launch == id && (getUnit s a.uid).ident.index == index
    | 1 => a.kind ≤ 8 && a.launch == id
    | 2 => a.kind ≤ 9 && c.jobs.any fun j => j.op != 2 && j.graph == id && j.id == a.launch / 2 ^ 32
    | 3 => a.kind ≤ 9 && a.launch / 65536 == id
    | 4 => a.kind ≤ 9 && a.launch / 2 ^ 32 == id
    | _ => a.kind ≤ 9

end Sys2Proof.Machine
end

