-- ==== Sys2Proof/Machine/Hart.lean ====
section
/-!
DEFINITION. The Rilow harts as far as the manual describes them (R278, R321 to R324, R350, R353): registers, exceptions, memory, ports and their saved
blocks, fault records in memory form, and attention entries; the on-chip physical map as system software reaches it (R171, R174).
-/

namespace Sys2Proof.Machine

open Sys2Proof

/-! ## Physical memory as system software reaches it (R171, R174, R398) -/

/-- One byte at a physical address: memory, a physical accumulator row, or a byte of a core's windows; a reserved address of a block reads 0. -/
def physGet (s : State) (pa : Nat) : Byte :=
  if onChip pa then
    let core := pa / 0x1000000
    let off := pa % 0x1000000
    if off < 0x180000 then memGet s.mem pa
    else if 0x400000 ≤ off ∧ off < 0x440000 then
      ((tabGet (getCore s core).rows ((off - 0x400000) / 1024)).getD 0).extractLsb' (8 * ((off - 0x400000) % 1024)) 8
    else if 0x800000 ≤ off then (readWindow s core (off / 8 * 8) (Config.freeValue s.free)).extractLsb' (8 * (off % 8)) 8
    else 0
  else memGet s.mem pa

/-- n bytes from a physical address. -/
def physBytes (s : State) (pa n : Nat) : List Byte := (List.range n).map fun i => physGet s (pa + i)

/-- Whether a word of a core's windows takes no bits that a write does not carry: `AFLAGS`, where 1 clears, and the port of a `dqin`, where a write pushes an entry
(R8, R155, R172). -/
def takesWritten (off : Nat) : Bool := if off < 0xC00000 then off % 0x100000 == 0xC00 else off % 0x100000 == 0

/-- A piece of a write that lies in one aligned word of a core's windows: a narrower one leaves the word's other bytes. DESIGN CHOICE (log 43): one to the port of
a `dqin` pushes an entry whose other bytes are 0. -/
def windowPut (s : State) (core off : Nat) (bs : List Byte) : State :=
  let old := if takesWritten (off / 8 * 8) then 0 else readWindow s core (off / 8 * 8) 0
  writeWindow s core (off / 8 * 8) (putBits old (8 * (off % 8)) (8 * bs.length) (leValue bs))

/-- Bytes of a physical accumulator row written. -/
def physRowPut (s : State) (core off : Nat) (b : Byte) : State :=
  modCore s core fun c =>
    let r := (tabGet c.rows (off / 1024)).getD 0
    { c with rows := tabPut c.rows (off / 1024) (putBits r (8 * (off % 1024)) 8 b.toNat) }

/-- The pieces of a write between aligned words. -/
def wordPieces (pa : Nat) : List Byte → List (Nat × List Byte)
  | [] => []
  | b :: r =>
    match wordPieces (pa + 1) r with
    | [] => [(pa, [b])]
    | (q, bs) :: rest => if q % 8 = 0 then (pa, [b]) :: (q, bs) :: rest else (pa, b :: bs) :: rest

/-- Bytes written from a physical address; a write of memory ends the release sequences of its words (R276). -/
def physPut (s : State) (pa : Nat) (bs : List Byte) : State :=
  if onChip pa then
    let core := pa / 0x1000000
    let off := pa % 0x1000000
    if off < 0x180000 then performBytes s (bs.zipIdx.map fun x => (.mem (pa + x.2), x.1))
    else if 0x400000 ≤ off ∧ off < 0x440000 then bs.zipIdx.foldl (fun s x => physRowPut s core (off - 0x400000 + x.2) x.1) s
    else if 0x800000 ≤ off then (wordPieces off bs).foldl (fun s x => windowPut s core x.1 x.2) s
    else s
  else performBytes s (bs.zipIdx.map fun x => (.mem (pa + x.2), x.1))

/-- Bytes for physical addresses in runs of consecutive addresses, each written as one access. -/
def physRuns : List (Nat × Byte) → List (Nat × List Byte)
  | [] => []
  | (a, b) :: r =>
    match physRuns r with
    | [] => [(a, [b])]
    | (q, bs) :: rest => if a + 1 = q then (a, b :: bs) :: rest else (a, [b]) :: (q, bs) :: rest

/-- Bytes written at physical addresses. -/
def physPuts (s : State) (ps : List Nat) (bs : List Byte) : State := (physRuns (ps.zip bs)).foldl (fun s x => physPut s x.1 x.2) s

/-! ## Registers and exceptions of a hart -/

/-- An integer register of a hart; x0 reads 0. -/
def HartState.reg (h : HartState) (r : BitVec 5) : Word := if r = 0 then 0 else h.x[r.toNat]?.getD 0

/-- An integer register of a hart written; x0 discards. -/
def HartState.setReg (h : HartState) (r : BitVec 5) (v : Word) : HartState :=
  if r = 0 then h else { h with x := h.x.setIfInBounds r.toNat v }

/-- A hart takes an exception with its cause and value (R86, R322, R323, R350): the pc is saved and the form or access has no effect. Where the hart
goes on is its kernel's, which the manual does not name (log 27). -/
def hartException (s : State) (hart cause : Nat) (stval : Word) : State :=
  modHart { s with free := s.free + 1 } hart fun h => { h with
    scause := BitVec.ofNat 64 cause, sepc := h.pc, stval := stval, pc := Config.freeValue s.free, user := false, waiting := none }

/-- The hart's next instruction. -/
def hartNext (s : State) (hart : Nat) : State := modHart s hart fun h => { h with pc := h.pc + 4 }

/-! ## The port (R321 to R324) -/

/-- The continuation of a port, if its thread has one that lives. -/
def portCont (s : State) (hart : Nat) : Option Nat :=
  let p := (getHart s hart).port
  if p.cont = 0xFFFFFFFF then none
  else if (getCont s p.cont.toNat).live then some p.cont.toNat else none

/-- Whether a port holds the state of the thread that runs on its hart (R323). -/
def portBound (h : HartState) : Bool := h.port.owner == some (h.cpthr &&& 0xFFFFFFFFFFFF)

/-- The continuation whose thread a hart runs (R267). -/
def boundCont (s : State) (hart : Nat) : Option Nat := if portBound (getHart s hart) then portCont s hart else none

/-- The agent of a hart: the thread bound to its continuation (R266); a hart without one acts for no continuation. -/
def agentOf (s : State) (hart : Nat) : Agent := hartAgent hart ((boundCont s hart).getD 0xFFFFFFFF)

/-- The public bytes of a port's block (R321). -/
def portBytes (p : Port) : List Byte :=
  leBytes 8 (p.owner.getD 0).toNat ++ leBytes 4 p.cont.toNat ++ leBytes 4 p.gen.toNat ++ leBytes 4 p.vers.toNat ++ leBytes 4 p.flags.toNat ++
    leBytes 4 p.hart.toNat ++ leBytes 4 p.lastjob.toNat ++ List.replicate 32 0

/-- A list of bytes brought to a length. -/
def fitBytes (n : Nat) (bs : List Byte) : List Byte := bs.take n ++ List.replicate (n - bs.length) 0

/-- The block of 256 bytes that saves a port: its fields, its private state and its seal (R321). -/
def portBlock (s : State) (hart : Nat) (p : Port) : List Byte :=
  let body := portBytes p ++ fitBytes 160 (Config.portPrivate s.boot.boots hart)
  body ++ fitBytes 32 (Config.portSeal s.boot.boots body)

/-- Whether the seal of a block holds (R322). -/
def blockSealed (s : State) (bs : List Byte) : Bool := bs.drop 0xE0 == fitBytes 32 (Config.portSeal s.boot.boots (bs.take 0xE0))

/-- The port that a block describes, for the port of a hart (R321, R322). -/
def loadPort (hart : Nat) (bs : List Byte) : Port :=
  { owner := some (BitVec.ofNat 64 (field bs 0 8 % 2 ^ 48)), cont := BitVec.ofNat 32 (field bs 8 4), gen := BitVec.ofNat 32 (field bs 0xC 4),
    vers := BitVec.ofNat 32 (field bs 0x10 4), flags := BitVec.ofNat 32 (field bs 0x14 4), hart := BitVec.ofNat 32 hart,
    lastjob := BitVec.ofNat 32 (field bs 0x1C 4) }

/-! ## Memory as a hart's thread reaches it (R278, R350, R388) -/

/-- The exception of a page fault: load 13, store or AMO 15. -/
def pageFault (w : Bool) : Nat := if w then 15 else 13

/-- What a hart's access of n bytes comes to. -/
inductive HartReach where
  | ok (ps : List Nat)
  | fault (cause : Nat) (va : Word)
  | none

/-- Whether a hart translates: the mode of its `satp` is not bare (log 28). -/
def translates (h : HartState) : Bool := bits h.satp.toNat 60 4 != 0

/-- The physical addresses of n bytes for a hart; a page that is not mapped, or forbids the access, raises the hart's page fault; an address that is
not populated exists nowhere (R398). -/
def hartReach (s : State) (hart : Nat) (va : Word) (w : Bool) : Nat → HartReach
  | 0 => .ok []
  | n + 1 =>
    let h := getHart s hart
    let pa : Except Bool Nat :=
      if translates h then
        match walkVa s.mem h.satp h.hgatp va.toNat w with
        | .mapped m => .ok (m.base + va.toNat % 2 ^ m.log2)
        | .fault _ => .error true
        | .unmapped => .error false
      else if populated va.toNat then .ok va.toNat else .error false
    match pa with
    | .error true => .fault (pageFault w) va
    | .error false => .none
    | .ok p =>
      match hartReach s hart (va + 1) w n with
      | .ok ps => .ok (p :: ps)
      | r => r

/-- Whether a physical address is one of memory words: everything but the windows and rows of a core as system software sees them. -/
def isMemory (pa : Nat) : Bool := !(onChip pa) || pa % 0x1000000 < 0x180000

/-- The unit that holds a physical accumulator row of a core, and the row as it numbers it (R201). -/
def rowOwner (s : State) (core row : Nat) : Option (Nat × Nat) :=
  s.units.findSome? fun p =>
    if p.2.place.resident && p.2.place.core == core then
      (p.2.place.groups.find? fun g => g.2 == row / 16).map fun g => (p.1, g.1 * 16 + row % 16)
    else none

/-- The place of a physical byte that carries marks: memory, or a row of the unit that holds it (R278). -/
def hartPlace (s : State) (pa : Nat) : Option Place :=
  let off := pa % 0x1000000
  if isMemory pa then some (.mem pa)
  else if 0x400000 ≤ off ∧ off < 0x440000 then
    (rowOwner s (pa / 0x1000000) ((off - 0x400000) / 1024)).map fun x => .acc x.1 x.2 ((off - 0x400000) % 1024)
  else none

/-- Whether a hart's plain accesses leave marks: its bound continuation has a job that has not completed, and the access is in that continuation's
address space (R278). -/
def hartMarks (s : State) (hart : Nat) : Bool :=
  match boundCont s hart with
  | some c => !(openJobs (getCont s c)).isEmpty && (getHart s hart).satp == (getCont s c).satp
  | none => false

/-- The fault record of a race at a hart (R350, R351): agent 5, the hart's number for its core. -/
def hartRecord (s : State) (hart cont : Nat) (va : Word) (r : Race) : FaultRecord :=
  { cause := 25, agent := 5, jst := 2, active := false, cont := cont, gen := (getCont s cont).gen.toNat, job := 0, phase := 0, launch := 0,
    core := hart, tepc := (getHart s hart).pc, tval := va, tvc := 0, word := 0, lost := 0, stamp := s.stamp, race := some r }

/-- A race at a hart access: exception 25 with the address, and a fault record; no job is cancelled (R350). -/
def hartRaced (s : State) (hart : Nat) (va : Word) (r : Race) : State :=
  let cont := (boundCont s hart).getD r.contEarly
  hartException (postFault s (hartRecord s hart cont va r)) hart 25 va

/-- The places of a hart's bytes, as marks and release sequences know them; a byte that carries none is taken by its address. -/
def hartPlaces (s : State) (ps : List Nat) : List Place := ps.map fun pa => (hartPlace s pa).getD (.mem pa)

/-- A hart's access checked against the marks of others, leaving its own where R278 says so; its requests are charged in any case (R400). -/
def hartMark (s : State) (hart : Nat) (va : Word) (ps : List Nat) (write atomic : Bool) : Except Race State :=
  let a := agentOf s hart
  let cont := (boundCont s hart).getD 0xFFFFFFFF
  let vaOf := wordVa va (hartPlaces s ps)
  match checkMark a (regionOf s a) cont 0 vaOf write atomic (placeRuns (ps.filterMap (hartPlace s))) s with
  | .error r => .error r
  | .ok t => .ok (if hartMarks s hart then t else { s with meter := t.meter })

/-- A hart's atomic operation on n bytes, on memory or on the rows of a unit; where neither marks nor release sequences are kept, the bytes alone change. The answer is the old
value. -/
def hartAtomicAt (s : State) (ps : List Nat) (o : AtomOp) (rels : List Release) : Nat × State :=
  if ps.all fun pa => (hartPlace s pa).isSome then performAtomic s (hartPlaces s ps) o rels
  else
    let old := leValue (ps.map (physGet s))
    (old, match atomNew o old with | some v => physPuts s ps (leBytes ps.length v) | none => s)

/-- The state in which a request of a hart or of the external host stands in a controller's queue, if a spent budget makes it wait (R401). -/
def physWaits (s : State) (w : Asker) (ps : List Nat) : Option State := askBudget s w false (ps.map Place.mem)

/-- A read of a hart's thread that the port itself makes: it follows the hart's translation, waits for its budget, and leaves no mark (R330, R337, R401). -/
def portRead (s : State) (hart : Nat) (w : IWord) (va : Word) (n : Nat) : Except State (List Byte) :=
  match hartReach s hart va false n with
  | .ok ps => match physWaits s (.form hart w) ps with
    | some t => .error t
    | none => .ok (ps.map (physGet s))
  | .fault c a => .error (hartException s hart c a)
  | .none => .error (hartException s hart (pageFault false) va)

/-- What the port has read for a form, part by part, charged to the controllers (R400). -/
def portCharge (s : State) (hart : Nat) (parts : List (Word × Nat)) : State :=
  parts.foldl (fun s x => match hartReach s hart x.1 false x.2 with
    | .ok ps => meterPlaces s (agentOf s hart) (ps.map Place.mem)
    | _ => s) s

/-! ## Fault records and attention entries (R351 to R353) -/

/-- The agent word of a race record (R281). -/
def agentWord (a : Agent) : Nat := a.kind % 256 * 2 ^ 48 + a.que % 65536 * 2 ^ 32 + a.id % 2 ^ 32

/-- The 64 bytes of a race record (R281). -/
def raceBytes (r : Race) : List Byte :=
  leBytes 8 r.vaddr.toNat ++ leBytes 8 r.paddr ++ leBytes 8 (agentWord r.late) ++ leBytes 8 (agentWord r.early) ++ leBytes 8 r.regionLate ++
    leBytes 8 r.regionEarly ++ leBytes 4 r.contLate ++ leBytes 4 r.contEarly ++ leBytes 4 r.kinds.toNat ++ leBytes 4 r.jobEarly

/-- The bytes of a fault record, with its race record when it has one (R351, R447). -/
def faultBytes (r : FaultRecord) : List Byte :=
  leBytes 4 r.cause ++ leBytes 1 r.agent ++ leBytes 1 r.jst ++
    leBytes 2 ((if r.race.isSome then 1 else 0) + if r.active then 2 else 0) ++ leBytes 4 r.cont ++ leBytes 4 r.gen ++ leBytes 4 r.job ++
    leBytes 4 r.phase ++ leBytes 4 r.launch ++ leBytes 4 r.core ++ leBytes 8 r.tepc.toNat ++ leBytes 8 r.tval.toNat ++ leBytes 8 r.tvc.toNat ++
    leBytes 4 r.word.toNat ++ leBytes 4 r.lost ++ leBytes 8 r.stamp ++ List.replicate 56 0 ++
    match r.race with
    | some x => raceBytes x
    | none => []

/-- An attention entry popped (R353): with the place that it frees, the entries that were only counted are appended as one of kind 15. -/
def popAttn (h : HartState) : Word × HartState :=
  match h.attn with
  | [] => (0, h)
  | e :: r =>
    (e, if h.attnLost = 0 then { h with attn := r }
        else { h with attn := r ++ [attnWord 15 (Nat.min 255 h.attnLost) 0 0], attnLost := 0 })

end Sys2Proof.Machine
end

