-- ==== Sys2Proof/Machine/HostForms.lean ====
section
/-!
DEFINITION. The host forms of the Rilow ports (R85, R86, R323 to R339) and the return of a blocking one.
-/

namespace Sys2Proof.Machine

open Sys2Proof

/-! ## The course of a form (R86, R323, R339) -/

/-- How a form ends at once: with its reply word, in a wait, or in an exception that its hart has taken. -/
inductive FormEnd where
  | done (s : State) (reply : Word)
  | wait (s : State) (w : HostWait)
  | trapped (s : State)

/-- A form refused with an `RST` (R326). -/
def refuse (s : State) (rst : Nat) : FormEnd := .done s (replyWord rst 0 0 0)

/-- A form ends: its reply word is written if its reply bit is 1, and the hart goes on (R325). -/
def endForm (s : State) (hart : Nat) (reply : Bool) (rd : BitVec 5) (v : Word) : State :=
  modHart (hartNext s hart) hart fun h => if reply then { h.setReg rd v with waiting := none } else { h with waiting := none }

/-- A form on the hart that issues (R86, R323): a legal word, then a port that holds the running thread's state, then the form itself. -/
def hostForm (word : IWord) (p : BitVec 1) (rd : BitVec 5) (body : Nat → State → FormEnd) (s : State) : Host.Outcome State Fault Refusal :=
  let hart := s.cur.hart
  if (getHart s hart).waiting.isSome || hartQueued s hart then .next s
  else if p = 0 ∧ rd ≠ 0 then .next (hartException s hart 2 (word.setWidth 64))
  else if !(portBound (getHart s hart)) then .next (hartException s hart 24 (word.setWidth 64))
  else
    match body hart s with
    | .done t v => .next (endForm t hart (p == 1) rd v)
    | .wait t w => .next (modHart t hart fun h => { h with waiting := some { what := w, reply := p == 1, rd := rd } })
    | .trapped t => .next t

/-- The continuation that a form acts on, or the `RST` that refuses it: none; one that the device has terminated; one whose partition is in its error
state (R326, R355). `always` marks the forms that a terminated continuation still takes. -/
def formCont (s : State) (hart : Nat) (always : Bool) : Except Nat Nat :=
  match portCont s hart with
  | none => .error 1
  | some c =>
    if always then .ok c
    else
      match (getCont s c).terminated with
      | some st => .error (if st = 7 then 7 else 1)
      | none => if partitionFailed s c then .error 7 else .ok c

/-- The `RST` of a form that R355 refuses on a port whose continuation the device has terminated; another value where it has not. -/
def endedRst (s : State) (hart other : Nat) : Nat :=
  match (portCont s hart).bind fun c => (getCont s c).terminated with
  | some st => if st = 7 then 7 else 1
  | none => other

/-- The job that rs1 names: 0 stands for the port's latest (R331). -/
def namedJob (s : State) (hart : Nat) (v : Word) : Nat := if v = 0 then (getHart s hart).port.lastjob.toNat else v.toNat

/-! ## Waits and their ends (R331, R334) -/

/-- What a join or a query takes from a job that has ended: an acquire at `host` scope (R331). -/
def acquireJob (s : State) (hart : Nat) (j : Job) : State :=
  if statusFinal j.status then j.endRel.foldl (fun s r => acquireHist s (agentOf s hart) r.hist) s else s

/-- A continuation freed, and the port's thread has none any more (R334). -/
def freeCont (s : State) (hart cont : Nat) : State :=
  modHart (releaseCont s cont) hart fun h => { h with port := { h.port with cont := 0xFFFFFFFF } }

/-- The jobs of a list that are kept and have ended otherwise than complete. -/
def failedJobs (c : ContState) (ids : List Nat) : List Job :=
  c.jobs.filter fun j => ids.contains j.id && statusFinal j.status && j.status != 0

/-- The end of a wait, if it has come: the state and the reply word. -/
def waitEnd (s : State) (hart : Nat) : HostWait → Option (State × Word)
  | .join cont job =>
    match findJob s cont job with
    | none => some (s, replyWord 3 0 0 0)
    | some j =>
      if statusFinal j.status then
        some (acquireJob s hart j, replyWord 0 j.status (getCont s cont).faultQ.length job)
      else none
  | .fence cont ids =>
    let c := getCont s cont
    if (openJobs c).any fun j => ids.contains j.id then none
    else
      let t := (c.jobs.filter fun j => ids.contains j.id).foldl (fun s j => acquireJob s hart j) s
      let n := (failedJobs c ids).length
      some (t, replyWord 0 (if n = 0 then 0 else 3) n 0)
  | .free cont => if quiet s cont then some (freeCont s hart cont, replyWord 0 0 0 cont) else none

/-- A form that waits for an end: at once if it has come. -/
def waitFor (s : State) (hart : Nat) (w : HostWait) : FormEnd :=
  match waitEnd s hart w with
  | some (t, v) => .done t v
  | none => .wait s w

/-! ## The forms -/

/-- A free continuation identifier, found from a free choice on (R320); a freed one may be given out again. -/
def freshCont (s : State) : Nat :=
  let from0 := Config.pick s.free
  ((List.range (s.conts.length + 1)).map fun i => (from0 + i) % 2 ^ 20).find? (fun c => !(getCont s c).live) |>.getD 0

/-- The partition of a continuation that a hart binds: the one whose second-stage root is the hart's, else one that no root is bound to yet (R388, R444). DESIGN CHOICE (log 26): a
partition takes its root from the first continuation that is bound into it. -/
def rootPart (s : State) (root : Word) : Option Nat :=
  match s.boot.parts.find? fun p => p.2.root == some root with
  | some p => some p.1
  | none =>
    let open_ := s.boot.parts.filter fun p => p.2.root.isNone
    (open_[Config.pick s.free % open_.length]?).map Prod.fst

/-- The partition of a continuation has its second-stage root from now on (R388, R444). -/
def rootBound (s : State) (c : Nat) : State :=
  match (getCont s c).partition with
  | some p => modPart s p fun x => { x with root := some (getCont s c).hgatp }
  | none => s

/-- The continuation that a `CBIND` creates (R320, R329): its generation is 1, or the next of a reused identifier. -/
def boundState (s : State) (hart c : Nat) (flags : Word) : ContState :=
  let h := getHart s hart
  let old := getCont s c
  let part := rootPart s h.hgatp
  { ContState.init with
    live := true, gen := if old.gen = 0 then 1 else old.gen, satp := h.satp, hgatp := if part.isSome then h.hgatp else 0, flags := flags
    cls := bits flags.toNat 0 2, bind := bits flags.toNat 0 2, hart := hart, spill := bits flags.toNat 3 5
    partition := part }

/-- `CBIND`: creates a continuation for the port's thread (R329). -/
def execCbind (s : BitVec 5) (p : BitVec 1) (d : BitVec 5) (st : State) : Host.Outcome State Fault Refusal :=
  hostForm (wordHost 0 0 s p d) p d (fun hart t =>
    let h := getHart t hart
    let flags := h.reg s
    if h.port.cont ≠ 0xFFFFFFFF then refuse t (endedRst t hart 2)
    else if flags.toNat / 256 ≠ 0 then refuse t 4
    else
      let c := freshCont t
      let t := { t with free := t.free + 1 }
      let die := homeDie c
      if 100000 ≤ (t.conts.filter fun x => x.2.live).length ∨ backingPart t < usedOn t die + 256 then refuse t 9
      else
        let k := boundState t hart c flags
        let t := rootBound (setUsed (modCont t c fun _ => k) die (usedOn t die + 256)) c
        if partitionFailed t c then refuse (setUsed (modCont t c fun k => { k with live := false }) die (usedOn t die - 256)) 7
        else
          let t := modHart t hart fun h => { h with port := { h.port with
            cont := BitVec.ofNat 32 c, gen := k.gen, vers := 0x10000, flags := flags.setWidth 32, hart := BitVec.ofNat 32 hart, lastjob := 0 } }
          .done t (replyWord 0 0 (k.gen.toNat % 65536) c)) st

/-- The parameter sizes of images, read through a hart's translation. -/
def portSizes (s : State) (hart : Nat) (w : IWord) : List Word → Except State (Tab Word Nat)
  | [] => .ok []
  | va :: r =>
    match portRead s hart w (va + 0x30) 4 with
    | .error t => .error t
    | .ok bs =>
      match portSizes s hart w r with
      | .error t => .error t
      | .ok rest => .ok ((va, leValue bs) :: rest)

/-- The entries of a patch list at an address, and how many; none for an address 0 (R360). -/
def portPatches (s : State) (hart : Nat) (w : IWord) (va : Word) : Except State (Nat × List Byte) :=
  if va = 0 then .ok (0, [])
  else
    match portRead s hart w va 8 with
    | .error t => .error t
    | .ok h =>
      let n := leValue h
      if 65536 < n then .ok (n, [])
      else match portRead s hart w (va + 8) (16 * n) with
        | .error t => .error t
        | .ok bs => .ok (n, bs)

/-- The parts of a descriptor and of a patch list of n entries that the port has read. -/
def startParts (desc list : Word) (n : Nat) : List (Word × Nat) :=
  (desc, 64) :: if list = 0 then [] else [(list, 8), (list + 8, if 65536 < n then 0 else 16 * n)]

/-- The region in which each hart stands. -/
def hartRegions (s : State) : Tab Nat Nat := (s.order.regions.filter fun x => x.1.kind == 10).map fun x => (x.1.id, x.2)

/-- A job accepted from a hart: the port's latest job, and, with a first open job, the regions from which the harts' are counted in its continuation (R280, R330). -/
def startedJob (s : State) (hart cont id : Nat) (first : Bool) : State :=
  let s := bumpRegion s (agentOf s hart)
  let s := if first then modCont s cont fun k => { k with bases := hartRegions s } else s
  modHart s hart fun h => { h with port := { h.port with lastjob := BitVec.ofNat 32 id } }

/-- `CSTART`: starts a job (R330); the hart's earlier accesses are released at `host` scope. -/
def execCstart (r : BitVec 5) (s : BitVec 5) (p : BitVec 1) (d : BitVec 5) (st : State) : Host.Outcome State Fault Refusal :=
  hostForm (wordHost 1 r s p d) p d (fun hart t =>
    let h := getHart t hart
    match formCont t hart false with
    | .error e => refuse t e
    | .ok c =>
      if (h.reg s).toNat % 64 ≠ 0 then refuse t 4
      else
        let w := wordHost 1 r s p d
        match portRead t hart w (h.reg s) 64 with
        | .error t => .trapped t
        | .ok desc =>
          match portPatches t hart w (h.reg r) with
          | .error t => .trapped t
          | .ok (n, ps) =>
            let read := startParts (h.reg s) (h.reg r) n
            if 65536 < n then refuse (portCharge t hart read) 4
            else
              let images := patchedImages t c (readDesc desc) (readPatches ps n).1
              match portSizes t hart w images with
              | .error t => .trapped t
              | .ok sizes =>
                let t := portCharge t hart (read ++ images.map fun va => (va + 0x30, 4))
                let first := (openJobs (getCont t c)).isEmpty
                match tryStart t c desc ps n sizes (some hart) (releaseOf t (agentOf t hart) 7) with
                | .error e => refuse t e
                | .ok (id, t) => .done (startedJob t hart c id first) (replyWord 0 1 0 id)) st

/-- `CJOIN`: waits until a job's status is final (R331). -/
def execCjoin (s : BitVec 5) (p : BitVec 1) (d : BitVec 5) (st : State) : Host.Outcome State Fault Refusal :=
  hostForm (wordHost 2 0 s p d) p d (fun hart t =>
    match formCont t hart true with
    | .error e => refuse t e
    | .ok c => waitFor t hart (.join c (namedJob t hart ((getHart t hart).reg s)))) st

/-- `CQUERY`: a job's status as it stands, and its phases not yet complete (R331). -/
def execCquery (s : BitVec 5) (p : BitVec 1) (d : BitVec 5) (st : State) : Host.Outcome State Fault Refusal :=
  hostForm (wordHost 3 0 s p d) p d (fun hart t =>
    match formCont t hart true with
    | .error e => refuse t e
    | .ok c =>
      match findJob t c (namedJob t hart ((getHart t hart).reg s)) with
      | none => refuse t 3
      | some j => .done (acquireJob t hart j)
          (replyWord 0 j.status (j.nphase - (j.past.filter fun q => q.status == 0).length) j.id)) st

/-- `CFENCE`: waits until every job that `CSTART` started before it has a final status (R331). -/
def execCfence (p : BitVec 1) (d : BitVec 5) (st : State) : Host.Outcome State Fault Refusal :=
  hostForm (wordHost 4 0 0 p d) p d (fun hart t =>
    match formCont t hart false with
    | .error e => refuse t e
    | .ok c => waitFor t hart (.fence c (((getCont t c).jobs.filter fun j => j.hart.isSome).map (·.id)))) st

/-- The resident units of a continuation. -/
def residentUnits (s : State) (cont : Nat) : List Nat :=
  (s.units.filter fun p => p.2.alive && p.2.place.resident && p.2.ident.key.cont == cont).map Prod.fst

/-- `CPARK`: asks the scheduler to park every resident unit of the continuation (R332). -/
def execCpark (p : BitVec 1) (d : BitVec 5) (st : State) : Host.Outcome State Fault Refusal :=
  hostForm (wordHost 5 0 0 p d) p d (fun hart t =>
    match formCont t hart false with
    | .error e => refuse t e
    | .ok c =>
      let us := residentUnits t c
      .done (modCont t c fun k => { k with parkAsked := (us.map fun u => (getUnit t u).ident.key).eraseDups })
        (replyWord 0 0 us.length 0)) st

/-- `CCANCEL`: cancels one instance (R22, R333, R369). -/
def execCcancel (r : BitVec 5) (s : BitVec 5) (p : BitVec 1) (d : BitVec 5) (st : State) : Host.Outcome State Fault Refusal :=
  hostForm (wordHost 6 r s p d) p d (fun hart t =>
    let h := getHart t hart
    let id := (h.reg s).toNat
    let v := (h.reg r).toNat
    let level := v % 256
    match formCont t hart false with
    | .error e => refuse t e
    | .ok c =>
      if v / 256 ≠ 0 ∧ (level ≠ 0 ∨ v / 2 ^ 24 ≠ 0) then refuse t 4
      else
        match instanceAt t c level id (v / 256) none with
        | none => refuse t 3
        | some i => .done (cancelInstance t c level id (v / 256)) (replyWord 0 (cancelledStatus level i) 0 id)) st

/-- `CFREE`: ends the continuation (R334): every job that is not final is revoked, and the form waits until all its work has ended. -/
def execCfree (p : BitVec 1) (d : BitVec 5) (st : State) : Host.Outcome State Fault Refusal :=
  hostForm (wordHost 7 0 0 p d) p d (fun hart t =>
    match formCont t hart true with
    | .error e => refuse t e
    | .ok c => waitFor (cancelAll t c 11) hart (.free c)) st

/-- `CSIGNAL`: `SIGDEC` of rs2 on the counter at rs1, `rel` at `host` (R335). -/
def execCsignal (r : BitVec 5) (s : BitVec 5) (p : BitVec 1) (d : BitVec 5) (st : State) : Host.Outcome State Fault Refusal :=
  hostForm (wordHost 8 r s p d) p d (fun hart t =>
    let h := getHart t hart
    let va := h.reg s
    match formCont t hart false with
    | .error e => refuse t e
    | .ok _ =>
      if va.toNat % 8 ≠ 0 then .trapped (hartException t hart 6 va)
      else
        match hartReach t hart va true 8 with
        | .fault c a => .trapped (hartException t hart c a)
        | .none => .trapped (hartException t hart 15 va)
        | .ok ps =>
          match physWaits t (.form hart (wordHost 8 r s p d)) ps with
          | some t => .trapped t
          | none =>
          match hartMark t hart va ps true true with
          | .error x => .trapped (hartRaced t hart va x)
          | .ok t =>
            let a := agentOf t hart
            let o : AtomOp := { fn := 13, ord := 2, scope := 7, w32 := false, b := h.reg r, c := 0 }
            let t := rememberReads t a (wordKeys t (hartPlaces t ps))
            let (old, t) := hartAtomicAt t ps o (writeRels t a 2 7)
            let v := BitVec.ofNat 64 old - h.reg r
            .done (bumpRegion t a) (replyWord 0 (if v.msb then 1 else 0) 0 v.toNat)) st

/-- `CVERS`: negotiates the port version (R336, R435): the port implements 1.0. -/
def execCvers (s : BitVec 5) (p : BitVec 1) (d : BitVec 5) (st : State) : Host.Outcome State Fault Refusal :=
  hostForm (wordHost 9 0 s p d) p d (fun hart t =>
    let h := getHart t hart
    let v := h.reg s
    if endedRst t hart 0 ≠ 0 then refuse t (endedRst t hart 0)
    else if v = 0 then .done t (replyWord 0 0 0 h.port.vers.toNat)
    else if bits v.toNat 16 16 = 1 then
      .done (modHart t hart fun h => { h with port := { h.port with vers := 0x10000 } }) (replyWord 0 0 0 0x10000)
    else refuse t 6) st

/-- `CFAULT`: copies the oldest fault record to memory and removes it (R337, R351, R352). -/
def execCfault (r : BitVec 5) (s : BitVec 5) (p : BitVec 1) (d : BitVec 5) (st : State) : Host.Outcome State Fault Refusal :=
  hostForm (wordHost 10 r s p d) p d (fun hart t =>
    let h := getHart t hart
    let va := h.reg s
    match formCont t hart true with
    | .error e => refuse t e
    | .ok c =>
      if va.toNat % 64 ≠ 0 then refuse t 4
      else
        match (getCont t c).faultQ with
        | [] => .done t (replyWord 0 0 0 0)
        | f :: rest =>
          let bs := faultBytes f
          if (h.reg r).toNat < bs.length then refuse t 8
          else
            match hartReach t hart va true bs.length with
            | .fault c a => .trapped (hartException t hart c a)
            | .none => .trapped (hartException t hart 15 va)
            | .ok ps =>
              match physWaits t (.form hart (wordHost 10 r s p d)) ps with
              | some t => .trapped t
              | none =>
              let t := physPuts (meterPlaces t (agentOf t hart) (ps.map Place.mem)) ps bs
              .done (modCont t c fun k => { k with faultQ := rest }) (replyWord 0 0 rest.length bs.length)) st

/-! ## What befalls a waiting form (R331, R334, R339) -/

/-- `BLOCKING_FORM_RETURN`: what a waiting form waits for has come, and it returns (R331, R334). -/
def execBlockingFormReturn (hart : Nat) (s : State) : Host.Outcome State Fault Refusal :=
  .next (match (getHart s hart).waiting with
    | none => s
    | some w =>
      match waitEnd s hart w.what with
      | some (t, v) => endForm t hart w.reply w.rd v
      | none => s)

/-- The number of the service interrupt, which is not that of port-attention (log 27). -/
def serviceNumber : Nat :=
  let n := Config.serviceInterrupt % 63
  if n < 19 then n else n + 1

/-- Whether the ring of some die has raised its service interrupt at a hart, the one that `FQCFG` names (R394, R396). -/
def serviceRaised (s : State) (hart : Nat) : Bool :=
  [0, 1, 2, 3].any fun d => (getDie s d).ring.irq && bits (getDie s d).ring.cfg.toNat 16 7 == hart

/-- `sip` of a hart, as far as the manual describes it: interrupt 19, port-attention, is pending while its queue is not empty (R353), and the service interrupt from its being
raised until the ring is empty (R394, R396). -/
def hartPending (s : State) (hart : Nat) : Word :=
  (if (getHart s hart).attn.isEmpty then (0 : Word) else 1#64 <<< 19) ||| (if serviceRaised s hart then 1#64 <<< serviceNumber else 0)

/-- Whether a hart can take an interrupt of a number: the manual's two only where they are pending and enabled. -/
def mayInterrupt (s : State) (hart n : Nat) : Bool :=
  (n != 19 && n != serviceNumber) || ((hartPending s hart).getLsbD n && (getHart s hart).sie.getLsbD n)

/-- The cause of the interrupt that a hart takes: one that the manual does not name, or one of the manual's when that is pending and enabled (R353, R396). -/
def interruptCause (s : State) (hart : Nat) (free : Word) : Word :=
  let c := free ||| (1#64 <<< 63)
  if mayInterrupt s hart (c.toNat % 2 ^ 63) then c else (1#64 <<< 63) + if serviceNumber = 0 then 1 else 0

/-- `HOST_FORM_INTERRUPT`: a hart takes an interrupt in a waiting form, with `sepc` at the form and no reply; executed again, the form waits on
(R339). Which of the pending and enabled interrupts it is and where the hart goes on is not the manual's (log 27). -/
def execHostFormInterrupt (hart : Nat) (s : State) : Host.Outcome State Fault Refusal :=
  .next (if (getHart s hart).waiting.isNone then s
    else modHart { s with free := s.free + 2 } hart fun h => { h with
      waiting := none, sepc := h.pc, scause := interruptCause s hart (Config.freeValue s.free), pc := Config.freeValue (s.free + 1), user := false })

end Sys2Proof.Machine
end

