-- ==== Sys2Proof/Machine/PagingEvents.lean ====
section
/-!
DEFINITION. The events of translation and paging (R391, R392, R396, R397).
-/

namespace Sys2Proof.Machine

open Sys2Proof

/-- `WALK_COMPLETE`: one of a die's 1,024 running walks ends (R389 to R394). It waits while the controller of an entry has spent its budget with the reserve (R401). -/
def execWalkComplete (die idx : Nat) (s : State) : Host.Outcome State Fault Refusal :=
  .next (if 1024 ≤ idx then s
    else
      match (getDie s die).walks[idx]? with
      | none => s
      | some w =>
        if walkQueues s w then s else walkDone (modDie (chargeWalk s w) die fun d => { d with walks := d.walks.eraseIdx idx }) die w)

/-- `FQTAIL` written (R394, R396). -/
def writeFqtail (s : State) (die : Nat) (v : Word) : State :=
  settle (modDie s die fun d =>
    let r := { d.ring with tail := v.toNat % d.ring.size }
    { d with ring := { r with irq := r.irq && r.count != 0 } }) die

/-- `FQCFG` written (R396). -/
def writeFqcfg (s : State) (die : Nat) (v : Word) : State :=
  settle (modDie s die fun d => { d with ring := { d.ring with cfg := fqcfgMask v } }) die

/-- `FQTAIL_WRITE`: the service has copied entries; faults that waited for room are posted (R394, R396). -/
def execFqtailWrite (die : Nat) (v : Word) (s : State) : Host.Outcome State Fault Refusal := .next (writeFqtail s die v)

/-- `FQCFG_WRITE`: the ring's size, its enable and the hart of its interrupt (R396). -/
def execFqcfgWrite (die : Nat) (v : Word) (s : State) : Host.Outcome State Fault Refusal := .next (writeFqcfg s die v)

/-- A retry: every waiter walks again from the start (R397). -/
def retryRecord (die : Nat) (s : State) (r : FaultRec) : State := modDie s die fun d => { d with walks := d.walks ++ r.waiters }

/-- A reject: the access of every waiter is unmapped (R393, R397). -/
def rejectRecord (s : State) (r : FaultRec) : State := r.waiters.foldl unmappedFor s

/-- A termination with status out-of-memory (R355, R397). -/
def terminateRecord (s : State) (r : FaultRec) : State :=
  terminateCont (r.waiters.foldl (fun s w => match w.waiter with
    | .seq .. => s
    | .node .. => s
    | _ => unmappedFor s w) s) r.cont 6

/-- `FQRPL_RETRY`: every waiter walks again from the start (R397). -/
def execFqrplRetry (die : Nat) (w : Word) (s : State) : Host.Outcome State Fault Refusal := .next (replay s die w 0 (retryRecord die))

/-- `FQRPL_REJECT`: the access of every waiter is unmapped (R393, R397). -/
def execFqrplReject (die : Nat) (w : Word) (s : State) : Host.Outcome State Fault Refusal := .next (replay s die w 1 rejectRecord)

/-- `FQRPL_TERMINATE`: the continuation is terminated with status out-of-memory (R355, R397). -/
def execFqrplTerminate (die : Nat) (w : Word) (s : State) : Host.Outcome State Fault Refusal := .next (replay s die w 2 terminateRecord)

/-! ## The registers of the fault rings (R8, R396, R399) -/

/-- `FQBASE` written: a multiple of 4 KiB, while the ring is disabled. DESIGN CHOICE (log 75): an address outside node 0, the only one that may hold a ring (R399), is
ignored. -/
def writeFqbase (s : State) (die : Nat) (v : Word) : State :=
  let b := v &&& ~~~(0xFFF#64)
  if (getDie s die).ring.on || !(inNode0 b.toNat) then s else modDie s die fun d => { d with ring := { d.ring with base := b } }

/-- `FQRPL` written: the replay word acts by its `ACT`; the reserved one is discarded and counted (R397). -/
def writeFqrpl (s : State) (die : Nat) (w : Word) : State :=
  match bits w.toNat 32 2 with
  | 0 => replay s die w 0 (retryRecord die)
  | 1 => replay s die w 1 rejectRecord
  | 2 => replay s die w 2 terminateRecord
  | _ => { s with gendrop := s.gendrop + 1 }

/-- The die and the offset of an address of the Rilow complex's device register space that lies in a die's block of ring registers (R396). -/
def fqBlock (addr : Nat) : Option (Nat × Nat) :=
  if 0x40000000 ≤ addr ∧ addr < 0x40004000 then some ((addr - 0x40000000) / 0x1000, addr % 0x1000) else none

/-- A ring register of a die read by its access code (R8, R396); none where no register stands. -/
def readFq (s : State) (die off : Nat) : Option Word :=
  let r := (getDie s die).ring
  match off with
  | 0x00 => some r.base
  | 0x08 => some r.cfg
  | 0x10 => some (BitVec.ofNat 64 r.head)
  | 0x18 => some (BitVec.ofNat 64 r.tail)
  | 0x20 => some 0
  | 0x28 => some (r.seq.setWidth 64)
  | _ => none

/-- A ring register of a die written by its access code (R8, R396). -/
def writeFq (s : State) (die off : Nat) (v : Word) : State :=
  match off with
  | 0x00 => writeFqbase s die v
  | 0x08 => writeFqcfg s die v
  | 0x18 => writeFqtail s die v
  | 0x20 => writeFqrpl s die v
  | _ => s

/-- `SFENCE_VMA`: a fence of translations on a hart (R391). -/
def execSfenceVma (_hart : Nat) (addr : Option Word) (space : FenceKind × Option Word) (s : State) : Host.Outcome State Fault Refusal :=
  .next (fenceVma s space.1 addr space.2)

end Sys2Proof.Machine
end

