-- ==== Sys2Proof/Machine/HostEvents.lean ====
section
/-!
DEFINITION. The events around the harts and the external host (R8, R269, R278, R322, R350, R353, R396), the spill of marks (R282, R283) and the flush of
cask stages (R306).
-/

namespace Sys2Proof.Machine

open Sys2Proof

/-! ## Control and status registers (R8, R10, R322, R353) -/

/-- A hart's access to a CSR of the port: from user mode it is an illegal instruction (R322). -/
def csr (s : State) (hart : Nat) (f : State → Host.Outcome State Fault Refusal) : Host.Outcome State Fault Refusal :=
  if (getHart s hart).user then .next (hartException s hart 2 0) else f s

/-- Whether n bytes from a physical address are populated. -/
def allPopulated (pa n : Nat) : Bool := (List.range n).all fun i => populated (pa + i)

/-- The n addresses from one on. -/
def bytesFrom (pa n : Nat) : List Nat := (List.range n).map fun i => pa + i

/-- `CPSAVE`: the selected port's block is saved at a physical address, and the port is empty (R322, R324); it waits for a form that stands on that
port, and for its budget (R401). An address that is not a multiple of 256 is none that the register takes, and nothing happens. -/
def execCpsave (hart : Nat) (addr : Word) (s : State) : Host.Outcome State Fault Refusal :=
  csr s hart fun s =>
    let sel := (getHart s hart).cpsel.toNat % 128
    if addr.toNat % 256 ≠ 0 ∨ (getHart s sel).waiting.isSome ∨ hartQueued s hart then .next s
    else if !(allPopulated addr.toNat 256) then .fault .unpopulatedAddress
    else match physWaits s (.port hart addr false) (bytesFrom addr.toNat 256) with
    | some t => .next t
    | none =>
      let s := meterPlaces s (agentOf s hart) ((bytesFrom addr.toNat 256).map Place.mem)
      let s := physPut s addr.toNat (portBlock s sel (getHart s sel).port)
      .next (modHart (hartNext s hart) sel fun h => { h with port := Port.init })

/-- The attention entries of a loaded continuation go to the port's hart (R322, R353). -/
def followHart (s : State) (p : Port) (hart : Nat) : State :=
  let c := getCont s p.cont.toNat
  if p.cont ≠ 0xFFFFFFFF ∧ c.live then modCont s p.cont.toNat fun c => { c with hart := hart } else s

/-- `CPLOAD`: the block at a physical address is loaded into the selected port; a seal that does not match raises exception 26 and leaves the port
empty (R322). -/
def execCpload (hart : Nat) (addr : Word) (s : State) : Host.Outcome State Fault Refusal :=
  csr s hart fun s =>
    let sel := (getHart s hart).cpsel.toNat % 128
    if addr.toNat % 256 ≠ 0 ∨ (getHart s sel).waiting.isSome ∨ hartQueued s hart then .next s
    else if !(allPopulated addr.toNat 256) then .fault .unpopulatedAddress
    else match physWaits s (.port hart addr true) (bytesFrom addr.toNat 256) with
    | some t => .next t
    | none =>
      let s := meterPlaces s (agentOf s hart) ((bytesFrom addr.toNat 256).map Place.mem)
      let bs := physBytes s addr.toNat 256
      if blockSealed s bs then
        let p := loadPort sel bs
        .next (followHart (modHart (hartNext s hart) sel fun h => { h with port := p }) p sel)
      else .next (hartException (modHart s sel fun h => { h with port := Port.init }) hart 26 addr)

/-- `CPATTN`: pops one attention entry of the hart into rd (R322, R353). -/
def execCpattn (hart : Nat) (rd : BitVec 5) (s : State) : Host.Outcome State Fault Refusal :=
  csr s hart fun s =>
    let (v, h) := popAttn (getHart s hart)
    .next (hartNext (modHart s hart fun _ => h.setReg rd v) hart)

/-- A CSR of a hart that a read changes nothing of, by its number (R8, R322, R353); the write-only ones read as 0. -/
def readCsr (s : State) (hart num : Nat) : Option Word :=
  let h := getHart s hart
  match num with
  | 0x104 => some h.sie
  | 0x144 => some (hartPending s hart)
  | 0x5C0 => some h.cpthr
  | 0x5C1 => some h.cpsel
  | 0x5C2 => some 0
  | 0x5C3 => some 0
  | 0xDC1 => some s.gendrop
  | _ => none

/-- A CSR written that a hart only sets, if its access is legal in the hart's mode. -/
def setCsr (s : State) (hart : Nat) (f : HartState → HartState) : Host.Outcome State Fault Refusal :=
  csr s hart fun s => .next (modHart (hartNext s hart) hart f)

/-- `REGISTER_WRITE`: a write of a register that no command of its own writes, by its access code (R8, R10): read-only ones ignore it, reserved bits
read as 0; `FQBASE` is writable only while its ring is disabled (R396). -/
def execRegisterWrite (reg : RegName) (v : Word) (s : State) : Host.Outcome State Fault Refusal :=
  match reg with
  | .fqbase die => .next (writeFqbase s die v)
  | .fqhead _ => .next s
  | .fqseq _ => .next s
  | .wslot core => .next (writeWindow s core 0xC00010 v)
  | .window core off => .next (if 0x800000 ≤ off ∧ off < 0x1000000 ∧ core < 768 then writeWindow s core (off / 8 * 8) v else s)
  | .cpthr hart => setCsr s hart fun h => { h with cpthr := v &&& 0xFFFFFFFFFFFF }
  | .cpsel hart => setCsr s hart fun h => { h with cpsel := v &&& 0x7F }
  | .cpgdrop hart => setCsr s hart id
  | .sie hart => setCsr s hart fun h => { h with sie := v }

/-! ## Accesses of harts (R269, R278, R350) -/

/-- A hart's access of n bytes that has passed translation, its budget and the check of marks, then what it does. -/
def hartDo (s : State) (hart : Nat) (acc : HartAcc) (va : Word) (n : Nat) (write atomic : Bool) (f : State → List Nat → State) :
    Host.Outcome State Fault Refusal :=
  match hartReach s hart va (write || atomic) n with
  | .fault c a => .next (hartException s hart c a)
  | .none => .fault .unpopulatedAddress
  | .ok ps =>
    match physWaits s (.hart hart acc) ps with
    | some t => .next t
    | none =>
      match hartMark s hart va ps write atomic with
      | .error r => .next (hartRaced s hart va r)
      | .ok t => .next (hartNext (f t ps) hart)

/-- What an atomic memory operation of a hart does (R271, R278, R284): aq and rl act at `host`, and what it releases holds what it has acquired; rd takes the old value, a 32-bit
one sign-extended. -/
def hartAtomic (hart : Nat) (rd : BitVec 5) (o : AtomOp) (s : State) (ps : List Nat) : State :=
  let a := agentOf s hart
  let s := atomicReadOrder s a (wordKeys s (hartPlaces s ps)) o.ord 7
  let (old, s) := hartAtomicAt s ps o (writeRels s a o.ord 7)
  let s := if o.ord = 0 then s else bumpRegion s a
  modHart s hart fun h => h.setReg rd (if o.w32 then (BitVec.ofNat 32 old).signExtend 64 else BitVec.ofNat 64 old)

/-- A hart's load from its device register space: a ring register (R396) or the mailbox (R442). What else stands there the manual does not say, and such a load gives a free value. -/
def deviceLoad (s : State) (hart : Nat) (rd : BitVec 5) (addr : Nat) : State :=
  let value := if inMail addr then some (mailLoad s (addr - mailBase)) else (fqBlock addr).bind fun x => readFq s x.1 x.2
  match value with
  | some v => modHart (hartNext s hart) hart fun h => h.setReg rd v
  | none => modHart (hartNext { s with free := s.free + 1 } hart) hart fun h => h.setReg rd (Config.freeValue s.free)

/-- A hart's store to its device register space: a ring register (R396) or the mailbox (R442); another changes nothing that the manual names. -/
def deviceStore (s : State) (addr : Nat) (data : Word) : State :=
  if inMail addr then mailStore s (addr - mailBase) data
  else match fqBlock addr with
  | some (die, off) => writeFq s die off data
  | none => s

/-- `HART_ACCESS`: a load, a store, an atomic memory operation or a fence of a hart (R269, R278), a read of a CSR (R322, R353), or an access of a ring register (R396). A
hart that waits in a form, or for a budget, does not act. -/
def execHartAccess (hart : Nat) (acc : HartAcc) (s : State) : Host.Outcome State Fault Refusal :=
  if (getHart s hart).waiting.isSome || hartQueued s hart then .next s
  else
    match acc with
    | .load rd va size => hartDo s hart acc va size false false fun s ps =>
        modHart s hart fun h => h.setReg rd (BitVec.ofNat 64 (leValue (ps.map (physGet s))))
    | .store va size data => hartDo s hart acc va size true false fun s ps =>
        physPuts s ps (leBytes size data.toNat)
    | .amo rd fn ord w32 va b c =>
      let n := if w32 then 4 else 8
      if va.toNat % n ≠ 0 then .next (hartException s hart 6 va)
      else hartDo s hart acc va n (fn != 0) true (hartAtomic hart rd { fn := fn, ord := ord, scope := 7, w32 := w32, b := b, c := c })
    | .fence ord => .next (hartNext (fenceOrder s (agentOf s hart) ord 7) hart)
    | .csr rd num =>
      if num = 0xDC0 then execCpattn hart rd s
      else match readCsr s hart num with
        | some v => setCsr s hart fun h => h.setReg rd v
        | none => .next s
    | .deviceLoad rd addr => .next (deviceLoad s hart rd addr)
    | .deviceStore addr data => .next (hartNext (deviceStore s addr data) hart)

/-- `HART_DEVICE_RACE`: a hart's access to a byte is checked; a race raises exception 25 and posts a fault record (R278, R350). -/
def execHartDeviceRace (hart : Nat) (va : Word) (write : Bool) (s : State) : Host.Outcome State Fault Refusal :=
  .next (match hartReach s hart va write 1 with
    | .ok ps =>
      match hartMark s hart va ps write false with
      | .error r => hartRaced s hart va r
      | .ok _ => s
    | _ => s)

/-! ## The external host (R269) -/

/-- The keys of the words of memory in a physical range; windows and rows carry none. -/
def extKeys (s : State) (pa n : Nat) : List Nat :=
  wordKeys s (((List.range n).filter fun i => isMemory (pa + i)).map fun i => .mem (pa + i))

/-- The physical addresses of an external access. -/
def extBytes : ExtAcc → List Nat
  | .read _ pa n => bytesFrom pa n
  | .write _ pa n _ => bytesFrom pa n

/-- Whether the device aborts a request that its receive logic has not accepted: one of a tenant whose interface is in its error state (R445). -/
def extAborts (s : State) : ExtAcc → Bool
  | .read (some p) _ _ => (tabGet s.boot.parts p).any fun x => x.tdisp == .error
  | .write (some p) _ _ _ => (tabGet s.boot.parts p).any fun x => x.tdisp == .error
  | _ => false

/-- An access of the external host made, an `sc` atomic of its size at `sys`, its requests charged (R269, R400). -/
def extDo (s : State) (acc : ExtAcc) : State :=
  let s := meterPlaces s extAgent ((extBytes acc).map Place.mem)
  match acc with
  | .read _ pa n => bumpRegion (atomicReadOrder s extAgent (extKeys s pa n) 4 8) extAgent
  | .write _ pa n data => bumpRegion (writeHeads (physPut s pa (leBytes n data.toNat)) (extKeys s pa n) (writeRels s extAgent 4 8) false) extAgent

/-- `EXTERNAL_HOST_ACCESS`: an access that never races (R269), which waits for its budget (R401); one that meets an interface in its error state ends in a completer abort, and
does nothing (R445). -/
def execExternalHostAccess (acc : ExtAcc) (s : State) : Host.Outcome State Fault Refusal :=
  if extAborts s acc then .next s
  else if !((extBytes acc).all populated) then .fault .unpopulatedAddress
  else match physWaits s (.ext acc) (extBytes acc) with
    | some t => .next t
    | none => .next (extDo s acc)

/-- A request of a hart or of the external host that its controller serves: it stands in the queue no more, and is made with its ticket (R401). -/
def serveAsk (s : State) (a : QueuedAsk) (form : Nat → IWord → State → Host.Outcome State Fault Refusal) : Host.Outcome State Fault Refusal :=
  let s : State := { s with cur := { s.cur with ticket := some (a.controller, a.ticket) }
                            meter := { s.meter with queue := s.meter.queue.erase a } }
  let o := match a.who with
    | .hart hart acc => execHartAccess hart acc s
    | .form hart w => form hart w s
    | .port hart addr load => if load then execCpload hart addr s else execCpsave hart addr s
    | .ext acc => match physWaits s (.ext acc) (extBytes acc) with | some t => .next t | none => .next (extDo s acc)
    | _ => .next s
  match o with
  | .next t => .next { t with cur := { t.cur with ticket := none } }
  | o => o

/-! ## The lees table (R282, R283) -/

/-- The entries that marks take: one for each region, continuation and 128-byte line. -/
def leesOf (s : State) (ms : List Mark) : List LeesEntry :=
  (ms.flatMap fun m =>
    let a := placePa s m.word
    (List.range ((a + 4 * m.words + 127) / 128 - a / 128)).map fun i =>
      ({ agent := m.agent, region := m.region, cont := m.cont, line := a / 128 + i } : LeesEntry)).eraseDups

/-- The marks that have spilled. -/
def spilledMarks (s : State) : List Mark := s.order.marks.filter (·.spilled)

/-- The read or the write bits of an entry: one for each word of its line that marks of its region cover. -/
def leesBits (s : State) (ms : List Mark) (e : LeesEntry) (write : Bool) : Nat :=
  ((List.range 32).map fun i =>
    if ms.any fun m => m.agent == e.agent && m.region == e.region && m.cont == e.cont && m.write == write &&
        placePa s m.word ≤ 128 * e.line + 4 * i && 128 * e.line + 4 * i < placePa s m.word + 4 * m.words then 2 ^ i else 0).foldl (· + ·) 0

/-- The 32 bytes of an entry. -/
def leesBytes (s : State) (ms : List Mark) (e : LeesEntry) : List Byte :=
  leBytes 8 (128 * e.line + 1) ++ leBytes 8 (agentWord e.agent) ++ leBytes 8 (shownRegion s e.agent e.region % 2 ^ 32 * 2 ^ 32 + e.cont % 2 ^ 32) ++
    leBytes 8 (leesBits s ms e true * 2 ^ 32 + leesBits s ms e false)

/-- The lowest slot that holds no entry. -/
def leesSlot (t : Tab Nat LeesEntry) : Nat := ((List.range (t.length + 1)).find? fun n => (tabGet t n).isNone).getD 0

/-- The table's slots for a list of entries: those that stand keep theirs, the others take the lowest that are free. -/
def leesSlots (t : Tab Nat LeesEntry) (es : List LeesEntry) : Tab Nat LeesEntry :=
  es.foldl (fun t e => if t.any fun x => x.2 == e then t else tabPut t (leesSlot t) e) (t.filter fun x => es.contains x.2)

/-- The bytes of a slot of the table written. -/
def leesPut (s : State) (slot : Nat) (bs : List Byte) : State :=
  if slot < s.sched.leesSize / 32 then { s with mem := memPutBytes s.mem (s.sched.leesBase + 32 * slot) bs } else s

/-- The table in HBM brought up to date with the marks that have spilled (R282): slots given free read 0. DESIGN CHOICE (log 53): an entry takes the lowest free slot,
and one whose marks have retired stays in HBM until the next spill, since the base dies cache the table. -/
def writeLees (s : State) : State :=
  let ms := spilledMarks s
  let t := leesSlots s.sched.lees (leesOf s ms)
  let gone := (s.sched.lees.map Prod.fst).filter fun n => (tabGet t n).isNone
  let s := gone.foldl (fun s n => leesPut s n (List.replicate 32 0)) s
  let s := t.foldl (fun s x => leesPut s x.1 (leesBytes s ms x.2)) s
  { s with sched := { s.sched with lees := t } }

/-- The continuation that holds the most of some entries. DESIGN CHOICE (log 97): the first in the list among those that hold equally many. -/
def mostEntries (es : List LeesEntry) : Nat :=
  (es.foldl (fun best e =>
    let n := (es.filter fun x => x.cont == e.cont).length
    if best.2 < n then (e.cont, n) else best) (0, 0)).1

/-- The size of a full table after the vintner has grown it as far as it must: doubled, up to the maximum (R283). -/
def grownSize (max need : Nat) : Nat → Nat → Nat
  | 0, size => size
  | n + 1, size => if size / 32 < need ∧ size < max ∧ 0 < size then grownSize max need n (Nat.min (2 * size) max) else size

/-- n marks of an agent spill. The table grows when it is full; when it cannot, the continuation that holds the most entries is terminated with status
race-table-exhausted and its entries are freed (R283). -/
def spillMarks (a : Agent) (n : Nat) : Nat → State → State
  | 0, s => s
  | fuel + 1, s =>
    let mine := (s.order.marks.filter fun m => m.agent == agentKey a && !m.spilled).take n
    let need := (leesOf s (mine ++ spilledMarks s)).length
    let size := grownSize s.sched.leesMax need 64 s.sched.leesSize
    let s := { s with sched := { s.sched with leesSize := size } }
    if need ≤ size / 32 then
      writeLees { s with order := { s.order with marks := s.order.marks.map fun m => if mine.contains m then { m with spilled := true } else m } }
    else
      let es := leesOf s (spilledMarks s)
      if es.isEmpty then s
      else
        let c := mostEntries es
        spillMarks a n fuel (retireMarks (terminateCont s c 8) fun m => m.cont == c)

/-- `LEES_SPILL`: marks of an agent spill to the lees table (R282, R283). -/
def execLeesSpill (agent : Agent) (n : Nat) (s : State) : Host.Outcome State Fault Refusal :=
  .next (spillMarks agent n (s.conts.length + 1) s)

/-! ## Cask stages (R297, R306) -/

/-- `STAGE_FLUSH`: the stage of a unit's open level is written to its pool in pieces of 4 KiB, with the pool's header (R297, R306); it waits while the byte budget is
spent (R401), and a pool that is not translated asks for its walk. -/
def execStageFlush (u : Nat) (level : Nat) (s : State) : Host.Outcome State Fault Refusal :=
  let x := getUnit s u
  .next (if !x.alive || x.levels.length ≤ level then s
    else
      match x.levels[levelPlace x level]? with
      | none => s
      | some l =>
        let bs := (levelImage x.ident.key.cont l).take (32 + (l.used - 32) / 4096 * 4096)
        match locateN s u l.pool .write bs.length with
        | .ok ps => match askBudget s (.flush u level) (x.ident.cls == 0) ps with
          | some t => t
          | none => placesPut (chargePlaces (leaveQueue s (.flush u level)) (.unit u) ps) (ps.zip bs)
        | .error _ =>
          match locateErr s u l.pool .write bs.length with
          | some (a, .miss) =>
            askWalk s (x.place.core / 192)
              { cont := x.ident.key.cont, gen := x.ident.gen, va := a, kind := .write, waiter := .seq u .c, agent := seqAgent x u .c, core := x.place.core }
          | _ => s)

end Sys2Proof.Machine
end

