-- ==== Sys2Proof/Machine/Pred.lean ====
section
/-!
DEFINITION. The predicate instructions of major 0x12 (R152): one bit in C, L and S, a mask of 1,024 bits in X; latency 1, in X 2
(R127).
-/

namespace Sys2Proof.Machine

open Sys2Proof

/-- The latency of a predicate instruction (R127). -/
def predLatency (q : Seq) : Nat := if q = .x then 2 else 1

/-- What a sequencer keeps of a predicate result: all bits in X, bit 0 elsewhere (R121, R152). -/
def predBits (q : Seq) (m : Mask) : Mask := if q = .x then m else m &&& 1

/-- pd := f(pa, pb), bitwise. -/
def predBinary (i : Instr) (t : BitVec 2) (d a b : BitVec 6) (f : Mask → Mask → Mask) (s : State) : Host.Outcome State Fault Refusal :=
  issue i t true (fun c => do
    let x ← rp c a
    let y ← rp c b
    landPred c d.toNat (predBits c.q (f x y)) (predLatency c.q)) s

/-- pd := f(pa), bitwise. -/
def predUnary (i : Instr) (t : BitVec 2) (d a : BitVec 6) (f : Mask → Mask) (s : State) : Host.Outcome State Fault Refusal :=
  issue i t true (fun c => do
    let x ← rp c a
    landPred c d.toNat (predBits c.q (f x)) (predLatency c.q)) s

/-- `PSET`: pd := a condition on s[ra] (R152). -/
def execPset (d a i : BitVec 6) (t : BitVec 2) (s : State) : Host.Outcome State Fault Refusal :=
  issue (.pset d a i t) t true (fun c => do
    let v ← rs c a
    landPred c d.toNat (predBits c.q (psetMask i.toNat v)) (predLatency c.q)) s

/-- `PAND` (R152). -/
def execPand (d a i : BitVec 6) (t : BitVec 2) (s : State) : Host.Outcome State Fault Refusal :=
  predBinary (.pand d a i t) t d a i (fun x y => x &&& y) s

/-- `POR` (R152). -/
def execPor (d a i : BitVec 6) (t : BitVec 2) (s : State) : Host.Outcome State Fault Refusal :=
  predBinary (.por d a i t) t d a i (fun x y => x ||| y) s

/-- `PXOR` (R152). -/
def execPxor (d a i : BitVec 6) (t : BitVec 2) (s : State) : Host.Outcome State Fault Refusal :=
  predBinary (.pxor d a i t) t d a i (fun x y => x ^^^ y) s

/-- `PNOT` (R152). -/
def execPnot (d a : BitVec 6) (t : BitVec 2) (s : State) : Host.Outcome State Fault Refusal :=
  predUnary (.pnot d a t) t d a (fun x => ~~~x) s

/-- `PMOV` (R152). -/
def execPmov (d a : BitVec 6) (t : BitVec 2) (s : State) : Host.Outcome State Fault Refusal :=
  predUnary (.pmov d a t) t d a (fun x => x) s

/-- `PTOS`: sd := the predicate as 0 or 1; in X bits [64k+63:64k] of the mask (R152). -/
def execPtos (d a i : BitVec 6) (t : BitVec 2) (s : State) : Host.Outcome State Fault Refusal :=
  issue (.ptos d a i t) t true (fun c => do
    let x ← rp c a
    landScalar c d.toNat ((predBits c.q x).extractLsb' (64 * i.toNat) 64) (predLatency c.q)) s

/-- The lanes that `PALL` and `PANY` look at in X: 1,024, 512, 256 or 128 (R152). -/
def laneSpan (w : Nat) : Nat := 1024 / 2 ^ w

/-- `PALL`: sd := 1 if all of the bits are 1 (R152). -/
def execPall (d a i : BitVec 6) (t : BitVec 2) (s : State) : Host.Outcome State Fault Refusal :=
  issue (.pall d a i t) t true (fun c => do
    let x ← rp c a
    let n := if c.q = .x then laneSpan i.toNat else 1
    landScalar c d.toNat (boolWord ((x.setWidth n) == BitVec.allOnes n)) (predLatency c.q)) s

/-- `PANY`: sd := 1 if any of the bits is 1 (R152). -/
def execPany (d a i : BitVec 6) (t : BitVec 2) (s : State) : Host.Outcome State Fault Refusal :=
  issue (.pany d a i t) t true (fun c => do
    let x ← rp c a
    let n := if c.q = .x then laneSpan i.toNat else 1
    landScalar c d.toNat (boolWord ((x.setWidth n) != 0#n)) (predLatency c.q)) s

end Sys2Proof.Machine
end

