-- ==== Sys2Proof/Machine/Queue.lean ====
section
/-!
DEFINITION. The queue instructions of major 0x0B (R142, R153).
-/

namespace Sys2Proof.Machine

open Sys2Proof

/-- `TKPUSH`: pushes one token, a release at `core` scope; freezes while the queue holds 15 (R67, R153). -/
def execTkpush (q : BitVec 6) (t : BitVec 2) (s : State) : Host.Outcome State Fault Refusal :=
  issue (.tkpush q t) t false (fun c => do
    let p := seqOf q.toNat
    upd fun s => performAll s c.uid c.q
    let u ← theUnit c
    let s ← get
    if 15 ≤ (tokensOf u c.q p).length then freeze (.queue q.toNat)
    else do
      let a := seqAgent u c.uid c.q
      updUnit c fun u => setTokens u c.q p (tokensOf u c.q p ++ [releaseOf s a 1])
      upd fun s => bumpRegion s a) s

/-- `TKPOP`: pops one token, an acquire at `core` scope; freezes while the queue is empty (R67, R153). -/
def execTkpop (q : BitVec 6) (t : BitVec 2) (s : State) : Host.Outcome State Fault Refusal :=
  issue (.tkpop q t) t false (fun c => do
    let s ← get
    match popToken s c.uid c.q (seqOf (q.toNat - 4)) with
    | none => freeze (.queue q.toNat)
    | some s => set s) s

/-- The tokens of the queue of an index 0 to 7 at a sequencer: outgoing for 0 to 3, incoming for 4 to 7 (R35). -/
def tokenQueue (u : UnitState) (q : Seq) (n : Nat) : List Token :=
  if n < 4 then tokensOf u q (seqOf n) else tokensOf u (seqOf (n - 4)) q

/-- `TKCNT`: rd := the tokens held (R153). -/
def execTkcnt (d q : BitVec 6) (t : BitVec 2) (s : State) : Host.Outcome State Fault Refusal :=
  issue (.tkcnt d q t) t true (fun c => do
    let u ← theUnit c
    landScalar c d.toNat (BitVec.ofNat 64 (tokenQueue u c.q q.toNat).length) 1) s

/-- The head entry of a queue as `QPEEK` shows it (R139, R153). -/
def peekQueue (u : UnitState) (q : Seq) (n : Nat) : Popped Word :=
  let c := u.seq q
  match engOfQueue n with
  | some e =>
    match (c.eq e).results with
    | [] => .wait
    | r :: _ => .got r.word
  | none =>
    if n = 12 then
      match u.bq with
      | [] => .wait
      | b :: _ => .got (if b then 1 else 0)
    else
      match c.dq.dqin with
      | [] => .wait
      | e :: _ =>
        match dqinConvert c.dq.src.toNat c.dq.snk.toNat e.val with
        | none => .fault
        | some (v, _) => .got v

/-- `QPEEK`: rd := the head entry, converted as a pop would convert it, without popping; freezes while the queue is empty; acquires nothing
(R153). -/
def execQpeek (d q : BitVec 6) (t : BitVec 2) (s : State) : Host.Outcome State Fault Refusal :=
  issue (.qpeek d q t) t true (fun c => do
    let u ← theUnit c
    match peekQueue u c.q q.toNat with
    | .wait => freeze (.queue q.toNat)
    | .fault => formatFault c
    | .got v => landScalar c d.toNat v 1) s

/-- The entries that `QCNT` counts, reservations among them; for an engine the queued commands and in [31:16] the waiting result elements
(R153). -/
def queueCount (u : UnitState) (q : Seq) (n : Nat) : Nat :=
  let c := u.seq q
  match engOfQueue n with
  | some e => (c.eq e).cmds.length % 65536 + (c.eq e).results.length % 65536 * 65536
  | none =>
    if n < 8 then (tokenQueue u q n).length
    else if n = 8 then c.dq.dqin.length
    else if n = 9 then c.dq.dqout.length
    else if n = 10 then u.vqin.entries.length
    else if n = 11 then u.vqout.entries.length
    else u.bq.length

/-- `QCNT` (R153). -/
def execQcnt (d q : BitVec 6) (t : BitVec 2) (s : State) : Host.Outcome State Fault Refusal :=
  issue (.qcnt d q t) t true (fun c => do
    let u ← theUnit c
    landScalar c d.toNat (BitVec.ofNat 64 (queueCount u c.q q.toNat)) 1) s

/-- A queue emptied at one instant, its reservations with it (R142); a push that waited for room in a token queue is then made (R66). -/
def squash (s : State) (uid : Nat) (q : Seq) (n : Nat) : State :=
  match engOfQueue n with
  | some e => cancelCmds s uid q e
  | none =>
    if n < 4 then flushPushes 64 (modUnit s uid fun u => setTokens u q (seqOf n) []) uid q
    else if n < 8 then flushPushes 64 (modUnit s uid fun u => setTokens u (seqOf (n - 4)) q []) uid (seqOf (n - 4))
    else if n = 8 then modSeq s uid q fun c => { c with dq := { c.dq with dqin := [] } }
    else if n = 9 then modSeq s uid q fun c => { c with dq := { c.dq with dqout := [] } }
    else if n = 10 then modUnit s uid fun u => { u with vqin := { u.vqin with entries := [], part := 0 } }
    else if n = 11 then modUnit s uid fun u => { u with vqout := { u.vqout with entries := [], part := 0 } }
    else modUnit s uid fun u => { u with bq := [] }

/-- `QSQUASH` (R142). -/
def execQsquash (q : BitVec 6) (t : BitVec 2) (s : State) : Host.Outcome State Fault Refusal :=
  issue (.qsquash q t) t false (fun c => upd fun s => squash s c.uid c.q q.toNat) s

/-- Whether `QFMT` accepts a pair of a source and a sink, for a vector queue or `dqin` (R139). -/
def qfmtLegal (vec : Bool) (src snk : Nat) : Bool :=
  fmtValid src && fmtValid snk && !(fmtAligned src) && !(fmtAligned snk) &&
    (src == 0 || snk == 0 || src == snk || convLegal src snk) &&
    !(vec && snk == 0x12) && !(vec && src != 0 && snk != 0 && laneBits snk < laneBits src)

/-- `QFMT`: source format := s[ra][5:0], sink format := s[ra][13:8] (R139, R153). -/
def execQfmt (a q : BitVec 6) (t : BitVec 2) (s : State) : Host.Outcome State Fault Refusal :=
  issue (.qfmt a q t) t false (fun c => do
    let v ← rs c a
    let src := v.extractLsb' 0 6
    let snk := v.extractLsb' 8 6
    if v &&& ~~~(0x3F3F#64) ≠ 0 ∨ !(qfmtLegal (q.toNat != 8) src.toNat snk.toNat) then formatFault c
    else if q.toNat = 8 then updSeq c fun sq => { sq with dq := { sq.dq with src := src, snk := snk } }
    else if q.toNat = 10 then updUnit c fun u => { u with vqin := { u.vqin with src := src, snk := snk } }
    else updUnit c fun u => { u with vqout := { u.vqout with src := src, snk := snk } }) s

/-- `QSEL`: later `dqout` pushes target the named peer (R138, R153). -/
def execQsel (q : BitVec 6) (t : BitVec 2) (s : State) : Host.Outcome State Fault Refusal :=
  issue (.qsel q t) t false (fun c => updSeq c fun sq => { sq with dq := { sq.dq with target := seqOf q.toNat } }) s

/-- `BQPUSH`: pushes p[ra] onto `bq`; freezes while it holds 64 (R153). -/
def execBqpush (a : BitVec 6) (t : BitVec 2) (s : State) : Host.Outcome State Fault Refusal :=
  issue (.bqpush a t) t false (fun c => do
    let b ← rp1 c a
    let u ← theUnit c
    if 64 ≤ u.bq.length then freeze (.queue 12) else updUnit c fun u => { u with bq := u.bq ++ [b] }) s

/-- Whether the head of a vector queue is filled. -/
def headFilled (v : VecQueue) : Bool :=
  match v.entries with
  | e :: _ => e.val.isSome
  | [] => false

/-- The condition that `QWAIT` waits for, from the issuing sequencer's side of the queue (R153). -/
def queueReady (s : State) (uid : Nat) (q : Seq) (n : Nat) : Bool :=
  let u := getUnit s uid
  let c := u.seq q
  match engOfQueue n with
  | some e => !(outstanding s uid q e)
  | none =>
    if n < 4 then (tokenQueue u q n).isEmpty
    else if n < 8 then !(tokenQueue u q n).isEmpty
    else if n = 8 then !c.dq.dqin.isEmpty
    else if n = 9 then c.dq.dqout.isEmpty
    else if n = 10 then (if q = .x then headFilled u.vqin else u.vqin.entries.isEmpty)
    else if n = 11 then (if q = .s then headFilled u.vqout else u.vqout.entries.isEmpty)
    else if q = .x then !u.bq.isEmpty else u.bq.isEmpty

/-- `QWAIT` (R153). -/
def execQwait (q : BitVec 6) (t : BitVec 2) (s : State) : Host.Outcome State Fault Refusal :=
  issue (.qwait q t) t false (fun c => do
    let s ← get
    if queueReady s c.uid c.q q.toNat then pure () else freeze (.queue q.toNat)) s

/-- `EPOP`: pops one result element into rd and acquires the writes of its command and, by the engine's program order, of those before it; freezes
while the queue is empty (R153, R270). -/
def execEpop (d q : BitVec 6) (t : BitVec 2) (s : State) : Host.Outcome State Fault Refusal :=
  issue (.epop d q t) t true (fun c => do
    match engOfQueue q.toNat with
    | none => pure ()
    | some e => do
      let sq ← theSeq c
      match (sq.eq e).results with
      | [] => freeze (.queue q.toNat)
      | r :: rest => do
        upd fun s => modEq s c.uid c.q e fun x => { x with results := rest }
        match r.rel with
        | none => pure ()
        | some rel => upd fun s => acquireRel s (seqAgent (getUnit s c.uid) c.uid c.q) rel
        landScalar c d.toNat r.word 1) s

end Sys2Proof.Machine
end

