-- ==== Sys2Proof/Machine/Sch.lean ====
section
/-!
DEFINITION. The waits that block a launch, `WFE` and `WAITV` (R158, R289, R375), and the SCH instructions of major 0x11 (R379 to R382).
-/

namespace Sys2Proof.Machine

open Sys2Proof

/-- A sequencer issues a word that may wait in `WFE`, `WAITV` or `GWAIT`: a launch that becomes blocked by it starts a decision (R375). -/
def issueWait (i : Instr) (tk : BitVec 2) (carried : Bool) (body : Ctx → M Unit) (s : State) : Host.Outcome State Fault Refusal :=
  match issue i tk carried body s with
  | .next t => .next (decideBlocked s t s.cur.uid)
  | r => r

/-- `WFE`: freezes until the event flag is 1, then clears it (R158). -/
def execWfe (t : BitVec 2) (s : State) : Host.Outcome State Fault Refusal :=
  issueWait (.wfe t) t false (fun c => do
    let sq ← theSeq c
    if sq.event then updSeq c fun sq => { sq with event := false } else freeze .event) s

/-- `WAITV`: freezes until the word at s[ra] compared with 0 satisfies its condition; the read that does is an atomic load of its order and scope
(R289). -/
def execWaitv (x : BitVec 4) (o : BitVec 3) (a : BitVec 6) (k : BitVec 8) (t : BitVec 2) (s : State) : Host.Outcome State Fault Refusal :=
  issueWait (.waitv x o a k t) t false (fun c => do
    let va ← rs c a
    pendAt c va .atomic 8
    if va.toNat % 8 ≠ 0 then windowFault c
    else do
      let ps ← seqPlaces c va .atomic 8
      if ps.any isAcc then windowFault c
      else do
        seqLocks c ps false
        upd fun s => performAll s c.uid c.q
        let s ← get
        if signCond k.toNat (BitVec.ofNat 64 (placesValue s ps)) then do
          let _ ← performNow c va ps { fn := 0, ord := o.toNat, scope := x.toNat, w32 := false, b := 0, c := 0 }
        else freeze (.watch (ps.headD (.mem 0)))) s

/-! ## SCH (R379 to R382) -/

/-- Bytes that C reads for the scheduler, through its own translation and without a mark (R380). -/
def schBytes (c : Ctx) (va : Word) (n : Nat) : M (List Byte) := do
  pendAt c va .read n
  let ps ← seqPlaces c va .read n
  let s ← get
  upd fun s => meterPlaces s (seqAgent (getUnit s c.uid) c.uid c.q) ps
  pure (ps.map (placeGet s))

/-- The parameter sizes of images, read through C's translation. -/
def schSizes (c : Ctx) : List Word → M (Tab Word Nat)
  | [] => pure []
  | va :: r => do
    let bs ← schBytes c (va + 0x30) 4
    let rest ← schSizes c r
    pure ((va, leValue bs) :: rest)

/-- The next register after one. -/
def nextReg (a : BitVec 6) : BitVec 6 := a + 1

/-- `GLAUNCH`: starts a job of the unit's own continuation from a descriptor and a patch list (R330, R360, R380); rd := the reply word. -/
def execGlaunch (d a : BitVec 6) (t : BitVec 2) (s : State) : Host.Outcome State Fault Refusal :=
  issue (.glaunch d a t) t true (fun c => do
    let (dv, pv) ← rs2 c a (nextReg a)
    upd fun s => performAll s c.uid c.q
    let s ← get
    let u ← theUnit c
    let cont := u.ident.key.cont
    if !(getCont s cont).live then landScalar c d.toNat (replyWord 1 0 0 0) 1
    else if partitionFailed s cont then landScalar c d.toNat (replyWord 7 0 0 0) 1
    else if dv.toNat % 64 ≠ 0 then landScalar c d.toNat (replyWord 4 0 0 0) 1
    else do
      let desc ← schBytes c dv 64
      let n ← if pv = 0 then pure 0 else do
        let bs ← schBytes c pv 8
        pure (leValue bs)
      if 65536 < n then landScalar c d.toNat (replyWord 4 0 0 0) 1
      else do
        let ps ← if n = 0 then pure [] else schBytes c (pv + 8) (16 * n)
        let sizes ← schSizes c (patchedImages s cont (readDesc desc) (readPatches ps n).1)
        let s ← get
        let ag := seqAgent u c.uid c.q
        match tryStart s cont desc ps n sizes none (releaseOf s ag 5) with
        | .error r => landScalar c d.toNat (replyWord r 0 0 0) 1
        | .ok (id, t) => do
          set (bumpRegion t ag)
          landScalar c d.toNat (replyWord 0 1 0 id) 1) s

/-- The identifier and, for level 0, the placement index that an SCH form names (R379). -/
def schName (c : Ctx) (a i : BitVec 6) : M (Word × Word) := do
  if i = 0 then rs2 c a (nextReg a)
  else do
    let id ← rs c a
    pure (id, 0)

/-- Whether the index word of a level-0 form is legal (R379). -/
def indexLegal (x : Word) : Bool := x.toNat < 65536

/-- `GWAIT`: freezes until an instance has a final status; rd := the reply word (R381). -/
def execGwait (d a i : BitVec 6) (t : BitVec 2) (s : State) : Host.Outcome State Fault Refusal :=
  issueWait (.gwait d a i t) t true (fun c => do
    let (id, x) ← schName c a i
    let s ← get
    let u ← theUnit c
    if !(indexLegal x) ∨ i = 5 then landScalar c d.toNat (replyWord 4 0 0 0) 1
    else
      match namedInstance s c.uid i.toNat id x with
      | none => landScalar c d.toNat (replyWord 3 0 0 0) 1
      | some k =>
        if k.holds then landScalar c d.toNat (replyWord 4 0 0 0) 1
        else if !(statusFinal k.status) then freeze .join
        else do
          upd fun s => acquireHist s (seqAgent u c.uid c.q) (instanceHist s u.ident.key.cont i.toNat id.toNat x.toNat)
          landScalar c d.toNat (replyWord 0 k.status k.counter id.toNat) 1) s

/-- `GCANCEL`: cancels an instance; rd := the reply word. An instance that contains the unit stops it, and C does not retire (R22, R369, R381). -/
def execGcancel (d a i : BitVec 6) (t : BitVec 2) (s : State) : Host.Outcome State Fault Refusal :=
  issue (.gcancel d a i t) t true (fun c => do
    let (id, x) ← schName c a i
    let s ← get
    let u ← theUnit c
    if !(indexLegal x) then landScalar c d.toNat (replyWord 4 0 0 0) 1
    else
      match namedInstance s c.uid i.toNat id x with
      | none => landScalar c d.toNat (replyWord 3 0 0 0) 1
      | some k => do
        upd fun s => cancelInstance s u.ident.key.cont i.toNat id.toNat x.toNat
        if k.holds then do
          upd fun s => (unitsOf s u.ident.key).foldl (fun s v => killUnit s v) s
          freezeKeep .join
        else landScalar c d.toNat (replyWord 0 (cancelledStatus i.toNat k) 0 id.toNat) 1) s

/-- `GCNT`: rd := the level counter of an instance, −1 when it does not exist (R21, R381). -/
def execGcnt (d a i : BitVec 6) (t : BitVec 2) (s : State) : Host.Outcome State Fault Refusal :=
  issue (.gcnt d a i t) t true (fun c => do
    let (id, x) ← schName c a i
    let s ← get
    let v := if !(indexLegal x) then none else namedInstance s c.uid i.toNat id x
    landScalar c d.toNat (match v with | some k => BitVec.ofNat 64 k.counter | none => BitVec.allOnes 64) 1) s

/-- `YIELD`: retires at once and starts a decision for the cores of its launch (R375, R382). -/
def execYield (t : BitVec 2) (s : State) : Host.Outcome State Fault Refusal :=
  issueThen (.yield t) t false (fun _ => pure ()) (fun c s =>
    let k := (getUnit s c.uid).ident.key
    decideCores s ((unitsOf s k).map fun v => (getUnit s v).place.core) (some k)) s

/-- A sequencer whose fetch stops (R382). -/
def stopFetch (c : SeqState) : SeqState :=
  match c.status with
  | .running => { c with status := .halting, fl := { c.fl with frozen := none } }
  | .returning _ => { c with status := .halting }
  | _ => c

/-- `UEXIT`: stops fetch in all four sequencers of the unit, which then exit as after `HALT` (R158, R382). -/
def execUexit (t : BitVec 2) (s : State) : Host.Outcome State Fault Refusal :=
  issueThen (.uexit t) t false (fun _ => pure ()) (fun c s => modUnit s c.uid fun u => u.mapSeqs stopFetch) s

/-- `PRISET`: the continuation's default class := max(s[ra], the bound class), which becomes the class of the unit's launch; rd := the previous
default (R382). -/
def execPriset (d a : BitVec 6) (t : BitVec 2) (s : State) : Host.Outcome State Fault Refusal :=
  issue (.priset d a t) t true (fun c => do
    let v ← rs c a
    let s ← get
    let u ← theUnit c
    let k := getCont s u.ident.key.cont
    if 3 < v.toNat then formatFault c
    else do
      let cls := Nat.max v.toNat u.ident.bind
      landScalar c d.toNat (BitVec.ofNat 64 k.cls) 1
      upd fun s => modCont s u.ident.key.cont fun k => { k with cls := cls }
      upd fun s => (unitsOf s u.ident.key).foldl (fun s v => modUnit s v fun x => { x with ident := { x.ident with cls := cls } }) s) s

end Sys2Proof.Machine
end

