-- ==== Sys2Proof/Machine/SeqEvents.lean ====
section
/-!
DEFINITION. The events of sequencers and units (R67, R126, R128, R131, R138, R158, R285, R288, R289, R373): results that land after a `HALT` or a
`RETT`, forwarding, stores, barriers with the exchange step, and exits.
-/

namespace Sys2Proof.Machine

open Sys2Proof

/-- Whether a sequencer's clock goes on while nothing issues: after `HALT` or `RETT` (R125, R131, R158). -/
def runsOut (c : SeqState) : Bool :=
  match c.status with
  | .halting => true
  | .returning _ => true
  | _ => false

/-- A halted sequencer whose handler never returned: once the handler's own results have landed, the held ones go on (log 25). -/
def unholdBank (c : SeqState) : SeqState :=
  if c.status == .halting && c.fl.running.isEmpty then c.modFl fun f => { f with running := f.held, held := [] } else c

/-- What a sequencer does once the pushes that wait at its retirement are made; while one has no room it is stalled (R66, R125). -/
def pushedThen (s : State) (uid : Nat) (q : Seq) (k : State → State) : State :=
  let t := flushPushes 64 s uid q
  if (getSeq t uid q).fl.pushes = [] then k t else t

/-- `RESULT_LAND`: one virtual cycle in which nothing issues ends, and what is due lands (R126, R131, R158). -/
def execResultLand (u : Nat) (q : Seq) (s : State) : Host.Outcome State Fault Refusal :=
  let x := getUnit s u
  .next (if x.alive && x.place.resident && (getCore s x.place.core).issuing == some x.place.slot && runsOut (getSeq s u q) then
      pushedThen s u q fun s => tick (modSeq s u q unholdBank) u q
    else s)

/-- The head of a sequencer's `dqout` forwarded to a `dqin`, if it is filled, aims there, and finds room (R138). -/
def forwardHead (u : Nat) (target : Seq) (s : State) (q : Seq) : State :=
  match (getSeq s u q).dq.dqout with
  | [] => s
  | e :: r =>
    match e.val with
    | none => s
    | some v =>
      if e.target ≠ target ∨ 16 ≤ (getSeq s u target).dq.dqin.length then s
      else
        modSeq (modSeq s u q fun c => { c with dq := { c.dq with dqout := r } }) u target fun c =>
          { c with dq := { c.dq with dqin := c.dq.dqin ++ [{ val := v, acq := none }] } }

/-- `DQOUT_FORWARD`: the filled head of a `dqout` goes to its target's `dqin`, when that has room; every filled head that waits for the same `dqin` does, in the order C, L, X, S
(R138). -/
def execDqoutForward (u : Nat) (q : Seq) (s : State) : Host.Outcome State Fault Refusal :=
  .next (match (getSeq s u q).dq.dqout with
    | [] => s
    | e :: _ => if e.val.isSome then allSeqs.foldl (forwardHead u e.target) s else s)

/-- `LOAD_MISS_RETURN`: a sequencer that waits for a translation goes on once it stands (R128, R392). -/
def execLoadMissReturn (u : Nat) (q : Seq) (s : State) : Host.Outcome State Fault Refusal :=
  .next (match (getSeq s u q).fl.frozen with
    | some (.walk _ va kind) =>
      if translated s u va kind then modSeq s u q fun c => c.modFl fun f => { f with frozen := none } else s
    | _ => s)

/-- `STORE_PERFORMED`: a sequencer's oldest store is performed and retires (R67, R147). -/
def execStorePerformed (u : Nat) (q : Seq) (s : State) : Host.Outcome State Fault Refusal :=
  .next (performHead s u q)

/-- `ATOMIC_PERFORMED`: a non-returning atomic at the head is performed; for an atomic that waits to be performed, what stands before it is
(R285). -/
def execAtomicPerformed (u : Nat) (q : Seq) (s : State) : Host.Outcome State Fault Refusal :=
  .next (if (getSeq s u q).fl.frozen == some .atomic then performAll s u q else performHead s u q)

/-! ## Barriers and the exchange step (R288, R372, R373) -/

/-- Whether a sequencer has arrived at a barrier; one that has exited counts as arrived (R288). -/
def seqArrived (cluster : Bool) (c : SeqState) : Bool :=
  c.status == .exited || (c.fl.frozen == some (.barrier cluster) && !c.fl.departed && if cluster then c.fl.arrivedC else c.fl.arrivedS)

/-- The sequencers that take part in barriers. -/
def barrierSeqs : List Seq := [.c, .l, .s]

/-- The units that a unit's barrier joins. -/
def barrierUnits (s : State) (uid : Nat) (cluster : Bool) : List Nat :=
  let u := getUnit s uid
  (unitsOf s u.ident.key).filter fun v => !cluster || (getUnit s v).place.core / 4 == u.place.core / 4

/-- Whether every unit of a barrier has arrived, and one really waits. -/
def allArrivedAt (s : State) (us : List Nat) (cluster : Bool) : Bool :=
  (us.all fun v => barrierSeqs.all fun q => seqArrived cluster (getSeq s v q)) &&
    us.any fun v => barrierSeqs.any fun q => (getSeq s v q).status != .exited

/-- The units that take part in a barrier with their history: those that join it and those that have exited, which count as arrived (R288). -/
def barrierMembers (s : State) (uid : Nat) (cluster : Bool) : List Nat :=
  let u := getUnit s uid
  (s.units.filter fun p => p.2.ident.key == u.ident.key && p.2.ident.gen == u.ident.gen &&
    (!cluster || p.2.place.core / 4 == u.place.core / 4)).map Prod.fst

/-- The agents of the sequencers of units that take part in barriers. -/
def barrierAgents (s : State) (us : List Nat) : List Agent := us.flatMap fun v => barrierSeqs.map fun q => seqAgent (getUnit s v) v q

/-- What the participants of a barrier release to each other (R270, R288). -/
def barrierHist (s : State) (us : List Nat) : Hist :=
  ((barrierAgents s us).map fun a => (releaseOf s a 4).hist).foldl histJoin []

/-- The participants depart with a history: one synchronisation operation of each (R270, R280). -/
def departWith (s : State) (us : List Nat) (h : Hist) : State := (barrierAgents s us).foldl (fun s a => acquireHist s a h) s

/-- The exchange table of a departure: table d mod the number of tables; none for a launch without tables (R372). -/
def exchangeTable (s : State) (k : NodeKey) (d : Nat) : ExTable :=
  match (findNode s k).bind (·.launch) with
  | none => { len := 0, xfers := [] }
  | some l => (l.tables[d % l.tables.length]?).getD { len := 0, xfers := [] }

/-- Transfers in the order of their start cycles, those of one cycle in table order. -/
def insertXfer (x : Transfer) : List Transfer → List Transfer
  | [] => [x]
  | y :: r => if x.at0 < y.at0 then x :: y :: r else y :: insertXfer x r

/-- Transfers sorted by their start. -/
def sortXfers (xs : List Transfer) : List Transfer := xs.foldl (fun acc x => insertXfer x acc) []

/-- Whether a lock of a unit covers bytes of its partition. -/
def spadLocked (u : UnitState) (lo n : Nat) (write : Bool) : Bool :=
  u.place.locks.any fun l => !l.rows && (write || l.write) && l.lo < lo + n && lo < l.hi

/-- The unit of a launch at a placement index among some. -/
def unitOfIndex (s : State) (us : List Nat) (i : Nat) : Option Nat := us.find? fun v => (getUnit s v).ident.index == i

/-- Whether a transfer must wait for a lock (R373). -/
def xferBlocked (s : State) (us : List Nat) (x : Transfer) : Bool :=
  (match unitOfIndex s us x.src with | some v => spadLocked (getUnit s v) x.foff x.bytes false | none => false) ||
    match unitOfIndex s us x.dst with | some v => spadLocked (getUnit s v) x.toff x.bytes true | none => false

/-- What a transfer that races leaves: the address of the word in the partition, the race, and the state with the transfers before it. -/
structure XferStop where
  va   : Word
  race : Race
  done : State

/-- One side of a transfer, checked and marked as an access of the scheduler's agent (R279, R373). -/
def xferMark (u : UnitState) (a : Agent) (off n : Nat) (write : Bool) (s : State) : Except XferStop State :=
  let va (w : Place) : Word := match w with
    | .mem pa => 0xFF00000000000000 + BitVec.ofNat 64 (pa - spadPa u 0)
    | .acc .. => accVa w
  match checkMark a (regionOf s a) u.ident.key.cont u.ident.key.job va write false [(.mem (spadPa u off), n / 4)] s with
  | .error r => .error { va := r.vaddr, race := r, done := s }
  | .ok t => .ok t

/-- One transfer: words of the sender's partition to the receiver's, as accesses of the scheduler's agent; the side of a unit that has exited is
left out. -/
def runXfer (us : List Nat) (a : Agent) (s : State) (x : Transfer) : Except XferStop State :=
  match unitOfIndex s us x.src, unitOfIndex s us x.dst with
  | some v, some w =>
    let src := getUnit s v
    let dst := getUnit s w
    match xferMark src a x.foff x.bytes false s with
    | .error e => .error e
    | .ok s =>
      match xferMark dst a x.toff x.bytes true s with
      | .error e => .error e
      | .ok s => .ok (performBytes s (((memBytes s.mem (spadPa src x.foff) x.bytes).zipIdx).map fun b => (.mem (spadPa dst x.toff + b.2), b.1)))
  | _, _ => .ok s

/-- Transfers one after another, until one races. -/
def runXfers (us : List Nat) (a : Agent) : List Transfer → State → Except XferStop State
  | [], s => .ok s
  | x :: r, s =>
    match runXfer us a s x with
    | .error e => .error e
    | .ok t => runXfers us a r t

/-- The receivers of transfers that end after the declared length: by the table's own numbers, or because a lock held them up as the event says
(R373). A transfer of a unit that has exited is left out, and so ends no step late. -/
def lateReceivers (s : State) (us : List Nat) (t : ExTable) (late : List Nat) : List Nat :=
  let core (i : Nat) : Option Nat := (unitOfIndex s us i).map fun v => (getUnit s v).place.core
  (t.xfers.zipIdx.filter fun x => match core x.1.src, core x.1.dst with
    | some a, some b => t.len < x.1.at0 + transferCycles a b x.1 || late.contains x.2
    | _, _ => false).map fun x => x.1.dst

/-- A sequencer let go from a barrier. -/
def departSeq (cluster : Bool) (c : SeqState) : SeqState :=
  if c.status == .exited then c
  else c.modFl fun f => { f with departed := true
                                 arrivedC := if cluster then false else f.arrivedC, arrivedS := if cluster then f.arrivedS else false }

/-- The units of an `SSYNC` let go: their counts rise, and the C of each receiver of a late transfer takes the exchange overrun (R288, R373). -/
def letGo (s : State) (us hit : List Nat) : State :=
  us.foldl (fun s v => modUnit s v fun u =>
    let u : UnitState := { u with superstep := u.superstep + 1 }
    let u := barrierSeqs.foldl (fun u q => u.setSeq q (departSeq false (u.seq q))) u
    if hit.contains u.ident.index && (u.seq .c).status != .exited then
      u.setSeq .c ((u.seq .c).modFl fun f => { f with
        faults := f.faults ++ [{ cause := 7, tval := BitVec.ofNat 64 u.superstep, eng := none, race := none }] })
    else u) s

/-- The departure from an `SSYNC` after the exchange step (R288, R373): the scheduler's transfers happen after every arrival and before every departure. DESIGN CHOICE
(log 51): a transfer that races ends the launch's node as an access of a node of the scheduler does. -/
def departSync (s : State) (us members : List Nat) (k : NodeKey) (late : List Nat) : State :=
  let d := (us.head?.map fun v => (getUnit s v).superstep).getD 0
  let t := exchangeTable s k d
  if t.xfers.any (xferBlocked s us) then s
  else
    let a := schedAgent (homeDie k.cont) k
    let h := barrierHist s members
    match runXfers us a (sortXfers t.xfers) (learn s a h) with
    | .error e => nodeFault e.done k 5 e.va (some e.race)
    | .ok s =>
      let s := departWith s us (histJoin h (releaseOf s a 4).hist)
      letGo (bumpRegion s a) us (lateReceivers s us t late)

/-- The units of a `CBAR` let go (R288). -/
def departCluster (s : State) (us members : List Nat) : State :=
  us.foldl (fun s v => modUnit s v fun u => barrierSeqs.foldl (fun u q => u.setSeq q (departSeq true (u.seq q))) u)
    (departWith s us (barrierHist s members))

/-- `BARRIER_DEPART`: all participants of a unit's barrier depart after the last arrival and any exchange step (R288, R373); a launch that is parked keeps its
arrivals and departs when it is resident again. -/
def execBarrierDepart (u : Nat) (cluster : Bool) (late : List Nat) (s : State) : Host.Outcome State Fault Refusal :=
  let us := barrierUnits s u cluster
  .next (if !(getUnit s u).alive || !(allArrivedAt s us cluster) || us.any (fun v => !(getUnit s v).place.resident) then s
    else if cluster then departCluster s us (barrierMembers s u true)
    else departSync s us (barrierMembers s u false) (getUnit s u).ident.key late)

/-- `WAITV_RECHECK`: the word of a frozen `WAITV` is read again (R289); a wait that is over lets its launch run at the next decision (R375). -/
def execWaitvRecheck (u : Nat) (q : Seq) (s : State) : Host.Outcome State Fault Refusal :=
  .next (match (getSeq s u q).fl.frozen with
    | some (.watch _) => if waitOver s u q then modSeq s u q fun c => c.modFl fun f => { f with frozen := none } else s
    | _ => s)

/-- `RETT_RETURN`: the last result of a handler has landed, and the return completes (R131, R159). -/
def execRettReturn (u : Nat) (q : Seq) (s : State) : Host.Outcome State Fault Refusal :=
  .next (match (getSeq s u q).status with
    | .returning target =>
      if (getUnit s u).alive && (getSeq s u q).fl.running.isEmpty then pushedThen s u q fun s => modSeq s u q fun c => leaveHandler c target else s
    | _ => s)

/-! ## Exit (R21, R141, R158, R163, R258) -/

/-- Whether a halted sequencer has nothing outstanding (R158). Press commands that have not started hold it up no longer: they are cancelled at the unit's exit, which a started
one of the unit delays (R258). -/
def seqDone (s : State) (uid : Nat) (q : Seq) : Bool :=
  let u := getUnit s uid
  let c := u.seq q
  c.status == .halting && c.fl.running.isEmpty && c.fl.held.isEmpty && c.fl.stores.isEmpty && c.fl.pushes.isEmpty &&
    (c.dq.dqout.all fun e => e.val.isSome) && (q != .l || u.vqin.entries.all fun e => e.val.isSome) &&
    (q != .x || u.vqout.entries.all fun e => e.val.isSome) &&
    ([Eng.copy, .gather, .coll, .row].all fun e => !(outstanding s uid q e)) && !(runningFor s uid .c .press)

/-- A unit whose four sequencers have exited is complete: its queues, levels and place are given back, and its launch counts it (R21, R141, R163,
R201, R258, R314). When it is the launch's last, its cores choose again (R375). -/
def completeUnit (s : State) (uid : Nat) : State :=
  let u := getUnit s uid
  let s := modNode s u.ident.key fun n => { n with units := tabPut n.units u.ident.index 0 }
  let s := killUnit s uid
  let cl := u.place.core / 4
  let s := settlePress s cl
  if (unitsOf s u.ident.key).isEmpty then decideCores s (u.ident.clusters.flatMap fun c => (List.range 4).map fun k => 4 * c + k) none else s

/-- A sequencer exits (R158). -/
def exitSeq (s : State) (uid : Nat) (q : Seq) : State :=
  let old := s
  let s := modUnit s uid fun u => { u.setSeq q { u.seq q with status := .exited } with exitLeft := u.exitLeft - 1 }
  if (getUnit s uid).exitLeft = 0 then completeUnit s uid else decideBlocked old s uid

/-- `SEQUENCER_EXIT`: a halted sequencer exits once nothing of it is outstanding; a fault that one of its commands raised meanwhile is taken at its
`HALT`, which issues again after the handler (R158, R186; log 24). -/
def execSequencerExit (u : Nat) (q : Seq) (s : State) : Host.Outcome State Fault Refusal :=
  .next (let c := getSeq s u q
    if !(getUnit s u).alive || c.status != .halting then s
    else
      match dueFault c with
      | some f => boundaryFault (modSeq s u q fun c => { c with status := .running, pc := c.pc - 4 }) u q f
      | none => if seqDone s u q then exitSeq s u q else s)

end Sys2Proof.Machine
end

