-- ==== Sys2Proof/Machine/Trust.lean ====
section
/-!
DEFINITION. Attestation (R443) and the partitions under TDISP (R444 to R446).
-/

namespace Sys2Proof.Machine

open Sys2Proof

/-! ## Partitions (R444, R445) -/

/-- The continuations of a partition. -/
def partConts (s : State) (part : Nat) : List Nat := (s.conts.filter fun c => c.2.live && c.2.partition == some part).map Prod.fst

/-- Whether a command reaches the interface of its unit's partition. DESIGN CHOICE (log 60): the accesses toward an interface are those to global memory, which its handles name. -/
def towardInterface (c : EngCmd) : Bool := [c.h, c.h2, c.scale, c.scale2].any fun h => hVal h && hPlace h < 2

/-- A running command that has not ended its work and reaches the interface fails with `STAT` 4 when its unit belongs to a continuation of a list (R445). -/
def interfaceError (s : State) (cs : List Nat) (r : RunCmd) : RunCmd :=
  if cs.contains (getUnit s r.cmd.uid).ident.key.cont && !r.fin && towardInterface r.cmd then { r with hold := .failed 4, recs := [] } else r

/-- An engine whose commands of a partition fail. -/
def engineError (s : State) (cs : List Nat) (e : EngineState) : EngineState :=
  { e with run := e.run.map (interfaceError s cs), waiting := e.waiting.map (interfaceError s cs) }

/-- Every engine and press access toward the interface ends with an error completion (R445): the commands that are at work fail. -/
def interfaceErrors (s : State) (cs : List Nat) : State :=
  let s := { s with
    cores := s.cores.map fun c => (c.1, { c.2 with
      copy := engineError s cs c.2.copy, gather := engineError s cs c.2.gather, row := engineError s cs c.2.row
      relocC := c.2.relocC.map (interfaceError s cs), relocR := c.2.relocR.map (interfaceError s cs) })
    clusters := s.clusters.map fun c => (c.1, { c.2 with press := { c.2.press with cur := c.2.press.cur.map (interfaceError s cs) } }) }
  [0, 1, 2, 3].foldl (fun t d => modDie t d fun k => { k with
    coll := k.coll.map fun x => if cs.contains (getUnit s x.cmd.uid).ident.key.cont && towardInterface x.cmd then { x with hold := .failed 4 } else x }) s

/-- A command that waits for a fault record and has failed ends, with its result element: it stands in no run slot (R186, R403, R445). -/
def failStanding (core : Nat) (e : Eng) (s : State) (r : RunCmd) : State :=
  match r.hold with
  | .failed stat =>
    let g := (getCore s core).engine e
    let s := modCore s core fun c => c.setEngine e { g with waiting := g.waiting.erase r }
    if (getUnit s r.cmd.uid).alive then failDeliver s (siteCtx s (.own core e) r.cmd) r.cmd stat (cmdDone e r.cmd r.pos)
    else discard s r.cmd.uid
  | _ => s

/-- The failed commands of a core's engines end, those that wait for a fault record among them. -/
def endFailed (s : State) (core : Nat) : State :=
  let s := [Eng.copy, .gather, .row].foldl (fun s e =>
    ((getCore s core).engine e).waiting.foldl (failStanding core e) ((sitesOf core e).foldl failAt s)) s
  (List.range ((getDie s (core / 192)).coll.filter fun x => x.core == core).length).foldl (fun s _ => failedColl s core) s

/-- The failed commands of a partition end, each with its result element (R185, R445). -/
def endLost (s : State) (part : Nat) : State :=
  (partClusters s part).foldl (fun s cl =>
    failAt ((List.range 4).foldl (fun s k => endFailed s (4 * cl + k)) s) (.press cl)) s

/-- The fault record of a unit that a lost interface stops: cause 11 with the result element, of the first sequencer whose command failed (R347, R348, R445). -/
def lostRecord (s : State) (uid : Nat) : Option FaultRecord :=
  allSeqs.findSome? fun q =>
    ((getSeq s uid q).fl.faults.find? fun f => f.cause == 11).map fun f =>
      { seqFaultRecord s uid q 11 f.tval (wordAtPc s uid q) true none with jst := 7 }

/-- The records of the units of continuations that a lost interface stops, by core: they stop at one instant (R349). -/
def lostRecords (s : State) (cs : List Nat) : List FaultRecord :=
  (s.units.filter fun u => u.2.alive && cs.contains u.2.ident.key.cont).foldl (fun rs u =>
    match lostRecord s u.1 with
    | some r => insertCore r rs
    | none => rs) []

/-- The instant at which an interface leaves RUN or its session ends (R445): its accesses fail, which stops the units of the failed commands; its continuations are terminated with
interface-lost, and the partition is in ERROR. -/
def interfaceLost (s : State) (part : Nat) : State :=
  let cs := partConts s part
  let s := endLost (interfaceErrors s cs) part
  let s := (lostRecords s cs).foldl postFault s
  let s := cs.foldl (fun s c => terminateCont s c 7) s
  modPart s part fun p => { p with tdisp := .error, session := false }

/-- The TDISP state of a partition's interface. -/
def tdispOf (s : State) (part : Nat) : Option TdispState := (tabGet s.boot.parts part).map (·.tdisp)

/-- `TDISP_LOCK`: CONFIG_UNLOCKED to CONFIG_LOCKED; MR8 + part is extended with the interface configuration first (R438, R444). -/
def execTdispLock (part : Nat) (s : State) : Host.Outcome State Fault Refusal :=
  .next (if tdispOf s part = some .unlocked then
      let s := modBoot s fun b => extendMr b (8 + part) (exactly 64 (Config.interfaceConfig part (partClusters s part)))
      modPart s part fun p => { p with tdisp := .locked }
    else s)

/-- `TDISP_RUN`: CONFIG_LOCKED to RUN (R444). -/
def execTdispRun (part : Nat) (s : State) : Host.Outcome State Fault Refusal :=
  .next (if tdispOf s part = some .locked then modPart s part fun p => { p with tdisp := .run } else s)

/-- `TDISP_LEAVE_RUN` (R445). -/
def execTdispLeaveRun (part : Nat) (s : State) : Host.Outcome State Fault Refusal :=
  .next (if tdispOf s part = some .run then interfaceLost s part else s)

/-- A way without the sessions of a partition. -/
def SpdmWay.without (w : SpdmWay) (part : Nat) : SpdmWay := { w with sessions := w.sessions.filter fun x => x != some part }

/-- The session of a partition's interface is gone, whichever way it stood over (R445). -/
def sessionLost (s : State) (part : Nat) : State :=
  let had : Bool := match tabGet s.boot.parts part with
    | some p => p.session
    | none => false
  if had then interfaceLost (modBoot s fun b => { b with doe := b.doe.without part, mctp := b.mctp.without part }) part else s

/-- `SPDM_SESSION_EXPIRE` (R445). -/
def execSpdmSessionExpire (part : Nat) (s : State) : Host.Outcome State Fault Refusal := .next (sessionLost s part)

/-- A core's scratchpad and accumulators zeroed (R445). -/
def zeroCore (s : State) (core : Nat) : State :=
  let base := 0x1000000 * core
  modCore { s with mem := memDrop s.mem base (base + 0x180000) } core fun c => { c with rows := [] }

/-- The continuations that have been a partition's, the freed ones among them. -/
def allPartConts (s : State) (part : Nat) : List Nat := (s.conts.filter fun c => c.2.partition == some part).map Prod.fst

/-- The scratchpads, accumulators, context-store slots and fault records of a partition zeroed (R445). -/
def zeroPart (s : State) (part : Nat) : State :=
  let s := (partClusters s part).foldl (fun s cl => (List.range 4).foldl (fun s k => zeroCore s (4 * cl + k)) s) s
  let cs := allPartConts s part
  let s := { s with units := s.units.map fun u => if cs.contains u.2.ident.key.cont then (u.1, { u.2 with saved := none }) else u }
  cs.foldl (fun s c => modCont s c fun k => { k with faultQ := [], lost := 0 }) s

/-- `TDISP_UNLOCK`: to CONFIG_UNLOCKED, from RUN by way of ERROR; the partition is zeroed before (R445). -/
def execTdispUnlock (part : Nat) (s : State) : Host.Outcome State Fault Refusal :=
  .next (match tdispOf s part with
    | none => s
    | some .unlocked => s
    | some .run => modPart (zeroPart (interfaceLost s part) part) part fun p => { p with tdisp := .unlocked }
    | some _ => modPart (zeroPart s part) part fun p => { p with tdisp := .unlocked })

/-! ## SPDM (R443) -/

/-- The requests and sessions of a way: the PCIe DOE mailbox, or MCTP on the firmware interface. -/
def wayOf (b : BootState) : SpdmVia → SpdmWay
  | .doe => b.doe
  | .mctp => b.mctp

/-- A way changed. -/
def modWay (s : State) (via : SpdmVia) (f : SpdmWay → SpdmWay) : State :=
  match via with
  | .doe => modBoot s fun b => { b with doe := f b.doe }
  | .mctp => modBoot s fun b => { b with mctp := f b.mctp }

/-- An SPDM response: what the manual says it carries, then what SPDM says, under the device's identity key (R443; log 13). -/
def spdmReply (req : Nat) (front : List Byte) (s : State) : State :=
  fwReply { s with free := s.free + 1 } 0 (front ++ Config.spdmBody req s.boot.identity s.free)

/-- A request that the vintner answers once it runs and the opening requests of its way have come so far; out of order, it answers with an error of SPDM
(log 13). -/
def spdm (via : SpdmVia) (s : State) (need : Nat) (f : State → State) : Host.Outcome State Fault Refusal :=
  .next (if s.boot.stage ≠ .running then s
    else if (wayOf s.boot via).asked < need then spdmReply 10 [] s
    else f s)

/-- The opening requests of a way have come so far. -/
def askedTo (via : SpdmVia) (n : Nat) (s : State) : State := modWay s via fun w => { w with asked := n }

/-- `GET_VERSION`: SPDM starts anew, at version 1.3 (R435, R443). PRESUMED (log 13): the entry is SPDM's, 0x1300. -/
def execGetVersion (via : SpdmVia) (s : State) : Host.Outcome State Fault Refusal :=
  spdm via s 0 fun s => spdmReply 0 (leBytes 2 0x1300) (askedTo via 1 s)

/-- `GET_CAPABILITIES`. -/
def execGetCapabilities (via : SpdmVia) (s : State) : Host.Outcome State Fault Refusal :=
  spdm via s 1 fun s => spdmReply 1 [] (askedTo via 2 s)

/-- `NEGOTIATE_ALGORITHMS`. -/
def execNegotiateAlgorithms (via : SpdmVia) (s : State) : Host.Outcome State Fault Refusal :=
  spdm via s 2 fun s => spdmReply 2 [] (askedTo via 3 s)

/-- `GET_DIGESTS`. -/
def execGetDigests (via : SpdmVia) (s : State) : Host.Outcome State Fault Refusal :=
  spdm via s 3 (spdmReply 3 [])

/-- `GET_CERTIFICATE`. -/
def execGetCertificate (via : SpdmVia) (s : State) : Host.Outcome State Fault Refusal :=
  spdm via s 3 (spdmReply 4 [])

/-- `CHALLENGE`. -/
def execChallenge (via : SpdmVia) (s : State) : Host.Outcome State Fault Refusal :=
  spdm via s 3 (spdmReply 5 [])

/-- The measurement that a block carries: block n + 1 carries MRn (R443). -/
def measurementBlock (b : BootState) (block : Nat) : List Byte := if block = 0 then [] else b.mrs[block - 1]?.getD []

/-- `GET_MEASUREMENTS`: block n + 1 carries MRn (R443). -/
def execGetMeasurements (via : SpdmVia) (block : Nat) (s : State) : Host.Outcome State Fault Refusal :=
  spdm via s 3 fun s => spdmReply 6 (measurementBlock s.boot block) s

/-- `KEY_EXCHANGE`: a session is begun, for a partition's interface or none. -/
def execKeyExchange (via : SpdmVia) (part : Option Nat) (s : State) : Host.Outcome State Fault Refusal :=
  spdm via s 3 fun s => spdmReply 7 [] (modWay s via fun w => { w with handshake := some part })

/-- The session that was begun over a way stands. -/
def openSession (via : SpdmVia) (s : State) : State :=
  match (wayOf s.boot via).handshake with
  | none => spdmReply 10 [] s
  | some p =>
    let s := modWay s via fun w => { w with handshake := none, sessions := p :: w.sessions }
    let s := match p with
      | some k => modPart s k fun x => { x with session := true }
      | none => s
    spdmReply 8 [] s

/-- `FINISH`. -/
def execFinish (via : SpdmVia) (s : State) : Host.Outcome State Fault Refusal :=
  spdm via s 3 (openSession via)

/-- The newest session of a way ends (R445; log 13). -/
def closeSession (via : SpdmVia) (s : State) : State :=
  match (wayOf s.boot via).sessions with
  | [] => spdmReply 10 [] s
  | p :: r =>
    let s := modWay s via fun w => { w with sessions := r }
    spdmReply 9 [] (match p with
      | some k => sessionLost s k
      | none => s)

/-- `END_SESSION`. -/
def execEndSession (via : SpdmVia) (s : State) : Host.Outcome State Fault Refusal :=
  spdm via s 3 (closeSession via)

end Sys2Proof.Machine
end

