-- ==== Sys2Proof/Machine/VecCore.lean ====
section
/-!
DEFINITION. What the vector instructions share: tag classes (R88, R208), sources, guards and lanes (R209 to R211), and their landings.
-/

namespace Sys2Proof.Machine

open Sys2Proof

/-- Class F (R208). -/
def clsF (f : Nat) : Bool := f == 8 || f == 9 || f == 0x0A
/-- Class I. -/
def clsI (f : Nat) : Bool := 1 ≤ f && f ≤ 7
/-- Class FI. -/
def clsFI (f : Nat) : Bool := clsF f || clsI f
/-- Class M. -/
def clsM (f : Nat) : Bool := fmtValid f && !fmtAligned f
/-- Class A. -/
def clsA (f : Nat) : Bool := fmtValid f

/-- An instruction that lands nothing retires at its issue, with its push (R66, R210). -/
def retireNow (c : Ctx) : M Unit := upd fun s => retire s c.uid c.q (pushOf s c.uid c.q c.push)

/-- The same word without its push, for a second result. -/
def Ctx.noPush (c : Ctx) : Ctx := { c with push := none }

/-- A guarded body: a guard that is not live leaves only the token actions (R210). -/
def guarded (c : Ctx) (p : BitVec 4) (k : Mask → M Unit) : M Unit := do
  let g ← rp c p
  if g = 0 then retireNow c else k g

/-- The merge mask of a guard: none for p0, which selects every lane. -/
def mergeMask (p : BitVec 4) (g : Mask) : Option Mask := if p = 0 then none else some g

/-- One source of a class: its format and row (R207, R208). -/
def src1 (c : Ctx) (a : BitVec 5) (cls : Nat → Bool) : M (Nat × Row) := do
  let (t, r) ← rv c a
  if cls (tagOf t) then pure (tagOf t, r) else formatFault c

/-- The common tag of two sources; v31 takes the other's (R207); none where they differ (R209). -/
def joinTags (a b : Option (BitVec 6)) : Option Nat :=
  match a, b with
  | some x, some y => if x = y then some x.toNat else none
  | some x, none => some x.toNat
  | none, some y => some y.toNat
  | none, none => some 0

/-- Two sources of one tag. -/
def src2 (c : Ctx) (a b : BitVec 5) (cls : Nat → Bool) : M (Nat × Row × Row) := do
  pendVec c a
  pendVec c b
  let (ta, x) ← rv c a
  let (tb, y) ← rv c b
  match joinTags ta tb with
  | none => formatFault c
  | some f => if cls f then pure (f, x, y) else formatFault c

/-- The lanes of a function under a guard: flags come from selected lanes only (R98, R210). -/
def lanesWith (g : Mask) (f : Nat → Nat × Flags) (n : Nat) : List Nat × Flags :=
  (List.range n).foldr (fun k acc =>
    if g.getLsbD k then
      let (v, fl) := f k
      (v :: acc.1, fl ||| acc.2)
    else (0 :: acc.1, acc.2)) ([], 0)

/-- Element k of a list of lanes. -/
def laneAt (xs : List Nat) (k : Nat) : Nat := xs[k]?.getD 0

/-- A unary lane operation under a guard, with the result in the source tag. -/
def laneUnary (c : Ctx) (d a : BitVec 5) (p : BitVec 4) (cls : Nat → Bool) (op : Nat → Nat → Nat × Flags) (lat : Nat) : M Unit :=
  guarded c p fun g => do
    let (f, x) ← src1 c a cls
    let xs := rowElems f x
    let (ys, fl) := lanesWith g (fun k => op f (laneAt xs k)) (laneCount f)
    landVec c d f (rowFrom f ys) (mergeMask p g) fl lat

/-- A binary lane operation under a guard, with the result in the sources' tag. -/
def laneBinary (c : Ctx) (d a b : BitVec 5) (p : BitVec 4) (cls : Nat → Bool) (op : Nat → Nat → Nat → Nat × Flags) (lat : Nat) : M Unit :=
  guarded c p fun g => do
    let (f, x, y) ← src2 c a b cls
    let xs := rowElems f x
    let ys := rowElems f y
    let (zs, fl) := lanesWith g (fun k => op f (laneAt xs k) (laneAt ys k)) (laneCount f)
    landVec c d f (rowFrom f zs) (mergeMask p g) fl lat

end Sys2Proof.Machine
end

