-- ==== Sys2Proof/Machine/Vec0.lean ====
section
/-!
DEFINITION. VEC0: element-wise arithmetic, logic and compares (R219, R220), with the latencies of R212.
-/

namespace Sys2Proof.Machine

open Sys2Proof

/-- An integer element's value by its tag. -/
def intElem (f a : Nat) : Int := if fmtUnsigned f then (a % 2 ^ fmtBits f : Nat) else signedOf (fmtBits f) a

/-- `VADD` of a lane. -/
def laneAdd (f a b : Nat) : Nat × Flags := if fmtFloat f then floatAdd f a b else ((a + b) % 2 ^ fmtBits f, 0)

/-- `VSUB` of a lane. -/
def laneSub (f a b : Nat) : Nat × Flags := if fmtFloat f then floatSub f a b else (wrapTo (fmtBits f) ((a : Int) - b), 0)

/-- `VMUL` of a lane. -/
def laneMul (f a b : Nat) : Nat × Flags := if fmtFloat f then floatMul f a b else (a * b % 2 ^ fmtBits f, 0)

/-- `VFMA` and `VFMS` of a lane. -/
def laneFma (sub : Bool) (f a b c : Nat) : Nat × Flags :=
  if fmtFloat f then floatFma f sub a b c
  else (wrapTo (fmtBits f) ((a : Int) * b + if sub then -(c : Int) else c), 0)

/-- `VMIN` and `VMAX` of a lane (R95). -/
def laneMinMax (isMax : Bool) (f a b : Nat) : Nat × Flags :=
  if fmtFloat f then floatMinMax f isMax a b
  else (if intElem f a ≤ intElem f b then (if isMax then b else a) else (if isMax then a else b), 0)

/-- A float element with its sign bit changed by a function; a NaN becomes the canonical one (R96). -/
def floatSigned (f a : Nat) (g : Bool → Bool) : Nat × Flags :=
  if fisNaN (fval f a) then (floatNaN (floatFmt f), snanFlag f a)
  else
    let top := 2 ^ (fmtBits f - 1)
    (a % top + if g (top ≤ a) then top else 0, 0)

/-- `VABS` of a lane. -/
def laneAbs (f a : Nat) : Nat × Flags :=
  if fmtFloat f then floatSigned f a (fun _ => false)
  else if fmtUnsigned f then (a, 0) else (wrapTo (fmtBits f) (intElem f a).natAbs, 0)

/-- `VNEG` of a lane. -/
def laneNeg (f a : Nat) : Nat × Flags := if fmtFloat f then floatSigned f a (fun s => !s) else (wrapTo (fmtBits f) (-(a : Int)), 0)

/-- `VSLL` of a lane: a count of w or more gives 0. -/
def laneSll (f a b : Nat) : Nat × Flags := (if fmtBits f ≤ b then 0 else a * 2 ^ b % 2 ^ fmtBits f, 0)

/-- `VSRL` of a lane. -/
def laneSrl (f a b : Nat) : Nat × Flags := (if fmtBits f ≤ b then 0 else a / 2 ^ b, 0)

/-- `VSRA` of a lane: a signed tag fills with the sign, an unsigned one with 0; a count of w or more gives copies of the sign. -/
def laneSra (f a b : Nat) : Nat × Flags :=
  (wrapTo (fmtBits f) (intElem f a / 2 ^ Nat.min b (fmtBits f)), 0)

/-- `VSAT` of a lane (R220): clamped to −b′ to b′, b′ the maximum of b and 0. -/
def laneSat (f a b : Nat) : Nat × Flags :=
  if fmtFloat f then
    let b' := (floatMinMax f true b 0).1
    let n := (floatSigned f b' (fun s => !s)).1
    ((floatMinMax f false (floatMinMax f true a n).1 b').1, 0)
  else
    let x := intElem f a
    let r := if fmtUnsigned f then (if x ≤ intElem f b then x else intElem f b)
      else
        let b' := if intElem f b < 0 then 0 else intElem f b
        let m := if x < -b' then -b' else x
        if b' < m then b' else m
    (wrapTo (fmtBits f) r, if r = x then 0 else flagSATN)

/-- `VADDSAT` of a lane. -/
def laneAddsat (f a b : Nat) : Nat × Flags := saturate f (intElem f a + intElem f b)

/-- A compare of a lane: 0 equal, 1 less, 2 less or equal; NaN is unordered (R95). -/
def laneCompare (code f a b : Nat) : Bool × Flags :=
  if fmtFloat f then
    let x := fval f a
    let y := fval f b
    (match code with
     | 0 => feq x y
     | 1 => flt x y
     | _ => flt x y || feq x y, snanFlag f a ||| snanFlag f b)
  else
    (match code with
     | 0 => a == b
     | 1 => intElem f a < intElem f b
     | _ => intElem f a ≤ intElem f b, 0)

/-- `VADD` (R219). -/
def execVadd (d a b : BitVec 5) (p : BitVec 4) (t : BitVec 2) (s : State) : Host.Outcome State Fault Refusal :=
  issue (.vadd d a b p t) t true (fun c => laneBinary c d a b p clsFI laneAdd 2) s

/-- `VSUB` (R219). -/
def execVsub (d a b : BitVec 5) (p : BitVec 4) (t : BitVec 2) (s : State) : Host.Outcome State Fault Refusal :=
  issue (.vsub d a b p t) t true (fun c => laneBinary c d a b p clsFI laneSub 2) s

/-- `VMUL` (R219). -/
def execVmul (d a b : BitVec 5) (p : BitVec 4) (t : BitVec 2) (s : State) : Host.Outcome State Fault Refusal :=
  issue (.vmul d a b p t) t true (fun c => laneBinary c d a b p clsFI laneMul 4) s

/-- The three sources of `VFMA` and `VFMS` under one tag: v31 takes the tag of the others, vd's among them (R207, R209, R220). -/
def joinThree (ta tb td : Option (BitVec 6)) : Option Nat :=
  match td with
  | none => joinTags ta tb
  | some t =>
    match ta, tb with
    | none, none => some t.toNat
    | _, _ => (joinTags ta tb).bind fun f => if f = t.toNat then some f else none

/-- The body of `VFMA` and `VFMS` (R219, R220): c is vd's row with the tag of the others; zero, and no pop, for v30 and v31. -/
def fmaBody (c : Ctx) (d a b : BitVec 5) (p : BitVec 4) (sub : Bool) : M Unit :=
  guarded c p fun g => do
    pendVec c a
    pendVec c b
    pendVec c d
    let (ta, x) ← rv c a
    let (tb, y) ← rv c b
    let (td, z) ← if 30 ≤ d.toNat then pure (none, 0) else rv c d
    match (joinThree ta tb td).filter clsFI with
    | none => formatFault c
    | some f => do
      let xs := rowElems f x
      let ys := rowElems f y
      let zs := rowElems f z
      let (rs, fl) := lanesWith g (fun k => laneFma sub f (laneAt xs k) (laneAt ys k) (laneAt zs k)) (laneCount f)
      landVec c d f (rowFrom f rs) (mergeMask p g) fl 4

/-- `VFMA` (R219). -/
def execVfma (d a b : BitVec 5) (p : BitVec 4) (t : BitVec 2) (s : State) : Host.Outcome State Fault Refusal :=
  issue (.vfma d a b p t) t true (fun c => fmaBody c d a b p false) s

/-- `VFMS` (R219). -/
def execVfms (d a b : BitVec 5) (p : BitVec 4) (t : BitVec 2) (s : State) : Host.Outcome State Fault Refusal :=
  issue (.vfms d a b p t) t true (fun c => fmaBody c d a b p true) s

/-- `VMIN` (R219). -/
def execVmin (d a b : BitVec 5) (p : BitVec 4) (t : BitVec 2) (s : State) : Host.Outcome State Fault Refusal :=
  issue (.vmin d a b p t) t true (fun c => laneBinary c d a b p clsFI (laneMinMax false) 2) s

/-- `VMAX` (R219). -/
def execVmax (d a b : BitVec 5) (p : BitVec 4) (t : BitVec 2) (s : State) : Host.Outcome State Fault Refusal :=
  issue (.vmax d a b p t) t true (fun c => laneBinary c d a b p clsFI (laneMinMax true) 2) s

/-- `VABS` (R219). -/
def execVabs (d a : BitVec 5) (p : BitVec 4) (t : BitVec 2) (s : State) : Host.Outcome State Fault Refusal :=
  issue (.vabs d a p t) t true (fun c => laneUnary c d a p clsFI laneAbs 2) s

/-- `VNEG` (R219). -/
def execVneg (d a : BitVec 5) (p : BitVec 4) (t : BitVec 2) (s : State) : Host.Outcome State Fault Refusal :=
  issue (.vneg d a p t) t true (fun c => laneUnary c d a p clsFI laneNeg 2) s

/-- `VAND` (R219). -/
def execVand (d a b : BitVec 5) (p : BitVec 4) (t : BitVec 2) (s : State) : Host.Outcome State Fault Refusal :=
  issue (.vand d a b p t) t true (fun c => laneBinary c d a b p clsFI (fun _ x y => (x &&& y, 0)) 2) s

/-- `VOR` (R219). -/
def execVor (d a b : BitVec 5) (p : BitVec 4) (t : BitVec 2) (s : State) : Host.Outcome State Fault Refusal :=
  issue (.vor d a b p t) t true (fun c => laneBinary c d a b p clsFI (fun _ x y => (x ||| y, 0)) 2) s

/-- `VXOR` (R219). -/
def execVxor (d a b : BitVec 5) (p : BitVec 4) (t : BitVec 2) (s : State) : Host.Outcome State Fault Refusal :=
  issue (.vxor d a b p t) t true (fun c => laneBinary c d a b p clsFI (fun _ x y => (x ^^^ y, 0)) 2) s

/-- `VSLL` (R219). -/
def execVsll (d a b : BitVec 5) (p : BitVec 4) (t : BitVec 2) (s : State) : Host.Outcome State Fault Refusal :=
  issue (.vsll d a b p t) t true (fun c => laneBinary c d a b p clsI laneSll 2) s

/-- `VSRL` (R219). -/
def execVsrl (d a b : BitVec 5) (p : BitVec 4) (t : BitVec 2) (s : State) : Host.Outcome State Fault Refusal :=
  issue (.vsrl d a b p t) t true (fun c => laneBinary c d a b p clsI laneSrl 2) s

/-- `VSRA` (R219). -/
def execVsra (d a b : BitVec 5) (p : BitVec 4) (t : BitVec 2) (s : State) : Host.Outcome State Fault Refusal :=
  issue (.vsra d a b p t) t true (fun c => laneBinary c d a b p clsI laneSra 2) s

/-- The body of a compare: bit k of the predicate for each selected lane, 0 in every other bit (R220). -/
def compareBody (c : Ctx) (d a b : BitVec 5) (p : BitVec 4) (code : Nat) : M Unit :=
  guarded c p fun g => do
    let (f, x, y) ← src2 c a b clsFI
    let xs := rowElems f x
    let ys := rowElems f y
    let (bs, fl) := lanesWith g (fun k =>
      let (v, e) := laneCompare code f (laneAt xs k) (laneAt ys k)
      (if v then 1 else 0, e)) (laneCount f)
    let m : Mask := BitVec.ofNat 1024 (bs.foldr (fun v acc => v + 2 * acc) 0)
    addLanding c { c.entry .pred d.toNat 2 (m.setWidth 8192) with flg := fl }

/-- `VCMPEQ` (R219, R220). -/
def execVcmpeq (d a b : BitVec 5) (p : BitVec 4) (t : BitVec 2) (s : State) : Host.Outcome State Fault Refusal :=
  issue (.vcmpeq d a b p t) t true (fun c => compareBody c d a b p 0) s

/-- `VCMPLT` (R219, R220). -/
def execVcmplt (d a b : BitVec 5) (p : BitVec 4) (t : BitVec 2) (s : State) : Host.Outcome State Fault Refusal :=
  issue (.vcmplt d a b p t) t true (fun c => compareBody c d a b p 1) s

/-- `VCMPLE` (R219, R220). -/
def execVcmple (d a b : BitVec 5) (p : BitVec 4) (t : BitVec 2) (s : State) : Host.Outcome State Fault Refusal :=
  issue (.vcmple d a b p t) t true (fun c => compareBody c d a b p 2) s

/-- `VSEL`: pN[k] ? a : b in every lane (R219, R220). -/
def execVsel (d a b : BitVec 5) (p : BitVec 4) (t : BitVec 2) (s : State) : Host.Outcome State Fault Refusal :=
  issue (.vsel d a b p t) t true (fun c => do
    let g ← rp c p
    let (f, x, y) ← src2 c a b clsM
    let xs := rowElems f x
    let ys := rowElems f y
    let zs := (List.range (laneCount f)).map fun k => if g.getLsbD k then laneAt xs k else laneAt ys k
    landVec c d f (rowFrom f zs) none 0 2) s

/-- `VMOV` (R219). -/
def execVmov (d a : BitVec 5) (p : BitVec 4) (t : BitVec 2) (s : State) : Host.Outcome State Fault Refusal :=
  issue (.vmov d a p t) t true (fun c => laneUnary c d a p clsA (fun _ x => (x, 0)) 2) s

/-- `VSAT` (R219, R220). -/
def execVsat (d a b : BitVec 5) (p : BitVec 4) (t : BitVec 2) (s : State) : Host.Outcome State Fault Refusal :=
  issue (.vsat d a b p t) t true (fun c => laneBinary c d a b p clsFI laneSat 2) s

/-- `VADDSAT` (R219). -/
def execVaddsat (d a b : BitVec 5) (p : BitVec 4) (t : BitVec 2) (s : State) : Host.Outcome State Fault Refusal :=
  issue (.vaddsat d a b p t) t true (fun c => laneBinary c d a b p clsI laneAddsat 2) s

end Sys2Proof.Machine
end

