-- ==== Sys2Proof/Machine/Vec1.lean ====
section
/-!
DEFINITION. VEC1: the special functions (R118 to R120, R221).
-/

namespace Sys2Proof.Machine

open Sys2Proof

/-- `VRCP` (R118, R221). -/
def execVrcp (d a : BitVec 5) (p : BitVec 4) (t : BitVec 2) (s : State) : Host.Outcome State Fault Refusal :=
  issue (.vrcp d a p t) t true (fun c => laneUnary c d a p clsF specRcp 14) s

/-- `VSQRT` (R118, R221). -/
def execVsqrt (d a : BitVec 5) (p : BitVec 4) (t : BitVec 2) (s : State) : Host.Outcome State Fault Refusal :=
  issue (.vsqrt d a p t) t true (fun c => laneUnary c d a p clsF specSqrt 14) s

/-- `VRSQRT` (R118, R221). -/
def execVrsqrt (d a : BitVec 5) (p : BitVec 4) (t : BitVec 2) (s : State) : Host.Outcome State Fault Refusal :=
  issue (.vrsqrt d a p t) t true (fun c => laneUnary c d a p clsF specRsqrt 14) s

/-- `VEXP2` (R118, R221). -/
def execVexp2 (d a : BitVec 5) (p : BitVec 4) (t : BitVec 2) (s : State) : Host.Outcome State Fault Refusal :=
  issue (.vexp2 d a p t) t true (fun c => laneUnary c d a p clsF specExp2 14) s

/-- `VLOG2` (R118, R221). -/
def execVlog2 (d a : BitVec 5) (p : BitVec 4) (t : BitVec 2) (s : State) : Host.Outcome State Fault Refusal :=
  issue (.vlog2 d a p t) t true (fun c => laneUnary c d a p clsF specLog2 14) s

/-- `VEXP` (R119 to R121). -/
def execVexp (d a : BitVec 5) (p : BitVec 4) (t : BitVec 2) (s : State) : Host.Outcome State Fault Refusal :=
  issue (.vexp d a p t) t true (fun c => laneUnary c d a p clsF (specComposite f32Exp) 14) s

/-- `VTANH` (R119, R221). -/
def execVtanh (d a : BitVec 5) (p : BitVec 4) (t : BitVec 2) (s : State) : Host.Outcome State Fault Refusal :=
  issue (.vtanh d a p t) t true (fun c => laneUnary c d a p clsF (specComposite f32Tanh) 14) s

/-- `VSIGM` (R119, R221). -/
def execVsigm (d a : BitVec 5) (p : BitVec 4) (t : BitVec 2) (s : State) : Host.Outcome State Fault Refusal :=
  issue (.vsigm d a p t) t true (fun c => laneUnary c d a p clsF (specComposite f32Sigm) 14) s

/-- `VGELU` (R119, R221). -/
def execVgelu (d a : BitVec 5) (p : BitVec 4) (t : BitVec 2) (s : State) : Host.Outcome State Fault Refusal :=
  issue (.vgelu d a p t) t true (fun c => laneUnary c d a p clsF (specComposite f32Gelu) 14) s

/-- `VSILU` (R119, R221). -/
def execVsilu (d a : BitVec 5) (p : BitVec 4) (t : BitVec 2) (s : State) : Host.Outcome State Fault Refusal :=
  issue (.vsilu d a p t) t true (fun c => laneUnary c d a p clsF (specComposite f32Silu) 14) s

end Sys2Proof.Machine
end

