-- ==== Sys2Proof/Machine/Vec2.lean ====
section
/-!
DEFINITION. VEC2: conversion, permutation and compaction (R222 to R226); every form has latency 3.
-/

namespace Sys2Proof.Machine

open Sys2Proof

/-! ## Conversions (R223, R224) -/

/-- The body of `VCVT` and `VCVTR`: element k into element k below the smaller count, 0 above (R223). A `t2` code 0b10 in a selected lane is a
format fault (R91). -/
def convertBody (c : Ctx) (d a : BitVec 5) (p : BitVec 4) (dst : Nat) (mode : RMode) : M Unit :=
  guarded c p fun g => do
    let (f, x) ← src1 c a (fun f => clsM f && f != 0 && f != 0x13)
    let n := Nat.min (laneCount f) (laneCount dst)
    let xs := rowElems f x
    if !(convLegal f dst) || (List.range n).any fun k => g.getLsbD k && (convertElem f dst mode (laneAt xs k)).isNone then formatFault c
    else do
      let (ys, fl) := lanesWith g (fun k =>
        if k < n then (convertElem f dst mode (laneAt xs k)).getD (0, 0) else (0, 0)) (laneCount dst)
      landVec c d dst (rowFrom dst ys) (mergeMask p g) fl 3

/-- `VCVT` (R223). -/
def execVcvt (d a g : BitVec 5) (p : BitVec 4) (t : BitVec 2) (s : State) : Host.Outcome State Fault Refusal :=
  issue (.vcvt d a g p t) t true (fun c => convertBody c d a p g.toNat .rne) s

/-- The rounding mode of `VCVTR` by its code (R222). -/
def cvtrMode : Nat → RMode
  | 1 => .rtz
  | 2 => .rdn
  | _ => .rup

/-- The target of `VCVTR` by its code: `i8 i16 i32 f32 bf16 f16 f8e4m3 f8e5m2` (R222). -/
def cvtrTarget : Nat → Nat
  | 0 => 1 | 1 => 2 | 2 => 3 | 3 => 8 | 4 => 9 | 5 => 0x0A | 6 => 0x0B | _ => 0x0C

/-- `VCVTR` (R223). -/
def execVcvtr (d a : BitVec 5) (m : BitVec 2) (g : BitVec 3) (p : BitVec 4) (t : BitVec 2) (s : State) : Host.Outcome State Fault Refusal :=
  issue (.vcvtr d a m g p t) t true (fun c => convertBody c d a p (cvtrTarget g.toNat) (cvtrMode m.toNat)) s

/-- The runs of 64 of a list. -/
def runs64 : Nat → List Nat → List (List Nat)
  | 0, _ => []
  | n + 1, xs => xs.take 64 :: runs64 n (xs.drop 64)

/-- The requantised runs of a row: scale codes, elements, flags (R109, R224). -/
def requantiseRow (f dst : Nat) (xs : List Nat) : List Nat × List Nat × Flags :=
  (runs64 (xs.length / 64) xs).foldr (fun r acc =>
    let (sc, es, fl) := requantise (r.map (fval f)) dst
    let sn := r.foldl (fun a x => a ||| snanFlag f x) 0
    (sc :: acc.1, es ++ acc.2.1, fl ||| sn ||| acc.2.2)) ([], [], 0)

/-- `VQMX`: a row requantised to MX64 elements in vd and scale codes in vb's row (R224). -/
def execVqmx (d a b : BitVec 5) (g : BitVec 4) (t : BitVec 2) (s : State) : Host.Outcome State Fault Refusal :=
  issue (.vqmx d a b g t) t true (fun c => do
    pendVec c a
    if b = d ∨ b = 30 then formatFault c
    else do
      let (f, x) ← src1 c a clsF
      let dst := 0x0B + g.toNat
      let (scs, es, fl) := requantiseRow f dst (rowElems f x)
      landVec c d dst (rowFrom dst es) none fl 3
      landVec c.noPush b 0x13 (rowFrom 0x13 scs) none 0 3) s

/-- The target of `VDQMX` by its code (R222). -/
def dqmxTarget : Nat → Nat
  | 0 => 8
  | 1 => 9
  | _ => 0x0A

/-- `VDQMX`: MX64 elements decoded against the scales of vb (R224). -/
def execVdqmx (d a b : BitVec 5) (g : BitVec 4) (t : BitVec 2) (s : State) : Host.Outcome State Fault Refusal :=
  issue (.vdqmx d a b g t) t true (fun c => do
    pendVec c a
    pendVec c b
    let (ta, x) ← rv c a
    let (tb, y) ← rv c b
    let f := (ta.getD (tb.getD 0)).toNat
    let k := (tb.getD (ta.getD 0)).toNat
    if fmtMx f && k == 0x13 then do
      let dst := dqmxTarget g.toNat
      let xs := rowElems f x
      let ys := rowElems 0x13 y
      let n := Nat.min (laneCount f) (laneCount dst)
      let (zs, fl) := lanesWith (BitVec.allOnes 1024) (fun i =>
        let (v, e) := mxDecode f (laneAt xs i) (laneAt ys (i / 64))
        let (r, e') := convertTo dst .rne (.flt v)
        (r, e ||| e' ||| snanFlag f (laneAt xs i))) n
      landVec c d dst (rowFrom dst zs) none fl 3
    else formatFault c) s

/-! ## Permutes (R225) -/

/-- A permute under a guard with the sources' elements as functions of the lane. -/
def permuteBody (c : Ctx) (d : BitVec 5) (p : BitVec 4) (g : Mask) (f : Nat) (h : Nat → Nat) : M Unit := do
  let (ys, _) := lanesWith g (fun k => (h k, 0)) (laneCount f)
  landVec c d f (rowFrom f ys) (mergeMask p g) 0 3

/-- `VPERM`: lane k := a[idx[k]] (R225). -/
def execVperm (d a b : BitVec 5) (p : BitVec 4) (t : BitVec 2) (s : State) : Host.Outcome State Fault Refusal :=
  issue (.vperm d a b p t) t true (fun c => guarded c p fun g => do
    pendVec c a
    pendVec c b
    let (ta, x) ← rv c a
    let (tb, y) ← rv c b
    let f := (ta.getD (tb.getD 0)).toNat
    let k := (tb.getD (ta.getD 0)).toNat
    if clsM f && clsI k then do
      let xs := rowElems f x
      let is := rowElems k y
      permuteBody c d p g f fun i =>
        if i < laneCount k ∧ laneAt is i < laneCount f then laneAt xs (laneAt is i) else 0
    else formatFault c) s

/-- `VSHUF`: the first halves of two rows interleaved (R225). -/
def execVshuf (d a b : BitVec 5) (p : BitVec 4) (t : BitVec 2) (s : State) : Host.Outcome State Fault Refusal :=
  issue (.vshuf d a b p t) t true (fun c => guarded c p fun g => do
    let (f, x, y) ← src2 c a b clsM
    let xs := rowElems f x
    let ys := rowElems f y
    permuteBody c d p g f fun i => if i % 2 = 0 then laneAt xs (i / 2) else laneAt ys (i / 2)) s

/-- `VSLIDE`: lane k := a[k + s[vb]] (R225). -/
def execVslide (d a b : BitVec 5) (p : BitVec 4) (t : BitVec 2) (s : State) : Host.Outcome State Fault Refusal :=
  issue (.vslide d a b p t) t true (fun c => guarded c p fun g => do
    pendVec c a
    pendScalar c b
    let (f, x) ← src1 c a clsM
    let v ← rs c b
    let xs := rowElems f x
    permuteBody c d p g f fun i =>
      let j : Int := i + v.toInt
      if 0 ≤ j ∧ j < laneCount f then laneAt xs j.toNat else 0) s

/-- `VBCST`: every lane := a[s[vb]] (R225). -/
def execVbcst (d a b : BitVec 5) (p : BitVec 4) (t : BitVec 2) (s : State) : Host.Outcome State Fault Refusal :=
  issue (.vbcst d a b p t) t true (fun c => guarded c p fun g => do
    pendVec c a
    pendScalar c b
    let (f, x) ← src1 c a clsM
    let v ← rs c b
    let xs := rowElems f x
    permuteBody c d p g f fun _ => if v.toNat < laneCount f then laneAt xs v.toNat else 0) s

/-- `VINS`: vd's row with one lane replaced (R225). -/
def execVins (d a b : BitVec 5) (t : BitVec 2) (s : State) : Host.Outcome State Fault Refusal :=
  issue (.vins d a b t) t true (fun c => do
    pendVec c d
    let (i, v) ← rs2 c a b
    let (f, x) ← src1 c d clsM
    let r := if i.toNat < laneCount f then
        rowFrom f ((rowElems f x).set i.toNat v.toNat)
      else x
    landVec c d f r none 0 3) s

/-- `VEXT`: a scalar := an element of a row (R225). -/
def execVext (d a b : BitVec 5) (t : BitVec 2) (s : State) : Host.Outcome State Fault Refusal :=
  issue (.vext d a b t) t true (fun c => do
    pendVec c a
    pendScalar c b
    let (f, x) ← src1 c a clsM
    let i ← rs c b
    let e := laneAt (rowElems f x) i.toNat
    let v := if i.toNat < laneCount f then
        (if clsI f && fmtSigned f then BitVec.ofInt 64 (signedOf (fmtBits f) e) else BitVec.ofNat 64 e)
      else 0
    landScalar c d.toNat v 3) s

/-! ## Compaction (R226) -/

/-- `VCMPCT`: appends the selected elements to the compaction buffer (R226). DESIGN CHOICE (log 93): an empty buffer to which it appends no element stays without a tag. -/
def execVcmpct (a : BitVec 5) (p : BitVec 4) (t : BitVec 2) (s : State) : Host.Outcome State Fault Refusal :=
  issue (.vcmpct a p t) t true (fun c => guarded c p fun g => do
    let (f, x) ← src1 c a clsM
    let u ← theUnit c
    let bad := match u.xs.cmpTag with
      | some w => w.toNat != f
      | none => false
    if bad || laneCount f ≤ u.xs.cmp.length then formatFault c
    else do
      let xs := rowElems f x
      let kept := ((List.range (laneCount f)).filter fun k => g.getLsbD k).map (laneAt xs)
      let cmp := u.xs.cmp ++ kept
      updUnit c fun u => { u with xs := u.xs.setCmp cmp (if cmp.isEmpty then none else some (BitVec.ofNat 6 f)) }
      retireNow c) s

/-- X's state with the first m elements of the buffer removed; an empty buffer loses its tag. -/
def dropCompacted (x : XState) (m : Nat) : XState :=
  let r := x.cmp.drop m
  x.setCmp r (if r.isEmpty then none else x.cmpTag)

/-- `VCPOP`: the first N elements, if the buffer holds them (R226). -/
def execVcpop (d : BitVec 5) (p : BitVec 4) (t : BitVec 2) (s : State) : Host.Outcome State Fault Refusal :=
  issue (.vcpop d p t) t true (fun c => do
    let u ← theUnit c
    let f := tagOf u.xs.cmpTag
    let n := laneCount f
    if n ≤ u.xs.cmp.length then do
      updUnit c fun u => { u with xs := dropCompacted u.xs n }
      landVec c d f (rowFrom f (u.xs.cmp.take n)) none 0 3
      landPred c.noPush p.toNat (BitVec.allOnes 1024) 3
    else landPred c p.toNat 0 3) s

/-- `VCFLUSH`: what the buffer holds, at most N elements (R226). -/
def execVcflush (d : BitVec 5) (p : BitVec 4) (t : BitVec 2) (s : State) : Host.Outcome State Fault Refusal :=
  issue (.vcflush d p t) t true (fun c => do
    let u ← theUnit c
    let f := tagOf u.xs.cmpTag
    let m := Nat.min u.xs.cmp.length (laneCount f)
    updUnit c fun u => { u with xs := dropCompacted u.xs m }
    landVec c d f (rowFrom f (u.xs.cmp.take m)) none 0 3
    landPred c.noPush p.toNat (BitVec.ofNat 1024 (2 ^ m - 1)) 3) s

end Sys2Proof.Machine
end

