-- ==== Sys2Proof/Machine/Vec3.lean ====
section
/-!
DEFINITION. VEC3: reductions, dot products and scans (R114, R115, R227, R228).
-/

namespace Sys2Proof.Machine

open Sys2Proof

/-- The lanes that a guard selects of a format. -/
def selected (g : Mask) (f : Nat) : List Nat := (List.range (laneCount f)).filter fun k => g.getLsbD k

/-- A reduction's result in every lane of a row. -/
def splat (f v : Nat) : Row := rowFrom f (List.replicate (laneCount f) v)

/-- A reduction under its guard: every lane of vd is written (R227). -/
def reduceBody (c : Ctx) (d a : BitVec 5) (p : BitVec 4) (cls : Nat → Bool) (op : Nat → Mask → List Nat → Nat × Nat × Flags)
    (lat : Nat) : M Unit :=
  guarded c p fun g => do
    let (f, x) ← src1 c a cls
    let (tag, v, fl) := op f g (rowElems f x)
    landVec c d tag (splat tag v) none fl lat

/-- The result tag of a sum (R227). -/
def sumTag (f : Nat) : Nat := if fmtFloat f then 8 else if f = 4 then 4 else if fmtUnsigned f then 7 else 3

/-- `VRSUM`: the tree sum in F32, or the exact integer sum saturated once (R114, R228). -/
def sumLanes (f : Nat) (g : Mask) (xs : List Nat) : Nat × Nat × Flags :=
  if fmtFloat f then
    let vs := xs.zipIdx.map fun x => if g.getLsbD x.2 then (fval f x.1, false) else (fzero, false)
    let sn := (selected g f).foldl (fun a k => a ||| snanFlag f (laneAt xs k)) 0
    let (v, fl) := treeSum 12 vs
    (8, v, fl ||| sn)
  else
    let (v, fl) := saturate (sumTag f) ((selected g f).foldl (fun a k => a + intElem f (laneAt xs k)) 0)
    (sumTag f, v, fl)

/-- The identity of `VRMAX` and `VRMIN`: −∞ or the least value, +∞ or the greatest. -/
def extremeIdentity (isMax : Bool) (f : Nat) : Nat :=
  if fmtFloat f then floatInf (floatFmt f) + (if isMax then 2 ^ (fmtBits f - 1) else 0)
  else wrapTo (fmtBits f) (if isMax then (intRange f).1 else (intRange f).2)

/-- `VRMAX` and `VRMIN` (R95, R227). -/
def extremeLanes (isMax : Bool) (f : Nat) (g : Mask) (xs : List Nat) : Nat × Nat × Flags :=
  let vs := xs.zipIdx.map fun x => if g.getLsbD x.2 then x.1 else extremeIdentity isMax f
  match vs with
  | [] => (f, 0, 0)
  | v :: r =>
    let (m, fl) := r.foldl (fun acc x => let (y, e) := laneMinMax isMax f acc.1 x; (y, acc.2 ||| e)) (v, 0)
    (f, m, fl)

/-- `VRAND` and `VROR`. -/
def bitLanes (isAnd : Bool) (f : Nat) (g : Mask) (xs : List Nat) : Nat × Nat × Flags :=
  (f, (selected g f).foldl (fun a k => if isAnd then a &&& laneAt xs k else a ||| laneAt xs k)
    (if isAnd then 2 ^ fmtBits f - 1 else 0), 0)

/-- `VPCNT`: the selected lanes whose element is not all zero bits. -/
def countLanes (f : Nat) (g : Mask) (xs : List Nat) : Nat × Nat × Flags :=
  (3, ((selected g f).filter fun k => laneAt xs k != 0).length, 0)

/-- `VDOT`: the tree sum of the exact products (R114, R228). -/
def dotLanes (f : Nat) (g : Mask) (xs ys : List Nat) : Nat × Nat × Flags :=
  if fmtFloat f then
    let vs := (xs.zip ys).zipIdx.map fun x => if g.getLsbD x.2 then fmul (fval f x.1.1) (fval f x.1.2) else (fzero, false)
    let sn := (selected g f).foldl (fun a k => a ||| snanFlag f (laneAt xs k) ||| snanFlag f (laneAt ys k)) 0
    let (v, fl) := treeSum 12 vs
    (8, v, fl ||| sn)
  else
    let (v, fl) := saturate (sumTag f)
      ((selected g f).foldl (fun a k => a + intElem f (laneAt xs k) * intElem f (laneAt ys k)) 0)
    (sumTag f, v, fl)

/-- The prefixes of `VSCAN` from lane k on: `acc` is the prefix before it, none before any selected lane (R115). -/
def scanLanes (f : Nat) (g : Mask) (acc : Option Nat) (k : Nat) : List Nat → List Nat × Flags
  | [] => ([], 0)
  | x :: r =>
    let (now, fl) := if g.getLsbD k then
        match acc with
        | none => (some x, 0)
        | some a =>
          let (v, e) := laneAdd f a x
          (some v, e)
      else (acc, 0)
    let (rest, fl') := scanLanes f g now (k + 1) r
    (now.getD 0 :: rest, fl ||| fl')

/-- `VRSUM` (R227). -/
def execVrsum (d a : BitVec 5) (p : BitVec 4) (t : BitVec 2) (s : State) : Host.Outcome State Fault Refusal :=
  issue (.vrsum d a p t) t true (fun c => reduceBody c d a p clsFI sumLanes 6) s

/-- `VRMAX` (R227). -/
def execVrmax (d a : BitVec 5) (p : BitVec 4) (t : BitVec 2) (s : State) : Host.Outcome State Fault Refusal :=
  issue (.vrmax d a p t) t true (fun c => reduceBody c d a p clsFI (extremeLanes true) 6) s

/-- `VRMIN` (R227). -/
def execVrmin (d a : BitVec 5) (p : BitVec 4) (t : BitVec 2) (s : State) : Host.Outcome State Fault Refusal :=
  issue (.vrmin d a p t) t true (fun c => reduceBody c d a p clsFI (extremeLanes false) 6) s

/-- `VRAND` (R227). -/
def execVrand (d a : BitVec 5) (p : BitVec 4) (t : BitVec 2) (s : State) : Host.Outcome State Fault Refusal :=
  issue (.vrand d a p t) t true (fun c => reduceBody c d a p clsI (bitLanes true) 6) s

/-- `VROR` (R227). -/
def execVror (d a : BitVec 5) (p : BitVec 4) (t : BitVec 2) (s : State) : Host.Outcome State Fault Refusal :=
  issue (.vror d a p t) t true (fun c => reduceBody c d a p clsI (bitLanes false) 6) s

/-- `VDOT` (R227). -/
def execVdot (d a b : BitVec 5) (p : BitVec 4) (t : BitVec 2) (s : State) : Host.Outcome State Fault Refusal :=
  issue (.vdot d a b p t) t true (fun c => guarded c p fun g => do
    let (f, x, y) ← src2 c a b clsFI
    let (tag, v, fl) := dotLanes f g (rowElems f x) (rowElems f y)
    landVec c d tag (splat tag v) none fl 6) s

/-- `VSCAN` (R115, R227, R228). -/
def execVscan (d a : BitVec 5) (p : BitVec 4) (t : BitVec 2) (s : State) : Host.Outcome State Fault Refusal :=
  issue (.vscan d a p t) t true (fun c => guarded c p fun g => do
    let (f, x) ← src1 c a clsFI
    let (ys, fl) := scanLanes f g none 0 (rowElems f x)
    landVec c d f (rowFrom f ys) none fl 8) s

/-- `VPCNT` (R227). -/
def execVpcnt (d a : BitVec 5) (p : BitVec 4) (t : BitVec 2) (s : State) : Host.Outcome State Fault Refusal :=
  issue (.vpcnt d a p t) t true (fun c => reduceBody c d a p clsM countLanes 6) s

end Sys2Proof.Machine
end

