-- ==== Sys2Proof/Machine/VecLS.lean ====
section
/-!
DEFINITION. Vector loads and stores (R196 to R199).
-/

namespace Sys2Proof.Machine

open Sys2Proof

/-- The forms of R198. -/
inductive VForm where
  | vld | vst | vldt | vldg | vsts | vldb | vlds
  deriving DecidableEq, Repr

/-! ## Row pointers (R196, R197) -/

/-- A row pointer; `bad` tells a reserved bit or a reserved `SEG`. -/
structure RowPtr where
  strw : Nat
  fmt  : Nat
  swz  : Nat
  core : Nat
  seg  : Nat
  addr : Nat
  bad  : Bool
  deriving DecidableEq, Repr

/-- The fields of a row pointer. -/
def rowPtr (v : Word) : RowPtr :=
  let w := v.toNat
  { strw := bits w 44 20, fmt := bits w 38 6, swz := bits w 32 4, core := bits w 23 2, seg := bits w 21 2, addr := bits w 0 21,
    bad := bits w 36 2 != 0 || bits w 25 7 != 0 || 2 ≤ bits w 21 2 }

/-- Whether `ADDR` is misaligned: a multiple of the element size, and of 4 for `VLD` and `VST`. -/
def rowMisaligned (f : VForm) (p : RowPtr) : Bool :=
  p.addr % Nat.max (fmtBits p.fmt / 8) 1 != 0 || (f == .vld || f == .vst) && p.addr % 4 != 0

/-- The elements of a row of a format. -/
def rowN (f : Nat) : Nat := 8192 / Nat.max (fmtBits f) 8

/-- The bit offset from `ADDR` of the element of each lane (R198); empty when k is above N. -/
def laneOffsets (f : VForm) (p : RowPtr) (imm : Nat) (idx : List Nat) : List (Option Nat) :=
  let w := fmtBits p.fmt
  let n := rowN p.fmt
  let k := 2 ^ imm
  let st := 32 * p.strw
  match f with
  | .vld => (List.range n).map fun e => some (imm * n * w + e * w)
  | .vst => (List.range n).map fun e => some (imm * n * w + e * w)
  | .vldt => if n < k then [] else (List.range n).map fun e => some (st * (e % k) + e / k * w)
  | .vsts => if n < k then [] else (List.range n).map fun e => some (st * (e / (n / k)) + e % (n / k) * w)
  | .vlds => if n < k then [] else (List.range n).map fun e => some (st * (e / (n / k)) + e % (n / k) * w)
  | .vldb => (List.range n).map fun e => some (e % k * w)
  | .vldg => (idx.take n).map fun x => if x = 0xFFFFFFFF then none else some (x * w)

/-- Whether a form accepts a format and its limits (R197, R198). -/
def vformAccepts (f : VForm) (p : RowPtr) (imm : Nat) : Bool :=
  fmtValid p.fmt && !(fmtAligned p.fmt) && (8 ≤ fmtBits p.fmt || f == .vld || f == .vst || f == .vldb) &&
    match f with
    | .vldt => 2 ^ imm ≤ rowN p.fmt
    | .vsts => 2 ^ imm ≤ rowN p.fmt
    | .vlds => 2 ^ imm ≤ rowN p.fmt
    | .vldb => 2 ^ imm ≤ rowN p.fmt
    | _ => true

/-- The partition offsets of the bytes of an element. -/
def elemBytes (p : RowPtr) (off : Nat) : List Nat :=
  let b := 8 * p.addr + off
  (List.range ((b + fmtBits p.fmt + 7) / 8 - b / 8)).map fun i => b / 8 + i

/-- The partition offsets of the bytes of all lanes, in lane order, a byte shared with the lane before listed once. -/
def rowBytes (p : RowPtr) (offs : List (Option Nat)) : List Nat :=
  offs.foldr (fun o acc =>
    match o with
    | none => acc
    | some x =>
      let bs := elemBytes p x
      match bs.getLast?, acc.head? with
      | some a, some b => if a = b then bs.dropLast ++ acc else bs ++ acc
      | _, _ => bs ++ acc) []

/-- Whether every byte lies in the partition and outside the stages of open levels (R160, R161, R300). -/
def bytesFit (s : State) (uid owner : Nat) (bs : List Nat) : Bool :=
  bs.all fun o =>
    match partPlace s uid owner o with
    | .ok _ => true
    | .error _ => false

/-- The first two checks of R197 for a row pointer, and the partition it names. -/
def checkRowPtr (c : Ctx) (f : VForm) (p : RowPtr) : M Nat := fun s =>
  if !(fmtValid p.fmt) then formatFault c s
  else if p.bad || rowMisaligned f p then windowFault c s
  else
    match pointerOwner s c.uid p.seg p.core with
    | none => windowFault c s
    | some v => .ok (v, s)

/-- The swizzle check of R165 over the regions that bytes touch. -/
def checkSwizzle (c : Ctx) (owner : Nat) (p : RowPtr) (bs : List Nat) : M Unit := fun s =>
  if 6 < p.swz || bs.any fun o => regionTag s owner (o / 4096) != p.swz then swizzleFault c s else .ok ((), s)

/-! ## Access -/

/-- The virtual address of a partition byte under a row pointer (R160, R161). -/
def rowByteVa (s : State) (owner : Nat) (p : RowPtr) : Place → Word
  | .mem pa => sideBase p.seg p.core (pa - spadPa (getUnit s owner) 0)
  | .acc .. => 0

/-- The check of the partition bytes that a vector word reads under a row pointer in pending-bit debug mode, before any fault of the pointer (R81); a pointer of no
partition or no format reads none. -/
def pendRowBytes (c : Ctx) (p : RowPtr) (offs : List Nat) : M Unit := fun s =>
  match if fmtValid p.fmt then pointerOwner s c.uid p.seg p.core else none with
  | none => .ok ((), s)
  | some v => pendBytes c (offs.filterMap fun o => match partPlace s c.uid v o with
      | .ok q => some (sideBase p.seg p.core o, q)
      | .error _ => none) s

/-- The bytes of a vector access read (R147, R199): it stalls on locks, sees the sequencer's own stores, and is marked as one plain access. -/
def vecRead (c : Ctx) (owner : Nat) (p : RowPtr) (offs : List Nat) : M (List Byte) := do
  let s ← get
  let ps := offs.map fun o => Place.mem (spadPa (getUnit s owner) o)
  seqLocks c ps false
  let u ← theUnit c
  let a := seqAgent u c.uid c.q
  let own := (getSeq s c.uid c.q).fl.stores
  if ps.any fun q => ownStore q own == some none then freeze .atomic
  else
    let mine := ps.filter fun q => (ownStore q own).isNone
    match checkMark a (regionOf s a) u.ident.key.cont u.ident.key.job (rowByteVa s owner p) false false (placeRuns mine) s with
    | .error r => raiseRace r.vaddr r
    | .ok t => do
      set t
      pure (ps.map fun q => match ownStore q own with
        | some (some b) => b
        | _ => placeGet s q)

/-- The elements of the lanes taken in order from the bytes read. -/
def takeLanes (p : RowPtr) (last : Option (Nat × Byte)) : List (Option Nat) → List Byte → List Nat
  | [], _ => []
  | none :: r, bs => 0 :: takeLanes p last r bs
  | some x :: r, bs =>
    let at0 := elemBytes p x
    -- the first byte may be shared with the lane before
    let shared := match last, at0.head? with
      | some (o, _), some a => o == a
      | _, _ => false
    let pre := match last with
      | some (_, b) => if shared then [b] else []
      | none => []
    let fresh := bs.take (at0.length - pre.length)
    let mine := pre ++ fresh
    let v := leValue mine / 2 ^ ((8 * p.addr + x) % 8) % 2 ^ fmtBits p.fmt
    let last' := match at0.getLast?, mine.getLast? with
      | some o, some b => some (o, b)
      | _, _ => last
    v :: takeLanes p last' r (bs.drop (at0.length - pre.length))

/-- A row load's destination: a reserved `vqin` entry in L, a vector name in X (R137, R139, R196). -/
def landLoad (c : Ctx) (d : BitVec 5) (tag : Nat) (row : Row) (lat : Nat) : M Unit :=
  if c.q = .l then do
    let u ← theUnit c
    if u.vqin.src ≠ 0 ∧ u.vqin.src.toNat ≠ tag then formatFault c
    else if 8 ≤ u.vqin.entries.length then freeze (.queue 10)
    else do
      let sq ← theSeq c
      let rid := nextRid (u.vqin.entries.map (·.rid) ++ sq.fl.running.map (·.rid) ++ sq.fl.held.map (·.rid))
      updUnit c fun u => { u with vqin := { u.vqin with entries := u.vqin.entries ++ [{ rid := rid, val := none }] } }
      addLanding c { c.entry .vq 0 lat row with tag := BitVec.ofNat 6 tag, rid := rid }
  else landVec c d tag row none 0 lat

/-- The partition offsets of the indices of a `VLDG`: N consecutive `ui32` values from the second row pointer (R198). -/
def indexOffsets (data index : RowPtr) : List Nat := (List.range (4 * rowN data.fmt)).map fun i => index.addr + i

/-- The indices of a `VLDG` (R198). -/
def gatherIndices (c : Ctx) (data index : RowPtr) : M (List Nat) := do
  let owner ← checkRowPtr c .vldg index
  let s ← get
  let offs := indexOffsets data index
  if !(bytesFit s c.uid owner offs) then windowFault c
  else if index.fmt ≠ 7 ∨ !(vformAccepts .vldg data 0) then formatFault c
  else do
    checkSwizzle c owner index offs
    let bs ← vecRead c owner index offs
    pure ((List.range (rowN data.fmt)).map fun i => leValue ((bs.drop (4 * i)).take 4))

/-- The body of a vector load. -/
def vecLoad (c : Ctx) (f : VForm) (d : BitVec 5) (a : BitVec 6) (imm : Nat) (lat : Nat) : M Unit := do
  if f = .vldg then pendScalar c (BitVec.ofNat 6 imm) else pure ()
  let v ← rs c a
  let p := rowPtr v
  let w ← if f = .vldg then rs c (BitVec.ofNat 6 imm) else pure 0
  if f = .vldg then pendRowBytes c (rowPtr w) (indexOffsets p (rowPtr w)) else pendRowBytes c p (rowBytes p (laneOffsets f p imm []))
  let owner ← checkRowPtr c f p
  let idx ← if f = .vldg then gatherIndices c p (rowPtr w) else pure []
  let offs := laneOffsets f p imm idx
  let bytes := rowBytes p offs
  if f = .vldg then pendRowBytes c p bytes else pure ()
  let s ← get
  if !(bytesFit s c.uid owner bytes) then windowFault c
  else if !(vformAccepts f p imm) then formatFault c
  else do
    checkSwizzle c owner p bytes
    let bs ← vecRead c owner p bytes
    landLoad c d p.fmt (rowFrom p.fmt (takeLanes p none offs bs)) lat

/-- The row that a vector store takes: S pops `vqout`, X reads its vector name (R196). -/
def storeRow (c : Ctx) (d : BitVec 5) : M (Option (BitVec 6) × Row) :=
  if c.q = .s then do
    let (t, r) ← popVqout c
    pure (some t, r)
  else rv c d

/-- The bytes of a store as offsets and values: sub-byte elements packed as one stream from `ADDR` (R90, R198). -/
def storeImage (f : VForm) (p : RowPtr) (imm : Nat) (xs : List Nat) : List (Nat × Byte) :=
  let w := fmtBits p.fmt
  if w < 8 then
    let n := rowN p.fmt
    let v := xs.foldr (fun x acc => x % 2 ^ w + 2 ^ w * acc) 0
    (leBytes (n * w / 8) v).zipIdx.map fun x => (p.addr + imm * (n * w / 8) + x.2, x.1)
  else
    ((laneOffsets f p imm []).zip xs).flatMap fun x =>
      match x.1 with
      | some o => (leBytes (w / 8) x.2).zipIdx.map fun b => (p.addr + o / 8 + b.2, b.1)
      | none => []

/-- A vector store by its row pointer: its row is read at issue, and it is performed two virtual cycles later (R199). -/
def storeAt (c : Ctx) (f : VForm) (d : BitVec 5) (imm : Nat) (p : RowPtr) : M Unit := do
  let owner ← checkRowPtr c f p
  let s ← get
  if !(bytesFit s c.uid owner (rowBytes p (laneOffsets f p imm []))) then windowFault c
  else do
    let (t, r) ← storeRow c d
    if !(vformAccepts f p imm) || (p.fmt != 0 && match t with | some t => t.toNat != p.fmt | none => false) then formatFault c
    else do
      let img := storeImage f p imm (rowElems p.fmt r)
      checkSwizzle c owner p (img.map Prod.fst)
      let ps := img.map fun x => Place.mem (spadPa (getUnit s owner) x.1)
      seqLocks c ps true
      let s ← get
      let u ← theUnit c
      let ag := seqAgent u c.uid c.q
      match checkMark ag (regionOf s ag) u.ident.key.cont u.ident.key.job (rowByteVa s owner p) true false (placeRuns ps) s with
      | .error r => raiseRace r.vaddr r
      | .ok t => do
        set t
        upd fun s => modSeq s c.uid c.q fun sq => sq.modFl fun fl =>
          { fl with stores := fl.stores ++ [{ bytes := ps.zip (img.map Prod.snd), atom := none, va := rowByteVa s owner p (ps.headD (.mem 0)),
                                              due := 3, push := pushOf s c.uid c.q c.push, rels := [] }] }

/-- The body of a vector store (R198). -/
def vecStore (c : Ctx) (f : VForm) (d : BitVec 5) (a : BitVec 6) (imm : Nat) : M Unit := do
  if c.q = .s then pure () else pendVec c d
  let v ← rs c a
  storeAt c f d imm (rowPtr v)

/-- `VLD`: row n of consecutive elements (R198). -/
def execVld (d : BitVec 5) (a : BitVec 6) (i : BitVec 8) (t : BitVec 2) (s : State) : Host.Outcome State Fault Refusal :=
  issue (.vld d a i t) t true (fun c => vecLoad c .vld d a i.toNat 6) s

/-- `VST`: the inverse of `VLD` (R198). -/
def execVst (d : BitVec 5) (a : BitVec 6) (i : BitVec 8) (t : BitVec 2) (s : State) : Host.Outcome State Fault Refusal :=
  issue (.vst d a i t) t true (fun c => vecStore c .vst d a i.toNat) s

/-- `VLDT`: a transposed load of k strided rows (R198). -/
def execVldt (d : BitVec 5) (a : BitVec 6) (m : BitVec 4) (t : BitVec 2) (s : State) : Host.Outcome State Fault Refusal :=
  issue (.vldt d a m t) t true (fun c => vecLoad c .vldt d a m.toNat 10) s

/-- `VLDG`: elements by index (R198). -/
def execVldg (d : BitVec 5) (a b : BitVec 6) (t : BitVec 2) (s : State) : Host.Outcome State Fault Refusal :=
  issue (.vldg d a b t) t true (fun c => vecLoad c .vldg d a b.toNat 12) s

/-- `VSTS`: k strided rows stored (R198). -/
def execVsts (d : BitVec 5) (a : BitVec 6) (m : BitVec 4) (t : BitVec 2) (s : State) : Host.Outcome State Fault Refusal :=
  issue (.vsts d a m t) t true (fun c => vecStore c .vsts d a m.toNat) s

/-- `VLDB`: p elements repeated (R198). -/
def execVldb (d : BitVec 5) (a : BitVec 6) (m : BitVec 4) (t : BitVec 2) (s : State) : Host.Outcome State Fault Refusal :=
  issue (.vldb d a m t) t true (fun c => vecLoad c .vldb d a m.toNat 6) s

/-- `VLDS`: k strided rows side by side (R198). -/
def execVlds (d : BitVec 5) (a : BitVec 6) (m : BitVec 4) (t : BitVec 2) (s : State) : Host.Outcome State Fault Refusal :=
  issue (.vlds d a m t) t true (fun c => vecLoad c .vlds d a m.toNat 6) s

end Sys2Proof.Machine
end

