-- ==== Sys2Proof/Machine/VecWin.lean ====
section
/-!
DEFINITION. The window, loop and tag instructions of X (R214 to R218).
-/

namespace Sys2Proof.Machine

open Sys2Proof

/-- Whether a window word is legal (R215). -/
def windowLegal (v : Word) : Bool :=
  let k := bits v.toNat 8 5
  let r := bits v.toNat 16 5
  v &&& ~~~(0x1F1FFF#64) == 0 && k ≤ 30 && (if k = 0 then r == 0 else r < k)

/-- `VWIN`: `VWS` from s[ra] (R215). -/
def execVwin (a : BitVec 6) (t : BitVec 2) (s : State) : Host.Outcome State Fault Refusal :=
  issue (.vwin a t) t false (fun c => do
    let v ← rs c a
    if windowLegal v then
      updUnit c fun u => { u with xs := { u.xs with base := v.setWidth 8, k := v.extractLsb' 8 5, rot := v.extractLsb' 16 5 } }
    else formatFault c) s

/-- The stage predicate p(8 + k) of pass j: all ones if k < S, N ≥ 1 and k ≤ j ≤ k + N − 1 (R216). -/
def stagePred (n st j k : Nat) : Mask := if k < st ∧ 1 ≤ n ∧ k ≤ j ∧ j ≤ k + n - 1 then BitVec.allOnes 1024 else 0

/-- The four stage predicates written (R216). -/
def landStage (c : Ctx) (f : Nat → Mask) : M Unit := do
  landPred c.noPush 8 (f 0) 1
  landPred c.noPush 9 (f 1) 1
  landPred c.noPush 10 (f 2) 1
  landPred c.noPush 11 (f 3) 1

/-- `LOOPX` (R216). -/
def execLoopx (a : BitVec 6) (i : BitVec 8) (t : BitVec 2) (s : State) : Host.Outcome State Fault Refusal :=
  issue (.loopx a i t) t false (fun c => do
    let v ← rs c a
    let n := v.toNat
    if 2 ^ 48 ≤ n then formatFault c
    else do
      updUnit c fun u => { u with xs := { u.xs with
        start := (c.pc + 4).setWidth 26, stages := i.setWidth 3, act := true, lpi := 0
        lpn := BitVec.ofNat 64 (if 1 ≤ n then n + i.toNat - 1 else 1) } }
      landStage c (stagePred n i.toNat 0)) s

/-- The rotation after n steps of a window (R216, R217). -/
def rotateBy (x : XState) (n : Nat) : BitVec 5 :=
  let k := x.k.toNat
  if k = 0 then x.rot else BitVec.ofNat 5 ((x.rot.toNat + k - n % k) % k)

/-- `LOOPE` (R216): the next pass, or the end of the loop. -/
def execLoope (t : BitVec 2) (s : State) : Host.Outcome State Fault Refusal :=
  issue (.loope t) t false (fun c => do
    let u ← theUnit c
    let sq ← theSeq c
    let x := u.xs
    let j := x.lpi + 1
    if !x.act then formatFault c
    else if j.toNat < x.lpn.toNat then do
      if codeLegal sq (x.start.setWidth 64) then do
        updUnit c fun u => { u with xs := { u.xs with lpi := j, rot := rotateBy x 1 } }
        landStage c (stagePred (x.lpn.toNat + 1 - x.stages.toNat) x.stages.toNat j.toNat)
        updSeq c fun sq => { sq with pc := x.start.setWidth 64 }
      else raise 1 (x.start.setWidth 64)
    else do
      updUnit c fun u => { u with xs := { u.xs with lpi := j, act := false } }
      landStage c fun _ => 0) s

/-- `VROT` (R217). -/
def execVrot (i : BitVec 8) (t : BitVec 2) (s : State) : Host.Outcome State Fault Refusal :=
  issue (.vrot i t) t false (fun c =>
    updUnit c fun u => { u with xs := { u.xs with rot := rotateBy u.xs i.toNat } }) s

/-- A row retagged: a tag-only result of latency 2 (R218). -/
def landTag (c : Ctx) (d : BitVec 5) (f : BitVec 6) : M Unit := do
  let u ← theUnit c
  let r := vecRow u.xs d.toNat
  rowLock c r
  needGroup c r
  addLanding c { c.entry .tag r 2 0 with tag := f }

/-- `VTAG`: the tag of vd's row := a format code (R218). -/
def execVtag (d : BitVec 5) (f : BitVec 6) (t : BitVec 2) (s : State) : Host.Outcome State Fault Refusal :=
  issue (.vtag d f t) t true (fun c => if fmtValid f.toNat then landTag c d f else formatFault c) s

/-- `VTAGR`: the tag of vd's row := s[ra][5:0] (R218). -/
def execVtagr (d : BitVec 5) (a : BitVec 6) (t : BitVec 2) (s : State) : Host.Outcome State Fault Refusal :=
  issue (.vtagr d a t) t true (fun c => do
    let v ← rs c a
    if v.toNat < 64 ∧ fmtValid v.toNat then landTag c d (v.setWidth 6) else formatFault c) s

end Sys2Proof.Machine
end

