-- ==== Sys2Proof/Machine/Dispatch.lean ====
section
/-!
DEFINITION. The dispatch of every constructor of `Instr` to its meaning, one arm each.
-/

namespace Sys2Proof.Machine

open Sys2Proof

/-- The meaning of an instruction or event at a state. -/
def exec (i : Instr) (s : State) : Host.Outcome State Fault Refusal :=
  match i with
  | .ill d a im t => Sys2Proof.Machine.execIll d a im t s
  | .nop t => Sys2Proof.Machine.execNop t s
  | .halt t => Sys2Proof.Machine.execHalt t s
  | .trap im t => Sys2Proof.Machine.execTrap im t s
  | .rett t => Sys2Proof.Machine.execRett t s
  | .mfs d im t => Sys2Proof.Machine.execMfs d im t s
  | .mts a im t => Sys2Proof.Machine.execMts a im t s
  | .vcyc d t => Sys2Proof.Machine.execVcyc d t s
  | .dbgpend d im t => Sys2Proof.Machine.execDbgpend d im t s
  | .bkpt im t => Sys2Proof.Machine.execBkpt im t s
  | .wfe t => Sys2Proof.Machine.execWfe t s
  | .sev im t => Sys2Proof.Machine.execSev im t s
  | .tkcfg im t => Sys2Proof.Machine.execTkcfg im t s
  | .ident d im t => Sys2Proof.Machine.execIdent d im t s
  | .pace a im t => Sys2Proof.Machine.execPace a im t s
  | .enrd d im t => Sys2Proof.Machine.execEnrd d im t s
  | .gceil d t => Sys2Proof.Machine.execGceil d t s
  | .add d a b t => Sys2Proof.Machine.execAdd d a b t s
  | .sub d a b t => Sys2Proof.Machine.execSub d a b t s
  | .and d a b t => Sys2Proof.Machine.execAnd d a b t s
  | .or d a b t => Sys2Proof.Machine.execOr d a b t s
  | .xor d a b t => Sys2Proof.Machine.execXor d a b t s
  | .andn d a b t => Sys2Proof.Machine.execAndn d a b t s
  | .sll d a b t => Sys2Proof.Machine.execSll d a b t s
  | .srl d a b t => Sys2Proof.Machine.execSrl d a b t s
  | .sra d a b t => Sys2Proof.Machine.execSra d a b t s
  | .rol d a b t => Sys2Proof.Machine.execRol d a b t s
  | .slt d a b t => Sys2Proof.Machine.execSlt d a b t s
  | .sltu d a b t => Sys2Proof.Machine.execSltu d a b t s
  | .min d a b t => Sys2Proof.Machine.execMin d a b t s
  | .max d a b t => Sys2Proof.Machine.execMax d a b t s
  | .minu d a b t => Sys2Proof.Machine.execMinu d a b t s
  | .maxu d a b t => Sys2Proof.Machine.execMaxu d a b t s
  | .mul d a b t => Sys2Proof.Machine.execMul d a b t s
  | .mulh d a b t => Sys2Proof.Machine.execMulh d a b t s
  | .mulhu d a b t => Sys2Proof.Machine.execMulhu d a b t s
  | .div d a b t => Sys2Proof.Machine.execDiv d a b t s
  | .divu d a b t => Sys2Proof.Machine.execDivu d a b t s
  | .rem d a b t => Sys2Proof.Machine.execRem d a b t s
  | .remu d a b t => Sys2Proof.Machine.execRemu d a b t s
  | .clz d a t => Sys2Proof.Machine.execClz d a t s
  | .ctz d a t => Sys2Proof.Machine.execCtz d a t s
  | .popc d a t => Sys2Proof.Machine.execPopc d a t s
  | .sext d a b t => Sys2Proof.Machine.execSext d a b t s
  | .zext d a b t => Sys2Proof.Machine.execZext d a b t s
  | .addw d a b t => Sys2Proof.Machine.execAddw d a b t s
  | .subw d a b t => Sys2Proof.Machine.execSubw d a b t s
  | .mulw d a b t => Sys2Proof.Machine.execMulw d a b t s
  | .addi d a im t => Sys2Proof.Machine.execAddi d a im t s
  | .andi d a im t => Sys2Proof.Machine.execAndi d a im t s
  | .ori d a im t => Sys2Proof.Machine.execOri d a im t s
  | .xori d a im t => Sys2Proof.Machine.execXori d a im t s
  | .slti d a im t => Sys2Proof.Machine.execSlti d a im t s
  | .slli d a im t => Sys2Proof.Machine.execSlli d a im t s
  | .srli d a im t => Sys2Proof.Machine.execSrli d a im t s
  | .srai d a im t => Sys2Proof.Machine.execSrai d a im t s
  | .movhi d im t => Sys2Proof.Machine.execMovhi d im t s
  | .ld d a o z t => Sys2Proof.Machine.execLd d a o z t s
  | .lds d a o z t => Sys2Proof.Machine.execLds d a o z t s
  | .st d a o z t => Sys2Proof.Machine.execSt d a o z t s
  | .beqz a o t => Sys2Proof.Machine.execBeqz a o t s
  | .bnez a o t => Sys2Proof.Machine.execBnez a o t s
  | .bltz a o t => Sys2Proof.Machine.execBltz a o t s
  | .bgez a o t => Sys2Proof.Machine.execBgez a o t s
  | .bgtz a o t => Sys2Proof.Machine.execBgtz a o t s
  | .blez a o t => Sys2Proof.Machine.execBlez a o t s
  | .bp a o t => Sys2Proof.Machine.execBp a o t s
  | .bnp a o t => Sys2Proof.Machine.execBnp a o t s
  | .bq o t => Sys2Proof.Machine.execBq o t s
  | .bnq o t => Sys2Proof.Machine.execBnq o t s
  | .jmp o t => Sys2Proof.Machine.execJmp o t s
  | .call o t => Sys2Proof.Machine.execCall o t s
  | .jr d a im t => Sys2Proof.Machine.execJr d a im t s
  | .callr d a im t => Sys2Proof.Machine.execCallr d a im t s
  | .tkpush q t => Sys2Proof.Machine.execTkpush q t s
  | .tkpop q t => Sys2Proof.Machine.execTkpop q t s
  | .tkcnt d q t => Sys2Proof.Machine.execTkcnt d q t s
  | .qpeek d q t => Sys2Proof.Machine.execQpeek d q t s
  | .qcnt d q t => Sys2Proof.Machine.execQcnt d q t s
  | .qsquash q t => Sys2Proof.Machine.execQsquash q t s
  | .qfmt a q t => Sys2Proof.Machine.execQfmt a q t s
  | .qsel q t => Sys2Proof.Machine.execQsel q t s
  | .bqpush a t => Sys2Proof.Machine.execBqpush a t s
  | .qwait q t => Sys2Proof.Machine.execQwait q t s
  | .epop d q t => Sys2Proof.Machine.execEpop d q t s
  | .hmov d a t => Sys2Proof.Machine.execHmov d a t s
  | .hld d r t => Sys2Proof.Machine.execHld d r t s
  | .hst a r t => Sys2Proof.Machine.execHst a r t s
  | .hsetb d a r t => Sys2Proof.Machine.execHsetb d a r t s
  | .hsetd d a k r t => Sys2Proof.Machine.execHsetd d a k r t s
  | .hsets d a k r t => Sys2Proof.Machine.execHsets d a k r t s
  | .hsetf d a r t => Sys2Proof.Machine.execHsetf d a r t s
  | .hgetb a r t => Sys2Proof.Machine.execHgetb a r t s
  | .hgetd a k r t => Sys2Proof.Machine.execHgetd a k r t s
  | .hoff d a k r t => Sys2Proof.Machine.execHoff d a k r t s
  | .hsub d a r t => Sys2Proof.Machine.execHsub d a r t s
  | .hchk a r t => Sys2Proof.Machine.execHchk a r t s
  | .hclr d t => Sys2Proof.Machine.execHclr d t s
  | .ctld h a b l t => Sys2Proof.Machine.execCtld h a b l t s
  | .ctst h a b l t => Sys2Proof.Machine.execCtst h a b l t s
  | .ccpy h a b l t => Sys2Proof.Machine.execCcpy h a b l t s
  | .cfill h a b l t => Sys2Proof.Machine.execCfill h a b l t s
  | .cpfx h a b l t => Sys2Proof.Machine.execCpfx h a b l t s
  | .cxfr a b l t => Sys2Proof.Machine.execCxfr a b l t s
  | .gath h a b t => Sys2Proof.Machine.execGath h a b t s
  | .scat h a b t => Sys2Proof.Machine.execScat h a b t s
  | .gathp h a b t => Sys2Proof.Machine.execGathp h a b t s
  | .scata h a b t => Sys2Proof.Machine.execScata h a b t s
  | .xallr h a b t => Sys2Proof.Machine.execXallr h a b t s
  | .xrds h a b t => Sys2Proof.Machine.execXrds h a b t s
  | .xallg h a b t => Sys2Proof.Machine.execXallg h a b t s
  | .xsend h a b t => Sys2Proof.Machine.execXsend h a b t s
  | .xrecv h a b t => Sys2Proof.Machine.execXrecv h a b t s
  | .xexch h a b t => Sys2Proof.Machine.execXexch h a b t s
  | .ald d a o sc z => Sys2Proof.Machine.execAld d a o sc z s
  | .ast a b o sc z => Sys2Proof.Machine.execAst a b o sc z s
  | .aswp d a b o sc z => Sys2Proof.Machine.execAswp d a b o sc z s
  | .acas d a b o sc z => Sys2Proof.Machine.execAcas d a b o sc z s
  | .aadd d a b o sc z => Sys2Proof.Machine.execAadd d a b o sc z s
  | .aand d a b o sc z => Sys2Proof.Machine.execAand d a b o sc z s
  | .aor d a b o sc z => Sys2Proof.Machine.execAor d a b o sc z s
  | .axor d a b o sc z => Sys2Proof.Machine.execAxor d a b o sc z s
  | .amin d a b o sc z => Sys2Proof.Machine.execAmin d a b o sc z s
  | .amax d a b o sc z => Sys2Proof.Machine.execAmax d a b o sc z s
  | .aminu d a b o sc z => Sys2Proof.Machine.execAminu d a b o sc z s
  | .amaxu d a b o sc z => Sys2Proof.Machine.execAmaxu d a b o sc z s
  | .afadd d a b o sc => Sys2Proof.Machine.execAfadd d a b o sc s
  | .sigdec d a b o sc => Sys2Proof.Machine.execSigdec d a b o sc s
  | .sigadd d a b o sc => Sys2Proof.Machine.execSigadd d a b o sc s
  | .fence sc o t => Sys2Proof.Machine.execFence sc o t s
  | .fencee sc o m t => Sys2Proof.Machine.execFencee sc o m t s
  | .ssync t => Sys2Proof.Machine.execSsync t s
  | .cbar t => Sys2Proof.Machine.execCbar t s
  | .waitv sc o a c t => Sys2Proof.Machine.execWaitv sc o a c t s
  | .ckopen d a t => Sys2Proof.Machine.execCkopen d a t s
  | .ckopenGrow d a t => Sys2Proof.Machine.execCkopenGrow d a t s
  | .ckseal d a t => Sys2Proof.Machine.execCkseal d a t s
  | .ckblnd d a b t => Sys2Proof.Machine.execCkblnd d a b t s
  | .ckfilt d a r t => Sys2Proof.Machine.execCkfilt d a r t s
  | .ckrebs d a r t => Sys2Proof.Machine.execCkrebs d a r t s
  | .ckpour a r t => Sys2Proof.Machine.execCkpour a r t s
  | .ckdrop a t => Sys2Proof.Machine.execCkdrop a t s
  | .ckinfo a k r t => Sys2Proof.Machine.execCkinfo a k r t s
  | .ckabort a t => Sys2Proof.Machine.execCkabort a t s
  | .glaunch d a t => Sys2Proof.Machine.execGlaunch d a t s
  | .gwait d a im t => Sys2Proof.Machine.execGwait d a im t s
  | .gcancel d a im t => Sys2Proof.Machine.execGcancel d a im t s
  | .gcnt d a im t => Sys2Proof.Machine.execGcnt d a im t s
  | .yield t => Sys2Proof.Machine.execYield t s
  | .uexit t => Sys2Proof.Machine.execUexit t s
  | .priset d a t => Sys2Proof.Machine.execPriset d a t s
  | .pset d a im t => Sys2Proof.Machine.execPset d a im t s
  | .pand d a im t => Sys2Proof.Machine.execPand d a im t s
  | .por d a im t => Sys2Proof.Machine.execPor d a im t s
  | .pxor d a im t => Sys2Proof.Machine.execPxor d a im t s
  | .pnot d a t => Sys2Proof.Machine.execPnot d a t s
  | .pmov d a t => Sys2Proof.Machine.execPmov d a t s
  | .ptos d a im t => Sys2Proof.Machine.execPtos d a im t s
  | .pall d a im t => Sys2Proof.Machine.execPall d a im t s
  | .pany d a im t => Sys2Proof.Machine.execPany d a im t s
  | .vwin a t => Sys2Proof.Machine.execVwin a t s
  | .loopx a im t => Sys2Proof.Machine.execLoopx a im t s
  | .loope t => Sys2Proof.Machine.execLoope t s
  | .vrot im t => Sys2Proof.Machine.execVrot im t s
  | .vtag d f t => Sys2Proof.Machine.execVtag d f t s
  | .vtagr d a t => Sys2Proof.Machine.execVtagr d a t s
  | .vld d a im t => Sys2Proof.Machine.execVld d a im t s
  | .vst d a im t => Sys2Proof.Machine.execVst d a im t s
  | .vldt d a m t => Sys2Proof.Machine.execVldt d a m t s
  | .vldg d a b t => Sys2Proof.Machine.execVldg d a b t s
  | .vsts d a m t => Sys2Proof.Machine.execVsts d a m t s
  | .vldb d a m t => Sys2Proof.Machine.execVldb d a m t s
  | .vlds d a m t => Sys2Proof.Machine.execVlds d a m t s
  | .plse t => Sys2Proof.Machine.execPlse t s
  | .prel t => Sys2Proof.Machine.execPrel t s
  | .pwld h a t => Sys2Proof.Machine.execPwld h a t s
  | .pmul h a b t => Sys2Proof.Machine.execPmul h a b t s
  | .pmulz h a b t => Sys2Proof.Machine.execPmulz h a b t s
  | .pdrn c h a t => Sys2Proof.Machine.execPdrn c h a t s
  | .pstat a t => Sys2Proof.Machine.execPstat a t s
  | .rwsmx c h a b l t => Sys2Proof.Machine.execRwsmx c h a b l t s
  | .rwmax c h a b l t => Sys2Proof.Machine.execRwmax c h a b l t s
  | .rwexps c h a b l t => Sys2Proof.Machine.execRwexps c h a b l t s
  | .rwscl c h a b l t => Sys2Proof.Machine.execRwscl c h a b l t s
  | .rwrms c h a b l t => Sys2Proof.Machine.execRwrms c h a b l t s
  | .rwlnrm c h a b l t => Sys2Proof.Machine.execRwlnrm c h a b l t s
  | .vadd d a b p t => Sys2Proof.Machine.execVadd d a b p t s
  | .vsub d a b p t => Sys2Proof.Machine.execVsub d a b p t s
  | .vmul d a b p t => Sys2Proof.Machine.execVmul d a b p t s
  | .vfma d a b p t => Sys2Proof.Machine.execVfma d a b p t s
  | .vfms d a b p t => Sys2Proof.Machine.execVfms d a b p t s
  | .vmin d a b p t => Sys2Proof.Machine.execVmin d a b p t s
  | .vmax d a b p t => Sys2Proof.Machine.execVmax d a b p t s
  | .vabs d a p t => Sys2Proof.Machine.execVabs d a p t s
  | .vneg d a p t => Sys2Proof.Machine.execVneg d a p t s
  | .vand d a b p t => Sys2Proof.Machine.execVand d a b p t s
  | .vor d a b p t => Sys2Proof.Machine.execVor d a b p t s
  | .vxor d a b p t => Sys2Proof.Machine.execVxor d a b p t s
  | .vsll d a b p t => Sys2Proof.Machine.execVsll d a b p t s
  | .vsrl d a b p t => Sys2Proof.Machine.execVsrl d a b p t s
  | .vsra d a b p t => Sys2Proof.Machine.execVsra d a b p t s
  | .vcmpeq d a b p t => Sys2Proof.Machine.execVcmpeq d a b p t s
  | .vcmplt d a b p t => Sys2Proof.Machine.execVcmplt d a b p t s
  | .vcmple d a b p t => Sys2Proof.Machine.execVcmple d a b p t s
  | .vsel d a b p t => Sys2Proof.Machine.execVsel d a b p t s
  | .vmov d a p t => Sys2Proof.Machine.execVmov d a p t s
  | .vsat d a b p t => Sys2Proof.Machine.execVsat d a b p t s
  | .vaddsat d a b p t => Sys2Proof.Machine.execVaddsat d a b p t s
  | .vrcp d a p t => Sys2Proof.Machine.execVrcp d a p t s
  | .vsqrt d a p t => Sys2Proof.Machine.execVsqrt d a p t s
  | .vrsqrt d a p t => Sys2Proof.Machine.execVrsqrt d a p t s
  | .vexp2 d a p t => Sys2Proof.Machine.execVexp2 d a p t s
  | .vlog2 d a p t => Sys2Proof.Machine.execVlog2 d a p t s
  | .vexp d a p t => Sys2Proof.Machine.execVexp d a p t s
  | .vtanh d a p t => Sys2Proof.Machine.execVtanh d a p t s
  | .vsigm d a p t => Sys2Proof.Machine.execVsigm d a p t s
  | .vgelu d a p t => Sys2Proof.Machine.execVgelu d a p t s
  | .vsilu d a p t => Sys2Proof.Machine.execVsilu d a p t s
  | .vcvt d a g p t => Sys2Proof.Machine.execVcvt d a g p t s
  | .vcvtr d a m g p t => Sys2Proof.Machine.execVcvtr d a m g p t s
  | .vqmx d a b g t => Sys2Proof.Machine.execVqmx d a b g t s
  | .vdqmx d a b g t => Sys2Proof.Machine.execVdqmx d a b g t s
  | .vperm d a b p t => Sys2Proof.Machine.execVperm d a b p t s
  | .vshuf d a b p t => Sys2Proof.Machine.execVshuf d a b p t s
  | .vslide d a b p t => Sys2Proof.Machine.execVslide d a b p t s
  | .vbcst d a b p t => Sys2Proof.Machine.execVbcst d a b p t s
  | .vins d a b t => Sys2Proof.Machine.execVins d a b t s
  | .vext d a b t => Sys2Proof.Machine.execVext d a b t s
  | .vcmpct a p t => Sys2Proof.Machine.execVcmpct a p t s
  | .vcpop d p t => Sys2Proof.Machine.execVcpop d p t s
  | .vcflush d p t => Sys2Proof.Machine.execVcflush d p t s
  | .vrsum d a p t => Sys2Proof.Machine.execVrsum d a p t s
  | .vrmax d a p t => Sys2Proof.Machine.execVrmax d a p t s
  | .vrmin d a p t => Sys2Proof.Machine.execVrmin d a p t s
  | .vrand d a p t => Sys2Proof.Machine.execVrand d a p t s
  | .vror d a p t => Sys2Proof.Machine.execVror d a p t s
  | .vdot d a b p t => Sys2Proof.Machine.execVdot d a b p t s
  | .vscan d a p t => Sys2Proof.Machine.execVscan d a p t s
  | .vpcnt d a p t => Sys2Proof.Machine.execVpcnt d a p t s
  | .cbind sc p d => Sys2Proof.Machine.execCbind sc p d s
  | .cstart r sc p d => Sys2Proof.Machine.execCstart r sc p d s
  | .cjoin sc p d => Sys2Proof.Machine.execCjoin sc p d s
  | .cquery sc p d => Sys2Proof.Machine.execCquery sc p d s
  | .cfence p d => Sys2Proof.Machine.execCfence p d s
  | .cpark p d => Sys2Proof.Machine.execCpark p d s
  | .ccancel r sc p d => Sys2Proof.Machine.execCcancel r sc p d s
  | .cfree p d => Sys2Proof.Machine.execCfree p d s
  | .csignal r sc p d => Sys2Proof.Machine.execCsignal r sc p d s
  | .cvers sc p d => Sys2Proof.Machine.execCvers sc p d s
  | .cfault r sc p d => Sys2Proof.Machine.execCfault r sc p d s
  | .hostFormInterrupt hart => Sys2Proof.Machine.execHostFormInterrupt hart s
  | .blockingFormReturn hart => Sys2Proof.Machine.execBlockingFormReturn hart s
  | .cpsave hart addr => Sys2Proof.Machine.execCpsave hart addr s
  | .cpload hart addr => Sys2Proof.Machine.execCpload hart addr s
  | .cpattn hart rd => Sys2Proof.Machine.execCpattn hart rd s
  | .registerWrite reg v => Sys2Proof.Machine.execRegisterWrite reg v s
  | .resultLand u q => Sys2Proof.Machine.execResultLand u q s
  | .dqoutForward u q => Sys2Proof.Machine.execDqoutForward u q s
  | .loadMissReturn u q => Sys2Proof.Machine.execLoadMissReturn u q s
  | .storePerformed u q => Sys2Proof.Machine.execStorePerformed u q s
  | .atomicPerformed u q => Sys2Proof.Machine.execAtomicPerformed u q s
  | .barrierDepart u cluster late => Sys2Proof.Machine.execBarrierDepart u cluster late s
  | .waitvRecheck u q => Sys2Proof.Machine.execWaitvRecheck u q s
  | .rettReturn u q => Sys2Proof.Machine.execRettReturn u q s
  | .sequencerExit u q => Sys2Proof.Machine.execSequencerExit u q s
  | .engineCommandStart core eng => Sys2Proof.Machine.execEngineCommandStart core eng s
  | .engineCommandComplete core eng => Sys2Proof.Machine.execEngineCommandComplete core eng s
  | .engineCommandFail core eng => Sys2Proof.Machine.execEngineCommandFail core eng s
  | .relocationTake core eng u q => Sys2Proof.Machine.execRelocationTake core eng u q s
  | .engineFaultWaitResume core eng => Sys2Proof.Machine.execEngineFaultWaitResume core eng s
  | .pressArbitrate cl => Sys2Proof.Machine.execPressArbitrate cl s
  | .pressReloadComplete cl => Sys2Proof.Machine.execPressReloadComplete cl s
  | .pressCommandStart cl => Sys2Proof.Machine.execPressCommandStart cl s
  | .pressCommandComplete cl => Sys2Proof.Machine.execPressCommandComplete cl s
  | .pressGrantCyclesExpire cl => Sys2Proof.Machine.execPressGrantCyclesExpire cl s
  | .collectiveContribution die c => Sys2Proof.Machine.execCollectiveContribution die c s
  | .collectiveCommit die idx late => Sys2Proof.Machine.execCollectiveCommit die idx late s
  | .collectiveTimeout die idx => Sys2Proof.Machine.execCollectiveTimeout die idx s
  | .walkComplete die idx => Sys2Proof.Machine.execWalkComplete die idx s
  | .fqtailWrite die v => Sys2Proof.Machine.execFqtailWrite die v s
  | .fqcfgWrite die v => Sys2Proof.Machine.execFqcfgWrite die v s
  | .fqrplRetry die w => Sys2Proof.Machine.execFqrplRetry die w s
  | .fqrplReject die w => Sys2Proof.Machine.execFqrplReject die w s
  | .fqrplTerminate die w => Sys2Proof.Machine.execFqrplTerminate die w s
  | .sfenceVma hart va space => Sys2Proof.Machine.execSfenceVma hart va space s
  | .leesSpill agent n => Sys2Proof.Machine.execLeesSpill agent n s
  | .stageFlush u level => Sys2Proof.Machine.execStageFlush u level s
  | .hartDeviceRace hart va write => Sys2Proof.Machine.execHartDeviceRace hart va write s
  | .schedTick now => Sys2Proof.Machine.execSchedTick now s
  | .park u => Sys2Proof.Machine.execPark u s
  | .unpark u places => Sys2Proof.Machine.execUnpark u places s
  | .launchPlace k places params => Sys2Proof.Machine.execLaunchPlace k places params s
  | .nodeComplete k => Sys2Proof.Machine.execNodeComplete k s
  | .waitEvaluate k => Sys2Proof.Machine.execWaitEvaluate k s
  | .signalNode k => Sys2Proof.Machine.execSignalNode k s
  | .copyNodeComplete k => Sys2Proof.Machine.execCopyNodeComplete k s
  | .phasePeriodTimer cont job now => Sys2Proof.Machine.execPhasePeriodTimer cont job now s
  | .agingExpire k now => Sys2Proof.Machine.execAgingExpire k now s
  | .energyEstimateTick now => Sys2Proof.Machine.execEnergyEstimateTick now s
  | .refillBoundary cont now => Sys2Proof.Machine.execRefillBoundary cont now s
  | .arbiterPeriod now => Sys2Proof.Machine.execArbiterPeriod now s
  | .biasMoveComplete cl => Sys2Proof.Machine.execBiasMoveComplete cl s
  | .thermalHeadroomLost cl => Sys2Proof.Machine.execThermalHeadroomLost cl s
  | .thermalHeadroomRegained cl => Sys2Proof.Machine.execThermalHeadroomRegained cl s
  | .thermalStepDown cl => Sys2Proof.Machine.execThermalStepDown cl s
  | .ballastStart die => Sys2Proof.Machine.execBallastStart die s
  | .ballastShed die => Sys2Proof.Machine.execBallastShed die s
  | .trip die limit now => Sys2Proof.Machine.execTrip die limit now s
  | .breachReceive member limit now => Sys2Proof.Machine.execBreachReceive member limit now s
  | .ceilingStamp now => Sys2Proof.Machine.execCeilingStamp now s
  | .heartbeatSend now => Sys2Proof.Machine.execHeartbeatSend now s
  | .heartbeatReceive hb now => Sys2Proof.Machine.execHeartbeatReceive hb now s
  | .heartbeatMiss member now => Sys2Proof.Machine.execHeartbeatMiss member now s
  | .memberEvict member now => Sys2Proof.Machine.execMemberEvict member now s
  | .leaveComplete now => Sys2Proof.Machine.execLeaveComplete now s
  | .groupLinkUp index peers version => Sys2Proof.Machine.execGroupLinkUp index peers version s
  | .groupVersionChange version now => Sys2Proof.Machine.execGroupVersionChange version now s
  | .linkBringup port lo hi => Sys2Proof.Machine.execLinkBringup port lo hi s
  | .flitReceive port flit => Sys2Proof.Machine.execFlitReceive port flit s
  | .pauseReceive port cls => Sys2Proof.Machine.execPauseReceive port cls s
  | .resumeReceive port cls => Sys2Proof.Machine.execResumeReceive port cls s
  | .admissionWindow port now => Sys2Proof.Machine.execAdmissionWindow port now s
  | .moduleReset => Sys2Proof.Machine.execModuleReset s
  | .watchdogExpire => Sys2Proof.Machine.execWatchdogExpire s
  | .getver major => Sys2Proof.Machine.execGetver major s
  | .slotwr piece => Sys2Proof.Machine.execSlotwr piece s
  | .slotact => Sys2Proof.Machine.execSlotact s
  | .confirm atDeadline => Sys2Proof.Machine.execConfirm atDeadline s
  | .wdset seconds => Sys2Proof.Machine.execWdset seconds s
  | .mext reg digest => Sys2Proof.Machine.execMext reg digest s
  | .leescfg base size max => Sys2Proof.Machine.execLeescfg base size max s
  | .schcfg base size => Sys2Proof.Machine.execSchcfg base size s
  | .enset cont setting => Sys2Proof.Machine.execEnset cont setting s
  | .capset cap floors => Sys2Proof.Machine.execCapset cap floors s
  | .pwrstat clear => Sys2Proof.Machine.execPwrstat clear s
  | .qset q => Sys2Proof.Machine.execQset q s
  | .layset cls params => Sys2Proof.Machine.execLayset cls params s
  | .csetprog set ranks stamp => Sys2Proof.Machine.execCsetprog set ranks stamp s
  | .partcfg part clusters => Sys2Proof.Machine.execPartcfg part clusters s
  | .getVersion via => Sys2Proof.Machine.execGetVersion via s
  | .getCapabilities via => Sys2Proof.Machine.execGetCapabilities via s
  | .negotiateAlgorithms via => Sys2Proof.Machine.execNegotiateAlgorithms via s
  | .getDigests via => Sys2Proof.Machine.execGetDigests via s
  | .getCertificate via => Sys2Proof.Machine.execGetCertificate via s
  | .challenge via => Sys2Proof.Machine.execChallenge via s
  | .getMeasurements via block => Sys2Proof.Machine.execGetMeasurements via block s
  | .keyExchange via part => Sys2Proof.Machine.execKeyExchange via part s
  | .finish via => Sys2Proof.Machine.execFinish via s
  | .endSession via => Sys2Proof.Machine.execEndSession via s
  | .tdispLock part => Sys2Proof.Machine.execTdispLock part s
  | .tdispLeaveRun part => Sys2Proof.Machine.execTdispLeaveRun part s
  | .spdmSessionExpire part => Sys2Proof.Machine.execSpdmSessionExpire part s
  | .tdispUnlock part => Sys2Proof.Machine.execTdispUnlock part s
  | .hartAccess hart acc => Sys2Proof.Machine.execHartAccess hart acc s
  | .externalHostAccess acc => Sys2Proof.Machine.execExternalHostAccess acc s
  | .tdispRun part => Sys2Proof.Machine.execTdispRun part s

end Sys2Proof.Machine
end

