-- ==== Sys2Proof/Machine/Turns.lean ====
section
/-!
DEFINITION. The turns of the machine: a sequencer's issue, a hart's host form, an event that the outside gives, and the moves that the machine makes of
itself, of which a free choice takes one (log 2).
-/

namespace Sys2Proof.Machine

open Sys2Proof

/-! ## Turns that the outside gives -/

/-- The state with the sequencer that acts. -/
def actAs (s : State) (uid : Nat) (q : Seq) : State := { s with cur := { s.cur with uid := uid, q := q } }

/-- A turn whose word has been fetched: the request of the fetch is charged (R400), once for a word that waits otherwise than for its fetch. -/
def fetched (s : State) (uid : Nat) (q : Seq) (ps : List Place) : Host.Outcome State Fault Refusal → Host.Outcome State Fault Refusal
  | .next t =>
    .next (match (getSeq s uid q).fl.frozen with
      | none => meterPlaces t (seqAgent (getUnit s uid) uid q) ps
      | some (.walk _ _ .fetch) => meterPlaces t (seqAgent (getUnit s uid) uid q) ps
      | some (.budget k _) => if ps.any fun p => placeController p == some k then meterPlaces t (seqAgent (getUnit s uid) uid q) ps else t
      | _ => t)
  | o => o

/-- The turn of a sequencer: a fault that waits for its boundary, else the word at its pc, decoded for it and executed (R81). -/
def issueTurn (s : State) (uid : Nat) (q : Seq) : Host.Outcome State Fault Refusal :=
  if !(canIssue s uid q) then .next s
  else
    match dueFault (getSeq s uid q) with
    | some f => .next (boundaryFault s uid q f)
    | none =>
      match fetch s uid q with
      | .stop k => afterPushes s uid q fun s => .next (k s)
      | .word w ps => fetched s uid q ps (match decode q w with
        | none => afterPushes s uid q fun s => .next (takeTrap s uid q 1 (w.setWidth 64) w false none)
        | some i => exec i (actAs s uid q))

/-- The meaning of a host form (R85). -/
def execHostForm (f : HostForm) (s : State) : Host.Outcome State Fault Refusal :=
  match f with
  | .cbind a p d => execCbind a p d s
  | .cstart r a p d => execCstart r a p d s
  | .cjoin a p d => execCjoin a p d s
  | .cquery a p d => execCquery a p d s
  | .cfence p d => execCfence p d s
  | .cpark p d => execCpark p d s
  | .ccancel r a p d => execCcancel r a p d s
  | .cfree p d => execCfree p d s
  | .csignal r a p d => execCsignal r a p d s
  | .cvers a p d => execCvers a p d s
  | .cfault r a p d => execCfault r a p d s

/-- A hart meets a word of the custom-0 space (R85, R86): a form runs; any other such word is an illegal instruction. Words of the base instruction set are
outside the manual, and nothing happens. -/
def hostTurn (s : State) (hart : Nat) (w : IWord) : Host.Outcome State Fault Refusal :=
  match decodeHostForm w with
  | some f => execHostForm f { s with cur := { s.cur with hart := hart } }
  | none =>
    if w.extractLsb' 0 7 = 0x0B ∧ (getHart s hart).waiting.isNone then .next (hartException s hart 2 (w.setWidth 64))
    else .next s

/-- The events that come about while nothing but the vintner runs (R436, R440, R442); the others need the module out of reset. -/
def earlyEvent : Instr → Bool
  | .moduleReset => true
  | .getver _ => true
  | .slotwr _ => true
  | .slotact => true
  | .confirm _ => true
  | .wdset _ => true
  | .mext .. => true
  | .leescfg .. => true
  | .schcfg .. => true
  | .enset .. => true
  | .capset .. => true
  | .pwrstat _ => true
  | .qset _ => true
  | .layset .. => true
  | .csetprog .. => true
  | .partcfg .. => true
  | _ => false

/-- A turn that the outside gives. Before boot only the early events come about: the compute dies and the Rilow complex are held in reset (R436). A hart or an
event of a part that the module does not have is none (R13). -/
def runTurn (s : State) (t : Turn) : Host.Outcome State Fault Refusal :=
  let up := s.boot.stage == .running
  match t with
  | .issue uid q => if up then issueTurn s uid q else .next s
  | .hostWord hart w => if up && hart < 128 then hostTurn s hart w else .next s
  | .event e => if (up || earlyEvent e) && e.fieldsLegal then exec e s else .next s

/-! ## Moves of the machine's own -/

/-- What the machine may do of itself. -/
inductive Move where
  | issue (uid : Nat) (q : Seq)
  | land (uid : Nat) (q : Seq)
  | forward (uid : Nat) (q : Seq)
  | store (uid : Nat) (q : Seq)
  | rett (uid : Nat) (q : Seq)
  | exit (uid : Nat) (q : Seq)
  | recheck (uid : Nat) (q : Seq)
  | depart (uid : Nat) (cluster : Bool)
  | flush (uid level : Nat)
  | start (core : Nat) (e : Eng)
  | complete (core : Nat) (e : Eng)
  | fail (core : Nat) (e : Eng)
  | resume (core : Nat) (e : Eng)
  | relocate (core : Nat) (e : Eng) (uid : Nat) (q : Seq)
  | arbitrate (cl : Nat)
  | reload (cl : Nat)
  | pressStart (cl : Nat)
  | pressComplete (cl : Nat)
  | walk (die idx : Nat)
  | commit (die idx : Nat)
  | node (k : NodeKey)
  | signal (k : NodeKey)
  | copy (k : NodeKey)
  | park (k : NodeKey)
  | form (hart : Nat)
  | drain (port : Nat)
  | serve (a : QueuedAsk)
  | ring (die : Nat)
  | endCopy (k : NodeKey)
  deriving DecidableEq, Repr

/-- A request in a controller's queue is taken up when the controller serves it (R401); one that nobody makes any more leaves the queue. -/
def serveQueued (s : State) (a : QueuedAsk) : Host.Outcome State Fault Refusal :=
  if !(askerLives s a.who) then .next (leaveQueue s a.who)
  else if mustQueue s a.controller false a.ticket then .next s
  else match a.who with
    | .node k => .next (match (findJob s k.cont k.job).bind (·.phase) with
      | some _ => goOn s k
      | none => pokeJob s k.cont k.job)
    | .flush uid level => execStageFlush uid level s
    | .context k => .next (contextAgain s k)
    | _ => serveAsk s a fun hart w s => hostTurn s hart w

/-- A move made: the meaning of the event that it is. -/
def runMove (s : State) : Move → Host.Outcome State Fault Refusal
  | .issue uid q => issueTurn s uid q
  | .land uid q => execResultLand uid q s
  | .forward uid q => execDqoutForward uid q s
  | .store uid q => execStorePerformed uid q s
  | .rett uid q => execRettReturn uid q s
  | .exit uid q => execSequencerExit uid q s
  | .recheck uid q => execWaitvRecheck uid q s
  | .depart uid cluster => execBarrierDepart uid cluster [] s
  | .flush uid level => execStageFlush uid level s
  | .start core e => execEngineCommandStart core e s
  | .complete core e => execEngineCommandComplete core e s
  | .fail core e => execEngineCommandFail core e s
  | .resume core e => execEngineFaultWaitResume core e s
  | .relocate core e uid q => execRelocationTake core e uid q s
  | .arbitrate cl => execPressArbitrate cl s
  | .reload cl => execPressReloadComplete cl s
  | .pressStart cl => execPressCommandStart cl s
  | .pressComplete cl => execPressCommandComplete cl s
  | .walk die idx => execWalkComplete die idx s
  | .commit die idx => execCollectiveCommit die idx false s
  | .node k => execNodeComplete k s
  | .signal k => execSignalNode k s
  | .copy k => execCopyNodeComplete k s
  | .park k => .next (parkAsked s k)
  | .form hart => execBlockingFormReturn hart s
  | .drain port => .next (drainAt s port)
  | .serve a => serveQueued s a
  | .ring die => .next (settle s die)
  | .endCopy k => .next (endCopy s k)

/-- What a sequencer may do. -/
def seqMoves (s : State) (uid : Nat) (q : Seq) : List Move :=
  let c := getSeq s uid q
  (if canIssue s uid q then [.issue uid q] else []) ++
    (match c.status with
      | .halting => [.land uid q, .exit uid q]
      | .returning _ => [.land uid q, .rett uid q]
      | _ => []) ++
    (if c.dq.dqout.isEmpty then [] else [.forward uid q]) ++
    (if c.fl.stores.isEmpty then [] else [.store uid q]) ++
    (match c.fl.frozen with
      | some (.watch _) => [.recheck uid q]
      | _ => [])

/-- The engines of a core whose events are moves. -/
def coreEngines : List Eng := [.copy, .gather, .coll, .row]

/-- What a unit and the engines that serve it may do. -/
def unitMoves (s : State) (uid : Nat) : List Move :=
  let u := getUnit s uid
  if !u.alive then []
  else
    allSeqs.flatMap (seqMoves s uid) ++ [.depart uid false, .depart uid true] ++
      ((List.range u.levels.length).map fun i => .flush uid i) ++
      if !u.place.resident then []
      else
        (allSeqs.flatMap fun q => [Eng.copy, .row].flatMap fun e => (List.range 4).map fun k =>
          Move.relocate (u.place.core / 4 * 4 + k) e uid q) ++
          [.pressStart (u.place.core / 4), .arbitrate (u.place.core / 4), .reload (u.place.core / 4)]

/-- What a core's engines may do. -/
def coreMoves (core : Nat) : List Move :=
  (coreEngines.flatMap fun e => [.start core e, .complete core e, .fail core e, .resume core e]) ++
    [.resume core .press, .pressComplete (core / 4), .fail core .press]

/-- What a die may do. -/
def dieMoves (s : State) (die : Nat) : List Move :=
  ((List.range (getDie s die).walks.length).map fun i => .walk die i) ++
    ((List.range (getDie s die).coll.length).map fun i => .commit die i) ++
    (((List.range 9).filter fun i => (getPort s die i).buffers.any fun b => !b.2.isEmpty).map fun i => .drain (9 * die + i)) ++
    if (unposted (getDie s die)).isSome || !(getDie s die).parkedFaults.isEmpty then [.ring die] else []

/-- The running nodes of a continuation. -/
def runningNodes (s : State) (cont : Nat) : List NodeKey :=
  (openJobs (getCont s cont)).flatMap fun j => match j.phase with
    | some p => (p.nodes.zipIdx.filter fun x => x.1.status == .running).map fun x =>
        { cont := cont, job := j.id, phase := p.index, node := x.2 }
    | none => []

/-- What the schedulers may do for a continuation. -/
def contMoves (s : State) (cont : Nat) : List Move :=
  ((runningNodes s cont).flatMap fun k => [.node k, .signal k, .copy k]) ++ (getCont s cont).parkAsked.map .park ++ (openCopies s cont).map .endCopy

/-- All moves that the machine may make. -/
def moves (s : State) : List Move :=
  if s.boot.stage ≠ .running then []
  else
    (s.units.map Prod.fst).flatMap (unitMoves s) ++ (s.cores.map Prod.fst).flatMap coreMoves ++
      [0, 1, 2, 3].flatMap (dieMoves s) ++ (s.conts.map Prod.fst).flatMap (contMoves s) ++ (rowVictims s).map .park ++ s.meter.queue.map .serve ++
      (s.harts.filter fun h => h.2.waiting.isSome).map fun h => .form h.1

/-- A free choice among the moves; with none, nothing happens (log 2). -/
def freeTurn (s : State) : Host.Outcome State Fault Refusal :=
  let ms := moves s
  match ms[Config.pick s.free % ms.length]? with
  | none => .next s
  | some m => runMove { s with free := s.free + 1 } m

/-! ## What follows a turn -/

/-- The running WAIT nodes. -/
def waitingNodes (s : State) : List NodeKey :=
  (s.conts.map Prod.fst).flatMap fun c => (runningNodes s c).filter fun k => match nodeRec s k with | some n => n.kind == 1 | none => false

/-- The counters that a WAIT node watches. -/
def watched (s : State) (k : NodeKey) : List (Word × Word) :=
  match (findJob s k.cont k.job).bind (·.phase), nodeRec s k with
  | some p, some n => waitEntries p n
  | _, _ => []

/-- Whether a turn has written another value to a counter, or the scheduler has no translation of it any more. -/
def counterMoved (s t : State) (k : NodeKey) (va : Word) : Bool :=
  match nodePlaces t k va .atomic 8 with
  | .ok ps => placesValue s ps != placesValue t ps
  | _ => true

/-- The WAIT nodes that are to be evaluated after a turn: those that have become ready, and those with a counter that has been written (R367). -/
def dueNodes (s t : State) : List NodeKey :=
  (waitingNodes t).filter fun k =>
    (match findNode t k with | some r => r.due | none => false) || (watched t k).any fun e => counterMoved s t k e.1

/-- A WAIT node evaluated, if it is still running (R367). -/
def evaluateNode (s : State) (k : NodeKey) : State :=
  match (findJob s k.cont k.job).bind (·.phase), nodeRec s k, findNode s k with
  | some p, some n, some r =>
    if r.status = .running ∧ n.kind = 1 then evaluateWait (modNode s k fun r => { r with due := false }) k p n else s
  | _, _, _ => s

/-- The WAIT nodes of a list evaluated in order, and then those that have become ready by it. -/
def evaluateNodes : Nat → List NodeKey → State → State
  | 0, _, s => s
  | _, [], s => s
  | n + 1, ks, s =>
    let t := ks.foldl evaluateNode s
    evaluateNodes n (dueNodes t t) t

/-- The cores that issue from no slot though a launch stands on them that may issue: a core idles only when no slot of it holds a launch (R375). -/
def idleCores (s : State) : List Nat :=
  (busyCores s).filter fun core => (issuingUnit s core).isNone &&
    s.units.any fun p => p.2.alive && p.2.place.resident && p.2.place.core == core && !(exhausted s p.2.ident.key)

/-- The clusters on which a unit stands. -/
def unitClusters (s : State) : List Nat := (s.units.map fun u => u.2.place.core / 4).eraseDups

/-- The units that a turn has ended. -/
def endedUnits (s t : State) : List Nat := (s.units.filter fun p => p.2.alive && !(getUnit t p.1).alive).map Prod.fst

/-- The launches that a turn has stopped with status fault (R349). -/
def stoppedLaunches (s t : State) : List NodeKey :=
  (((endedUnits s t).map fun uid => (getUnit s uid).ident.key).eraseDups).filter fun k =>
    match findJob s k.cont k.job, findJob t k.cont k.job with
    | some i, some j => !(statusFinal i.status) && j.status == 3
    | _, _ => false

/-- The record that a unit posts when its next issue stops it (R349): that of its first sequencer which does. -/
def issueRecord (s : State) (uid : Nat) : Option FaultRecord :=
  let k := (getUnit s uid).ident.key
  allSeqs.findSome? fun q => match issueTurn (modCont s k.cont fun c => { c with faultQ := [] }) uid q with
    | .next t => if (getUnit t uid).alive then none else (getCont t k.cont).faultQ.find? fun r => r.jst == 3 && r.core == (getUnit s uid).place.core
    | _ => none

/-- A launch's other units that stop in the cycle of its stop (R349): the stop of a unit whose next issue would stop it too falls in the same cycle or does not. DESIGN CHOICE
(log 76): a free bit decides, for each. -/
def cycleRecords (s t : State) (k : NodeKey) : List (Nat × FaultRecord) :=
  let posted := (getCont t k.cont).faultQ.drop (getCont s k.cont).faultQ.length
  (unitsOf s k).filterMap fun v =>
    if posted.any (fun r => r.core == (getUnit s v).place.core) || !(Config.freeValue t.free).getLsbD ((getUnit s v).ident.index % 64) then none
    else (issueRecord s v).map fun r => ((getUnit s v).ident.index, r)

/-- Further records of a stop, put among those that the turn has posted by core (R349), as far as the queue holds them (R350, R353). -/
def postTwins (s : State) (cont n : Nat) (rs : List FaultRecord) : State :=
  let c := getCont s cont
  let posted := c.faultQ.drop n
  let all := rs.foldl (fun l r => insertCore r l) posted
  let lost := match posted with | r :: _ => r.lost | [] => 0
  let all := (all.map fun r => { r with lost := 0 }).modifyHead fun r => { r with lost := lost }
  let room := 16 - n
  let s := modCont s cont fun c => { c with faultQ := c.faultQ.take n ++ all.take room, lost := c.lost + (all.length - (all.take room).length) }
  (rs.take ((all.take room).length - posted.length)).foldl (fun s r => postAttn s cont 2 r.jst r.job) s

/-- Units of a launch that has been stopped, with the status of one that has posted a record. -/
def markStopped (s : State) (k : NodeKey) (is : List Nat) : State :=
  modJob s k.cont k.job fun j => { j with past := j.past.map fun p =>
    if p.index = k.phase then
      { p with nodes := p.nodes.zipIdx.map fun x => if x.2 = k.node then { x.1 with units := is.foldl (fun t i => tabPut t i 3) x.1.units } else x.1 }
    else p }

/-- A launch that a turn has stopped, with the units of it that stop in the same cycle (R349). -/
def sameCycle (s t : State) : State :=
  (stoppedLaunches s t).foldl (fun t k =>
    let rs := cycleRecords s t k
    let t := { t with free := t.free + 1 }
    if rs.isEmpty then t
    else markStopped (postTwins t k.cont (getCont s k.cont).faultQ.length (rs.map Prod.snd)) k (rs.map Prod.fst)) t

/-- What follows a turn of itself: the units that stop in the cycle of a stop post their records (R349), the WAIT nodes whose counters the turn wrote are evaluated (R367), class-0 launches that have become
ready start a decision, cores that it left without a launch to issue choose another (R375), the leases of the presses end where their holders no longer request or issue (R244, R250), and an announced
version of the group takes effect when its stamp has come (R435). -/
def afterTurn (s t : State) : State :=
  let t := sameCycle s t
  let t := evaluateNodes (waitingNodes t).length (dueNodes s t) t
  let t := decideReady s t
  let idle := idleCores t
  let t := if idle.isEmpty then t else decideCores t idle none
  settleVersion ((unitClusters t).foldl settleLease t)

/-- A turn with what follows it. -/
def turnThen (s : State) : Host.Outcome State Fault Refusal → Host.Outcome State Fault Refusal
  | .next t => .next (afterTurn s t)
  | o => o

/-- The next turn: the head of the agenda, else a free choice. -/
def nextTurn (s : State) : Host.Outcome State Fault Refusal :=
  turnThen s (match s.agenda with
    | t :: r => runTurn { s with agenda := r } t
    | [] => freeTurn s)

end Sys2Proof.Machine
end

