-- ==== Sys2Proof/Machine/Step.lean ====
section
/-!
DEFINITION. One step of the machine, and the state in which the next step runs a given word (log 3).
-/

namespace Sys2Proof.Machine

open Sys2Proof

/-- One step of the machine: one turn. -/
def step (s : State) : Host.Outcome State Fault Refusal := nextTurn s

/-- The state with a word placed where the next step fetches and runs it (log 3). -/
def State.withFetchWord (s : State) (nbits w : Nat) : State := placeFetchWord s nbits w

end Sys2Proof.Machine
end

