-- ==== Sys2Proof/Safety.lean ====
section
/-!
DEFINITION. What the claims are stated in: the canonical form of memory, and when a sequencer issues a word, with the state in which the word's body runs.
-/

namespace Sys2Proof.Machine

open Sys2Proof

/-- Memory stands in its canonical form: addresses rise, and no listed byte reads as an unlisted one would. -/
def State.MemOk (s : State) : Prop := memWf s.mem = true

/-- The sequencer that acts. -/
def State.acting (s : State) : SeqState := getSeq s s.cur.uid s.cur.q

/-- The state with those pushes made that wait at retirement at the acting sequencer and find room (R66). -/
def State.flushed (s : State) : State := flushPushes 64 s s.cur.uid s.cur.q

/-- A word issues at the acting sequencer (R66, R81): the sequencer runs in the slot that issues, the word is legal in it, no earlier push waits at
retirement, and the token pop of its slot leaves the state `p`. -/
def Issues (s : State) (i : Instr) (tk : BitVec 2) (p : State) : Prop :=
  canIssue s s.cur.uid s.cur.q = true ∧ i.legalIn s.cur.q = true ∧ s.acting.fl.pushes = [] ∧
    tokenPop s s.cur.uid s.cur.q (tokSlot s.acting tk) = some p

/-- The state in which the body of a word runs: the pc stands at the next word. -/
def bodyState (s p : State) : State := nextWord p s.cur.uid s.cur.q

/-- A word's turn ends with its body's state `t`: nothing waits, the push of a word that retires at issue is made, and one virtual cycle ends (R67,
R125). -/
def endWord (s : State) (i : Instr) (tk : BitVec 2) (carried : Bool) (t : State) : State := issued t (issueCtx s i tk) carried

/-! ## Scalar instructions -/

/-- The state with one more result in flight at a sequencer (R129). -/
def inFlight (s : State) (uid : Nat) (q : Seq) (e : Landing) : State :=
  modSeq s uid q fun sq => sq.modFl fun f => { f with running := f.running ++ [e] }

/-- The state with one more entry reserved in a sequencer's `dqout`, unfilled, aimed at the present target (R137, R138). -/
def reserveDqout (s : State) (uid : Nat) (q : Seq) (rid : Nat) : State :=
  modSeq s uid q fun sq => { sq with dq := { sq.dq with dqout := sq.dq.dqout ++ [{ rid := rid, target := sq.dq.target, val := none }] } }

/-- The two-source scalar instructions of major 0x01 with their latencies (R127) and results (R143). -/
def aluBinary : List ((BitVec 6 → BitVec 6 → BitVec 6 → BitVec 2 → Instr) × Nat × (Word → Word → Word)) :=
  [(.add, 1, fun a b => a + b),
   (.sub, 1, fun a b => a - b),
   (.and, 1, fun a b => a &&& b),
   (.or, 1, fun a b => a ||| b),
   (.xor, 1, fun a b => a ^^^ b),
   (.andn, 1, fun a b => a &&& ~~~b),
   (.sll, 1, fun a b => a <<< (b.toNat % 64)),
   (.srl, 1, fun a b => a >>> (b.toNat % 64)),
   (.sra, 1, fun a b => a.sshiftRight (b.toNat % 64)),
   (.rol, 1, fun a b => (a <<< (b.toNat % 64)) ||| (a >>> (64 - b.toNat % 64))),
   (.slt, 1, fun a b => if a.slt b then 1 else 0),
   (.sltu, 1, fun a b => if a.ult b then 1 else 0),
   (.min, 1, fun a b => if b.slt a then b else a),
   (.max, 1, fun a b => if a.slt b then b else a),
   (.minu, 1, fun a b => if b.ult a then b else a),
   (.maxu, 1, fun a b => if a.ult b then b else a),
   (.mul, 3, fun a b => a * b),
   (.mulh, 3, fun a b => (a.signExtend 128 * b.signExtend 128).extractLsb' 64 64),
   (.mulhu, 3, fun a b => (a.setWidth 128 * b.setWidth 128).extractLsb' 64 64),
   (.div, 18, fun a b => if b = 0 then BitVec.allOnes 64 else a.sdiv b),
   (.divu, 18, fun a b => if b = 0 then BitVec.allOnes 64 else a / b),
   (.rem, 18, fun a b => if b = 0 then a else a.srem b),
   (.remu, 18, fun a b => if b = 0 then a else a % b),
   (.sext, 1, fun a b => (a.extractLsb' 0 (b.toNat % 64 + 1)).signExtend 64),
   (.zext, 1, fun a b => (a.extractLsb' 0 (b.toNat % 64 + 1)).setWidth 64),
   (.addw, 1, fun a b => ((a + b).setWidth 32).signExtend 64),
   (.subw, 1, fun a b => ((a - b).setWidth 32).signExtend 64),
   (.mulw, 3, fun a b => ((a * b).setWidth 32).signExtend 64)]

/-- The one-source scalar instructions of major 0x01 with their results (R143). -/
def aluUnary : List ((BitVec 6 → BitVec 6 → BitVec 2 → Instr) × (Word → Word)) :=
  [(.clz, fun a => if a = 0 then 64 else BitVec.ofNat 64 (63 - a.toNat.log2)),
   (.ctz, fun a => if a = 0 then 64 else BitVec.ofNat 64 (a &&& -a).toNat.log2),
   (.popc, fun a => BitVec.ofNat 64 ((List.range 64).countP fun k => a.getLsbD k))]

/-- The scalar instructions with an immediate, major 0x02, with their results (R144). -/
def aluImmediate : List ((BitVec 6 → BitVec 6 → BitVec 10 → BitVec 2 → Instr) × (Word → BitVec 10 → Word)) :=
  [(.addi, fun a k => a + k.signExtend 64),
   (.andi, fun a k => a &&& k.signExtend 64),
   (.ori, fun a k => a ||| k.signExtend 64),
   (.xori, fun a k => a ^^^ k.signExtend 64),
   (.slti, fun a k => if a.slt (k.signExtend 64) then 1 else 0),
   (.slli, fun a k => a <<< k.toNat),
   (.srli, fun a k => a >>> k.toNat),
   (.srai, fun a k => a.sshiftRight k.toNat)]

/-! ## How a word completes -/

/-- In every state in which the word issues, it ends its turn with the value in flight for d at the latency, when that value has a place. -/
def Returns (i : Instr) (tk : BitVec 2) (d : BitVec 6) (lat : Nat) (v : Ctx → State → Word) : Prop :=
  ∀ s p t, Issues s i tk p →
    landScalar (issueCtx s i tk) d.toNat (v (issueCtx s i tk) (bodyState s p)) lat (bodyState s p) = .ok ((), t) →
    exec i s = .next (endWord s i tk true t)

/-- In every state in which the word issues, it ends its turn with the state changed as given; its token push, if any, is made at once. -/
def Effects (i : Instr) (tk : BitVec 2) (f : Ctx → State → State) : Prop :=
  ∀ s p, Issues s i tk p → exec i s = .next (endWord s i tk false (f (issueCtx s i tk) (bodyState s p)))

/-- The same for a word with one scalar source, when the source is read with value x. -/
def EffectsFrom (i : Instr) (tk : BitVec 2) (a : BitVec 6) (f : Ctx → Word → State → State) : Prop :=
  ∀ s p t x, Issues s i tk p → rs (issueCtx s i tk) a (bodyState s p) = .ok (x, t) →
    exec i s = .next (endWord s i tk false (f (issueCtx s i tk) x t))

/-! ## System words -/

/-- The special registers of a sequencer, by their numbers from 0 (R155). -/
def specialRegisters (u : UnitState) (q : Seq) : List Word :=
  let t := (u.seq q).tr
  [u.aflags.setWidth 64, t.tvec, t.tcause, t.tval, t.tepc, t.tstat, t.tvc, t.wperm, t.wpermh, BitVec.ofNat 64 (u.seq q).dq.target.idx]

/-- The identifiers of a unit, by the selectors of `IDENT` from 0 (R157). -/
def identifiers (s : State) (u : UnitState) : List Nat :=
  let k := u.ident.key
  [u.ident.index, u.ident.size, u.place.core / 4, u.place.core / 192, k.job * 2 ^ 32 + k.phase * 2 ^ 16 + k.node, k.job * 2 ^ 16 + k.phase,
   k.job, k.cont, u.superstep, if s.group.state = 6 then 0 else s.group.index, u.place.core % 4, u.place.core]

/-- The peers that `TKCFG` codes 0 to 3 name in a sequencer (R156). -/
def slotPeers : Seq → List (Option Seq)
  | .c => [none, some .l, some .x, some .s]
  | .l => [none, some .c, some .x, some .s]
  | .x => [none, some .c, some .l, some .s]
  | .s => [none, some .c, some .l, some .x]

/-- The bytes that controllers of a die have not yet charged against their budgets (R400, R402). -/
def unspent (s : State) (die : Nat) (ks : List Nat) : Nat := (ks.map fun k => budgetOf s (6 * die + k) - spentOf s (6 * die + k)).sum

/-- A unit with the event flags of some sequencers set. -/
def withEvents (u : UnitState) (qs : List Seq) : UnitState := qs.foldl (fun u q => u.setSeq q { u.seq q with event := true }) u

/-! ## Control flow, predicates, loads and stores -/

/-- The branches on a scalar, with their conditions: s[ra] compared with 0, signed (R148). -/
def scalarBranches : List ((BitVec 6 → BitVec 15 → BitVec 2 → Instr) × (Word → Bool)) :=
  [(.beqz, fun v => v == 0), (.bnez, fun v => v != 0), (.bltz, fun v => v.slt 0), (.bgez, fun v => !v.slt 0), (.bgtz, fun v => (0#64).slt v),
   (.blez, fun v => !(0#64).slt v)]

/-- The address of the word that issues (R125). -/
def State.here (s : State) : Word := s.acting.pc

/-- Whether a code address lies in the stream section of the sequencer that acts (R151). -/
abbrev State.hasCode (s : State) (a : Word) : Prop := a.toNat % 4 = 0 ∧ a.toNat < s.acting.streamSize

/-- The state with the pc of the sequencer that acts at an address. -/
def State.goes (s : State) (a : Word) : State := modSeq s s.cur.uid s.cur.q fun c => { c with pc := a }

/-- The state in which a jump that may not be taken traps: cause 1, its target in `TVAL` (R151). -/
def jumpTrap (s : State) (i : Instr) (a : Word) : State := takeTrap s s.cur.uid s.cur.q 1 a (wordOf i) false none

/-- What a sequencer keeps of a predicate: 1,024 bits in X, one elsewhere (R121). -/
def keptBits (q : Seq) (m : Mask) : Mask := if q = .x then m else (m.setWidth 1).setWidth 1024

/-- The predicate instructions with two sources (R152). -/
def predicateBinary : List ((BitVec 6 → BitVec 6 → BitVec 6 → BitVec 2 → Instr) × (Mask → Mask → Mask)) :=
  [(.pand, fun x y => x &&& y), (.por, fun x y => x ||| y), (.pxor, fun x y => x ^^^ y)]

/-- The predicate instructions with one source (R152). -/
def predicateUnary : List ((BitVec 6 → BitVec 6 → BitVec 2 → Instr) × (Mask → Mask)) := [(.pnot, fun x => ~~~x), (.pmov, fun x => x)]

/-- The conditions of `PSET` by code (R152). -/
def predicateConditions : List (Word → Bool) :=
  [fun v => v == 0, fun v => v != 0, fun v => v.slt 0, fun v => !v.slt 0, fun v => (0#64).slt v, fun v => !(0#64).slt v, fun v => v.getLsbD 0]

/-- The latency of a predicate instruction (R127). -/
def predicateDelay (q : Seq) : Nat := if q = .x then 2 else 1

/-- A number from its bytes, the lowest first (R90). -/
def ofBytes : List Byte → Nat
  | [] => 0
  | b :: r => b.toNat + 256 * ofBytes r

/-! ## Queues and handles -/

/-- The sequencer that a token queue of index 0 to 3, or 4 to 7, names (R35). -/
def tokenPeer (n : BitVec 6) : Seq :=
  match n.toNat % 4 with
  | 0 => .c
  | 1 => .l
  | 2 => .x
  | _ => .s

/-- The engines by the indices of their queues (R35). -/
def engineQueues : List (Nat × Eng) := [(16, .copy), (17, .gather), (18, .coll), (19, .row), (20, .press)]

/-- The number of entries of the queue of an index, from the side of a sequencer; for an engine its queued commands in [15:0] and its waiting results
in [31:16] (R35, R153). -/
def QueueHolds (u : UnitState) (q : Seq) (n : BitVec 6) (k : Nat) : Prop :=
  (n.toNat < 4 → k = (tokensOf u q (tokenPeer n)).length) ∧
  (4 ≤ n.toNat → n.toNat < 8 → k = (tokensOf u (tokenPeer n) q).length) ∧
  (n.toNat = 8 → k = (u.seq q).dq.dqin.length) ∧ (n.toNat = 9 → k = (u.seq q).dq.dqout.length) ∧
  (n.toNat = 10 → k = u.vqin.entries.length) ∧ (n.toNat = 11 → k = u.vqout.entries.length) ∧ (n.toNat = 12 → k = u.bq.length) ∧
  ∀ r ∈ engineQueues, n.toNat = r.1 → k = ((u.seq q).eq r.2).cmds.length % 65536 + 65536 * (((u.seq q).eq r.2).results.length % 65536)

/-- The condition that `QWAIT` waits for at the queue of an index (R153). The vector queues are ready for their popper when the head is filled. -/
def QueueIsReady (s : State) (uid : Nat) (q : Seq) (n : BitVec 6) : Prop :=
  let u := getUnit s uid
  let filled (v : VecQueue) : Prop := ∃ e r, v.entries = e :: r ∧ e.val.isSome = true
  (n.toNat < 4 → tokensOf u q (tokenPeer n) = []) ∧ (4 ≤ n.toNat → n.toNat < 8 → tokensOf u (tokenPeer n) q ≠ []) ∧
  (n.toNat = 8 → (u.seq q).dq.dqin ≠ []) ∧ (n.toNat = 9 → (u.seq q).dq.dqout = []) ∧
  (n.toNat = 10 → if q = .x then filled u.vqin else u.vqin.entries = []) ∧
  (n.toNat = 11 → if q = .s then filled u.vqout else u.vqout.entries = []) ∧
  (n.toNat = 12 → if q = .x then u.bq ≠ [] else u.bq = []) ∧
  ∀ r ∈ engineQueues, n.toNat = r.1 → outstanding s uid q r.2 = false

/-- A handle with the field of n bits from bit lo replaced by a number, every other bit kept (R175). -/
def withField (h : Handle) (lo n v : Nat) : Handle :=
  BitVec.ofNat 256 (h.toNat % 2 ^ lo + v % 2 ^ n * 2 ^ lo + h.toNat / 2 ^ (lo + n) * 2 ^ (lo + n))

/-- The check word of a handle at a sequencer: a bit for each flaw of the handle, and bits 63 to 12 zero (R179). -/
def IsCheckWord (s : State) (uid : Nat) (q : Seq) (h : Handle) (w : Word) : Prop :=
  let field (lo n : Nat) : Nat := (h.extractLsb' lo n).toNat
  let base := h.extractLsb' 0 64
  let fmt := field 200 6
  let g := ((getSeq s uid q).handles[field 240 4]?).getD 0
  let extent (h : Handle) : Nat := if (h.extractLsb' 64 16).toNat = 0 then 65536 else (h.extractLsb' 64 16).toNat
  (w.getLsbD 0 = true ↔ h.getLsbD 248 = false) ∧ (w.getLsbD 1 = true ↔ fmtValid fmt = false) ∧
  (w.getLsbD 2 = true ↔ 6 < field 206 4 ∨ (field 206 4 ≠ 0 ∧ field 210 2 < 2)) ∧ (w.getLsbD 3 = true ↔ field 210 2 = 3) ∧
  (w.getLsbD 4 = true ↔ 3 < field 228 4) ∧ (w.getLsbD 5 = true ↔ ¬ (field 232 8 ≤ 2 ∨ (field 232 8 ≤ 7 ∧ (tabGet s.sched.layouts (field 232 8)).isSome = true))) ∧
  (w.getLsbD 6 = true ↔ h.getLsbD 250 = true ∧
    ¬ (fmtMx fmt = true ∧ g.getLsbD 248 = true ∧ (g.extractLsb' 200 6).toNat = 0x13 ∧ extent g = (extent h + 63) / 64)) ∧
  (w.getLsbD 7 = true ↔ field 251 5 ≠ 0 ∨ field 244 4 ≠ 0) ∧
  (w.getLsbD 8 = true ↔ (field 210 2 < 2 ∧ base.toNat / 2 ^ 57 ≠ 0) ∨ (field 210 2 = 2 ∧ inSegments base = false)) ∧
  (fmtValid fmt = true →
    (w.getLsbD 9 = true ↔ field 210 2 = 2 ∧ ∃ v off r, partOf s uid base = some (v, off) ∧ off / 4096 ≤ r ∧
      4096 * r < min (off + hSpan h) (getUnit s v).place.spadSize ∧ regionTag s v r ≠ field 206 4) ∧
    (w.getLsbD 10 = true ↔ field 210 2 = 2 ∧ inSegments base = true ∧ ∀ v off, partOf s uid base = some (v, off) →
      (getUnit s v).place.spadSize < off + hSpan h)) ∧
  (w.getLsbD 11 = true ↔ h.getLsbD 249 = true) ∧ w.toNat < 2 ^ 12

/-! ## Atomics, fences and the scheduler's words -/

/-- An atomic instruction with the parts of its form: its function, destination and operand registers, and whether its word has 32 bits (R284). -/
structure AtomicForm where
  instr : Instr
  fn    : Nat
  d     : BitVec 5
  b     : BitVec 5
  w32   : Bool

/-- The fifteen atomic instructions over their fields (R284). -/
def atomicForms (d a b : BitVec 5) (o : BitVec 3) (sc : BitVec 4) (z : BitVec 1) : List AtomicForm :=
  [⟨.ald d a o sc z, 0, d, 0, z == 1⟩, ⟨.ast a b o sc z, 1, 0, b, z == 1⟩, ⟨.aswp d a b o sc z, 2, d, b, z == 1⟩,
   ⟨.acas d a b o sc z, 3, d, b, z == 1⟩, ⟨.aadd d a b o sc z, 4, d, b, z == 1⟩, ⟨.aand d a b o sc z, 5, d, b, z == 1⟩,
   ⟨.aor d a b o sc z, 6, d, b, z == 1⟩, ⟨.axor d a b o sc z, 7, d, b, z == 1⟩, ⟨.amin d a b o sc z, 8, d, b, z == 1⟩,
   ⟨.amax d a b o sc z, 9, d, b, z == 1⟩, ⟨.aminu d a b o sc z, 10, d, b, z == 1⟩, ⟨.amaxu d a b o sc z, 11, d, b, z == 1⟩,
   ⟨.afadd d a b o sc, 12, d, b, true⟩, ⟨.sigdec d a b o sc, 13, d, b, false⟩, ⟨.sigadd d a b o sc, 14, d, b, false⟩]

/-- What a word of w bits becomes under an integer function of R284 with operand b and expected value c; none where nothing is written. -/
def atomicResult (fn w : Nat) (old b c : BitVec w) : Option (BitVec w) :=
  match fn with
  | 0 => none
  | 1 => some b
  | 2 => some b
  | 3 => if old = c then some b else none
  | 4 => some (old + b)
  | 5 => some (old &&& b)
  | 6 => some (old ||| b)
  | 7 => some (old ^^^ b)
  | 8 => some (if b.slt old then b else old)
  | 9 => some (if old.slt b then b else old)
  | 10 => some (if b.ult old then b else old)
  | 11 => some (if old.ult b then b else old)
  | 13 => some (old - b)
  | _ => some (old + b)

/-! ## Engine commands -/

/-- A sequencer's queue of an engine has room for one more command, and its core for the locks over these extents (R136, R169). -/
def QueueRoom (s : State) (c : Ctx) (e : Eng) (xs : List Extent) : Prop :=
  ((getSeq s c.uid c.q).eq e).cmds.length < 16 ∧
    scratchLocks s (getUnit s c.uid).place.core + (xs.filter fun x => !x.rows).length ≤ 32

/-- The state `t` is `s` with the sequencer's stores performed, one command more at the tail of its queue of an engine, that command's locks over
these extents, and the regions retagged that destination sides of the list cover (R136, R164, R166, R168, R184). -/
def Queued (s t : State) (c : Ctx) (e : Eng) (xs : List Extent) (ys : List Side) (k : EngCmd) : Prop :=
  let b := performAll s c.uid c.q
  t.mem = (retag b ys).mem ∧ ((getSeq t c.uid c.q).eq e).cmds = ((getSeq b c.uid c.q).eq e).cmds ++ [k] ∧
  k.uid = c.uid ∧ k.issuer = c.q ∧ k.push = c.push ∧ k.seqNo = ((getSeq s c.uid c.q).eq e).issueNo ∧ k.pos = 0 ∧ k.recs = [] ∧
  (getUnit t c.uid).place.locks = (getUnit b c.uid).place.locks ++ xs.map fun x =>
    { eng := e, issuer := c.q, seqNo := k.seqNo, no := k.lockNo, rows := x.rows, write := x.write, lo := x.lo, hi := x.hi }

/-- A word completes by queuing a command with the parts given: function, relocation flag, operand words, handles and scale handles. -/
def QueuesCommand (s : State) (i : Instr) (tk : BitVec 2) (t0 : State) (e : Eng) (xs : List Extent) (ys : List Side) (code : Nat) (rl : Bool)
    (ra rb : Word) (h h2 g g2 : Handle) : Prop :=
  ∃ t k, exec i s = .next (endWord s i tk true t) ∧ Queued t0 t (issueCtx s i tk) e xs ys k ∧ k.code = code ∧ k.rl = rl ∧ k.ra = ra ∧ k.rb = rb ∧
    k.h = h ∧ k.h2 = h2 ∧ k.scale = g ∧ k.scale2 = g2

/-- A word takes a fault of a cause with its own word as `TVAL`, in the state after its token pop (R347). -/
def FaultsWith (s p : State) (i : Instr) (tk : BitVec 2) (cause : Nat) : Prop :=
  exec i s = .next (stopWord p (issueCtx s i tk) (.trap cause ((wordOf i).setWidth 64) none none))

/-- The gather-engine words with their codes (R190). -/
def gatherWords : List ((BitVec 4 → BitVec 6 → BitVec 6 → BitVec 2 → Instr) × Nat) := [(.gath, 0), (.scat, 1), (.gathp, 2), (.scata, 3)]

/-- What a gather command asks of its tensor: rank 2 to 4, or 3 for `GATHP`, no aligned format, and F32, I32 or I16 for `SCATA` (R190, R191). -/
def GatherTakes (code : Nat) (h : Handle) : Prop :=
  (if code = 2 then hRank h = 3 else 2 ≤ hRank h) ∧ fmtAligned (hFmt h) = false ∧ (code = 3 → hFmt h = 8 ∨ hFmt h = 3 ∨ hFmt h = 4)

/-- The collective words with their codes (R429). -/
def collectiveWords : List ((BitVec 4 → BitVec 6 → BitVec 6 → BitVec 2 → Instr) × Nat) :=
  [(.xallr, 0), (.xrds, 1), (.xallg, 2), (.xsend, 3), (.xrecv, 4), (.xexch, 5)]

/-- The row-engine words with their codes (R232). -/
def rowWords : List ((BitVec 3 → BitVec 4 → BitVec 6 → BitVec 6 → BitVec 1 → BitVec 2 → Instr) × Nat) :=
  [(.rwsmx, 0), (.rwmax, 1), (.rwexps, 2), (.rwscl, 3), (.rwrms, 4), (.rwlnrm, 5)]

/-- What `PSTAT` shows: the holder in [39:38] and [37], whether this core holds in [36], its request, the weight record and the owner in [35:33], the
cycles left in [32:16], its queued commands in [12:8] and the commands left in [4:0], zero where it does not hold, and no cycle left once they have passed (R251). -/
def PressReads (s : State) (uid : Nat) (w : Word) : Prop :=
  let u := getUnit s uid
  let p := (getCluster s (u.place.core / 4)).press
  let held := p.holder = some (u.place.core % 4)
  w.extractLsb' 40 24 = 0 ∧ w.extractLsb' 38 2 = BitVec.ofNat 2 (p.holder.getD 0) ∧ w.getLsbD 37 = p.holder.isSome ∧
  (w.getLsbD 36 = true ↔ held) ∧ w.getLsbD 35 = u.press.lreq ∧ w.getLsbD 34 = u.press.wrec.isSome ∧ (w.getLsbD 33 = true ↔ p.owner = some uid) ∧
  (¬ held ∨ p.timedOut = true → w.extractLsb' 16 17 = 0) ∧ w.extractLsb' 13 3 = 0 ∧ w.extractLsb' 8 5 = BitVec.ofNat 5 ((u.seq .c).eq .press).cmds.length ∧
  w.extractLsb' 5 3 = 0 ∧ w.extractLsb' 0 5 = (if held then BitVec.ofNat 5 p.cmds else 0)

/-- A word takes a format fault with a check word in `TVAL` (R299). -/
def ChecksFail (s p : State) (i : Instr) (tk : BitVec 2) (w : Word) : Prop := exec i s = .next (stopWord p (issueCtx s i tk) (.trap 2 w none none))

/-- The level that `CKOPEN` pushes over a descriptor, from the serial its pool had (R300, R308). -/
def newLevel (u : UnitState) (h : Handle) (n : Nat) : CaskLevel :=
  { id := u.nlevel, pool := ckPool h, cap := ckCap h, serial := (n + 1) % 2 ^ 32, used := 32, recs := [], stage := ckStg h, stageN := ckStgn h
    abt := ckAbt h }

/-- A record moved by an offset, its physical address forgotten (R310). -/
def movedRecord (r : CaskRec) (off : Word) : CaskRec := { r with vaddr := r.vaddr + off, paddr := 0 }

/-! ## Vector instructions -/

/-- The elements of a row under a guard: the function of a lane where its bit is set, 0 elsewhere (R210). -/
def laneResults (n : Nat) (g : Mask) (f : Nat → Nat × Flags) : List Nat := (List.range n).map fun k => if g.getLsbD k then (f k).1 else 0

/-- The flags of the selected lanes, joined (R98). -/
def laneFlags (n : Nat) (g : Mask) (f : Nat → Nat × Flags) : Flags :=
  (((List.range n).filter fun k => g.getLsbD k).map fun k => (f k).2).foldr (· ||| ·) 0

/-- A lane function of one of the float formats, or of the integers of a width: signed or not by the tag. -/
def laneByTag (fl : Nat → Nat → Nat → Nat × Flags) (int : (w : Nat) → Bool → BitVec w → BitVec w → BitVec w) (f a b : Nat) : Nat × Flags :=
  if fmtFloat f then fl f a b else ((int (fmtBits f) (fmtUnsigned f) (BitVec.ofNat _ a) (BitVec.ofNat _ b)).toNat, 0)

/-- The value of an integer element by its tag. -/
def elemInt (f a : Nat) : Int := if fmtUnsigned f then ((BitVec.ofNat (fmtBits f) a).toNat : Int) else (BitVec.ofNat (fmtBits f) a).toInt

/-- The lane of `VSAT` for an integer tag (R220). -/
def clampLane (f a b : Nat) : Nat × Flags :=
  let x := elemInt f a
  let r := if fmtUnsigned f then min x (elemInt f b) else min (max x (-(max (elemInt f b) 0))) (max (elemInt f b) 0)
  ((BitVec.ofInt (fmtBits f) r).toNat, if r = x then 0 else flagSATN)

/-- The lane of `VADDSAT` (R102, R219). -/
def addSaturated (f a b : Nat) : Nat × Flags :=
  let x := elemInt f a + elemInt f b
  let lo : Int := if fmtUnsigned f then 0 else -2 ^ (fmtBits f - 1)
  let hi : Int := if fmtUnsigned f then 2 ^ fmtBits f - 1 else 2 ^ (fmtBits f - 1) - 1
  ((BitVec.ofInt (fmtBits f) (max lo (min hi x))).toNat, if lo ≤ x ∧ x ≤ hi then 0 else flagSATN)

/-- A vector instruction with two row sources, with its class, latency and lane function (R208, R212, R219). -/
structure VectorBinary where
  form : BitVec 5 → BitVec 5 → BitVec 5 → BitVec 4 → BitVec 2 → Instr
  cls  : Nat → Bool
  lat  : Nat
  op   : Nat → Nat → Nat → Nat × Flags

/-- The two-source instructions of VEC0 that write a row (R219). -/
def vectorBinary : List VectorBinary :=
  [⟨.vadd, clsFI, 2, laneByTag floatAdd fun _ _ a b => a + b⟩, ⟨.vsub, clsFI, 2, laneByTag floatSub fun _ _ a b => a - b⟩,
   ⟨.vmul, clsFI, 4, laneByTag floatMul fun _ _ a b => a * b⟩,
   ⟨.vmin, clsFI, 2, laneByTag (fun f => floatMinMax f false) fun _ u a b => if (if u then b.ult a else b.slt a) then b else a⟩,
   ⟨.vmax, clsFI, 2, laneByTag (fun f => floatMinMax f true) fun _ u a b => if (if u then a.ult b else a.slt b) then b else a⟩,
   ⟨.vand, clsFI, 2, fun _ a b => (a &&& b, 0)⟩, ⟨.vor, clsFI, 2, fun _ a b => (a ||| b, 0)⟩, ⟨.vxor, clsFI, 2, fun _ a b => (a ^^^ b, 0)⟩,
   ⟨.vsll, clsI, 2, laneByTag laneSll fun w _ a b => if w ≤ b.toNat then 0 else a <<< b.toNat⟩,
   ⟨.vsrl, clsI, 2, laneByTag laneSrl fun w _ a b => if w ≤ b.toNat then 0 else a >>> b.toNat⟩,
   ⟨.vsra, clsI, 2, laneByTag laneSra fun w u a b => if u then (if w ≤ b.toNat then 0 else a >>> b.toNat) else a.sshiftRight (min b.toNat w)⟩,
   ⟨.vsat, clsFI, 2, fun f a b => if fmtFloat f then laneSat f a b else clampLane f a b⟩, ⟨.vaddsat, clsI, 2, addSaturated⟩]

/-- A vector instruction with one row source, with its class, latency and lane function (R208, R212, R219, R221). -/
structure VectorUnary where
  form : BitVec 5 → BitVec 5 → BitVec 4 → BitVec 2 → Instr
  cls  : Nat → Bool
  lat  : Nat
  op   : Nat → Nat → Nat × Flags

/-- The lane of a one-source integer function; a float one by its own. -/
def laneOfOne (fl : Nat → Nat → Nat × Flags) (int : (w : Nat) → Bool → BitVec w → BitVec w) (f a : Nat) : Nat × Flags :=
  if fmtFloat f then fl f a else ((int (fmtBits f) (fmtUnsigned f) (BitVec.ofNat _ a)).toNat, 0)

/-- A float element with its sign bit replaced; a NaN becomes the canonical one (R96). -/
def floatWithSign (neg : Bool → Bool) (f a : Nat) : Nat × Flags :=
  if fisNaN (fval f a) then (floatNaN (floatFmt f), snanFlag f a)
  else
    let v := BitVec.ofNat (fmtBits f) a
    ((BitVec.ofNat (fmtBits f) (v.toNat % 2 ^ (fmtBits f - 1)) ||| if neg v.msb then BitVec.twoPow _ (fmtBits f - 1) else 0).toNat, 0)

/-- The one-source instructions of VEC0 and VEC1. -/
def vectorUnary : List VectorUnary :=
  [⟨.vabs, clsFI, 2, laneOfOne (floatWithSign fun _ => false) fun _ u a => if u then a else if a.slt 0 then -a else a⟩,
   ⟨.vneg, clsFI, 2, laneOfOne (floatWithSign fun s => !s) fun _ _ a => -a⟩, ⟨.vmov, clsA, 2, fun _ a => (a, 0)⟩,
   ⟨.vrcp, clsF, 14, specRcp⟩, ⟨.vsqrt, clsF, 14, specSqrt⟩, ⟨.vrsqrt, clsF, 14, specRsqrt⟩, ⟨.vexp2, clsF, 14, specExp2⟩,
   ⟨.vlog2, clsF, 14, specLog2⟩, ⟨.vexp, clsF, 14, specComposite f32Exp⟩, ⟨.vtanh, clsF, 14, specComposite f32Tanh⟩,
   ⟨.vsigm, clsF, 14, specComposite f32Sigm⟩, ⟨.vgelu, clsF, 14, specComposite f32Gelu⟩, ⟨.vsilu, clsF, 14, specComposite f32Silu⟩]

/-- The word completes with a row result in flight, when its destination has a place. -/
def LandsRow (s : State) (i : Instr) (tk : BitVec 2) (t : State) (d : BitVec 5) (tag : Nat) (row : Row) (m : Option Mask) (fl : Flags) (lat : Nat) :
    Prop := ∀ u, landVec (issueCtx s i tk) d tag row m fl lat t = .ok ((), u) → exec i s = .next (endWord s i tk true u)

/-- A guarded word whose guard selects no lane retires with its token actions alone (R210). -/
def RetiresIdle (s : State) (i : Instr) (tk : BitVec 2) (t : State) : Prop :=
  exec i s = .next (endWord s i tk true (retire t s.cur.uid s.cur.q (pushOf t s.cur.uid s.cur.q (tokSlot s.acting tk).push)))

/-- The word completes with a predicate in flight for p(n), with flags. -/
def LandsMask (s : State) (i : Instr) (tk : BitVec 2) (t : State) (n : Nat) (m : Mask) (fl : Flags) (lat : Nat) : Prop :=
  ∀ u, addLanding (issueCtx s i tk) { (issueCtx s i tk).entry .pred n lat (m.setWidth 8192) with flg := fl } t = .ok ((), u) →
    exec i s = .next (endWord s i tk true u)

/-- The comparisons by code: equal, less, less or equal, a NaN unordered (R95, R219). -/
def laneOrder (code f a b : Nat) : Bool :=
  if fmtFloat f then
    match code with
    | 0 => feq (fval f a) (fval f b)
    | 1 => flt (fval f a) (fval f b)
    | _ => flt (fval f a) (fval f b) || feq (fval f a) (fval f b)
  else
    match code with
    | 0 => a == b
    | 1 => decide (elemInt f a < elemInt f b)
    | _ => decide (elemInt f a ≤ elemInt f b)

/-- An exact integer clamped to the range of a result tag (R102). -/
def clampTo (f : Nat) (x : Int) : Nat × Flags :=
  let lo : Int := if fmtUnsigned f then 0 else -2 ^ (fmtBits f - 1)
  let hi : Int := if fmtUnsigned f then 2 ^ fmtBits f - 1 else 2 ^ (fmtBits f - 1) - 1
  ((BitVec.ofInt (fmtBits f) (max lo (min hi x))).toNat, if lo ≤ x ∧ x ≤ hi then 0 else flagSATN)

/-- The lanes that a guard selects. -/
def chosen (g : Mask) (f : Nat) : List Nat := (List.range (laneCount f)).filter fun k => g.getLsbD k

/-- The tag of a sum: `f32` for floats, `i64` of itself, `ui32` for unsigned and `i32` for the other signed tags (R227). -/
def tagOfSum (f : Nat) : Nat := if fmtFloat f then 8 else if f = 4 then 4 else if fmtUnsigned f then 7 else 3

/-- The greatest or the least of the selected lanes of an integer tag, from the identity (R227). -/
def extremeOf (isMax : Bool) (f : Nat) (g : Mask) (xs : List Nat) : Nat :=
  let lo : Int := if fmtUnsigned f then 0 else -2 ^ (fmtBits f - 1)
  let hi : Int := if fmtUnsigned f then 2 ^ fmtBits f - 1 else 2 ^ (fmtBits f - 1) - 1
  let vs := (chosen g f).map fun k => elemInt f (laneAt xs k)
  (BitVec.ofInt (fmtBits f) (if isMax then vs.foldl max lo else vs.foldl min hi)).toNat

/-- A reduction, with its class and its result: tag, value and flags (R227). -/
structure VectorReduction where
  form : BitVec 5 → BitVec 5 → BitVec 4 → BitVec 2 → Instr
  cls  : Nat → Bool
  op   : Nat → Mask → List Nat → Nat × Nat × Flags

/-- The reductions of VEC3 with one source, each of latency 6 (R227, R228). -/
def vectorReductions : List VectorReduction :=
  [⟨.vrsum, clsFI, fun f g xs => if fmtFloat f then sumLanes f g xs else (tagOfSum f, clampTo (tagOfSum f) ((chosen g f).map fun k => elemInt f (laneAt xs k)).sum)⟩,
   ⟨.vrmax, clsFI, fun f g xs => if fmtFloat f then extremeLanes true f g xs else (f, extremeOf true f g xs, 0)⟩,
   ⟨.vrmin, clsFI, fun f g xs => if fmtFloat f then extremeLanes false f g xs else (f, extremeOf false f g xs, 0)⟩,
   ⟨.vrand, clsI, fun f g xs => (f, ((chosen g f).map (laneAt xs)).foldl (· &&& ·) (2 ^ fmtBits f - 1), 0)⟩,
   ⟨.vror, clsI, fun f g xs => (f, ((chosen g f).map (laneAt xs)).foldl (· ||| ·) 0, 0)⟩,
   ⟨.vpcnt, clsM, fun f g xs => (3, (chosen g f).countP fun k => laneAt xs k != 0, 0)⟩]

/-! ## Host forms, harts and the external host -/

/-- The hart that acts. -/
def State.actingHart (s : State) : HartState := getHart s s.cur.hart

/-- A hart stands in no wait: in none of a form, and in none of a request that waits in a controller's queue (R339, R401). -/
def HartFree (s : State) : Prop := s.actingHart.waiting = none ∧ hartQueued s s.cur.hart = false

/-- A form runs: its hart stands in no wait, its word is legal, and the port holds the running thread's state (R86, R323). -/
def FormRuns (s : State) (p : BitVec 1) (d : BitVec 5) : Prop := HartFree s ∧ (p = 0 → d = 0) ∧ portBound s.actingHart = true

/-- A form completes in a state with its reply word: the hart goes on at its next instruction, and rd takes the reply when the reply bit is 1 (R325). -/
def Answers (s : State) (i : Instr) (p : BitVec 1) (d : BitVec 5) (t : State) (v : Word) : Prop :=
  exec i s = .next (modHart t s.cur.hart fun h => { (if p = 1 then h.setReg d v else h) with pc := h.pc + 4, waiting := none })

/-- A form stands in a wait (R339). -/
def StandsIn (s : State) (i : Instr) (p : BitVec 1) (d : BitVec 5) (t : State) (w : HostWait) : Prop :=
  exec i s = .next (modHart t s.cur.hart fun h => { h with waiting := some { what := w, reply := p == 1, rd := d } })

/-- The continuation that the acting hart's port names and that lives. -/
def PortHas (s : State) (c : Nat) : Prop :=
  s.actingHart.port.cont ≠ 0xFFFFFFFF ∧ c = s.actingHart.port.cont.toNat ∧ (getCont s c).live = true

/-- A continuation that its forms act on: neither terminated nor in a failed partition (R326, R355). -/
def Sound (s : State) (c : Nat) : Prop := (getCont s c).terminated = none ∧ partitionFailed s c = false

/-- The port names no continuation that the device has terminated. -/
def Living (s : State) : Prop := ∀ c, PortHas s c → (getCont s c).terminated = none

/-- A hart takes an exception: it saves its pc, cause and value, leaves user mode, and goes on where the model leaves it free (R86). -/
def Excepts (s : State) (hart cause : Nat) (v : Word) (t : State) : Prop :=
  t.mem = s.mem ∧ ∃ a, getHart t hart = { getHart s hart with
    scause := BitVec.ofNat 64 cause, sepc := (getHart s hart).pc, stval := v, pc := a, user := false, waiting := none }

/-- A hart stands in no wait: in none of a form, and in none of a request that waits in a controller's queue (R339, R401). -/
def HartActs (s : State) (hart : Nat) : Prop := (getHart s hart).waiting = none ∧ hartQueued s hart = false

/-- A state in which a hart's requests for bytes have been charged to their controllers (R400). -/
def hartCharged (s : State) (hart : Nat) (ps : List Nat) : State := meterPlaces s (agentOf s hart) (ps.map Place.mem)

/-- What a hart's access comes to that reaches its bytes without a race: the given change, and the hart at its next instruction (R278). -/
def Accesses (s : State) (hart : Nat) (acc : HartAcc) (t : State) : Prop :=
  exec (.hartAccess hart acc) s = .next (modHart t hart fun h => { h with pc := h.pc + 4 })

/-! ## Commands of engines -/

/-- A command's result element is pushed: to the tail, the oldest discarded when 16 wait, which the new one says (R185). -/
def ResultPushed (s t : State) (e : Eng) (c : EngCmd) (stat done : Nat) : Prop :=
  let old := ((getSeq s c.uid c.issuer).eq e).results
  ∃ rel, ((getSeq t c.uid c.issuer).eq e).results = (if 16 ≤ old.length then old.drop 1 else old) ++
    [{ word := resultWord stat (decide (16 ≤ old.length)) e c done, rel := some rel }]

/-- A command completes for its issuer: its result element, its token, the event flag (R66, R158, R185). -/
def Delivered (s t : State) (e : Eng) (c : EngCmd) (stat done : Nat) : Prop :=
  ResultPushed s t e c stat done ∧ (getSeq t c.uid c.issuer).event = true ∧
  (∀ p, c.push = some p → ∃ rel, tokensOf (getUnit t c.uid) c.issuer p = tokensOf (getUnit s c.uid) c.issuer p ++ [rel]) ∧
  (c.push = none → (getUnit t c.uid).tokens = (getUnit s c.uid).tokens) ∧
  (getSeq t c.uid c.issuer).fl.faults = (getSeq s c.uid c.issuer).fl.faults

/-- A command fails for its issuer: its result element, no token, its queue stopped, the fault at the next boundary (R186). -/
def FailureDelivered (s t : State) (e : Eng) (c : EngCmd) (stat done cause : Nat) : Prop :=
  ResultPushed s t e c stat done ∧ ((getSeq t c.uid c.issuer).eq e).stopped = true ∧
  (getUnit t c.uid).tokens = (getUnit s c.uid).tokens ∧
  ∃ v, (getSeq t c.uid c.issuer).fl.faults = (getSeq s c.uid c.issuer).fl.faults ++ [{ cause := cause, tval := v, eng := some e, race := none }]

/-- The pieces of a class that wait at a port, in order. -/
def waitingOf (p : PortState) (cls : Nat) : List Piece := p.waiting.filter fun w => w.cls == cls

/-- What a port that sends what it may leaves (R425, R426): of each class what stood last, all of a paused class, nothing of another but class 0, whose window admits no more. -/
def SendsWaiting (p r : PortState) : Prop :=
  r.paused = p.paused ∧ r.buffers = p.buffers ∧ (∀ c, ∃ k, waitingOf r c = (waitingOf p c).drop k) ∧ (∀ c ∈ p.paused, waitingOf r c = waitingOf p c) ∧
  (∀ c, c ≠ 0 → c ∉ p.paused → waitingOf r c = []) ∧ (p.window ≤ 11200 → r.window ≤ 11200) ∧
  r.window + total ((waitingOf r 0).map (·.bytes)) = p.window + total ((waitingOf p 0).map (·.bytes)) ∧
  (0 ∉ p.paused → ∀ w rest, waitingOf r 0 = w :: rest → 11200 < r.window + w.bytes)

/-- The bytes of a class's buffer. -/
def heldBytes (p : PortState) (cls : Nat) : Nat := 256 * ((tabGet p.buffers cls).getD []).length

/-- The pauses that a port has sent stand by what its buffers hold (R426). -/
def PausesStand (p : PortState) : Prop := ∀ c < 4, (49152 < heldBytes p c → c ∈ p.sentPause) ∧ (heldBytes p c < 32768 → c ∉ p.sentPause)

/-! ## The firmware interface -/

/-- A command of the firmware interface ends with a status and a payload, in the given state (R442). -/
def Replies (s : State) (i : Instr) (status : Nat) (bs : List Byte) (t : State) : Prop :=
  exec i s = .next { t with boot := { t.boot with reply := (status, bs) } }


/-! ## Attestation -/

/-- A request of SPDM is answered in a state with what the manual says its response carries, then what SPDM itself says (R443). -/
def AnswersSpdm (s : State) (i : Instr) (req : Nat) (front : List Byte) (t : State) : Prop :=
  exec i s = .next { t with free := t.free + 1, boot := { t.boot with reply := (0, front ++ Config.spdmBody req t.boot.identity t.free) } }

/-! ## Frames -/

/-- What a word may write: scalar registers, predicates and handles of its sequencer, and bytes of memory; whether it sets exception flags, writes
accumulator rows, changes the swizzle tags of partitions, X's window, loop and compaction state, or its sequencer's settings and trap registers. -/
structure Touches where
  regs    : List Nat := []
  preds   : List Nat := []
  handles : List Nat := []
  bytes   : Nat → Prop := fun _ => False
  flags   : Bool := false
  rows    : Bool := false
  tags    : Bool := false
  xs      : Bool := false
  sets    : Bool := false

/-- The sequencer's handler can be entered, and no pour is under way. -/
def Steady (s : State) : Prop := s.acting.tr.tvec ≠ BitVec.allOnes 64 ∧ s.acting.tr.tstat.getLsbD 0 = false ∧ s.acting.fl.pour = none

/-- A result of a kind is in flight for a register of the sequencer that acts. -/
def LandsAt (s : State) (k : LandKind) (n : Nat) : Prop := ∃ e ∈ s.acting.fl.running, e.kind = k ∧ e.dst = n

/-- A store of the sequencer that acts has issued and waits to write a byte. -/
def WaitsToWrite (s : State) (x : Nat) : Prop := ∃ o ∈ s.acting.fl.stores, ∃ y ∈ o.bytes, y.1 = Place.mem x

/-- What a word leaves as it was, in the next state t: everything but what it reaches, what lands or is stored at the end of its cycle, the queues, tokens
and waits of its unit, and the registers of a trap that it takes. -/
structure Leaves (s : State) (r : Touches) (t : State) : Prop where
  memory   : s.MemOk → ∀ x, ¬ WaitsToWrite s x → ¬ r.bytes x → memGet t.mem x = memGet s.mem x
  regs     : ∀ n, n ∉ r.regs → ¬ LandsAt s .scalar n → (getSeq t s.cur.uid s.cur.q).regs[n]? = s.acting.regs[n]?
  preds    : ∀ n, n ∉ r.preds → ¬ LandsAt s .pred n → (getSeq t s.cur.uid s.cur.q).preds[n]? = s.acting.preds[n]?
  handles  : ∀ n, n ∉ r.handles → ¬ LandsAt s .handle n → (getSeq t s.cur.uid s.cur.q).handles[n]? = s.acting.handles[n]?
  trap     : r.sets = false → (getSeq t s.cur.uid s.cur.q).tr = s.acting.tr ∨
    ∃ (cause tval : Word) (tkp : Bool), (getSeq t s.cur.uid s.cur.q).tr = { s.acting.tr with
      tcause := cause, tval := tval, tepc := s.acting.pc, tvc := s.acting.vc, tstat := if tkp then 5 else 1 } ∧
      (getSeq t s.cur.uid s.cur.q).pc = s.acting.tr.tvec
  setting  : r.sets = false → (getSeq t s.cur.uid s.cur.q).slots = s.acting.slots ∧ (getSeq t s.cur.uid s.cur.q).dbg = s.acting.dbg ∧
    (getSeq t s.cur.uid s.cur.q).status = s.acting.status ∧ (getSeq t s.cur.uid s.cur.q).event = s.acting.event ∧
    (getSeq t s.cur.uid s.cur.q).dq.src = s.acting.dq.src ∧ (getSeq t s.cur.uid s.cur.q).dq.snk = s.acting.dq.snk ∧
    (getSeq t s.cur.uid s.cur.q).dq.target = s.acting.dq.target
  flags    : r.sets = false → ∀ k, (getUnit s s.cur.uid).aflags.getLsbD k = true → (getUnit t s.cur.uid).aflags.getLsbD k = true
  noFlags  : r.flags = false → (∀ e ∈ s.acting.fl.running, e.flg = 0) → s.acting.dq.src = 0 → s.acting.dq.snk = 0 →
    (getUnit t s.cur.uid).aflags = (getUnit s s.cur.uid).aflags
  window   : (r.xs = false → (getUnit t s.cur.uid).xs = (getUnit s s.cur.uid).xs) ∧ (getUnit t s.cur.uid).ident = (getUnit s s.cur.uid).ident
  rows     : r.rows = false → (∀ e ∈ s.acting.fl.running, e.kind ≠ .row) → s.acting.fl.stores = [] → t.cores = s.cores
  beside   : ∀ q, q ≠ s.cur.q → ∃ fs ps, getSeq t s.cur.uid q = (getSeq s s.cur.uid q).modFl fun f => { f with faults := fs, pushes := ps }
  others   : ∀ v, v ≠ s.cur.uid → ∃ g, getUnit t v = { getUnit s v with place := { (getUnit s v).place with tags := g } } ∧
    (r.tags = false → g = (getUnit s v).place.tags)
  rest     : t.conts = s.conts ∧ t.harts = s.harts ∧ t.sched = s.sched ∧ t.group = s.group ∧ t.power = s.power ∧ t.boot = s.boot ∧ t.cur = s.cur

/-- Whatever a word comes to where its handler can be entered, it leaves the rest as it was. -/
def FrameOf (i : Instr) (r : State → Touches) : Prop := ∀ s t, Steady s → exec i s = .next t → Leaves s (r s) t

/-- The scalar words that write rd and nothing else. -/
def scalarWords (d a b : BitVec 6) (i : BitVec 10) (k : BitVec 19) (o : BitVec 11) (z : BitVec 2) (tk : BitVec 2) : List Instr :=
  (aluBinary.map fun w => w.1 d a b tk) ++ (aluUnary.map fun w => w.1 d a tk) ++ (aluImmediate.map fun w => w.1 d a i tk) ++
    [.movhi d k tk, .mfs d a tk, .vcyc d tk, .ident d a tk, .enrd d a tk, .gceil d tk, .ld d a o z tk, .lds d a o z tk, .ptos d a b tk, .pall d a b tk,
     .pany d a b tk, .tkcnt d a tk, .qpeek d a tk, .qcnt d a tk]

/-- The words that write no register, nor memory: branches and jumps. -/
def branchWords (a : BitVec 6) (o : BitVec 15) (k : BitVec 25) (tk : BitVec 2) : List Instr :=
  (scalarBranches.map fun w => w.1 a o tk) ++ [.nop tk, .bp a o tk, .bnp a o tk, .bq o tk, .bnq o tk, .jmp k tk]

/-- The words that write a predicate and nothing else. -/
def predicateWords (d a b : BitVec 6) (tk : BitVec 2) : List Instr :=
  (predicateBinary.map fun w => w.1 d a b tk) ++ (predicateUnary.map fun w => w.1 d a tk) ++ [.pset d a b tk]

/-- The words that write a handle and nothing else. -/
def handleWords (d a k : BitVec 4) (x : BitVec 6) (tk : BitVec 2) : List Instr :=
  [.hmov d a tk, .hld d x tk, .hsetb d a x tk, .hsetd d a k x tk, .hsets d a k x tk, .hsetf d a x tk, .hoff d a k x tk, .hsub d a x tk, .hclr d tk]

/-- The bytes that an access of n bytes to an address writes (R146, R301): the places of the address, or, collected, bytes of the stages of the open levels of
the unit (R306). -/
def storedBytes (s : State) (k : AccKind) (va : Word) (n x : Nat) : Prop :=
  if collectsWrite (getUnit s s.cur.uid) (getSeq s s.cur.uid s.cur.q) va then
    ∃ l ∈ (getUnit s s.cur.uid).levels, spadPa (getUnit s s.cur.uid) l.stage ≤ x ∧ x < spadPa (getUnit s s.cur.uid) (l.stage + l.stageN * 4096)
  else ∃ ps, locateN s s.cur.uid va k n = .ok ps ∧ Place.mem x ∈ ps

/-- The state that the token pop of a word's slot leaves, after the pushes that waited at retirement were made (R66). -/
def PopsTo (s : State) (tk : BitVec 2) (p : State) : Prop :=
  let t := flushPushes 64 s s.cur.uid s.cur.q
  tokenPop t s.cur.uid s.cur.q (tokSlot (getSeq t s.cur.uid s.cur.q) tk) = some p

/-- The bytes that `ST` reaches: those of s[ra] + off11 × size, from the state in which both sources are read (R146). -/
def stBytes (d a : BitVec 6) (o : BitVec 11) (z : BitVec 2) (tk : BitVec 2) (s : State) (x : Nat) : Prop :=
  ∃ p base v t0, PopsTo s tk p ∧ rs2 (issueCtx s (.st d a o z tk) tk) a d (bodyState s p) = .ok ((base, v), t0) ∧
    storedBytes t0 .write (base + o.signExtend 64 * BitVec.ofNat 64 (2 ^ z.toNat)) (2 ^ z.toNat) x

/-- The bytes that `HST` reaches: the 32 from s[ra], from the state in which it is read (R181). -/
def hstBytes (a : BitVec 4) (r : BitVec 6) (tk : BitVec 2) (s : State) (x : Nat) : Prop :=
  ∃ p h va t0, PopsTo s tk p ∧ rh (issueCtx s (.hst a r tk) tk) a.toNat (bodyState s p) = .ok (h, bodyState s p) ∧
    rs (issueCtx s (.hst a r tk) tk) r (bodyState s p) = .ok (va, t0) ∧ storedBytes t0 .write va 32 x

/-- The bytes that an atomic reaches: those of its word, or, collected, bytes of the stages of the open levels of the unit; none for a load (R284, R306). -/
def atomBytes (f : AtomicForm) (a : BitVec 5) (s : State) (x : Nat) : Prop :=
  ∃ p va v t0 w t1, PopsTo s 0 p ∧ rs2 (issueCtx s f.instr 0) a f.b (bodyState s p) = .ok ((va, v), t0) ∧
    (if f.fn = 3 then rs (issueCtx s f.instr 0) f.d else pure 0) t0 = .ok (w, t1) ∧ f.fn ≠ 0 ∧ storedBytes t1 .atomic va (if f.w32 then 4 else 8) x

/-- The bytes that a vector store reaches: those of its image in the partition that its row pointer names (R214). -/
def vstBytes (i : Instr) (f : VForm) (a : BitVec 6) (imm : Nat) (tk : BitVec 2) (s : State) (x : Nat) : Prop :=
  ∃ p v t0 o, PopsTo s tk p ∧ rs (issueCtx s i tk) a (bodyState s p) = .ok (v, t0) ∧
    pointerOwner t0 s.cur.uid (rowPtr v).seg (rowPtr v).core = some o ∧
    ∃ z ∈ (storeImage f (rowPtr v) imm (rowElems (rowPtr v).fmt 0)).map Prod.fst, x = spadPa (getUnit t0 o) z

/-- The first n bytes of a pool, for a unit (R297). -/
def poolBytes (s : State) (uid : Nat) (pool : Word) (n x : Nat) : Prop := ∃ ps, locateN s uid pool .write n = .ok ps ∧ Place.mem x ∈ ps

/-- The bytes that `CKDROP` writes: the first word of the header of the pool that its handle names (R312). -/
def ckdropBytes (a : BitVec 4) (tk : BitVec 2) (s : State) (x : Nat) : Prop :=
  ∃ p h, PopsTo s tk p ∧ rh (issueCtx s (.ckdrop a tk) tk) a.toNat (bodyState s p) = .ok (h, bodyState s p) ∧
    poolBytes (bodyState s p) s.cur.uid (ckPool h) 8 x

/-- The bytes that `CKSEAL` writes: the header and records of the innermost level, in its pool (R309). -/
def cksealBytes (tk : BitVec 2) (s : State) (x : Nat) : Prop :=
  ∃ p l, PopsTo s tk p ∧ (getUnit (bodyState s p) s.cur.uid).levels.head? = some l ∧
    poolBytes (bodyState s p) s.cur.uid l.pool (levelImage (getUnit (bodyState s p) s.cur.uid).ident.key.cont l).length x

/-- The bytes that `CKOPEN` of a larger pool writes: the header and records of the level, in the pool that its second handle names (R308). -/
def ckgrowBytes (d a : BitVec 4) (tk : BitVec 2) (s : State) (x : Nat) : Prop :=
  ∃ p g h l, PopsTo s tk p ∧ rh (issueCtx s (.ckopenGrow d a tk) tk) d.toNat (bodyState s p) = .ok (g, bodyState s p) ∧
    rh (issueCtx s (.ckopenGrow d a tk) tk) a.toNat (bodyState s p) = .ok (h, bodyState s p) ∧
    levelAt (getUnit (bodyState s p) s.cur.uid) (ckLvl g) = some l ∧ poolBytes (bodyState s p) s.cur.uid (ckPool h)
      (levelImage (getUnit (bodyState s p) s.cur.uid).ident.key.cont { l with pool := ckPool h, cap := ckCap h }).length x

/-- The bytes of the regions that the written sides of a command cover whole and give another tag than they have: their words stand in other banks from
then on (R164, R166). -/
def Retagged (s : State) (xs : List Side) (b : Nat) : Prop :=
  ∃ y ∈ xs, y.write = true ∧ ∃ r, coversRegion y.off y.len r = true ∧ regionTag s y.owner r ≠ y.swz ∧
    spadPa (getUnit s y.owner) (4096 * r) ≤ b ∧ b < spadPa (getUnit s y.owner) (4096 * r) + 4096

/-- The handles that a copy or gather command names, the second the destination of `CCPY` (R187, R190). -/
def commandHandles : Instr → Nat × Nat
  | .ccpy h _ _ _ _ => (2 * h.toNat, 2 * h.toNat + 1)
  | .ctld h _ _ _ _ => (h.toNat, h.toNat)
  | .ctst h _ _ _ _ => (h.toNat, h.toNat)
  | .cfill h _ _ _ _ => (h.toNat, h.toNat)
  | .gath h _ _ _ => (h.toNat, h.toNat)
  | .gathp h _ _ _ => (h.toNat, h.toNat)
  | _ => (0, 0)

/-- The written sides in the scratchpad of a copy or gather command that retags, from its handles and its two operand words (R166, R187, R190). -/
def retagSides (s : State) (uid : Nat) (h g : Handle) (x y : Word) : Instr → List Side
  | .ctld _ _ _ _ _ => (tileSide s uid h (tilePtr y) true).toList
  | .ctst _ _ _ _ _ => tensorSide s uid h (coordOf x) ⟨(tilePtr y).t0, (tilePtr y).t1, 1, 1⟩ true
  | .ccpy _ _ _ _ _ => tensorSide s uid g (coordOf y) (restOf h (coordOf x)) true
  | .cfill _ _ _ _ _ => tensorSide s uid h (coordOf x) (restOf h (coordOf x)) true
  | .gath _ _ _ _ => ((gatherSides s uid 0 h x y).map fun z => z.2.take 1).getD []
  | .gathp _ _ _ _ => ((gatherSides s uid 2 h x y).map fun z => z.2.take 1).getD []
  | _ => []

/-- The bytes whose banks a copy or gather command changes as it issues, from the state in which its operands are read (R164, R166). -/
def retagBytes (i : Instr) (a b : BitVec 6) (tk : BitVec 2) (s : State) (x : Nat) : Prop :=
  ∃ p h g v w t0, PopsTo s tk p ∧ rh (issueCtx s i tk) (commandHandles i).1 (bodyState s p) = .ok (h, bodyState s p) ∧
    rh (issueCtx s i tk) (commandHandles i).2 (bodyState s p) = .ok (g, bodyState s p) ∧
    rs2 (issueCtx s i tk) a b (bodyState s p) = .ok ((v, w), t0) ∧ Retagged t0 (retagSides t0 s.cur.uid h g v w i) x

end Sys2Proof.Machine
end

