-- ==== Sys2Proof/Certificates/Slice0/Obligations.lean ====
section
/-!
DEFINITION. The statements about this model that the provers prove, each with the rules of the manual it formalises.
-/

open Sys2Proof Sys2Proof.Machine

/-- A scalar source reads 0 for s0 and s61, pops the incoming queue for s60, and reads its register otherwise. For every sequencer and every
scalar source: s0 and s61 read 0 with no queue action; s60 freezes while dqin is empty and, with both formats raw and no release on the
entry, takes its head; any other name, with register checks off, reads the register. Two sources are read ra first (R122). -/
def Obligations.ScalarSourcesByName : Prop :=
  ∀ (c : Ctx) (r r' : BitVec 6) (s : State),
    ((r.toNat = 0 ∨ r.toNat = 61) → rs c r s = .ok (0, s)) ∧
    (r.toNat = 60 → (getSeq s c.uid c.q).dq.dqin = [] → rs c r s = .error (.freeze (.queue 8) none)) ∧
    (∀ e rest, r.toNat = 60 → (getSeq s c.uid c.q).dq.dqin = e :: rest → e.acq = none →
      (getSeq s c.uid c.q).dq.src = 0 → (getSeq s c.uid c.q).dq.snk = 0 →
      rs c r s = .ok (e.val, modUnit (modSeq s c.uid c.q fun sq => { sq with dq := { sq.dq with dqin := rest } }) c.uid
        fun u => { u with aflags := u.aflags ||| 0 })) ∧
    (r.toNat ≠ 0 → r.toNat ≠ 60 → r.toNat ≠ 61 → (getSeq s c.uid c.q).dbg.getLsbD 0 = false →
      rs c r s = .ok ((getSeq s c.uid c.q).regs[r.toNat]?.getD 0, s)) ∧
    (∀ x u y v, rs c r s = .ok (x, u) → rs c r' u = .ok (y, v) → rs2 c r r' s = .ok ((x, y), v))

/-- A scalar result is put in flight at issue; for s61 it reserves a dqout entry, which fits or freezes the word. For every context,
destination, value and latency: a destination other than s61 appends one landing entry with the destination, value, latency and the word's
push; s61 with 16 entries in dqout freezes the word, and with fewer appends a dqout entry, unfilled and aimed at the present target, and a
landing entry that fills it (R137). -/
def Obligations.ScalarResultsGoInFlight : Prop :=
  ∀ (c : Ctx) (d lat : Nat) (v : Word) (s : State),
    (d ≠ 61 → ∃ e : Landing, landScalar c d v lat s = .ok ((), inFlight s c.uid c.q e) ∧
      e.kind = .scalar ∧ e.dst = d ∧ e.payload.setWidth 64 = v ∧ e.rem = lat + 1 ∧ e.ord = c.vc.setWidth 32 ∧
      e.push = pushOf s c.uid c.q c.push) ∧
    (16 ≤ (getSeq s c.uid c.q).dq.dqout.length → landScalar c 61 v lat s = .error (.freeze (.queue 9) none)) ∧
    ((getSeq s c.uid c.q).dq.dqout.length < 16 → ∃ (e : Landing) (n : Nat),
      landScalar c 61 v lat s = .ok ((), inFlight (reserveDqout s c.uid c.q n) c.uid c.q e) ∧
      e.kind = .dqout ∧ e.rid = n ∧ e.payload.setWidth 64 = v ∧ e.rem = lat + 1 ∧
      n ∉ (getSeq s c.uid c.q).dq.dqout.map (·.rid))

/-- Every register form of the scalar instructions computes the result that its row of the table gives. For every instruction of major 0x01,
every destination and source, in every state in which the word issues and its sources are read: the step answers the end of the word with
the result of the rule put in flight for rd at the word's latency. The table names ADD to POPC, among them division by 0 and of -2^63 by -1
(R143). -/
def Obligations.AluRegisterResults : Prop :=
  (∀ r ∈ aluBinary, ∀ (s p t0 t : State) (d a b : BitVec 6) (tk : BitVec 2) (x y : Word), Issues s (r.1 d a b tk) tk p →
    rs2 (issueCtx s (r.1 d a b tk) tk) a b (bodyState s p) = .ok ((x, y), t0) →
    landScalar (issueCtx s (r.1 d a b tk) tk) d.toNat (r.2.2 x y) r.2.1 t0 = .ok ((), t) →
    exec (r.1 d a b tk) s = .next (endWord s (r.1 d a b tk) tk true t)) ∧
  (∀ r ∈ aluUnary, ∀ (s p t0 t : State) (d a : BitVec 6) (tk : BitVec 2) (x : Word), Issues s (r.1 d a tk) tk p →
    rs (issueCtx s (r.1 d a tk) tk) a (bodyState s p) = .ok (x, t0) →
    landScalar (issueCtx s (r.1 d a tk) tk) d.toNat (r.2 x) 1 t0 = .ok ((), t) →
    exec (r.1 d a tk) s = .next (endWord s (r.1 d a tk) tk true t))

/-- Every immediate form of the scalar instructions and MOVHI computes the result that its rule gives. For ADDI, ANDI, ORI, XORI, SLTI, SLLI,
SRLI and SRAI, and for MOVHI, every destination, source and immediate, in every state in which the word issues and its source is read: the
step answers the end of the word with the result of the rule in flight for rd at latency 1. A shift amount of 64 or more is illegal: such a
word takes the illegal-instruction trap, once no earlier push waits (R144, R145). -/
def Obligations.AluImmediateResults : Prop :=
  (∀ r ∈ aluImmediate, ∀ (s p t0 t : State) (d a : BitVec 6) (k : BitVec 10) (tk : BitVec 2) (x : Word), Issues s (r.1 d a k tk) tk p →
    rs (issueCtx s (r.1 d a k tk) tk) a (bodyState s p) = .ok (x, t0) →
    landScalar (issueCtx s (r.1 d a k tk) tk) d.toNat (r.2 x k) 1 t0 = .ok ((), t) →
    exec (r.1 d a k tk) s = .next (endWord s (r.1 d a k tk) tk true t)) ∧
  (∀ (s p t : State) (d : BitVec 6) (k : BitVec 19) (tk : BitVec 2), Issues s (.movhi d k tk) tk p →
    landScalar (issueCtx s (.movhi d k tk) tk) d.toNat (k.signExtend 64 * 1024) 1 (bodyState s p) = .ok ((), t) →
    exec (.movhi d k tk) s = .next (endWord s (.movhi d k tk) tk true t)) ∧
  (∀ f ∈ [Instr.slli, Instr.srli, Instr.srai], ∀ (s : State) (d a : BitVec 6) (k : BitVec 10) (tk : BitVec 2),
    canIssue s s.cur.uid s.cur.q = true → (getSeq s.flushed s.cur.uid s.cur.q).fl.pushes = [] → 64 ≤ k.toNat →
    exec (f d a k tk) s = .next (takeTrap s.flushed s.cur.uid s.cur.q 1 ((wordOf (f d a k tk)).setWidth 64) (wordOf (f d a k tk)) false none))

/-- MFS, VCYC, IDENT, GCEIL and ENRD write rd with the special register, the clock, the identifier, the ceiling word and the energy reading. For
every destination, selector and state in which the word issues: MFS n puts special register n in flight for rd, VCYC the virtual clock at
issue, IDENT n identifier n, and GCEIL a word with the group ceiling in [15:0], the effective clock in [31:16] and the membership state in
[34:32]. Three clauses are the model's choice: the layout of the launch and phase identifiers (log 12), IDENT 9 read live while the device
is a member (log 85), and the budgets of ENRD 4 and 5 before the arbiter's first period (log 86). ENRD: selector 0 gives the continuation's
charge, 1 its quota left, or 2^63 - 1 without a quota, 2 the unit's energy, 3 the level that the cluster has or moves to, 4 and 5 the bytes
that the die's HBM and DDR controllers have not yet charged against their budgets (R154, R155, R157, R402, R410, R411). -/
def Obligations.SystemReadsReturnTheirRegister : Prop :=
  (∀ (d n : BitVec 6) (tk : BitVec 2), Returns (.mfs d n tk) tk d 1 fun c s => (specialRegisters (getUnit s c.uid) c.q)[n.toNat]?.getD 0) ∧
  (∀ (d : BitVec 6) (tk : BitVec 2), Returns (.vcyc d tk) tk d 1 fun c s => (getSeq s c.uid c.q).vc) ∧
  (∀ (d n : BitVec 6) (tk : BitVec 2), Returns (.ident d n tk) tk d 1 fun c s =>
    BitVec.ofNat 64 ((identifiers s (getUnit s c.uid))[n.toNat]?.getD 0)) ∧
  (∀ (d : BitVec 6) (tk : BitVec 2) (s p t : State) (v : Word), Issues s (.gceil d tk) tk p →
    landScalar (issueCtx s (.gceil d tk) tk) d.toNat v 1 (bodyState s p) = .ok ((), t) →
    v.extractLsb' 0 16 = BitVec.ofNat 16 (bodyState s p).group.ceiling →
    v.extractLsb' 16 16 = BitVec.ofNat 16 (effectiveClock (bodyState s p) ((getUnit (bodyState s p) s.cur.uid).place.core / 4)) →
    v.extractLsb' 32 3 = BitVec.ofNat 3 (bodyState s p).group.state → v.extractLsb' 35 29 = 0 →
    exec (.gceil d tk) s = .next (endWord s (.gceil d tk) tk true t)) ∧
  ∀ (d n : BitVec 6) (tk : BitVec 2), Returns (.enrd d n tk) tk d 1 fun c s =>
    let u := getUnit s c.uid
    let e := (getCont s u.ident.key.cont).energy
    let k := getCluster s (u.place.core / 4)
    match n.toNat with
    | 0 => BitVec.ofNat 64 e.charged
    | 1 => if e.quota = 0 then BitVec.ofNat 64 (2 ^ 63 - 1) else BitVec.ofInt 64 e.left
    | 2 => BitVec.ofNat 64 u.energy
    | 3 => BitVec.ofNat 64 (k.moving.getD k.bias)
    | 4 => BitVec.ofNat 64 (unspent s (u.place.core / 192) [0, 1])
    | _ => BitVec.ofNat 64 (unspent s (u.place.core / 192) [2, 3, 4, 5])

/-- MTS, DBGPEND, SEV, TKCFG, PACE, NOP and HALT change the register that their rule names and nothing else at issue. In every state in which
the word issues and its source is read: MTS clears the flags whose bits are 1 (register 0) but those that its own read raises (R98), writes
TVEC, TEPC, TVC, WPERM whole, of TSTAT only TKP and ACT, of WPERMH bits 27 to 0 and in X bits 27 to 16, and leaves the read-only registers;
SEV sets the event flags of C, L and S by mask bits 0, 1 and 3; TKCFG writes slot imm[5:4] with the peers of imm[3:2] and imm[1:0]; PACE
takes the lesser of s[ra] and 65535; HALT stops fetch; DBGPEND returns the old mode and sets the new one; NOP does nothing (R97, R98, R154,
R155, R156, R158, R414). -/
def Obligations.SystemWordsChangeTheirRegister : Prop :=
  (∀ (a n : BitVec 6) (tk : BitVec 2) (s p t : State) (v : Word) (fl : Flags), Issues s (.mts a n tk) tk p →
    rsFlags (issueCtx s (.mts a n tk) tk) a (bodyState s p) = .ok ((v, fl), t) →
    exec (.mts a n tk) s = .next (endWord s (.mts a n tk) tk false <| modUnit t s.cur.uid fun u =>
    let x := u.seq s.cur.q
    let u := { u with aflags := u.aflags ||| fl }
    match n.toNat with
    | 0 => { u with aflags := u.aflags &&& ~~~(v.extractLsb' 0 5) ||| fl }
    | 1 => u.setSeq s.cur.q { x with tr := { x.tr with tvec := v } }
    | 4 => u.setSeq s.cur.q { x with tr := { x.tr with tepc := v } }
    | 5 => u.setSeq s.cur.q { x with tr := { x.tr with tstat := (x.tr.tstat &&& 2) ||| (v &&& 5) } }
    | 6 => u.setSeq s.cur.q { x with tr := { x.tr with tvc := v } }
    | 7 => u.setSeq s.cur.q { x with tr := { x.tr with wperm := v } }
    | 8 => u.setSeq s.cur.q { x with tr := { x.tr with wpermh := v &&& (if s.cur.q = .x then 0xFFF0000 else 0xFFFFFFF) } }
    | _ => u.setSeq s.cur.q x)) ∧
  (∀ (m : BitVec 6) (tk : BitVec 2), Effects (.sev m tk) tk fun c s => modUnit s c.uid fun u =>
    withEvents u ((if m.getLsbD 0 then [.c] else []) ++ (if m.getLsbD 1 then [.l] else []) ++ (if m.getLsbD 3 then [.s] else []))) ∧
  (∀ (k : BitVec 6) (tk : BitVec 2), Effects (.tkcfg k tk) tk fun c s => modSeq s c.uid c.q fun x =>
    let slot : TokSlot :=
      { push := (slotPeers c.q)[(k.extractLsb' 2 2).toNat]?.getD none, pop := (slotPeers c.q)[(k.extractLsb' 0 2).toNat]?.getD none }
    { x with slots := x.slots.setIfInBounds ((k.extractLsb' 4 2).toNat - 1) slot }) ∧
  (∀ r ∈ [(16#6, Eng.copy), (17, .gather), (18, .coll), (19, .row), (20, .press)], ∀ (a : BitVec 6) (tk : BitVec 2),
    EffectsFrom (.pace a r.1 tk) tk a fun c v s => modEq s c.uid c.q r.2 fun e =>
      { e with pace := if v.toNat ≤ 65535 then v.setWidth 16 else 0xFFFF }) ∧
  (∀ tk, Effects (.halt tk) tk fun c s => modSeq s c.uid c.q fun x => { x with status := .halting }) ∧
  (∀ tk, Effects (.nop tk) tk fun _ s => s) ∧
  (∀ (d m : BitVec 6) (tk : BitVec 2) (s p t : State), Issues s (.dbgpend d m tk) tk p →
    landScalar (issueCtx s (.dbgpend d m tk) tk) d.toNat ((getSeq (bodyState s p) s.cur.uid s.cur.q).dbg.setWidth 64) 1 (bodyState s p) = .ok ((), t) →
    exec (.dbgpend d m tk) s = .next (endWord s (.dbgpend d m tk) tk true
      (modSeq t s.cur.uid s.cur.q fun x => { x with dbg := m.extractLsb' 0 2 })))

/-- A branch goes to its word plus four times its offset exactly when its condition holds, and else to the next word. For every branch, source
and offset, in every state in which the word issues and its source is read: when the condition is false the turn ends at the next word; when
it is true and the target lies in the section the turn ends there; when it is true and the target does not, the word traps with the target
in TVAL and does not issue. BQ and BNQ take the bit popped from bq and freeze while bq is empty (R148, R151). -/
def Obligations.BranchesFollowTheirCondition : Prop :=
  (∀ r ∈ scalarBranches, ∀ (a : BitVec 6) (o : BitVec 15) (tk : BitVec 2) (s p t : State) (v : Word),
    let i := r.1 a o tk
    let target := s.here + 4 * o.signExtend 64
    Issues s i tk p → rs (issueCtx s i tk) a (bodyState s p) = .ok (v, t) →
    (r.2 v = false → exec i s = .next (endWord s i tk false t)) ∧
    (r.2 v = true → s.hasCode target → exec i s = .next (endWord s i tk false (t.goes target))) ∧
    (r.2 v = true → ¬ s.hasCode target → exec i s = .next (jumpTrap s i target))) ∧
  (∀ r ∈ [(Instr.bp, true), (.bnp, false)], ∀ (a : BitVec 6) (o : BitVec 15) (tk : BitVec 2) (s p t : State) (v : Mask),
    let i := r.1 a o tk
    let target := s.here + 4 * o.signExtend 64
    Issues s i tk p → rp (issueCtx s i tk) a (bodyState s p) = .ok (v, t) →
    (v.getLsbD 0 ≠ r.2 → exec i s = .next (endWord s i tk false t)) ∧
    (v.getLsbD 0 = r.2 → s.hasCode target → exec i s = .next (endWord s i tk false (t.goes target))) ∧
    (v.getLsbD 0 = r.2 → ¬ s.hasCode target → exec i s = .next (jumpTrap s i target))) ∧
  (∀ r ∈ [(Instr.bq, true), (.bnq, false)], ∀ (o : BitVec 15) (tk : BitVec 2) (s p : State),
    let i := r.1 o tk
    let target := s.here + 4 * o.signExtend 64
    Issues s i tk p →
    ((getUnit (bodyState s p) s.cur.uid).bq = [] → exec i s = .next (stopWord p (issueCtx s i tk) (.freeze (.queue 12) none))) ∧
    ∀ b rest, (getUnit (bodyState s p) s.cur.uid).bq = b :: rest →
      let t := modUnit (bodyState s p) s.cur.uid fun u => { u with bq := rest }
      (b ≠ r.2 → exec i s = .next (endWord s i tk false t)) ∧
      (b = r.2 → s.hasCode target → exec i s = .next (endWord s i tk false (t.goes target))) ∧
      (b = r.2 → ¬ s.hasCode target → exec i s = .next (jumpTrap s i target)))

/-- JMP, CALL, JR and CALLR go to their target and link; a target outside the section traps and links nothing. For every jump and every state in
which it issues and its source is read: with its target in the section the turn ends there, and CALL puts the address of the next word in
flight for s62, JR and CALLR for rd, at latency 1; with its target outside, the word traps with the target in TVAL. JMP and CALL go to the
word plus four times the offset, JR to s[ra] plus four times the immediate, CALLR to the word plus s[ra] plus four times the immediate
(R149, R150, R151). -/
def Obligations.JumpsGoToTheirTarget : Prop :=
  (∀ (o : BitVec 25) (tk : BitVec 2) (s p : State),
    let i := Instr.jmp o tk
    let target := s.here + 4 * o.signExtend 64
    Issues s i tk p →
    (s.hasCode target → exec i s = .next (endWord s i tk false ((bodyState s p).goes target))) ∧
    (¬ s.hasCode target → exec i s = .next (jumpTrap s i target))) ∧
  (∀ (o : BitVec 25) (tk : BitVec 2) (s p t : State),
    let i := Instr.call o tk
    let target := s.here + 4 * o.signExtend 64
    Issues s i tk p →
    (s.hasCode target → landScalar { issueCtx s i tk with push := none } 62 (s.here + 4) 1 ((bodyState s p).goes target) = .ok ((), t) →
      exec i s = .next (endWord s i tk false t)) ∧
    (¬ s.hasCode target → exec i s = .next (jumpTrap s i target))) ∧
  (∀ r ∈ [(Instr.jr, fun (_ : Word) => (0 : Word)), (.callr, fun here => here)],
    ∀ (d a : BitVec 6) (k : BitVec 10) (tk : BitVec 2) (s p t0 t : State) (v : Word),
    let i := r.1 d a k tk
    let target := r.2 s.here + v + 4 * k.signExtend 64
    Issues s i tk p → rs (issueCtx s i tk) a (bodyState s p) = .ok (v, t0) →
    (s.hasCode target → landScalar { issueCtx s i tk with push := none } d.toNat (s.here + 4) 1 (t0.goes target) = .ok ((), t) →
      exec i s = .next (endWord s i tk false t)) ∧
    (¬ s.hasCode target → exec i s = .next (jumpTrap s i target)))

/-- The predicate instructions compute every bit as their rule says, one bit in C, L and S and 1,024 in X. For PAND, POR, PXOR, PNOT, PMOV,
PSET, PTOS, PALL and PANY, every field that is legal, and every state in which the word issues and its sources are read: the turn ends with
the result in flight for rd, at latency 1, in X 2. PSET codes 0 to 6 set every kept bit to the condition; code 7 sets bit k exactly when k
is below s[ra] unsigned (R121, R127, R152). -/
def Obligations.PredicateWordsComputeTheirBits : Prop :=
  (∀ r ∈ predicateBinary, ∀ (d a b : BitVec 6) (tk : BitVec 2) (s p t0 t1 t : State) (x y : Mask),
    let i := r.1 d a b tk
    Issues s i tk p → rp (issueCtx s i tk) a (bodyState s p) = .ok (x, t0) → rp (issueCtx s i tk) b t0 = .ok (y, t1) →
    landPred (issueCtx s i tk) d.toNat (keptBits s.cur.q (r.2 x y)) (predicateDelay s.cur.q) t1 = .ok ((), t) →
    exec i s = .next (endWord s i tk true t)) ∧
  (∀ r ∈ predicateUnary, ∀ (d a : BitVec 6) (tk : BitVec 2) (s p t0 t : State) (x : Mask),
    let i := r.1 d a tk
    Issues s i tk p → rp (issueCtx s i tk) a (bodyState s p) = .ok (x, t0) →
    landPred (issueCtx s i tk) d.toNat (keptBits s.cur.q (r.2 x)) (predicateDelay s.cur.q) t0 = .ok ((), t) →
    exec i s = .next (endWord s i tk true t)) ∧
  (∀ (d a k : BitVec 6) (tk : BitVec 2) (s p t0 t : State) (v : Word) (m : Mask),
    let i := Instr.pset d a k tk
    Issues s i tk p → rs (issueCtx s i tk) a (bodyState s p) = .ok (v, t0) →
    (∀ f, predicateConditions[k.toNat]? = some f → m = keptBits s.cur.q (if f v then BitVec.allOnes 1024 else 0)) →
    (k.toNat = 7 → ∀ n < 1024, m.getLsbD n = decide (n < v.toNat)) →
    landPred (issueCtx s i tk) d.toNat m (predicateDelay s.cur.q) t0 = .ok ((), t) → exec i s = .next (endWord s i tk true t)) ∧
  (∀ (d a k : BitVec 6) (tk : BitVec 2) (s p t0 t : State) (x : Mask) (v : Word),
    let i := Instr.ptos d a k tk
    Issues s i tk p → rp (issueCtx s i tk) a (bodyState s p) = .ok (x, t0) →
    (∀ n < 64, v.getLsbD n = (keptBits s.cur.q x).getLsbD (64 * k.toNat + n)) →
    landScalar (issueCtx s i tk) d.toNat v (predicateDelay s.cur.q) t0 = .ok ((), t) → exec i s = .next (endWord s i tk true t)) ∧
  (∀ (d a k : BitVec 6) (tk : BitVec 2) (s p t0 t : State) (x : Mask),
    let n := if s.cur.q = .x then 1024 / 2 ^ k.toNat else 1
    (let i := Instr.pall d a k tk
     Issues s i tk p → rp (issueCtx s i tk) a (bodyState s p) = .ok (x, t0) →
     landScalar (issueCtx s i tk) d.toNat (if (List.range n).all x.getLsbD then 1 else 0) (predicateDelay s.cur.q) t0 = .ok ((), t) →
     exec i s = .next (endWord s i tk true t)) ∧
    (let i := Instr.pany d a k tk
     Issues s i tk p → rp (issueCtx s i tk) a (bodyState s p) = .ok (x, t0) →
     landScalar (issueCtx s i tk) d.toNat (if (List.range n).any x.getLsbD then 1 else 0) (predicateDelay s.cur.q) t0 = .ok ((), t) →
     exec i s = .next (endWord s i tk true t)))

/-- LD zero-extends and LDS sign-extends the bytes at s[ra] plus the scaled offset; ST issues the low bytes of s[rd]. In every state in which
the word issues, its sources are read and the bytes at s[ra] plus off11 times the size are read: LD and LDS end their turn with the
little-endian value in flight for rd, zero- or sign-extended, at latency 4, or 10 while the unit collects. ST ends its turn with the low
size bytes of s[rd], the lowest first, written at that address as the shared write says, its s[ra] read first (R146). -/
def Obligations.LoadsExtendWhatTheyRead : Prop :=
  (∀ r ∈ [(Instr.ld, false), (.lds, true)], ∀ (d a : BitVec 6) (o : BitVec 11) (z tk : BitVec 2) (s p t0 t1 t : State) (base v : Word)
      (bs : List Byte),
    let i := r.1 d a o z tk
    let n := 2 ^ z.toNat
    Issues s i tk p → rs (issueCtx s i tk) a (bodyState s p) = .ok (base, t0) →
    loadBytes (issueCtx s i tk) (base + o.signExtend 64 * BitVec.ofNat 64 n) n t0 = .ok (bs, t1) → bs.length = n →
    (r.2 = false → v.toNat = ofBytes bs) →
    (r.2 = true → v = (BitVec.ofNat (8 * n) (ofBytes bs)).signExtend 64) →
    landScalar (issueCtx s i tk) d.toNat v (if (getUnit t1 s.cur.uid).levels = [] then 4 else 10) t1 = .ok ((), t) →
    exec i s = .next (endWord s i tk true t)) ∧
  (∀ (d a : BitVec 6) (o : BitVec 11) (z tk : BitVec 2) (s p t0 t : State) (base v : Word) (bs : List Byte),
    let i := Instr.st d a o z tk
    let n := 2 ^ z.toNat
    Issues s i tk p → rs2 (issueCtx s i tk) a d (bodyState s p) = .ok ((base, v), t0) →
    bs.length = n → ofBytes bs = v.toNat % 2 ^ (8 * n) →
    writeBytes (issueCtx s i tk) (base + o.signExtend 64 * BitVec.ofNat 64 n) 0 bs t0 = .ok ((), t) →
    exec i s = .next (endWord s i tk true t))

/-- ILL takes an illegal-instruction trap, TRAP a software trap after its word, RETT returns or jumps, BKPT stops or does nothing. ILL in a
sequencer that runs in the slot that issues traps with cause 1 and its word in TVAL once no push of an earlier word waits, with no token
action. In every state in which the word issues: TRAP n ends its turn and, with a vector installed and no handler running, enters the
handler with cause 8, TVAL n and TEPC at the next word. RETT with a handler running holds the sequencer for its return to TEPC, with its
engine queues running again; with none it jumps to TEPC; a TEPC outside the section traps. BKPT with no debugger does nothing; with one it
stops the unit's sequencers and records cause 10. WFE with its event flag set clears it and goes on, and freezes with it clear. Three
clauses are the model's choice: TRAP ends its cycle before the entry (log 15), a RETT outside the section traps at the RETT (log 37), and
what BKPT records (log 38) (R140, R154, R158, R159, R347). -/
def Obligations.TrapWordsEnterTheHandler : Prop :=
  (∀ (d a k : BitVec 6) (tk : BitVec 2) (s : State), canIssue s s.cur.uid s.cur.q = true → s.flushed.acting.fl.pushes = [] →
    exec (.ill d a k tk) s = .next (jumpTrap s.flushed (.ill d a k tk) ((wordOf (.ill d a k tk)).setWidth 64))) ∧
  (∀ (n : BitVec 6) (tk : BitVec 2) (s p : State), Issues s (.trap n tk) tk p →
    let e := endWord s (.trap n tk) tk false (bodyState s p)
    let c := getSeq e s.cur.uid s.cur.q
    c.tr.tvec ≠ BitVec.allOnes 64 → c.tr.tstat.getLsbD 0 = false →
    exec (.trap n tk) s = .next (modSeq e s.cur.uid s.cur.q fun c => enterHandler c 8 (n.setWidth 64) c.pc false)) ∧
  (∀ (tk : BitVec 2) (s p : State),
    let i := Instr.rett tk
    let c := getSeq (bodyState s p) s.cur.uid s.cur.q
    Issues s i tk p →
    (¬ (c.tr.tepc.toNat % 4 = 0 ∧ c.tr.tepc.toNat < c.streamSize) → exec i s = .next (jumpTrap s i c.tr.tepc)) ∧
    (c.tr.tepc.toNat % 4 = 0 → c.tr.tepc.toNat < c.streamSize → c.tr.tstat.getLsbD 0 = false →
      exec i s = .next (endWord s i tk false ((bodyState s p).goes c.tr.tepc))) ∧
    (c.tr.tepc.toNat % 4 = 0 → c.tr.tepc.toNat < c.streamSize → c.tr.tstat.getLsbD 0 = true →
      ∃ t, exec i s = .next (endWord s i tk false t) ∧ (getSeq t s.cur.uid s.cur.q).status = .returning c.tr.tepc ∧
        (getSeq t s.cur.uid s.cur.q).regs = c.regs ∧ (getSeq t s.cur.uid s.cur.q).tr = c.tr ∧ t.mem = (bodyState s p).mem ∧
        ∀ g : Eng, ((getSeq t s.cur.uid s.cur.q).eq g).stopped = false)) ∧
  (∀ (n : BitVec 6) (tk : BitVec 2) (s p : State), Issues s (.bkpt n tk) tk p →
    ((getUnit s s.cur.uid).debugger = false → exec (.bkpt n tk) s = .next (endWord s (.bkpt n tk) tk false (bodyState s p))) ∧
    ((getUnit s s.cur.uid).debugger = true → ∃ t, exec (.bkpt n tk) s = .next t ∧
      (∀ q, (getSeq t s.cur.uid q).status = if (getSeq s s.cur.uid q).status = .exited then .exited else .stopped) ∧
      (getSeq t s.cur.uid s.cur.q).tr.tcause = 10 ∧ (getSeq t s.cur.uid s.cur.q).tr.tval = n.setWidth 64 ∧
      (getSeq t s.cur.uid s.cur.q).tr.tepc = s.here ∧ (getSeq t s.cur.uid s.cur.q).tr.tstat.getLsbD 1 = true ∧ t.mem = s.mem)) ∧
  (∀ (tk : BitVec 2) (s p : State), Issues s (.wfe tk) tk p →
    ((getSeq (bodyState s p) s.cur.uid s.cur.q).event = true → exec (.wfe tk) s = .next (decideBlocked s
      (endWord s (.wfe tk) tk false (modSeq (bodyState s p) s.cur.uid s.cur.q fun c => { c with event := false })) s.cur.uid)) ∧
    ((getSeq (bodyState s p) s.cur.uid s.cur.q).event = false →
      exec (.wfe tk) s = .next (decideBlocked s (setFrozen p s.cur.uid s.cur.q .event) s.cur.uid)))

/-- Taking a trap with a vector installed saves clock, word and results in flight and continues at the vector. For every state, sequencer and
cause 1 to 9 with a vector installed and no handler running: the sequencer's pc becomes TVEC; TEPC is the trapping word, TVC its clock,
TCAUSE the cause, TVAL the value; ACT is 1, TKP the word's token pop, DBG 0; every running entry moves to the held bank in order with its
count and the running bank is empty; memory and every other unit are unchanged (R130). -/
def Obligations.TakingATrapSavesAndEnters : Prop :=
  ∀ (s : State) (uid : Nat) (q : Seq) (cause : Nat) (tval : Word) (word : IWord) (eng : Bool) (race : Option Race),
    let c := getSeq s uid q
    1 ≤ cause → cause ≤ 9 → c.tr.tvec ≠ BitVec.allOnes 64 → c.tr.tstat.getLsbD 0 = false →
    let t := takeTrap s uid q cause tval word eng race
    let d := getSeq t uid q
    d.pc = c.tr.tvec ∧ d.tr.tepc = c.pc ∧ d.tr.tvc = c.vc ∧ d.tr.tcause = BitVec.ofNat 64 cause ∧ d.tr.tval = tval ∧
    d.tr.tstat = (if c.fl.tkDone = true then 5 else 1) ∧
    d.tr.tvec = c.tr.tvec ∧ d.vc = c.vc ∧ d.fl.held = c.fl.running ∧ d.fl.running = [] ∧
    t.mem = s.mem ∧ (∀ v, v ≠ uid → getUnit t v = getUnit s v) ∧ (∀ r, r ≠ q → getSeq t uid r = getSeq s uid r)

/-- TKPUSH adds one token for its peer and TKPOP takes the oldest one, and each freezes where its queue forbids it. In every state in which the
word issues: TKPUSH with fewer than 15 tokens for its peer, once the sequencer's stores are performed, ends its turn with one more token, a
release at core scope, every other token queue and memory as they were then; with 15 it freezes. TKPOP with a token from its peer ends its
turn with the oldest gone; tokens that the peer's waiting pushes then find room for follow the rest, and with none waiting no other token
changes; with no token it freezes (R66, R67, R153). -/
def Obligations.TokenWordsMoveOneToken : Prop :=
  (∀ (n : BitVec 6) (tk : BitVec 2) (s p : State), n.toNat < 4 →
    let i := Instr.tkpush n tk
    let q := s.cur.q
    let u := performAll (bodyState s p) s.cur.uid q
    Issues s i tk p →
    ((tokensOf (getUnit u s.cur.uid) q (tokenPeer n)).length < 15 → ∃ (t : State) (r : Token), exec i s = .next (endWord s i tk false t) ∧
      tokensOf (getUnit t s.cur.uid) q (tokenPeer n) = tokensOf (getUnit u s.cur.uid) q (tokenPeer n) ++ [r] ∧ r.scope = 1 ∧
      t.mem = u.mem ∧ ∀ x y, (x, y) ≠ (q, tokenPeer n) → tokensOf (getUnit t s.cur.uid) x y = tokensOf (getUnit u s.cur.uid) x y) ∧
    (15 ≤ (tokensOf (getUnit u s.cur.uid) q (tokenPeer n)).length →
      exec i s = .next (stopWord p (issueCtx s i tk) (.freeze (.queue n.toNat) none)))) ∧
  (∀ (n : BitVec 6) (tk : BitVec 2) (s p : State), 4 ≤ n.toNat → n.toNat < 8 →
    let i := Instr.tkpop n tk
    let q := s.cur.q
    let u := bodyState s p
    Issues s i tk p →
    (tokensOf (getUnit u s.cur.uid) (tokenPeer n) q = [] → exec i s = .next (stopWord p (issueCtx s i tk) (.freeze (.queue n.toNat) none))) ∧
    ∀ r rest, tokensOf (getUnit u s.cur.uid) (tokenPeer n) q = r :: rest → ∃ t more, exec i s = .next (endWord s i tk false t) ∧
      tokensOf (getUnit t s.cur.uid) (tokenPeer n) q = rest ++ more ∧ t.mem = u.mem ∧
      (∀ x y, x ≠ tokenPeer n → tokensOf (getUnit t s.cur.uid) x y = tokensOf (getUnit u s.cur.uid) x y) ∧
      ((getSeq u s.cur.uid (tokenPeer n)).fl.pushes = [] → more = [] ∧
        ∀ y, y ≠ q → tokensOf (getUnit t s.cur.uid) (tokenPeer n) y = tokensOf (getUnit u s.cur.uid) (tokenPeer n) y))

/-- TKCNT and QCNT count, QPEEK shows the head, EPOP takes a result, QWAIT waits, BQPUSH pushes a bit. In every state in which the word issues:
TKCNT and QCNT end their turn with the number of entries in flight for rd, reservations counted, for an engine its commands and results.
QPEEK puts the head of bq, of an engine's results, or of dqin read with both formats raw, in flight without popping it, and freezes on an
empty queue. EPOP takes the oldest result and freezes with none. QWAIT goes on exactly when its condition holds. BQPUSH appends bit 0 of its
predicate with fewer than 64 bits held, and freezes with 64 (R35, R139, R142, R153). -/
def Obligations.QueueReadsShowTheirQueue : Prop :=
  (∀ f ∈ [Instr.tkcnt, Instr.qcnt], ∀ (d n : BitVec 6) (tk : BitVec 2) (s p t : State) (k : Nat),
    let i := f d n tk
    Issues s i tk p → QueueHolds (getUnit (bodyState s p) s.cur.uid) s.cur.q n k →
    landScalar (issueCtx s i tk) d.toNat (BitVec.ofNat 64 k) 1 (bodyState s p) = .ok ((), t) → exec i s = .next (endWord s i tk true t)) ∧
  (∀ (d n : BitVec 6) (tk : BitVec 2) (s p t : State) (v : Word),
    let i := Instr.qpeek d n tk
    let u := getUnit (bodyState s p) s.cur.uid
    let c := u.seq s.cur.q
    Issues s i tk p →
    (((n.toNat = 12 ∧ u.bq = []) ∨ (n.toNat = 8 ∧ c.dq.dqin = []) ∨ ∃ r ∈ engineQueues, n.toNat = r.1 ∧ (c.eq r.2).results = []) →
      exec i s = .next (stopWord p (issueCtx s i tk) (.freeze (.queue n.toNat) none))) ∧
    (((∃ b r, n.toNat = 12 ∧ u.bq = b :: r ∧ v = if b then 1 else 0) ∨
        (∃ e r, n.toNat = 8 ∧ c.dq.dqin = e :: r ∧ c.dq.src = 0 ∧ c.dq.snk = 0 ∧ v = e.val) ∨
        ∃ x ∈ engineQueues, ∃ e r, n.toNat = x.1 ∧ (c.eq x.2).results = e :: r ∧ v = e.word) →
      landScalar (issueCtx s i tk) d.toNat v 1 (bodyState s p) = .ok ((), t) → exec i s = .next (endWord s i tk true t))) ∧
  (∀ x ∈ engineQueues, ∀ (d n : BitVec 6) (tk : BitVec 2) (s p : State), n.toNat = x.1 →
    let i := Instr.epop d n tk
    let b := bodyState s p
    Issues s i tk p →
    (((getSeq b s.cur.uid s.cur.q).eq x.2).results = [] → exec i s = .next (stopWord p (issueCtx s i tk) (.freeze (.queue n.toNat) none))) ∧
    ∀ e r, ((getSeq b s.cur.uid s.cur.q).eq x.2).results = e :: r → ∃ t0, t0.mem = b.mem ∧
      ((getSeq t0 s.cur.uid s.cur.q).eq x.2).results = r ∧ (getSeq t0 s.cur.uid s.cur.q).regs = (getSeq b s.cur.uid s.cur.q).regs ∧
      ∀ t, landScalar (issueCtx s i tk) d.toNat e.word 1 t0 = .ok ((), t) → exec i s = .next (endWord s i tk true t)) ∧
  (∀ (n : BitVec 6) (tk : BitVec 2) (s p : State),
    let i := Instr.qwait n tk
    Issues s i tk p →
    (QueueIsReady (bodyState s p) s.cur.uid s.cur.q n → exec i s = .next (endWord s i tk false (bodyState s p))) ∧
    (¬ QueueIsReady (bodyState s p) s.cur.uid s.cur.q n → exec i s = .next (stopWord p (issueCtx s i tk) (.freeze (.queue n.toNat) none)))) ∧
  (∀ (a : BitVec 6) (tk : BitVec 2) (s p t : State) (m : Mask),
    let i := Instr.bqpush a tk
    Issues s i tk p → rp (issueCtx s i tk) a (bodyState s p) = .ok (m, t) →
    (64 ≤ (getUnit t s.cur.uid).bq.length → exec i s = .next (stopWord p (issueCtx s i tk) (.freeze (.queue 12) none))) ∧
    ((getUnit t s.cur.uid).bq.length < 64 →
      exec i s = .next (endWord s i tk false (modUnit t s.cur.uid fun u => { u with bq := u.bq ++ [m.getLsbD 0] }))))

/-- QSQUASH empties its queue at one instant, QFMT sets the formats of a legal pair, QSEL aims later dqout pushes. In every state in which the
word issues: QSQUASH of a token queue, dqin, dqout, vqin, vqout or bq ends its turn with that queue empty, reservations with it, and no
other queue of the list changed; a token queue into the sequencer then holds only what pushes that waited for room bring. Of an engine queue
it ends with the sequencer's unstarted commands gone, and its results and a started command that a park put back kept. QFMT with a legal
pair sets source and sink; with a reserved bit or an illegal pair it takes a format fault. QSEL sets the target (R139, R142, R153). -/
def Obligations.QueueWordsSetTheirQueue : Prop :=
  (∀ (n : BitVec 6) (tk : BitVec 2) (s p : State),
    let i := Instr.qsquash n tk
    let b := getUnit (bodyState s p) s.cur.uid
    let q := s.cur.q
    Issues s i tk p → ∃ t, exec i s = .next (endWord s i tk false t) ∧ t.mem = (bodyState s p).mem ∧
      let u := getUnit t s.cur.uid
      (∀ r, tokensOf u q r = if n.toNat < 4 ∧ r = tokenPeer n then [] else tokensOf b q r) ∧
      (∀ r, r ≠ q → ¬(4 ≤ n.toNat ∧ n.toNat < 8 ∧ r = tokenPeer n) → tokensOf u r q = tokensOf b r q) ∧
      (4 ≤ n.toNat → n.toNat < 8 → tokenPeer n ≠ q → ∀ x ∈ tokensOf u (tokenPeer n) q, ∃ k ∈ (b.seq (tokenPeer n)).fl.pushes, k.peer = q ∧ k.rel = x) ∧
      (u.seq q).dq.dqin = (if n.toNat = 8 then [] else (b.seq q).dq.dqin) ∧ (u.seq q).dq.dqout = (if n.toNat = 9 then [] else (b.seq q).dq.dqout) ∧
      u.vqin.entries = (if n.toNat = 10 then [] else b.vqin.entries) ∧ u.vqout.entries = (if n.toNat = 11 then [] else b.vqout.entries) ∧
      u.bq = (if n.toNat = 12 then [] else b.bq) ∧
      ∀ r ∈ engineQueues, ((u.seq q).eq r.2).cmds = ((b.seq q).eq r.2).cmds.filter (fun k => n.toNat ≠ r.1 || k.started) ∧
        ((u.seq q).eq r.2).results = ((b.seq q).eq r.2).results) ∧
  (∀ (a n : BitVec 6) (tk : BitVec 2) (s p t : State) (v : Word),
    let i := Instr.qfmt a n tk
    let src := v.extractLsb' 0 6
    let snk := v.extractLsb' 8 6
    let legal := v &&& ~~~(0x3F3F#64) = 0 ∧ qfmtLegal (n.toNat != 8) src.toNat snk.toNat = true
    Issues s i tk p → rs (issueCtx s i tk) a (bodyState s p) = .ok (v, t) →
    (¬ legal → exec i s = .next (stopWord p (issueCtx s i tk) (.trap 2 ((wordOf i).setWidth 64) none none))) ∧
    (legal → n.toNat = 8 → exec i s = .next (endWord s i tk false
      (modSeq t s.cur.uid s.cur.q fun c => { c with dq := { c.dq with src := src, snk := snk } }))) ∧
    (legal → n.toNat = 10 → exec i s = .next (endWord s i tk false
      (modUnit t s.cur.uid fun u => { u with vqin := { u.vqin with src := src, snk := snk } }))) ∧
    (legal → n.toNat = 11 → exec i s = .next (endWord s i tk false
      (modUnit t s.cur.uid fun u => { u with vqout := { u.vqout with src := src, snk := snk } })))) ∧
  (∀ (n : BitVec 6) (tk : BitVec 2), n.toNat < 4 →
    Effects (.qsel n tk) tk fun c s => modSeq s c.uid c.q fun x => { x with dq := { x.dq with target := tokenPeer n } })

/-- The handle instructions replace exactly the field their rule names and refuse a value that does not fit. In every state in which the word
issues and its sources are read: HMOV copies a handle, HCLR clears one, HSETB, HSETD, HSETS and HSETF replace BASE, extent k, stride k and
bits 255 to 200 and keep every other bit, at latency 1; a value out of range takes a format fault. HGETB and HGETD return BASE, an extent
with 0 read as 65,536, the top bits, or a stride. HCHK returns the check word, whose bits 0 to 11 stand for the flaws of R179, bits 9 and 10
of a handle with a valid format. HLD reads and HST writes the 32 bytes at a multiple of 32; another address is a window-permission fault
(R175, R179, R181, R182). -/
def Obligations.HandleWordsChangeTheirFields : Prop :=
  (∀ (d a : BitVec 4) (tk : BitVec 2) (s p t0 t : State) (h : Handle), Issues s (.hmov d a tk) tk p →
    rh (issueCtx s (.hmov d a tk) tk) a.toNat (bodyState s p) = .ok (h, t0) →
    landHandle (issueCtx s (.hmov d a tk) tk) d.toNat h 1 t0 = .ok ((), t) → exec (.hmov d a tk) s = .next (endWord s (.hmov d a tk) tk true t)) ∧
  (∀ (d : BitVec 4) (tk : BitVec 2) (s p t : State), Issues s (.hclr d tk) tk p →
    landHandle (issueCtx s (.hclr d tk) tk) d.toNat 0 1 (bodyState s p) = .ok ((), t) → exec (.hclr d tk) s = .next (endWord s (.hclr d tk) tk true t)) ∧
  (∀ (d a k : BitVec 4) (r : BitVec 6) (tk : BitVec 2) (s p t0 t1 t : State) (h : Handle) (v : Word),
    ∀ x ∈ [(Instr.hsetb d a r tk, true, 0, 64), (.hsetd d a k r tk, decide (1 ≤ v.toNat ∧ v.toNat ≤ 65536), 64 + 16 * k.toNat, 16),
      (.hsets d a k r tk, decide (v.toNat < 2 ^ 24), 104 + 24 * k.toNat, 24), (.hsetf d a r tk, decide (v.toNat < 2 ^ 56), 200, 56)],
    Issues s x.1 tk p → rh (issueCtx s x.1 tk) a.toNat (bodyState s p) = .ok (h, t0) → rs (issueCtx s x.1 tk) r t0 = .ok (v, t1) →
    (x.2.1 = false → exec x.1 s = .next (stopWord p (issueCtx s x.1 tk) (.trap 2 ((wordOf x.1).setWidth 64) none none))) ∧
    (x.2.1 = true → landHandle (issueCtx s x.1 tk) d.toNat (withField h x.2.2.1 x.2.2.2 v.toNat) 1 t1 = .ok ((), t) →
      exec x.1 s = .next (endWord s x.1 tk true t))) ∧
  (∀ (a k : BitVec 4) (r : BitVec 6) (tk : BitVec 2) (s p t0 t : State) (h : Handle) (v : Word),
    ∀ x ∈ [(Instr.hgetb a r tk, v = h.extractLsb' 0 64),
      (.hgetd a k r tk, (k.toNat < 4 → (v.toNat = 65536 ∧ h.extractLsb' (64 + 16 * k.toNat) 16 = 0) ∨
          (v = (h.extractLsb' (64 + 16 * k.toNat) 16).setWidth 64 ∧ v ≠ 0)) ∧
        (k.toNat = 4 → v = (h.extractLsb' 200 56).setWidth 64) ∧
        (5 ≤ k.toNat → v = (h.extractLsb' (104 + 24 * (k.toNat - 4)) 24).setWidth 64))],
    Issues s x.1 tk p → rh (issueCtx s x.1 tk) a.toNat (bodyState s p) = .ok (h, t0) → x.2 →
    landScalar (issueCtx s x.1 tk) r.toNat v 1 t0 = .ok ((), t) → exec x.1 s = .next (endWord s x.1 tk true t)) ∧
  (∀ (a : BitVec 4) (r : BitVec 6) (tk : BitVec 2) (s p t0 : State) (h : Handle), Issues s (.hchk a r tk) tk p →
    rh (issueCtx s (.hchk a r tk) tk) a.toNat (bodyState s p) = .ok (h, t0) → ∃ w, IsCheckWord t0 s.cur.uid s.cur.q h w ∧
    ∀ t, landScalar (issueCtx s (.hchk a r tk) tk) r.toNat w 1 t0 = .ok ((), t) → exec (.hchk a r tk) s = .next (endWord s (.hchk a r tk) tk true t)) ∧
  (∀ (d : BitVec 4) (r : BitVec 6) (tk : BitVec 2) (s p t0 t1 t : State) (va : Word) (bs : List Byte),
    let i := Instr.hld d r tk
    Issues s i tk p → rs (issueCtx s i tk) r (bodyState s p) = .ok (va, t0) →
    (va.toNat % 32 ≠ 0 → exec i s = .next (stopWord p (issueCtx s i tk) (.trap 4 ((wordOf i).setWidth 64) none none))) ∧
    (va.toNat % 32 = 0 → loadBytes (issueCtx s i tk) va 32 t0 = .ok (bs, t1) →
      landHandle (issueCtx s i tk) d.toNat (BitVec.ofNat 256 (ofBytes bs)) (if (getUnit t1 s.cur.uid).levels = [] then 4 else 10) t1 = .ok ((), t) →
      exec i s = .next (endWord s i tk true t))) ∧
  (∀ (a : BitVec 4) (r : BitVec 6) (tk : BitVec 2) (s p t0 t1 t : State) (va : Word) (h : Handle) (bs : List Byte),
    let i := Instr.hst a r tk
    Issues s i tk p → rh (issueCtx s i tk) a.toNat (bodyState s p) = .ok (h, t0) → rs (issueCtx s i tk) r t0 = .ok (va, t1) →
    (va.toNat % 32 ≠ 0 → exec i s = .next (stopWord p (issueCtx s i tk) (.trap 4 ((wordOf i).setWidth 64) none none))) ∧
    (va.toNat % 32 = 0 → bs.length = 32 → ofBytes bs = h.toNat → writeBytes (issueCtx s i tk) va 1 bs t1 = .ok ((), t) →
      exec i s = .next (endWord s i tk true t)))

/-- HOFF and HSUB advance BASE by whole bytes, HSUB shrinks the extents, and what is no whole byte takes a format fault. In every state in which
the word issues and its sources are read, HOFF and HSUB of a handle whose format has no element addresses take a format fault (R176; of a
reserved format, the model's choice, log 99). Of any other handle: HOFF advances BASE by s[ra], signed, times the stride of dimension k
times the element width in bits over 8, mod 2^64, every other bit kept, and takes a format fault when that is no whole number of bytes. HSUB
at a coordinate within the extents advances BASE by the element's offset and reduces each extent below the rank by its coordinate; a
coordinate outside, or an element that is no whole number of bytes from BASE, takes a format fault (R176, R181, R182). -/
def Obligations.HandleOffsetsMoveTheBase : Prop :=
  (∀ (d a k : BitVec 4) (r : BitVec 6) (tk : BitVec 2) (s p t0 t1 t : State) (h : Handle) (v : Word),
    let i := Instr.hoff d a k r tk
    let moved : Int := v.toInt * (if k = 0 then 1 else (h.extractLsb' (104 + 24 * k.toNat) 24).toNat : Nat) * (fmtBits (hFmt h) : Nat)
    Issues s i tk p → rh (issueCtx s i tk) a.toNat (bodyState s p) = .ok (h, t0) → rs (issueCtx s i tk) r t0 = .ok (v, t1) →
    (hasElements h = false → exec i s = .next (stopWord p (issueCtx s i tk) (.trap 2 ((wordOf i).setWidth 64) none none))) ∧
    (hasElements h = true → ¬ (8 : Int) ∣ moved → exec i s = .next (stopWord p (issueCtx s i tk) (.trap 2 ((wordOf i).setWidth 64) none none))) ∧
    (∀ n : Int, hasElements h = true → moved = 8 * n →
      landHandle (issueCtx s i tk) d.toNat (withField h 0 64 (h.extractLsb' 0 64 + BitVec.ofInt 64 n).toNat) 1 t1 = .ok ((), t) →
      exec i s = .next (endWord s i tk true t))) ∧
  (∀ (d a : BitVec 4) (r : BitVec 6) (tk : BitVec 2) (s p t0 t1 t : State) (h g : Handle) (v : Word),
    let i := Instr.hsub d a r tk
    let u := fun k : Nat => (v.extractLsb' (16 * k) 16).toNat
    let at0 := (u 0 + u 1 * hStride h 1 + u 2 * hStride h 2 + u 3 * hStride h 3) * fmtBits (hFmt h)
    let inside := ∀ k < 4, u k < if k < hRank h then hDim h k else 1
    Issues s i tk p → rh (issueCtx s i tk) a.toNat (bodyState s p) = .ok (h, t0) → rs (issueCtx s i tk) r t0 = .ok (v, t1) →
    (¬ (hasElements h = true ∧ inside ∧ at0 % 8 = 0) → exec i s = .next (stopWord p (issueCtx s i tk) (.trap 2 ((wordOf i).setWidth 64) none none))) ∧
    (hasElements h = true → inside → at0 % 8 = 0 → g.extractLsb' 0 64 = h.extractLsb' 0 64 + BitVec.ofNat 64 (at0 / 8) →
      (∀ k < 4, g.extractLsb' (64 + 16 * k) 16 =
        if k < hRank h then h.extractLsb' (64 + 16 * k) 16 - v.extractLsb' (16 * k) 16 else h.extractLsb' (64 + 16 * k) 16) →
      g.extractLsb' 128 128 = h.extractLsb' 128 128 →
      landHandle (issueCtx s i tk) d.toNat g 1 t1 = .ok ((), t) → exec i s = .next (endWord s i tk true t)))

/-- The single step of an atomic reads the old value, writes what its function says, and touches no other byte of memory. For every integer
function, every operand and every state with memory in canonical form: on 4 or 8 consecutive bytes of memory the step returns their
little-endian value and, where the function writes, the bytes become the result mod 2^w; a compare that fails writes nothing; every other
byte of memory reads as before (R284). -/
def Obligations.AtomicStepOnTheWord : Prop :=
  ∀ (s : State) (pa : Nat) (o : AtomOp) (rels : List Release), s.MemOk → o.fn ≤ 14 → o.fn ≠ 12 →
    let n := if o.w32 then 4 else 8
    let ps := (List.range n).map fun k => Place.mem (pa + k)
    let old := placesValue s ps
    let r := performAtomic s ps o rels
    let new := atomicResult o.fn (8 * n) (BitVec.ofNat (8 * n) old) (BitVec.ofNat (8 * n) o.b.toNat) (BitVec.ofNat (8 * n) o.c.toNat)
    r.1 = old ∧ (∀ v, new = some v → placesValue r.2 ps = v.toNat) ∧ (new = none → r.2 = s) ∧
    ∀ x, x < pa ∨ pa + n ≤ x → memGet r.2.mem x = memGet s.mem x

/-- Every atomic instruction at an aligned word performs its step and returns the old value, or queues it when it need not wait. For each of the
fifteen atomics outside collecting, in every state in which it issues, its registers are read, its address is a multiple of its size, its
bytes are found, no lock and no pending check stops it: a returning form, and any order stronger than rlx and rel, with the sequencer's
stores done, ends its turn with the step performed and the old value in flight for rd at latency 4, with stores outstanding it freezes; any
other form ends its turn, a load or a compare with the step performed after the sequencer's stores (log 17), the rest with the step queued
behind them. A misaligned address is a window-permission fault (R284, R285). -/
def Obligations.AtomicsRunTheirStep : Prop :=
  ∀ (d a b : BitVec 5) (ord : BitVec 3) (sc : BitVec 4) (z : BitVec 1), ∀ f ∈ atomicForms d a b ord sc z,
  ∀ (s p t0 t1 t2 t3 t4 t5 t6 t : State) (va x y : Word) (ps : List Place) (old : Nat),
    let c := issueCtx s f.instr 0
    let n := if f.w32 then 4 else 8
    let o : AtomOp := { fn := f.fn, ord := ord.toNat, scope := sc.toNat, w32 := f.w32, b := x, c := y }
    let returns := f.fn ≠ 1 ∧ f.d ≠ 0
    let waits := returns ∨ ord.toNat = 1 ∨ 3 ≤ ord.toNat
    Issues s f.instr 0 p → rs c a (bodyState s p) = .ok (va, t0) → rs c f.b t0 = .ok (x, t1) →
    (if f.fn = 3 then rs c f.d t1 = .ok (y, t2) else y = 0 ∧ t2 = t1) →
    (if f.fn = 1 then t3 = t2 else pendAt c va .atomic n t2 = .ok ((), t3)) →
    (va.toNat % n ≠ 0 → exec f.instr s = .next (stopWord p c (.trap 4 ((wordOf f.instr).setWidth 64) none none))) ∧
    (va.toNat % n = 0 → (getUnit t3 c.uid).levels = [] → (getSeq t3 c.uid c.q).fl.data = false →
      seqPlaces c va .atomic n t3 = .ok (ps, t4) → (∀ q ∈ ps, ∃ pa, q = .mem pa) → seqLocks c ps (f.fn != 0) t4 = .ok ((), t5) →
      (waits → (getSeq t5 c.uid c.q).fl.stores ≠ [] → exec f.instr s = .next (stopWord p c (.freeze .atomic none))) ∧
      (waits → (getSeq t5 c.uid c.q).fl.stores = [] → performNow c va ps o t5 = .ok (old, t6) →
        (if returns then landScalar c f.d.toNat (BitVec.ofNat 64 old) 4 t6 = .ok ((), t) else t = t6) →
        exec f.instr s = .next (endWord s f.instr 0 true t)) ∧
      (¬ waits → f.fn = 0 ∨ f.fn = 3 → performNow c va ps o (performAll t5 c.uid c.q) = .ok (old, t) →
        exec f.instr s = .next (endWord s f.instr 0 true t)) ∧
      (¬ waits → f.fn ≠ 0 → f.fn ≠ 3 → atomicLater c va ps o t5 = .ok ((), t) → exec f.instr s = .next (endWord s f.instr 0 true t)))

/-- FENCE, FENCEE, SSYNC, CBAR and WAITV wait for what their rule names and complete when it has come. In every state in which the word issues:
FENCE ends its turn with the sequencer's stores performed and the fence's order applied. FENCEE freezes while a command at an engine of its
mask is outstanding, and else takes what those commands released and acts as FENCE. SSYNC and CBAR arrive and freeze with their stores
performed, and end their turn once they have been let go. WAITV at a multiple of 8 ends its turn with an atomic read when the word compared
with 0 meets its condition, freezes otherwise, and at another address is a window-permission fault (R158, R286, R287, R288, R289). -/
def Obligations.FencesAndBarriersComplete : Prop :=
  (∀ (sc : BitVec 4) (o : BitVec 3) (tk : BitVec 2), Effects (.fence sc o tk) tk fun c s =>
    let t := performAll s c.uid c.q
    fenceOrder t (seqAgent (getUnit t c.uid) c.uid c.q) o.toNat sc.toNat) ∧
  (∀ (sc : BitVec 4) (o : BitVec 3) (m : BitVec 8) (tk : BitVec 2) (s p : State),
    let i := Instr.fencee sc o m tk
    let waits := ∃ r ∈ [(0, Eng.copy), (1, .gather), (2, .coll), (3, .row), (4, .press)],
      m.getLsbD r.1 = true ∧ outstanding (bodyState s p) s.cur.uid s.cur.q r.2 = true
    Issues s i tk p →
    (waits → exec i s = .next (stopWord p (issueCtx s i tk) (.freeze .engines none))) ∧
    (¬ waits → ∃ t0, exec i s = .next (endWord s i tk false (let t := performAll t0 s.cur.uid s.cur.q
        fenceOrder t (seqAgent (getUnit t s.cur.uid) s.cur.uid s.cur.q) o.toNat sc.toNat)) ∧ t0.mem = (bodyState s p).mem ∧
      (getSeq t0 s.cur.uid s.cur.q).fl = (getSeq (bodyState s p) s.cur.uid s.cur.q).fl ∧
      ∀ r ∈ [(0, Eng.copy), (1, .gather), (2, .coll), (3, .row), (4, .press)],
        ((getSeq t0 s.cur.uid s.cur.q).eq r.2).done =
          if m.getLsbD r.1 then [] else ((getSeq (bodyState s p) s.cur.uid s.cur.q).eq r.2).done)) ∧
  (∀ x ∈ [(Instr.ssync, false), (.cbar, true)], ∀ (tk : BitVec 2) (s p : State),
    let i := x.1 tk
    let b := bodyState s p
    Issues s i tk p →
    ((getSeq b s.cur.uid s.cur.q).fl.departed = true → exec i s = .next (endWord s i tk false
      (modSeq b s.cur.uid s.cur.q fun c => c.modFl fun f => { f with departed := false }))) ∧
    ((getSeq b s.cur.uid s.cur.q).fl.departed = false → exec i s = .next (stopWord p (issueCtx s i tk) (.freeze (.barrier x.2) (some
      (modSeq (performAll b s.cur.uid s.cur.q) s.cur.uid s.cur.q fun c => c.modFl fun f =>
        { f with arrivedC := f.arrivedC || x.2, arrivedS := f.arrivedS || !x.2 })))))) ∧
  (∀ (sc : BitVec 4) (o : BitVec 3) (a : BitVec 6) (k : BitVec 8) (tk : BitVec 2) (s p t0 t1 t2 t3 : State) (va : Word) (ps : List Place),
    let i := Instr.waitv sc o a k tk
    let c := issueCtx s i tk
    let u := performAll t2 c.uid c.q
    let v := BitVec.ofNat 64 (placesValue u ps)
    let op : AtomOp := { fn := 0, ord := o.toNat, scope := sc.toNat, w32 := false, b := 0, c := 0 }
    Issues s i tk p → rs c a (bodyState s p) = .ok (va, t0) → pendAt c va .atomic 8 t0 = .ok ((), t1) →
    (va.toNat % 8 ≠ 0 → exec i s = .next (decideBlocked s (stopWord p c (.trap 4 ((wordOf i).setWidth 64) none none)) s.cur.uid)) ∧
    (va.toNat % 8 = 0 → seqPlaces c va .atomic 8 t1 = .ok (ps, t3) → (∀ q ∈ ps, ∃ pa, q = .mem pa) → seqLocks c ps false t3 = .ok ((), t2) →
      ∀ f, predicateConditions[k.toNat]? = some f →
      (f v = false → exec i s = .next (decideBlocked s (stopWord p c (.freeze (.watch (ps.headD (.mem 0))) none)) s.cur.uid)) ∧
      (∀ old t, f v = true → performNow c va ps op u = .ok (old, t) →
        exec i s = .next (decideBlocked s (endWord s i tk false t) s.cur.uid))))

/-- GLAUNCH, GWAIT, GCANCEL, GCNT, PRISET, YIELD and UEXIT do what their rule says of the named instance. In every state in which the word
issues and its registers are read: GLAUNCH with a descriptor that the start accepts ends its turn with the job started and the reply RST 0,
JST 1 and its identifier. GWAIT of an instance that is final and does not hold the unit replies RST 0 with status and counter, freezes while
it is not final, replies RST 4 where it holds the unit or names level 5, RST 3 where there is none. GCANCEL cancels and replies, or stops
its own unit. GCNT gives the counter, or all ones where there is no instance. PRISET gives the old class and sets the greater of s[ra] and
the bound class; above 3 it is a format fault. YIELD starts a decision after its turn, UEXIT stops the fetch of all four sequencers (R360,
R375, R379, R380, R381, R382). -/
def Obligations.SchedulerWordsAnswer : Prop :=
  (∀ (d a : BitVec 6) (tk : BitVec 2) (s p t0 t1 t2 t3 t4 t5 t6 t : State) (dv pv : Word) (desc nb pb : List Byte) (n id : Nat) (sizes : Tab Word Nat),
    let i := Instr.glaunch d a tk
    let c := issueCtx s i tk
    let cont := (getUnit t2 c.uid).ident.key.cont
    let ag := seqAgent (getUnit t2 c.uid) c.uid c.q
    Issues s i tk p → rs c a (bodyState s p) = .ok (dv, t0) → rs c (a + 1) t0 = .ok (pv, t1) → t2 = performAll t1 c.uid c.q →
    (getCont t2 cont).live = true → partitionFailed t2 cont = false → dv.toNat % 64 = 0 → schBytes c dv 64 t2 = .ok (desc, t3) →
    (if pv = 0 then n = 0 ∧ t4 = t3 else schBytes c pv 8 t3 = .ok (nb, t4) ∧ n = ofBytes nb) → n ≤ 65536 →
    (if n = 0 then pb = [] ∧ t5 = t4 else schBytes c (pv + 8) (16 * n) t4 = .ok (pb, t5)) →
    schSizes c (patchedImages t2 cont (readDesc desc) (readPatches pb n).1) t5 = .ok (sizes, t6) →
    ∀ t7, tryStart t6 cont desc pb n sizes none (releaseOf t6 ag 5) = .ok (id, t7) →
    landScalar c d.toNat (replyWord 0 1 0 id) 1 (bumpRegion t7 ag) = .ok ((), t) → exec i s = .next (endWord s i tk true t)) ∧
  (∀ (d a k : BitVec 6) (tk : BitVec 2) (s p t0 t : State) (id x : Word),
    let i := Instr.gwait d a k tk
    let c := issueCtx s i tk
    let at1 := fun v u => landScalar c d.toNat v 1 u = .ok ((), t) → exec i s = .next (decideBlocked s (endWord s i tk true t) s.cur.uid)
    let found := namedInstance t0 c.uid k.toNat id x
    Issues s i tk p → schName c a k (bodyState s p) = .ok ((id, x), t0) →
    ((65536 ≤ x.toNat ∨ k.toNat = 5) → at1 (replyWord 4 0 0 0) t0) ∧
    (x.toNat < 65536 → k.toNat ≠ 5 → found = none → at1 (replyWord 3 0 0 0) t0) ∧
    (x.toNat < 65536 → k.toNat ≠ 5 → ∀ y, found = some y →
      (y.holds = true → at1 (replyWord 4 0 0 0) t0) ∧
      (y.holds = false → statusFinal y.status = false →
        exec i s = .next (decideBlocked s (stopWord p c (.freeze .join none)) s.cur.uid)) ∧
      (y.holds = false → statusFinal y.status = true → ∃ t1, t1.mem = t0.mem ∧ t1.conts = t0.conts ∧
        at1 (replyWord 0 y.status y.counter id.toNat) t1))) ∧
  (∀ (d a k : BitVec 6) (tk : BitVec 2) (s p t0 t : State) (id x : Word),
    let i := Instr.gcancel d a k tk
    let c := issueCtx s i tk
    let found := if x.toNat < 65536 then namedInstance t0 c.uid k.toNat id x else none
    let u := cancelInstance t0 (getUnit t0 c.uid).ident.key.cont k.toNat id.toNat x.toNat
    Issues s i tk p → schName c a k (bodyState s p) = .ok ((id, x), t0) →
    (found = none → landScalar c d.toNat (replyWord (if x.toNat < 65536 then 3 else 4) 0 0 0) 1 t0 = .ok ((), t) →
      exec i s = .next (endWord s i tk true t)) ∧
    ∀ y, found = some y →
      (y.holds = false → landScalar c d.toNat (replyWord 0 (cancelledStatus k.toNat y) 0 id.toNat) 1 u = .ok ((), t) →
        exec i s = .next (endWord s i tk true t)) ∧
      (y.holds = true → exec i s = .next (stopWord p c (.freeze .join (some
        ((unitsOf u (getUnit t0 c.uid).ident.key).foldl (fun s v => killUnit s v) u)))))) ∧
  (∀ (d a k : BitVec 6) (tk : BitVec 2) (s p t0 t : State) (id x : Word),
    let i := Instr.gcnt d a k tk
    let c := issueCtx s i tk
    let found := if x.toNat < 65536 then namedInstance t0 c.uid k.toNat id x else none
    Issues s i tk p → schName c a k (bodyState s p) = .ok ((id, x), t0) →
    landScalar c d.toNat (match found with | some y => BitVec.ofNat 64 y.counter | none => BitVec.allOnes 64) 1 t0 = .ok ((), t) →
    exec i s = .next (endWord s i tk true t)) ∧
  (∀ (d a : BitVec 6) (tk : BitVec 2) (s p t0 t : State) (v : Word),
    let i := Instr.priset d a tk
    let c := issueCtx s i tk
    let k := (getUnit t0 c.uid).ident.key
    let cls := if v.toNat ≤ (getUnit t0 c.uid).ident.bind then (getUnit t0 c.uid).ident.bind else v.toNat
    Issues s i tk p → rs c a (bodyState s p) = .ok (v, t0) →
    (3 < v.toNat → exec i s = .next (stopWord p c (.trap 2 ((wordOf i).setWidth 64) none none))) ∧
    (v.toNat ≤ 3 → landScalar c d.toNat (BitVec.ofNat 64 (getCont t0 k.cont).cls) 1 t0 = .ok ((), t) →
      ∃ u, exec i s = .next (endWord s i tk true u) ∧ u.mem = t.mem ∧ (getCont u k.cont).cls = cls ∧
        (∀ w ∈ unitsOf t k, (getUnit u w).ident.cls = cls) ∧ ∀ n, n ≠ k.cont → getCont u n = getCont t n)) ∧
  (∀ (tk : BitVec 2) (s p : State), Issues s (.yield tk) tk p →
    let e := endWord s (.yield tk) tk false (bodyState s p)
    let k := (getUnit e s.cur.uid).ident.key
    exec (.yield tk) s = .next (decideCores e ((unitsOf e k).map fun v => (getUnit e v).place.core) (some k))) ∧
  (∀ (tk : BitVec 2) (s p : State), Issues s (.uexit tk) tk p → ∃ t, exec (.uexit tk) s = .next t ∧
    let e := endWord s (.uexit tk) tk false (bodyState s p)
    t.mem = e.mem ∧ ∀ q, (getSeq t s.cur.uid q).status = (match (getSeq e s.cur.uid q).status with
      | .running => .halting
      | .returning _ => .halting
      | x => x))

/-- Each copy-engine word whose checks pass enters its command in the queue with its locks; an illegal conversion is a format fault. In every
state in which the word issues, its handles and operand words are read, the handle checks and then the pointer checks pass and the queue has
room: CTLD, CTST, CCPY, CFILL, CPFX and CXFR end their turn with the stores performed and a command at the queue's tail that holds their
code 0 to 5, the relocation flag, both operand words, the handles and scale handles, and with locks over what it reads and writes in the own
partition. A conversion that is not legal, and a scale-linked destination of CFILL, are a format fault, an operand word of CXFR that is not
legal, or that touches the stage of an open level, a window-permission fault, and a full queue freezes each of the six words (R168, R183,
R184, R187, R188, R189). -/
def Obligations.CopyWordsQueueTheirCommand : Prop :=
  (∀ (h : BitVec 4) (a b : BitVec 6) (l : BitVec 1) (tk : BitVec 2) (store : Bool) (s p t0 t1 t2 t3 t4 : State) (hd g : Handle) (x y : Word) (tile : Side),
    let i := if store then Instr.ctst h a b l tk else .ctld h a b l tk
    let c := issueCtx s i tk
    let sides := tile :: (tensorSide t3 c.uid hd (coordOf x) ⟨(tilePtr y).t0, (tilePtr y).t1, 1, 1⟩ store ++
      if store then [] else scaleSide t3 c.uid hd g (coordOf x) ⟨(tilePtr y).t0, (tilePtr y).t1, 1, 1⟩)
    let tensor := CopyEnd.tensor hd g (coordOf x)
    let legal := if store then copyLegal (tileEnd hd (tilePtr y)) tensor else copyLegal tensor (tileEnd hd (tilePtr y))
    Issues s i tk p → rh c h.toNat (bodyState s p) = .ok (hd, t0) → rs2 c a b t0 = .ok ((x, y), t1) →
    checkHandle c hd store (if store then destMask else 0) t1 = .ok ((), t2) → scaleOf c hd t2 = .ok (g, t3) →
    (fmtValid (tileFmt hd (tilePtr y)) = false → FaultsWith s p i tk 2) ∧
    (fmtValid (tileFmt hd (tilePtr y)) = true → tileSide t3 c.uid hd (tilePtr y) (!store) = some tile →
      checkSides c (tilePtr y).bad sides t3 = .ok ((), t4) →
      (legal = false → FaultsWith s p i tk 2) ∧
      (legal = true → QueueRoom t4 c .copy (locksOf c.uid sides) →
        QueuesCommand s i tk t4 .copy (locksOf c.uid sides) sides (if store then 1 else 0) (l == 1) x y hd 0 g 0) ∧
      (legal = true → 16 ≤ ((getSeq t4 c.uid c.q).eq .copy).cmds.length → exec i s = .next (stopWord p c (.freeze (.queue 16) none))))) ∧
  (∀ (h : BitVec 3) (a b : BitVec 6) (l : BitVec 1) (tk : BitVec 2) (s p t0 t1 t2 t3 t4 t5 t6 t7 : State) (h1 h2 g1 g2 : Handle) (x y : Word),
    let i := Instr.ccpy h a b l tk
    let c := issueCtx s i tk
    let n := restOf h1 (coordOf x)
    let sides := tensorSide t6 c.uid h1 (coordOf x) n false ++ scaleSide t6 c.uid h1 g1 (coordOf x) n ++ tensorSide t6 c.uid h2 (coordOf y) n true
    let legal := copyLegal (.tensor h1 g1 (coordOf x)) (.tensor h2 g2 (coordOf y))
    Issues s i tk p → rh c (2 * h.toNat) (bodyState s p) = .ok (h1, t0) → rh c (2 * h.toNat + 1) t0 = .ok (h2, t1) →
    rs2 c a b t1 = .ok ((x, y), t2) → checkHandle c h1 false 0 t2 = .ok ((), t3) → checkHandle c h2 true destMask t3 = .ok ((), t4) →
    scaleOf c h1 t4 = .ok (g1, t5) → scaleOf c h2 t5 = .ok (g2, t6) → checkSides c false sides t6 = .ok ((), t7) →
    (legal = false → FaultsWith s p i tk 2) ∧
    (legal = true → QueueRoom t7 c .copy (locksOf c.uid sides) → QueuesCommand s i tk t7 .copy (locksOf c.uid sides) sides 2 (l == 1) x y h1 h2 g1 g2) ∧
    (legal = true → 16 ≤ ((getSeq t7 c.uid c.q).eq .copy).cmds.length → exec i s = .next (stopWord p c (.freeze (.queue 16) none)))) ∧
  (∀ (h : BitVec 4) (a b : BitVec 6) (l : BitVec 1) (tk : BitVec 2) (s p t0 t1 t2 t3 : State) (hd : Handle) (x y : Word),
    let i := Instr.cfill h a b l tk
    let c := issueCtx s i tk
    let sides := tensorSide t2 c.uid hd (coordOf x) (restOf hd (coordOf x)) true
    Issues s i tk p → rh c h.toNat (bodyState s p) = .ok (hd, t0) → rs2 c a b t0 = .ok ((x, y), t1) → checkHandle c hd true destMask t1 = .ok ((), t2) →
    checkSides c false sides t2 = .ok ((), t3) →
    (hScl hd = true → FaultsWith s p i tk 2) ∧
    (hScl hd = false → QueueRoom t3 c .copy (locksOf c.uid sides) →
      QueuesCommand s i tk t3 .copy (locksOf c.uid sides) sides 3 (l == 1) x y hd 0 0 0) ∧
    (hScl hd = false → 16 ≤ ((getSeq t3 c.uid c.q).eq .copy).cmds.length → exec i s = .next (stopWord p c (.freeze (.queue 16) none)))) ∧
  (∀ (h : BitVec 4) (a b : BitVec 6) (l : BitVec 1) (tk : BitVec 2) (s p t0 t1 t2 : State) (hd : Handle) (x y : Word),
    let i := Instr.cpfx h a b l tk
    let c := issueCtx s i tk
    Issues s i tk p → rh c h.toNat (bodyState s p) = .ok (hd, t0) → rs2 c a b t0 = .ok ((x, y), t1) → checkHandle c hd false 0 t1 = .ok ((), t2) →
    (QueueRoom t2 c .copy [] → QueuesCommand s i tk t2 .copy [] [] 4 (l == 1) x y hd 0 0 0) ∧
    (16 ≤ ((getSeq t2 c.uid c.q).eq .copy).cmds.length → exec i s = .next (stopWord p c (.freeze (.queue 16) none)))) ∧
  (∀ (a b : BitVec 6) (l : BitVec 1) (tk : BitVec 2) (s p t0 : State) (x y : Word),
    let i := Instr.cxfr a b l tk
    let c := issueCtx s i tk
    let fits := xferLegal x y && rangeFits t0 c.uid c.uid (bits x.toNat 0 21) (bits x.toNat 32 16 + 1) &&
      !(extentsInStage (getUnit t0 c.uid) (xferLocks t0 c.uid x y))
    Issues s i tk p → rs2 c a b (bodyState s p) = .ok ((x, y), t0) →
    (fits = false → FaultsWith s p i tk 4) ∧
    (fits = true → QueueRoom t0 c .copy (xferLocks t0 c.uid x y) →
      QueuesCommand s i tk t0 .copy (xferLocks t0 c.uid x y) [] 5 (l == 1) x y 0 0 0 0) ∧
    (fits = true → 16 ≤ ((getSeq t0 c.uid c.q).eq .copy).cmds.length → exec i s = .next (stopWord p c (.freeze (.queue 16) none))))

/-- GATH, SCAT, GATHP and SCATA enter their command in the gather queue; a rank or format the form does not take is a format fault. In every
state in which the word issues, its handle and operand words are read and the handle's check passes: a tensor that the form does not take is
a format fault. Where it is taken, the pointers name partitions, the index list fits and the pointer checks pass, the word ends its turn
with the command at the tail of the gather queue, its code 0 to 3, both operand words and the handle, and locks over the list and the other
sides in the own partition (R166, R168, R184, R190, R191). -/
def Obligations.GatherWordsQueueTheirCommand : Prop :=
  ∀ w ∈ gatherWords, ∀ (h : BitVec 4) (a b : BitVec 6) (tk : BitVec 2) (s p t0 t1 t2 t3 : State) (hd : Handle) (x y : Word) (list : Side)
    (sides : List Side),
    let i := w.1 h a b tk
    let c := issueCtx s i tk
    Issues s i tk p → rh c h.toNat (bodyState s p) = .ok (hd, t0) → rs2 c a b t0 = .ok ((x, y), t1) →
    checkHandle c hd (w.2 = 1 || w.2 = 3) 0 t1 = .ok ((), t2) →
    (¬ GatherTakes w.2 hd → FaultsWith s p i tk 2) ∧
    (GatherTakes w.2 hd → gatherSides t2 c.uid w.2 hd x y = none → FaultsWith s p i tk 4) ∧
    (GatherTakes w.2 hd → gatherSides t2 c.uid w.2 hd x y = some (list, sides) → rangeFits t2 c.uid list.owner list.off list.len = true →
      checkSides c (listBad x || rowPtrBad y) sides t2 = .ok ((), t3) → QueueRoom t3 c .gather (locksOf c.uid (list :: sides)) →
      QueuesCommand s i tk t3 .gather (locksOf c.uid (list :: sides)) (sides.take 1) w.2 false x y hd 0 0 0)

/-- XALLR, XRDS, XALLG, XSEND, XRECV and XEXCH enter their command in the collective queue, or take the format fault of their issue checks. In
every state in which the word issues, its handle and operand words are read, the handle's check and its scale link pass: words, set, peer,
format or extents that the command does not take, or a unit that collects, are a format fault; otherwise, with room in the queue, the word
ends its turn with C's stores performed and the command at the tail of the collective queue with its code 0 to 5, both operand words, the
handle and its scale handle, and no lock (R429, R430, R434). -/
def Obligations.CollectiveWordsQueueTheirCommand : Prop :=
  ∀ w ∈ collectiveWords, ∀ (h : BitVec 4) (a b : BitVec 6) (tk : BitVec 2) (s p t0 t1 t2 t3 : State) (hd g : Handle) (x y : Word),
    let i := w.1 h a b tk
    let c := issueCtx s i tk
    let taken := colWordsLegal w.2 x y = true ∧ colLegal t3 w.2 hd x = true ∧ collecting (getUnit t3 c.uid) = false
    Issues s i tk p → rh c h.toNat (bodyState s p) = .ok (hd, t0) → rs2 c a b t0 = .ok ((x, y), t1) → checkHandle c hd (w.2 != 3) 0 t1 = .ok ((), t2) →
    scaleOf c hd t2 = .ok (g, t3) →
    (¬ taken → FaultsWith s p i tk 2) ∧ (taken → QueueRoom t3 c .coll [] → QueuesCommand s i tk t3 .coll [] [] w.2 false x y hd 0 g 0)

/-- The six row-engine words enter their command in C's row queue with its locks, or take the format fault of their issue checks. In every state
in which the word issues, source and destination handle and operand words are read, the handle checks pass and the scale handle is read:
handles or words that the command does not take, or a global write while the unit collects, are a format fault, and a range that touches the
stage of an open level a window-permission fault; otherwise, with room, the word ends its turn with the command at the tail of the row queue
with its code 0 to 5, its relocation flag, both operand words, the destination or auxiliary handle, the source and its scale handle, and
locks over the rows it reads and writes (R229, R230, R231, R232, R301). -/
def Obligations.RowWordsQueueTheirCommand : Prop :=
  ∀ w ∈ rowWords, ∀ (d : BitVec 3) (h : BitVec 4) (a b : BitVec 6) (l : BitVec 1) (tk : BitVec 2) (s p t0 t1 t2 t3 t4 t5 : State)
    (src dst g : Handle) (x y : Word),
    let i := w.1 d h a b l tk
    let c := issueCtx s i tk
    let taken := rowLegal w.2 dst src x y = true ∧ rowCollects (getUnit t5 c.uid) w.2 dst src = false
    let locks := rowLocks t5 c.uid w.2 dst src g x
    Issues s i tk p → rh c h.toNat (bodyState s p) = .ok (src, t0) → rh c d.toNat t0 = .ok (dst, t1) → rs2 c a b t1 = .ok ((x, y), t2) →
    checkHandle c src (w.2 = 2 || w.2 = 3) 0 t2 = .ok ((), t3) → checkHandle c dst (w.2 != 3) 0 t3 = .ok ((), t4) → scaleOf c src t4 = .ok (g, t5) →
    (¬ taken → FaultsWith s p i tk 2) ∧ (taken → extentsInStage (getUnit t5 c.uid) locks = true → FaultsWith s p i tk 4) ∧
    (taken → extentsInStage (getUnit t5 c.uid) locks = false → QueueRoom t5 c .row locks →
      QueuesCommand s i tk t5 .row locks [] w.2 (l == 1) x y dst src g 0)

/-- PLSE waits for the lease, PSTAT reads the press, and PREL, PWLD, PMUL, PMULZ and PDRN enter their command in the press queue. In every state
in which the word issues: PLSE, with no release of the lease pending, requests the lease and ends its turn when the core holds it by a grant
to its unit, else freezes with the request standing. PSTAT ends its turn with the word of R251 in flight for its register at latency 1,
where it has a place. PREL is queued with code 1. PWLD of a plane word and an image that its rule takes, PMUL and PMULZ of a stream and mode
word that their rule takes, and PDRN of a destination that its rule takes, with their place and handle checks passed and every written row
group allotted, are queued with codes 2 to 5 and locks over the rows and bytes they use; a form not taken is a format fault, and an
activation or scale handle that touches the stage of an open level a window-permission fault (R201, R203, R248, R249, R250, R251, R252,
R253, R255). -/
def Obligations.PressWordsQueueOrAnswer : Prop :=
  (∀ (tk : BitVec 2) (s p : State),
    let i := Instr.plse tk
    let c := issueCtx s i tk
    let core := (getUnit (bodyState s p) c.uid).place.core
    let t := settlePress (bodyState s p) (core / 4)
    let r := modUnit t c.uid fun u => { u with press := { u.press with lreq := true } }
    Issues s i tk p →
    (prelPending t c.uid = true → exec i s = .next (stopWord p c (.freeze .lease (some t)))) ∧
    (prelPending t c.uid = false → ¬ ((getCluster r (core / 4)).press.holder = some (core % 4) ∧
        (getCluster r (core / 4)).press.unit = some c.uid) →
      exec i s = .next (stopWord p c (.freeze .lease (some r)))) ∧
    (prelPending t c.uid = false → (getCluster r (core / 4)).press.holder = some (core % 4) →
      (getCluster r (core / 4)).press.unit = some c.uid → exec i s = .next (endWord s i tk false r))) ∧
  (∀ (a : BitVec 6) (tk : BitVec 2) (s p : State),
    let i := Instr.pstat a tk
    let c := issueCtx s i tk
    let t := settlePress (bodyState s p) ((getUnit (bodyState s p) c.uid).place.core / 4)
    let f : State := { t with free := t.free + 1 }
    Issues s i tk p → ∃ w, PressReads f c.uid w ∧
      ∀ u, landScalar c a.toNat w 1 f = .ok ((), u) → exec i s = .next (endWord s i tk true u)) ∧
  (∀ (tk : BitVec 2) (s p : State),
    let i := Instr.prel tk
    Issues s i tk p → QueueRoom (bodyState s p) (issueCtx s i tk) .press [] → QueuesCommand s i tk (bodyState s p) .press [] [] 1 false 0 0 0 0 0 0) ∧
  (∀ (h : BitVec 4) (a : BitVec 6) (tk : BitVec 2) (s p t0 t1 t2 t3 : State) (w : Handle) (v : Word) (off : Nat),
    let i := Instr.pwld h a tk
    let c := issueCtx s i tk
    let prec := v.toNat % 32
    let taken := fmtAligned (hFmt w) = true ∧ hRank w = 2 ∧ hDim w 0 = 256 ∧ hDim w 1 = 256 ∧ prec ≤ imagePlanes (hFmt w) ∧
      ¬ (hFmt w = 0x2F ∧ prec = 1) ∧ v.toNat / 32 = 0
    let locks := [{ rows := false, write := false, lo := off, hi := off + imageBytes (declaredPlanes (hFmt w) v) }]
    Issues s i tk p → rh c h.toNat (bodyState s p) = .ok (w, t0) → rs c a t0 = .ok (v, t1) →
    (¬ taken → FaultsWith s p i tk 2) ∧
    (taken → checkPlace c w (imageBytes (imagePlanes (hFmt w))) 256 t1 = .ok (off, t2) → checkHandle c w false 0 t2 = .ok ((), t3) →
      QueueRoom t3 c .press locks → QueuesCommand s i tk t3 .press locks [] 2 false v 0 w 0 0 0)) ∧
  (∀ x ∈ [(Instr.pmul, 3), (.pmulz, 4)], ∀ (h : BitVec 4) (a b : BitVec 6) (tk : BitVec 2) (s p t0 t1 t2 t3 t4 t5 : State) (hd g : Handle)
    (v m : Word) (off : Nat),
    let i := x.1 h a b tk
    let c := issueCtx s i tk
    let taken := actFmtLegal hd (m.getLsbD 0) = true ∧ m.toNat / 4 = 0 ∧ streamLegal hd v = true
    let locks := rowExtent v :: actLocks t5 c.uid hd g v
    Issues s i tk p → rh c h.toNat (bodyState s p) = .ok (hd, t0) → pendScale c hd t0 = .ok ((), t0) → rs2 c a b t0 = .ok ((v, m), t1) →
    (¬ taken → FaultsWith s p i tk 2) ∧
    (taken → checkPlace c hd (hSpan hd) 1 t1 = .ok (off, t2) → checkHandle c hd false 0 t2 = .ok ((), t3) → scaleOf c hd t3 = .ok (g, t4) →
      (extentsInStage (getUnit t4 c.uid) (actLocks t4 c.uid hd g v) = true → FaultsWith s p i tk 4) ∧
      (extentsInStage (getUnit t4 c.uid) (actLocks t4 c.uid hd g v) = false → allotAll c (streamGroups v) t4 = .ok ((), t5) → QueueRoom t5 c .press locks →
        QueuesCommand s i tk t5 .press locks [] x.2 false v m hd 0 g 0))) ∧
  (∀ (k : BitVec 3) (h : BitVec 4) (a : BitVec 6) (tk : BitVec 2) (s p t0 t1 t2 t3 t4 t5 : State) (w g : Handle) (v : Word) (off : Nat),
    let i := Instr.pdrn k h a tk
    let c := issueCtx s i tk
    let span := rowSpan w (streamHrow v) (streamCount v)
    let scales := rowSpan g (streamHrow v) (streamCount v)
    let locks := rowExtent v :: handleLock t5 c.uid w true span.1 span.2 ++
      (if hScl w then handleLock t5 c.uid g true scales.1 scales.2 else [])
    Issues s i tk p → rh c h.toNat (bodyState s p) = .ok (w, t0) → (if hScl w then rh c k.toNat t0 = .ok (g, t1) else g = 0 ∧ t1 = t0) →
    rs c a t1 = .ok (v, t2) →
    (drainLegal (getUnit t2 c.uid) t2 c.uid w g k.toNat v = false → FaultsWith s p i tk 2) ∧
    (drainLegal (getUnit t2 c.uid) t2 c.uid w g k.toNat v = true → checkPlace c w (hSpan w) 1 t2 = .ok (off, t3) →
      checkHandle c w true 0 t3 = .ok ((), t4) →
      (if hScl w then ∃ o t, checkPlace c g (hSpan g) 1 t4 = .ok (o, t) ∧ checkHandle c g true 0 t = .ok ((), t5) else t5 = t4) →
      QueueRoom t5 c .press locks → QueuesCommand s i tk t5 .press locks [] 5 false v 0 w g 0 0))

/-- CKOPEN pushes a level, its grow form moves one to a larger pool, and CKSEAL turns the innermost level into a sealed cask. In every state in
which the word issues, its handles are read and its pool is read and written without a stop: CKOPEN of a descriptor whose check word is 0
raises the pool's serial, performs the stores of all four sequencers (the model's choice, logs 8 and 33) and pushes a level with that pool,
no record and 32 bytes used, its open handle in flight at latency 1; a check word that is not 0, with the STALE bit of a sealed handle in
it, is a format fault with that word. The grow form of a larger pool copies header and records and keeps the level's records. CKSEAL freezes
while a command of the level is under way; else it writes header and records to the pool, pops the level and sends the sealed handle (R296,
R297, R299, R300, R302, R308, R309). -/
def Obligations.LevelsOpenGrowAndSeal : Prop :=
  (∀ (d a : BitVec 4) (tk : BitVec 2) (s p t0 t1 t2 t : State) (h : Handle) (n : Nat),
    let i := Instr.ckopen d a tk
    let c := issueCtx s i tk
    let u := getUnit t0 c.uid
    let l := newLevel u h n
    Issues s i tk p → rh c a.toNat (bodyState s p) = .ok (h, t0) →
    (∀ w t1, staleWords c [h] (descWord u h true) t0 = .ok (w, t1) → w ≠ 0 → ChecksFail s p i tk w) ∧
    (descWord u h true = 0 → poolSerial c (ckPool h) t0 = .ok (n, t1) →
      poolWrite c (ckPool h) 0 (poolHeader (n + 1) 0 32 u.ident.key.cont) t1 = .ok ((), t2) →
      landHandle c d.toNat (openHandle u u.levels.length l) 1
        (modUnit (performUnit t2 c.uid) c.uid fun v => { v with levels := l :: v.levels, nlevel := v.nlevel + 1 }) = .ok ((), t) →
      exec i s = .next (endWord s i tk true t))) ∧
  (∀ (d a : BitVec 4) (tk : BitVec 2) (s p t0 t1 t2 t : State) (g h : Handle) (l : CaskLevel),
    let i := Instr.ckopenGrow d a tk
    let c := issueCtx s i tk
    let u := getUnit t1 c.uid
    let m : CaskLevel := { l with pool := ckPool h, cap := ckCap h }
    let w := descWord u h false ||| flagBit 7 (ckCap h < l.used || overlap (ckPool h).toNat (ckCap h) l.pool.toNat l.cap)
    Issues s i tk p → rh c d.toNat (bodyState s p) = .ok (g, t0) → rh c a.toNat t0 = .ok (h, t1) →
    (∀ x t2, staleWords c [g, h] (growWord u g h) t1 = .ok (x, t2) → x ≠ 0 → ChecksFail s p i tk x) ∧
    (caskWord u g .anyOpen = 0 → u.levels[levelPlace u (ckLvl g)]? = some l →
      growWord u g h = w ∧
      (w = 0 → poolWrite c m.pool 0 (levelImage u.ident.key.cont m) t1 = .ok ((), t2) →
        landHandle c d.toNat (openHandle u (ckLvl g) m) 1
          (modUnit t2 c.uid fun v => { v with levels := v.levels.map fun x => if x.id = l.id then m else x }) = .ok ((), t) →
        exec i s = .next (endWord s i tk true t)))) ∧
  (∀ (d a : BitVec 4) (tk : BitVec 2) (s p t0 t1 t2 t : State) (h : Handle) (l : CaskLevel) (ls : List CaskLevel),
    let i := Instr.ckseal d a tk
    let c := issueCtx s i tk
    let cont := (getUnit t1 c.uid).ident.key.cont
    Issues s i tk p → rh c a.toNat (bodyState s p) = .ok (h, t0) → checkCask c h .innermost t0 = .ok ((), t1) → (getUnit t1 c.uid).levels = l :: ls →
    (levelBusy t1 c.uid l.id = true → exec i s = .next (stopWord p c (.freeze .engines none))) ∧
    (levelBusy t1 c.uid l.id = false → poolWrite c l.pool 0 (levelImage cont l) t1 = .ok ((), t2) →
      landHandle c d.toNat (ckHandle true 0 cont l.serial l.recs.length l.used l.cap l.pool) 1
        (modUnit t2 c.uid fun v => { v with levels := v.levels.drop 1, reads := if (v.levels.drop 1).isEmpty then [] else v.reads }) = .ok ((), t) →
      exec i s = .next (endWord s i tk true t)))

/-- CKBLND, CKFILT, CKREBS derive a cask; CKPOUR performs a record a turn; CKDROP, CKINFO and CKABORT do as their rules say. In every state in
which the word issues, its sources are read and their checks pass: CKBLND writes the records of a and then of b to the destination pool,
CKFILT those that start in a range, CKREBS all with those of the range moved, and the sealed handle follows at latency 1; the operands of a
derivation are checked in one word, and a capacity below the bound takes cause 6. That CKPOUR performs one record in each turn, in order, is
the model's choice (logs 50 and 73): it performs the record its progress names, freezes with the progress advanced while more are left, and
else ends its turn. CKDROP raises the pool's serial. CKINFO puts its value in flight. CKABORT raises the serial, cancels the level's
commands (with what they leave the model's choice, log 33), pops the level and goes to its abort target, or returns there from a handler
(R299, R301, R310, R311, R312, R313). -/
def Obligations.CasksDerivePourAndDrop : Prop :=
  (∀ (d a b : BitVec 4) (tk : BitVec 2) (s p t0 t1 t2 t3 t4 t5 t : State) (g x y : Handle) (l m : List CaskRec),
    let i := Instr.ckblnd d a b tk
    let c := issueCtx s i tk
    Issues s i tk p → rh c d.toNat (bodyState s p) = .ok (g, t0) → rh c a.toNat t0 = .ok (x, t1) → rh c b.toNat t1 = .ok (y, t2) →
    checkDerive c g [x, y] (ckUsed x + ckUsed y - 32) t2 = .ok ((), t3) → caskRecords c x t3 = .ok (l, t4) → caskRecords c y t4 = .ok (m, t5) →
    writeDerived c d g (l ++ m) t5 = .ok ((), t) → exec i s = .next (endWord s i tk true t)) ∧
  (∀ (d a : BitVec 4) (r : BitVec 6) (tk : BitVec 2) (s p t0 t1 t2 t3 t4 t : State) (g x : Handle) (lo n : Word) (l : List CaskRec),
    let i := Instr.ckfilt d a r tk
    let c := issueCtx s i tk
    Issues s i tk p → rh c d.toNat (bodyState s p) = .ok (g, t0) → rh c a.toNat t0 = .ok (x, t1) → rs2 c r (r + 1) t1 = .ok ((lo, n), t2) →
    checkDerive c g [x] (ckUsed x) t2 = .ok ((), t3) → caskRecords c x t3 = .ok (l, t4) →
    writeDerived c d g (l.filter fun r => lo.toNat ≤ r.vaddr.toNat && r.vaddr.toNat < lo.toNat + n.toNat) t4 = .ok ((), t) →
    exec i s = .next (endWord s i tk true t)) ∧
  (∀ (d a : BitVec 4) (r : BitVec 6) (tk : BitVec 2) (s p t0 t1 t2 t3 t4 t5 t : State) (g x : Handle) (lo n off : Word) (l : List CaskRec),
    let i := Instr.ckrebs d a r tk
    let c := issueCtx s i tk
    Issues s i tk p → rh c d.toNat (bodyState s p) = .ok (g, t0) → rh c a.toNat t0 = .ok (x, t1) → rs2 c r (r + 1) t1 = .ok ((lo, n), t2) →
    rs c (r + 2) t2 = .ok (off, t3) → checkDerive c g [x] (ckUsed x) t3 = .ok ((), t4) → caskRecords c x t4 = .ok (l, t5) →
    writeDerived c d g (l.map fun r => if lo.toNat ≤ r.vaddr.toNat ∧ r.vaddr.toNat < lo.toNat + n.toNat then movedRecord r off else r) t5 = .ok ((), t) →
    exec i s = .next (endWord s i tk true t)) ∧
  (∀ (u : UnitState) (d : Handle) (xs : List Handle), deriveWord u d xs = 0 ↔ descWord u d false = 0 ∧
    ∀ h ∈ xs, caskWord u h .sealed = 0 ∧ overlap (ckPool d).toNat (ckCap d) (ckPool h).toNat (ckUsed h) = false) ∧
  (∀ (c : Ctx) (d : Handle) (xs : List Handle) (bound : Nat) (s t : State) (w : Word),
    staleWords c (d :: xs) (deriveWord (getUnit s c.uid) d xs) s = .ok (w, t) →
    checkDerive c d xs bound s =
      if w ≠ 0 then .error (.trap 2 w none none)
      else if ckCap d < bound then .error (.trap 6 (BitVec.ofNat 64 (2 ^ 63 + bound % 2 ^ 41)) none none) else .ok ((), t)) ∧
  (∀ (a : BitVec 4) (r : BitVec 6) (tk : BitVec 2) (s p t0 t1 t2 t3 : State) (h : Handle) (w : Word) (l : List CaskRec) (k : Nat),
    let i := Instr.ckpour a r tk
    let c := issueCtx s i tk
    let pour := (getSeq t0 c.uid c.q).fl.pour
    let at1 (v : Option (Nat × Nat)) (u : State) := modSeq u c.uid c.q fun sq => sq.modFl fun f => { f with pour := v }
    let b := performAll t3 c.uid c.q
    Issues s i tk p → rh c a.toNat (bodyState s p) = .ok (h, t0) → rs c r t0 = .ok (w, t1) →
    (if pour = none then checkCask c h .sealed t1 = .ok ((), t2) else t2 = t1) → caskRecords c h t2 = .ok (l, t3) →
    (pour = none → pourLegal w l = true ∧ k = w.toNat % 2 ^ 32) → (∀ v, pour = some v → k = v.2) →
    (l.length ≤ k → exec i s = .next (endWord s i tk false (at1 none b))) ∧
    (∀ x t4, l[k]? = some x → pourRecord c x (k + 1 == l.length && w.getLsbD 36) (w.toNat / 2 ^ 32 % 16) (at1 (some (r.toNat, k)) b) = .ok ((), t4) →
      exec i s = .next (if k + 1 < l.length then stopWord p c (.freeze .cask (some (at1 (some (r.toNat, k + 1)) t4))) else endWord s i tk false (at1 none t4)))) ∧
  (∀ (a : BitVec 4) (tk : BitVec 2) (s p t0 t1 t2 t : State) (h : Handle) (n : Nat),
    let i := Instr.ckdrop a tk
    let c := issueCtx s i tk
    Issues s i tk p → rh c a.toNat (bodyState s p) = .ok (h, t0) → checkCask c h .sealed t0 = .ok ((), t1) →
    poolSerial c (ckPool h) t1 = .ok (n, t2) → poolWrite c (ckPool h) 0 (leBytes 8 ((n + 1) % 2 ^ 32)) t2 = .ok ((), t) →
    exec i s = .next (endWord s i tk false t)) ∧
  (∀ (a k : BitVec 4) (r : BitVec 6) (tk : BitVec 2) (s p t0 t1 t : State) (h : Handle),
    let i := Instr.ckinfo a k r tk
    let c := issueCtx s i tk
    let f : State := { t1 with free := t1.free + 1 }
    Issues s i tk p → rh c a.toNat (bodyState s p) = .ok (h, t0) → checkCask c h .either t0 = .ok ((), t1) →
    landScalar c r.toNat (infoWord (getUnit t1 c.uid) h k.toNat (Config.freeValue t1.free)) 1 f = .ok ((), t) →
    exec i s = .next (endWord s i tk true t)) ∧
  (∀ (u : UnitState) (h : Handle) (f : Word), ckSeal h = true →
    infoWord u h 0 f = BitVec.ofNat 64 (ckNrec h) ∧ infoWord u h 1 f = BitVec.ofNat 64 (ckUsed h) ∧ infoWord u h 2 f = BitVec.ofNat 64 (ckCap h) ∧
    infoWord u h 3 f = BitVec.ofNat 64 (1 + 2 * ckLvl h) ∧ infoWord u h 4 f = BitVec.ofNat 64 u.levels.length) ∧
  (∀ (a : BitVec 4) (tk : BitVec 2) (s p t0 t1 t2 : State) (h : Handle) (l : CaskLevel) (ls : List CaskLevel),
    let i := Instr.ckabort a tk
    let c := issueCtx s i tk
    let t := modUnit (modUnit (abortCommands t2 c.uid l.id) c.uid dropWaiting) c.uid popLevel
    Issues s i tk p → rh c a.toNat (bodyState s p) = .ok (h, t0) → checkCask c h .innermost t0 = .ok ((), t1) → (getUnit t1 c.uid).levels = l :: ls →
    poolWrite c l.pool 0 (poolHeader (l.serial + 1) 0 32 (getUnit t1 c.uid).ident.key.cont) t1 = .ok ((), t2) →
    exec i s = .next (endWord s i tk false (if (getSeq t c.uid c.q).tr.tstat.getLsbD 0 then beginReturn t c.uid c.q (BitVec.ofNat 64 l.abt)
      else modSeq t c.uid c.q fun sq => { sq with pc := BitVec.ofNat 64 l.abt })))

/-- Each element-wise vector word computes its table's function in every selected lane and sends the row with the source tag. In every state in
which the word issues, its guard and its sources are read: a guard with no bit set leaves only the token actions; sources of different tags,
or of a tag outside the word's class, are a format fault; otherwise the word ends its turn with a row in flight at its latency, in the
source tag, whose selected lanes hold the table's function of the lanes of the sources, merged by the guard unless it is p0, with the flags
of the selected lanes joined. For integer tags the functions are those of w-bit words (R98, R208, R209, R210, R212, R219, R220, R221). -/
def Obligations.VectorLanesFollowTheirTable : Prop :=
  (∀ w ∈ vectorBinary, ∀ (d a b : BitVec 5) (p : BitVec 4) (tk : BitVec 2) (s p0 t0 t1 t2 : State) (g : Mask) (ta tb : Option (BitVec 6)) (x y : Row),
    let i := w.form d a b p tk
    let c := issueCtx s i tk
    Issues s i tk p0 → rp c p (bodyState s p0) = .ok (g, t0) →
    (g = 0 → RetiresIdle s i tk t0) ∧
    (g ≠ 0 → rv c a t0 = .ok ((ta, x), t1) → rv c b t1 = .ok ((tb, y), t2) →
      (joinTags ta tb = none → FaultsWith s p0 i tk 2) ∧
      (∀ f, joinTags ta tb = some f → w.cls f = false → FaultsWith s p0 i tk 2) ∧
      ∀ f, joinTags ta tb = some f → w.cls f = true →
        let op := fun k => w.op f (laneAt (rowElems f x) k) (laneAt (rowElems f y) k)
        LandsRow s i tk t2 d f (rowFrom f (laneResults (laneCount f) g op)) (if p = 0 then none else some g) (laneFlags (laneCount f) g op) w.lat)) ∧
  (∀ w ∈ vectorUnary, ∀ (d a : BitVec 5) (p : BitVec 4) (tk : BitVec 2) (s p0 t0 t1 : State) (g : Mask) (ta : Option (BitVec 6)) (x : Row),
    let i := w.form d a p tk
    let c := issueCtx s i tk
    let f := (ta.getD 0).toNat
    let op := fun k => w.op f (laneAt (rowElems f x) k)
    Issues s i tk p0 → rp c p (bodyState s p0) = .ok (g, t0) →
    (g = 0 → RetiresIdle s i tk t0) ∧
    (g ≠ 0 → rv c a t0 = .ok ((ta, x), t1) →
      (w.cls f = false → FaultsWith s p0 i tk 2) ∧
      (w.cls f = true → LandsRow s i tk t1 d f (rowFrom f (laneResults (laneCount f) g op)) (if p = 0 then none else some g)
        (laneFlags (laneCount f) g op) w.lat)))

/-- VFMA and VFMS add a product to the destination's row, compares write a predicate, and VSEL chooses a lane of two sources. In every state in
which the word issues and its guard and sources are read, the destination's row among them unless it is v30 or v31: VFMA and VFMS, when all
sources but v31 have one tag of the class, send a*b + c and a*b - c in every selected lane at latency 4, c being the destination's row, 0
for v30 and v31, and else take a format fault; for integers the result is that of w-bit words. VCMPEQ, VCMPLT and VCMPLE send a predicate at
latency 2 whose bit k is set just where the lane exists, is selected and compares so. VSEL, with no guard, sends a's lane where the
predicate's bit is set and b's elsewhere (R95, R113, R207, R210, R219, R220). -/
def Obligations.MultiplyAddCompareAndSelect : Prop :=
  (∀ w ∈ [(Instr.vfma, false), (.vfms, true)], ∀ (d a b : BitVec 5) (p : BitVec 4) (tk : BitVec 2) (s p0 t0 t1 t2 t3 : State) (g : Mask)
    (ta tb td : Option (BitVec 6)) (x y z : Row),
    let i := w.1 d a b p tk
    let c := issueCtx s i tk
    let op := fun f k => if fmtFloat f then floatFma f w.2 (laneAt (rowElems f x) k) (laneAt (rowElems f y) k) (laneAt (rowElems f z) k)
      else
        let m := BitVec.ofNat (fmtBits f) (laneAt (rowElems f x) k) * BitVec.ofNat (fmtBits f) (laneAt (rowElems f y) k)
        let v := BitVec.ofNat (fmtBits f) (laneAt (rowElems f z) k)
        ((if w.2 then m - v else m + v).toNat, 0)
    let tags := ta.toList ++ tb.toList ++ td.toList
    let joint := fun f => clsFI f = true ∧ tags ≠ [] ∧ ∀ t ∈ tags, t.toNat = f
    Issues s i tk p0 → rp c p (bodyState s p0) = .ok (g, t0) → g ≠ 0 → rv c a t0 = .ok ((ta, x), t1) → rv c b t1 = .ok ((tb, y), t2) →
    (if 30 ≤ d.toNat then z = 0 ∧ td = none ∧ t3 = t2 else rv c d t2 = .ok ((td, z), t3)) →
    ((∀ f, ¬ joint f) → FaultsWith s p0 i tk 2) ∧
    ∀ f, joint f → LandsRow s i tk t3 d f (rowFrom f (laneResults (laneCount f) g (op f))) (if p = 0 then none else some g)
      (laneFlags (laneCount f) g (op f)) 4) ∧
  (∀ w ∈ [(Instr.vcmpeq, 0), (.vcmplt, 1), (.vcmple, 2)], ∀ (d a b : BitVec 5) (p : BitVec 4) (tk : BitVec 2) (s p0 t0 t1 t2 : State) (g m : Mask)
    (ta tb : Option (BitVec 6)) (x y : Row) (f : Nat),
    let i := w.1 d a b p tk
    let c := issueCtx s i tk
    let el (r : Row) (k : Nat) := laneAt (rowElems f r) k
    Issues s i tk p0 → rp c p (bodyState s p0) = .ok (g, t0) → g ≠ 0 → rv c a t0 = .ok ((ta, x), t1) → rv c b t1 = .ok ((tb, y), t2) →
    joinTags ta tb = some f → clsFI f = true →
    (∀ k, k < 1024 → m.getLsbD k = (decide (k < laneCount f) && g.getLsbD k && laneOrder w.2 f (el x k) (el y k))) →
    LandsMask s i tk t2 d.toNat m (laneFlags (laneCount f) g fun k => (0, snanFlag f (el x k) ||| snanFlag f (el y k))) 2) ∧
  (∀ (d a b : BitVec 5) (p : BitVec 4) (tk : BitVec 2) (s p0 t0 t1 t2 : State) (g : Mask) (ta tb : Option (BitVec 6)) (x y : Row) (f : Nat),
    let i := Instr.vsel d a b p tk
    let c := issueCtx s i tk
    Issues s i tk p0 → rp c p (bodyState s p0) = .ok (g, t0) → rv c a t0 = .ok ((ta, x), t1) → rv c b t1 = .ok ((tb, y), t2) →
    joinTags ta tb = some f → clsM f = true →
    LandsRow s i tk t2 d f (rowFrom f ((List.range (laneCount f)).map fun k => laneAt (rowElems f (if g.getLsbD k then x else y)) k)) none 0 2)

/-- VCVT, VCVTR, VQMX and VDQMX convert lane k of the source into lane k of the destination, in the target tag. In every state in which the word
issues and its guard and sources are read: VCVT and VCVTR of a source and target that convert, no selected lane holding a code without a
value, end their turn with a row of the target tag in flight at latency 3 whose selected lanes below both lane counts hold the converted
elements and whose other lanes hold 0; else a format fault. VQMX of a float row sends its MX64 elements to vd and the scale codes of its
runs of 64 to vb; vb equal to vd or v30 is a format fault. VDQMX of MX64 elements and an e8 row sends the decoded elements in its target
tag, else a format fault (R91, R107, R109, R222, R223, R224). -/
def Obligations.ConversionsTakeLanesAcross : Prop :=
  (∀ w ∈ ((List.finRange 32).map fun k => ((fun d a p t => Instr.vcvt d a (BitVec.ofFin k) p t), k.val, RMode.rne)) ++
      ([1, 2, 3] : List (BitVec 2)).flatMap (fun m => ([0, 1, 2, 3, 4, 5, 6, 7] : List (BitVec 3)).map fun k =>
        ((fun d a p t => Instr.vcvtr d a m k p t), ([1, 2, 3, 8, 9, 10, 11, 12][k.toNat]?).getD 0,
          if m = 1 then RMode.rtz else if m = 2 then .rdn else .rup)),
    ∀ (d a : BitVec 5) (p : BitVec 4) (tk : BitVec 2) (s p0 t0 t1 : State) (g : Mask) (ta : Option (BitVec 6)) (x : Row),
    let i := w.1 d a p tk
    let c := issueCtx s i tk
    let f := (ta.getD 0).toNat
    let dst := w.2.1
    let n := min (laneCount f) (laneCount dst)
    let cv := fun k => if k < n then (convertElem f dst w.2.2 (laneAt (rowElems f x) k)).getD (0, 0) else (0, 0)
    let good := clsM f = true ∧ f ≠ 0 ∧ f ≠ 0x13 ∧ convLegal f dst = true ∧
      ∀ k < n, g.getLsbD k = true → convertElem f dst w.2.2 (laneAt (rowElems f x) k) ≠ none
    Issues s i tk p0 → rp c p (bodyState s p0) = .ok (g, t0) → g ≠ 0 → rv c a t0 = .ok ((ta, x), t1) →
    (¬ good → FaultsWith s p0 i tk 2) ∧
    (good → LandsRow s i tk t1 d dst (rowFrom dst (laneResults (laneCount dst) g cv)) (if p = 0 then none else some g) (laneFlags (laneCount dst) g cv) 3)) ∧
  (∀ (d a b : BitVec 5) (k : BitVec 4) (tk : BitVec 2) (s p0 t1 t2 t3 : State) (ta : Option (BitVec 6)) (x : Row),
    let i := Instr.vqmx d a b k tk
    let c := issueCtx s i tk
    let f := (ta.getD 0).toNat
    let dst := 0x0B + k.toNat
    let q := requantiseRow f dst (rowElems f x)
    Issues s i tk p0 →
    ((b = d ∨ b = 30) → FaultsWith s p0 i tk 2) ∧
    (b ≠ d → b ≠ 30 → rv c a (bodyState s p0) = .ok ((ta, x), t1) → (clsF f = false → FaultsWith s p0 i tk 2) ∧
      (clsF f = true → landVec c d dst (rowFrom dst q.2.1) none q.2.2 3 t1 = .ok ((), t2) →
        landVec c.noPush b 0x13 (rowFrom 0x13 q.1) none 0 3 t2 = .ok ((), t3) → exec i s = .next (endWord s i tk true t3)))) ∧
  (∀ (d a b : BitVec 5) (k : BitVec 4) (tk : BitVec 2) (s p0 t1 t2 : State) (ta tb : Option (BitVec 6)) (x y : Row),
    let i := Instr.vdqmx d a b k tk
    let c := issueCtx s i tk
    let f := (ta.getD (tb.getD 0)).toNat
    let e := (tb.getD (ta.getD 0)).toNat
    let dst := ([8, 9, 0x0A][k.toNat]?).getD 0x0A
    let n := min (laneCount f) (laneCount dst)
    let op := fun j =>
      let v := mxDecode f (laneAt (rowElems f x) j) (laneAt (rowElems 0x13 y) (j / 64))
      let r := convertTo dst .rne (.flt v.1)
      (r.1, v.2 ||| r.2 ||| snanFlag f (laneAt (rowElems f x) j))
    Issues s i tk p0 → rv c a (bodyState s p0) = .ok ((ta, x), t1) → rv c b t1 = .ok ((tb, y), t2) →
    (¬ (fmtMx f = true ∧ e = 0x13) → FaultsWith s p0 i tk 2) ∧
    (fmtMx f = true → e = 0x13 → LandsRow s i tk t2 d dst (rowFrom dst ((List.range n).map fun j => (op j).1)) none
      (((List.range n).map fun j => (op j).2).foldr (· ||| ·) 0) 3))

/-- The permutes, element moves and compaction words of VEC2 move elements between lanes, scalars and the compaction buffer. In every state in
which the word issues and its guard and sources are read in their classes: VPERM gives lane k of a by index, 0 outside; VSHUF interleaves
the first halves; VSLIDE gives lane k + s[vb], 0 outside; VBCST one lane in all, 0 outside; each merged by its guard in the source tag at
latency 3. VINS replaces one lane, none when the index is outside. VEXT sends one element, sign-extended for a signed integer tag, 0
outside. VCMPCT appends the selected elements to a buffer of the same tag that holds fewer than N, else a format fault. VCPOP takes the
first N elements where there are as many and p all ones, else p all zeros; VCFLUSH takes up to N, and p has as many low bits set (R207,
R210, R222, R225, R226). -/
def Obligations.PermutesMoveElements : Prop :=
  (∀ (d a b : BitVec 5) (p : BitVec 4) (tk : BitVec 2) (s p0 t0 t1 t2 : State) (g : Mask) (ta tb : Option (BitVec 6)) (x y : Row),
    let i := Instr.vperm d a b p tk
    let c := issueCtx s i tk
    let f := (ta.getD (tb.getD 0)).toNat
    let k := (tb.getD (ta.getD 0)).toNat
    let op := fun j => if j < laneCount k ∧ laneAt (rowElems k y) j < laneCount f then (laneAt (rowElems f x) (laneAt (rowElems k y) j), (0 : Flags)) else (0, 0)
    Issues s i tk p0 → rp c p (bodyState s p0) = .ok (g, t0) → g ≠ 0 → rv c a t0 = .ok ((ta, x), t1) → rv c b t1 = .ok ((tb, y), t2) →
    (¬ (clsM f = true ∧ clsI k = true) → FaultsWith s p0 i tk 2) ∧
    (clsM f = true → clsI k = true → LandsRow s i tk t2 d f (rowFrom f (laneResults (laneCount f) g op)) (if p = 0 then none else some g) 0 3)) ∧
  (∀ (d a b : BitVec 5) (p : BitVec 4) (tk : BitVec 2) (s p0 t0 t1 t2 : State) (g : Mask) (ta tb : Option (BitVec 6)) (x y : Row) (f : Nat),
    let i := Instr.vshuf d a b p tk
    let c := issueCtx s i tk
    let op := fun j => (laneAt (rowElems f (if j % 2 = 0 then x else y)) (j / 2), (0 : Flags))
    Issues s i tk p0 → rp c p (bodyState s p0) = .ok (g, t0) → g ≠ 0 → rv c a t0 = .ok ((ta, x), t1) → rv c b t1 = .ok ((tb, y), t2) →
    joinTags ta tb = some f → clsM f = true →
    LandsRow s i tk t2 d f (rowFrom f (laneResults (laneCount f) g op)) (if p = 0 then none else some g) 0 3) ∧
  (∀ w ∈ [(Instr.vslide, true), (.vbcst, false)], ∀ (d a b : BitVec 5) (p : BitVec 4) (tk : BitVec 2) (s p0 t0 t1 t2 : State) (g : Mask)
    (ta : Option (BitVec 6)) (x : Row) (v : Word),
    let i := w.1 d a b p tk
    let c := issueCtx s i tk
    let f := (ta.getD 0).toNat
    let from_ := fun (j : Nat) => if w.2 then (j : Int) + v.toInt else (v.toNat : Int)
    let op := fun j => (if 0 ≤ from_ j ∧ from_ j < laneCount f then laneAt (rowElems f x) (from_ j).toNat else 0, (0 : Flags))
    Issues s i tk p0 → rp c p (bodyState s p0) = .ok (g, t0) → g ≠ 0 → rv c a t0 = .ok ((ta, x), t1) → clsM f = true → rs c b t1 = .ok (v, t2) →
    LandsRow s i tk t2 d f (rowFrom f (laneResults (laneCount f) g op)) (if p = 0 then none else some g) 0 3) ∧
  (∀ (d a b : BitVec 5) (tk : BitVec 2) (s p0 t0 t1 : State) (td : Option (BitVec 6)) (x : Row) (j v : Word),
    let i := Instr.vins d a b tk
    let c := issueCtx s i tk
    let f := (td.getD 0).toNat
    Issues s i tk p0 → rs2 c a b (bodyState s p0) = .ok ((j, v), t0) → rv c d t0 = .ok ((td, x), t1) → clsM f = true →
    LandsRow s i tk t1 d f (if j.toNat < laneCount f then rowFrom f ((rowElems f x).set j.toNat v.toNat) else x) none 0 3) ∧
  (∀ (d a b : BitVec 5) (tk : BitVec 2) (s p0 t0 t1 t : State) (ta : Option (BitVec 6)) (x : Row) (j : Word),
    let i := Instr.vext d a b tk
    let c := issueCtx s i tk
    let f := (ta.getD 0).toNat
    let e := laneAt (rowElems f x) j.toNat
    Issues s i tk p0 → rv c a (bodyState s p0) = .ok ((ta, x), t0) → clsM f = true → rs c b t0 = .ok (j, t1) →
    landScalar c d.toNat (if laneCount f ≤ j.toNat then 0 else if clsI f && fmtSigned f then (BitVec.ofNat (fmtBits f) e).signExtend 64
      else BitVec.ofNat 64 e) 3 t1 = .ok ((), t) → exec i s = .next (endWord s i tk true t)) ∧
  (∀ (a : BitVec 5) (p : BitVec 4) (tk : BitVec 2) (s p0 t0 t1 : State) (g : Mask) (ta : Option (BitVec 6)) (x : Row),
    let i := Instr.vcmpct a p tk
    let c := issueCtx s i tk
    let f := (ta.getD 0).toNat
    let xs := (getUnit t1 c.uid).xs
    let room := (∀ w, xs.cmpTag = some w → w.toNat = f) ∧ xs.cmp.length < laneCount f
    let cmp := xs.cmp ++ (chosen g f).map (laneAt (rowElems f x))
    Issues s i tk p0 → rp c p (bodyState s p0) = .ok (g, t0) → g ≠ 0 → rv c a t0 = .ok ((ta, x), t1) → clsM f = true →
    (¬ room → FaultsWith s p0 i tk 2) ∧
    (room → RetiresIdle s i tk (modUnit t1 c.uid fun u =>
      { u with xs := u.xs.setCmp cmp (if cmp = [] then none else some (BitVec.ofNat 6 f)) }))) ∧
  (∀ (d : BitVec 5) (p : BitVec 4) (tk : BitVec 2) (s p0 t1 t2 : State),
    let i := Instr.vcpop d p tk
    let c := issueCtx s i tk
    let b := bodyState s p0
    let xs := (getUnit b c.uid).xs
    let f := (xs.cmpTag.getD 0).toNat
    Issues s i tk p0 →
    (xs.cmp.length < laneCount f → landPred c p.toNat 0 3 b = .ok ((), t1) → exec i s = .next (endWord s i tk true t1)) ∧
    (laneCount f ≤ xs.cmp.length →
      landVec c d f (rowFrom f (xs.cmp.take (laneCount f))) none 0 3
        (modUnit b c.uid fun u => { u with xs := dropCompacted u.xs (laneCount f) }) = .ok ((), t1) →
      landPred c.noPush p.toNat (BitVec.allOnes 1024) 3 t1 = .ok ((), t2) → exec i s = .next (endWord s i tk true t2))) ∧
  (∀ (d : BitVec 5) (p : BitVec 4) (tk : BitVec 2) (s p0 t1 t2 : State),
    let i := Instr.vcflush d p tk
    let c := issueCtx s i tk
    let b := bodyState s p0
    let xs := (getUnit b c.uid).xs
    let f := (xs.cmpTag.getD 0).toNat
    let m := min xs.cmp.length (laneCount f)
    Issues s i tk p0 →
    landVec c d f (rowFrom f (xs.cmp.take m)) none 0 3 (modUnit b c.uid fun u => { u with xs := dropCompacted u.xs m }) = .ok ((), t1) →
    landPred c.noPush p.toNat (BitVec.ofNat 1024 (2 ^ m - 1)) 3 t1 = .ok ((), t2) → exec i s = .next (endWord s i tk true t2))

/-- Reductions send one value of the selected lanes in every lane, VDOT the sum of products, and VSCAN the running sums. In every state in which
the word issues, its guard selects a lane and its sources are read in one tag of its class: VRSUM, VRMAX, VRMIN, VRAND, VROR, VPCNT and VDOT
end their turn with a row in flight at latency 6 whose every lane, in the result tag, holds the table's value of the selected lanes: for
integers the exact sum, or sum of products, clamped to the result tag, the extreme value, the conjunction, the disjunction, or how many are
not zero. VSCAN sends at latency 8 in lane k the running sum of the selected lanes up to k, for integers mod 2^w. Another class is a format
fault (R114, R115, R210, R212, R227, R228). -/
def Obligations.ReductionsCombineSelectedLanes : Prop :=
  (∀ w ∈ vectorReductions, ∀ (d a : BitVec 5) (p : BitVec 4) (tk : BitVec 2) (s p0 t0 t1 : State) (g : Mask) (ta : Option (BitVec 6)) (x : Row),
    let i := w.form d a p tk
    let c := issueCtx s i tk
    let f := (ta.getD 0).toNat
    let r := w.op f g (rowElems f x)
    Issues s i tk p0 → rp c p (bodyState s p0) = .ok (g, t0) →
    (g = 0 → RetiresIdle s i tk t0) ∧
    (g ≠ 0 → rv c a t0 = .ok ((ta, x), t1) → (w.cls f = false → FaultsWith s p0 i tk 2) ∧
      (w.cls f = true → LandsRow s i tk t1 d r.1 (rowFrom r.1 (List.replicate (laneCount r.1) r.2.1)) none r.2.2 6))) ∧
  (∀ (d a b : BitVec 5) (p : BitVec 4) (tk : BitVec 2) (s p0 t0 t1 t2 : State) (g : Mask) (ta tb : Option (BitVec 6)) (x y : Row) (f : Nat),
    let i := Instr.vdot d a b p tk
    let c := issueCtx s i tk
    let r := if fmtFloat f then dotLanes f g (rowElems f x) (rowElems f y)
      else (tagOfSum f, clampTo (tagOfSum f) ((chosen g f).map fun k => elemInt f (laneAt (rowElems f x) k) * elemInt f (laneAt (rowElems f y) k)).sum)
    Issues s i tk p0 → rp c p (bodyState s p0) = .ok (g, t0) → g ≠ 0 → rv c a t0 = .ok ((ta, x), t1) → rv c b t1 = .ok ((tb, y), t2) →
    joinTags ta tb = some f → clsFI f = true →
    LandsRow s i tk t2 d r.1 (rowFrom r.1 (List.replicate (laneCount r.1) r.2.1)) none r.2.2 6) ∧
  (∀ (d a : BitVec 5) (p : BitVec 4) (tk : BitVec 2) (s p0 t0 t1 : State) (g : Mask) (ta : Option (BitVec 6)) (x : Row),
    let i := Instr.vscan d a p tk
    let c := issueCtx s i tk
    let f := (ta.getD 0).toNat
    let w := fmtBits f
    let sums := (List.range (laneCount f)).map fun k =>
      (((chosen g f).filter fun j => j ≤ k).foldl (fun v j => v + BitVec.ofNat w (laneAt (rowElems f x) j)) (0 : BitVec w)).toNat
    Issues s i tk p0 → rp c p (bodyState s p0) = .ok (g, t0) → g ≠ 0 → rv c a t0 = .ok ((ta, x), t1) →
    (clsFI f = false → FaultsWith s p0 i tk 2) ∧
    (clsF f = true → LandsRow s i tk t1 d f (rowFrom f (scanLanes f g none 0 (rowElems f x)).1) none (scanLanes f g none 0 (rowElems f x)).2 8) ∧
    (clsI f = true → LandsRow s i tk t1 d f (rowFrom f sums) none 0 8))

/-- VWIN, VROT, LOOPX, LOOPE, VTAG and VTAGR set X's window, its loop and the tags of rows as their rules say. In every state in which the word
issues: VWIN of a legal window word sets base, size and rotation, else a format fault. VROT steps the rotation. LOOPX of a count below 2^48
starts a loop at the next word with the stage predicates of pass 0 in flight for p8 to p11, else a format fault. LOOPE outside a loop is a
format fault; with passes left it counts one more, steps the rotation, sends the stage predicates of the next pass and goes to the loop's
start; at the last pass it ends the loop and sends zeros. VTAG of a valid code, and VTAGR of a register below 64 that holds one, send the
tag to their row at latency 2, else a format fault (R214, R215, R216, R217, R218). -/
def Obligations.WindowsLoopsAndTags : Prop :=
  let stage (c : Ctx) (f : Nat → Mask) (t u : State) : Prop := ∃ t1 t2 t3, landPred c.noPush 8 (f 0) 1 t = .ok ((), t1) ∧
    landPred c.noPush 9 (f 1) 1 t1 = .ok ((), t2) ∧ landPred c.noPush 10 (f 2) 1 t2 = .ok ((), t3) ∧ landPred c.noPush 11 (f 3) 1 t3 = .ok ((), u)
  let pass (n st j k : Nat) : Mask := if k < st ∧ 1 ≤ n ∧ k ≤ j ∧ j < k + n then BitVec.allOnes 1024 else 0
  let turned (x : XState) (n : Nat) : BitVec 5 := if x.k = 0 then x.rot else BitVec.ofInt 5 (((x.rot.toNat : Int) - n) % x.k.toNat)
  (∀ (a : BitVec 6) (tk : BitVec 2) (s p t0 : State) (v : Word),
    let i := Instr.vwin a tk
    let c := issueCtx s i tk
    let k := v.toNat / 256 % 32
    let r := v.toNat / 65536 % 32
    let legal := v &&& 0xFFFFFFFFFFE0E000 = 0 ∧ k ≤ 30 ∧ (k = 0 → r = 0) ∧ (k ≠ 0 → r < k)
    Issues s i tk p → rs c a (bodyState s p) = .ok (v, t0) →
    (¬ legal → FaultsWith s p i tk 2) ∧
    (legal → exec i s = .next (endWord s i tk false (modUnit t0 c.uid fun u => { u with xs := { u.xs with
      base := BitVec.ofNat 8 v.toNat, k := BitVec.ofNat 5 k, rot := BitVec.ofNat 5 r } })))) ∧
  (∀ (n : BitVec 8) (tk : BitVec 2), Effects (.vrot n tk) tk fun c s =>
    modUnit s c.uid fun u => { u with xs := { u.xs with rot := turned u.xs n.toNat } }) ∧
  (∀ (a : BitVec 6) (n : BitVec 8) (tk : BitVec 2) (s p t0 t : State) (v : Word),
    let i := Instr.loopx a n tk
    let c := issueCtx s i tk
    Issues s i tk p → rs c a (bodyState s p) = .ok (v, t0) →
    (2 ^ 48 ≤ v.toNat → FaultsWith s p i tk 2) ∧
    (v.toNat < 2 ^ 48 → stage c (pass v.toNat n.toNat 0) (modUnit t0 c.uid fun u => { u with xs := { u.xs with
        start := (s.here + 4).setWidth 26, stages := n.setWidth 3, act := true, lpi := 0
        lpn := BitVec.ofNat 64 (if v = 0 then 1 else v.toNat + n.toNat - 1) } }) t →
      exec i s = .next (endWord s i tk false t))) ∧
  (∀ (tk : BitVec 2) (s p t : State),
    let i := Instr.loope tk
    let c := issueCtx s i tk
    let b := bodyState s p
    let x := (getUnit b c.uid).xs
    let j := x.lpi + 1
    Issues s i tk p →
    (x.act = false → FaultsWith s p i tk 2) ∧
    (x.act = true → x.lpn.toNat ≤ j.toNat → stage c (fun _ => 0) (modUnit b c.uid fun u => { u with xs := { u.xs with lpi := j, act := false } }) t →
      exec i s = .next (endWord s i tk false t)) ∧
    (x.act = true → j.toNat < x.lpn.toNat → codeLegal (getSeq b c.uid c.q) (x.start.setWidth 64) = false →
      exec i s = .next (jumpTrap s i (x.start.setWidth 64))) ∧
    (x.act = true → j.toNat < x.lpn.toNat → codeLegal (getSeq b c.uid c.q) (x.start.setWidth 64) = true →
      stage c (pass (x.lpn.toNat + 1 - x.stages.toNat) x.stages.toNat j.toNat)
        (modUnit b c.uid fun u => { u with xs := { u.xs with lpi := j, rot := turned x 1 } }) t →
      exec i s = .next (endWord s i tk false (modSeq t c.uid c.q fun sq => { sq with pc := x.start.setWidth 64 })))) ∧
  (∀ (d : BitVec 5) (f : BitVec 6) (tk : BitVec 2) (s p t : State),
    let i := Instr.vtag d f tk
    let c := issueCtx s i tk
    Issues s i tk p →
    (fmtValid f.toNat = false → FaultsWith s p i tk 2) ∧
    (fmtValid f.toNat = true → landTag c d f (bodyState s p) = .ok ((), t) → exec i s = .next (endWord s i tk true t))) ∧
  (∀ (d : BitVec 5) (a : BitVec 6) (tk : BitVec 2) (s p t0 t : State) (v : Word),
    let i := Instr.vtagr d a tk
    let c := issueCtx s i tk
    Issues s i tk p → rs c a (bodyState s p) = .ok (v, t0) →
    (¬ (v.toNat < 64 ∧ fmtValid v.toNat = true) → FaultsWith s p i tk 2) ∧
    (v.toNat < 64 → fmtValid v.toNat = true → landTag c d (BitVec.ofNat 6 v.toNat) t0 = .ok ((), t) → exec i s = .next (endWord s i tk true t)))

/-- The vector loads read the lanes that their form names into a row, and VST and VSTS write them two cycles on. In every state in which the
word issues, its pointer is read and names a partition, every byte lies in it and the swizzle check passes: VLD, VLDT, VLDG, VLDB and VLDS
end their turn with the row of the lanes read in flight at 6, 10, 12, 6 and 6; a format or a limit the form does not take is a format fault,
a byte outside a window-permission fault. VST and VSTS of a row in the pointer's format, or of raw8, end their turn with the store queued
behind the others. Lane e of VLD lies imm*N + e elements from ADDR, of VLDT at row e mod k and element e/k, of VLDS and VSTS at row e/(N/k)
and element e mod N/k, of VLDB at e mod k, of VLDG at its index, none for 0xFFFFFFFF (R139, R165, R196, R197, R198, R199). -/
def Obligations.VectorLoadsAndStoresMoveRows : Prop :=
  (∀ (d : BitVec 5) (a : BitVec 6) (m : BitVec 8) (k : BitVec 4) (b : BitVec 6) (tk : BitVec 2),
    ∀ w ∈ [(Instr.vld d a m tk, VForm.vld, m.toNat, 6), (.vldt d a k tk, .vldt, k.toNat, 10), (.vldg d a b tk, .vldg, b.toNat, 12),
      (.vldb d a k tk, .vldb, k.toNat, 6), (.vlds d a k tk, .vlds, k.toNat, 6)],
    ∀ (s p t0 t1 t2 t3 t4 t : State) (v u : Word) (owner : Nat) (idx : List Nat) (bs : List Byte),
    let i := w.1
    let c := issueCtx s i tk
    let r := rowPtr v
    let offs := laneOffsets w.2.1 r w.2.2.1 idx
    Issues s i tk p → rs c a (bodyState s p) = .ok (v, t0) → checkRowPtr c w.2.1 r t0 = .ok (owner, t0) →
    (if w.2.1 = .vldg then rs c b t0 = .ok (u, t1) ∧ gatherIndices c r (rowPtr u) t1 = .ok (idx, t2) else idx = [] ∧ t2 = t0) →
    (bytesFit t2 c.uid owner (rowBytes r offs) = false → FaultsWith s p i tk 4) ∧
    (bytesFit t2 c.uid owner (rowBytes r offs) = true → vformAccepts w.2.1 r w.2.2.1 = false → FaultsWith s p i tk 2) ∧
    (bytesFit t2 c.uid owner (rowBytes r offs) = true → vformAccepts w.2.1 r w.2.2.1 = true →
      checkSwizzle c owner r (rowBytes r offs) t2 = .ok ((), t3) → vecRead c owner r (rowBytes r offs) t3 = .ok (bs, t4) →
      landLoad c d r.fmt (rowFrom r.fmt (takeLanes r none offs bs)) w.2.2.2 t4 = .ok ((), t) → exec i s = .next (endWord s i tk true t))) ∧
  (∀ (d : BitVec 5) (a : BitVec 6) (m : BitVec 8) (k : BitVec 4) (tk : BitVec 2),
    ∀ w ∈ [(Instr.vst d a m tk, VForm.vst, m.toNat), (.vsts d a k tk, .vsts, k.toNat)],
    ∀ (s p t0 t1 t2 t3 t4 : State) (v : Word) (owner : Nat) (tag : Option (BitVec 6)) (row : Row),
    let i := w.1
    let c := issueCtx s i tk
    let r := rowPtr v
    let img := storeImage w.2.1 r w.2.2 (rowElems r.fmt row)
    let ps := img.map fun x => Place.mem (spadPa (getUnit t0 owner) x.1)
    let u := getUnit t3 c.uid
    let ag := seqAgent u c.uid c.q
    let takes := vformAccepts w.2.1 r w.2.2 = true ∧ (r.fmt = 0 ∨ ∀ x, tag = some x → x.toNat = r.fmt)
    Issues s i tk p → rs c a (bodyState s p) = .ok (v, t0) → checkRowPtr c w.2.1 r t0 = .ok (owner, t0) →
    bytesFit t0 c.uid owner (rowBytes r (laneOffsets w.2.1 r w.2.2 [])) = true → storeRow c d t0 = .ok ((tag, row), t1) →
    (¬ takes → FaultsWith s p i tk 2) ∧
    (takes → checkSwizzle c owner r (img.map Prod.fst) t1 = .ok ((), t2) → seqLocks c ps true t2 = .ok ((), t3) →
      checkMark ag (regionOf t3 ag) u.ident.key.cont u.ident.key.job (rowByteVa t3 owner r) true false (placeRuns ps) t3 = .ok t4 →
      exec i s = .next (endWord s i tk true (modSeq t4 c.uid c.q fun sq => sq.modFl fun fl =>
        { fl with stores := fl.stores ++ [{ bytes := ps.zip (img.map Prod.snd), atom := none, va := rowByteVa t4 owner r (ps.headD (.mem 0)),
                                            due := 3, push := pushOf t4 c.uid c.q c.push, rels := [] }] })))) ∧
  (∀ (r : RowPtr) (imm e : Nat) (idx : List Nat),
    let w := fmtBits r.fmt
    let n := rowN r.fmt
    let k := 2 ^ imm
    e < n →
    (laneOffsets .vld r imm idx)[e]? = some (some ((imm * n + e) * w)) ∧ (laneOffsets .vst r imm idx)[e]? = some (some ((imm * n + e) * w)) ∧
    (laneOffsets .vldb r imm idx)[e]? = some (some (e % k * w)) ∧
    (k ≤ n → (laneOffsets .vldt r imm idx)[e]? = some (some (32 * r.strw * (e % k) + e / k * w)) ∧
      (laneOffsets .vsts r imm idx)[e]? = some (some (32 * r.strw * (e / (n / k)) + e % (n / k) * w)) ∧
      (laneOffsets .vlds r imm idx)[e]? = some (some (32 * r.strw * (e / (n / k)) + e % (n / k) * w))) ∧
    ∀ v, idx[e]? = some v → (laneOffsets .vldg r imm idx)[e]? = some (if v = 0xFFFFFFFF then none else some (v * w)))

/-- Every host form on a bound port does what its rule says and answers with its reply word, waits for its end, or is refused by its RST. In
every state: a form with the reply bit 0 and rd not 0 takes exception 2, one on a port of another thread exception 24; a form whose own
accesses meet a spent budget waits in the controller's queue (R401). Otherwise CBIND creates a live continuation for an empty port, and is
refused 2, 4 or 9; CSTART starts the job of an aligned descriptor that the start accepts; CJOIN and CFENCE answer once their jobs are final
and else wait; CQUERY gives the status as it stands; CPARK marks the resident instances; CCANCEL cancels an instance, 3 where there is none;
CFREE revokes all jobs and frees the continuation once it is quiet; CSIGNAL subtracts; CVERS gives the version; CBIND and CVERS on a
terminated continuation are refused 7 or 1; CFAULT hands over the oldest record. Which identifier CBIND gives out is the model's free
choice, and the partition it binds into is the model's choice of log 26 (R86, R323, R325, R326, R329, R330, R331, R332, R333, R334, R335,
R355). -/
def Obligations.HostFormsComplete : Prop :=
  (∀ (r a d : BitVec 5) (p : BitVec 1) (s : State), 
    ∀ f ∈ [(Instr.cbind a p d, wordHost 0 0 a p d), (.cstart r a p d, wordHost 1 r a p d), (.cjoin a p d, wordHost 2 0 a p d), (.cquery a p d, wordHost 3 0 a p d),
      (.cfence p d, wordHost 4 0 0 p d), (.cpark p d, wordHost 5 0 0 p d), (.ccancel r a p d, wordHost 6 r a p d), (.cfree p d, wordHost 7 0 0 p d),
      (.csignal r a p d, wordHost 8 r a p d), (.cvers a p d, wordHost 9 0 a p d), (.cfault r a p d, wordHost 10 r a p d)],
    (¬ HartFree s → exec f.1 s = .next s) ∧
    (HartFree s → p = 0 → d ≠ 0 → ∃ t, exec f.1 s = .next t ∧ Excepts s s.cur.hart 2 (f.2.setWidth 64) t) ∧
    (HartFree s → (p = 0 → d = 0) → portBound s.actingHart = false →
      ∃ t, exec f.1 s = .next t ∧ Excepts s s.cur.hart 24 (f.2.setWidth 64) t)) ∧
  (∀ (a d : BitVec 5) (p : BitVec 1) (s : State), FormRuns s p d →
    let i := Instr.cbind a p d
    let v := s.actingHart.reg a
    let n := (s.conts.filter fun x => x.2.live).length
    (s.actingHart.port.cont ≠ 0xFFFFFFFF → Living s → Answers s i p d s (replyWord 2 0 0 0)) ∧
    (s.actingHart.port.cont = 0xFFFFFFFF → 256 ≤ v.toNat → Answers s i p d s (replyWord 4 0 0 0)) ∧
    (s.actingHart.port.cont = 0xFFFFFFFF → v.toNat < 256 → 100000 ≤ n →
      Answers s i p d { s with free := s.free + 1 } (replyWord 9 0 0 0)) ∧
    (s.actingHart.port.cont = 0xFFFFFFFF → v.toNat < 256 → n < 100000 →
      usedOn { s with free := s.free + 1 } (homeDie (freshCont s)) + 256 ≤ backingPart { s with free := s.free + 1 } →
      partitionFailed (rootBound (setUsed (modCont { s with free := s.free + 1 } (freshCont s) fun _ => boundState { s with free := s.free + 1 } s.cur.hart
        (freshCont s) v) (homeDie (freshCont s)) (usedOn { s with free := s.free + 1 } (homeDie (freshCont s)) + 256)) (freshCont s)) (freshCont s) = false →
      ∃ t c g, Answers s i p d t (replyWord 0 0 (g.toNat % 65536) c) ∧ t.mem = s.mem ∧ (getCont t c).live = true ∧ (getCont t c).gen = g ∧
        (getCont t c).satp = s.actingHart.satp ∧ (getCont t c).partition = rootPart { s with free := s.free + 1 } s.actingHart.hgatp ∧ (getCont t c).cls = v.toNat % 4 ∧ (getCont t c).jobs = [] ∧
        (getHart t s.cur.hart).port.cont = BitVec.ofNat 32 c ∧ (getHart t s.cur.hart).port.vers = 0x10000)) ∧
  (∀ (r a d : BitVec 5) (p : BitVec 1) (s t u : State) (c n id : Nat) (desc ps : List Byte) (sizes : Tab Word Nat), FormRuns s p d → PortHas s c → Sound s c →
    let i := Instr.cstart r a p d
    let va := s.actingHart.reg a
    let list := s.actingHart.reg r
    let w := wordHost 1 r a p d
    let images := patchedImages s c (readDesc desc) (readPatches ps n).1
    (va.toNat % 64 ≠ 0 → Answers s i p d s (replyWord 4 0 0 0)) ∧
    (∀ x, va.toNat % 64 = 0 → portRead s s.cur.hart w va 64 = .error x → exec i s = .next x) ∧
    (va.toNat % 64 = 0 → portRead s s.cur.hart w va 64 = .ok desc → portPatches s s.cur.hart w list = .ok (n, ps) → n ≤ 65536 →
      portSizes s s.cur.hart w images = .ok sizes → u = portCharge s s.cur.hart (startParts va list n ++ images.map fun x => (x + 0x30, 4)) →
      (∀ e, tryStart u c desc ps n sizes (some s.cur.hart) (releaseOf u (agentOf u s.cur.hart) 7) = .error e → Answers s i p d u (replyWord e 0 0 0)) ∧
      (tryStart u c desc ps n sizes (some s.cur.hart) (releaseOf u (agentOf u s.cur.hart) 7) = .ok (id, t) →
        Answers s i p d (startedJob t s.cur.hart c id (openJobs (getCont u c)).isEmpty) (replyWord 0 1 0 id)))) ∧
  (∀ (a d : BitVec 5) (p : BitVec 1) (s : State) (c : Nat), FormRuns s p d → PortHas s c →
    let id := if s.actingHart.reg a = 0 then s.actingHart.port.lastjob.toNat else (s.actingHart.reg a).toNat
    (findJob s c id = none → Answers s (.cjoin a p d) p d s (replyWord 3 0 0 0) ∧ Answers s (.cquery a p d) p d s (replyWord 3 0 0 0)) ∧
    ∀ j, findJob s c id = some j →
      (statusFinal j.status = false → StandsIn s (.cjoin a p d) p d s (.join c id)) ∧
      (statusFinal j.status = true → Answers s (.cjoin a p d) p d (acquireJob s s.cur.hart j) (replyWord 0 j.status (getCont s c).faultQ.length id)) ∧
      Answers s (.cquery a p d) p d (acquireJob s s.cur.hart j) (replyWord 0 j.status (j.nphase - (j.past.filter fun q => q.status == 0).length) j.id)) ∧
  (∀ (d : BitVec 5) (p : BitVec 1) (s : State) (c : Nat), FormRuns s p d → PortHas s c → Sound s c →
    let ids := ((getCont s c).jobs.filter fun j => j.hart.isSome).map (·.id)
    let us := residentUnits s c
    ((∃ j ∈ openJobs (getCont s c), j.id ∈ ids) → StandsIn s (.cfence p d) p d s (.fence c ids)) ∧
    ((∀ j ∈ openJobs (getCont s c), j.id ∉ ids) →
      ∃ t n, Answers s (.cfence p d) p d t (replyWord 0 (if n = 0 then 0 else 3) n 0) ∧ n = (failedJobs (getCont s c) ids).length ∧ t.mem = s.mem) ∧
    Answers s (.cpark p d) p d (modCont s c fun k => { k with parkAsked := (us.map fun u => (getUnit s u).ident.key).eraseDups }) (replyWord 0 0 us.length 0)) ∧
  (∀ (r a d : BitVec 5) (p : BitVec 1) (s : State) (c : Nat), FormRuns s p d → PortHas s c → Sound s c →
    let id := (s.actingHart.reg a).toNat
    let v := (s.actingHart.reg r).toNat
    let found := instanceAt s c (v % 256) id (v / 256) none
    (256 ≤ v → (v % 256 ≠ 0 ∨ 2 ^ 24 ≤ v) → Answers s (.ccancel r a p d) p d s (replyWord 4 0 0 0)) ∧
    (¬ (256 ≤ v ∧ (v % 256 ≠ 0 ∨ 2 ^ 24 ≤ v)) → found = none → Answers s (.ccancel r a p d) p d s (replyWord 3 0 0 0)) ∧
    (¬ (256 ≤ v ∧ (v % 256 ≠ 0 ∨ 2 ^ 24 ≤ v)) → ∀ x, found = some x →
      Answers s (.ccancel r a p d) p d (cancelInstance s c (v % 256) id (v / 256)) (replyWord 0 (cancelledStatus (v % 256) x) 0 id))) ∧
  (∀ (d : BitVec 5) (p : BitVec 1) (s : State) (c : Nat), FormRuns s p d → PortHas s c →
    let t := cancelAll s c 11
    (quiet t c = true → Answers s (.cfree p d) p d (freeCont t s.cur.hart c) (replyWord 0 0 0 c)) ∧
    (quiet t c = false → StandsIn s (.cfree p d) p d t (.free c))) ∧
  (∀ (r a d : BitVec 5) (p : BitVec 1) (s t : State) (c : Nat) (ps : List Nat), FormRuns s p d → PortHas s c → Sound s c →
    let va := s.actingHart.reg a
    let ag := agentOf t s.cur.hart
    let o : AtomOp := { fn := 13, ord := 2, scope := 7, w32 := false, b := s.actingHart.reg r, c := 0 }
    let m := rememberReads t ag (wordKeys t (hartPlaces t ps))
    let x := hartAtomicAt m ps o (writeRels m ag 2 7)
    let wait := physWaits s (.form s.cur.hart (wordHost 8 r a p d)) ps
    let v := BitVec.ofNat 64 x.1 - s.actingHart.reg r
    (va.toNat % 8 ≠ 0 → ∃ t, exec (.csignal r a p d) s = .next t ∧ Excepts s s.cur.hart 6 va t) ∧
    (va.toNat % 8 = 0 → hartReach s s.cur.hart va true 8 = .ok ps → ∀ q, wait = some q → exec (.csignal r a p d) s = .next q) ∧
    (va.toNat % 8 = 0 → hartReach s s.cur.hart va true 8 = .ok ps → wait = none → hartMark s s.cur.hart va ps true true = .ok t →
      Answers s (.csignal r a p d) p d (bumpRegion x.2 ag) (replyWord 0 (if v.msb then 1 else 0) 0 v.toNat))) ∧
  (∀ (a d : BitVec 5) (p : BitVec 1) (s : State) (c st : Nat), FormRuns s p d → PortHas s c → (getCont s c).terminated = some st →
    ∀ i ∈ [Instr.cbind a p d, .cvers a p d], Answers s i p d s (replyWord (if st = 7 then 7 else 1) 0 0 0)) ∧
  (∀ (a d : BitVec 5) (p : BitVec 1) (s : State), FormRuns s p d → Living s →
    let v := s.actingHart.reg a
    (v = 0 → Answers s (.cvers a p d) p d s (replyWord 0 0 0 s.actingHart.port.vers.toNat)) ∧
    (v.toNat / 65536 % 65536 = 1 → Answers s (.cvers a p d) p d
      (modHart s s.cur.hart fun h => { h with port := { h.port with vers := 0x10000 } }) (replyWord 0 0 0 0x10000)) ∧
    (v ≠ 0 → v.toNat / 65536 % 65536 ≠ 1 → Answers s (.cvers a p d) p d s (replyWord 6 0 0 0))) ∧
  (∀ (r a d : BitVec 5) (p : BitVec 1) (s : State) (c : Nat), FormRuns s p d → PortHas s c →
    let va := s.actingHart.reg a
    (va.toNat % 64 ≠ 0 → Answers s (.cfault r a p d) p d s (replyWord 4 0 0 0)) ∧
    (va.toNat % 64 = 0 → (getCont s c).faultQ = [] → Answers s (.cfault r a p d) p d s (replyWord 0 0 0 0)) ∧
    ∀ f rest, va.toNat % 64 = 0 → (getCont s c).faultQ = f :: rest →
      ((s.actingHart.reg r).toNat < (faultBytes f).length → Answers s (.cfault r a p d) p d s (replyWord 8 0 0 0)) ∧
      ((faultBytes f).length ≤ (s.actingHart.reg r).toNat → ∀ ps, hartReach s s.cur.hart va true (faultBytes f).length = .ok ps →
        physWaits s (.form s.cur.hart (wordHost 10 r a p d)) ps = none →
        Answers s (.cfault r a p d) p d (modCont (physPuts (meterPlaces s (agentOf s s.cur.hart) (ps.map Place.mem)) ps (faultBytes f)) c fun k => { k with faultQ := rest })
          (replyWord 0 0 rest.length (faultBytes f).length)))

/-- CSRs, register writes, harts' accesses, waiting forms and the external host act as their rules say, and name a hole in the map. In every
state: from user mode an access to a CSR takes exception 2. CPSAVE writes the selected port's 256-byte block and empties the port; CPLOAD
takes a block whose seal holds and takes exception 26 for one whose seal does not; both fault on bytes that do not exist. CPATTN pops an
attention entry into rd. A read-only register ignores a write, FQBASE one while its ring is on or (the model's choice, log 75) outside node
0. A read of a CSR gives its value, 0 for a write-only one, sip bit 19 while the attention queue is not empty and the service interrupt's
bit (its number the model's choice, log 27) while a ring that names the hart has raised it, and one of a ring register its value. A hart's
load, store, atomic operation or fence that reaches its bytes without a race does what its rule says; a page fault and a race take their
exception. A request that meets a spent budget waits in its controller's queue (R401). A request of the external host through an interface
in its error state is aborted. A waiting form returns when its end has come, and an interrupt drops it, its pc kept. Where an interrupted
hart goes on is the model's free value (log 27) (R8, R269, R278, R322, R324, R331, R339, R350, R353, R396, R398). -/
def Obligations.HartsAndExternalHostAct : Prop :=
  (∀ (hart : Nat) (v : Word) (d : BitVec 5) (s : State), (getHart s hart).user = true →
    ∀ i ∈ [Instr.cpsave hart v, .cpload hart v, .cpattn hart d, .registerWrite (.cpthr hart) v, .registerWrite (.cpsel hart) v,
        .registerWrite (.cpgdrop hart) v, .registerWrite (.sie hart) v],
      ∃ t, exec i s = .next t ∧ Excepts s hart 2 0 t) ∧
  (∀ (hart : Nat) (addr : Word) (s : State), (getHart s hart).user = false →
    let sel := (getHart s hart).cpsel.toNat % 128
    let here := allPopulated addr.toNat 256
    let m := hartCharged s hart (bytesFrom addr.toNat 256)
    let wait (load : Bool) := physWaits s (.port hart addr load) (bytesFrom addr.toNat 256)
    addr.toNat % 256 = 0 → (getHart s sel).waiting = none → hartQueued s hart = false →
    (here = false → exec (.cpsave hart addr) s = .fault .unpopulatedAddress ∧ exec (.cpload hart addr) s = .fault .unpopulatedAddress) ∧
    (here = true → ∀ q, (wait false = some q → exec (.cpsave hart addr) s = .next q) ∧ (wait true = some q → exec (.cpload hart addr) s = .next q)) ∧
    (here = true → wait false = none → ∃ t, exec (.cpsave hart addr) s = .next t ∧ t.mem = (physPut m addr.toNat (portBlock m sel (getHart s sel).port)).mem ∧
      (getHart t sel).port = Port.init ∧ ∀ k, k ≠ hart → k ≠ sel → getHart t k = getHart (physPut m addr.toNat (portBlock m sel (getHart s sel).port)) k) ∧
    (here = true → wait true = none → blockSealed m (physBytes m addr.toNat 256) = true →
      ∃ t, exec (.cpload hart addr) s = .next t ∧ t.mem = s.mem ∧ (getHart t sel).port = loadPort sel (physBytes m addr.toNat 256)) ∧
    (here = true → wait true = none → blockSealed m (physBytes m addr.toNat 256) = false → ∃ t, exec (.cpload hart addr) s = .next t ∧ t.mem = s.mem ∧
      (getHart t sel).port = Port.init ∧ (getHart t hart).scause = 26 ∧ (getHart t hart).stval = addr ∧ (getHart t hart).sepc = (getHart s hart).pc)) ∧
  (∀ (hart : Nat) (d : BitVec 5) (s : State), (getHart s hart).user = false →
    let h := getHart s hart
    exec (.cpattn hart d) s = .next (modHart s hart fun h => { (popAttn h).2.setReg d (popAttn h).1 with pc := h.pc + 4 }) ∧
    (h.attn = [] → popAttn h = (0, h)) ∧
    (∀ e r, h.attn = e :: r → (popAttn h).1 = e ∧ (popAttn h).2.attnLost = 0 ∧
      (popAttn h).2.attn = r ++ if h.attnLost = 0 then [] else [attnWord 15 (min 255 h.attnLost) 0 0])) ∧
  (∀ (hart core off die : Nat) (v : Word) (s : State),
    (∀ r ∈ [RegName.fqhead die, .fqseq die], exec (.registerWrite r v) s = .next s) ∧
    ((getDie s die).ring.on = true ∨ inNode0 (v &&& 0xFFFFFFFFFFFFF000).toNat = false → exec (.registerWrite (.fqbase die) v) s = .next s) ∧
    ((getDie s die).ring.on = false → inNode0 (v &&& 0xFFFFFFFFFFFFF000).toNat = true → exec (.registerWrite (.fqbase die) v) s =
      .next (modDie s die fun d => { d with ring := { d.ring with base := v &&& 0xFFFFFFFFFFFFF000 } })) ∧
    exec (.registerWrite (.wslot core) v) s = .next (writeWindow s core 0xC00010 v) ∧
    (0x800000 ≤ off → off < 0x1000000 → core < 768 → exec (.registerWrite (.window core off) v) s = .next (writeWindow s core (off / 8 * 8) v)) ∧
    ((getHart s hart).user = false → exec (.registerWrite (.cpthr hart) v) s =
      .next (modHart s hart fun h => { h with pc := h.pc + 4, cpthr := v &&& 0xFFFFFFFFFFFF })) ∧
    ((getHart s hart).user = false → exec (.registerWrite (.cpsel hart) v) s =
      .next (modHart s hart fun h => { h with pc := h.pc + 4, cpsel := v &&& 0x7F })) ∧
    ((getHart s hart).user = false → exec (.registerWrite (.sie hart) v) s = .next (modHart s hart fun h => { h with pc := h.pc + 4, sie := v })) ∧
    ((getHart s hart).user = false → exec (.registerWrite (.cpgdrop hart) v) s = .next (modHart s hart fun h => { h with pc := h.pc + 4 }))) ∧
  (∀ (hart : Nat) (d : BitVec 5) (s : State), HartActs s hart →
    let h := getHart s hart
    let sip : Word := (if h.attn = [] then 0 else 0x80000) ||| (if serviceRaised s hart then 1#64 <<< serviceNumber else 0)
    (serviceRaised s hart = true ↔ ∃ d < 4, (getDie s d).ring.irq = true ∧ (getDie s d).ring.cfg.toNat / 65536 % 128 = hart) ∧
    ∀ x ∈ [(0x104, h.sie), (0x144, sip), (0x5C0, h.cpthr), (0x5C1, h.cpsel), (0x5C2, 0), (0x5C3, 0), (0xDC1, s.gendrop)],
      (h.user = false → exec (.hartAccess hart (.csr d x.1)) s = .next (modHart s hart fun h => { h.setReg d x.2 with pc := h.pc + 4 })) ∧
      (h.user = true → ∃ t, exec (.hartAccess hart (.csr d x.1)) s = .next t ∧ Excepts s hart 2 0 t)) ∧
  (∀ (hart die : Nat) (d : BitVec 5) (s : State), HartActs s hart → die < 4 →
    let r := (getDie s die).ring
    ∀ x ∈ [(0x00, r.base), (0x08, r.cfg), (0x10, BitVec.ofNat 64 r.head), (0x18, BitVec.ofNat 64 r.tail), (0x20, 0), (0x28, r.seq.setWidth 64)],
      exec (.hartAccess hart (.deviceLoad d (0x40000000 + die * 0x1000 + x.1))) s =
        .next (modHart s hart fun h => { h.setReg d x.2 with pc := h.pc + 4 })) ∧
  (∀ (hart : Nat) (d : BitVec 5) (va data b c : Word) (fn ord : Nat) (w32 : Bool) (size : Nat) (ps : List Nat) (s t : State),
    HartActs s hart →
    let a := agentOf t hart
    let n := if w32 then 4 else 8
    let o : AtomOp := { fn := fn, ord := ord, scope := 7, w32 := w32, b := b, c := c }
    let m := atomicReadOrder t a (wordKeys t (hartPlaces t ps)) ord 7
    let x := hartAtomicAt m ps o (writeRels m a ord 7)
    let wait (acc : HartAcc) := physWaits s (.hart hart acc) ps
    (∀ q, hartReach s hart va true size = .ok ps → wait (.store va size data) = some q → exec (.hartAccess hart (.store va size data)) s = .next q) ∧
    (hartReach s hart va false size = .ok ps → wait (.load d va size) = none → hartMark s hart va ps false false = .ok t →
      Accesses s hart (.load d va size) (modHart t hart fun h => h.setReg d (BitVec.ofNat 64 (leValue (ps.map (physGet t)))))) ∧
    (hartReach s hart va true size = .ok ps → wait (.store va size data) = none → hartMark s hart va ps true false = .ok t →
      Accesses s hart (.store va size data) (physPuts t ps (leBytes size data.toNat))) ∧
    (va.toNat % n ≠ 0 → ∃ u, exec (.hartAccess hart (.amo d fn ord w32 va b c)) s = .next u ∧ Excepts s hart 6 va u) ∧
    (va.toNat % n = 0 → hartReach s hart va true n = .ok ps → wait (.amo d fn ord w32 va b c) = none → hartMark s hart va ps (fn != 0) true = .ok t →
      Accesses s hart (.amo d fn ord w32 va b c) (modHart (if ord = 0 then x.2 else bumpRegion x.2 a) hart fun h =>
        h.setReg d (if w32 then (BitVec.ofNat 32 x.1).signExtend 64 else BitVec.ofNat 64 x.1))) ∧
    Accesses s hart (.fence ord) (fenceOrder s (agentOf s hart) ord 7) ∧
    (∀ k w, hartReach s hart va false size = .fault k w → ∃ u, exec (.hartAccess hart (.load d va size)) s = .next u ∧ Excepts s hart k w u) ∧
    (∀ r, hartReach s hart va true size = .ok ps → wait (.store va size data) = none → hartMark s hart va ps true false = .error r →
      exec (.hartAccess hart (.store va size data)) s = .next (hartRaced s hart va r) ∧
      (getHart (hartRaced s hart va r) hart).scause = 25 ∧ (getHart (hartRaced s hart va r) hart).stval = va) ∧
    (hartReach s hart va false size = .none → exec (.hartAccess hart (.load d va size)) s = .fault .unpopulatedAddress)) ∧
  (∀ (hart : Nat) (va : Word) (w : Bool) (ps : List Nat) (s t : State), hartReach s hart va w 1 = .ok ps →
    (∀ r, hartMark s hart va ps w false = .error r → exec (.hartDeviceRace hart va w) s = .next (hartRaced s hart va r)) ∧
    (hartMark s hart va ps w false = .ok t → exec (.hartDeviceRace hart va w) s = .next s)) ∧
  (∀ (hart : Nat) (s : State),
    ((getHart s hart).waiting = none → exec (.blockingFormReturn hart) s = .next s ∧ exec (.hostFormInterrupt hart) s = .next s) ∧
    ∀ w, (getHart s hart).waiting = some w →
      (waitEnd s hart w.what = none → exec (.blockingFormReturn hart) s = .next s) ∧
      (∀ t v, waitEnd s hart w.what = some (t, v) → exec (.blockingFormReturn hart) s =
        .next (modHart t hart fun h => { (if w.reply then h.setReg w.rd v else h) with pc := h.pc + 4, waiting := none })) ∧
      ∃ t, exec (.hostFormInterrupt hart) s = .next t ∧ t.mem = s.mem ∧ (getHart t hart).waiting = none ∧
        (getHart t hart).sepc = (getHart s hart).pc ∧ (getHart t hart).x = (getHart s hart).x ∧ (getHart t hart).user = false) ∧
  (∀ (via : Option Nat) (pa n : Nat) (data : Word) (s : State),
    let m := meterPlaces s extAgent ((bytesFrom pa n).map Place.mem)
    let wait (acc : ExtAcc) := physWaits s (.ext acc) (bytesFrom pa n)
    let aborts := ∃ p x, via = some p ∧ tabGet s.boot.parts p = some x ∧ x.tdisp = .error
    (∀ acc ∈ [ExtAcc.read via pa n, .write via pa n data],
      (aborts → exec (.externalHostAccess acc) s = .next s) ∧
      (¬ aborts → allPopulated pa n = false → exec (.externalHostAccess acc) s = .fault .unpopulatedAddress) ∧
      ∀ q, ¬ aborts → allPopulated pa n = true → wait acc = some q → exec (.externalHostAccess acc) s = .next q) ∧
    (¬ aborts → allPopulated pa n = true →
      (wait (.read via pa n) = none → ∃ t, exec (.externalHostAccess (.read via pa n)) s = .next t ∧ t.mem = s.mem ∧ t.units = s.units) ∧
      (wait (.write via pa n data) = none →
        ∃ t, exec (.externalHostAccess (.write via pa n data)) s = .next t ∧ t.mem = (physPut m pa (leBytes n data.toNat)).mem)))

/-- Marks spill within the lees table or end the continuation that fills it, and a stage's flush writes whole pieces to its pool. In every state
both events complete: LEES_SPILL whose marks fit the table, grown as far as it must, marks them spilled, keeps every other one and writes
nothing outside the table; when they do not fit it at its maximum, the continuation that holds the most entries (of several, the model's
choice of log 97) is terminated with race-table-exhausted, its marks are freed, and the spill goes on. STAGE_FLUSH of an open level of a
live unit whose pool is translated writes the pool's header and the whole pieces of 4 KiB of its records there, and nothing else, and waits
in the controller's queue of a spent byte budget (R401); for a unit that is gone, or a level that is not open, nothing happens (R282, R283,
R297, R306, R401). -/
def Obligations.MarksSpillAndStagesFlush : Prop :=
  (∀ (a : Agent) (n : Nat) (s : State), ∃ t, exec (.leesSpill a n) s = .next t) ∧ (∀ (u k : Nat) (s : State), ∃ t, exec (.stageFlush u k) s = .next t) ∧
  (∀ (a : Agent) (n : Nat) (s : State),
    let mine := (s.order.marks.filter fun m => m.agent == agentKey a && !m.spilled).take n
    let need := (leesOf s (mine ++ s.order.marks.filter (·.spilled))).length
    let size := grownSize s.sched.leesMax need 64 s.sched.leesSize
    32 * need ≤ size → ∃ t, exec (.leesSpill a n) s = .next t ∧
      (∀ x, x < s.sched.leesBase ∨ s.sched.leesBase + size ≤ x → memGet t.mem x = memGet s.mem x) ∧ t.units = s.units ∧ t.conts = s.conts ∧ t.sched.leesSize = size ∧
      t.order.marks = s.order.marks.map fun m => if m ∈ mine then { m with spilled := true } else m) ∧
  (∀ (a : Agent) (n : Nat) (s : State),
    let mine := (s.order.marks.filter fun m => m.agent == agentKey a && !m.spilled).take n
    let held := leesOf s (s.order.marks.filter (·.spilled))
    let need := (leesOf s (mine ++ s.order.marks.filter (·.spilled))).length
    let size := grownSize s.sched.leesMax need 64 s.sched.leesSize
    let g : State := { s with sched := { s.sched with leesSize := size } }
    let c := mostEntries held
    size < 32 * need → held ≠ [] →
      (∀ x, (held.filter fun e => e.cont == x).length ≤ (held.filter fun e => e.cont == c).length) ∧
      (∃ e ∈ held, e.cont = c) ∧
      exec (.leesSpill a n) s = .next (spillMarks a n s.conts.length (retireMarks (terminateCont g c 8) fun m => m.cont == c)) ∧
      ((getCont s c).live = true → (getCont s c).terminated = none → terminateCont g c 8 =
        postAttn (revoke (cancelAll (modCont g c fun k => { k with gen := k.gen + 1, terminated := some 8 }) c 8) c) c 3 8 0)) ∧
  (∀ (u k : Nat) (s : State), (getUnit s u).alive = false ∨ (getUnit s u).levels.length ≤ k → exec (.stageFlush u k) s = .next s) ∧
  (∀ (u k : Nat) (s : State) (l : CaskLevel) (ps : List Place),
    let x := getUnit s u
    let bs := (levelImage x.ident.key.cont l).take (32 + (l.used - 32) / 4096 * 4096)
    x.alive = true → k < x.levels.length → x.levels[x.levels.length - 1 - k]? = some l → locateN s u l.pool .write bs.length = .ok ps →
    (∀ q, askBudget s (.flush u k) (x.ident.cls == 0) ps = some q → exec (.stageFlush u k) s = .next q) ∧
    (askBudget s (.flush u k) (x.ident.cls == 0) ps = none →
      exec (.stageFlush u k) s = .next (placesPut (chargePlaces (leaveQueue s (.flush u k)) (.unit u) ps) (ps.zip bs))))

/-- Results land after the last word, forwards, stores, waits, handler returns and exits happen when they may, and otherwise change nothing. In
every state: after HALT or RETT a virtual cycle of a sequencer that its core issues ends, once the pushes that wait at its retirement find
room; while one finds none, it is stalled. A filled head of a dqout goes to the tail of its target's dqin when that has room, and of several
filled heads for one dqin each that finds room, in the order C, L, X, S. A wait for a translation, or for a word, ends exactly when its
condition holds. That stores are performed in their order is the model's choice (log 8): the oldest store that waits for no time is
performed and leaves; an atomic that waits finds every store before it performed. A handler whose last result landed returns: pc at the
target, the clock back at TVC, ACT and TKP 0, the held bank running again. A halted sequencer with nothing outstanding exits; one whose
command faulted meanwhile enters its handler at the HALT, which is the model's choice (log 24). In every other case the state stays (R67,
R125, R131, R138, R147, R158, R159, R285, R289, R392). -/
def Obligations.SequencerEventsHappen : Prop :=
  (∀ (u : Nat) (q : Seq) (s : State),
    let p := flushPushes 64 s u q
    let c := getSeq p u q
    let issues := (getUnit s u).alive = true ∧ (getUnit s u).place.resident = true ∧
      (getCore s (getUnit s u).place.core).issuing = some (getUnit s u).place.slot
    let runsOut := (getSeq s u q).status = .halting ∨ ∃ a, (getSeq s u q).status = .returning a
    ((getSeq s u q).fl.pushes = [] → p = s) ∧
    (issues → runsOut → c.fl.pushes ≠ [] → exec (.resultLand u q) s = .next p) ∧
    (issues → runsOut → c.fl.pushes = [] →
      ∃ t, exec (.resultLand u q) s = .next (tick t u q) ∧ t.mem = p.mem ∧ (getSeq t u q).regs = c.regs ∧ (getSeq t u q).vc = c.vc ∧
        (getSeq t u q).fl.running ++ (getSeq t u q).fl.held = c.fl.running ++ c.fl.held ∧
        (c.fl.running ≠ [] → (getSeq t u q).fl.running = c.fl.running)) ∧
    (¬ issues ∨ ¬ runsOut → exec (.resultLand u q) s = .next s)) ∧
  (∀ (u : Nat) (q : Seq) (s : State),
    let out := (getSeq s u q).dq.dqout
    (∀ e, out.head? = some e → e.val = none ∨ 16 ≤ (getSeq s u e.target).dq.dqin.length) → exec (.dqoutForward u q) s = .next s) ∧
  (∀ (u : Nat) (q : Seq) (s : State) (e : DqOut) (r : List DqOut) (v : Word), (getSeq s u q).dq.dqout = e :: r → e.val = some v →
    exec (.dqoutForward u q) s = .next ([Seq.c, .l, .x, .s].foldl (forwardHead u e.target) s) ∧
    ((∀ p, p ≠ q → ∀ x, (getSeq s u p).dq.dqout.head? = some x → x.val = none ∨ x.target ≠ e.target) →
    (getSeq s u e.target).dq.dqin.length < 16 → ∃ t, exec (.dqoutForward u q) s = .next t ∧ (getSeq t u q).dq.dqout = r ∧
      (getSeq t u e.target).dq.dqin = (getSeq s u e.target).dq.dqin ++ [{ val := v, acq := none }] ∧ t.mem = s.mem ∧
      (∀ p, (getSeq t u p).regs = (getSeq s u p).regs) ∧ ∀ w, w ≠ u → getUnit t w = getUnit s w)) ∧
  (∀ (u : Nat) (q : Seq) (s : State) (die : Nat) (va : Word) (k : AccKind) (p : Place),
    let c := getSeq s u q
    ((∀ die va k, c.fl.frozen ≠ some (.walk die va k)) → exec (.loadMissReturn u q) s = .next s) ∧
    (c.fl.frozen = some (.walk die va k) → ∃ t, exec (.loadMissReturn u q) s = .next t ∧ t.mem = s.mem ∧
      (getSeq t u q).fl.frozen = (if translated s u va k then none else c.fl.frozen) ∧ (getSeq t u q).pc = c.pc) ∧
    ((∀ p, c.fl.frozen ≠ some (.watch p)) → exec (.waitvRecheck u q) s = .next s) ∧
    (c.fl.frozen = some (.watch p) → ∃ t, exec (.waitvRecheck u q) s = .next t ∧ t.mem = s.mem ∧
      (getSeq t u q).fl.frozen = (if waitOver s u q then none else c.fl.frozen) ∧ (getSeq t u q).pc = c.pc)) ∧
  (∀ (u : Nat) (q : Seq) (s : State) (o : StoreOp) (r : List StoreOp), (getSeq s u q).fl.stores = o :: r →
    (o.due ≠ 0 → exec (.storePerformed u q) s = .next s) ∧
    (o.due = 0 → ∃ t, exec (.storePerformed u q) s = .next t ∧ (getSeq t u q).fl.stores = r ∧ (getSeq t u q).regs = (getSeq s u q).regs ∧
      (s.MemOk → ∀ a, (∀ b ∈ o.bytes, b.1 ≠ .mem a) → memGet t.mem a = memGet s.mem a) ∧
      (s.MemOk → o.atom = none → (o.bytes.map Prod.fst).Nodup → ∀ a v, (Place.mem a, v) ∈ o.bytes → memGet t.mem a = v)) ∧
    ((getSeq s u q).fl.frozen ≠ some .atomic → exec (.atomicPerformed u q) s = exec (.storePerformed u q) s) ∧
    ((getSeq s u q).fl.frozen = some .atomic → ∃ t, exec (.atomicPerformed u q) s = .next t ∧
      ∀ x ∈ (getSeq t u q).fl.stores, x.due ≠ 0 ∧ x.bytes = [])) ∧
  (∀ (u : Nat) (q : Seq) (s : State), (getSeq s u q).fl.stores = [] → exec (.storePerformed u q) s = .next s) ∧
  (∀ (u : Nat) (q : Seq) (s : State) (target : Word),
    let p := flushPushes 64 s u q
    let c := getSeq p u q
    let landed := (getSeq s u q).status = .returning target ∧ (getSeq s u q).fl.running = [] ∧ (getUnit s u).alive = true
    ((∀ a, (getSeq s u q).status ≠ .returning a) ∨ (getSeq s u q).fl.running ≠ [] → exec (.rettReturn u q) s = .next s) ∧
    (landed → c.fl.pushes ≠ [] → exec (.rettReturn u q) s = .next p) ∧
    (landed → c.fl.pushes = [] → ∃ t, exec (.rettReturn u q) s = .next t ∧
      t.mem = p.mem ∧ (getSeq t u q).pc = target ∧ (getSeq t u q).vc = c.tr.tvc ∧ (getSeq t u q).status = .running ∧
      (getSeq t u q).tr.tstat = c.tr.tstat &&& 2 ∧ (getSeq t u q).fl.running = c.fl.held ∧ (getSeq t u q).fl.held = [] ∧
      (getSeq t u q).regs = c.regs ∧ (getSeq t u q).tr.tepc = c.tr.tepc)) ∧
  (∀ (u : Nat) (q : Seq) (s : State),
    let c := getSeq s u q
    (c.status ≠ .halting ∨ (dueFault c = none ∧ seqDone s u q = false) → exec (.sequencerExit u q) s = .next s) ∧
    ((getUnit s u).alive = true → c.status = .halting → dueFault c = none → seqDone s u q = true →
      ((getUnit s u).exitLeft ≠ 1 → (getUnit s u).exitLeft ≠ 0 → ∃ t, exec (.sequencerExit u q) s = .next (decideBlocked s t u) ∧
        t.mem = s.mem ∧ (getSeq t u q).status = .exited ∧ (getUnit t u).exitLeft = (getUnit s u).exitLeft - 1 ∧
        (getUnit t u).alive = true ∧ ∀ w, w ≠ u → getUnit t w = getUnit s w) ∧
      ((getUnit s u).exitLeft = 1 → ∃ t, exec (.sequencerExit u q) s = .next (completeUnit t u) ∧ t.mem = s.mem ∧
        (getSeq t u q).status = .exited ∧ (getUnit t u).exitLeft = 0)) ∧
    (∀ f, (getUnit s u).alive = true → c.status = .halting → dueFault c = some f → trapToHandler c f.cause = true →
      ∃ t, exec (.sequencerExit u q) s = .next t ∧ t.mem = s.mem ∧ (getSeq t u q).status = .running ∧ (getSeq t u q).pc = c.tr.tvec ∧
        (getSeq t u q).tr.tepc = c.pc - 4 ∧ (getSeq t u q).tr.tcause = BitVec.ofNat 64 f.cause ∧ (getSeq t u q).tr.tval = f.tval ∧
        (getSeq t u q).fl.held = c.fl.running ∧ (getSeq t u q).fl.running = []))

/-- A barrier's participants depart together after the last arrival; an SSYNC runs its exchange step and counts one superstep more. In every
state: while one participant of a barrier has not arrived, or one of its units is parked, or the unit is gone, BARRIER_DEPART changes
nothing. After the last arrival at a CBAR every sequencer of its units that has not exited departs, and no memory, register or superstep
changes. After the last arrival at an SSYNC whose transfers no lock holds up and none of which races, the words of its transfers stand in
their receivers' partitions, in the order of their start cycles, every unit's superstep rises by one and every sequencer departs; C of a
receiver of a late transfer takes the exchange overrun, cause 7 with the new superstep as its value; without transfers no memory changes. A
transfer that a lock holds up keeps all waiting; one that races ends the launch's node with cause 5. That all transfers happen at the
departure, and which receivers are late, is the model's choice (log 64), and what a race does as well (log 51) (R270, R288, R372, R373). -/
def Obligations.BarriersDepartTogether : Prop :=
  (∀ (us : List Nat) (a : Agent) (x : Transfer) (s t : State) (v w : Nat), s.MemOk → unitOfIndex s us x.src = some v → unitOfIndex s us x.dst = some w →
    runXfer us a s x = .ok t →
      let lo := spadPa (getUnit s w) x.toff
      (∀ i < x.bytes, memGet t.mem (lo + i) = memGet s.mem (spadPa (getUnit s v) x.foff + i)) ∧
      ∀ b, b < lo ∨ lo + x.bytes ≤ b → memGet t.mem b = memGet s.mem b) ∧
  (∀ (us : List Nat) (a : Agent) (x : Transfer) (s : State), unitOfIndex s us x.src = none ∨ unitOfIndex s us x.dst = none → runXfer us a s x = .ok s) ∧
  (∀ (us : List Nat) (a : Agent) (x : Transfer) (r : List Transfer) (s t : State), runXfer us a s x = .ok t → runXfers us a (x :: r) s = runXfers us a r t) ∧
  (∀ xs : List Transfer, (sortXfers xs).Perm xs ∧ (sortXfers xs).Pairwise fun x y => x.at0 ≤ y.at0) ∧
  ∀ (u : Nat) (late : List Nat) (s : State),
    (∀ cl, (getUnit s u).alive = false ∨ allArrivedAt s (barrierUnits s u cl) cl = false ∨ (∃ v ∈ barrierUnits s u cl, (getUnit s v).place.resident = false) →
      exec (.barrierDepart u cl late) s = .next s) ∧
    ((getUnit s u).alive = true → allArrivedAt s (barrierUnits s u true) true = true →
      (∀ v ∈ barrierUnits s u true, (getUnit s v).place.resident = true) →
      ∃ t, exec (.barrierDepart u true late) s = .next t ∧ t.mem = s.mem ∧
        (∀ v, (getUnit t v).superstep = (getUnit s v).superstep ∧ ∀ q, (getSeq t v q).regs = (getSeq s v q).regs) ∧
        (∀ v, v ∉ barrierUnits s u true → getUnit t v = getUnit s v) ∧
        ∀ v ∈ barrierUnits s u true, ∀ q ∈ [Seq.c, .l, .s], (getSeq s v q).status ≠ .exited →
          (getSeq t v q).fl.departed = true ∧ (getSeq t v q).fl.arrivedC = false) ∧
    (let us := barrierUnits s u false
     let d := (us.head?.map fun v => (getUnit s v).superstep).getD 0
     let x := exchangeTable s (getUnit s u).ident.key d
     let key := (getUnit s u).ident.key
     let xs := runXfers us (schedAgent (homeDie key.cont) key) (sortXfers x.xfers)
       (learn s (schedAgent (homeDie key.cont) key) (barrierHist s (barrierMembers s u false)))
     (getUnit s u).alive = true → allArrivedAt s us false = true → (∀ v ∈ us, (getUnit s v).place.resident = true) →
      (x.xfers.any (xferBlocked s us) = true → exec (.barrierDepart u false late) s = .next s) ∧
      (∀ e, x.xfers.any (xferBlocked s us) = false → xs = .error e →
        exec (.barrierDepart u false late) s = .next (nodeFault e.done key 5 e.va (some e.race))) ∧
      (∀ z, x.xfers.any (xferBlocked s us) = false → xs = .ok z → us.Nodup → ∃ t, exec (.barrierDepart u false late) s = .next t ∧
        t.mem = z.mem ∧ (x.xfers = [] → t.mem = s.mem) ∧
        (∀ v, v ∉ us → getUnit t v = getUnit s v) ∧
        ∀ v ∈ us, (getUnit t v).superstep = (getUnit s v).superstep + 1 ∧
          (∀ q ∈ [Seq.c, .l, .s], (getSeq s v q).status ≠ .exited → (getSeq t v q).fl.departed = true ∧ (getSeq t v q).fl.arrivedS = false) ∧
          ((getSeq s v .c).status ≠ .exited → (getSeq t v .c).fl.faults = (getSeq s v .c).fl.faults ++
            if (lateReceivers s us x late).contains (getUnit s v).ident.index then
              [{ cause := 7, tval := BitVec.ofNat 64 ((getUnit s v).superstep + 1), eng := none, race := none }] else [])))

/-- Engines start the head of the next queue that is ready, end a command with its result element, and stop a queue whose command failed. In
every state: a copy, gather or row engine first takes up a command that stood aside and can go on; a busy one then starts nothing; an idle
one takes the first command of the next queue from its pointer that has one ready and moves its pointer past that queue. A command that has
ended its work leaves its engine, and its issuer gets the result element with STAT 0, the token and the event flag; one that failed gives
STAT, no token, a stopped queue and the fault, its cause by STAT. A sibling's idle engine takes the relocatable head of a queue whose own
engine is busy, if it has not started. A command that waits goes on when it can and else asks again for its translation, and one that stood
aside for a fault record is taken up by the idle engine once the record's replay has come, and is the engine's from then on (R136, R185,
R186, R193, R274, R305, R403). -/
def Obligations.EngineEventsRunCommands : Prop :=
  (∀ (core : Nat) (s : State), exec (.engineCommandStart core .press) s = .next s ∧ exec (.engineCommandComplete core .press) s = .next s ∧
    exec (.engineCommandComplete core .coll) s = .next s) ∧
  (∀ (core : Nat) (s : State), ∀ e ∈ [Eng.copy, .gather, .row],
    let w := resumeWaiting s core e
    let g := (getCore w core).engine e
    (((getCore s core).engine e).run.isSome = true ∨ ((getCore s core).engine e).waiting = [] → resumeWaiting s core e = s) ∧
    (g.run.isSome = true ∨ nextQueue w core e g.next = none → exec (.engineCommandStart core e) s = .next w) ∧
    (∀ k q us, g.run = none → nextQueue w core e g.next = some (k, q, us) → ∃ uid ∈ us, ∃ c r t,
      ((getSeq w uid q).eq e).cmds = c :: r ∧ readyHead w core e uid q = some c ∧
      exec (.engineCommandStart core e) s = .next (beginCmd t (.own core e) c) ∧
      t.mem = w.mem ∧ ((getSeq t uid q).eq e).cmds = r ∧ ((getCore t core).engine e).next = (k + 1) % 3 ∧ (getSeq t uid q).regs = (getSeq w uid q).regs)) ∧
  (∀ (core : Nat) (s : State), ∀ e ∈ [Eng.copy, .gather, .row],
    (e ≠ .gather → runAt s (.reloc core e) = none) →
    ((∀ r, runAt s (.own core e) = some r → r.fin = false) → exec (.engineCommandComplete core e) s = .next s) ∧
    ((∀ r, runAt s (.own core e) = some r → hasFailed r = false) → exec (.engineCommandFail core e) s = .next s) ∧
    ∀ r, runAt s (.own core e) = some r → (getUnit s r.cmd.uid).alive = true →
      (r.fin = true → tokenFits s r.cmd = false → exec (.engineCommandComplete core e) s = .next s) ∧
      (r.fin = true → tokenFits s r.cmd = true → ∃ t, exec (.engineCommandComplete core e) s = .next t ∧ t.mem = s.mem ∧
        runAt t (.own core e) = none ∧ Delivered s t e r.cmd 0 (cmdDone e r.cmd r.pos)) ∧
      (∀ stat, r.hold = .failed stat → r.recs = [] → ∃ t, exec (.engineCommandFail core e) s = .next t ∧ t.mem = s.mem ∧
        runAt t (.own core e) = none ∧ FailureDelivered s t e r.cmd stat (cmdDone e r.cmd r.pos)
          (match stat with | 1 => 4 | 2 => 3 | 3 => 2 | _ => 11))) ∧
  (∀ (core u : Nat) (q : Seq) (e : Eng) (s : State),
    let own := (getUnit s u).place.core
    let takes := (e = .copy ∨ e = .row) ∧ core ≠ own ∧ core / 4 = own / 4 ∧ ((getCore s own).engine e).run.isSome = true ∧
      engineHasWork s core e = false ∧ runAt s (.reloc core e) = none
    (¬ takes ∨ readyHead s own e u q = none → exec (.relocationTake core e u q) s = .next s) ∧
    (∀ c, readyHead s own e u q = some c → c.rl = false ∨ c.started = true → exec (.relocationTake core e u q) s = .next s) ∧
    (∀ c, takes → readyHead s own e u q = some c → c.rl = true → c.started = false → e = .row ∨ reachable s c = true → ∃ t,
      exec (.relocationTake core e u q) s = .next (beginCmd t (.reloc core e) c) ∧ t.mem = s.mem ∧
      ((getSeq s u q).eq e).cmds = c :: ((getSeq t u q).eq e).cmds)) ∧
  (∀ (core : Nat) (s : State),
    let p := (getCluster s (core / 4)).press
    (p.cur = none → exec (.engineFaultWaitResume core .press) s = .next s) ∧
    (∀ r, p.cur = some r → exec (.engineFaultWaitResume core .press) s =
      .next (if canResume s r then runOn s (.press (core / 4)) { r with hold := holdKept r.hold } else askAgain s (siteCtx s (.press (core / 4)) r.cmd) r)) ∧
    (∀ r x, (∀ die va k, r.hold ≠ .walk die va k) → askAgain s x r = s) ∧
    ∀ e ∈ [Eng.copy, .gather, .row],
      let g := (getCore s core).engine e
      g.run = none → (e ≠ .gather → runAt s (.reloc core e) = none) →
        ((∀ r ∈ g.waiting, canResume s r = false ∧ hasFailed r = false ∧ recordHolds s r = true) → exec (.engineFaultWaitResume core e) s = .next s) ∧
        (∀ r, g.waiting.find? (fun r => canResume s r || hasFailed r || !(recordHolds s r)) = some r → ∃ t,
          ((getCore t core).engine e).waiting = g.waiting.erase r ∧ t.mem = s.mem ∧ exec (.engineFaultWaitResume core e) s =
            .next (if canResume s r then runOn t (.own core e) { r with hold := .none }
              else askAgain (setRun t (.own core e) (some r)) (siteCtx t (.own core e) r.cmd) r)))

/-- The press grants its lease to a core that requests it, reloads the holder's weights, runs one command at a time and ends the grant. In every
state: a press without holder, running command or reload grants the lease to a core that requests it, one of class 0 when there is one, with
16 commands; a reload is due exactly when that unit has a weight record and does not own the cells. A reload whose range fits puts the image
in the cells of the unit that the grant was given to; one whose range does not leaves no owner and no record. The holder's next command
starts when none runs, but a release, which takes effect of itself at a head, never. A command that has ended gives its result element; a
load then sets the record and the owner; a release of the unit that holds ends the grant, as do the sixteenth command and an expired grant.
The cycles of a grant end it at once, or when the running command ends (R242, R243, R244, R245, R246, R248, R250, R252). -/
def Obligations.PressEventsGrantLoadAndEnd : Prop :=
  (∀ (cl : Nat) (s : State),
    let b := settleLease s cl
    let p := (getCluster b cl).press
    (p.holder.isSome ∨ p.cur.isSome ∨ p.reload = true ∨ (∀ k < 4, requestsLease b cl k = false) → exec (.pressArbitrate cl) s = .next b) ∧
    (p.holder = none → p.cur = none → p.reload = false → (∃ k < 4, requestsLease b cl k = true) → ∃ k uid t, k < 4 ∧ requestsLease b cl k = true ∧
      issuingUnit b (4 * cl + k) = some uid ∧ ((∃ j < 4, requestsLease b cl j = true ∧ leaseClass b cl j = 0) → leaseClass b cl k = 0) ∧
      exec (.pressArbitrate cl) s = .next t ∧ t.mem = s.mem ∧ t.units = b.units ∧
      let r := (getCluster t cl).press
      r.holder = some k ∧ r.unit = some uid ∧ r.cmds = 16 ∧ r.expired = false ∧ r.timedOut = false ∧ r.cells = p.cells ∧ r.owner = p.owner ∧
      (r.reload = true ↔ (getUnit b uid).press.wrec.isSome ∧ p.owner ≠ some uid))) ∧
  (∀ (cl : Nat) (s : State),
    let w := settleLease s cl
    let p := (getCluster w cl).press
    let b := modPress w cl fun p => { p with reload := false }
    (p.reload = false → exec (.pressReloadComplete cl) s = .next w) ∧
    ∀ uid h m, p.reload = true → p.unit = some uid → (getUnit w uid).press.wrec = some (h, m) →
      let off := (localBase (getUnit w uid) h).getD 0
      let held := (getUnit w uid).place.locks.any fun l => !l.rows && l.write && l.lo < off + imageBytes m && off < l.hi
      let fits := rangeFits b uid uid off (imageBytes (imagePlanes (hFmt h))) && regionsAre b uid off (imageBytes (imagePlanes (hFmt h))) (hSwz h)
      let bs := memBytes w.mem (spadPa (getUnit w uid) off) (imageBytes m)
      (held = true → exec (.pressReloadComplete cl) s = .next w) ∧
      (held = false → localBase (getUnit w uid) h = some off → fits = true → (hFmt h = 0x2F → badAt bs = false) → ∃ t,
        exec (.pressReloadComplete cl) s = .next (settlePress t cl) ∧ t.mem = s.mem ∧ t.units = w.units ∧
        let r := (getCluster t cl).press
        r.reload = false ∧ r.cells = bs ∧ r.owner = some uid ∧ r.cellFmt = BitVec.ofNat 6 (hFmt h) ∧ r.cellPlanes = m) ∧
      (held = false → localBase (getUnit w uid) h = none ∨ fits = false → (∀ c ∈ ((getSeq w uid .c).eq .press).cmds, c.uid = uid ∧ c.issuer = .c) →
        ∃ t, exec (.pressReloadComplete cl) s = .next t ∧ t.mem = s.mem ∧
        let r := (getCluster t cl).press
        r.reload = false ∧ r.owner = none ∧ r.holder = none ∧ (getUnit t uid).press.wrec = none ∧ ((getSeq t uid .c).eq .press).stopped = true)) ∧
  (∀ (cl : Nat) (s : State),
    let b := settleLease s cl
    let p := (getCluster b cl).press
    (p.reload = true ∨ p.cur.isSome ∨ p.expired = true ∨ p.unit = none → exec (.pressCommandStart cl) s = .next b) ∧
    ∀ uid, p.reload = false → p.cur = none → p.expired = false → p.unit = some uid →
      (readyHead b (getUnit b uid).place.core .press uid .c = none → exec (.pressCommandStart cl) s = .next b) ∧
      ∀ c, readyHead b (getUnit b uid).place.core .press uid .c = some c → (c.code = 1 → exec (.pressCommandStart cl) s = .next b) ∧
        (c.code ≠ 1 → ∃ t, exec (.pressCommandStart cl) s = .next (beginCmd t (.press cl) c) ∧
        t.mem = s.mem ∧ ((getSeq b uid .c).eq .press).cmds = c :: ((getSeq t uid .c).eq .press).cmds)) ∧
  (∀ (cl : Nat) (s : State),
    let p := (getCluster s cl).press
    (p.cur = none → exec (.pressCommandComplete cl) s = .next s) ∧
    ∀ r, p.cur = some r →
      (r.fin = false → exec (.pressCommandComplete cl) s = .next s) ∧
      (r.fin = true → (getUnit s r.cmd.uid).alive = true → tokenFits s r.cmd = true → ∃ t, exec (.pressCommandComplete cl) s = .next (settleLease t cl) ∧
        t.mem = s.mem ∧ (getCluster t cl).press.cur = none ∧ Delivered s t .press r.cmd 0 (cmdDone .press r.cmd r.pos) ∧
        (r.cmd.code = 1 → (getUnit t r.cmd.uid).press.lreq = false ∧ (p.unit = some r.cmd.uid → (getCluster t cl).press.holder = none)) ∧
        (r.cmd.code = 2 → (getUnit t r.cmd.uid).press.wrec = some (r.cmd.h, declaredPlanes (hFmt r.cmd.h) r.cmd.ra) ∧
          (getCluster t cl).press.owner = some r.cmd.uid) ∧
        (r.cmd.code ≠ 1 → p.cmds ≤ 1 ∨ p.expired = true → (getCluster t cl).press.holder = none) ∧
        (getCluster t cl).press.cells = p.cells)) ∧
  (∀ (cl : Nat) (s : State),
    let p := (getCluster s cl).press
    (p.holder = none → exec (.pressGrantCyclesExpire cl) s = .next s) ∧
    (p.holder.isSome → ∃ t, exec (.pressGrantCyclesExpire cl) s = .next t ∧ t.mem = s.mem ∧ t.units = s.units ∧
      (p.cur.isSome → (getCluster t cl).press = { p with expired := true, timedOut := true }) ∧
      (p.cur = none → (getCluster t cl).press = endGrant p ∧ (getCluster t cl).press.holder = none)))

/-- Collective commands start where the device takes part, take the members' contributions, and end with the status that their match decides. In
every state: a base die starts the head of a ready queue when the device takes part, and nothing otherwise (that a device which is no member
starts none is the model's choice, log 48); with the staging area full, which counts the device's own data only (log 48), the command waits
there, its handle not yet read. A contribution goes to the first command that it matches, or waits for one. A command that involves a silent
member ends with STAT 5, a mismatched one with 7 and one whose timeout passed with 8, unless its writes have begun, and no memory is
written; one whose data is incomplete, whose message is not sent whole, or that stands behind one of its queue which waits for a fault
record, waits, and one of a generation that has passed leaves nothing but a GENDROP count. A command whose data has arrived learns what its
participants released, performs its writes, in the context of a unit that is parked, and ends with STAT 0; an exchange that does so late
gives STAT 6, no token and the exchange overrun, cause 7 (R356, R403, R421, R423, R425, R428, R429, R431, R432, R433, R434). -/
def Obligations.CollectivesMatchAndCommit : Prop :=
  (∀ (core : Nat) (s : State),
    (readyUnits s core .coll .c = [] → exec (.engineCommandStart core .coll) s = .next s) ∧
    (takesPart s = false → exec (.engineCommandStart core .coll) s = .next s) ∧
    (readyUnits s core .coll .c ≠ [] → core < 768 → ∃ uid ∈ readyUnits s core .coll .c, ∃ c r, ((getSeq s uid .c).eq .coll).cmds = c :: r ∧
      let need := stagedBytes s (core / 192) + elemCount c.h * fmtBits (hFmt c.h) / 8
      (takesPart s = true → 32 * 1048576 < need → ∃ t x, exec (.engineCommandStart core .coll) s = .next t ∧
        (getDie t (core / 192)).coll[(getDie s (core / 192)).coll.length]? = some x ∧ x.cmd = c ∧ x.core = core ∧ x.started = false ∧ x.hold = .staging ∧
        t.mem = s.mem ∧ ((getSeq t uid .c).eq .coll).cmds = r) ∧
      (takesPart s = true → need ≤ 32 * 1048576 → ∃ t x, exec (.engineCommandStart core .coll) s =
          .next (collRead t (core / 192) (getDie s (core / 192)).coll.length x) ∧
        (getDie t (core / 192)).coll[(getDie s (core / 192)).coll.length]? = some x ∧ x.cmd = c ∧ x.core = core ∧ x.started = false ∧
        t.mem = s.mem ∧ ((getSeq t uid .c).eq .coll).cmds = r))) ∧
  (∀ (die : Nat) (k : Contribution) (s : State),
    let xs := (getDie s die).coll
    (die < 4 → (∀ x ∈ xs, matchesCmd s x.cmd k = false) → ∃ t, exec (.collectiveContribution die k) s = .next t ∧ t.mem = s.mem ∧ t.units = s.units ∧
      (getDie t die).coll = xs ∧ (getDie t die).early = (getDie s die).early ++ [k]) ∧
    (∀ i x, xs.findIdx? (fun x => matchesCmd s x.cmd k) = some i → xs[i]? = some x → ∃ t, exec (.collectiveContribution die k) s = .next t ∧
      t.mem = s.mem ∧ t.units = s.units ∧ (getDie t die).early = (getDie s die).early ∧ (getDie t die).coll.length = xs.length ∧
      (∀ j, j ≠ i → (getDie t die).coll[j]? = xs[j]?) ∧ ∃ y, (getDie t die).coll[i]? = some y ∧ y.cmd = x.cmd ∧ y.contribs = x.contribs ++ [k] ∧
        (y.mismatch = true ↔ x.mismatch = true ∨ disagrees s x.cmd k = true ∨ ∃ j ∈ x.contribs, j.rank = k.rank))) ∧
  (∀ (die idx : Nat) (late : Bool) (s : State),
    let xs := (getDie s die).coll
    (xs.length ≤ idx → exec (.collectiveCommit die idx late) s = .next s ∧ exec (.collectiveTimeout die idx) s = .next s) ∧
    ∀ x, xs[idx]? = some x →
      (x.cmd.code = 5 ∨ x.cmd.rb.toNat % 2 ^ 24 = 0 ∨ x.result ≠ none → exec (.collectiveTimeout die idx) s = .next s) ∧
      (staleCmd s x.cmd = true → ∃ t, exec (.collectiveCommit die idx late) s = .next t ∧ t.mem = s.mem ∧ t.gendrop = s.gendrop + 1 ∧
        (getDie t die).coll = xs.eraseIdx idx) ∧
      ((getUnit s x.cmd.uid).alive = true → staleCmd s x.cmd = false → x.result = none → tokenFits s x.cmd = true →
        let ends (i : Instr) (stat : Nat) : Prop := ∃ t, exec i s = .next t ∧ t.mem = s.mem ∧ (getDie t die).coll = xs.eraseIdx idx ∧
          Delivered s t .coll x.cmd stat 0
        (x.cmd.code ≠ 5 → x.cmd.rb.toNat % 2 ^ 24 ≠ 0 → ends (.collectiveTimeout die idx) 8) ∧
        (x.silent = true → ends (.collectiveCommit die idx late) 5) ∧
        (x.silent = false → x.mismatch = true → ends (.collectiveCommit die idx late) 7)) ∧
      (staleCmd s x.cmd = false → x.result ≠ none ∨ (x.silent = false ∧ x.mismatch = false) →
        (allArrived s x = false ∨ behindWaiting s die x = true ∨ unsent s die x.cmd = true → exec (.collectiveCommit die idx late) s = .next s) ∧
        (allArrived s x = true → behindWaiting s die x = false → unsent s die x.cmd = false →
          (collStands s x = true → exec (.collectiveCommit die idx late) s = .next (askColl s x)) ∧
          (collStands s x = false → tokenFits s x.cmd = true → exec (.collectiveCommit die idx late) s =
            .next (withGang s x.cmd.uid (writeColl die idx late x))))) ∧
      ((∀ v ∈ x.cmd.uid :: unitsOf s (getUnit s x.cmd.uid).ident.key, (getUnit s v).saved = none) → ∀ f, withGang s x.cmd.uid f = f s) ∧
      (∀ v r,
        let m := learnStarts s x
        let y := (fixResult m x).1
        writeAll { withTags m (collCtx m x) x.cmd with ticket := holdTicket x.hold } x.cmd.h (commitWrites y x.cmd) 0 (fixResult m x).2
          { s := y, recs := [], skip := x.trace } = .ok (v, r) →
        (writeColl die idx late x s).mem = r.s.mem ∧
        (late = false ∨ x.cmd.code ≠ 5 → (getUnit r.s x.cmd.uid).alive = true → staleCmd r.s x.cmd = false → tokenFits r.s x.cmd = true →
          Delivered r.s (writeColl die idx late x s) .coll x.cmd 0 (commitDone y x.cmd)) ∧
        (late = true → x.cmd.code = 5 → (getUnit r.s x.cmd.uid).alive = true →
          FailureDelivered r.s (writeColl die idx late x s) .coll x.cmd 6 (commitDone y x.cmd) 7)))

/-- A walk caches what it maps, faults what it does not permit, and fails what is unmapped; replay words, ring registers and fences act on their
records. In every state: a walk waits while a controller that it reads from has spent its budget; one that ends leaves the die's list. Of a
passed generation it is counted and dropped. One that maps caches its entry and updates the table entries of its path, nothing else in
memory. One that is unmapped takes cause 4 at the sequencer frozen on it, with its address, or with a poured record's, in TVAL. How many
entries a ring holds is the model's choice (log 22). A fault with no record of its page makes one with the next sequence number, an entry in
memory only when the ring is on. FQTAIL and FQCFG keep their fields. A replay takes its record out: a retry walks again from the start, a
reject fails every waiter, a terminate ends the continuation with status 6; a word that names no record of its act is counted and dropped. A
fence removes exactly the entries that it covers (R311, R356, R389, R391, R392, R393, R394, R395, R396, R397). -/
def Obligations.WalksFaultsAndReplaysAct : Prop :=
  (∀ (die idx : Nat) (s : State), 1024 ≤ idx ∨ (getDie s die).walks.length ≤ idx → exec (.walkComplete die idx) s = .next s) ∧
  (∀ (die idx : Nat) (s : State) (w : Walk), idx < 1024 → (getDie s die).walks[idx]? = some w →
    let c := getCont s w.cont
    let fresh := c.live = true ∧ c.gen.toNat = w.gen
    let left := (getDie s die).walks.eraseIdx idx
    (walkQueues s w = true → exec (.walkComplete die idx) s = .next s) ∧
    (walkQueues s w = false →
    (¬ fresh → ∃ t, exec (.walkComplete die idx) s = .next t ∧ t.mem = s.mem ∧ t.units = s.units ∧ t.gendrop = s.gendrop + 1 ∧
      (getDie t die).walks = left ∧ (getDie t die).tlb = (getDie s die).tlb) ∧
    (fresh → ∀ m, walkVa s.mem c.satp c.hgatp w.va.toNat w.kind.writes = .mapped m → (∀ k b, w.waiter ≠ .node k b) →
      ∃ t, exec (.walkComplete die idx) s = .next t ∧ t.mem = m.sets.foldl (fun m x => memPutBytes m x.1 (leBytes 8 x.2)) s.mem ∧ t.units = s.units ∧
        (getDie t die).walks = left ∧ cacheEntry w.cont w.gen w.va.toNat m ∈ (getDie t die).tlb ∧
        ∀ e ∈ (getDie t die).tlb, e = cacheEntry w.cont w.gen w.va.toNat m ∨ e ∈ (getDie s die).tlb) ∧
    (fresh → walkVa s.mem c.satp c.hgatp w.va.toNat w.kind.writes = .unmapped → ∀ uid q, w.waiter = .seq uid q →
      let k := getSeq s uid q
      ((getUnit s uid).alive = true → k.fl.frozen = some (.walk ((getUnit s uid).place.core / 192) w.va w.kind) → trapToHandler k 4 = true →
        ∃ t, exec (.walkComplete die idx) s = .next t ∧ t.mem = s.mem ∧ (getSeq t uid q).pc = k.tr.tvec ∧ (getSeq t uid q).tr.tcause = 4 ∧
          (getSeq t uid q).tr.tval = (if k.fl.pour.isSome ∧ w.kind ≠ .read then k.fl.pourAt else w.va) ∧ (getSeq t uid q).tr.tepc = k.pc ∧ (getSeq t uid q).tr.tvc = k.vc)) ∧
    (fresh → ∀ why, walkVa s.mem c.satp c.hgatp w.va.toNat w.kind.writes = .fault why →
      let d := getDie s die
      (∀ r ∈ d.faults, r.cont ≠ w.cont ∨ r.va.toNat / 4096 ≠ w.va.toNat / 4096) → d.faults.length < 256 →
      (d.ring.on = false → ∃ t, exec (.walkComplete die idx) s = .next t ∧ t.mem = s.mem ∧ t.units = s.units ∧
        (getDie t die).faults = d.faults ++ [newFault d w why] ∧ (getDie t die).ring.seq = d.ring.seq + 1) ∧
      (d.ring.on = true → d.ring.room = true → unposted d = none → ∃ t, exec (.walkComplete die idx) s = .next t ∧ t.units = s.units ∧
        t.mem = memPutBytes s.mem (ringEntry d.ring d.ring.head) (faultEntry die (newFault d w why)) ∧
        (getDie t die).ring.head = (d.ring.head + 1) % d.ring.size ∧ (getDie t die).ring.seq = d.ring.seq + 1 ∧
        (d.ring.count = 0 → (getDie t die).ring.irq = true))))) ∧
  (∀ (die : Nat) (v : Word) (s : State), die < 4 →
    let d := getDie s die
    (∃ t, exec (.fqtailWrite die v) s = .next t ∧ (getDie t die).ring.tail = v.toNat % d.ring.size ∧ (getDie t die).ring.cfg = d.ring.cfg ∧ t.units = s.units ∧
      (d.parkedFaults = [] → unposted d = none → t.mem = s.mem)) ∧
    (∃ t, exec (.fqcfgWrite die v) s = .next t ∧ (getDie t die).ring.cfg = v &&& 0x7F003F ∧ (getDie t die).ring.tail = d.ring.tail ∧
      (v.getLsbD 5 = false → d.parkedFaults = [] → t.mem = s.mem))) ∧
  (∀ (die : Nat) (w : Word) (s : State),
    let act := w.toNat / 2 ^ 32 % 4
    let hit := (getDie s die).faults.find? fun r => r.seq == w.toNat % 2 ^ 32 && r.gen % 65536 == w.toNat / 2 ^ 48
    let drops (i : Instr) : Prop := ∃ t, exec i s = .next t ∧ t = { s with gendrop := s.gendrop + 1 }
    (hit = none → (act = 0 → drops (.fqrplRetry die w)) ∧ (act = 1 → drops (.fqrplReject die w)) ∧ (act = 2 → drops (.fqrplTerminate die w))) ∧
    (act = 3 → ∀ i ∈ [Instr.fqrplRetry die w, .fqrplReject die w, .fqrplTerminate die w], drops i) ∧
    ∀ r, hit = some r → w.toNat / 2 ^ 34 % 2 ^ 14 = 0 →
      let rest := (getDie s die).faults.erase r
      (act = 0 → ∃ t, exec (.fqrplRetry die w) s = .next (settle t die) ∧ t.mem = s.mem ∧ t.units = s.units ∧ (getDie t die).faults = rest ∧
        (getDie t die).walks = (getDie s die).walks ++ r.waiters) ∧
      (act = 1 → exec (.fqrplReject die w) s = .next (settle (r.waiters.foldl unmappedFor (modDie s die fun d => { d with faults := rest })) die)) ∧
      (act = 2 → (getCont s r.cont).live = true → (getCont s r.cont).terminated = none → r.waiters = [] →
        ∃ t, exec (.fqrplTerminate die w) s = .next (settle t die) ∧ (getCont t r.cont).terminated = some 6 ∧
          (getCont t r.cont).gen = (getCont s r.cont).gen + 1)) ∧
  (∀ (hart : Nat) (kind : FenceKind) (addr space : Option Word) (s : State), ∃ t, exec (.sfenceVma hart addr (kind, space)) s = .next t ∧ t.conts = s.conts ∧ t.harts = s.harts ∧
    ∀ d < 4, (getDie t d).tlb = (getDie s d).tlb.filter fun e => !(fenceCovers s kind addr space e))

/-- A decision chooses by class, gangs park, come back and are placed whole, and timers act when their time has come. In every state: a decision
for some cores chooses launches of no exhausted continuation, no two of which share a core, the first of the lowest class among those that
can run, blocked ones only for cores that these leave. A tick moves the stamp on, never back; with no launch to place it changes no memory,
and what issues on a core that holds a unit belongs to no exhausted continuation. A gang parks whole when CPARK asked for it or a frozen
writer needs a row group of it, it has room, also once its units stand still, the press runs no command of it and its save finds budget, and
otherwise not at all; memory then changes only by stores that wait and commands that run, and the cores that it ran on choose again. A
parked gang that a decision chooses, with room at its places and budget for its restore, comes back whole, each partition's bytes as saved;
a unit whose state fails a check stops. A ready launch that a decision chooses for a legal placement, with room, gets one unit per place, in
order, resident and alive with its index, its entry points in its pcs, and its node runs; otherwise nothing happens, and none of an
exhausted continuation is chosen; an unsound exchange table fails the node. Which places a launch gets and where its parameters stand is the
model's free choice (logs 2 and 5). A job's next phase starts when its target time has come. A launch that has not issued for 20 ms is aged
(R201, R341, R342, R345, R357, R371, R373, R374, R375, R377, R410, R427). -/
def Obligations.ClocksParksAndPlacementsAct : Prop :=
  (∀ (s : State) (cores : List Nat) (y : Option NodeKey) (more : List Cand),
    let d := decision s cores y more
    let candidate (c : Cand) : Prop := (c ∈ more ∨ ∃ k ∈ residentKeys s, c = candOf s k) ∧ exhausted s c.key = false ∧
      (∃ k ∈ c.cores, k ∈ d.cores) ∧ ∀ k ∈ c.cores, k ∈ d.cores ∨ issuingUnit s k = none
    let blocked (c : Cand) : Prop := unitsOf s c.key ≠ [] ∧ launchBlocked s c.key = true
    (∀ k ∈ cores, k ∈ d.cores) ∧ (∀ c ∈ d.chosen, candidate c) ∧ (d.chosen.Pairwise fun a b => ∀ k ∈ a.cores, k ∉ b.cores) ∧
    (∀ c ∈ d.first, ¬ blocked c) ∧ (∀ c ∈ d.second, blocked c ∧ c ∉ more) ∧
    (∀ c, d.first.head? = some c → ∀ e, candidate e → ¬ blocked e → c.cls ≤ e.cls) ∧
    ∀ t, (d.apply t).mem = t.mem ∧ (d.apply t).stamp = t.stamp ∧ ∀ v, (getUnit (d.apply t) v).place = (getUnit t v).place ∧
      (getUnit (d.apply t) v).ident = (getUnit t v).ident ∧ (getUnit (d.apply t) v).saved = (getUnit t v).saved ∧
      (getUnit (d.apply t) v).alive = (getUnit t v).alive) ∧
  (∀ (now : Nat) (s : State), (s.units.map Prod.fst).Nodup →
    let b := atTime s now
    (b = if now < 2 ^ 64 then { s with stamp := max s.stamp now } else s) ∧
    (proposals b (fun _ => true) = [] → ∃ t, exec (.schedTick now) s = .next t ∧ t.mem = s.mem ∧ t.stamp = b.stamp ∧ t.harts = s.harts ∧
      ∀ core ∈ busyCores s, ∀ slot, (getCore t core).issuing = some slot → ∃ v, v ∈ unitsOf s (getUnit s v).ident.key ∧
        (getUnit s v).place.core = core ∧ (getUnit s v).place.slot = slot ∧ exhausted s (getUnit s v).ident.key = false)) ∧
  (∀ (u : Nat) (s : State),
    let k := (getUnit s u).ident.key
    let us := (unitsOf s k).filter fun v => (getUnit s v).place.resident
    let can := us ≠ [] ∧ (∀ v ∈ us, pressBusy s v = false) ∧ gangRoom s us = true ∧ mayPark s k = true
    let ran := us.any fun v => (getCore s (getUnit s v).place.core).issuing == some (getUnit s v).place.slot
    let h := us.foldl haltUnit (leaveQueue s (.context k))
    let p := parkAway s k
    (¬ can → exec (.park u) s = .next s) ∧
    (can → ∀ x, saveStop s k = some x → exec (.park u) s = .next (enterQueue s (.context k) x)) ∧
    (can → saveStop s k = none →
      exec (.park u) s = .next (if ran then decideCores p (us.map fun v => (getUnit s v).place.core) none else p)) ∧
    (gangRoom h us = false → p = h) ∧
    (can → (s.units.map Prod.fst).Nodup →
      (gangRoom h us = true → ∀ v ∈ us, (getUnit p v).place.resident = false ∧ (getUnit p v).saved.isSome = true ∧ (getUnit p v).alive = (getUnit s v).alive) ∧
      ((∀ v ∈ us, ∀ q, (getSeq s v q).fl.stores = []) → (∀ core e, runAt s (.own core e) = none ∧ runAt s (.reloc core e) = none) → p.mem = s.mem))) ∧
  (∀ (u : Nat) (places : List UnitPlace) (s : State),
    let k := (getUnit s u).ident.key
    let us := parkedUnits s k
    (resuming s k places = none → exec (.unpark u places) s = .next s) ∧
    (∀ d b t, resuming s k places = some (d, b) → seatParked s k places b = .ok t → exec (.unpark u places) s = .next (stopFlawed us (d.apply t))) ∧
    (∀ d b t, resuming s k places = some (d, b) → seatParked s k places b = .error t → exec (.unpark u places) s = .next t) ∧
    (∀ b t, seatParked s k places b = .ok t → b.units = s.units → (s.units.map Prod.fst).Nodup →
      (∀ x ∈ us.zip places, (getUnit t x.1).place.resident = true ∧ (getUnit t x.1).saved = none ∧ (getUnit t x.1).place.slot = x.2.slot ∧
        (getUnit t x.1).place.spadBase = x.2.base ∧ (getUnit t x.1).place.spadSize = (getUnit s x.1).place.spadSize) ∧
      ((us.map fun v => (getUnit s v).place.core).Nodup → b.MemOk → ∀ v ∈ us, ∀ saved, (getUnit s v).saved = some saved → memWf saved.spad = true →
        (∀ c ∈ saved.spad, c.1 < (getUnit s v).place.spadSize) →
        ∀ o < (getUnit s v).place.spadSize, memGet t.mem (spadPa (getUnit t v) o) = memGet saved.spad o)) ∧
    (∀ t, (∀ v ∈ us, restoreSound (getUnit t v) = true) → stopFlawed us t = t) ∧
    (∀ t v q slot, us.head? = some v → restoreFlaw (getUnit t v) = some (q, slot) →
      stopFlawed us t = stopUnit t v q 12 (BitVec.ofNat 64 slot) 0 false none)) ∧
  (∀ (k : NodeKey) (places : List UnitPlace) (params : Word) (s : State) (j : Job) (n : NodeRec) (r : NodeRun) (l : LaunchInfo),
    findJob s k.cont k.job = some j → nodeRec s k = some n → findNode s k = some r → r.launch = some l →
    let cores := places.map (·.core)
    let size := (l.spad + 4095) / 4096 * 4096
    let took := placing s k n r l places
    (r.status ≠ .ready ∨ took = none → exec (.launchPlace k places params) s = .next s) ∧
    (legalPlacement cores = false ∨ cores.length ≠ launchCores n ∨ cores.all (coreAllowed s k.cont n.press) = false ∨ exhausted s k = true → took = none) ∧
    (∀ d b t, r.status = .ready → took = some (d, b) → seatReady s k j n l places params b = .error t → exec (.launchPlace k places params) s = .next t) ∧
    (∀ d b t, r.status = .ready → took = some (d, b) → seatReady s k j n l places params b = .ok t → exec (.launchPlace k places params) s = .next (d.apply t)) ∧
    ∀ b,
      (l.tables.all (tableSound cores size) = false → seatReady s k j n l places params b = .error (failNode s k 9)) ∧
      (∀ ps, b.nextUid = s.nextUid → findNode b k = some r → l.tables.all (tableSound cores size) = true → inParams s k.cont params.toNat l.block.length = false →
        nodePlaces s k params .write l.block.length = .ok ps → ∃ t, seatReady s k j n l places params b = .ok t ∧
          (findNode t k).map (·.status) = some .running ∧ t.nextUid = s.nextUid + places.length ∧
          ∀ i p, places[i]? = some p → let u := getUnit t (s.nextUid + i)
            u.alive = true ∧ u.ident.key = k ∧ u.ident.index = i ∧ u.ident.size = places.length ∧ u.place.core = p.core ∧ u.place.slot = p.slot ∧
            u.place.resident = true ∧ u.place.spadBase = p.base ∧ u.place.spadSize = size ∧
            ∀ q, (u.seq q).pc = BitVec.ofNat 64 (l.entry[q.idx]?.getD 0) ∧ (u.seq q).status = .running)) ∧
  (∀ (cont job now : Nat) (s : State),
    let b := atTime s now
    (findJob s cont job = none → exec (.phasePeriodTimer cont job now) s = .next b) ∧
    ∀ j, findJob s cont job = some j →
      (statusFinal j.status = true ∨ j.phase.isSome = true ∨ (j.status = 2 ∧ (j.nphase ≤ j.next ∨ (j.period ≠ 0 ∧ b.stamp < j.t0 + j.next * j.period))) →
        exec (.phasePeriodTimer cont job now) s = .next b) ∧
      (∀ g, j.status = 2 → j.phase = none → j.next < j.nphase → (j.period = 0 ∨ j.t0 + j.next * j.period ≤ b.stamp) → laterGraph s cont j = some g →
        exec (.phasePeriodTimer cont job now) s = .next (startPhase b cont j g))) ∧
  (∀ (k : NodeKey) (now : Nat) (s : State) (n : NodeRec) (r : NodeRun), nodeRec s k = some n → findNode s k = some r →
    let due := n.kind = 0 ∧ (r.status = .ready ∨ r.status = .running) ∧ issuing s k = false ∧ r.idleAt + 20000000 ≤ (atTime s now).stamp
    (¬ due → ∃ t, exec (.agingExpire k now) s = .next t ∧ t.conts = s.conts ∧ t.units = s.units ∧ t.mem = s.mem) ∧
    (due → ∃ t, exec (.agingExpire k now) s = .next t ∧ findNode t k = some { r with aged := true } ∧ t.units = s.units ∧ t.mem = s.mem))

/-- Nodes complete as their kind says, and a phase's END completes the phase and, with the last phase, the job. In every state: a node event on
a node of another kind, or on one that does not run, changes nothing. END completes its phase, which is recorded: in the last phase the job
ends complete, and in an earlier one the next phase starts when its target time has come and waits for it before. A LAUNCH node completes
when its unit count is 0, and not before. A WAIT node whose counters are read fails on a negative one with status 5, completes when each is
at or below its target, and else waits. A SIGNAL node subtracts its amount from its counter's word, no other byte, and completes. A COPY
node copies to the end of its present 4 KiB and stands there; one whose bytes are done completes, signalling its counter first when it names
one; one that stops keeps what is done, and a fault fails it. A node that waits for a translation or a budget stays as it is (R21, R365,
R366, R367, R368, R369, R370, R371, R401, R447). -/
def Obligations.NodesCompleteInTheirPhase : Prop :=
  (∀ (k : NodeKey) (s : State), (findNode s k = none ∨ nodeRec s k = none ∨ ∃ r, findNode s k = some r ∧ r.status ≠ .running) →
    ∀ i ∈ [Instr.nodeComplete k, .waitEvaluate k, .signalNode k, .copyNodeComplete k], exec i s = .next s) ∧
  ∀ (k : NodeKey) (s : State) (n : NodeRec) (r : NodeRun), nodeRec s k = some n → findNode s k = some r → r.status = .running →
    (n.kind ≠ 1 → exec (.waitEvaluate k) s = .next s) ∧ (n.kind ≠ 2 → exec (.signalNode k) s = .next s) ∧
    (n.kind ≠ 3 → exec (.copyNodeComplete k) s = .next s) ∧ (n.kind ≠ 0 → n.kind ≠ 4 → exec (.nodeComplete k) s = .next s) ∧
    (∀ j p, n.kind = 4 → findJob s k.cont k.job = some j → j.phase = some p → j.nphase ≤ j.next → statusFinal j.status = false →
      ((getCont s k.cont).jobs.filter fun x => x.id == k.job) = [j] → ∃ t j' p', exec (.nodeComplete k) s = .next t ∧ t.mem = s.mem ∧ t.units = s.units ∧
        findJob t k.cont k.job = some j' ∧ j'.status = 0 ∧ j'.phase = none ∧ j'.past = j.past ++ [p'] ∧ p'.index = p.index ∧ p'.status = 0 ∧
        (p'.nodes[k.node]?).map (·.status) = some .complete) ∧
    (∀ j p, n.kind = 4 → findJob s k.cont k.job = some j → j.phase = some p → j.next < j.nphase → j.status = 2 →
      ((getCont s k.cont).jobs.filter fun x => x.id == k.job) = [j] → ∃ t j' p', exec (.nodeComplete k) s = .next (pokeJob t k.cont k.job) ∧ t.mem = s.mem ∧
        t.units = s.units ∧ t.stamp = s.stamp ∧ findJob t k.cont k.job = some j' ∧ j' = { j with phase := none, past := j.past ++ [p'] } ∧
        p'.index = p.index ∧ p'.status = 0 ∧ (p'.nodes[k.node]?).map (·.status) = some .complete ∧
        (j.period ≠ 0 → s.stamp < j.t0 + j.next * j.period → pokeJob t k.cont k.job = t) ∧
        (∀ g, j.period = 0 ∨ j.t0 + j.next * j.period ≤ s.stamp → laterGraph t k.cont j' = some g → pokeJob t k.cont k.job = startPhase t k.cont j' g)) ∧
    (n.kind = 0 → launchCounter n r ≠ 0 → exec (.nodeComplete k) s = .next s) ∧
    (n.kind = 0 → launchCounter n r = 0 → exec (.nodeComplete k) s = .next (completeNode s k (launchRel s k))) ∧
    (∀ j p vs t, n.kind = 1 → findJob s k.cont k.job = some j → j.phase = some p → readCounters k (waitEntries p n) s = .ok (vs, t) →
      exec (.waitEvaluate k) s = .next (if ∃ v ∈ vs, v.1 < 0 then failNode t k 5 else if ∀ v ∈ vs, v.1 ≤ v.2 then completeNode t k (schedRel t k) else t)) ∧
    (∀ j p t, n.kind = 1 → findJob s k.cont k.job = some j → j.phase = some p → readCounters k (waitEntries p n) s = .error t →
      exec (.waitEvaluate k) s = .next t) ∧
    (∀ t, n.kind = 2 → nodePlaces s k n.f08 .atomic 8 = .wait t → exec (.signalNode k) s = .next t) ∧
    (∀ ps t, n.kind = 2 → nodePlaces s k n.f08 .atomic 8 = .ok ps → nodeMark s k n.f08 ps true true = .ok t → s.MemOk → ps.Nodup → ∃ b,
      exec (.signalNode k) s = .next (completeNode b k (schedRel b k)) ∧ b.units = s.units ∧ b.MemOk ∧
      BitVec.ofNat 64 (placesValue b ps) = BitVec.ofNat 64 (placesValue s ps) - n.f10 ∧
      ∀ a, Place.mem a ∉ ps → memGet b.mem a = memGet s.mem a) ∧
    (∀ a, n.kind = 2 → nodePlaces s k n.f08 .atomic 8 = .unmapped a → exec (.signalNode k) s = .next (nodeFault s k 4 a none)) ∧
    (∀ t i stop, n.kind = 3 → copyBytesNode k n r.done (Nat.min (4096 - r.done % 4096) (n.f18.toNat - r.done)) s = (t, i, stop) →
      let d := modNode t k fun r => { r with done := i }
      (∀ u, stop = some (.wait u) → exec (.copyNodeComplete k) s = .next d) ∧
      (∀ u cause va race, stop = some (.fault u cause va race) → exec (.copyNodeComplete k) s = .next (nodeFault d k cause va race)) ∧
      (stop = none → i < n.f18.toNat → exec (.copyNodeComplete k) s = .next d) ∧
      (stop = none → n.f18.toNat ≤ i → n.f20 = 0 → exec (.copyNodeComplete k) s = .next (completeNode d k (schedRel d k))) ∧
      (stop = none → n.f18.toNat ≤ i → n.f20 ≠ 0 →
        exec (.copyNodeComplete k) s = .next (nodeSignal d k n.f20 1 fun s => completeNode s k (schedRel s k)))) ∧
    (∀ i t p q, s.MemOk → copyByteNode s k n i = .ok t → nodePlaces s k (n.f08 + BitVec.ofNat 64 i) .read 1 = .ok [.mem p] →
      nodePlaces s k (n.f10 + BitVec.ofNat 64 i) .write 1 = .ok [.mem q] →
      memGet t.mem q = memGet s.mem p ∧ ∀ a, a ≠ q → memGet t.mem a = memGet s.mem a)

/-- Accounts are charged and refilled, the arbiter's period sets grants, levels, budgets and caps, and bias, heat and ballast events do what
they say. In every state: an estimate is charged to accounts, which keep their quota and period; what is charged leaves the quota, and a
continuation whose quota that uses up is exhausted, no other one newly; the cores that issue for one choose again. A refill at a multiple of
the period takes a pending setting, clears the charge and carries a debt, no credit. A boundary of 1 ms gives every cluster a grant from 400
to 1,600 MHz in steps of 50, the top level where a class-0 launch is resident and the bias may rise, every controller at most its full rate
with nothing of it spent, and a pending cap its effect; floors that do not fit are scaled and set FLRB, and a change that brings them about
posts a floor breach. What the estimates, demands and shares are is open (log 9). A bias move ends at its level. Lost headroom is kept until
it is regained; a step down lowers the level by one. Shed ballast sets BLST. At other times nothing but the stamp changes (R26, R400, R408,
R409, R410, R411, R412, R413, R415, R416, R417, R418). -/
def Obligations.EnergyAndPowerEventsAct : Prop :=
  (∀ (now cont : Nat) (s : State),
    let t := chargeEstimate (atTime s now)
    let e := (getCont s cont).energy
    let f := (getCont t cont).energy
    exec (.energyEstimateTick now) s = .next (if exhaustedCores t = [] then t else decideCores t (exhaustedCores t) none) ∧
    (∀ core, core ∈ exhaustedCores t ↔ core < 768 ∧ ∃ v, issuingUnit t core = some v ∧ exhausted t (getUnit t v).ident.key = true) ∧
    t.mem = s.mem ∧ t.stamp = (atTime s now).stamp ∧
    f.quota = e.quota ∧ f.period = e.period ∧ f.pending = e.pending ∧ e.charged ≤ f.charged ∧ s.power.overhead ≤ t.power.overhead ∧
    (e.quota ≠ 0 → f.left + f.charged = e.left + e.charged) ∧
    (e.exhausted = true → f.exhausted = true) ∧ (f.exhausted = true → e.exhausted = true ∨ (e.quota ≠ 0 ∧ f.left ≤ 0)) ∧
    (e.quota ≠ 0 → f.charged ≠ e.charged → f.left ≤ 0 → f.exhausted = true)) ∧
  (∀ (now cont : Nat) (s : State),
    let e := (getCont s cont).energy
    let b := atTime s now
    ((getCont s cont).live = false ∨ b.stamp % (1000000 * e.period) ≠ 0 → exec (.refillBoundary cont now) s = .next b) ∧
    ((getCont s cont).live = true → b.stamp % (1000000 * e.period) = 0 → ∃ t, exec (.refillBoundary cont now) s = .next t ∧ t.mem = s.mem ∧ t.units = s.units ∧
      let f := (getCont t cont).energy
      f.charged = 0 ∧ f.pending = none ∧ f.deficit = e.deficit ∧ f.left = f.quota + min e.left 0 ∧
      (f.exhausted = true ↔ f.quota ≠ 0 ∧ f.left ≤ 0) ∧ (e.pending = none → f.quota = e.quota ∧ f.period = e.period) ∧
      ∀ w, e.pending = some w → f.quota = w.toNat % 2 ^ 40 ∧ f.period = if w.toNat / 2 ^ 40 % 2 ^ 16 = 0 then 10 else w.toNat / 2 ^ 40 % 2 ^ 16)) ∧
  (∀ (now : Nat) (s : State),
    let b := atTime s now
    (b.stamp % 1000000 ≠ 0 → exec (.arbiterPeriod now) s = .next b) ∧
    (b.stamp % 1000000 = 0 → ∃ t, exec (.arbiterPeriod now) s = .next t ∧ t.mem = s.mem ∧ t.units = s.units ∧ t.conts = s.conts ∧
      (∀ cl < 192, let c := getCluster t cl
        400 ≤ c.grant ∧ c.grant ≤ 1600 ∧ c.grant % 50 = 0 ∧ c.headroom = (getCluster s cl).headroom ∧ targetLevel c ≤ max 7 (targetLevel (getCluster s cl)) ∧
        ((getCluster s cl).headroom = true → holdsClass0 s cl = true → (∀ i, (getCluster s cl).partition = some i → i < 8) → targetLevel c = 7) ∧
        ((getCluster s cl).headroom = false → targetLevel c ≤ targetLevel (getCluster s cl))) ∧
      (∀ d < 4, ∀ k < 6, ∃ n, tabGet (getDie t d).budgets k = some n ∧ n ≤ if k < 2 then 6400000000 else 86400000) ∧ (∀ k, spentOf t k = 0) ∧
      (s.power.ovr = true → t.power.ovr = true) ∧ t.power.pendingCap = none ∧
      (∀ c fs, s.power.pendingCap = some (c, fs) → t.power.capSet = c ∧ t.power.floors = fs ∧
        t.power.breaches = s.power.breaches + if t.power.flrb = true then 1 else 0) ∧
      (s.power.pendingCap = none → t.power.capSet = s.power.capSet ∧ t.power.floors = s.power.floors ∧ t.power.breaches = s.power.breaches) ∧
      (t.power.flrb = false → t.power.effFloors = t.power.floors) ∧
      (t.power.flrb = true → total t.power.effFloors ≤ max 420 (min t.power.capSet 3200) ∧ max 420 (min t.power.capSet 3200) < total t.power.floors + Config.fixedDraw (b.stamp / 1000000)))) ∧
  (∀ (cl : Nat) (s : State),
    let c := getCluster s cl
    (c.moving = none → exec (.biasMoveComplete cl) s = .next s) ∧
    (∀ l, c.moving = some l → ∃ t, exec (.biasMoveComplete cl) s = .next t ∧ getCluster t cl = { c with bias := l, moving := none } ∧ t.mem = s.mem ∧ t.units = s.units) ∧
    (∃ t, exec (.thermalHeadroomLost cl) s = .next t ∧ getCluster t cl = { c with headroom := false } ∧ t.mem = s.mem ∧ t.units = s.units) ∧
    (∃ t, exec (.thermalHeadroomRegained cl) s = .next t ∧ getCluster t cl = { c with headroom := true, atLimit := false } ∧ t.mem = s.mem ∧ t.units = s.units) ∧
    (∃ t, exec (.thermalStepDown cl) s = .next t ∧ (getCluster t cl).headroom = false ∧ (getCluster t cl).atLimit = true ∧
      targetLevel (getCluster t cl) = targetLevel c - 1 ∧ (getCluster t cl).bias ≤ c.bias ∧ (getCluster t cl).grant = c.grant ∧ t.mem = s.mem ∧ t.units = s.units)) ∧
  (∀ (die : Nat) (s : State),
    (die < 4 → ∃ t, exec (.ballastStart die) s = .next t ∧ (getDie t die).ballast = true ∧ t.mem = s.mem ∧ t.units = s.units ∧ t.power = s.power ∧
      t.clusters = s.clusters) ∧
    ((getDie s die).ballast = false → exec (.ballastShed die) s = .next s) ∧
    ((getDie s die).ballast = true → ∃ t, exec (.ballastShed die) s = .next t ∧ (getDie t die).ballast = false ∧ t.power = { s.power with blst := true } ∧
      t.mem = s.mem ∧ t.units = s.units))

/-- The group's events keep its members, their limits and states, and the clock ceiling, which rises only when nothing holds it. In every state,
the stamp, a 64-bit count, never moving back: a trip sets its die's bit; in a group the ceiling falls to the limit and stays for 200 us;
outside one the grants fall, which is the model's choice (log 59). A breach of a member does the same to the ceiling. At a ceiling stamp
what is scheduled applies, and the ceiling of a device in the group is the lowest limit that counts, or, where that is higher and something
holds it, stays. Heartbeats count up, announce a changed limit 200 us ahead, not above what its hot clusters allow, may announce a leave (a
free choice, log 59), and are taken from every member but an evicted one, which probes and joins anew; five missed ones silence a member and
its collectives. Evictions, leaves, joins and version changes follow their stamps; a version that the device does not hold is not taken.
When the limit of one that has left stops to count is the model's reading (log 87) (R154, R419, R420, R421, R422, R423, R427, R433, R435). -/
def Obligations.GroupEventsMoveTheCeiling : Prop :=
  (∀ (now : Nat) (s : State), atTime s now = if now < 2 ^ 64 then { s with stamp := max s.stamp now } else s) ∧
  (∀ (die limit now : Nat) (s : State), die < 4 →
    ∃ t, exec (.trip die limit now) s = .next t ∧ t.mem = s.mem ∧ t.units = s.units ∧ t.stamp = (atTime s now).stamp ∧
      t.power.trip.getLsbD die = true ∧ (∀ d, d ≠ die → t.power.trip.getLsbD d = s.power.trip.getLsbD d) ∧
      (inGroup s.group = true → t.group.limit = limit ∧ t.group.next = none ∧ t.group.ceiling = min s.group.ceiling limit ∧
        t.group.noRise = t.stamp + 200000 ∧ t.clusters = s.clusters) ∧
      (inGroup s.group = false → t.group = s.group ∧ ∀ cl < 192, getCluster t cl = { getCluster s cl with grant := min (getCluster s cl).grant limit })) ∧
  (∀ (m limit now : Nat) (s : State), ∃ t, exec (.breachReceive m limit now) s = .next t ∧ t.mem = s.mem ∧ t.units = s.units ∧ t.stamp = (atTime s now).stamp ∧
    tabGet t.group.peers m = (tabGet s.group.peers m).map (fun p => { p with limit := limit, next := none }) ∧
    (∀ k, k ≠ m → tabGet t.group.peers k = tabGet s.group.peers k) ∧
    (inGroup s.group = true → t.group.ceiling = min s.group.ceiling limit ∧ t.group.noRise = t.stamp + 200000) ∧
    (inGroup s.group = false → t.group.ceiling = s.group.ceiling)) ∧
  (∀ (now : Nat) (s : State), ∃ t, exec (.ceilingStamp now) s = .next t ∧ t.mem = s.mem ∧ t.units = s.units ∧ t.stamp = (atTime s now).stamp ∧
    (∀ l at0, s.group.next = some (l, at0) → at0 ≤ t.stamp → t.group.limit = l ∧ t.group.next = none ∧ (s.group.state = 1 → t.group.state = 2)) ∧
    (∀ l at0, s.group.next = some (l, at0) → t.stamp < at0 → t.group.limit = s.group.limit ∧ t.group.next = s.group.next ∧ t.group.state = s.group.state) ∧
    (∀ m, tabGet t.group.peers m = (tabGet s.group.peers m).map (peerAt t.stamp)) ∧
    (inGroup t.group = false → t.group.ceiling = s.group.ceiling) ∧
    (inGroup t.group = true → ∃ n, n ≤ t.group.limit ∧ (∀ p ∈ t.group.peers, peerCounts t.stamp p.2 = true → n ≤ p.2.limit) ∧
      (n = t.group.limit ∨ ∃ p ∈ t.group.peers, peerCounts t.stamp p.2 = true ∧ n = p.2.limit) ∧
      ((s.group.ceiling < n ∧ held t.group t.stamp = true → t.group.ceiling = s.group.ceiling) ∧
        (n ≤ s.group.ceiling ∨ held t.group t.stamp = false → t.group.ceiling = n)))) ∧
  (∀ (now : Nat) (s : State),
    let b := atTime s now
    let g := s.group
    (b.stamp % 20000 ≠ 0 ∨ (g.state ≠ 1 ∧ g.state ≠ 2 ∧ g.state ≠ 3) → exec (.heartbeatSend now) s = .next b) ∧
    (b.stamp % 20000 = 0 → g.state = 1 ∨ g.state = 2 ∨ g.state = 3 → ∃ t, exec (.heartbeatSend now) s = .next t ∧ t.mem = s.mem ∧ t.units = s.units ∧
      t.group.seq = g.seq + 1 ∧ t.group.limit = g.limit ∧ t.group.ceiling = g.ceiling ∧ t.group.peers = g.peers ∧
      (t.group.next = g.next ∨ g.next = none ∧ ∃ l, t.group.next = some (l, b.stamp + 200000) ∧ 400 ≤ l ∧ l ≤ 1600 ∧ l % 25 = 0 ∧ l ≤ thermalLimit s) ∧
      (g.state = 1 → g.next = none → t.group.next ≠ none) ∧
      (t.group.state = g.state ∧ t.group.leaveAt = g.leaveAt ∨ g.state = 2 ∧ t.group.state = 3 ∧ t.group.leaveAt = some (b.stamp + 200000)))) ∧
  (∀ (hb : Heartbeat) (now : Nat) (s : State),
    let b := atTime s now
    let old : Option Nat := (tabGet s.group.peers hb.member).map (·.state)
    (s.group.state = 6 ∨ s.group.state = 5 ∨ (old = some 5 ∧ 2 ≤ hb.state) → exec (.heartbeatReceive hb now) s = .next b) ∧
    (s.group.state ≠ 6 → s.group.state ≠ 5 → ¬ (old = some 5 ∧ 2 ≤ hb.state) → ∃ t p, exec (.heartbeatReceive hb now) s = .next t ∧ t.mem = s.mem ∧ t.units = s.units ∧
      tabGet t.group.peers hb.member = some p ∧ p.state = (if old = some 4 then 2 else hb.state) ∧ p.limit = hb.limit ∧ p.seq = hb.seq ∧ p.missed = 0 ∧
      p.next = (if hb.breach then none else hb.next) ∧ (∀ k, k ≠ hb.member → tabGet t.group.peers k = tabGet s.group.peers k) ∧
      t.group.ceiling = if hb.breach = true ∧ inGroup s.group = true then min s.group.ceiling hb.limit else s.group.ceiling)) ∧
  (∀ (m now : Nat) (s : State),
    let b := atTime s now
    (tabGet s.group.peers m = none → exec (.heartbeatMiss m now) s = .next b ∧ (m ≠ s.group.index → exec (.memberEvict m now) s = .next b)) ∧
    (∀ p, tabGet s.group.peers m = some p →
      let gone := 5 ≤ p.missed + 1 ∧ (p.state = 2 ∨ p.state = 3)
      (∃ t, exec (.heartbeatMiss m now) s = .next t ∧ t.mem = s.mem ∧ t.units = s.units ∧
        tabGet t.group.peers m = some { p with missed := p.missed + 1, state := if gone then 4 else p.state } ∧
        ∀ d < 4, (getDie t d).coll = (getDie s d).coll.map fun x => if gone ∧ needs s x.cmd m = true then { x with silent := true } else x) ∧
      (m ≠ s.group.index ∨ s.group.state = 6 → ∃ t, exec (.memberEvict m now) s = .next t ∧ t.mem = s.mem ∧ t.units = s.units ∧
        tabGet t.group.peers m = some { p with state := 5, evictAt := some (b.stamp + 200000) } ∧ t.group.ceiling = s.group.ceiling ∧
        (p.state = 4 → b.stamp + 200000 ≤ t.group.holdTill) ∧ s.group.holdTill ≤ t.group.holdTill)) ∧
    (m = s.group.index → s.group.state ≠ 6 → ∃ t, exec (.memberEvict m now) s = .next t ∧ t.mem = s.mem ∧ t.units = s.units ∧
      t.group = { s.group with state := 5 })) ∧
  (∀ (now : Nat) (s : State),
    let b := atTime s now
    (s.group.state ≠ 3 ∨ s.group.leaveAt = none → exec (.leaveComplete now) s = .next b) ∧
    ∀ at0, s.group.leaveAt = some at0 →
      (b.stamp < at0 + 200000 → exec (.leaveComplete now) s = .next b) ∧
      (s.group.state = 3 → at0 + 200000 ≤ b.stamp → ∃ t, exec (.leaveComplete now) s = .next t ∧ t.mem = s.mem ∧ t.units = s.units ∧
        t.group.state = 6 ∧ t.group.peers = [] ∧ t.group.leaveAt = none ∧ t.group.next = none)) ∧
  (∀ (index version : Nat) (ps : List Heartbeat) (s : State),
    (s.group.state ≠ 0 → s.group.state ≠ 6 → exec (.groupLinkUp index ps version) s = .next s) ∧
    (s.group.state = 0 ∨ s.group.state = 6 → ∃ t, exec (.groupLinkUp index ps version) s = .next t ∧ t.mem = s.mem ∧ t.units = s.units ∧
      (version ≠ 0x10000 → version ≠ 0x10001 → t.group = { s.group with state := 0 }) ∧
      (version = 0x10000 ∨ version = 0x10001 → t.group.state = 1 ∧ t.group.index = index ∧ t.group.version = version ∧
        ∀ hb ∈ ps, (tabGet t.group.peers hb.member).isSome = true))) ∧
  (∀ (s : State) (v at0 : Nat), s.group.nextVersion = some (v, at0) →
    (s.stamp < at0 ∨ collectivesFly s = true → settleVersion s = s) ∧
    (at0 ≤ s.stamp → collectivesFly s = false → settleVersion s = { s with group := { s.group with version := v, nextVersion := none } })) ∧
  (∀ (version now : Nat) (s : State),
    let b := settleVersion (atTime s now)
    let g := b.group
    let held := version = 0x10000 ∨ version = 0x10001
    (inGroup g = false → exec (.groupVersionChange version now) s = .next b) ∧
    (inGroup g = true → ¬ held → exec (.groupVersionChange version now) s =
      .next { b with group := if g.state = 2 then { g with state := 3, leaveAt := some (b.stamp + 200000) } else g }) ∧
    (inGroup g = true → held → g.version = version ∨ (∃ at0, g.nextVersion = some (version, at0)) → exec (.groupVersionChange version now) s = .next b) ∧
    (inGroup g = true → held → g.version ≠ version → (∀ at0, g.nextVersion ≠ some (version, at0)) → exec (.groupVersionChange version now) s =
      .next { b with group := { g with nextVersion := some (version, b.stamp + 200000) } }))

/-- A link takes the highest version of both ends, buffers good flits in order while it has room, pauses and resumes by class, and admits 11,200
bytes a window. For each of the 36 ports, in every state: bring-up takes the highest held version in the other end's range, or none. A port
drains its buffers from their heads, so much as is open; a good flit that is the next of its class then goes to the tail of its class's
buffer when that holds at most 64 KiB with it, and any other changes nothing. Above 48 KiB a pause stands for a class, below 32 KiB none. A
pause stops a class, a resume lets it go on, other classes as they were. What may be sent is sent in the order of its class: nothing of a
paused class, and of class 0 at most 11,200 bytes a window of 1 us; when the window is over the next admits what waits, and before that
nothing changes (R424, R425, R426, R435). -/
def Obligations.PortEventsAdmitAndPause : Prop :=
  (∀ (port lo hi : Nat) (s : State), port < 36 → ∃ t, exec (.linkBringup port lo hi) s = .next t ∧ t.mem = s.mem ∧ t.units = s.units ∧
    (∀ q < 36, q ≠ port → getPort t (q / 9) (q % 9) = getPort s (q / 9) (q % 9)) ∧
    let v := (getPort t (port / 9) (port % 9)).version
    (lo ≤ 0x10001 → 0x10001 ≤ hi → v = some 0x10001) ∧ (lo ≤ 0x10000 → hi = 0x10000 → v = some 0x10000) ∧ (hi < 0x10000 ∨ 0x10001 < lo → v = none)) ∧
  (∀ (port : Nat) (f : Flit) (s : State), port < 36 →
    let p := getPort s (port / 9) (port % 9)
    f.cls < 4 → ∃ t k, exec (.flitReceive port f) s = .next t ∧ t.mem = s.mem ∧ t.units = s.units ∧
      (∀ q < 36, q ≠ port → getPort t (q / 9) (q % 9) = getPort s (q / 9) (q % 9)) ∧
      let d := drainPort k p
      let r := getPort t (port / 9) (port % 9)
      let old := (tabGet d.buffers f.cls).getD []
      let next := (tabGet d.nextFlit f.cls).getD 0
      let takes := p.version.isSome ∧ f.good = true ∧ f.seq = next ∧ 256 * (old.length + 1) ≤ 65536
      (∀ c < 4, ∃ n, (tabGet d.buffers c).getD [] = ((tabGet p.buffers c).getD []).drop n) ∧ d.waiting = p.waiting ∧ d.paused = p.paused ∧ d.window = p.window ∧
      d.version = p.version ∧ d.nextFlit = p.nextFlit ∧ (¬ takes → r = d) ∧
      (takes → tabGet r.buffers f.cls = some (old ++ [f.bytes]) ∧ tabGet r.nextFlit f.cls = some (next + 1) ∧
        ∀ c, c ≠ f.cls → tabGet r.buffers c = tabGet d.buffers c ∧ tabGet r.nextFlit c = tabGet d.nextFlit c ∧ (c ∈ r.sentPause ↔ c ∈ d.sentPause)) ∧
      PausesStand r) ∧
  (∀ (port cls : Nat) (s : State), port < 36 →
    let p := getPort s (port / 9) (port % 9)
    (∃ t, exec (.pauseReceive port cls) s = .next t ∧ t.mem = s.mem ∧ t.units = s.units ∧ let r := getPort t (port / 9) (port % 9)
      (∀ c, c ∈ r.paused ↔ c = cls ∨ c ∈ p.paused) ∧ r.buffers = p.buffers ∧ r.waiting = p.waiting) ∧
    (∃ t, exec (.resumeReceive port cls) s = .next t ∧ t.mem = s.mem ∧ t.units = s.units ∧ let r := getPort t (port / 9) (port % 9)
      (∀ c, c ∈ r.paused ↔ c ≠ cls ∧ c ∈ p.paused) ∧ r.windowAt = p.windowAt ∧ SendsWaiting { p with paused := r.paused } r)) ∧
  (∀ (port now : Nat) (s : State), port < 36 →
    let b := atTime s now
    let p := getPort s (port / 9) (port % 9)
    (b.stamp < p.windowAt + 1000 → ∃ t, exec (.admissionWindow port now) s = .next t ∧ getPort t (port / 9) (port % 9) = p ∧ t.mem = s.mem ∧ t.units = s.units) ∧
    (p.windowAt + 1000 ≤ b.stamp → ∃ t, exec (.admissionWindow port now) s = .next t ∧ t.mem = s.mem ∧ t.units = s.units ∧
      let r := getPort t (port / 9) (port % 9)
      r.windowAt % 1000 = 0 ∧ r.windowAt ≤ b.stamp ∧ b.stamp < r.windowAt + 1000 ∧ SendsWaiting { p with window := 0 } r))

/-- A module reset boots a slot that passes or recovers, and each firmware command checks its payload, answers its status and changes its
registers. In every state: a reset empties memory (the model's choice, log 1) and units, keeps the stamp, counts a boot and runs a slot that
may be booted and passes, the pending one first, or recovers when none does; what else it keeps and the order of the slots is the model's
choice (log 40), and that an evicted device then probes as well (log 59). The ROM answers nothing; a caller of another major is refused, as
are in recovery all commands but those that take an image. SLOTWR writes a piece of at most 4 KiB of the slot that is not active, which
SLOTACT makes pending if its image passes; CONFIRM in time makes the slot that runs active and raises the counters. Every other command
whose payload is out of range, or (the model's choice, log 75) names a place outside node 0, answers bad payload and changes nothing; with a
good payload it sets exactly its register. That CSETPROG wants the device's own index and no duplicates is the model's choice, as is what
PARTCFG refuses (log 41): it binds its clusters, refused while they hold units or the partition is locked. What PWRSTAT answers behind its
word is PRESUMED (log 88). A request of an unknown code answers status 1 (R9, R358, R410, R417, R418, R428, R436, R437, R439, R440, R442,
R444). -/
def Obligations.FirmwareInterfaceServesAndBoots : Prop :=
  (∀ s : State, ∃ t, exec .moduleReset s = .next t ∧ t.mem = [] ∧ t.units = [] ∧ t.conts = [] ∧ t.harts = [] ∧ t.stamp = s.stamp ∧
    t.agenda = s.agenda ∧ t.boot.boots = s.boot.boots + 1 ∧ t.boot.svn = s.boot.svn ∧ t.group.state = (if s.group.state = 5 then 0 else 6) ∧
    let b := bootReset s.boot
    let passes (k : Nat) : Bool := bootable b k && slotAccepted b.svn (slotImage b k)
    (passes 0 = false → passes 1 = false → t.boot.stage = .recovery) ∧
    (passes 0 = true ∨ passes 1 = true → t.boot.stage = .running ∧ t.boot.booted < 2 ∧ passes t.boot.booted = true ∧
      (t.boot.armed = true ↔ slotWord b t.boot.booted = .pending)) ∧
    ∀ k, pendingSlot b = some k → passes k = true → t.boot.booted = k) ∧
  (∀ s : State, (s.boot.armed = false → exec .watchdogExpire s = .next s) ∧
    (s.boot.armed = true → exec .watchdogExpire s = .next { s with boot := { s.boot with expired := true } })) ∧
  (∀ (major : Nat) (s : State), (s.boot.stage = .rom → exec (.getver major) s = .next s) ∧
    (s.boot.stage ≠ .rom → Replies s (.getver major) 0 [0, 0, 2, 0] { s with boot := { s.boot with refused := major != 2 } })) ∧
  (∀ (n m c : Nat) (bs : List Byte) (x : SlotPiece) (w : Word) (d : Bool) (ns : List Nat) (v : BitVec 32) (s : State),
    let cmds : List Instr := [.confirm d, .wdset n, .mext n bs, .leescfg n m c, .schcfg n m, .enset c w, .capset n ns, .pwrstat w, .qset n, .layset n w,
      .csetprog n ns v, .partcfg n ns]
    (∀ i ∈ [Instr.slotwr x, .slotact] ++ cmds, (s.boot.stage = .rom → exec i s = .next s) ∧
      (s.boot.stage ≠ .rom → s.boot.refused = true → Replies s i 3 [] s)) ∧
    (s.boot.stage = .recovery → ∀ i ∈ cmds, Replies s i 3 [] s)) ∧
  (∀ (code : Nat) (bs : List Byte) (s : State), s.boot.refused = false → code ∉ fwCodes → fwRequest code bs s = { s with boot := { s.boot with reply := (1, []) } }) ∧
  (∀ (x : SlotPiece) (s : State), s.boot.stage ≠ .rom → s.boot.refused = false →
    let k := targetSlot s.boot
    (4096 < x.bytes.length → Replies s (.slotwr x) 2 [] s) ∧
    (x.bytes.length ≤ 4096 → ∃ t, exec (.slotwr x) s = .next t ∧ t.boot.reply = (0, []) ∧ slotImage t.boot k = putPiece (slotImage s.boot k) x ∧
      slotWord t.boot k = .empty ∧ slotImage t.boot (1 - k) = slotImage s.boot (1 - k) ∧ slotWord t.boot (1 - k) = slotWord s.boot (1 - k)) ∧
    (slotAccepted s.boot.svn (slotImage s.boot k) = false → Replies s .slotact 3 [] s) ∧
    (slotAccepted s.boot.svn (slotImage s.boot k) = true → ∃ t, exec .slotact s = .next t ∧ t.boot.reply = (0, []) ∧
      slotWord t.boot k = .pending ∧ slotWord t.boot (1 - k) = slotWord s.boot (1 - k) ∧ t.boot.imageA = s.boot.imageA ∧ t.boot.imageB = s.boot.imageB)) ∧
  (∀ (old bs : List Byte) (off : Nat), putPiece old { off := 0, bytes := bs } = bs ∧ (0 < off → ∀ i, (putPiece old { off := off, bytes := bs })[i]? =
    if i < off then (if i < old.length then old[i]? else some 0) else if i < off + bs.length then bs[i - off]? else old[i]?)) ∧
  (∀ (n m c : Nat) (bs : List Byte) (w : Word) (d : Bool) (ns : List Nat) (v : BitVec 32) (s : State), s.boot.stage = .running → s.boot.refused = false →
    (s.boot.armed = false ∨ s.boot.expired = true ∨ d = true → Replies s (.confirm d) 3 [] s) ∧
    (s.boot.armed = true → s.boot.expired = false → d = false → s.boot.booted < 2 → ∃ t, exec (.confirm d) s = .next t ∧ t.boot.reply = (0, []) ∧
      slotWord t.boot s.boot.booted = .active ∧ slotWord t.boot (1 - s.boot.booted) ≠ .active ∧ t.boot.armed = false ∧
      ∀ k < 3, ∀ img, (slotImages (slotImage s.boot s.boot.booted))[k]? = some img → t.boot.svn[k]? = (s.boot.svn[k]?).map fun x => max x (imageSvn img)) ∧
    (n = 0 ∨ 120 < n → Replies s (.wdset n) 2 [] s) ∧
    (1 ≤ n → n ≤ 120 → Replies s (.wdset n) 0 [] { s with boot := { s.boot with deadline := n } }) ∧
    (n < 4 ∨ 7 < n ∨ bs.length ≠ 64 → Replies s (.mext n bs) 2 [] s) ∧
    (4 ≤ n → n ≤ 7 → bs.length = 64 → ∃ t, exec (.mext n bs) s = .next t ∧ t.boot.reply = (0, []) ∧
      t.boot.mrs[n]? = some (exactly 64 (Config.shake256 ((s.boot.mrs[n]?.getD []) ++ bs))) ∧ ∀ k, k ≠ n → t.boot.mrs[k]? = s.boot.mrs[k]?) ∧
    (rangeInNode0 n (max m c) = false → Replies s (.leescfg n m c) 2 [] s) ∧
    (rangeInNode0 n (max m c) = true →
      Replies s (.leescfg n m c) 0 [] { s with sched := { s.sched with leesBase := n, leesSize := m, leesMax := c, lees := [] } }) ∧
    (rangeInNode0 n m = false → Replies s (.schcfg n m) 2 [] s) ∧
    (rangeInNode0 n m = true → Replies s (.schcfg n m) 0 [] { s with sched := { s.sched with backBase := n, backSize := m } }) ∧
    ((getCont s c).live = false ∨ 1000 < w.toNat / 2 ^ 40 % 2 ^ 16 → Replies s (.enset c w) 2 [] s) ∧
    ((getCont s c).live = true → w.toNat / 2 ^ 40 % 2 ^ 16 ≤ 1000 → ∃ t, exec (.enset c w) s = .next t ∧ t.boot.reply = (0, []) ∧
      (getCont t c).energy = { (getCont s c).energy with pending := some (w &&& 0xFFFFFFFFFFFFFF) } ∧ ∀ k, k ≠ c → getCont t k = getCont s k) ∧
    (8 < ns.length → Replies s (.capset n ns) 2 [] s) ∧
    (ns.length ≤ 8 → Replies s (.capset n ns) 0 [] { s with power := { s.power with pendingCap := some (min n 3200, ns) } }) ∧
    (∃ t, exec (.pwrstat w) s = .next t ∧ t.boot.reply =
        (0, leBytes 8 (powerWord s).toNat ++ leBytes 4 (capWritten s.power) ++ leBytes 4 s.power.breaches) ∧ t.power.breaches = 0 ∧ t.power.ovr = (s.power.ovr && !w.getLsbD 0) ∧
      t.power.blst = (s.power.blst && !w.getLsbD 3) ∧ t.power.flrb = s.power.flrb ∧ ∀ k < 4, t.power.trip.getLsbD k = (s.power.trip.getLsbD k && !w.getLsbD (32 + k))) ∧
    (n ≠ 0 → Replies s (.qset n) 0 [] { s with sched := { s.sched with quantum := n } }) ∧
    (n < 3 ∨ 7 < n → Replies s (.layset n w) 2 [] s) ∧
    (3 ≤ n → n ≤ 7 → ∃ t, exec (.layset n w) s = .next t ∧ t.boot.reply = (0, []) ∧ tabGet t.sched.layouts n = some w ∧
      ∀ k, k ≠ n → tabGet t.sched.layouts k = tabGet s.sched.layouts k) ∧
    (63 < n ∨ ns.length < 2 ∨ 512 < ns.length ∨ ¬ ns.Nodup ∨ s.group.index ∉ ns → Replies s (.csetprog n ns v) 2 [] s) ∧
    (n ≤ 63 → 2 ≤ ns.length → ns.length ≤ 512 → ns.Nodup → s.group.index ∈ ns → ∃ t, exec (.csetprog n ns v) s = .next t ∧ t.boot.reply = (0, []) ∧
      tabGet t.sched.colsets n = some { ranks := ns, stamp := v } ∧ ∀ k, k ≠ n → tabGet t.sched.colsets k = tabGet s.sched.colsets k) ∧
    (let good := n ≤ 7 ∧ (∀ k ∈ ns, k < 192) ∧ ns.Nodup ∧ ∀ k ∈ ns, ∀ p, (getCluster s k).partition = some p → p = n
     let free := (∀ p, tabGet s.boot.parts n = some p → p.tdisp = .unlocked) ∧ ∀ k ∈ ns ++ partClusters s n, clusterHolds s k = false
     (¬ good → Replies s (.partcfg n ns) 2 [] s) ∧ (good → ¬ free → Replies s (.partcfg n ns) 3 [] s) ∧
     (good → free → ∃ t, exec (.partcfg n ns) s = .next t ∧ t.boot.reply = (0, []) ∧ t.mem = s.mem ∧ t.units = s.units ∧
      tabGet t.boot.parts n = some { clusters := ns, tdisp := .unlocked, session := false, root := none } ∧
      ∀ k, (getCluster t k).partition = if k ∈ ns then some n else if k ∈ partClusters s n then none else (getCluster s k).partition)))

/-- SPDM answers over each way (in the model's order, log 13), measurements come from their registers, and an interface locks, runs, is lost and
is unlocked zeroed. In every state: no request is answered before the vintner runs. The rest of what SPDM does is the model's choice (log
13), over each way by itself: a request that comes before the opening requests of its way is answered with an error of SPDM and changes
nothing else, GET_VERSION gives the entry of version 1.3, KEY_EXCHANGE and FINISH open a session of a partition or none, and END_SESSION
ends the newest of its way. A measurement block n + 1 carries MRn. TDISP_LOCK takes an unlocked interface to locked and extends MR8 + i,
TDISP_RUN a locked one to run, other states staying. An interface that leaves RUN, or whose session ends, is in ERROR with no session, its
live continuations terminated with status 7. TDISP_UNLOCK leaves it unlocked, its cores' scratchpads and accumulators zero, no unit of its
continuations with a saved state (R438, R443, R444, R445, R446). -/
def Obligations.AttestationAndInterfacesAct : Prop :=
  (∀ (via : SpdmVia) (block : Nat) (part : Option Nat) (s : State),
    let late := [Instr.getDigests via, .getCertificate via, .challenge via, .getMeasurements via block, .keyExchange via part, .finish via, .endSession via]
    (s.boot.stage ≠ .running → ∀ i ∈ [Instr.getVersion via, .getCapabilities via, .negotiateAlgorithms via] ++ late, exec i s = .next s) ∧
    let w := wayOf s.boot via
    (s.boot.stage = .running →
      (w.asked < 1 → AnswersSpdm s (.getCapabilities via) 10 [] s) ∧ (w.asked < 2 → AnswersSpdm s (.negotiateAlgorithms via) 10 [] s) ∧
      (w.asked < 3 → ∀ i ∈ late, AnswersSpdm s i 10 [] s) ∧
      AnswersSpdm s (.getVersion via) 0 [0x00, 0x13] (modWay s via fun w => { w with asked := 1 }) ∧
      (1 ≤ w.asked → AnswersSpdm s (.getCapabilities via) 1 [] (modWay s via fun w => { w with asked := 2 })) ∧
      (2 ≤ w.asked → AnswersSpdm s (.negotiateAlgorithms via) 2 [] (modWay s via fun w => { w with asked := 3 })) ∧
      (3 ≤ w.asked →
        AnswersSpdm s (.getDigests via) 3 [] s ∧ AnswersSpdm s (.getCertificate via) 4 [] s ∧ AnswersSpdm s (.challenge via) 5 [] s ∧
        (∀ n < 16, AnswersSpdm s (.getMeasurements via (n + 1)) 6 (s.boot.mrs[n]?.getD []) s) ∧
        AnswersSpdm s (.keyExchange via part) 7 [] (modWay s via fun w => { w with handshake := some part }) ∧
        (w.handshake = none → AnswersSpdm s (.finish via) 10 [] s) ∧
        (∀ p, w.handshake = some p → ∃ t, exec (.finish via) s = .next t ∧ wayOf t.boot via = { w with handshake := none, sessions := p :: w.sessions } ∧
          (∀ v, v ≠ via → wayOf t.boot v = wayOf s.boot v) ∧ t.boot.reply.1 = 0 ∧ t.mem = s.mem ∧ t.units = s.units ∧
          ∀ k x, p = some k → tabGet s.boot.parts k = some x → tabGet t.boot.parts k = some { x with session := true }) ∧
        (w.sessions = [] → AnswersSpdm s (.endSession via) 10 [] s) ∧
        (∀ r, w.sessions = none :: r → AnswersSpdm s (.endSession via) 9 [] (modWay s via fun w => { w with sessions := r })) ∧
        (∀ k r x, w.sessions = some k :: r → tabGet s.boot.parts k = some x → x.session = true → ∃ t, exec (.endSession via) s = .next t ∧
          tabGet t.boot.parts k = some { x with tdisp := .error, session := false } ∧ (wayOf t.boot via).sessions = r.filter (· != some k))))) ∧
  (∀ (part : Nat) (s : State), tabGet s.boot.parts part = none →
    ∀ i ∈ [Instr.tdispLock part, .tdispRun part, .tdispLeaveRun part, .spdmSessionExpire part, .tdispUnlock part], exec i s = .next s) ∧
  (∀ (part : Nat) (s : State) (p : Partition), tabGet s.boot.parts part = some p →
    (p.tdisp ≠ .unlocked → exec (.tdispLock part) s = .next s) ∧ (p.tdisp ≠ .locked → exec (.tdispRun part) s = .next s) ∧
    (p.tdisp ≠ .run → exec (.tdispLeaveRun part) s = .next s) ∧ (p.session = false → exec (.spdmSessionExpire part) s = .next s) ∧
    (p.tdisp = .unlocked → exec (.tdispUnlock part) s = .next s) ∧
    (p.tdisp = .unlocked → part < 8 → ∃ t, exec (.tdispLock part) s = .next t ∧ tabGet t.boot.parts part = some { p with tdisp := .locked } ∧
      t.boot.mrs[8 + part]? = some (exactly 64 (Config.shake256 ((s.boot.mrs[8 + part]?.getD []) ++ exactly 64 (Config.interfaceConfig part p.clusters)))) ∧
      (∀ k, k ≠ 8 + part → t.boot.mrs[k]? = s.boot.mrs[k]?) ∧ t.mem = s.mem ∧ t.units = s.units) ∧
    (p.tdisp = .locked → ∃ t, exec (.tdispRun part) s = .next t ∧ tabGet t.boot.parts part = some { p with tdisp := .run } ∧ t.mem = s.mem ∧ t.units = s.units) ∧
    (∀ i, (p.tdisp = .run ∧ i = Instr.tdispLeaveRun part) ∨ (p.session = true ∧ i = .spdmSessionExpire part) → (s.conts.map Prod.fst).Nodup → ∃ t, exec i s = .next t ∧
      tabGet t.boot.parts part = some { p with tdisp := .error, session := false } ∧
      ∀ c, (getCont s c).live = true → (getCont s c).partition = some part → (getCont s c).terminated = none → (getCont t c).terminated = some 7) ∧
    (p.tdisp ≠ .unlocked → s.MemOk → ∃ t, exec (.tdispUnlock part) s = .next t ∧ (∃ x : Partition, tabGet t.boot.parts part = some { x with tdisp := .unlocked }) ∧
      (∀ uid, (getCont t (getUnit t uid).ident.key.cont).partition = some part → (getUnit t uid).saved = none) ∧
      (∀ cl ∈ p.clusters, ∀ k < 4, (getCore t (4 * cl + k)).rows = [] ∧ ∀ o < 0x180000, memGet t.mem (0x1000000 * (4 * cl + k) + o) = memDefault) ∧
      (p.tdisp ≠ .run → ∀ a, (∀ cl ∈ p.clusters, ∀ k < 4, a < 0x1000000 * (4 * cl + k) ∨ 0x1000000 * (4 * cl + k) + 0x180000 ≤ a) →
        memGet t.mem a = memGet s.mem a)))

/-- The end of a cycle advances the clock, counts results down, and lands those due, the one issued last on top. For every sequencer with no
vector store due and no due result that carries a push: ending a cycle adds 1 to its clock, takes 1 from the count of every result in
flight, and lands those whose count is over. A register, predicate or handle that no due result names stays; one that some name takes the
value of the one with the greatest ORD; s0, s60 and p0 never change. The flags of the results due are joined into AFLAGS. With no row due
memory, cores, continuations, the other sequencers and the other units stay as they are. A row that alone is due and races with nothing
lands with its tag, merged by its mask (R98, R122, R123, R125, R126, R134). -/
def Obligations.CyclesLandWhatIsDue : Prop :=
  ∀ (s : State) (uid : Nat) (q : Seq),
    let c := getSeq s uid q
    let due := c.fl.running.filter fun e => e.rem ≤ 2
    let t := tick s uid q
    let d := getSeq t uid q
    let last (e : Landing) : Prop := ∀ f ∈ due, f.kind = e.kind → f.dst = e.dst → f = e ∨ f.ord.toNat < e.ord.toNat
    (∀ o ∈ c.fl.stores, o.due ≠ 1) → (∀ e ∈ due, e.push = none) →
    ((∀ e ∈ due, e.kind ≠ .row) →
      t.mem = s.mem ∧ t.cores = s.cores ∧ t.conts = s.conts ∧ t.order = s.order ∧ (∀ v, v ≠ uid → getUnit t v = getUnit s v) ∧
      (∀ r, r ≠ q → getSeq t uid r = getSeq s uid r) ∧ d.vc = c.vc + 1 ∧ d.pc = c.pc ∧ d.tr = c.tr ∧ d.status = c.status ∧ d.fl.pushes = c.fl.pushes ∧
      d.fl.running = (c.fl.running.filter fun e => 2 < e.rem).map (fun e => { e with rem := e.rem - 1 }) ∧
      (∀ k, (getUnit t uid).aflags.getLsbD k = ((getUnit s uid).aflags.getLsbD k || due.any fun e => e.flg.getLsbD k)) ∧
      (∀ n, (n = 0 ∨ n = 60 ∨ ∀ e ∈ due, e.kind = .scalar → e.dst ≠ n) → d.regs[n]? = c.regs[n]?) ∧
      (∀ e ∈ due, last e → e.kind = .scalar → e.dst ≠ 0 → e.dst ≠ 60 → e.dst < 64 → d.regs[e.dst]? = some (e.payload.setWidth 64)) ∧
      (∀ n, (n = 0 ∨ ∀ e ∈ due, e.kind = .pred → e.dst ≠ n) → d.preds[n]? = c.preds[n]?) ∧
      (∀ e ∈ due, last e → e.kind = .pred → e.dst ≠ 0 → e.dst < 12 → d.preds[e.dst]? = some (e.payload.setWidth 1024)) ∧
      (∀ n, (∀ e ∈ due, e.kind = .handle → e.dst ≠ n) → d.handles[n]? = c.handles[n]?) ∧
      (∀ e ∈ due, last e → e.kind = .handle → e.dst < 16 → d.handles[e.dst]? = some (e.payload.setWidth 256))) ∧
    ∀ e g r, due = [e] → e.kind = .row → rowGroup (getUnit s uid) e.dst = some g →
      checkMark (seqAgent (getUnit s uid) uid q) e.region (getUnit s uid).ident.key.cont (getUnit s uid).ident.key.job accVa true false
        [(.acc uid e.dst 0, 256)] s = .ok r →
      d.vc = c.vc + 1 ∧ t.mem = s.mem ∧ rowTag (getUnit t uid) e.dst = e.tag ∧
      getRow t uid e.dst = match e.mask with
        | none => e.payload
        | some m => (e.payload &&& maskBits e.tag m) ||| (getRow s uid e.dst &&& ~~~(maskBits e.tag m))

/-- Scalar, branch, predicate, handle, queue, fence, atomic, cask and settings words and scalar stores leave alone whatever they do not name.
For every next state of one of the words listed in the clauses, where its handler can be entered and no pour is under way, whether it
issues, freezes or traps. Every scalar register but rd (s62 of CALL), predicate but pd and handle but hd stays, unless a result in flight
lands on it; every byte of memory stays but those of the sequencer's own waiting stores and, for ST, HST and the atomics that write, those
of the address (collected, of the open stages), for CKDROP, CKSEAL and CKOPEN of a larger pool, those of the pool; flags are only gained,
and none with nothing flagged in flight and raw queue formats; the trap registers stay or are those of the entry; settings, identity,
window, other sequencers, other units, continuations and harts stay. Of these words only HALT, TKCFG, QSEL, QFMT, MTS and DBGPEND may change
settings and trap registers of their sequencer, and of these QFMT and MTS the flags. The words of exceptions and debug (TRAP, RETT, BKPT,
SEV, WFE, WAITV), of the scheduler but GCNT and the remaining cask words are in no clause: other statements say their next states (R97,
R122, R123, R125, R126, R129, R143, R144, R146, R148, R149, R152). -/
def Obligations.ScalarWordsFrame : Prop :=
  ∀ (d a b : BitVec 6) (i : BitVec 10) (k : BitVec 19) (o : BitVec 11) (z tk : BitVec 2) (w : BitVec 15) (j : BitVec 25) (h g n : BitVec 4)
    (y : BitVec 3) (m : BitVec 8) (d5 a5 b5 : BitVec 5) (z1 : BitVec 1),
    (∀ x ∈ scalarWords d a b i k o z tk, FrameOf x fun _ => { regs := [d.toNat] }) ∧
    (∀ x ∈ branchWords a w j tk, FrameOf x fun _ => {}) ∧
    (∀ x ∈ predicateWords d a b tk, FrameOf x fun _ => { preds := [d.toNat] }) ∧
    (∀ x ∈ handleWords h g n a tk, FrameOf x fun _ => { handles := [h.toNat] }) ∧
    (∀ x ∈ [Instr.hgetb h a tk, .hgetd h n a tk, .hchk h a tk], FrameOf x fun _ => { regs := [a.toNat] }) ∧
    FrameOf (.call j tk) (fun _ => { regs := [62] }) ∧
    (∀ x ∈ [Instr.jr d a i tk, .callr d a i tk], FrameOf x fun _ => { regs := [d.toNat] }) ∧
    FrameOf (.st d a o z tk) (fun s => { bytes := stBytes d a o z tk s, rows := true }) ∧
    FrameOf (.hst h a tk) (fun s => { bytes := hstBytes h a tk s, rows := true }) ∧
    (∀ x ∈ [Instr.tkpush a tk, .tkpop a tk, .qsquash a tk, .bqpush a tk, .qwait a tk, .fence n y tk, .fencee n y m tk, .ssync tk, .cbar tk, .pace d a tk,
      .plse tk, .ill d a b tk], FrameOf x fun _ => {}) ∧
    (∀ x ∈ [Instr.epop d a tk, .gcnt d a b tk, .pstat d tk, .ckinfo h n d tk], FrameOf x fun _ => { regs := [d.toNat] }) ∧
    (∀ x ∈ [Instr.halt tk, .tkcfg a tk, .qsel a tk], FrameOf x fun _ => { sets := true }) ∧
    FrameOf (.dbgpend d a tk) (fun _ => { regs := [d.toNat], sets := true }) ∧
    (∀ x ∈ [Instr.qfmt d a tk, .mts d a tk], FrameOf x fun _ => { flags := true, sets := true }) ∧
    (∀ f ∈ atomicForms d5 a5 b5 y n z1, FrameOf f.instr fun s => { regs := [f.d.toNat], bytes := atomBytes f a5 s, rows := f.fn != 0 }) ∧
    FrameOf (.ckdrop h tk) (fun s => { bytes := ckdropBytes h tk s, rows := true }) ∧
    FrameOf (.ckseal h g tk) (fun s => { handles := [h.toNat], bytes := cksealBytes tk s, rows := true }) ∧
    FrameOf (.ckopenGrow h g tk) (fun s => { handles := [h.toNat], bytes := ckgrowBytes h g tk s, rows := true })

/-- Vector words and engine commands leave alone whatever they do not name. For every next state of a word of X's vector families or of a
command word to the copy, gather, row, press or collective engine, where its handler can be entered and no pour is under way. No such word
writes a handle; only VEXT writes a scalar register, only compares, VCPOP and VCFLUSH (their predicate) and LOOPX and LOOPE (p8 to p11)
write predicates, and only VWIN, VROT, LOOPX, LOOPE, VCMPCT, VCPOP and VCFLUSH change X's window, loop and compaction state. The window,
loop and tag words and the commands set no flag. A copy or gather command's only effect on other units is on the swizzle tags of their
partitions. Every byte of memory stays but those of the sequencer's own waiting stores, for VST and VSTS those of the row's image in the
partition named, and, for a command that gives a whole region another swizzle code, those of that region, whose words stand in other banks
from then on; trap registers, settings, identity, other sequencers, other units, continuations and harts stay as for scalar words (R98,
R126, R129, R164, R166, R168, R187, R190, R204, R210, R219, R227). -/
def Obligations.VectorAndEngineWordsFrame : Prop :=
  ∀ (d a b : BitVec 5) (p : BitVec 4) (tk : BitVec 2) (h : BitVec 4) (hp : BitVec 3) (x y : BitVec 6) (l : BitVec 1) (m : BitVec 2) (g : BitVec 3)
    (i8 : BitVec 8) (t6 : BitVec 6),
    (∀ w ∈ vectorBinary, FrameOf (w.form d a b p tk) fun _ => { flags := true, rows := true }) ∧
    (∀ w ∈ vectorUnary, FrameOf (w.form d a p tk) fun _ => { flags := true, rows := true }) ∧
    (∀ w ∈ vectorReductions, FrameOf (w.form d a p tk) fun _ => { flags := true, rows := true }) ∧
    (∀ i ∈ [Instr.vfma d a b p tk, .vfms d a b p tk, .vsel d a b p tk], FrameOf i fun _ => { flags := true, rows := true }) ∧
    (∀ i ∈ [Instr.vcmpeq d a b p tk, .vcmplt d a b p tk, .vcmple d a b p tk], FrameOf i fun _ => { preds := [d.toNat], flags := true, rows := true }) ∧
    (∀ i ∈ [Instr.ctld h x y l tk, .ctst h x y l tk, .ccpy hp x y l tk, .cfill h x y l tk, .cpfx h x y l tk, .cxfr x y l tk, .gath h x y tk,
      .scat h x y tk, .gathp h x y tk, .scata h x y tk], FrameOf i fun s => { bytes := retagBytes i x y tk s, rows := true, tags := true }) ∧
    (∀ i ∈ [Instr.vcvt d a b p tk, .vcvtr d a m g p tk, .vqmx d a b p tk, .vdqmx d a b p tk, .vperm d a b p tk, .vshuf d a b p tk, .vslide d a b p tk,
      .vbcst d a b p tk, .vins d a b tk, .vdot d a b p tk, .vscan d a p tk, .vld d x i8 tk, .vldt d x p tk, .vldg d x y tk, .vldb d x p tk, .vlds d x p tk],
      FrameOf i fun _ => { flags := true, rows := true }) ∧
    FrameOf (.vext d a b tk) (fun _ => { regs := [d.toNat], flags := true, rows := true }) ∧
    FrameOf (.vcmpct a p tk) (fun _ => { flags := true, rows := true, xs := true }) ∧
    (∀ i ∈ [Instr.vcpop d p tk, .vcflush d p tk], FrameOf i fun _ => { preds := [p.toNat], flags := true, rows := true, xs := true }) ∧
    (∀ i ∈ [Instr.vwin x tk, .vrot i8 tk], FrameOf i fun _ => { xs := true }) ∧
    (∀ i ∈ [Instr.loopx x i8 tk, .loope tk], FrameOf i fun _ => { preds := [8, 9, 10, 11], xs := true }) ∧
    (∀ i ∈ [Instr.vtag d t6 tk, .vtagr d x tk], FrameOf i fun _ => { rows := true }) ∧
    FrameOf (.vst d x i8 tk) (fun s => { bytes := vstBytes (.vst d x i8 tk) .vst x i8.toNat tk s, flags := true, rows := true }) ∧
    FrameOf (.vsts d x p tk) (fun s => { bytes := vstBytes (.vsts d x p tk) .vsts x p.toNat tk s, flags := true, rows := true }) ∧
    (∀ i ∈ [Instr.rwsmx g h x y l tk, .rwmax g h x y l tk, .rwexps g h x y l tk, .rwscl g h x y l tk, .rwrms g h x y l tk, .rwlnrm g h x y l tk,
      .xallr h x y tk, .xrds h x y tk, .xallg h x y tk, .xsend h x y tk, .xrecv h x y tk, .xexch h x y tk, .pwld h x tk, .pmul h x y tk, .pmulz h x y tk,
      .pdrn g h x tk, .prel tk], FrameOf i fun _ => { rows := true })

/-- A step runs the instruction that the bytes at the pc decode to, a host form's word, or an event, and else a move of the machine's own. Once
the module is out of reset. A sequencer's turn, when it may issue and no fault waits, executes the instruction that the word at its pc
decodes to, as the sequencer that acts; the word is the little-endian value of the four bytes at its code address; a word that decodes to
nothing raises the illegal-instruction trap with the word in TVAL; a fault that waits is raised instead, and a pc that is misaligned or
outside the stream raises the illegal-instruction trap with the pc in TVAL. Where the sequencer's bandwidth is spent the word waits for the
period instead, and a word charges the bytes of its fetch in the turn in which it first comes up, not again while it stands frozen. A hart's
turn executes the host form of its word, and an event's turn the event, when the hart, cores, clusters and dies that it names exist. With an
empty agenda the step is one of the machine's moves, or nothing when it has none. Where no launch stopped in the turn, no launch of class 0
became ready and no core lost the launch that issued on it, the turn is followed by the evaluation of the WAIT nodes whose counters it wrote
or that are ready, by the end of the presses' leases that are over and by the group version that is due, and by nothing else. Pushes that
wait at retirement come before a trap of the word. The model's choice, not a rule of the spec: the agenda and the moves between its turns
(log 2), the moment of the evaluation of nodes and leases after a turn (log 32), the charge of a fetch and the wait for it (log 86), and the
version that takes effect by its stamp (log 59); what may act in one turn is log 65 (R62, R81, R85, R151). -/
def Obligations.StepRunsTheDecodedInstruction : Prop :=
  ∀ (s : State) (r : List Turn), s.boot.stage = .running →
    let t := { s with agenda := r }
    (∀ uid q, s.agenda = .issue uid q :: r → canIssue t uid q = true →
      (∀ f, dueFault (getSeq t uid q) = some f → step s = turnThen s (.next (boundaryFault t uid q f))) ∧
      (dueFault (getSeq t uid q) = none → (getSeq t uid q).pc.toNat % 4 ≠ 0 ∨ (getSeq t uid q).streamSize ≤ (getSeq t uid q).pc.toNat →
        step s = turnThen s (afterPushes t uid q fun z => .next (takeTrap z uid q 1 (getSeq t uid q).pc 0 false none))) ∧
      (dueFault (getSeq t uid q) = none → ∀ ps, let c := getSeq t uid q
        c.pc.toNat % 4 = 0 → c.pc.toNat < c.streamSize → locateN t uid (c.streamBase + c.pc) .fetch 4 = .ok ps →
        let w := BitVec.ofNat 32 (ofBytes (ps.map (placeGet t)))
        match seqBudget t uid q ps with
        | some (k, n) => step s = turnThen s (afterPushes t uid q fun z => .next (setFrozen z uid q (.budget k n)))
        | none =>
          (∀ i, decode q w = some i → step s = turnThen s (fetched t uid q ps (exec i (actAs t uid q)))) ∧
          (decode q w = none →
            step s = turnThen s (fetched t uid q ps (afterPushes t uid q fun z => .next (takeTrap z uid q 1 (w.setWidth 64) w false none)))))) ∧
    (∀ uid q ps z, (getSeq t uid q).fl.frozen = none →
      fetched t uid q ps (.next z) = .next (meterPlaces z (seqAgent (getUnit t uid) uid q) ps)) ∧
    (∀ uid q k, (getSeq t uid q).fl.pushes = [] → afterPushes t uid q k = k t) ∧
    (∀ hart w f, s.agenda = .hostWord hart w :: r → hart < 128 → decodeHostForm w = some f →
      step s = turnThen s (exec f.toInstr { t with cur := { t.cur with hart := hart } })) ∧
    (∀ e, s.agenda = .event e :: r → e.fieldsLegal = true → step s = turnThen s (exec e t)) ∧
    (s.agenda = [] → moves s = [] → step s = turnThen s (.next s)) ∧
    (s.agenda = [] → moves s ≠ [] → ∃ m ∈ moves s, step s = turnThen s (runMove { s with free := s.free + 1 } m)) ∧
    (∀ u, turnThen s (.next u) = .next (afterTurn s u)) ∧
    (∀ u, stoppedLaunches s u = [] → dueNodes s u = [] → (readyKeys u).filter (fun k => topReady u k && !((readyKeys s).contains k)) = [] →
      idleCores u = [] → afterTurn s u = settleVersion ((unitClusters u).foldl settleLease u)) ∧
    (∀ u k, stoppedLaunches s u = [] → waitingNodes u = [k] → dueNodes s u = [k] → let v := evaluateNode u k
      (readyKeys v).filter (fun k => topReady v k && !((readyKeys s).contains k)) = [] →
      idleCores v = [] → afterTurn s u = settleVersion ((unitClusters v).foldl settleLease v))

/-- Words written out from the manual's formats decode to their instructions, and reserved ones to none. One word of each family, written field
by field from its format, decodes in a sequencer that takes it to the instruction it stands for; a word with a set reserved bit, of a code
outside its table or of an unused major decodes to none, and a word whose row does not list the sequencer decodes to none there (R62, R64,
R66, R68). -/
def Obligations.WordsOfTheManualDecode : Prop :=
  (∀ x ∈ ([
    (.c, 0x00100000, .nop 0), (.c, 0x00524000, .mfs 9 0 0), (.c, 0x10A00FF5, .addi 5 0 0x3FD 1), (.c, 0x20A0800C, .ld 5 1 0 3 0),
    (.c, 0x20620028, .ld 3 4 2 2 0), (.c, 0x30A20009, .st 5 4 0 2 1), (.c, 0x388FFFF4, .bnez 7 0x7FFD 0), (.c, 0x501F0000, .jr 0 62 0 0),
    (.l, 0x58500028, .qsquash 10 0), (.c, 0x61100A0C, .hsetb 2 2 5 0), (.l, 0x68210589, .ccpy 1 4 5 1 1), (.l, 0x68310501, .ctld 3 4 5 0 1),
    (.c, 0x70C8544C, .aadd 3 4 5 2 6 0), (.c, 0x781B0000, .fence 3 3 0), (.c, 0x7A311014, .waitv 6 1 4 5 0), (.c, 0x82200004, .ckseal 4 4 0),
    (.c, 0x8811C910, .gwait 7 9 4 0), (.c, 0x90008710, .pset 2 7 4 0), (.x, 0x98060304, .loopx 6 3 0), (.l, 0xA7860608, .vldt 30 6 6 0),
    (.c, 0xAB21C014, .pdrn 3 2 7 0), (.c, 0xB1010080, .rwsmx 1 0 4 0 1 0), (.x, 0xC0443302, .vadd 1 2 3 3 2), (.x, 0xC9C60014, .vexp 7 3 0 0),
    (.x, 0xD082A000, .vcvt 2 1 10 0 0), (.x, 0xD8C40004, .vrmax 3 2 0 0)] : List (Seq × IWord × Instr)), decode x.1 x.2.1 = some x.2.2) ∧
  decodeHostForm 0x02C5950B = some (.cstart 12 11 1 10) ∧ decodeHostForm 0x02C5800B = some (.cstart 12 11 0 0) ∧
  (∀ q, ∀ w ∈ [0x70C854AC#32, 0x70C85D4D, 0x69210589, 0x785B0000, 0xFFFFFFFF], decode q w = none) ∧
  decode .s 0x70C8544C = none ∧ decode .c 0x58500028 = none ∧ decode .x 0x781B0000 = none

/-- After a module reset the vintner is in its ROM, nothing exists, memory is in its canonical form, and each part holds its reset value, or the
model's. At reset: the vintner runs from the ROM; no unit, continuation or translation exists; memory lists nothing and meets the invariant
of the last statement but one; all sixteen measurement registers are 64 zero bytes; each die's fault ring is off with sequence number 0;
each press holds zero cells, no owner, and PTR and RUN 0; each hart's cpsel is its own number; a step with nothing given does nothing. A
unit starts with clock 0, predicates but p0 false, handles 0, empty landing banks, token slots without peers, raw formats, dqout aimed at C
(at L from C), no event, and debug off. That memory lists nothing and reads 0 is the model's choice (log 1), and so are the zeros of s0 to
s63 of a unit that starts, the empty translations and the empty cores (log 4): no cited rule states those clauses (R9, R124, R174, R239,
R322, R395, R396, R436, R438). -/
def Obligations.ResetLeavesTheMachine : Prop :=
  State.reset.MemOk ∧ State.reset.mem = [] ∧ State.reset.boot.stage = .rom ∧ State.reset.units = [] ∧ State.reset.conts = [] ∧
  step State.reset = .next State.reset ∧
  (∀ k < 16, State.reset.boot.mrs[k]? = some (List.replicate 64 0)) ∧
  (∀ d < 4, (getDie State.reset d).tlb = [] ∧ (getDie State.reset d).faults = [] ∧ (getDie State.reset d).ring.cfg = 0 ∧ (getDie State.reset d).ring.seq = 0) ∧
  (∀ cl, let p := (getCluster State.reset cl).press
    p.cells = [] ∧ p.owner = none ∧ p.holder = none ∧ p.ptr = 0 ∧ p.run = 0 ∧ p.cur = none) ∧
  (∀ core, (getCore State.reset core).issuing = none ∧ ∀ k < 8, (getCore State.reset core).slots[k]? = some none) ∧
  (∀ hart, (getHart State.reset hart).cpsel = BitVec.ofNat 64 hart ∧ (getHart State.reset hart).port.cont = 0xFFFFFFFF) ∧
  ∀ q, let c := SeqState.init q
    c.vc = 0 ∧ (∀ n, 1 ≤ n → n < 12 → c.preds[n]? = some 0) ∧ c.preds[0]? = some (BitVec.allOnes 1024) ∧ (∀ n < 16, c.handles[n]? = some 0) ∧
    (∀ n < 64, c.regs[n]? = some 0) ∧ c.fl.running = [] ∧ c.fl.held = [] ∧ c.dq.dqin = [] ∧ c.dq.dqout = [] ∧
    (∀ k < 3, c.slots[k]? = some { push := none, pop := none }) ∧ c.dq.src = 0 ∧ c.dq.snk = 0 ∧ c.dq.target = (if q = .c then .l else .c) ∧
    c.event = false ∧ c.dbg = 0 ∧ c.tr.tstat = 0

/-- Decoding the word of an instruction gives it back. For every instruction that has a word: in every sequencer that its row lists, with its
fields as its row allows, decoding its word gives the instruction, with every operand; a well-formed host form is what its word decodes to
(R62, R64, R65, R71, R81, R85, R86). -/
def Obligations.DecodingUndoesEncoding : Prop :=
  ∀ (i : Instr) (w : IWord), encode i = some w →
    (i.isHost = false → ∀ q, i.legalIn q = true → decode q w = some i) ∧ (i.isHost = true → i.wellFormed = true → decodeHost w = some i)

/-- Every step keeps memory in its canonical form. From every state whose memory lists rising addresses and nothing that reads as unlisted,
whatever the step runs, the memory of the next state has that form, so that equal memories are equal lists. The form is the model's
representation; reset has it by an own statement (R90, R146, R147). -/
def Obligations.StepKeepsMemoryForm : Prop := ∀ s t : State, s.MemOk → step s = .next t → t.MemOk

/-- Encoding what a word decodes to gives the word back. For every word and sequencer: if the word decodes to an instruction, that instruction's
encoding is the word, so that no bit of a word is dropped and no two words mean one instruction; the same of host forms (R62, R64, R65, R68,
R71, R81, R85). -/
def Obligations.EncodingUndoesDecoding : Prop :=
  (∀ (q : Seq) (w : IWord) (i : Instr), decode q w = some i → encode i = some w) ∧
  (∀ (w : IWord) (f : HostForm), decodeHostForm w = some f → encode f.toInstr = some w)
end

