-- ==== Sys2Proof/Laws/Dispatch.lean ====
section
/-!
SUPPORT. Every arm of the dispatch as an equation, so that no proof unfolds the whole of it.
-/

namespace Sys2Proof.Machine

open Sys2Proof

@[simp] theorem exec_ill (d : BitVec 6) (a : BitVec 6) (im : BitVec 6) (t : BitVec 2) (s : State) : exec (.ill d a im t) s = execIll d a im t s := rfl

@[simp] theorem exec_nop (t : BitVec 2) (s : State) : exec (.nop t) s = execNop t s := rfl

@[simp] theorem exec_halt (t : BitVec 2) (s : State) : exec (.halt t) s = execHalt t s := rfl

@[simp] theorem exec_trap (im : BitVec 6) (t : BitVec 2) (s : State) : exec (.trap im t) s = execTrap im t s := rfl

@[simp] theorem exec_rett (t : BitVec 2) (s : State) : exec (.rett t) s = execRett t s := rfl

@[simp] theorem exec_mfs (d : BitVec 6) (im : BitVec 6) (t : BitVec 2) (s : State) : exec (.mfs d im t) s = execMfs d im t s := rfl

@[simp] theorem exec_mts (a : BitVec 6) (im : BitVec 6) (t : BitVec 2) (s : State) : exec (.mts a im t) s = execMts a im t s := rfl

@[simp] theorem exec_vcyc (d : BitVec 6) (t : BitVec 2) (s : State) : exec (.vcyc d t) s = execVcyc d t s := rfl

@[simp] theorem exec_dbgpend (d : BitVec 6) (im : BitVec 6) (t : BitVec 2) (s : State) : exec (.dbgpend d im t) s = execDbgpend d im t s := rfl

@[simp] theorem exec_bkpt (im : BitVec 6) (t : BitVec 2) (s : State) : exec (.bkpt im t) s = execBkpt im t s := rfl

@[simp] theorem exec_wfe (t : BitVec 2) (s : State) : exec (.wfe t) s = execWfe t s := rfl

@[simp] theorem exec_sev (im : BitVec 6) (t : BitVec 2) (s : State) : exec (.sev im t) s = execSev im t s := rfl

@[simp] theorem exec_tkcfg (im : BitVec 6) (t : BitVec 2) (s : State) : exec (.tkcfg im t) s = execTkcfg im t s := rfl

@[simp] theorem exec_ident (d : BitVec 6) (im : BitVec 6) (t : BitVec 2) (s : State) : exec (.ident d im t) s = execIdent d im t s := rfl

@[simp] theorem exec_pace (a : BitVec 6) (im : BitVec 6) (t : BitVec 2) (s : State) : exec (.pace a im t) s = execPace a im t s := rfl

@[simp] theorem exec_enrd (d : BitVec 6) (im : BitVec 6) (t : BitVec 2) (s : State) : exec (.enrd d im t) s = execEnrd d im t s := rfl

@[simp] theorem exec_gceil (d : BitVec 6) (t : BitVec 2) (s : State) : exec (.gceil d t) s = execGceil d t s := rfl

@[simp] theorem exec_add (d : BitVec 6) (a : BitVec 6) (b : BitVec 6) (t : BitVec 2) (s : State) : exec (.add d a b t) s = execAdd d a b t s := rfl

@[simp] theorem exec_sub (d : BitVec 6) (a : BitVec 6) (b : BitVec 6) (t : BitVec 2) (s : State) : exec (.sub d a b t) s = execSub d a b t s := rfl

@[simp] theorem exec_and (d : BitVec 6) (a : BitVec 6) (b : BitVec 6) (t : BitVec 2) (s : State) : exec (.and d a b t) s = execAnd d a b t s := rfl

@[simp] theorem exec_or (d : BitVec 6) (a : BitVec 6) (b : BitVec 6) (t : BitVec 2) (s : State) : exec (.or d a b t) s = execOr d a b t s := rfl

@[simp] theorem exec_xor (d : BitVec 6) (a : BitVec 6) (b : BitVec 6) (t : BitVec 2) (s : State) : exec (.xor d a b t) s = execXor d a b t s := rfl

@[simp] theorem exec_andn (d : BitVec 6) (a : BitVec 6) (b : BitVec 6) (t : BitVec 2) (s : State) : exec (.andn d a b t) s = execAndn d a b t s := rfl

@[simp] theorem exec_sll (d : BitVec 6) (a : BitVec 6) (b : BitVec 6) (t : BitVec 2) (s : State) : exec (.sll d a b t) s = execSll d a b t s := rfl

@[simp] theorem exec_srl (d : BitVec 6) (a : BitVec 6) (b : BitVec 6) (t : BitVec 2) (s : State) : exec (.srl d a b t) s = execSrl d a b t s := rfl

@[simp] theorem exec_sra (d : BitVec 6) (a : BitVec 6) (b : BitVec 6) (t : BitVec 2) (s : State) : exec (.sra d a b t) s = execSra d a b t s := rfl

@[simp] theorem exec_rol (d : BitVec 6) (a : BitVec 6) (b : BitVec 6) (t : BitVec 2) (s : State) : exec (.rol d a b t) s = execRol d a b t s := rfl

@[simp] theorem exec_slt (d : BitVec 6) (a : BitVec 6) (b : BitVec 6) (t : BitVec 2) (s : State) : exec (.slt d a b t) s = execSlt d a b t s := rfl

@[simp] theorem exec_sltu (d : BitVec 6) (a : BitVec 6) (b : BitVec 6) (t : BitVec 2) (s : State) : exec (.sltu d a b t) s = execSltu d a b t s := rfl

@[simp] theorem exec_min (d : BitVec 6) (a : BitVec 6) (b : BitVec 6) (t : BitVec 2) (s : State) : exec (.min d a b t) s = execMin d a b t s := rfl

@[simp] theorem exec_max (d : BitVec 6) (a : BitVec 6) (b : BitVec 6) (t : BitVec 2) (s : State) : exec (.max d a b t) s = execMax d a b t s := rfl

@[simp] theorem exec_minu (d : BitVec 6) (a : BitVec 6) (b : BitVec 6) (t : BitVec 2) (s : State) : exec (.minu d a b t) s = execMinu d a b t s := rfl

@[simp] theorem exec_maxu (d : BitVec 6) (a : BitVec 6) (b : BitVec 6) (t : BitVec 2) (s : State) : exec (.maxu d a b t) s = execMaxu d a b t s := rfl

@[simp] theorem exec_mul (d : BitVec 6) (a : BitVec 6) (b : BitVec 6) (t : BitVec 2) (s : State) : exec (.mul d a b t) s = execMul d a b t s := rfl

@[simp] theorem exec_mulh (d : BitVec 6) (a : BitVec 6) (b : BitVec 6) (t : BitVec 2) (s : State) : exec (.mulh d a b t) s = execMulh d a b t s := rfl

@[simp] theorem exec_mulhu (d : BitVec 6) (a : BitVec 6) (b : BitVec 6) (t : BitVec 2) (s : State) : exec (.mulhu d a b t) s = execMulhu d a b t s := rfl

@[simp] theorem exec_div (d : BitVec 6) (a : BitVec 6) (b : BitVec 6) (t : BitVec 2) (s : State) : exec (.div d a b t) s = execDiv d a b t s := rfl

@[simp] theorem exec_divu (d : BitVec 6) (a : BitVec 6) (b : BitVec 6) (t : BitVec 2) (s : State) : exec (.divu d a b t) s = execDivu d a b t s := rfl

@[simp] theorem exec_rem (d : BitVec 6) (a : BitVec 6) (b : BitVec 6) (t : BitVec 2) (s : State) : exec (.rem d a b t) s = execRem d a b t s := rfl

@[simp] theorem exec_remu (d : BitVec 6) (a : BitVec 6) (b : BitVec 6) (t : BitVec 2) (s : State) : exec (.remu d a b t) s = execRemu d a b t s := rfl

@[simp] theorem exec_clz (d : BitVec 6) (a : BitVec 6) (t : BitVec 2) (s : State) : exec (.clz d a t) s = execClz d a t s := rfl

@[simp] theorem exec_ctz (d : BitVec 6) (a : BitVec 6) (t : BitVec 2) (s : State) : exec (.ctz d a t) s = execCtz d a t s := rfl

@[simp] theorem exec_popc (d : BitVec 6) (a : BitVec 6) (t : BitVec 2) (s : State) : exec (.popc d a t) s = execPopc d a t s := rfl

@[simp] theorem exec_sext (d : BitVec 6) (a : BitVec 6) (b : BitVec 6) (t : BitVec 2) (s : State) : exec (.sext d a b t) s = execSext d a b t s := rfl

@[simp] theorem exec_zext (d : BitVec 6) (a : BitVec 6) (b : BitVec 6) (t : BitVec 2) (s : State) : exec (.zext d a b t) s = execZext d a b t s := rfl

@[simp] theorem exec_addw (d : BitVec 6) (a : BitVec 6) (b : BitVec 6) (t : BitVec 2) (s : State) : exec (.addw d a b t) s = execAddw d a b t s := rfl

@[simp] theorem exec_subw (d : BitVec 6) (a : BitVec 6) (b : BitVec 6) (t : BitVec 2) (s : State) : exec (.subw d a b t) s = execSubw d a b t s := rfl

@[simp] theorem exec_mulw (d : BitVec 6) (a : BitVec 6) (b : BitVec 6) (t : BitVec 2) (s : State) : exec (.mulw d a b t) s = execMulw d a b t s := rfl

@[simp] theorem exec_addi (d : BitVec 6) (a : BitVec 6) (im : BitVec 10) (t : BitVec 2) (s : State) : exec (.addi d a im t) s = execAddi d a im t s := rfl

@[simp] theorem exec_andi (d : BitVec 6) (a : BitVec 6) (im : BitVec 10) (t : BitVec 2) (s : State) : exec (.andi d a im t) s = execAndi d a im t s := rfl

@[simp] theorem exec_ori (d : BitVec 6) (a : BitVec 6) (im : BitVec 10) (t : BitVec 2) (s : State) : exec (.ori d a im t) s = execOri d a im t s := rfl

@[simp] theorem exec_xori (d : BitVec 6) (a : BitVec 6) (im : BitVec 10) (t : BitVec 2) (s : State) : exec (.xori d a im t) s = execXori d a im t s := rfl

@[simp] theorem exec_slti (d : BitVec 6) (a : BitVec 6) (im : BitVec 10) (t : BitVec 2) (s : State) : exec (.slti d a im t) s = execSlti d a im t s := rfl

@[simp] theorem exec_slli (d : BitVec 6) (a : BitVec 6) (im : BitVec 10) (t : BitVec 2) (s : State) : exec (.slli d a im t) s = execSlli d a im t s := rfl

@[simp] theorem exec_srli (d : BitVec 6) (a : BitVec 6) (im : BitVec 10) (t : BitVec 2) (s : State) : exec (.srli d a im t) s = execSrli d a im t s := rfl

@[simp] theorem exec_srai (d : BitVec 6) (a : BitVec 6) (im : BitVec 10) (t : BitVec 2) (s : State) : exec (.srai d a im t) s = execSrai d a im t s := rfl

@[simp] theorem exec_movhi (d : BitVec 6) (im : BitVec 19) (t : BitVec 2) (s : State) : exec (.movhi d im t) s = execMovhi d im t s := rfl

@[simp] theorem exec_ld (d : BitVec 6) (a : BitVec 6) (o : BitVec 11) (z : BitVec 2) (t : BitVec 2) (s : State) : exec (.ld d a o z t) s = execLd d a o z t s := rfl

@[simp] theorem exec_lds (d : BitVec 6) (a : BitVec 6) (o : BitVec 11) (z : BitVec 2) (t : BitVec 2) (s : State) : exec (.lds d a o z t) s = execLds d a o z t s := rfl

@[simp] theorem exec_st (d : BitVec 6) (a : BitVec 6) (o : BitVec 11) (z : BitVec 2) (t : BitVec 2) (s : State) : exec (.st d a o z t) s = execSt d a o z t s := rfl

@[simp] theorem exec_beqz (a : BitVec 6) (o : BitVec 15) (t : BitVec 2) (s : State) : exec (.beqz a o t) s = execBeqz a o t s := rfl

@[simp] theorem exec_bnez (a : BitVec 6) (o : BitVec 15) (t : BitVec 2) (s : State) : exec (.bnez a o t) s = execBnez a o t s := rfl

@[simp] theorem exec_bltz (a : BitVec 6) (o : BitVec 15) (t : BitVec 2) (s : State) : exec (.bltz a o t) s = execBltz a o t s := rfl

@[simp] theorem exec_bgez (a : BitVec 6) (o : BitVec 15) (t : BitVec 2) (s : State) : exec (.bgez a o t) s = execBgez a o t s := rfl

@[simp] theorem exec_bgtz (a : BitVec 6) (o : BitVec 15) (t : BitVec 2) (s : State) : exec (.bgtz a o t) s = execBgtz a o t s := rfl

@[simp] theorem exec_blez (a : BitVec 6) (o : BitVec 15) (t : BitVec 2) (s : State) : exec (.blez a o t) s = execBlez a o t s := rfl

@[simp] theorem exec_bp (a : BitVec 6) (o : BitVec 15) (t : BitVec 2) (s : State) : exec (.bp a o t) s = execBp a o t s := rfl

@[simp] theorem exec_bnp (a : BitVec 6) (o : BitVec 15) (t : BitVec 2) (s : State) : exec (.bnp a o t) s = execBnp a o t s := rfl

@[simp] theorem exec_bq (o : BitVec 15) (t : BitVec 2) (s : State) : exec (.bq o t) s = execBq o t s := rfl

@[simp] theorem exec_bnq (o : BitVec 15) (t : BitVec 2) (s : State) : exec (.bnq o t) s = execBnq o t s := rfl

@[simp] theorem exec_jmp (o : BitVec 25) (t : BitVec 2) (s : State) : exec (.jmp o t) s = execJmp o t s := rfl

@[simp] theorem exec_call (o : BitVec 25) (t : BitVec 2) (s : State) : exec (.call o t) s = execCall o t s := rfl

@[simp] theorem exec_jr (d : BitVec 6) (a : BitVec 6) (im : BitVec 10) (t : BitVec 2) (s : State) : exec (.jr d a im t) s = execJr d a im t s := rfl

@[simp] theorem exec_callr (d : BitVec 6) (a : BitVec 6) (im : BitVec 10) (t : BitVec 2) (s : State) : exec (.callr d a im t) s = execCallr d a im t s := rfl

@[simp] theorem exec_tkpush (q : BitVec 6) (t : BitVec 2) (s : State) : exec (.tkpush q t) s = execTkpush q t s := rfl

@[simp] theorem exec_tkpop (q : BitVec 6) (t : BitVec 2) (s : State) : exec (.tkpop q t) s = execTkpop q t s := rfl

@[simp] theorem exec_tkcnt (d : BitVec 6) (q : BitVec 6) (t : BitVec 2) (s : State) : exec (.tkcnt d q t) s = execTkcnt d q t s := rfl

@[simp] theorem exec_qpeek (d : BitVec 6) (q : BitVec 6) (t : BitVec 2) (s : State) : exec (.qpeek d q t) s = execQpeek d q t s := rfl

@[simp] theorem exec_qcnt (d : BitVec 6) (q : BitVec 6) (t : BitVec 2) (s : State) : exec (.qcnt d q t) s = execQcnt d q t s := rfl

@[simp] theorem exec_qsquash (q : BitVec 6) (t : BitVec 2) (s : State) : exec (.qsquash q t) s = execQsquash q t s := rfl

@[simp] theorem exec_qfmt (a : BitVec 6) (q : BitVec 6) (t : BitVec 2) (s : State) : exec (.qfmt a q t) s = execQfmt a q t s := rfl

@[simp] theorem exec_qsel (q : BitVec 6) (t : BitVec 2) (s : State) : exec (.qsel q t) s = execQsel q t s := rfl

@[simp] theorem exec_bqpush (a : BitVec 6) (t : BitVec 2) (s : State) : exec (.bqpush a t) s = execBqpush a t s := rfl

@[simp] theorem exec_qwait (q : BitVec 6) (t : BitVec 2) (s : State) : exec (.qwait q t) s = execQwait q t s := rfl

@[simp] theorem exec_epop (d : BitVec 6) (q : BitVec 6) (t : BitVec 2) (s : State) : exec (.epop d q t) s = execEpop d q t s := rfl

@[simp] theorem exec_hmov (d : BitVec 4) (a : BitVec 4) (t : BitVec 2) (s : State) : exec (.hmov d a t) s = execHmov d a t s := rfl

@[simp] theorem exec_hld (d : BitVec 4) (r : BitVec 6) (t : BitVec 2) (s : State) : exec (.hld d r t) s = execHld d r t s := rfl

@[simp] theorem exec_hst (a : BitVec 4) (r : BitVec 6) (t : BitVec 2) (s : State) : exec (.hst a r t) s = execHst a r t s := rfl

@[simp] theorem exec_hsetb (d : BitVec 4) (a : BitVec 4) (r : BitVec 6) (t : BitVec 2) (s : State) : exec (.hsetb d a r t) s = execHsetb d a r t s := rfl

@[simp] theorem exec_hsetd (d : BitVec 4) (a : BitVec 4) (k : BitVec 4) (r : BitVec 6) (t : BitVec 2) (s : State) : exec (.hsetd d a k r t) s = execHsetd d a k r t s := rfl

@[simp] theorem exec_hsets (d : BitVec 4) (a : BitVec 4) (k : BitVec 4) (r : BitVec 6) (t : BitVec 2) (s : State) : exec (.hsets d a k r t) s = execHsets d a k r t s := rfl

@[simp] theorem exec_hsetf (d : BitVec 4) (a : BitVec 4) (r : BitVec 6) (t : BitVec 2) (s : State) : exec (.hsetf d a r t) s = execHsetf d a r t s := rfl

@[simp] theorem exec_hgetb (a : BitVec 4) (r : BitVec 6) (t : BitVec 2) (s : State) : exec (.hgetb a r t) s = execHgetb a r t s := rfl

@[simp] theorem exec_hgetd (a : BitVec 4) (k : BitVec 4) (r : BitVec 6) (t : BitVec 2) (s : State) : exec (.hgetd a k r t) s = execHgetd a k r t s := rfl

@[simp] theorem exec_hoff (d : BitVec 4) (a : BitVec 4) (k : BitVec 4) (r : BitVec 6) (t : BitVec 2) (s : State) : exec (.hoff d a k r t) s = execHoff d a k r t s := rfl

@[simp] theorem exec_hsub (d : BitVec 4) (a : BitVec 4) (r : BitVec 6) (t : BitVec 2) (s : State) : exec (.hsub d a r t) s = execHsub d a r t s := rfl

@[simp] theorem exec_hchk (a : BitVec 4) (r : BitVec 6) (t : BitVec 2) (s : State) : exec (.hchk a r t) s = execHchk a r t s := rfl

@[simp] theorem exec_hclr (d : BitVec 4) (t : BitVec 2) (s : State) : exec (.hclr d t) s = execHclr d t s := rfl

@[simp] theorem exec_ctld (h : BitVec 4) (a : BitVec 6) (b : BitVec 6) (l : BitVec 1) (t : BitVec 2) (s : State) : exec (.ctld h a b l t) s = execCtld h a b l t s := rfl

@[simp] theorem exec_ctst (h : BitVec 4) (a : BitVec 6) (b : BitVec 6) (l : BitVec 1) (t : BitVec 2) (s : State) : exec (.ctst h a b l t) s = execCtst h a b l t s := rfl

@[simp] theorem exec_ccpy (h : BitVec 3) (a : BitVec 6) (b : BitVec 6) (l : BitVec 1) (t : BitVec 2) (s : State) : exec (.ccpy h a b l t) s = execCcpy h a b l t s := rfl

@[simp] theorem exec_cfill (h : BitVec 4) (a : BitVec 6) (b : BitVec 6) (l : BitVec 1) (t : BitVec 2) (s : State) : exec (.cfill h a b l t) s = execCfill h a b l t s := rfl

@[simp] theorem exec_cpfx (h : BitVec 4) (a : BitVec 6) (b : BitVec 6) (l : BitVec 1) (t : BitVec 2) (s : State) : exec (.cpfx h a b l t) s = execCpfx h a b l t s := rfl

@[simp] theorem exec_cxfr (a : BitVec 6) (b : BitVec 6) (l : BitVec 1) (t : BitVec 2) (s : State) : exec (.cxfr a b l t) s = execCxfr a b l t s := rfl

@[simp] theorem exec_gath (h : BitVec 4) (a : BitVec 6) (b : BitVec 6) (t : BitVec 2) (s : State) : exec (.gath h a b t) s = execGath h a b t s := rfl

@[simp] theorem exec_scat (h : BitVec 4) (a : BitVec 6) (b : BitVec 6) (t : BitVec 2) (s : State) : exec (.scat h a b t) s = execScat h a b t s := rfl

@[simp] theorem exec_gathp (h : BitVec 4) (a : BitVec 6) (b : BitVec 6) (t : BitVec 2) (s : State) : exec (.gathp h a b t) s = execGathp h a b t s := rfl

@[simp] theorem exec_scata (h : BitVec 4) (a : BitVec 6) (b : BitVec 6) (t : BitVec 2) (s : State) : exec (.scata h a b t) s = execScata h a b t s := rfl

@[simp] theorem exec_xallr (h : BitVec 4) (a : BitVec 6) (b : BitVec 6) (t : BitVec 2) (s : State) : exec (.xallr h a b t) s = execXallr h a b t s := rfl

@[simp] theorem exec_xrds (h : BitVec 4) (a : BitVec 6) (b : BitVec 6) (t : BitVec 2) (s : State) : exec (.xrds h a b t) s = execXrds h a b t s := rfl

@[simp] theorem exec_xallg (h : BitVec 4) (a : BitVec 6) (b : BitVec 6) (t : BitVec 2) (s : State) : exec (.xallg h a b t) s = execXallg h a b t s := rfl

@[simp] theorem exec_xsend (h : BitVec 4) (a : BitVec 6) (b : BitVec 6) (t : BitVec 2) (s : State) : exec (.xsend h a b t) s = execXsend h a b t s := rfl

@[simp] theorem exec_xrecv (h : BitVec 4) (a : BitVec 6) (b : BitVec 6) (t : BitVec 2) (s : State) : exec (.xrecv h a b t) s = execXrecv h a b t s := rfl

@[simp] theorem exec_xexch (h : BitVec 4) (a : BitVec 6) (b : BitVec 6) (t : BitVec 2) (s : State) : exec (.xexch h a b t) s = execXexch h a b t s := rfl

@[simp] theorem exec_ald (d : BitVec 5) (a : BitVec 5) (o : BitVec 3) (sc : BitVec 4) (z : BitVec 1) (s : State) : exec (.ald d a o sc z) s = execAld d a o sc z s := rfl

@[simp] theorem exec_ast (a : BitVec 5) (b : BitVec 5) (o : BitVec 3) (sc : BitVec 4) (z : BitVec 1) (s : State) : exec (.ast a b o sc z) s = execAst a b o sc z s := rfl

@[simp] theorem exec_aswp (d : BitVec 5) (a : BitVec 5) (b : BitVec 5) (o : BitVec 3) (sc : BitVec 4) (z : BitVec 1) (s : State) : exec (.aswp d a b o sc z) s = execAswp d a b o sc z s := rfl

@[simp] theorem exec_acas (d : BitVec 5) (a : BitVec 5) (b : BitVec 5) (o : BitVec 3) (sc : BitVec 4) (z : BitVec 1) (s : State) : exec (.acas d a b o sc z) s = execAcas d a b o sc z s := rfl

@[simp] theorem exec_aadd (d : BitVec 5) (a : BitVec 5) (b : BitVec 5) (o : BitVec 3) (sc : BitVec 4) (z : BitVec 1) (s : State) : exec (.aadd d a b o sc z) s = execAadd d a b o sc z s := rfl

@[simp] theorem exec_aand (d : BitVec 5) (a : BitVec 5) (b : BitVec 5) (o : BitVec 3) (sc : BitVec 4) (z : BitVec 1) (s : State) : exec (.aand d a b o sc z) s = execAand d a b o sc z s := rfl

@[simp] theorem exec_aor (d : BitVec 5) (a : BitVec 5) (b : BitVec 5) (o : BitVec 3) (sc : BitVec 4) (z : BitVec 1) (s : State) : exec (.aor d a b o sc z) s = execAor d a b o sc z s := rfl

@[simp] theorem exec_axor (d : BitVec 5) (a : BitVec 5) (b : BitVec 5) (o : BitVec 3) (sc : BitVec 4) (z : BitVec 1) (s : State) : exec (.axor d a b o sc z) s = execAxor d a b o sc z s := rfl

@[simp] theorem exec_amin (d : BitVec 5) (a : BitVec 5) (b : BitVec 5) (o : BitVec 3) (sc : BitVec 4) (z : BitVec 1) (s : State) : exec (.amin d a b o sc z) s = execAmin d a b o sc z s := rfl

@[simp] theorem exec_amax (d : BitVec 5) (a : BitVec 5) (b : BitVec 5) (o : BitVec 3) (sc : BitVec 4) (z : BitVec 1) (s : State) : exec (.amax d a b o sc z) s = execAmax d a b o sc z s := rfl

@[simp] theorem exec_aminu (d : BitVec 5) (a : BitVec 5) (b : BitVec 5) (o : BitVec 3) (sc : BitVec 4) (z : BitVec 1) (s : State) : exec (.aminu d a b o sc z) s = execAminu d a b o sc z s := rfl

@[simp] theorem exec_amaxu (d : BitVec 5) (a : BitVec 5) (b : BitVec 5) (o : BitVec 3) (sc : BitVec 4) (z : BitVec 1) (s : State) : exec (.amaxu d a b o sc z) s = execAmaxu d a b o sc z s := rfl

@[simp] theorem exec_afadd (d : BitVec 5) (a : BitVec 5) (b : BitVec 5) (o : BitVec 3) (sc : BitVec 4) (s : State) : exec (.afadd d a b o sc) s = execAfadd d a b o sc s := rfl

@[simp] theorem exec_sigdec (d : BitVec 5) (a : BitVec 5) (b : BitVec 5) (o : BitVec 3) (sc : BitVec 4) (s : State) : exec (.sigdec d a b o sc) s = execSigdec d a b o sc s := rfl

@[simp] theorem exec_sigadd (d : BitVec 5) (a : BitVec 5) (b : BitVec 5) (o : BitVec 3) (sc : BitVec 4) (s : State) : exec (.sigadd d a b o sc) s = execSigadd d a b o sc s := rfl

@[simp] theorem exec_fence (sc : BitVec 4) (o : BitVec 3) (t : BitVec 2) (s : State) : exec (.fence sc o t) s = execFence sc o t s := rfl

@[simp] theorem exec_fencee (sc : BitVec 4) (o : BitVec 3) (m : BitVec 8) (t : BitVec 2) (s : State) : exec (.fencee sc o m t) s = execFencee sc o m t s := rfl

@[simp] theorem exec_ssync (t : BitVec 2) (s : State) : exec (.ssync t) s = execSsync t s := rfl

@[simp] theorem exec_cbar (t : BitVec 2) (s : State) : exec (.cbar t) s = execCbar t s := rfl

@[simp] theorem exec_waitv (sc : BitVec 4) (o : BitVec 3) (a : BitVec 6) (c : BitVec 8) (t : BitVec 2) (s : State) : exec (.waitv sc o a c t) s = execWaitv sc o a c t s := rfl

@[simp] theorem exec_ckopen (d : BitVec 4) (a : BitVec 4) (t : BitVec 2) (s : State) : exec (.ckopen d a t) s = execCkopen d a t s := rfl

@[simp] theorem exec_ckopenGrow (d : BitVec 4) (a : BitVec 4) (t : BitVec 2) (s : State) : exec (.ckopenGrow d a t) s = execCkopenGrow d a t s := rfl

@[simp] theorem exec_ckseal (d : BitVec 4) (a : BitVec 4) (t : BitVec 2) (s : State) : exec (.ckseal d a t) s = execCkseal d a t s := rfl

@[simp] theorem exec_ckblnd (d : BitVec 4) (a : BitVec 4) (b : BitVec 4) (t : BitVec 2) (s : State) : exec (.ckblnd d a b t) s = execCkblnd d a b t s := rfl

@[simp] theorem exec_ckfilt (d : BitVec 4) (a : BitVec 4) (r : BitVec 6) (t : BitVec 2) (s : State) : exec (.ckfilt d a r t) s = execCkfilt d a r t s := rfl

@[simp] theorem exec_ckrebs (d : BitVec 4) (a : BitVec 4) (r : BitVec 6) (t : BitVec 2) (s : State) : exec (.ckrebs d a r t) s = execCkrebs d a r t s := rfl

@[simp] theorem exec_ckpour (a : BitVec 4) (r : BitVec 6) (t : BitVec 2) (s : State) : exec (.ckpour a r t) s = execCkpour a r t s := rfl

@[simp] theorem exec_ckdrop (a : BitVec 4) (t : BitVec 2) (s : State) : exec (.ckdrop a t) s = execCkdrop a t s := rfl

@[simp] theorem exec_ckinfo (a : BitVec 4) (k : BitVec 4) (r : BitVec 6) (t : BitVec 2) (s : State) : exec (.ckinfo a k r t) s = execCkinfo a k r t s := rfl

@[simp] theorem exec_ckabort (a : BitVec 4) (t : BitVec 2) (s : State) : exec (.ckabort a t) s = execCkabort a t s := rfl

@[simp] theorem exec_glaunch (d : BitVec 6) (a : BitVec 6) (t : BitVec 2) (s : State) : exec (.glaunch d a t) s = execGlaunch d a t s := rfl

@[simp] theorem exec_gwait (d : BitVec 6) (a : BitVec 6) (im : BitVec 6) (t : BitVec 2) (s : State) : exec (.gwait d a im t) s = execGwait d a im t s := rfl

@[simp] theorem exec_gcancel (d : BitVec 6) (a : BitVec 6) (im : BitVec 6) (t : BitVec 2) (s : State) : exec (.gcancel d a im t) s = execGcancel d a im t s := rfl

@[simp] theorem exec_gcnt (d : BitVec 6) (a : BitVec 6) (im : BitVec 6) (t : BitVec 2) (s : State) : exec (.gcnt d a im t) s = execGcnt d a im t s := rfl

@[simp] theorem exec_yield (t : BitVec 2) (s : State) : exec (.yield t) s = execYield t s := rfl

@[simp] theorem exec_uexit (t : BitVec 2) (s : State) : exec (.uexit t) s = execUexit t s := rfl

@[simp] theorem exec_priset (d : BitVec 6) (a : BitVec 6) (t : BitVec 2) (s : State) : exec (.priset d a t) s = execPriset d a t s := rfl

@[simp] theorem exec_pset (d : BitVec 6) (a : BitVec 6) (im : BitVec 6) (t : BitVec 2) (s : State) : exec (.pset d a im t) s = execPset d a im t s := rfl

@[simp] theorem exec_pand (d : BitVec 6) (a : BitVec 6) (im : BitVec 6) (t : BitVec 2) (s : State) : exec (.pand d a im t) s = execPand d a im t s := rfl

@[simp] theorem exec_por (d : BitVec 6) (a : BitVec 6) (im : BitVec 6) (t : BitVec 2) (s : State) : exec (.por d a im t) s = execPor d a im t s := rfl

@[simp] theorem exec_pxor (d : BitVec 6) (a : BitVec 6) (im : BitVec 6) (t : BitVec 2) (s : State) : exec (.pxor d a im t) s = execPxor d a im t s := rfl

@[simp] theorem exec_pnot (d : BitVec 6) (a : BitVec 6) (t : BitVec 2) (s : State) : exec (.pnot d a t) s = execPnot d a t s := rfl

@[simp] theorem exec_pmov (d : BitVec 6) (a : BitVec 6) (t : BitVec 2) (s : State) : exec (.pmov d a t) s = execPmov d a t s := rfl

@[simp] theorem exec_ptos (d : BitVec 6) (a : BitVec 6) (im : BitVec 6) (t : BitVec 2) (s : State) : exec (.ptos d a im t) s = execPtos d a im t s := rfl

@[simp] theorem exec_pall (d : BitVec 6) (a : BitVec 6) (im : BitVec 6) (t : BitVec 2) (s : State) : exec (.pall d a im t) s = execPall d a im t s := rfl

@[simp] theorem exec_pany (d : BitVec 6) (a : BitVec 6) (im : BitVec 6) (t : BitVec 2) (s : State) : exec (.pany d a im t) s = execPany d a im t s := rfl

@[simp] theorem exec_vwin (a : BitVec 6) (t : BitVec 2) (s : State) : exec (.vwin a t) s = execVwin a t s := rfl

@[simp] theorem exec_loopx (a : BitVec 6) (im : BitVec 8) (t : BitVec 2) (s : State) : exec (.loopx a im t) s = execLoopx a im t s := rfl

@[simp] theorem exec_loope (t : BitVec 2) (s : State) : exec (.loope t) s = execLoope t s := rfl

@[simp] theorem exec_vrot (im : BitVec 8) (t : BitVec 2) (s : State) : exec (.vrot im t) s = execVrot im t s := rfl

@[simp] theorem exec_vtag (d : BitVec 5) (f : BitVec 6) (t : BitVec 2) (s : State) : exec (.vtag d f t) s = execVtag d f t s := rfl

@[simp] theorem exec_vtagr (d : BitVec 5) (a : BitVec 6) (t : BitVec 2) (s : State) : exec (.vtagr d a t) s = execVtagr d a t s := rfl

@[simp] theorem exec_vld (d : BitVec 5) (a : BitVec 6) (im : BitVec 8) (t : BitVec 2) (s : State) : exec (.vld d a im t) s = execVld d a im t s := rfl

@[simp] theorem exec_vst (d : BitVec 5) (a : BitVec 6) (im : BitVec 8) (t : BitVec 2) (s : State) : exec (.vst d a im t) s = execVst d a im t s := rfl

@[simp] theorem exec_vldt (d : BitVec 5) (a : BitVec 6) (m : BitVec 4) (t : BitVec 2) (s : State) : exec (.vldt d a m t) s = execVldt d a m t s := rfl

@[simp] theorem exec_vldg (d : BitVec 5) (a : BitVec 6) (b : BitVec 6) (t : BitVec 2) (s : State) : exec (.vldg d a b t) s = execVldg d a b t s := rfl

@[simp] theorem exec_vsts (d : BitVec 5) (a : BitVec 6) (m : BitVec 4) (t : BitVec 2) (s : State) : exec (.vsts d a m t) s = execVsts d a m t s := rfl

@[simp] theorem exec_vldb (d : BitVec 5) (a : BitVec 6) (m : BitVec 4) (t : BitVec 2) (s : State) : exec (.vldb d a m t) s = execVldb d a m t s := rfl

@[simp] theorem exec_vlds (d : BitVec 5) (a : BitVec 6) (m : BitVec 4) (t : BitVec 2) (s : State) : exec (.vlds d a m t) s = execVlds d a m t s := rfl

@[simp] theorem exec_plse (t : BitVec 2) (s : State) : exec (.plse t) s = execPlse t s := rfl

@[simp] theorem exec_prel (t : BitVec 2) (s : State) : exec (.prel t) s = execPrel t s := rfl

@[simp] theorem exec_pwld (h : BitVec 4) (a : BitVec 6) (t : BitVec 2) (s : State) : exec (.pwld h a t) s = execPwld h a t s := rfl

@[simp] theorem exec_pmul (h : BitVec 4) (a : BitVec 6) (b : BitVec 6) (t : BitVec 2) (s : State) : exec (.pmul h a b t) s = execPmul h a b t s := rfl

@[simp] theorem exec_pmulz (h : BitVec 4) (a : BitVec 6) (b : BitVec 6) (t : BitVec 2) (s : State) : exec (.pmulz h a b t) s = execPmulz h a b t s := rfl

@[simp] theorem exec_pdrn (c : BitVec 3) (h : BitVec 4) (a : BitVec 6) (t : BitVec 2) (s : State) : exec (.pdrn c h a t) s = execPdrn c h a t s := rfl

@[simp] theorem exec_pstat (a : BitVec 6) (t : BitVec 2) (s : State) : exec (.pstat a t) s = execPstat a t s := rfl

@[simp] theorem exec_rwsmx (c : BitVec 3) (h : BitVec 4) (a : BitVec 6) (b : BitVec 6) (l : BitVec 1) (t : BitVec 2) (s : State) : exec (.rwsmx c h a b l t) s = execRwsmx c h a b l t s := rfl

@[simp] theorem exec_rwmax (c : BitVec 3) (h : BitVec 4) (a : BitVec 6) (b : BitVec 6) (l : BitVec 1) (t : BitVec 2) (s : State) : exec (.rwmax c h a b l t) s = execRwmax c h a b l t s := rfl

@[simp] theorem exec_rwexps (c : BitVec 3) (h : BitVec 4) (a : BitVec 6) (b : BitVec 6) (l : BitVec 1) (t : BitVec 2) (s : State) : exec (.rwexps c h a b l t) s = execRwexps c h a b l t s := rfl

@[simp] theorem exec_rwscl (c : BitVec 3) (h : BitVec 4) (a : BitVec 6) (b : BitVec 6) (l : BitVec 1) (t : BitVec 2) (s : State) : exec (.rwscl c h a b l t) s = execRwscl c h a b l t s := rfl

@[simp] theorem exec_rwrms (c : BitVec 3) (h : BitVec 4) (a : BitVec 6) (b : BitVec 6) (l : BitVec 1) (t : BitVec 2) (s : State) : exec (.rwrms c h a b l t) s = execRwrms c h a b l t s := rfl

@[simp] theorem exec_rwlnrm (c : BitVec 3) (h : BitVec 4) (a : BitVec 6) (b : BitVec 6) (l : BitVec 1) (t : BitVec 2) (s : State) : exec (.rwlnrm c h a b l t) s = execRwlnrm c h a b l t s := rfl

@[simp] theorem exec_vadd (d : BitVec 5) (a : BitVec 5) (b : BitVec 5) (p : BitVec 4) (t : BitVec 2) (s : State) : exec (.vadd d a b p t) s = execVadd d a b p t s := rfl

@[simp] theorem exec_vsub (d : BitVec 5) (a : BitVec 5) (b : BitVec 5) (p : BitVec 4) (t : BitVec 2) (s : State) : exec (.vsub d a b p t) s = execVsub d a b p t s := rfl

@[simp] theorem exec_vmul (d : BitVec 5) (a : BitVec 5) (b : BitVec 5) (p : BitVec 4) (t : BitVec 2) (s : State) : exec (.vmul d a b p t) s = execVmul d a b p t s := rfl

@[simp] theorem exec_vfma (d : BitVec 5) (a : BitVec 5) (b : BitVec 5) (p : BitVec 4) (t : BitVec 2) (s : State) : exec (.vfma d a b p t) s = execVfma d a b p t s := rfl

@[simp] theorem exec_vfms (d : BitVec 5) (a : BitVec 5) (b : BitVec 5) (p : BitVec 4) (t : BitVec 2) (s : State) : exec (.vfms d a b p t) s = execVfms d a b p t s := rfl

@[simp] theorem exec_vmin (d : BitVec 5) (a : BitVec 5) (b : BitVec 5) (p : BitVec 4) (t : BitVec 2) (s : State) : exec (.vmin d a b p t) s = execVmin d a b p t s := rfl

@[simp] theorem exec_vmax (d : BitVec 5) (a : BitVec 5) (b : BitVec 5) (p : BitVec 4) (t : BitVec 2) (s : State) : exec (.vmax d a b p t) s = execVmax d a b p t s := rfl

@[simp] theorem exec_vabs (d : BitVec 5) (a : BitVec 5) (p : BitVec 4) (t : BitVec 2) (s : State) : exec (.vabs d a p t) s = execVabs d a p t s := rfl

@[simp] theorem exec_vneg (d : BitVec 5) (a : BitVec 5) (p : BitVec 4) (t : BitVec 2) (s : State) : exec (.vneg d a p t) s = execVneg d a p t s := rfl

@[simp] theorem exec_vand (d : BitVec 5) (a : BitVec 5) (b : BitVec 5) (p : BitVec 4) (t : BitVec 2) (s : State) : exec (.vand d a b p t) s = execVand d a b p t s := rfl

@[simp] theorem exec_vor (d : BitVec 5) (a : BitVec 5) (b : BitVec 5) (p : BitVec 4) (t : BitVec 2) (s : State) : exec (.vor d a b p t) s = execVor d a b p t s := rfl

@[simp] theorem exec_vxor (d : BitVec 5) (a : BitVec 5) (b : BitVec 5) (p : BitVec 4) (t : BitVec 2) (s : State) : exec (.vxor d a b p t) s = execVxor d a b p t s := rfl

@[simp] theorem exec_vsll (d : BitVec 5) (a : BitVec 5) (b : BitVec 5) (p : BitVec 4) (t : BitVec 2) (s : State) : exec (.vsll d a b p t) s = execVsll d a b p t s := rfl

@[simp] theorem exec_vsrl (d : BitVec 5) (a : BitVec 5) (b : BitVec 5) (p : BitVec 4) (t : BitVec 2) (s : State) : exec (.vsrl d a b p t) s = execVsrl d a b p t s := rfl

@[simp] theorem exec_vsra (d : BitVec 5) (a : BitVec 5) (b : BitVec 5) (p : BitVec 4) (t : BitVec 2) (s : State) : exec (.vsra d a b p t) s = execVsra d a b p t s := rfl

@[simp] theorem exec_vcmpeq (d : BitVec 5) (a : BitVec 5) (b : BitVec 5) (p : BitVec 4) (t : BitVec 2) (s : State) : exec (.vcmpeq d a b p t) s = execVcmpeq d a b p t s := rfl

@[simp] theorem exec_vcmplt (d : BitVec 5) (a : BitVec 5) (b : BitVec 5) (p : BitVec 4) (t : BitVec 2) (s : State) : exec (.vcmplt d a b p t) s = execVcmplt d a b p t s := rfl

@[simp] theorem exec_vcmple (d : BitVec 5) (a : BitVec 5) (b : BitVec 5) (p : BitVec 4) (t : BitVec 2) (s : State) : exec (.vcmple d a b p t) s = execVcmple d a b p t s := rfl

@[simp] theorem exec_vsel (d : BitVec 5) (a : BitVec 5) (b : BitVec 5) (p : BitVec 4) (t : BitVec 2) (s : State) : exec (.vsel d a b p t) s = execVsel d a b p t s := rfl

@[simp] theorem exec_vmov (d : BitVec 5) (a : BitVec 5) (p : BitVec 4) (t : BitVec 2) (s : State) : exec (.vmov d a p t) s = execVmov d a p t s := rfl

@[simp] theorem exec_vsat (d : BitVec 5) (a : BitVec 5) (b : BitVec 5) (p : BitVec 4) (t : BitVec 2) (s : State) : exec (.vsat d a b p t) s = execVsat d a b p t s := rfl

@[simp] theorem exec_vaddsat (d : BitVec 5) (a : BitVec 5) (b : BitVec 5) (p : BitVec 4) (t : BitVec 2) (s : State) : exec (.vaddsat d a b p t) s = execVaddsat d a b p t s := rfl

@[simp] theorem exec_vrcp (d : BitVec 5) (a : BitVec 5) (p : BitVec 4) (t : BitVec 2) (s : State) : exec (.vrcp d a p t) s = execVrcp d a p t s := rfl

@[simp] theorem exec_vsqrt (d : BitVec 5) (a : BitVec 5) (p : BitVec 4) (t : BitVec 2) (s : State) : exec (.vsqrt d a p t) s = execVsqrt d a p t s := rfl

@[simp] theorem exec_vrsqrt (d : BitVec 5) (a : BitVec 5) (p : BitVec 4) (t : BitVec 2) (s : State) : exec (.vrsqrt d a p t) s = execVrsqrt d a p t s := rfl

@[simp] theorem exec_vexp2 (d : BitVec 5) (a : BitVec 5) (p : BitVec 4) (t : BitVec 2) (s : State) : exec (.vexp2 d a p t) s = execVexp2 d a p t s := rfl

@[simp] theorem exec_vlog2 (d : BitVec 5) (a : BitVec 5) (p : BitVec 4) (t : BitVec 2) (s : State) : exec (.vlog2 d a p t) s = execVlog2 d a p t s := rfl

@[simp] theorem exec_vexp (d : BitVec 5) (a : BitVec 5) (p : BitVec 4) (t : BitVec 2) (s : State) : exec (.vexp d a p t) s = execVexp d a p t s := rfl

@[simp] theorem exec_vtanh (d : BitVec 5) (a : BitVec 5) (p : BitVec 4) (t : BitVec 2) (s : State) : exec (.vtanh d a p t) s = execVtanh d a p t s := rfl

@[simp] theorem exec_vsigm (d : BitVec 5) (a : BitVec 5) (p : BitVec 4) (t : BitVec 2) (s : State) : exec (.vsigm d a p t) s = execVsigm d a p t s := rfl

@[simp] theorem exec_vgelu (d : BitVec 5) (a : BitVec 5) (p : BitVec 4) (t : BitVec 2) (s : State) : exec (.vgelu d a p t) s = execVgelu d a p t s := rfl

@[simp] theorem exec_vsilu (d : BitVec 5) (a : BitVec 5) (p : BitVec 4) (t : BitVec 2) (s : State) : exec (.vsilu d a p t) s = execVsilu d a p t s := rfl

@[simp] theorem exec_vcvt (d : BitVec 5) (a : BitVec 5) (g : BitVec 5) (p : BitVec 4) (t : BitVec 2) (s : State) : exec (.vcvt d a g p t) s = execVcvt d a g p t s := rfl

@[simp] theorem exec_vcvtr (d : BitVec 5) (a : BitVec 5) (m : BitVec 2) (g : BitVec 3) (p : BitVec 4) (t : BitVec 2) (s : State) : exec (.vcvtr d a m g p t) s = execVcvtr d a m g p t s := rfl

@[simp] theorem exec_vqmx (d : BitVec 5) (a : BitVec 5) (b : BitVec 5) (g : BitVec 4) (t : BitVec 2) (s : State) : exec (.vqmx d a b g t) s = execVqmx d a b g t s := rfl

@[simp] theorem exec_vdqmx (d : BitVec 5) (a : BitVec 5) (b : BitVec 5) (g : BitVec 4) (t : BitVec 2) (s : State) : exec (.vdqmx d a b g t) s = execVdqmx d a b g t s := rfl

@[simp] theorem exec_vperm (d : BitVec 5) (a : BitVec 5) (b : BitVec 5) (p : BitVec 4) (t : BitVec 2) (s : State) : exec (.vperm d a b p t) s = execVperm d a b p t s := rfl

@[simp] theorem exec_vshuf (d : BitVec 5) (a : BitVec 5) (b : BitVec 5) (p : BitVec 4) (t : BitVec 2) (s : State) : exec (.vshuf d a b p t) s = execVshuf d a b p t s := rfl

@[simp] theorem exec_vslide (d : BitVec 5) (a : BitVec 5) (b : BitVec 5) (p : BitVec 4) (t : BitVec 2) (s : State) : exec (.vslide d a b p t) s = execVslide d a b p t s := rfl

@[simp] theorem exec_vbcst (d : BitVec 5) (a : BitVec 5) (b : BitVec 5) (p : BitVec 4) (t : BitVec 2) (s : State) : exec (.vbcst d a b p t) s = execVbcst d a b p t s := rfl

@[simp] theorem exec_vins (d : BitVec 5) (a : BitVec 5) (b : BitVec 5) (t : BitVec 2) (s : State) : exec (.vins d a b t) s = execVins d a b t s := rfl

@[simp] theorem exec_vext (d : BitVec 5) (a : BitVec 5) (b : BitVec 5) (t : BitVec 2) (s : State) : exec (.vext d a b t) s = execVext d a b t s := rfl

@[simp] theorem exec_vcmpct (a : BitVec 5) (p : BitVec 4) (t : BitVec 2) (s : State) : exec (.vcmpct a p t) s = execVcmpct a p t s := rfl

@[simp] theorem exec_vcpop (d : BitVec 5) (p : BitVec 4) (t : BitVec 2) (s : State) : exec (.vcpop d p t) s = execVcpop d p t s := rfl

@[simp] theorem exec_vcflush (d : BitVec 5) (p : BitVec 4) (t : BitVec 2) (s : State) : exec (.vcflush d p t) s = execVcflush d p t s := rfl

@[simp] theorem exec_vrsum (d : BitVec 5) (a : BitVec 5) (p : BitVec 4) (t : BitVec 2) (s : State) : exec (.vrsum d a p t) s = execVrsum d a p t s := rfl

@[simp] theorem exec_vrmax (d : BitVec 5) (a : BitVec 5) (p : BitVec 4) (t : BitVec 2) (s : State) : exec (.vrmax d a p t) s = execVrmax d a p t s := rfl

@[simp] theorem exec_vrmin (d : BitVec 5) (a : BitVec 5) (p : BitVec 4) (t : BitVec 2) (s : State) : exec (.vrmin d a p t) s = execVrmin d a p t s := rfl

@[simp] theorem exec_vrand (d : BitVec 5) (a : BitVec 5) (p : BitVec 4) (t : BitVec 2) (s : State) : exec (.vrand d a p t) s = execVrand d a p t s := rfl

@[simp] theorem exec_vror (d : BitVec 5) (a : BitVec 5) (p : BitVec 4) (t : BitVec 2) (s : State) : exec (.vror d a p t) s = execVror d a p t s := rfl

@[simp] theorem exec_vdot (d : BitVec 5) (a : BitVec 5) (b : BitVec 5) (p : BitVec 4) (t : BitVec 2) (s : State) : exec (.vdot d a b p t) s = execVdot d a b p t s := rfl

@[simp] theorem exec_vscan (d : BitVec 5) (a : BitVec 5) (p : BitVec 4) (t : BitVec 2) (s : State) : exec (.vscan d a p t) s = execVscan d a p t s := rfl

@[simp] theorem exec_vpcnt (d : BitVec 5) (a : BitVec 5) (p : BitVec 4) (t : BitVec 2) (s : State) : exec (.vpcnt d a p t) s = execVpcnt d a p t s := rfl

@[simp] theorem exec_cbind (sc : BitVec 5) (p : BitVec 1) (d : BitVec 5) (s : State) : exec (.cbind sc p d) s = execCbind sc p d s := rfl

@[simp] theorem exec_cstart (r : BitVec 5) (sc : BitVec 5) (p : BitVec 1) (d : BitVec 5) (s : State) : exec (.cstart r sc p d) s = execCstart r sc p d s := rfl

@[simp] theorem exec_cjoin (sc : BitVec 5) (p : BitVec 1) (d : BitVec 5) (s : State) : exec (.cjoin sc p d) s = execCjoin sc p d s := rfl

@[simp] theorem exec_cquery (sc : BitVec 5) (p : BitVec 1) (d : BitVec 5) (s : State) : exec (.cquery sc p d) s = execCquery sc p d s := rfl

@[simp] theorem exec_cfence (p : BitVec 1) (d : BitVec 5) (s : State) : exec (.cfence p d) s = execCfence p d s := rfl

@[simp] theorem exec_cpark (p : BitVec 1) (d : BitVec 5) (s : State) : exec (.cpark p d) s = execCpark p d s := rfl

@[simp] theorem exec_ccancel (r : BitVec 5) (sc : BitVec 5) (p : BitVec 1) (d : BitVec 5) (s : State) : exec (.ccancel r sc p d) s = execCcancel r sc p d s := rfl

@[simp] theorem exec_cfree (p : BitVec 1) (d : BitVec 5) (s : State) : exec (.cfree p d) s = execCfree p d s := rfl

@[simp] theorem exec_csignal (r : BitVec 5) (sc : BitVec 5) (p : BitVec 1) (d : BitVec 5) (s : State) : exec (.csignal r sc p d) s = execCsignal r sc p d s := rfl

@[simp] theorem exec_cvers (sc : BitVec 5) (p : BitVec 1) (d : BitVec 5) (s : State) : exec (.cvers sc p d) s = execCvers sc p d s := rfl

@[simp] theorem exec_cfault (r : BitVec 5) (sc : BitVec 5) (p : BitVec 1) (d : BitVec 5) (s : State) : exec (.cfault r sc p d) s = execCfault r sc p d s := rfl

@[simp] theorem exec_hostFormInterrupt (hart : Nat) (s : State) : exec (.hostFormInterrupt hart) s = execHostFormInterrupt hart s := rfl

@[simp] theorem exec_blockingFormReturn (hart : Nat) (s : State) : exec (.blockingFormReturn hart) s = execBlockingFormReturn hart s := rfl

@[simp] theorem exec_cpsave (hart : Nat) (addr : Word) (s : State) : exec (.cpsave hart addr) s = execCpsave hart addr s := rfl

@[simp] theorem exec_cpload (hart : Nat) (addr : Word) (s : State) : exec (.cpload hart addr) s = execCpload hart addr s := rfl

@[simp] theorem exec_cpattn (hart : Nat) (rd : BitVec 5) (s : State) : exec (.cpattn hart rd) s = execCpattn hart rd s := rfl

@[simp] theorem exec_registerWrite (reg : RegName) (v : Word) (s : State) : exec (.registerWrite reg v) s = execRegisterWrite reg v s := rfl

@[simp] theorem exec_resultLand (u : Nat) (q : Seq) (s : State) : exec (.resultLand u q) s = execResultLand u q s := rfl

@[simp] theorem exec_dqoutForward (u : Nat) (q : Seq) (s : State) : exec (.dqoutForward u q) s = execDqoutForward u q s := rfl

@[simp] theorem exec_loadMissReturn (u : Nat) (q : Seq) (s : State) : exec (.loadMissReturn u q) s = execLoadMissReturn u q s := rfl

@[simp] theorem exec_storePerformed (u : Nat) (q : Seq) (s : State) : exec (.storePerformed u q) s = execStorePerformed u q s := rfl

@[simp] theorem exec_atomicPerformed (u : Nat) (q : Seq) (s : State) : exec (.atomicPerformed u q) s = execAtomicPerformed u q s := rfl

@[simp] theorem exec_barrierDepart (u : Nat) (cluster : Bool) (late : List Nat) (s : State) : exec (.barrierDepart u cluster late) s = execBarrierDepart u cluster late s := rfl

@[simp] theorem exec_waitvRecheck (u : Nat) (q : Seq) (s : State) : exec (.waitvRecheck u q) s = execWaitvRecheck u q s := rfl

@[simp] theorem exec_rettReturn (u : Nat) (q : Seq) (s : State) : exec (.rettReturn u q) s = execRettReturn u q s := rfl

@[simp] theorem exec_sequencerExit (u : Nat) (q : Seq) (s : State) : exec (.sequencerExit u q) s = execSequencerExit u q s := rfl

@[simp] theorem exec_engineCommandStart (core : Nat) (eng : Eng) (s : State) : exec (.engineCommandStart core eng) s = execEngineCommandStart core eng s := rfl

@[simp] theorem exec_engineCommandComplete (core : Nat) (eng : Eng) (s : State) : exec (.engineCommandComplete core eng) s = execEngineCommandComplete core eng s := rfl

@[simp] theorem exec_engineCommandFail (core : Nat) (eng : Eng) (s : State) : exec (.engineCommandFail core eng) s = execEngineCommandFail core eng s := rfl

@[simp] theorem exec_relocationTake (core : Nat) (eng : Eng) (u : Nat) (q : Seq) (s : State) : exec (.relocationTake core eng u q) s = execRelocationTake core eng u q s := rfl

@[simp] theorem exec_engineFaultWaitResume (core : Nat) (eng : Eng) (s : State) : exec (.engineFaultWaitResume core eng) s = execEngineFaultWaitResume core eng s := rfl

@[simp] theorem exec_pressArbitrate (cl : Nat) (s : State) : exec (.pressArbitrate cl) s = execPressArbitrate cl s := rfl

@[simp] theorem exec_pressReloadComplete (cl : Nat) (s : State) : exec (.pressReloadComplete cl) s = execPressReloadComplete cl s := rfl

@[simp] theorem exec_pressCommandStart (cl : Nat) (s : State) : exec (.pressCommandStart cl) s = execPressCommandStart cl s := rfl

@[simp] theorem exec_pressCommandComplete (cl : Nat) (s : State) : exec (.pressCommandComplete cl) s = execPressCommandComplete cl s := rfl

@[simp] theorem exec_pressGrantCyclesExpire (cl : Nat) (s : State) : exec (.pressGrantCyclesExpire cl) s = execPressGrantCyclesExpire cl s := rfl

@[simp] theorem exec_collectiveContribution (die : Nat) (c : Contribution) (s : State) : exec (.collectiveContribution die c) s = execCollectiveContribution die c s := rfl

@[simp] theorem exec_collectiveCommit (die : Nat) (idx : Nat) (late : Bool) (s : State) : exec (.collectiveCommit die idx late) s = execCollectiveCommit die idx late s := rfl

@[simp] theorem exec_collectiveTimeout (die : Nat) (idx : Nat) (s : State) : exec (.collectiveTimeout die idx) s = execCollectiveTimeout die idx s := rfl

@[simp] theorem exec_walkComplete (die : Nat) (idx : Nat) (s : State) : exec (.walkComplete die idx) s = execWalkComplete die idx s := rfl

@[simp] theorem exec_fqtailWrite (die : Nat) (v : Word) (s : State) : exec (.fqtailWrite die v) s = execFqtailWrite die v s := rfl

@[simp] theorem exec_fqcfgWrite (die : Nat) (v : Word) (s : State) : exec (.fqcfgWrite die v) s = execFqcfgWrite die v s := rfl

@[simp] theorem exec_fqrplRetry (die : Nat) (w : Word) (s : State) : exec (.fqrplRetry die w) s = execFqrplRetry die w s := rfl

@[simp] theorem exec_fqrplReject (die : Nat) (w : Word) (s : State) : exec (.fqrplReject die w) s = execFqrplReject die w s := rfl

@[simp] theorem exec_fqrplTerminate (die : Nat) (w : Word) (s : State) : exec (.fqrplTerminate die w) s = execFqrplTerminate die w s := rfl

@[simp] theorem exec_sfenceVma (hart : Nat) (addr : Option Word) (space : FenceKind × Option Word) (s : State) : exec (.sfenceVma hart addr space) s = execSfenceVma hart addr space s := rfl

@[simp] theorem exec_leesSpill (agent : Agent) (n : Nat) (s : State) : exec (.leesSpill agent n) s = execLeesSpill agent n s := rfl

@[simp] theorem exec_stageFlush (u : Nat) (level : Nat) (s : State) : exec (.stageFlush u level) s = execStageFlush u level s := rfl

@[simp] theorem exec_hartDeviceRace (hart : Nat) (va : Word) (write : Bool) (s : State) : exec (.hartDeviceRace hart va write) s = execHartDeviceRace hart va write s := rfl

@[simp] theorem exec_schedTick (now : Nat) (s : State) : exec (.schedTick now) s = execSchedTick now s := rfl

@[simp] theorem exec_park (u : Nat) (s : State) : exec (.park u) s = execPark u s := rfl

@[simp] theorem exec_unpark (u : Nat) (places : List UnitPlace) (s : State) : exec (.unpark u places) s = execUnpark u places s := rfl

@[simp] theorem exec_launchPlace (k : NodeKey) (places : List UnitPlace) (params : Word) (s : State) : exec (.launchPlace k places params) s = execLaunchPlace k places params s := rfl

@[simp] theorem exec_nodeComplete (k : NodeKey) (s : State) : exec (.nodeComplete k) s = execNodeComplete k s := rfl

@[simp] theorem exec_waitEvaluate (k : NodeKey) (s : State) : exec (.waitEvaluate k) s = execWaitEvaluate k s := rfl

@[simp] theorem exec_signalNode (k : NodeKey) (s : State) : exec (.signalNode k) s = execSignalNode k s := rfl

@[simp] theorem exec_copyNodeComplete (k : NodeKey) (s : State) : exec (.copyNodeComplete k) s = execCopyNodeComplete k s := rfl

@[simp] theorem exec_phasePeriodTimer (cont job : Nat) (now : Nat) (s : State) : exec (.phasePeriodTimer cont job now) s = execPhasePeriodTimer cont job now s := rfl

@[simp] theorem exec_agingExpire (k : NodeKey) (now : Nat) (s : State) : exec (.agingExpire k now) s = execAgingExpire k now s := rfl

@[simp] theorem exec_energyEstimateTick (now : Nat) (s : State) : exec (.energyEstimateTick now) s = execEnergyEstimateTick now s := rfl

@[simp] theorem exec_refillBoundary (cont : Nat) (now : Nat) (s : State) : exec (.refillBoundary cont now) s = execRefillBoundary cont now s := rfl

@[simp] theorem exec_arbiterPeriod (now : Nat) (s : State) : exec (.arbiterPeriod now) s = execArbiterPeriod now s := rfl

@[simp] theorem exec_biasMoveComplete (cl : Nat) (s : State) : exec (.biasMoveComplete cl) s = execBiasMoveComplete cl s := rfl

@[simp] theorem exec_thermalHeadroomLost (cl : Nat) (s : State) : exec (.thermalHeadroomLost cl) s = execThermalHeadroomLost cl s := rfl

@[simp] theorem exec_thermalHeadroomRegained (cl : Nat) (s : State) : exec (.thermalHeadroomRegained cl) s = execThermalHeadroomRegained cl s := rfl

@[simp] theorem exec_thermalStepDown (cl : Nat) (s : State) : exec (.thermalStepDown cl) s = execThermalStepDown cl s := rfl

@[simp] theorem exec_ballastStart (die : Nat) (s : State) : exec (.ballastStart die) s = execBallastStart die s := rfl

@[simp] theorem exec_ballastShed (die : Nat) (s : State) : exec (.ballastShed die) s = execBallastShed die s := rfl

@[simp] theorem exec_trip (die : Nat) (limit : Nat) (now : Nat) (s : State) : exec (.trip die limit now) s = execTrip die limit now s := rfl

@[simp] theorem exec_breachReceive (member : Nat) (limit : Nat) (now : Nat) (s : State) : exec (.breachReceive member limit now) s = execBreachReceive member limit now s := rfl

@[simp] theorem exec_ceilingStamp (now : Nat) (s : State) : exec (.ceilingStamp now) s = execCeilingStamp now s := rfl

@[simp] theorem exec_heartbeatSend (now : Nat) (s : State) : exec (.heartbeatSend now) s = execHeartbeatSend now s := rfl

@[simp] theorem exec_heartbeatReceive (hb : Heartbeat) (now : Nat) (s : State) : exec (.heartbeatReceive hb now) s = execHeartbeatReceive hb now s := rfl

@[simp] theorem exec_heartbeatMiss (member : Nat) (now : Nat) (s : State) : exec (.heartbeatMiss member now) s = execHeartbeatMiss member now s := rfl

@[simp] theorem exec_memberEvict (member : Nat) (now : Nat) (s : State) : exec (.memberEvict member now) s = execMemberEvict member now s := rfl

@[simp] theorem exec_leaveComplete (now : Nat) (s : State) : exec (.leaveComplete now) s = execLeaveComplete now s := rfl

@[simp] theorem exec_groupLinkUp (index : Nat) (peers : List Heartbeat) (version : Nat) (s : State) : exec (.groupLinkUp index peers version) s = execGroupLinkUp index peers version s := rfl

@[simp] theorem exec_groupVersionChange (version : Nat) (now : Nat) (s : State) : exec (.groupVersionChange version now) s = execGroupVersionChange version now s := rfl

@[simp] theorem exec_linkBringup (port : Nat) (lo hi : Nat) (s : State) : exec (.linkBringup port lo hi) s = execLinkBringup port lo hi s := rfl

@[simp] theorem exec_flitReceive (port : Nat) (flit : Flit) (s : State) : exec (.flitReceive port flit) s = execFlitReceive port flit s := rfl

@[simp] theorem exec_pauseReceive (port : Nat) (cls : Nat) (s : State) : exec (.pauseReceive port cls) s = execPauseReceive port cls s := rfl

@[simp] theorem exec_resumeReceive (port : Nat) (cls : Nat) (s : State) : exec (.resumeReceive port cls) s = execResumeReceive port cls s := rfl

@[simp] theorem exec_admissionWindow (port : Nat) (now : Nat) (s : State) : exec (.admissionWindow port now) s = execAdmissionWindow port now s := rfl

@[simp] theorem exec_moduleReset (s : State) : exec .moduleReset s = execModuleReset s := rfl

@[simp] theorem exec_watchdogExpire (s : State) : exec .watchdogExpire s = execWatchdogExpire s := rfl

@[simp] theorem exec_getver (major : Nat) (s : State) : exec (.getver major) s = execGetver major s := rfl

@[simp] theorem exec_slotwr (piece : SlotPiece) (s : State) : exec (.slotwr piece) s = execSlotwr piece s := rfl

@[simp] theorem exec_slotact (s : State) : exec .slotact s = execSlotact s := rfl

@[simp] theorem exec_confirm (atDeadline : Bool) (s : State) : exec (.confirm atDeadline) s = execConfirm atDeadline s := rfl

@[simp] theorem exec_wdset (seconds : Nat) (s : State) : exec (.wdset seconds) s = execWdset seconds s := rfl

@[simp] theorem exec_mext (reg : Nat) (digest : List Byte) (s : State) : exec (.mext reg digest) s = execMext reg digest s := rfl

@[simp] theorem exec_leescfg (base size max : Nat) (s : State) : exec (.leescfg base size max) s = execLeescfg base size max s := rfl

@[simp] theorem exec_schcfg (base size : Nat) (s : State) : exec (.schcfg base size) s = execSchcfg base size s := rfl

@[simp] theorem exec_enset (cont : Nat) (setting : Word) (s : State) : exec (.enset cont setting) s = execEnset cont setting s := rfl

@[simp] theorem exec_capset (cap : Nat) (floors : List Nat) (s : State) : exec (.capset cap floors) s = execCapset cap floors s := rfl

@[simp] theorem exec_pwrstat (clear : Word) (s : State) : exec (.pwrstat clear) s = execPwrstat clear s := rfl

@[simp] theorem exec_qset (q : Nat) (s : State) : exec (.qset q) s = execQset q s := rfl

@[simp] theorem exec_layset (cls : Nat) (params : Word) (s : State) : exec (.layset cls params) s = execLayset cls params s := rfl

@[simp] theorem exec_csetprog (set : Nat) (ranks : List Nat) (stamp : BitVec 32) (s : State) : exec (.csetprog set ranks stamp) s = execCsetprog set ranks stamp s := rfl

@[simp] theorem exec_partcfg (part : Nat) (clusters : List Nat) (s : State) : exec (.partcfg part clusters) s = execPartcfg part clusters s := rfl

@[simp] theorem exec_getVersion (via : SpdmVia) (s : State) : exec (.getVersion via) s = execGetVersion via s := rfl

@[simp] theorem exec_getCapabilities (via : SpdmVia) (s : State) : exec (.getCapabilities via) s = execGetCapabilities via s := rfl

@[simp] theorem exec_negotiateAlgorithms (via : SpdmVia) (s : State) : exec (.negotiateAlgorithms via) s = execNegotiateAlgorithms via s := rfl

@[simp] theorem exec_getDigests (via : SpdmVia) (s : State) : exec (.getDigests via) s = execGetDigests via s := rfl

@[simp] theorem exec_getCertificate (via : SpdmVia) (s : State) : exec (.getCertificate via) s = execGetCertificate via s := rfl

@[simp] theorem exec_challenge (via : SpdmVia) (s : State) : exec (.challenge via) s = execChallenge via s := rfl

@[simp] theorem exec_getMeasurements (via : SpdmVia) (block : Nat) (s : State) : exec (.getMeasurements via block) s = execGetMeasurements via block s := rfl

@[simp] theorem exec_keyExchange (via : SpdmVia) (part : Option Nat) (s : State) : exec (.keyExchange via part) s = execKeyExchange via part s := rfl

@[simp] theorem exec_finish (via : SpdmVia) (s : State) : exec (.finish via) s = execFinish via s := rfl

@[simp] theorem exec_endSession (via : SpdmVia) (s : State) : exec (.endSession via) s = execEndSession via s := rfl

@[simp] theorem exec_tdispLock (part : Nat) (s : State) : exec (.tdispLock part) s = execTdispLock part s := rfl

@[simp] theorem exec_tdispLeaveRun (part : Nat) (s : State) : exec (.tdispLeaveRun part) s = execTdispLeaveRun part s := rfl

@[simp] theorem exec_spdmSessionExpire (part : Nat) (s : State) : exec (.spdmSessionExpire part) s = execSpdmSessionExpire part s := rfl

@[simp] theorem exec_tdispUnlock (part : Nat) (s : State) : exec (.tdispUnlock part) s = execTdispUnlock part s := rfl

@[simp] theorem exec_hartAccess (hart : Nat) (acc : HartAcc) (s : State) : exec (.hartAccess hart acc) s = execHartAccess hart acc s := rfl

@[simp] theorem exec_externalHostAccess (acc : ExtAcc) (s : State) : exec (.externalHostAccess acc) s = execExternalHostAccess acc s := rfl

@[simp] theorem exec_tdispRun (part : Nat) (s : State) : exec (.tdispRun part) s = execTdispRun part s := rfl

end Sys2Proof.Machine
end

