-- ==== Sys2Proof/Laws/Encoding.lean ====
section
/-!
SUPPORT. The fields of a word built in a format read back as they were put in (R63), and the same for a host form (R85).
-/

namespace Sys2Proof

theorem wordR_bit (major : BitVec 5) (rd : BitVec 6) (ra : BitVec 6) (rb : BitVec 6) (fn : BitVec 7) (tk : BitVec 2) (i : Nat) :
    (wordR major rd ra rb fn tk).getLsbD i = BitVec.getLsbD (w := 5+6+6+6+7+2) (major ++ rd ++ ra ++ rb ++ fn ++ tk) i := rfl

@[simp] theorem wordR_major (major : BitVec 5) (rd : BitVec 6) (ra : BitVec 6) (rb : BitVec 6) (fn : BitVec 7) (tk : BitVec 2) :
    (wordR major rd ra rb fn tk).extractLsb' 27 5 = major := by
  ext i h
  have hi : i < 5 := h
  rw [BitVec.getElem_extractLsb', wordR_bit]
  simp only [BitVec.getLsbD_append]
  simp only [show ¬ (27 + i < 2) by omega, show ¬ (27 + i - 2 < 7) by omega, show ¬ (27 + i - 2 - 7 < 6) by omega, show ¬ (27 + i - 2 - 7 - 6 < 6) by omega, show ¬ (27 + i - 2 - 7 - 6 - 6 < 6) by omega, if_false]
  rw [show 27 + i - 2 - 7 - 6 - 6 - 6 = i by omega]
  exact BitVec.getLsbD_eq_getElem hi

@[simp] theorem wordR_rd (major : BitVec 5) (rd : BitVec 6) (ra : BitVec 6) (rb : BitVec 6) (fn : BitVec 7) (tk : BitVec 2) :
    (wordR major rd ra rb fn tk).extractLsb' 21 6 = rd := by
  ext i h
  have hi : i < 6 := h
  rw [BitVec.getElem_extractLsb', wordR_bit]
  simp only [BitVec.getLsbD_append]
  simp only [show ¬ (21 + i < 2) by omega, show ¬ (21 + i - 2 < 7) by omega, show ¬ (21 + i - 2 - 7 < 6) by omega, show ¬ (21 + i - 2 - 7 - 6 < 6) by omega, if_false]
  rw [show 21 + i - 2 - 7 - 6 - 6 = i by omega, if_pos hi]
  exact BitVec.getLsbD_eq_getElem hi

@[simp] theorem wordR_ra (major : BitVec 5) (rd : BitVec 6) (ra : BitVec 6) (rb : BitVec 6) (fn : BitVec 7) (tk : BitVec 2) :
    (wordR major rd ra rb fn tk).extractLsb' 15 6 = ra := by
  ext i h
  have hi : i < 6 := h
  rw [BitVec.getElem_extractLsb', wordR_bit]
  simp only [BitVec.getLsbD_append]
  simp only [show ¬ (15 + i < 2) by omega, show ¬ (15 + i - 2 < 7) by omega, show ¬ (15 + i - 2 - 7 < 6) by omega, if_false]
  rw [show 15 + i - 2 - 7 - 6 = i by omega, if_pos hi]
  exact BitVec.getLsbD_eq_getElem hi

@[simp] theorem wordR_rb (major : BitVec 5) (rd : BitVec 6) (ra : BitVec 6) (rb : BitVec 6) (fn : BitVec 7) (tk : BitVec 2) :
    (wordR major rd ra rb fn tk).extractLsb' 9 6 = rb := by
  ext i h
  have hi : i < 6 := h
  rw [BitVec.getElem_extractLsb', wordR_bit]
  simp only [BitVec.getLsbD_append]
  simp only [show ¬ (9 + i < 2) by omega, show ¬ (9 + i - 2 < 7) by omega, if_false]
  rw [show 9 + i - 2 - 7 = i by omega, if_pos hi]
  exact BitVec.getLsbD_eq_getElem hi

@[simp] theorem wordR_fn (major : BitVec 5) (rd : BitVec 6) (ra : BitVec 6) (rb : BitVec 6) (fn : BitVec 7) (tk : BitVec 2) :
    (wordR major rd ra rb fn tk).extractLsb' 2 7 = fn := by
  ext i h
  have hi : i < 7 := h
  rw [BitVec.getElem_extractLsb', wordR_bit]
  simp only [BitVec.getLsbD_append]
  simp only [show ¬ (2 + i < 2) by omega, if_false]
  rw [show 2 + i - 2 = i by omega, if_pos hi]
  exact BitVec.getLsbD_eq_getElem hi

@[simp] theorem wordR_tk (major : BitVec 5) (rd : BitVec 6) (ra : BitVec 6) (rb : BitVec 6) (fn : BitVec 7) (tk : BitVec 2) :
    (wordR major rd ra rb fn tk).extractLsb' 0 2 = tk := by
  ext i h
  have hi : i < 2 := h
  rw [BitVec.getElem_extractLsb', wordR_bit]
  simp only [BitVec.getLsbD_append]
  rw [Nat.zero_add, if_pos hi]
  exact BitVec.getLsbD_eq_getElem hi

theorem wordI_bit (major : BitVec 5) (rd : BitVec 6) (ra : BitVec 6) (fn : BitVec 3) (imm : BitVec 10) (tk : BitVec 2) (i : Nat) :
    (wordI major rd ra fn imm tk).getLsbD i = BitVec.getLsbD (w := 5+6+6+3+10+2) (major ++ rd ++ ra ++ fn ++ imm ++ tk) i := rfl

@[simp] theorem wordI_major (major : BitVec 5) (rd : BitVec 6) (ra : BitVec 6) (fn : BitVec 3) (imm : BitVec 10) (tk : BitVec 2) :
    (wordI major rd ra fn imm tk).extractLsb' 27 5 = major := by
  ext i h
  have hi : i < 5 := h
  rw [BitVec.getElem_extractLsb', wordI_bit]
  simp only [BitVec.getLsbD_append]
  simp only [show ¬ (27 + i < 2) by omega, show ¬ (27 + i - 2 < 10) by omega, show ¬ (27 + i - 2 - 10 < 3) by omega, show ¬ (27 + i - 2 - 10 - 3 < 6) by omega, show ¬ (27 + i - 2 - 10 - 3 - 6 < 6) by omega, if_false]
  rw [show 27 + i - 2 - 10 - 3 - 6 - 6 = i by omega]
  exact BitVec.getLsbD_eq_getElem hi

@[simp] theorem wordI_rd (major : BitVec 5) (rd : BitVec 6) (ra : BitVec 6) (fn : BitVec 3) (imm : BitVec 10) (tk : BitVec 2) :
    (wordI major rd ra fn imm tk).extractLsb' 21 6 = rd := by
  ext i h
  have hi : i < 6 := h
  rw [BitVec.getElem_extractLsb', wordI_bit]
  simp only [BitVec.getLsbD_append]
  simp only [show ¬ (21 + i < 2) by omega, show ¬ (21 + i - 2 < 10) by omega, show ¬ (21 + i - 2 - 10 < 3) by omega, show ¬ (21 + i - 2 - 10 - 3 < 6) by omega, if_false]
  rw [show 21 + i - 2 - 10 - 3 - 6 = i by omega, if_pos hi]
  exact BitVec.getLsbD_eq_getElem hi

@[simp] theorem wordI_ra (major : BitVec 5) (rd : BitVec 6) (ra : BitVec 6) (fn : BitVec 3) (imm : BitVec 10) (tk : BitVec 2) :
    (wordI major rd ra fn imm tk).extractLsb' 15 6 = ra := by
  ext i h
  have hi : i < 6 := h
  rw [BitVec.getElem_extractLsb', wordI_bit]
  simp only [BitVec.getLsbD_append]
  simp only [show ¬ (15 + i < 2) by omega, show ¬ (15 + i - 2 < 10) by omega, show ¬ (15 + i - 2 - 10 < 3) by omega, if_false]
  rw [show 15 + i - 2 - 10 - 3 = i by omega, if_pos hi]
  exact BitVec.getLsbD_eq_getElem hi

@[simp] theorem wordI_fn (major : BitVec 5) (rd : BitVec 6) (ra : BitVec 6) (fn : BitVec 3) (imm : BitVec 10) (tk : BitVec 2) :
    (wordI major rd ra fn imm tk).extractLsb' 12 3 = fn := by
  ext i h
  have hi : i < 3 := h
  rw [BitVec.getElem_extractLsb', wordI_bit]
  simp only [BitVec.getLsbD_append]
  simp only [show ¬ (12 + i < 2) by omega, show ¬ (12 + i - 2 < 10) by omega, if_false]
  rw [show 12 + i - 2 - 10 = i by omega, if_pos hi]
  exact BitVec.getLsbD_eq_getElem hi

@[simp] theorem wordI_imm (major : BitVec 5) (rd : BitVec 6) (ra : BitVec 6) (fn : BitVec 3) (imm : BitVec 10) (tk : BitVec 2) :
    (wordI major rd ra fn imm tk).extractLsb' 2 10 = imm := by
  ext i h
  have hi : i < 10 := h
  rw [BitVec.getElem_extractLsb', wordI_bit]
  simp only [BitVec.getLsbD_append]
  simp only [show ¬ (2 + i < 2) by omega, if_false]
  rw [show 2 + i - 2 = i by omega, if_pos hi]
  exact BitVec.getLsbD_eq_getElem hi

@[simp] theorem wordI_tk (major : BitVec 5) (rd : BitVec 6) (ra : BitVec 6) (fn : BitVec 3) (imm : BitVec 10) (tk : BitVec 2) :
    (wordI major rd ra fn imm tk).extractLsb' 0 2 = tk := by
  ext i h
  have hi : i < 2 := h
  rw [BitVec.getElem_extractLsb', wordI_bit]
  simp only [BitVec.getLsbD_append]
  rw [Nat.zero_add, if_pos hi]
  exact BitVec.getLsbD_eq_getElem hi

theorem wordU_bit (major : BitVec 5) (rd : BitVec 6) (imm : BitVec 19) (tk : BitVec 2) (i : Nat) :
    (wordU major rd imm tk).getLsbD i = BitVec.getLsbD (w := 5+6+19+2) (major ++ rd ++ imm ++ tk) i := rfl

@[simp] theorem wordU_major (major : BitVec 5) (rd : BitVec 6) (imm : BitVec 19) (tk : BitVec 2) :
    (wordU major rd imm tk).extractLsb' 27 5 = major := by
  ext i h
  have hi : i < 5 := h
  rw [BitVec.getElem_extractLsb', wordU_bit]
  simp only [BitVec.getLsbD_append]
  simp only [show ¬ (27 + i < 2) by omega, show ¬ (27 + i - 2 < 19) by omega, show ¬ (27 + i - 2 - 19 < 6) by omega, if_false]
  rw [show 27 + i - 2 - 19 - 6 = i by omega]
  exact BitVec.getLsbD_eq_getElem hi

@[simp] theorem wordU_rd (major : BitVec 5) (rd : BitVec 6) (imm : BitVec 19) (tk : BitVec 2) :
    (wordU major rd imm tk).extractLsb' 21 6 = rd := by
  ext i h
  have hi : i < 6 := h
  rw [BitVec.getElem_extractLsb', wordU_bit]
  simp only [BitVec.getLsbD_append]
  simp only [show ¬ (21 + i < 2) by omega, show ¬ (21 + i - 2 < 19) by omega, if_false]
  rw [show 21 + i - 2 - 19 = i by omega, if_pos hi]
  exact BitVec.getLsbD_eq_getElem hi

@[simp] theorem wordU_imm (major : BitVec 5) (rd : BitVec 6) (imm : BitVec 19) (tk : BitVec 2) :
    (wordU major rd imm tk).extractLsb' 2 19 = imm := by
  ext i h
  have hi : i < 19 := h
  rw [BitVec.getElem_extractLsb', wordU_bit]
  simp only [BitVec.getLsbD_append]
  simp only [show ¬ (2 + i < 2) by omega, if_false]
  rw [show 2 + i - 2 = i by omega, if_pos hi]
  exact BitVec.getLsbD_eq_getElem hi

@[simp] theorem wordU_tk (major : BitVec 5) (rd : BitVec 6) (imm : BitVec 19) (tk : BitVec 2) :
    (wordU major rd imm tk).extractLsb' 0 2 = tk := by
  ext i h
  have hi : i < 2 := h
  rw [BitVec.getElem_extractLsb', wordU_bit]
  simp only [BitVec.getLsbD_append]
  rw [Nat.zero_add, if_pos hi]
  exact BitVec.getLsbD_eq_getElem hi

theorem wordM_bit (major : BitVec 5) (rd : BitVec 6) (ra : BitVec 6) (off : BitVec 11) (sz : BitVec 2) (tk : BitVec 2) (i : Nat) :
    (wordM major rd ra off sz tk).getLsbD i = BitVec.getLsbD (w := 5+6+6+11+2+2) (major ++ rd ++ ra ++ off ++ sz ++ tk) i := rfl

@[simp] theorem wordM_major (major : BitVec 5) (rd : BitVec 6) (ra : BitVec 6) (off : BitVec 11) (sz : BitVec 2) (tk : BitVec 2) :
    (wordM major rd ra off sz tk).extractLsb' 27 5 = major := by
  ext i h
  have hi : i < 5 := h
  rw [BitVec.getElem_extractLsb', wordM_bit]
  simp only [BitVec.getLsbD_append]
  simp only [show ¬ (27 + i < 2) by omega, show ¬ (27 + i - 2 < 2) by omega, show ¬ (27 + i - 2 - 2 < 11) by omega, show ¬ (27 + i - 2 - 2 - 11 < 6) by omega, show ¬ (27 + i - 2 - 2 - 11 - 6 < 6) by omega, if_false]
  rw [show 27 + i - 2 - 2 - 11 - 6 - 6 = i by omega]
  exact BitVec.getLsbD_eq_getElem hi

@[simp] theorem wordM_rd (major : BitVec 5) (rd : BitVec 6) (ra : BitVec 6) (off : BitVec 11) (sz : BitVec 2) (tk : BitVec 2) :
    (wordM major rd ra off sz tk).extractLsb' 21 6 = rd := by
  ext i h
  have hi : i < 6 := h
  rw [BitVec.getElem_extractLsb', wordM_bit]
  simp only [BitVec.getLsbD_append]
  simp only [show ¬ (21 + i < 2) by omega, show ¬ (21 + i - 2 < 2) by omega, show ¬ (21 + i - 2 - 2 < 11) by omega, show ¬ (21 + i - 2 - 2 - 11 < 6) by omega, if_false]
  rw [show 21 + i - 2 - 2 - 11 - 6 = i by omega, if_pos hi]
  exact BitVec.getLsbD_eq_getElem hi

@[simp] theorem wordM_ra (major : BitVec 5) (rd : BitVec 6) (ra : BitVec 6) (off : BitVec 11) (sz : BitVec 2) (tk : BitVec 2) :
    (wordM major rd ra off sz tk).extractLsb' 15 6 = ra := by
  ext i h
  have hi : i < 6 := h
  rw [BitVec.getElem_extractLsb', wordM_bit]
  simp only [BitVec.getLsbD_append]
  simp only [show ¬ (15 + i < 2) by omega, show ¬ (15 + i - 2 < 2) by omega, show ¬ (15 + i - 2 - 2 < 11) by omega, if_false]
  rw [show 15 + i - 2 - 2 - 11 = i by omega, if_pos hi]
  exact BitVec.getLsbD_eq_getElem hi

@[simp] theorem wordM_off (major : BitVec 5) (rd : BitVec 6) (ra : BitVec 6) (off : BitVec 11) (sz : BitVec 2) (tk : BitVec 2) :
    (wordM major rd ra off sz tk).extractLsb' 4 11 = off := by
  ext i h
  have hi : i < 11 := h
  rw [BitVec.getElem_extractLsb', wordM_bit]
  simp only [BitVec.getLsbD_append]
  simp only [show ¬ (4 + i < 2) by omega, show ¬ (4 + i - 2 < 2) by omega, if_false]
  rw [show 4 + i - 2 - 2 = i by omega, if_pos hi]
  exact BitVec.getLsbD_eq_getElem hi

@[simp] theorem wordM_sz (major : BitVec 5) (rd : BitVec 6) (ra : BitVec 6) (off : BitVec 11) (sz : BitVec 2) (tk : BitVec 2) :
    (wordM major rd ra off sz tk).extractLsb' 2 2 = sz := by
  ext i h
  have hi : i < 2 := h
  rw [BitVec.getElem_extractLsb', wordM_bit]
  simp only [BitVec.getLsbD_append]
  simp only [show ¬ (2 + i < 2) by omega, if_false]
  rw [show 2 + i - 2 = i by omega, if_pos hi]
  exact BitVec.getLsbD_eq_getElem hi

@[simp] theorem wordM_tk (major : BitVec 5) (rd : BitVec 6) (ra : BitVec 6) (off : BitVec 11) (sz : BitVec 2) (tk : BitVec 2) :
    (wordM major rd ra off sz tk).extractLsb' 0 2 = tk := by
  ext i h
  have hi : i < 2 := h
  rw [BitVec.getElem_extractLsb', wordM_bit]
  simp only [BitVec.getLsbD_append]
  rw [Nat.zero_add, if_pos hi]
  exact BitVec.getLsbD_eq_getElem hi

theorem wordB_bit (major : BitVec 5) (cond : BitVec 4) (ra : BitVec 6) (off : BitVec 15) (tk : BitVec 2) (i : Nat) :
    (wordB major cond ra off tk).getLsbD i = BitVec.getLsbD (w := 5+4+6+15+2) (major ++ cond ++ ra ++ off ++ tk) i := rfl

@[simp] theorem wordB_major (major : BitVec 5) (cond : BitVec 4) (ra : BitVec 6) (off : BitVec 15) (tk : BitVec 2) :
    (wordB major cond ra off tk).extractLsb' 27 5 = major := by
  ext i h
  have hi : i < 5 := h
  rw [BitVec.getElem_extractLsb', wordB_bit]
  simp only [BitVec.getLsbD_append]
  simp only [show ¬ (27 + i < 2) by omega, show ¬ (27 + i - 2 < 15) by omega, show ¬ (27 + i - 2 - 15 < 6) by omega, show ¬ (27 + i - 2 - 15 - 6 < 4) by omega, if_false]
  rw [show 27 + i - 2 - 15 - 6 - 4 = i by omega]
  exact BitVec.getLsbD_eq_getElem hi

@[simp] theorem wordB_cond (major : BitVec 5) (cond : BitVec 4) (ra : BitVec 6) (off : BitVec 15) (tk : BitVec 2) :
    (wordB major cond ra off tk).extractLsb' 23 4 = cond := by
  ext i h
  have hi : i < 4 := h
  rw [BitVec.getElem_extractLsb', wordB_bit]
  simp only [BitVec.getLsbD_append]
  simp only [show ¬ (23 + i < 2) by omega, show ¬ (23 + i - 2 < 15) by omega, show ¬ (23 + i - 2 - 15 < 6) by omega, if_false]
  rw [show 23 + i - 2 - 15 - 6 = i by omega, if_pos hi]
  exact BitVec.getLsbD_eq_getElem hi

@[simp] theorem wordB_ra (major : BitVec 5) (cond : BitVec 4) (ra : BitVec 6) (off : BitVec 15) (tk : BitVec 2) :
    (wordB major cond ra off tk).extractLsb' 17 6 = ra := by
  ext i h
  have hi : i < 6 := h
  rw [BitVec.getElem_extractLsb', wordB_bit]
  simp only [BitVec.getLsbD_append]
  simp only [show ¬ (17 + i < 2) by omega, show ¬ (17 + i - 2 < 15) by omega, if_false]
  rw [show 17 + i - 2 - 15 = i by omega, if_pos hi]
  exact BitVec.getLsbD_eq_getElem hi

@[simp] theorem wordB_off (major : BitVec 5) (cond : BitVec 4) (ra : BitVec 6) (off : BitVec 15) (tk : BitVec 2) :
    (wordB major cond ra off tk).extractLsb' 2 15 = off := by
  ext i h
  have hi : i < 15 := h
  rw [BitVec.getElem_extractLsb', wordB_bit]
  simp only [BitVec.getLsbD_append]
  simp only [show ¬ (2 + i < 2) by omega, if_false]
  rw [show 2 + i - 2 = i by omega, if_pos hi]
  exact BitVec.getLsbD_eq_getElem hi

@[simp] theorem wordB_tk (major : BitVec 5) (cond : BitVec 4) (ra : BitVec 6) (off : BitVec 15) (tk : BitVec 2) :
    (wordB major cond ra off tk).extractLsb' 0 2 = tk := by
  ext i h
  have hi : i < 2 := h
  rw [BitVec.getElem_extractLsb', wordB_bit]
  simp only [BitVec.getLsbD_append]
  rw [Nat.zero_add, if_pos hi]
  exact BitVec.getLsbD_eq_getElem hi

theorem wordJ_bit (major : BitVec 5) (off : BitVec 25) (tk : BitVec 2) (i : Nat) :
    (wordJ major off tk).getLsbD i = BitVec.getLsbD (w := 5+25+2) (major ++ off ++ tk) i := rfl

@[simp] theorem wordJ_major (major : BitVec 5) (off : BitVec 25) (tk : BitVec 2) :
    (wordJ major off tk).extractLsb' 27 5 = major := by
  ext i h
  have hi : i < 5 := h
  rw [BitVec.getElem_extractLsb', wordJ_bit]
  simp only [BitVec.getLsbD_append]
  simp only [show ¬ (27 + i < 2) by omega, show ¬ (27 + i - 2 < 25) by omega, if_false]
  rw [show 27 + i - 2 - 25 = i by omega]
  exact BitVec.getLsbD_eq_getElem hi

@[simp] theorem wordJ_off (major : BitVec 5) (off : BitVec 25) (tk : BitVec 2) :
    (wordJ major off tk).extractLsb' 2 25 = off := by
  ext i h
  have hi : i < 25 := h
  rw [BitVec.getElem_extractLsb', wordJ_bit]
  simp only [BitVec.getLsbD_append]
  simp only [show ¬ (2 + i < 2) by omega, if_false]
  rw [show 2 + i - 2 = i by omega, if_pos hi]
  exact BitVec.getLsbD_eq_getElem hi

@[simp] theorem wordJ_tk (major : BitVec 5) (off : BitVec 25) (tk : BitVec 2) :
    (wordJ major off tk).extractLsb' 0 2 = tk := by
  ext i h
  have hi : i < 2 := h
  rw [BitVec.getElem_extractLsb', wordJ_bit]
  simp only [BitVec.getLsbD_append]
  rw [Nat.zero_add, if_pos hi]
  exact BitVec.getLsbD_eq_getElem hi

theorem wordS_bit (major : BitVec 5) (fn : BitVec 7) (rd : BitVec 6) (ra : BitVec 6) (imm : BitVec 6) (tk : BitVec 2) (i : Nat) :
    (wordS major fn rd ra imm tk).getLsbD i = BitVec.getLsbD (w := 5+7+6+6+6+2) (major ++ fn ++ rd ++ ra ++ imm ++ tk) i := rfl

@[simp] theorem wordS_major (major : BitVec 5) (fn : BitVec 7) (rd : BitVec 6) (ra : BitVec 6) (imm : BitVec 6) (tk : BitVec 2) :
    (wordS major fn rd ra imm tk).extractLsb' 27 5 = major := by
  ext i h
  have hi : i < 5 := h
  rw [BitVec.getElem_extractLsb', wordS_bit]
  simp only [BitVec.getLsbD_append]
  simp only [show ¬ (27 + i < 2) by omega, show ¬ (27 + i - 2 < 6) by omega, show ¬ (27 + i - 2 - 6 < 6) by omega, show ¬ (27 + i - 2 - 6 - 6 < 6) by omega, show ¬ (27 + i - 2 - 6 - 6 - 6 < 7) by omega, if_false]
  rw [show 27 + i - 2 - 6 - 6 - 6 - 7 = i by omega]
  exact BitVec.getLsbD_eq_getElem hi

@[simp] theorem wordS_fn (major : BitVec 5) (fn : BitVec 7) (rd : BitVec 6) (ra : BitVec 6) (imm : BitVec 6) (tk : BitVec 2) :
    (wordS major fn rd ra imm tk).extractLsb' 20 7 = fn := by
  ext i h
  have hi : i < 7 := h
  rw [BitVec.getElem_extractLsb', wordS_bit]
  simp only [BitVec.getLsbD_append]
  simp only [show ¬ (20 + i < 2) by omega, show ¬ (20 + i - 2 < 6) by omega, show ¬ (20 + i - 2 - 6 < 6) by omega, show ¬ (20 + i - 2 - 6 - 6 < 6) by omega, if_false]
  rw [show 20 + i - 2 - 6 - 6 - 6 = i by omega, if_pos hi]
  exact BitVec.getLsbD_eq_getElem hi

@[simp] theorem wordS_rd (major : BitVec 5) (fn : BitVec 7) (rd : BitVec 6) (ra : BitVec 6) (imm : BitVec 6) (tk : BitVec 2) :
    (wordS major fn rd ra imm tk).extractLsb' 14 6 = rd := by
  ext i h
  have hi : i < 6 := h
  rw [BitVec.getElem_extractLsb', wordS_bit]
  simp only [BitVec.getLsbD_append]
  simp only [show ¬ (14 + i < 2) by omega, show ¬ (14 + i - 2 < 6) by omega, show ¬ (14 + i - 2 - 6 < 6) by omega, if_false]
  rw [show 14 + i - 2 - 6 - 6 = i by omega, if_pos hi]
  exact BitVec.getLsbD_eq_getElem hi

@[simp] theorem wordS_ra (major : BitVec 5) (fn : BitVec 7) (rd : BitVec 6) (ra : BitVec 6) (imm : BitVec 6) (tk : BitVec 2) :
    (wordS major fn rd ra imm tk).extractLsb' 8 6 = ra := by
  ext i h
  have hi : i < 6 := h
  rw [BitVec.getElem_extractLsb', wordS_bit]
  simp only [BitVec.getLsbD_append]
  simp only [show ¬ (8 + i < 2) by omega, show ¬ (8 + i - 2 < 6) by omega, if_false]
  rw [show 8 + i - 2 - 6 = i by omega, if_pos hi]
  exact BitVec.getLsbD_eq_getElem hi

@[simp] theorem wordS_imm (major : BitVec 5) (fn : BitVec 7) (rd : BitVec 6) (ra : BitVec 6) (imm : BitVec 6) (tk : BitVec 2) :
    (wordS major fn rd ra imm tk).extractLsb' 2 6 = imm := by
  ext i h
  have hi : i < 6 := h
  rw [BitVec.getElem_extractLsb', wordS_bit]
  simp only [BitVec.getLsbD_append]
  simp only [show ¬ (2 + i < 2) by omega, if_false]
  rw [show 2 + i - 2 = i by omega, if_pos hi]
  exact BitVec.getLsbD_eq_getElem hi

@[simp] theorem wordS_tk (major : BitVec 5) (fn : BitVec 7) (rd : BitVec 6) (ra : BitVec 6) (imm : BitVec 6) (tk : BitVec 2) :
    (wordS major fn rd ra imm tk).extractLsb' 0 2 = tk := by
  ext i h
  have hi : i < 2 := h
  rw [BitVec.getElem_extractLsb', wordS_bit]
  simp only [BitVec.getLsbD_append]
  rw [Nat.zero_add, if_pos hi]
  exact BitVec.getLsbD_eq_getElem hi

theorem wordH_bit (major : BitVec 5) (hd : BitVec 4) (ha : BitVec 4) (hb : BitVec 4) (ra : BitVec 6) (fn : BitVec 7) (tk : BitVec 2) (i : Nat) :
    (wordH major hd ha hb ra fn tk).getLsbD i = BitVec.getLsbD (w := 5+4+4+4+6+7+2) (major ++ hd ++ ha ++ hb ++ ra ++ fn ++ tk) i := rfl

@[simp] theorem wordH_major (major : BitVec 5) (hd : BitVec 4) (ha : BitVec 4) (hb : BitVec 4) (ra : BitVec 6) (fn : BitVec 7) (tk : BitVec 2) :
    (wordH major hd ha hb ra fn tk).extractLsb' 27 5 = major := by
  ext i h
  have hi : i < 5 := h
  rw [BitVec.getElem_extractLsb', wordH_bit]
  simp only [BitVec.getLsbD_append]
  simp only [show ¬ (27 + i < 2) by omega, show ¬ (27 + i - 2 < 7) by omega, show ¬ (27 + i - 2 - 7 < 6) by omega, show ¬ (27 + i - 2 - 7 - 6 < 4) by omega, show ¬ (27 + i - 2 - 7 - 6 - 4 < 4) by omega, show ¬ (27 + i - 2 - 7 - 6 - 4 - 4 < 4) by omega, if_false]
  rw [show 27 + i - 2 - 7 - 6 - 4 - 4 - 4 = i by omega]
  exact BitVec.getLsbD_eq_getElem hi

@[simp] theorem wordH_hd (major : BitVec 5) (hd : BitVec 4) (ha : BitVec 4) (hb : BitVec 4) (ra : BitVec 6) (fn : BitVec 7) (tk : BitVec 2) :
    (wordH major hd ha hb ra fn tk).extractLsb' 23 4 = hd := by
  ext i h
  have hi : i < 4 := h
  rw [BitVec.getElem_extractLsb', wordH_bit]
  simp only [BitVec.getLsbD_append]
  simp only [show ¬ (23 + i < 2) by omega, show ¬ (23 + i - 2 < 7) by omega, show ¬ (23 + i - 2 - 7 < 6) by omega, show ¬ (23 + i - 2 - 7 - 6 < 4) by omega, show ¬ (23 + i - 2 - 7 - 6 - 4 < 4) by omega, if_false]
  rw [show 23 + i - 2 - 7 - 6 - 4 - 4 = i by omega, if_pos hi]
  exact BitVec.getLsbD_eq_getElem hi

@[simp] theorem wordH_ha (major : BitVec 5) (hd : BitVec 4) (ha : BitVec 4) (hb : BitVec 4) (ra : BitVec 6) (fn : BitVec 7) (tk : BitVec 2) :
    (wordH major hd ha hb ra fn tk).extractLsb' 19 4 = ha := by
  ext i h
  have hi : i < 4 := h
  rw [BitVec.getElem_extractLsb', wordH_bit]
  simp only [BitVec.getLsbD_append]
  simp only [show ¬ (19 + i < 2) by omega, show ¬ (19 + i - 2 < 7) by omega, show ¬ (19 + i - 2 - 7 < 6) by omega, show ¬ (19 + i - 2 - 7 - 6 < 4) by omega, if_false]
  rw [show 19 + i - 2 - 7 - 6 - 4 = i by omega, if_pos hi]
  exact BitVec.getLsbD_eq_getElem hi

@[simp] theorem wordH_hb (major : BitVec 5) (hd : BitVec 4) (ha : BitVec 4) (hb : BitVec 4) (ra : BitVec 6) (fn : BitVec 7) (tk : BitVec 2) :
    (wordH major hd ha hb ra fn tk).extractLsb' 15 4 = hb := by
  ext i h
  have hi : i < 4 := h
  rw [BitVec.getElem_extractLsb', wordH_bit]
  simp only [BitVec.getLsbD_append]
  simp only [show ¬ (15 + i < 2) by omega, show ¬ (15 + i - 2 < 7) by omega, show ¬ (15 + i - 2 - 7 < 6) by omega, if_false]
  rw [show 15 + i - 2 - 7 - 6 = i by omega, if_pos hi]
  exact BitVec.getLsbD_eq_getElem hi

@[simp] theorem wordH_ra (major : BitVec 5) (hd : BitVec 4) (ha : BitVec 4) (hb : BitVec 4) (ra : BitVec 6) (fn : BitVec 7) (tk : BitVec 2) :
    (wordH major hd ha hb ra fn tk).extractLsb' 9 6 = ra := by
  ext i h
  have hi : i < 6 := h
  rw [BitVec.getElem_extractLsb', wordH_bit]
  simp only [BitVec.getLsbD_append]
  simp only [show ¬ (9 + i < 2) by omega, show ¬ (9 + i - 2 < 7) by omega, if_false]
  rw [show 9 + i - 2 - 7 = i by omega, if_pos hi]
  exact BitVec.getLsbD_eq_getElem hi

@[simp] theorem wordH_fn (major : BitVec 5) (hd : BitVec 4) (ha : BitVec 4) (hb : BitVec 4) (ra : BitVec 6) (fn : BitVec 7) (tk : BitVec 2) :
    (wordH major hd ha hb ra fn tk).extractLsb' 2 7 = fn := by
  ext i h
  have hi : i < 7 := h
  rw [BitVec.getElem_extractLsb', wordH_bit]
  simp only [BitVec.getLsbD_append]
  simp only [show ¬ (2 + i < 2) by omega, if_false]
  rw [show 2 + i - 2 = i by omega, if_pos hi]
  exact BitVec.getLsbD_eq_getElem hi

@[simp] theorem wordH_tk (major : BitVec 5) (hd : BitVec 4) (ha : BitVec 4) (hb : BitVec 4) (ra : BitVec 6) (fn : BitVec 7) (tk : BitVec 2) :
    (wordH major hd ha hb ra fn tk).extractLsb' 0 2 = tk := by
  ext i h
  have hi : i < 2 := h
  rw [BitVec.getElem_extractLsb', wordH_bit]
  simp only [BitVec.getLsbD_append]
  rw [Nat.zero_add, if_pos hi]
  exact BitVec.getLsbD_eq_getElem hi

theorem wordE_bit (major : BitVec 5) (eng : BitVec 3) (ha : BitVec 4) (ra : BitVec 6) (rb : BitVec 6) (fn : BitVec 6) (tk : BitVec 2) (i : Nat) :
    (wordE major eng ha ra rb fn tk).getLsbD i = BitVec.getLsbD (w := 5+3+4+6+6+6+2) (major ++ eng ++ ha ++ ra ++ rb ++ fn ++ tk) i := rfl

@[simp] theorem wordE_major (major : BitVec 5) (eng : BitVec 3) (ha : BitVec 4) (ra : BitVec 6) (rb : BitVec 6) (fn : BitVec 6) (tk : BitVec 2) :
    (wordE major eng ha ra rb fn tk).extractLsb' 27 5 = major := by
  ext i h
  have hi : i < 5 := h
  rw [BitVec.getElem_extractLsb', wordE_bit]
  simp only [BitVec.getLsbD_append]
  simp only [show ¬ (27 + i < 2) by omega, show ¬ (27 + i - 2 < 6) by omega, show ¬ (27 + i - 2 - 6 < 6) by omega, show ¬ (27 + i - 2 - 6 - 6 < 6) by omega, show ¬ (27 + i - 2 - 6 - 6 - 6 < 4) by omega, show ¬ (27 + i - 2 - 6 - 6 - 6 - 4 < 3) by omega, if_false]
  rw [show 27 + i - 2 - 6 - 6 - 6 - 4 - 3 = i by omega]
  exact BitVec.getLsbD_eq_getElem hi

@[simp] theorem wordE_eng (major : BitVec 5) (eng : BitVec 3) (ha : BitVec 4) (ra : BitVec 6) (rb : BitVec 6) (fn : BitVec 6) (tk : BitVec 2) :
    (wordE major eng ha ra rb fn tk).extractLsb' 24 3 = eng := by
  ext i h
  have hi : i < 3 := h
  rw [BitVec.getElem_extractLsb', wordE_bit]
  simp only [BitVec.getLsbD_append]
  simp only [show ¬ (24 + i < 2) by omega, show ¬ (24 + i - 2 < 6) by omega, show ¬ (24 + i - 2 - 6 < 6) by omega, show ¬ (24 + i - 2 - 6 - 6 < 6) by omega, show ¬ (24 + i - 2 - 6 - 6 - 6 < 4) by omega, if_false]
  rw [show 24 + i - 2 - 6 - 6 - 6 - 4 = i by omega, if_pos hi]
  exact BitVec.getLsbD_eq_getElem hi

@[simp] theorem wordE_ha (major : BitVec 5) (eng : BitVec 3) (ha : BitVec 4) (ra : BitVec 6) (rb : BitVec 6) (fn : BitVec 6) (tk : BitVec 2) :
    (wordE major eng ha ra rb fn tk).extractLsb' 20 4 = ha := by
  ext i h
  have hi : i < 4 := h
  rw [BitVec.getElem_extractLsb', wordE_bit]
  simp only [BitVec.getLsbD_append]
  simp only [show ¬ (20 + i < 2) by omega, show ¬ (20 + i - 2 < 6) by omega, show ¬ (20 + i - 2 - 6 < 6) by omega, show ¬ (20 + i - 2 - 6 - 6 < 6) by omega, if_false]
  rw [show 20 + i - 2 - 6 - 6 - 6 = i by omega, if_pos hi]
  exact BitVec.getLsbD_eq_getElem hi

@[simp] theorem wordE_ra (major : BitVec 5) (eng : BitVec 3) (ha : BitVec 4) (ra : BitVec 6) (rb : BitVec 6) (fn : BitVec 6) (tk : BitVec 2) :
    (wordE major eng ha ra rb fn tk).extractLsb' 14 6 = ra := by
  ext i h
  have hi : i < 6 := h
  rw [BitVec.getElem_extractLsb', wordE_bit]
  simp only [BitVec.getLsbD_append]
  simp only [show ¬ (14 + i < 2) by omega, show ¬ (14 + i - 2 < 6) by omega, show ¬ (14 + i - 2 - 6 < 6) by omega, if_false]
  rw [show 14 + i - 2 - 6 - 6 = i by omega, if_pos hi]
  exact BitVec.getLsbD_eq_getElem hi

@[simp] theorem wordE_rb (major : BitVec 5) (eng : BitVec 3) (ha : BitVec 4) (ra : BitVec 6) (rb : BitVec 6) (fn : BitVec 6) (tk : BitVec 2) :
    (wordE major eng ha ra rb fn tk).extractLsb' 8 6 = rb := by
  ext i h
  have hi : i < 6 := h
  rw [BitVec.getElem_extractLsb', wordE_bit]
  simp only [BitVec.getLsbD_append]
  simp only [show ¬ (8 + i < 2) by omega, show ¬ (8 + i - 2 < 6) by omega, if_false]
  rw [show 8 + i - 2 - 6 = i by omega, if_pos hi]
  exact BitVec.getLsbD_eq_getElem hi

@[simp] theorem wordE_fn (major : BitVec 5) (eng : BitVec 3) (ha : BitVec 4) (ra : BitVec 6) (rb : BitVec 6) (fn : BitVec 6) (tk : BitVec 2) :
    (wordE major eng ha ra rb fn tk).extractLsb' 2 6 = fn := by
  ext i h
  have hi : i < 6 := h
  rw [BitVec.getElem_extractLsb', wordE_bit]
  simp only [BitVec.getLsbD_append]
  simp only [show ¬ (2 + i < 2) by omega, if_false]
  rw [show 2 + i - 2 = i by omega, if_pos hi]
  exact BitVec.getLsbD_eq_getElem hi

@[simp] theorem wordE_tk (major : BitVec 5) (eng : BitVec 3) (ha : BitVec 4) (ra : BitVec 6) (rb : BitVec 6) (fn : BitVec 6) (tk : BitVec 2) :
    (wordE major eng ha ra rb fn tk).extractLsb' 0 2 = tk := by
  ext i h
  have hi : i < 2 := h
  rw [BitVec.getElem_extractLsb', wordE_bit]
  simp only [BitVec.getLsbD_append]
  rw [Nat.zero_add, if_pos hi]
  exact BitVec.getLsbD_eq_getElem hi

theorem wordV_bit (major : BitVec 5) (vd : BitVec 5) (va : BitVec 5) (vb : BitVec 5) (pg : BitVec 4) (fn : BitVec 6) (tk : BitVec 2) (i : Nat) :
    (wordV major vd va vb pg fn tk).getLsbD i = BitVec.getLsbD (w := 5+5+5+5+4+6+2) (major ++ vd ++ va ++ vb ++ pg ++ fn ++ tk) i := rfl

@[simp] theorem wordV_major (major : BitVec 5) (vd : BitVec 5) (va : BitVec 5) (vb : BitVec 5) (pg : BitVec 4) (fn : BitVec 6) (tk : BitVec 2) :
    (wordV major vd va vb pg fn tk).extractLsb' 27 5 = major := by
  ext i h
  have hi : i < 5 := h
  rw [BitVec.getElem_extractLsb', wordV_bit]
  simp only [BitVec.getLsbD_append]
  simp only [show ¬ (27 + i < 2) by omega, show ¬ (27 + i - 2 < 6) by omega, show ¬ (27 + i - 2 - 6 < 4) by omega, show ¬ (27 + i - 2 - 6 - 4 < 5) by omega, show ¬ (27 + i - 2 - 6 - 4 - 5 < 5) by omega, show ¬ (27 + i - 2 - 6 - 4 - 5 - 5 < 5) by omega, if_false]
  rw [show 27 + i - 2 - 6 - 4 - 5 - 5 - 5 = i by omega]
  exact BitVec.getLsbD_eq_getElem hi

@[simp] theorem wordV_vd (major : BitVec 5) (vd : BitVec 5) (va : BitVec 5) (vb : BitVec 5) (pg : BitVec 4) (fn : BitVec 6) (tk : BitVec 2) :
    (wordV major vd va vb pg fn tk).extractLsb' 22 5 = vd := by
  ext i h
  have hi : i < 5 := h
  rw [BitVec.getElem_extractLsb', wordV_bit]
  simp only [BitVec.getLsbD_append]
  simp only [show ¬ (22 + i < 2) by omega, show ¬ (22 + i - 2 < 6) by omega, show ¬ (22 + i - 2 - 6 < 4) by omega, show ¬ (22 + i - 2 - 6 - 4 < 5) by omega, show ¬ (22 + i - 2 - 6 - 4 - 5 < 5) by omega, if_false]
  rw [show 22 + i - 2 - 6 - 4 - 5 - 5 = i by omega, if_pos hi]
  exact BitVec.getLsbD_eq_getElem hi

@[simp] theorem wordV_va (major : BitVec 5) (vd : BitVec 5) (va : BitVec 5) (vb : BitVec 5) (pg : BitVec 4) (fn : BitVec 6) (tk : BitVec 2) :
    (wordV major vd va vb pg fn tk).extractLsb' 17 5 = va := by
  ext i h
  have hi : i < 5 := h
  rw [BitVec.getElem_extractLsb', wordV_bit]
  simp only [BitVec.getLsbD_append]
  simp only [show ¬ (17 + i < 2) by omega, show ¬ (17 + i - 2 < 6) by omega, show ¬ (17 + i - 2 - 6 < 4) by omega, show ¬ (17 + i - 2 - 6 - 4 < 5) by omega, if_false]
  rw [show 17 + i - 2 - 6 - 4 - 5 = i by omega, if_pos hi]
  exact BitVec.getLsbD_eq_getElem hi

@[simp] theorem wordV_vb (major : BitVec 5) (vd : BitVec 5) (va : BitVec 5) (vb : BitVec 5) (pg : BitVec 4) (fn : BitVec 6) (tk : BitVec 2) :
    (wordV major vd va vb pg fn tk).extractLsb' 12 5 = vb := by
  ext i h
  have hi : i < 5 := h
  rw [BitVec.getElem_extractLsb', wordV_bit]
  simp only [BitVec.getLsbD_append]
  simp only [show ¬ (12 + i < 2) by omega, show ¬ (12 + i - 2 < 6) by omega, show ¬ (12 + i - 2 - 6 < 4) by omega, if_false]
  rw [show 12 + i - 2 - 6 - 4 = i by omega, if_pos hi]
  exact BitVec.getLsbD_eq_getElem hi

@[simp] theorem wordV_pg (major : BitVec 5) (vd : BitVec 5) (va : BitVec 5) (vb : BitVec 5) (pg : BitVec 4) (fn : BitVec 6) (tk : BitVec 2) :
    (wordV major vd va vb pg fn tk).extractLsb' 8 4 = pg := by
  ext i h
  have hi : i < 4 := h
  rw [BitVec.getElem_extractLsb', wordV_bit]
  simp only [BitVec.getLsbD_append]
  simp only [show ¬ (8 + i < 2) by omega, show ¬ (8 + i - 2 < 6) by omega, if_false]
  rw [show 8 + i - 2 - 6 = i by omega, if_pos hi]
  exact BitVec.getLsbD_eq_getElem hi

@[simp] theorem wordV_fn (major : BitVec 5) (vd : BitVec 5) (va : BitVec 5) (vb : BitVec 5) (pg : BitVec 4) (fn : BitVec 6) (tk : BitVec 2) :
    (wordV major vd va vb pg fn tk).extractLsb' 2 6 = fn := by
  ext i h
  have hi : i < 6 := h
  rw [BitVec.getElem_extractLsb', wordV_bit]
  simp only [BitVec.getLsbD_append]
  simp only [show ¬ (2 + i < 2) by omega, if_false]
  rw [show 2 + i - 2 = i by omega, if_pos hi]
  exact BitVec.getLsbD_eq_getElem hi

@[simp] theorem wordV_tk (major : BitVec 5) (vd : BitVec 5) (va : BitVec 5) (vb : BitVec 5) (pg : BitVec 4) (fn : BitVec 6) (tk : BitVec 2) :
    (wordV major vd va vb pg fn tk).extractLsb' 0 2 = tk := by
  ext i h
  have hi : i < 2 := h
  rw [BitVec.getElem_extractLsb', wordV_bit]
  simp only [BitVec.getLsbD_append]
  rw [Nat.zero_add, if_pos hi]
  exact BitVec.getLsbD_eq_getElem hi

theorem wordVL_bit (major : BitVec 5) (vd : BitVec 5) (ra : BitVec 6) (imm : BitVec 8) (fn : BitVec 6) (tk : BitVec 2) (i : Nat) :
    (wordVL major vd ra imm fn tk).getLsbD i = BitVec.getLsbD (w := 5+5+6+8+6+2) (major ++ vd ++ ra ++ imm ++ fn ++ tk) i := rfl

@[simp] theorem wordVL_major (major : BitVec 5) (vd : BitVec 5) (ra : BitVec 6) (imm : BitVec 8) (fn : BitVec 6) (tk : BitVec 2) :
    (wordVL major vd ra imm fn tk).extractLsb' 27 5 = major := by
  ext i h
  have hi : i < 5 := h
  rw [BitVec.getElem_extractLsb', wordVL_bit]
  simp only [BitVec.getLsbD_append]
  simp only [show ¬ (27 + i < 2) by omega, show ¬ (27 + i - 2 < 6) by omega, show ¬ (27 + i - 2 - 6 < 8) by omega, show ¬ (27 + i - 2 - 6 - 8 < 6) by omega, show ¬ (27 + i - 2 - 6 - 8 - 6 < 5) by omega, if_false]
  rw [show 27 + i - 2 - 6 - 8 - 6 - 5 = i by omega]
  exact BitVec.getLsbD_eq_getElem hi

@[simp] theorem wordVL_vd (major : BitVec 5) (vd : BitVec 5) (ra : BitVec 6) (imm : BitVec 8) (fn : BitVec 6) (tk : BitVec 2) :
    (wordVL major vd ra imm fn tk).extractLsb' 22 5 = vd := by
  ext i h
  have hi : i < 5 := h
  rw [BitVec.getElem_extractLsb', wordVL_bit]
  simp only [BitVec.getLsbD_append]
  simp only [show ¬ (22 + i < 2) by omega, show ¬ (22 + i - 2 < 6) by omega, show ¬ (22 + i - 2 - 6 < 8) by omega, show ¬ (22 + i - 2 - 6 - 8 < 6) by omega, if_false]
  rw [show 22 + i - 2 - 6 - 8 - 6 = i by omega, if_pos hi]
  exact BitVec.getLsbD_eq_getElem hi

@[simp] theorem wordVL_ra (major : BitVec 5) (vd : BitVec 5) (ra : BitVec 6) (imm : BitVec 8) (fn : BitVec 6) (tk : BitVec 2) :
    (wordVL major vd ra imm fn tk).extractLsb' 16 6 = ra := by
  ext i h
  have hi : i < 6 := h
  rw [BitVec.getElem_extractLsb', wordVL_bit]
  simp only [BitVec.getLsbD_append]
  simp only [show ¬ (16 + i < 2) by omega, show ¬ (16 + i - 2 < 6) by omega, show ¬ (16 + i - 2 - 6 < 8) by omega, if_false]
  rw [show 16 + i - 2 - 6 - 8 = i by omega, if_pos hi]
  exact BitVec.getLsbD_eq_getElem hi

@[simp] theorem wordVL_imm (major : BitVec 5) (vd : BitVec 5) (ra : BitVec 6) (imm : BitVec 8) (fn : BitVec 6) (tk : BitVec 2) :
    (wordVL major vd ra imm fn tk).extractLsb' 8 8 = imm := by
  ext i h
  have hi : i < 8 := h
  rw [BitVec.getElem_extractLsb', wordVL_bit]
  simp only [BitVec.getLsbD_append]
  simp only [show ¬ (8 + i < 2) by omega, show ¬ (8 + i - 2 < 6) by omega, if_false]
  rw [show 8 + i - 2 - 6 = i by omega, if_pos hi]
  exact BitVec.getLsbD_eq_getElem hi

@[simp] theorem wordVL_fn (major : BitVec 5) (vd : BitVec 5) (ra : BitVec 6) (imm : BitVec 8) (fn : BitVec 6) (tk : BitVec 2) :
    (wordVL major vd ra imm fn tk).extractLsb' 2 6 = fn := by
  ext i h
  have hi : i < 6 := h
  rw [BitVec.getElem_extractLsb', wordVL_bit]
  simp only [BitVec.getLsbD_append]
  simp only [show ¬ (2 + i < 2) by omega, if_false]
  rw [show 2 + i - 2 = i by omega, if_pos hi]
  exact BitVec.getLsbD_eq_getElem hi

@[simp] theorem wordVL_tk (major : BitVec 5) (vd : BitVec 5) (ra : BitVec 6) (imm : BitVec 8) (fn : BitVec 6) (tk : BitVec 2) :
    (wordVL major vd ra imm fn tk).extractLsb' 0 2 = tk := by
  ext i h
  have hi : i < 2 := h
  rw [BitVec.getElem_extractLsb', wordVL_bit]
  simp only [BitVec.getLsbD_append]
  rw [Nat.zero_add, if_pos hi]
  exact BitVec.getLsbD_eq_getElem hi

theorem wordA_bit (major : BitVec 5) (rd : BitVec 5) (ra : BitVec 5) (rb : BitVec 5) (fn : BitVec 4) (ord : BitVec 3) (scope : BitVec 4) (sz : BitVec 1) (i : Nat) :
    (wordA major rd ra rb fn ord scope sz).getLsbD i = BitVec.getLsbD (w := 5+5+5+5+4+3+4+1) (major ++ rd ++ ra ++ rb ++ fn ++ ord ++ scope ++ sz) i := rfl

@[simp] theorem wordA_major (major : BitVec 5) (rd : BitVec 5) (ra : BitVec 5) (rb : BitVec 5) (fn : BitVec 4) (ord : BitVec 3) (scope : BitVec 4) (sz : BitVec 1) :
    (wordA major rd ra rb fn ord scope sz).extractLsb' 27 5 = major := by
  ext i h
  have hi : i < 5 := h
  rw [BitVec.getElem_extractLsb', wordA_bit]
  simp only [BitVec.getLsbD_append]
  simp only [show ¬ (27 + i < 1) by omega, show ¬ (27 + i - 1 < 4) by omega, show ¬ (27 + i - 1 - 4 < 3) by omega, show ¬ (27 + i - 1 - 4 - 3 < 4) by omega, show ¬ (27 + i - 1 - 4 - 3 - 4 < 5) by omega, show ¬ (27 + i - 1 - 4 - 3 - 4 - 5 < 5) by omega, show ¬ (27 + i - 1 - 4 - 3 - 4 - 5 - 5 < 5) by omega, if_false]
  rw [show 27 + i - 1 - 4 - 3 - 4 - 5 - 5 - 5 = i by omega]
  exact BitVec.getLsbD_eq_getElem hi

@[simp] theorem wordA_rd (major : BitVec 5) (rd : BitVec 5) (ra : BitVec 5) (rb : BitVec 5) (fn : BitVec 4) (ord : BitVec 3) (scope : BitVec 4) (sz : BitVec 1) :
    (wordA major rd ra rb fn ord scope sz).extractLsb' 22 5 = rd := by
  ext i h
  have hi : i < 5 := h
  rw [BitVec.getElem_extractLsb', wordA_bit]
  simp only [BitVec.getLsbD_append]
  simp only [show ¬ (22 + i < 1) by omega, show ¬ (22 + i - 1 < 4) by omega, show ¬ (22 + i - 1 - 4 < 3) by omega, show ¬ (22 + i - 1 - 4 - 3 < 4) by omega, show ¬ (22 + i - 1 - 4 - 3 - 4 < 5) by omega, show ¬ (22 + i - 1 - 4 - 3 - 4 - 5 < 5) by omega, if_false]
  rw [show 22 + i - 1 - 4 - 3 - 4 - 5 - 5 = i by omega, if_pos hi]
  exact BitVec.getLsbD_eq_getElem hi

@[simp] theorem wordA_ra (major : BitVec 5) (rd : BitVec 5) (ra : BitVec 5) (rb : BitVec 5) (fn : BitVec 4) (ord : BitVec 3) (scope : BitVec 4) (sz : BitVec 1) :
    (wordA major rd ra rb fn ord scope sz).extractLsb' 17 5 = ra := by
  ext i h
  have hi : i < 5 := h
  rw [BitVec.getElem_extractLsb', wordA_bit]
  simp only [BitVec.getLsbD_append]
  simp only [show ¬ (17 + i < 1) by omega, show ¬ (17 + i - 1 < 4) by omega, show ¬ (17 + i - 1 - 4 < 3) by omega, show ¬ (17 + i - 1 - 4 - 3 < 4) by omega, show ¬ (17 + i - 1 - 4 - 3 - 4 < 5) by omega, if_false]
  rw [show 17 + i - 1 - 4 - 3 - 4 - 5 = i by omega, if_pos hi]
  exact BitVec.getLsbD_eq_getElem hi

@[simp] theorem wordA_rb (major : BitVec 5) (rd : BitVec 5) (ra : BitVec 5) (rb : BitVec 5) (fn : BitVec 4) (ord : BitVec 3) (scope : BitVec 4) (sz : BitVec 1) :
    (wordA major rd ra rb fn ord scope sz).extractLsb' 12 5 = rb := by
  ext i h
  have hi : i < 5 := h
  rw [BitVec.getElem_extractLsb', wordA_bit]
  simp only [BitVec.getLsbD_append]
  simp only [show ¬ (12 + i < 1) by omega, show ¬ (12 + i - 1 < 4) by omega, show ¬ (12 + i - 1 - 4 < 3) by omega, show ¬ (12 + i - 1 - 4 - 3 < 4) by omega, if_false]
  rw [show 12 + i - 1 - 4 - 3 - 4 = i by omega, if_pos hi]
  exact BitVec.getLsbD_eq_getElem hi

@[simp] theorem wordA_fn (major : BitVec 5) (rd : BitVec 5) (ra : BitVec 5) (rb : BitVec 5) (fn : BitVec 4) (ord : BitVec 3) (scope : BitVec 4) (sz : BitVec 1) :
    (wordA major rd ra rb fn ord scope sz).extractLsb' 8 4 = fn := by
  ext i h
  have hi : i < 4 := h
  rw [BitVec.getElem_extractLsb', wordA_bit]
  simp only [BitVec.getLsbD_append]
  simp only [show ¬ (8 + i < 1) by omega, show ¬ (8 + i - 1 < 4) by omega, show ¬ (8 + i - 1 - 4 < 3) by omega, if_false]
  rw [show 8 + i - 1 - 4 - 3 = i by omega, if_pos hi]
  exact BitVec.getLsbD_eq_getElem hi

@[simp] theorem wordA_ord (major : BitVec 5) (rd : BitVec 5) (ra : BitVec 5) (rb : BitVec 5) (fn : BitVec 4) (ord : BitVec 3) (scope : BitVec 4) (sz : BitVec 1) :
    (wordA major rd ra rb fn ord scope sz).extractLsb' 5 3 = ord := by
  ext i h
  have hi : i < 3 := h
  rw [BitVec.getElem_extractLsb', wordA_bit]
  simp only [BitVec.getLsbD_append]
  simp only [show ¬ (5 + i < 1) by omega, show ¬ (5 + i - 1 < 4) by omega, if_false]
  rw [show 5 + i - 1 - 4 = i by omega, if_pos hi]
  exact BitVec.getLsbD_eq_getElem hi

@[simp] theorem wordA_scope (major : BitVec 5) (rd : BitVec 5) (ra : BitVec 5) (rb : BitVec 5) (fn : BitVec 4) (ord : BitVec 3) (scope : BitVec 4) (sz : BitVec 1) :
    (wordA major rd ra rb fn ord scope sz).extractLsb' 1 4 = scope := by
  ext i h
  have hi : i < 4 := h
  rw [BitVec.getElem_extractLsb', wordA_bit]
  simp only [BitVec.getLsbD_append]
  simp only [show ¬ (1 + i < 1) by omega, if_false]
  rw [show 1 + i - 1 = i by omega, if_pos hi]
  exact BitVec.getLsbD_eq_getElem hi

@[simp] theorem wordA_sz (major : BitVec 5) (rd : BitVec 5) (ra : BitVec 5) (rb : BitVec 5) (fn : BitVec 4) (ord : BitVec 3) (scope : BitVec 4) (sz : BitVec 1) :
    (wordA major rd ra rb fn ord scope sz).extractLsb' 0 1 = sz := by
  ext i h
  have hi : i < 1 := h
  rw [BitVec.getElem_extractLsb', wordA_bit]
  simp only [BitVec.getLsbD_append]
  rw [Nat.zero_add, if_pos hi]
  exact BitVec.getLsbD_eq_getElem hi

theorem wordF_bit (major : BitVec 5) (fn : BitVec 4) (scope : BitVec 4) (ord : BitVec 3) (ra : BitVec 6) (imm : BitVec 8) (tk : BitVec 2) (i : Nat) :
    (wordF major fn scope ord ra imm tk).getLsbD i = BitVec.getLsbD (w := 5+4+4+3+6+8+2) (major ++ fn ++ scope ++ ord ++ ra ++ imm ++ tk) i := rfl

@[simp] theorem wordF_major (major : BitVec 5) (fn : BitVec 4) (scope : BitVec 4) (ord : BitVec 3) (ra : BitVec 6) (imm : BitVec 8) (tk : BitVec 2) :
    (wordF major fn scope ord ra imm tk).extractLsb' 27 5 = major := by
  ext i h
  have hi : i < 5 := h
  rw [BitVec.getElem_extractLsb', wordF_bit]
  simp only [BitVec.getLsbD_append]
  simp only [show ¬ (27 + i < 2) by omega, show ¬ (27 + i - 2 < 8) by omega, show ¬ (27 + i - 2 - 8 < 6) by omega, show ¬ (27 + i - 2 - 8 - 6 < 3) by omega, show ¬ (27 + i - 2 - 8 - 6 - 3 < 4) by omega, show ¬ (27 + i - 2 - 8 - 6 - 3 - 4 < 4) by omega, if_false]
  rw [show 27 + i - 2 - 8 - 6 - 3 - 4 - 4 = i by omega]
  exact BitVec.getLsbD_eq_getElem hi

@[simp] theorem wordF_fn (major : BitVec 5) (fn : BitVec 4) (scope : BitVec 4) (ord : BitVec 3) (ra : BitVec 6) (imm : BitVec 8) (tk : BitVec 2) :
    (wordF major fn scope ord ra imm tk).extractLsb' 23 4 = fn := by
  ext i h
  have hi : i < 4 := h
  rw [BitVec.getElem_extractLsb', wordF_bit]
  simp only [BitVec.getLsbD_append]
  simp only [show ¬ (23 + i < 2) by omega, show ¬ (23 + i - 2 < 8) by omega, show ¬ (23 + i - 2 - 8 < 6) by omega, show ¬ (23 + i - 2 - 8 - 6 < 3) by omega, show ¬ (23 + i - 2 - 8 - 6 - 3 < 4) by omega, if_false]
  rw [show 23 + i - 2 - 8 - 6 - 3 - 4 = i by omega, if_pos hi]
  exact BitVec.getLsbD_eq_getElem hi

@[simp] theorem wordF_scope (major : BitVec 5) (fn : BitVec 4) (scope : BitVec 4) (ord : BitVec 3) (ra : BitVec 6) (imm : BitVec 8) (tk : BitVec 2) :
    (wordF major fn scope ord ra imm tk).extractLsb' 19 4 = scope := by
  ext i h
  have hi : i < 4 := h
  rw [BitVec.getElem_extractLsb', wordF_bit]
  simp only [BitVec.getLsbD_append]
  simp only [show ¬ (19 + i < 2) by omega, show ¬ (19 + i - 2 < 8) by omega, show ¬ (19 + i - 2 - 8 < 6) by omega, show ¬ (19 + i - 2 - 8 - 6 < 3) by omega, if_false]
  rw [show 19 + i - 2 - 8 - 6 - 3 = i by omega, if_pos hi]
  exact BitVec.getLsbD_eq_getElem hi

@[simp] theorem wordF_ord (major : BitVec 5) (fn : BitVec 4) (scope : BitVec 4) (ord : BitVec 3) (ra : BitVec 6) (imm : BitVec 8) (tk : BitVec 2) :
    (wordF major fn scope ord ra imm tk).extractLsb' 16 3 = ord := by
  ext i h
  have hi : i < 3 := h
  rw [BitVec.getElem_extractLsb', wordF_bit]
  simp only [BitVec.getLsbD_append]
  simp only [show ¬ (16 + i < 2) by omega, show ¬ (16 + i - 2 < 8) by omega, show ¬ (16 + i - 2 - 8 < 6) by omega, if_false]
  rw [show 16 + i - 2 - 8 - 6 = i by omega, if_pos hi]
  exact BitVec.getLsbD_eq_getElem hi

@[simp] theorem wordF_ra (major : BitVec 5) (fn : BitVec 4) (scope : BitVec 4) (ord : BitVec 3) (ra : BitVec 6) (imm : BitVec 8) (tk : BitVec 2) :
    (wordF major fn scope ord ra imm tk).extractLsb' 10 6 = ra := by
  ext i h
  have hi : i < 6 := h
  rw [BitVec.getElem_extractLsb', wordF_bit]
  simp only [BitVec.getLsbD_append]
  simp only [show ¬ (10 + i < 2) by omega, show ¬ (10 + i - 2 < 8) by omega, if_false]
  rw [show 10 + i - 2 - 8 = i by omega, if_pos hi]
  exact BitVec.getLsbD_eq_getElem hi

@[simp] theorem wordF_imm (major : BitVec 5) (fn : BitVec 4) (scope : BitVec 4) (ord : BitVec 3) (ra : BitVec 6) (imm : BitVec 8) (tk : BitVec 2) :
    (wordF major fn scope ord ra imm tk).extractLsb' 2 8 = imm := by
  ext i h
  have hi : i < 8 := h
  rw [BitVec.getElem_extractLsb', wordF_bit]
  simp only [BitVec.getLsbD_append]
  simp only [show ¬ (2 + i < 2) by omega, if_false]
  rw [show 2 + i - 2 = i by omega, if_pos hi]
  exact BitVec.getLsbD_eq_getElem hi

@[simp] theorem wordF_tk (major : BitVec 5) (fn : BitVec 4) (scope : BitVec 4) (ord : BitVec 3) (ra : BitVec 6) (imm : BitVec 8) (tk : BitVec 2) :
    (wordF major fn scope ord ra imm tk).extractLsb' 0 2 = tk := by
  ext i h
  have hi : i < 2 := h
  rw [BitVec.getElem_extractLsb', wordF_bit]
  simp only [BitVec.getLsbD_append]
  rw [Nat.zero_add, if_pos hi]
  exact BitVec.getLsbD_eq_getElem hi

theorem wordHost_bit (funct7 : BitVec 7) (rs2 : BitVec 5) (rs1 : BitVec 5) (reply : BitVec 1) (rd : BitVec 5) (i : Nat) :
    (wordHost funct7 rs2 rs1 reply rd).getLsbD i = BitVec.getLsbD (w := 7+5+5+2+1+5+7) (funct7 ++ rs2 ++ rs1 ++ 0#2 ++ reply ++ rd ++ 0x0B#7) i := rfl

@[simp] theorem wordHost_funct7 (funct7 : BitVec 7) (rs2 : BitVec 5) (rs1 : BitVec 5) (reply : BitVec 1) (rd : BitVec 5) :
    (wordHost funct7 rs2 rs1 reply rd).extractLsb' 25 7 = funct7 := by
  ext i h
  have hi : i < 7 := h
  rw [BitVec.getElem_extractLsb', wordHost_bit]
  simp only [BitVec.getLsbD_append]
  simp only [show ¬ (25 + i < 7) by omega, show ¬ (25 + i - 7 < 5) by omega, show ¬ (25 + i - 7 - 5 < 1) by omega, show ¬ (25 + i - 7 - 5 - 1 < 2) by omega, show ¬ (25 + i - 7 - 5 - 1 - 2 < 5) by omega, show ¬ (25 + i - 7 - 5 - 1 - 2 - 5 < 5) by omega, if_false]
  rw [show 25 + i - 7 - 5 - 1 - 2 - 5 - 5 = i by omega]
  exact BitVec.getLsbD_eq_getElem hi

@[simp] theorem wordHost_rs2 (funct7 : BitVec 7) (rs2 : BitVec 5) (rs1 : BitVec 5) (reply : BitVec 1) (rd : BitVec 5) :
    (wordHost funct7 rs2 rs1 reply rd).extractLsb' 20 5 = rs2 := by
  ext i h
  have hi : i < 5 := h
  rw [BitVec.getElem_extractLsb', wordHost_bit]
  simp only [BitVec.getLsbD_append]
  simp only [show ¬ (20 + i < 7) by omega, show ¬ (20 + i - 7 < 5) by omega, show ¬ (20 + i - 7 - 5 < 1) by omega, show ¬ (20 + i - 7 - 5 - 1 < 2) by omega, show ¬ (20 + i - 7 - 5 - 1 - 2 < 5) by omega, if_false]
  rw [show 20 + i - 7 - 5 - 1 - 2 - 5 = i by omega, if_pos hi]
  exact BitVec.getLsbD_eq_getElem hi

@[simp] theorem wordHost_rs1 (funct7 : BitVec 7) (rs2 : BitVec 5) (rs1 : BitVec 5) (reply : BitVec 1) (rd : BitVec 5) :
    (wordHost funct7 rs2 rs1 reply rd).extractLsb' 15 5 = rs1 := by
  ext i h
  have hi : i < 5 := h
  rw [BitVec.getElem_extractLsb', wordHost_bit]
  simp only [BitVec.getLsbD_append]
  simp only [show ¬ (15 + i < 7) by omega, show ¬ (15 + i - 7 < 5) by omega, show ¬ (15 + i - 7 - 5 < 1) by omega, show ¬ (15 + i - 7 - 5 - 1 < 2) by omega, if_false]
  rw [show 15 + i - 7 - 5 - 1 - 2 = i by omega, if_pos hi]
  exact BitVec.getLsbD_eq_getElem hi

@[simp] theorem wordHost_z (funct7 : BitVec 7) (rs2 : BitVec 5) (rs1 : BitVec 5) (reply : BitVec 1) (rd : BitVec 5) :
    (wordHost funct7 rs2 rs1 reply rd).extractLsb' 13 2 = 0#2 := by
  ext i h
  have hi : i < 2 := h
  rw [BitVec.getElem_extractLsb', wordHost_bit]
  simp only [BitVec.getLsbD_append]
  simp only [show ¬ (13 + i < 7) by omega, show ¬ (13 + i - 7 < 5) by omega, show ¬ (13 + i - 7 - 5 < 1) by omega, if_false]
  rw [show 13 + i - 7 - 5 - 1 = i by omega, if_pos hi]
  exact BitVec.getLsbD_eq_getElem hi

@[simp] theorem wordHost_reply (funct7 : BitVec 7) (rs2 : BitVec 5) (rs1 : BitVec 5) (reply : BitVec 1) (rd : BitVec 5) :
    (wordHost funct7 rs2 rs1 reply rd).extractLsb' 12 1 = reply := by
  ext i h
  have hi : i < 1 := h
  rw [BitVec.getElem_extractLsb', wordHost_bit]
  simp only [BitVec.getLsbD_append]
  simp only [show ¬ (12 + i < 7) by omega, show ¬ (12 + i - 7 < 5) by omega, if_false]
  rw [show 12 + i - 7 - 5 = i by omega, if_pos hi]
  exact BitVec.getLsbD_eq_getElem hi

@[simp] theorem wordHost_rd (funct7 : BitVec 7) (rs2 : BitVec 5) (rs1 : BitVec 5) (reply : BitVec 1) (rd : BitVec 5) :
    (wordHost funct7 rs2 rs1 reply rd).extractLsb' 7 5 = rd := by
  ext i h
  have hi : i < 5 := h
  rw [BitVec.getElem_extractLsb', wordHost_bit]
  simp only [BitVec.getLsbD_append]
  simp only [show ¬ (7 + i < 7) by omega, if_false]
  rw [show 7 + i - 7 = i by omega, if_pos hi]
  exact BitVec.getLsbD_eq_getElem hi

@[simp] theorem wordHost_op (funct7 : BitVec 7) (rs2 : BitVec 5) (rs1 : BitVec 5) (reply : BitVec 1) (rd : BitVec 5) :
    (wordHost funct7 rs2 rs1 reply rd).extractLsb' 0 7 = 0x0B#7 := by
  ext i h
  have hi : i < 7 := h
  rw [BitVec.getElem_extractLsb', wordHost_bit]
  simp only [BitVec.getLsbD_append]
  rw [Nat.zero_add, if_pos hi]
  exact BitVec.getLsbD_eq_getElem hi

end Sys2Proof
end

