-- ==== Sys2Proof/Laws/Memory.lean ====
section
/-!
SUPPORT. The laws of sparse tables and of memory: a read after a write, what a write leaves alone, and that every memory operation keeps the canonical
form.
-/

namespace Sys2Proof.Machine

open Sys2Proof

/-! ## Tables -/

@[simp] theorem tabGet_tabPut_same {κ α : Type} [DecidableEq κ] (t : Tab κ α) (k : κ) (v : α) : tabGet (tabPut t k v) k = some v := by
  induction t with
  | nil => simp [tabPut, tabGet]
  | cons p r ih => obtain ⟨k', v'⟩ := p; by_cases h : k' = k <;> simp [tabPut, tabGet, h, ih]

theorem tabGet_tabPut_other {κ α : Type} [DecidableEq κ] (t : Tab κ α) (k j : κ) (v : α) (h : j ≠ k) :
    tabGet (tabPut t k v) j = tabGet t j := by
  have hk : ¬ k = j := fun e => h e.symm
  induction t with
  | nil => simp [tabPut, tabGet, hk]
  | cons p r ih =>
    obtain ⟨k', v'⟩ := p
    by_cases h' : k' = k
    · have : ¬ k' = j := fun e => h (by rw [← e, h'])
      simp [tabPut, tabGet, h', hk]
    · by_cases hj : k' = j <;> simp [tabPut, tabGet, h', hj, ih]
      rw [if_neg (fun e => h' (by rw [hj, e]))]
      simp [tabGet]

/-! ## The canonical form of memory -/

/-- Every listed address is at least a bound. -/
def memAbove (n : Nat) (m : List Host.Cell) : Prop := ∀ c ∈ m, n ≤ c.1

theorem memWf_cons_iff (a : Nat) (v : Byte) (r : List Host.Cell) :
    memWf ((a, v) :: r) = true ↔ v ≠ memDefault ∧ memAbove (a + 1) r ∧ memWf r = true := by
  induction r generalizing a v with
  | nil => simp [memWf, memAbove]
  | cons c r ih =>
    obtain ⟨b, w⟩ := c
    simp only [memWf, Bool.and_eq_true, bne_iff_ne, decide_eq_true_eq]
    rw [ih]
    constructor
    · rintro ⟨⟨h1, h2⟩, h3, h4, h5⟩
      refine ⟨h1, ?_, h3, h4, h5⟩
      intro c hc
      rcases List.mem_cons.mp hc with rfl | hc
      · exact h2
      · have := h4 c hc; omega
    · rintro ⟨h1, h2, h3, h4, h5⟩
      exact ⟨⟨h1, h2 (b, w) (List.mem_cons_self ..)⟩, h3, h4, h5⟩

/-- An address below every listed one reads as unlisted. -/
theorem memGet_below (m : List Host.Cell) (a : Nat) (h : memAbove (a + 1) m) : memGet m a = memDefault := by
  induction m with
  | nil => rfl
  | cons c r ih =>
    obtain ⟨b, w⟩ := c
    have hb : a + 1 ≤ b := h (b, w) (List.mem_cons_self ..)
    have : ¬ b = a := by omega
    simp only [memGet, this, if_false]
    exact ih fun c hc => h c (List.mem_cons_of_mem _ hc)

theorem memPut_above (m : List Host.Cell) (n a : Nat) (v : Byte) (h : memAbove n m) (ha : n ≤ a) : memAbove n (memPut m a v) := by
  induction m with
  | nil =>
    intro c hc
    simp only [memPut] at hc
    split at hc
    · cases hc
    · rcases List.mem_singleton.mp hc with rfl; exact ha
  | cons d r ih =>
    obtain ⟨b, w⟩ := d
    have hr : memAbove n r := fun c hc => h c (List.mem_cons_of_mem _ hc)
    have hb : n ≤ b := h (b, w) (List.mem_cons_self ..)
    intro c hc
    simp only [memPut] at hc
    split at hc
    · split at hc
      · exact h c hc
      · rcases List.mem_cons.mp hc with rfl | hc
        · exact ha
        · exact h c hc
    · split at hc
      · split at hc
        · exact hr c hc
        · rcases List.mem_cons.mp hc with rfl | hc
          · exact ha
          · exact hr c hc
      · rcases List.mem_cons.mp hc with rfl | hc
        · exact hb
        · exact ih hr c hc

theorem memAbove_mono {n k : Nat} {m : List Host.Cell} (h : memAbove n m) (hk : k ≤ n) : memAbove k m :=
  fun c hc => Nat.le_trans hk (h c hc)

/-- A write of one byte keeps the canonical form. -/
theorem memPut_wf (m : List Host.Cell) (a : Nat) (v : Byte) (h : memWf m = true) : memWf (memPut m a v) = true := by
  induction m with
  | nil => simp only [memPut]; split <;> simp_all [memWf]
  | cons c r ih =>
    obtain ⟨b, w⟩ := c
    obtain ⟨h1, h2, h3⟩ := (memWf_cons_iff b w r).mp h
    simp only [memPut]
    split
    · split
      · exact h
      · rename_i hab hv
        refine (memWf_cons_iff ..).mpr ⟨hv, ?_, h⟩
        intro c hc
        rcases List.mem_cons.mp hc with rfl | hc
        · exact hab
        · have := h2 c hc; omega
    · split
      · rename_i hab heq
        split
        · exact h3
        · rename_i hv; subst heq; exact (memWf_cons_iff ..).mpr ⟨hv, h2, h3⟩
      · rename_i hab hne
        exact (memWf_cons_iff ..).mpr ⟨h1, memPut_above r _ a v h2 (by omega), ih h3⟩

/-- A read after a write to the same address gives what was written. -/
theorem memGet_memPut_same (m : List Host.Cell) (a : Nat) (v : Byte) (h : memWf m = true) : memGet (memPut m a v) a = v := by
  induction m with
  | nil => simp only [memPut]; split <;> simp_all [memGet]
  | cons c r ih =>
    obtain ⟨b, w⟩ := c
    obtain ⟨h1, h2, h3⟩ := (memWf_cons_iff b w r).mp h
    simp only [memPut]
    split
    · split
      · rename_i hab hv
        rw [hv]
        refine memGet_below _ _ ?_
        intro c hc
        rcases List.mem_cons.mp hc with rfl | hc
        · exact hab
        · have := h2 c hc; omega
      · simp [memGet]
    · split
      · rename_i hab heq
        split
        · rename_i hv; rw [hv]; subst heq; exact memGet_below r _ h2
        · simp [memGet]
      · rename_i hab hne
        have : ¬ b = a := fun e => hne e.symm
        simp [memGet, this, ih h3]

/-- A write leaves every other address as it was. -/
theorem memGet_memPut_other (m : List Host.Cell) (a x : Nat) (v : Byte) (hx : x ≠ a) (h : memWf m = true) :
    memGet (memPut m a v) x = memGet m x := by
  have hax : ¬ a = x := fun e => hx e.symm
  induction m with
  | nil => simp only [memPut]; split <;> simp [memGet, hax]
  | cons c r ih =>
    obtain ⟨b, w⟩ := c
    obtain ⟨h1, h2, h3⟩ := (memWf_cons_iff b w r).mp h
    simp only [memPut]
    split
    · split
      · rfl
      · simp [memGet, hax]
    · split
      · rename_i hab heq
        subst heq
        split <;> simp [memGet, hax]
      · by_cases hb : b = x <;> simp [memGet, hb, ih h3]

/-- A write of bytes keeps the canonical form. -/
theorem memPutBytes_wf (bs : List Byte) (m : List Host.Cell) (a : Nat) (h : memWf m = true) : memWf (memPutBytes m a bs) = true := by
  induction bs generalizing m a with
  | nil => exact h
  | cons b r ih => exact ih _ _ (memPut_wf m a b h)

/-- A write of bytes leaves every address outside them as it was. -/
theorem memGet_memPutBytes_other (bs : List Byte) (m : List Host.Cell) (a x : Nat) (h : memWf m = true)
    (hx : x < a ∨ a + bs.length ≤ x) : memGet (memPutBytes m a bs) x = memGet m x := by
  induction bs generalizing m a with
  | nil => rfl
  | cons b r ih =>
    simp only [List.length_cons] at hx
    simp only [memPutBytes]
    rw [ih _ _ (memPut_wf m a b h) (by omega), memGet_memPut_other m a x b (by omega) h]

/-- A read of bytes after a write of as many bytes at their address gives them. -/
theorem memBytes_memPutBytes (bs : List Byte) (m : List Host.Cell) (a : Nat) (h : memWf m = true) :
    memBytes (memPutBytes m a bs) a bs.length = bs := by
  induction bs generalizing m a with
  | nil => rfl
  | cons b r ih =>
    simp only [memPutBytes, List.length_cons, memBytes]
    rw [ih _ _ (memPut_wf m a b h), memGet_memPutBytes_other _ _ _ _ (memPut_wf m a b h) (by omega), memGet_memPut_same m a b h]

/-- Bytes dropped keep the canonical form. -/
theorem memDrop_wf (m : List Host.Cell) (lo hi : Nat) (h : memWf m = true) : memWf (memDrop m lo hi) = true := by
  induction m with
  | nil => rfl
  | cons c r ih =>
    obtain ⟨b, w⟩ := c
    obtain ⟨h1, h2, h3⟩ := (memWf_cons_iff b w r).mp h
    simp only [memDrop, List.filter_cons] at ih ⊢
    split
    · refine (memWf_cons_iff ..).mpr ⟨h1, ?_, ih h3⟩
      intro c hc
      exact h2 c (List.mem_filter.mp hc).1
    · exact ih h3

/-- Bytes dropped read as unlisted ones. -/
theorem memGet_memDrop (m : List Host.Cell) (lo hi x : Nat) :
    memGet (memDrop m lo hi) x = if lo ≤ x ∧ x < hi then memDefault else memGet m x := by
  induction m with
  | nil => simp [memDrop, memGet]
  | cons c r ih =>
    obtain ⟨b, w⟩ := c
    simp only [memDrop, List.filter_cons] at ih ⊢
    by_cases hb : b < lo ∨ hi ≤ b
    · have hd : (decide (b < lo) || decide (hi ≤ b)) = true := by simpa using hb
      simp only [hd, if_true, memGet, ih]
      by_cases hx : b = x
      · subst hx; simp only [if_true]; rw [if_neg (by omega)]
      · simp [hx]
    · have hd : (decide (b < lo) || decide (hi ≤ b)) = false := by simpa using hb
      simp only [hd, memGet]
      rw [show (if false = true then (b, w) :: List.filter (fun c => decide (c.1 < lo) || decide (hi ≤ c.1)) r else
        List.filter (fun c => decide (c.1 < lo) || decide (hi ≤ c.1)) r) =
        List.filter (fun c => decide (c.1 < lo) || decide (hi ≤ c.1)) r from rfl, ih]
      by_cases hx : b = x
      · subst hx; rw [if_pos (by omega), if_pos (by omega)]
      · simp [hx]

/-- Memory of reset stands in canonical form. -/
theorem reset_memWf : memWf State.reset.mem = true := rfl

end Sys2Proof.Machine
end

