-- ==== Sys2Proof/Laws/State.lean ====
section
/-!
SUPPORT. The laws of the state's updates: for each update, what every field holds after it.
-/

namespace Sys2Proof.Machine

open Sys2Proof

/-! ## Fields that an update leaves alone -/

@[simp] theorem modUnit_mem (s : State) (k : Nat) (f : UnitState → UnitState) : (modUnit s k f).mem = s.mem := rfl
@[simp] theorem modUnit_nextUid (s : State) (k : Nat) (f : UnitState → UnitState) : (modUnit s k f).nextUid = s.nextUid := rfl
@[simp] theorem modUnit_cores (s : State) (k : Nat) (f : UnitState → UnitState) : (modUnit s k f).cores = s.cores := rfl
@[simp] theorem modUnit_clusters (s : State) (k : Nat) (f : UnitState → UnitState) : (modUnit s k f).clusters = s.clusters := rfl
@[simp] theorem modUnit_dies (s : State) (k : Nat) (f : UnitState → UnitState) : (modUnit s k f).dies = s.dies := rfl
@[simp] theorem modUnit_conts (s : State) (k : Nat) (f : UnitState → UnitState) : (modUnit s k f).conts = s.conts := rfl
@[simp] theorem modUnit_harts (s : State) (k : Nat) (f : UnitState → UnitState) : (modUnit s k f).harts = s.harts := rfl
@[simp] theorem modUnit_order (s : State) (k : Nat) (f : UnitState → UnitState) : (modUnit s k f).order = s.order := rfl
@[simp] theorem modUnit_meter (s : State) (k : Nat) (f : UnitState → UnitState) : (modUnit s k f).meter = s.meter := rfl
@[simp] theorem modUnit_sched (s : State) (k : Nat) (f : UnitState → UnitState) : (modUnit s k f).sched = s.sched := rfl
@[simp] theorem modUnit_group (s : State) (k : Nat) (f : UnitState → UnitState) : (modUnit s k f).group = s.group := rfl
@[simp] theorem modUnit_power (s : State) (k : Nat) (f : UnitState → UnitState) : (modUnit s k f).power = s.power := rfl
@[simp] theorem modUnit_boot (s : State) (k : Nat) (f : UnitState → UnitState) : (modUnit s k f).boot = s.boot := rfl
@[simp] theorem modUnit_stamp (s : State) (k : Nat) (f : UnitState → UnitState) : (modUnit s k f).stamp = s.stamp := rfl
@[simp] theorem modUnit_gendrop (s : State) (k : Nat) (f : UnitState → UnitState) : (modUnit s k f).gendrop = s.gendrop := rfl
@[simp] theorem modUnit_cur (s : State) (k : Nat) (f : UnitState → UnitState) : (modUnit s k f).cur = s.cur := rfl
@[simp] theorem modUnit_agenda (s : State) (k : Nat) (f : UnitState → UnitState) : (modUnit s k f).agenda = s.agenda := rfl
@[simp] theorem modUnit_free (s : State) (k : Nat) (f : UnitState → UnitState) : (modUnit s k f).free = s.free := rfl

@[simp] theorem modSeq_mem (s : State) (k : Nat) (q : Seq) (f : SeqState → SeqState) : (modSeq s k q f).mem = s.mem := rfl
@[simp] theorem modSeq_nextUid (s : State) (k : Nat) (q : Seq) (f : SeqState → SeqState) : (modSeq s k q f).nextUid = s.nextUid := rfl
@[simp] theorem modSeq_cores (s : State) (k : Nat) (q : Seq) (f : SeqState → SeqState) : (modSeq s k q f).cores = s.cores := rfl
@[simp] theorem modSeq_clusters (s : State) (k : Nat) (q : Seq) (f : SeqState → SeqState) : (modSeq s k q f).clusters = s.clusters := rfl
@[simp] theorem modSeq_dies (s : State) (k : Nat) (q : Seq) (f : SeqState → SeqState) : (modSeq s k q f).dies = s.dies := rfl
@[simp] theorem modSeq_conts (s : State) (k : Nat) (q : Seq) (f : SeqState → SeqState) : (modSeq s k q f).conts = s.conts := rfl
@[simp] theorem modSeq_harts (s : State) (k : Nat) (q : Seq) (f : SeqState → SeqState) : (modSeq s k q f).harts = s.harts := rfl
@[simp] theorem modSeq_order (s : State) (k : Nat) (q : Seq) (f : SeqState → SeqState) : (modSeq s k q f).order = s.order := rfl
@[simp] theorem modSeq_meter (s : State) (k : Nat) (q : Seq) (f : SeqState → SeqState) : (modSeq s k q f).meter = s.meter := rfl
@[simp] theorem modSeq_sched (s : State) (k : Nat) (q : Seq) (f : SeqState → SeqState) : (modSeq s k q f).sched = s.sched := rfl
@[simp] theorem modSeq_group (s : State) (k : Nat) (q : Seq) (f : SeqState → SeqState) : (modSeq s k q f).group = s.group := rfl
@[simp] theorem modSeq_power (s : State) (k : Nat) (q : Seq) (f : SeqState → SeqState) : (modSeq s k q f).power = s.power := rfl
@[simp] theorem modSeq_boot (s : State) (k : Nat) (q : Seq) (f : SeqState → SeqState) : (modSeq s k q f).boot = s.boot := rfl
@[simp] theorem modSeq_stamp (s : State) (k : Nat) (q : Seq) (f : SeqState → SeqState) : (modSeq s k q f).stamp = s.stamp := rfl
@[simp] theorem modSeq_gendrop (s : State) (k : Nat) (q : Seq) (f : SeqState → SeqState) : (modSeq s k q f).gendrop = s.gendrop := rfl
@[simp] theorem modSeq_cur (s : State) (k : Nat) (q : Seq) (f : SeqState → SeqState) : (modSeq s k q f).cur = s.cur := rfl
@[simp] theorem modSeq_agenda (s : State) (k : Nat) (q : Seq) (f : SeqState → SeqState) : (modSeq s k q f).agenda = s.agenda := rfl
@[simp] theorem modSeq_free (s : State) (k : Nat) (q : Seq) (f : SeqState → SeqState) : (modSeq s k q f).free = s.free := rfl

@[simp] theorem modEq_mem (s : State) (k : Nat) (q : Seq) (e : Eng) (f : EngQueue → EngQueue) : (modEq s k q e f).mem = s.mem := rfl
@[simp] theorem modEq_nextUid (s : State) (k : Nat) (q : Seq) (e : Eng) (f : EngQueue → EngQueue) : (modEq s k q e f).nextUid = s.nextUid := rfl
@[simp] theorem modEq_cores (s : State) (k : Nat) (q : Seq) (e : Eng) (f : EngQueue → EngQueue) : (modEq s k q e f).cores = s.cores := rfl
@[simp] theorem modEq_clusters (s : State) (k : Nat) (q : Seq) (e : Eng) (f : EngQueue → EngQueue) : (modEq s k q e f).clusters = s.clusters := rfl
@[simp] theorem modEq_dies (s : State) (k : Nat) (q : Seq) (e : Eng) (f : EngQueue → EngQueue) : (modEq s k q e f).dies = s.dies := rfl
@[simp] theorem modEq_conts (s : State) (k : Nat) (q : Seq) (e : Eng) (f : EngQueue → EngQueue) : (modEq s k q e f).conts = s.conts := rfl
@[simp] theorem modEq_harts (s : State) (k : Nat) (q : Seq) (e : Eng) (f : EngQueue → EngQueue) : (modEq s k q e f).harts = s.harts := rfl
@[simp] theorem modEq_order (s : State) (k : Nat) (q : Seq) (e : Eng) (f : EngQueue → EngQueue) : (modEq s k q e f).order = s.order := rfl
@[simp] theorem modEq_meter (s : State) (k : Nat) (q : Seq) (e : Eng) (f : EngQueue → EngQueue) : (modEq s k q e f).meter = s.meter := rfl
@[simp] theorem modEq_sched (s : State) (k : Nat) (q : Seq) (e : Eng) (f : EngQueue → EngQueue) : (modEq s k q e f).sched = s.sched := rfl
@[simp] theorem modEq_group (s : State) (k : Nat) (q : Seq) (e : Eng) (f : EngQueue → EngQueue) : (modEq s k q e f).group = s.group := rfl
@[simp] theorem modEq_power (s : State) (k : Nat) (q : Seq) (e : Eng) (f : EngQueue → EngQueue) : (modEq s k q e f).power = s.power := rfl
@[simp] theorem modEq_boot (s : State) (k : Nat) (q : Seq) (e : Eng) (f : EngQueue → EngQueue) : (modEq s k q e f).boot = s.boot := rfl
@[simp] theorem modEq_stamp (s : State) (k : Nat) (q : Seq) (e : Eng) (f : EngQueue → EngQueue) : (modEq s k q e f).stamp = s.stamp := rfl
@[simp] theorem modEq_gendrop (s : State) (k : Nat) (q : Seq) (e : Eng) (f : EngQueue → EngQueue) : (modEq s k q e f).gendrop = s.gendrop := rfl
@[simp] theorem modEq_cur (s : State) (k : Nat) (q : Seq) (e : Eng) (f : EngQueue → EngQueue) : (modEq s k q e f).cur = s.cur := rfl
@[simp] theorem modEq_agenda (s : State) (k : Nat) (q : Seq) (e : Eng) (f : EngQueue → EngQueue) : (modEq s k q e f).agenda = s.agenda := rfl
@[simp] theorem modEq_free (s : State) (k : Nat) (q : Seq) (e : Eng) (f : EngQueue → EngQueue) : (modEq s k q e f).free = s.free := rfl

@[simp] theorem modCore_mem (s : State) (k : Nat) (f : CoreState → CoreState) : (modCore s k f).mem = s.mem := rfl
@[simp] theorem modCore_units (s : State) (k : Nat) (f : CoreState → CoreState) : (modCore s k f).units = s.units := rfl
@[simp] theorem modCore_nextUid (s : State) (k : Nat) (f : CoreState → CoreState) : (modCore s k f).nextUid = s.nextUid := rfl
@[simp] theorem modCore_clusters (s : State) (k : Nat) (f : CoreState → CoreState) : (modCore s k f).clusters = s.clusters := rfl
@[simp] theorem modCore_dies (s : State) (k : Nat) (f : CoreState → CoreState) : (modCore s k f).dies = s.dies := rfl
@[simp] theorem modCore_conts (s : State) (k : Nat) (f : CoreState → CoreState) : (modCore s k f).conts = s.conts := rfl
@[simp] theorem modCore_harts (s : State) (k : Nat) (f : CoreState → CoreState) : (modCore s k f).harts = s.harts := rfl
@[simp] theorem modCore_order (s : State) (k : Nat) (f : CoreState → CoreState) : (modCore s k f).order = s.order := rfl
@[simp] theorem modCore_meter (s : State) (k : Nat) (f : CoreState → CoreState) : (modCore s k f).meter = s.meter := rfl
@[simp] theorem modCore_sched (s : State) (k : Nat) (f : CoreState → CoreState) : (modCore s k f).sched = s.sched := rfl
@[simp] theorem modCore_group (s : State) (k : Nat) (f : CoreState → CoreState) : (modCore s k f).group = s.group := rfl
@[simp] theorem modCore_power (s : State) (k : Nat) (f : CoreState → CoreState) : (modCore s k f).power = s.power := rfl
@[simp] theorem modCore_boot (s : State) (k : Nat) (f : CoreState → CoreState) : (modCore s k f).boot = s.boot := rfl
@[simp] theorem modCore_stamp (s : State) (k : Nat) (f : CoreState → CoreState) : (modCore s k f).stamp = s.stamp := rfl
@[simp] theorem modCore_gendrop (s : State) (k : Nat) (f : CoreState → CoreState) : (modCore s k f).gendrop = s.gendrop := rfl
@[simp] theorem modCore_cur (s : State) (k : Nat) (f : CoreState → CoreState) : (modCore s k f).cur = s.cur := rfl
@[simp] theorem modCore_agenda (s : State) (k : Nat) (f : CoreState → CoreState) : (modCore s k f).agenda = s.agenda := rfl
@[simp] theorem modCore_free (s : State) (k : Nat) (f : CoreState → CoreState) : (modCore s k f).free = s.free := rfl

@[simp] theorem modCluster_mem (s : State) (k : Nat) (f : ClusterState → ClusterState) : (modCluster s k f).mem = s.mem := rfl
@[simp] theorem modCluster_units (s : State) (k : Nat) (f : ClusterState → ClusterState) : (modCluster s k f).units = s.units := rfl
@[simp] theorem modCluster_nextUid (s : State) (k : Nat) (f : ClusterState → ClusterState) : (modCluster s k f).nextUid = s.nextUid := rfl
@[simp] theorem modCluster_cores (s : State) (k : Nat) (f : ClusterState → ClusterState) : (modCluster s k f).cores = s.cores := rfl
@[simp] theorem modCluster_dies (s : State) (k : Nat) (f : ClusterState → ClusterState) : (modCluster s k f).dies = s.dies := rfl
@[simp] theorem modCluster_conts (s : State) (k : Nat) (f : ClusterState → ClusterState) : (modCluster s k f).conts = s.conts := rfl
@[simp] theorem modCluster_harts (s : State) (k : Nat) (f : ClusterState → ClusterState) : (modCluster s k f).harts = s.harts := rfl
@[simp] theorem modCluster_order (s : State) (k : Nat) (f : ClusterState → ClusterState) : (modCluster s k f).order = s.order := rfl
@[simp] theorem modCluster_meter (s : State) (k : Nat) (f : ClusterState → ClusterState) : (modCluster s k f).meter = s.meter := rfl
@[simp] theorem modCluster_sched (s : State) (k : Nat) (f : ClusterState → ClusterState) : (modCluster s k f).sched = s.sched := rfl
@[simp] theorem modCluster_group (s : State) (k : Nat) (f : ClusterState → ClusterState) : (modCluster s k f).group = s.group := rfl
@[simp] theorem modCluster_power (s : State) (k : Nat) (f : ClusterState → ClusterState) : (modCluster s k f).power = s.power := rfl
@[simp] theorem modCluster_boot (s : State) (k : Nat) (f : ClusterState → ClusterState) : (modCluster s k f).boot = s.boot := rfl
@[simp] theorem modCluster_stamp (s : State) (k : Nat) (f : ClusterState → ClusterState) : (modCluster s k f).stamp = s.stamp := rfl
@[simp] theorem modCluster_gendrop (s : State) (k : Nat) (f : ClusterState → ClusterState) : (modCluster s k f).gendrop = s.gendrop := rfl
@[simp] theorem modCluster_cur (s : State) (k : Nat) (f : ClusterState → ClusterState) : (modCluster s k f).cur = s.cur := rfl
@[simp] theorem modCluster_agenda (s : State) (k : Nat) (f : ClusterState → ClusterState) : (modCluster s k f).agenda = s.agenda := rfl
@[simp] theorem modCluster_free (s : State) (k : Nat) (f : ClusterState → ClusterState) : (modCluster s k f).free = s.free := rfl

@[simp] theorem modPress_mem (s : State) (k : Nat) (f : PressState → PressState) : (modPress s k f).mem = s.mem := rfl
@[simp] theorem modPress_units (s : State) (k : Nat) (f : PressState → PressState) : (modPress s k f).units = s.units := rfl
@[simp] theorem modPress_nextUid (s : State) (k : Nat) (f : PressState → PressState) : (modPress s k f).nextUid = s.nextUid := rfl
@[simp] theorem modPress_cores (s : State) (k : Nat) (f : PressState → PressState) : (modPress s k f).cores = s.cores := rfl
@[simp] theorem modPress_dies (s : State) (k : Nat) (f : PressState → PressState) : (modPress s k f).dies = s.dies := rfl
@[simp] theorem modPress_conts (s : State) (k : Nat) (f : PressState → PressState) : (modPress s k f).conts = s.conts := rfl
@[simp] theorem modPress_harts (s : State) (k : Nat) (f : PressState → PressState) : (modPress s k f).harts = s.harts := rfl
@[simp] theorem modPress_order (s : State) (k : Nat) (f : PressState → PressState) : (modPress s k f).order = s.order := rfl
@[simp] theorem modPress_meter (s : State) (k : Nat) (f : PressState → PressState) : (modPress s k f).meter = s.meter := rfl
@[simp] theorem modPress_sched (s : State) (k : Nat) (f : PressState → PressState) : (modPress s k f).sched = s.sched := rfl
@[simp] theorem modPress_group (s : State) (k : Nat) (f : PressState → PressState) : (modPress s k f).group = s.group := rfl
@[simp] theorem modPress_power (s : State) (k : Nat) (f : PressState → PressState) : (modPress s k f).power = s.power := rfl
@[simp] theorem modPress_boot (s : State) (k : Nat) (f : PressState → PressState) : (modPress s k f).boot = s.boot := rfl
@[simp] theorem modPress_stamp (s : State) (k : Nat) (f : PressState → PressState) : (modPress s k f).stamp = s.stamp := rfl
@[simp] theorem modPress_gendrop (s : State) (k : Nat) (f : PressState → PressState) : (modPress s k f).gendrop = s.gendrop := rfl
@[simp] theorem modPress_cur (s : State) (k : Nat) (f : PressState → PressState) : (modPress s k f).cur = s.cur := rfl
@[simp] theorem modPress_agenda (s : State) (k : Nat) (f : PressState → PressState) : (modPress s k f).agenda = s.agenda := rfl
@[simp] theorem modPress_free (s : State) (k : Nat) (f : PressState → PressState) : (modPress s k f).free = s.free := rfl

@[simp] theorem modDie_mem (s : State) (k : Nat) (f : DieState → DieState) : (modDie s k f).mem = s.mem := rfl
@[simp] theorem modDie_units (s : State) (k : Nat) (f : DieState → DieState) : (modDie s k f).units = s.units := rfl
@[simp] theorem modDie_nextUid (s : State) (k : Nat) (f : DieState → DieState) : (modDie s k f).nextUid = s.nextUid := rfl
@[simp] theorem modDie_cores (s : State) (k : Nat) (f : DieState → DieState) : (modDie s k f).cores = s.cores := rfl
@[simp] theorem modDie_clusters (s : State) (k : Nat) (f : DieState → DieState) : (modDie s k f).clusters = s.clusters := rfl
@[simp] theorem modDie_conts (s : State) (k : Nat) (f : DieState → DieState) : (modDie s k f).conts = s.conts := rfl
@[simp] theorem modDie_harts (s : State) (k : Nat) (f : DieState → DieState) : (modDie s k f).harts = s.harts := rfl
@[simp] theorem modDie_order (s : State) (k : Nat) (f : DieState → DieState) : (modDie s k f).order = s.order := rfl
@[simp] theorem modDie_meter (s : State) (k : Nat) (f : DieState → DieState) : (modDie s k f).meter = s.meter := rfl
@[simp] theorem modDie_sched (s : State) (k : Nat) (f : DieState → DieState) : (modDie s k f).sched = s.sched := rfl
@[simp] theorem modDie_group (s : State) (k : Nat) (f : DieState → DieState) : (modDie s k f).group = s.group := rfl
@[simp] theorem modDie_power (s : State) (k : Nat) (f : DieState → DieState) : (modDie s k f).power = s.power := rfl
@[simp] theorem modDie_boot (s : State) (k : Nat) (f : DieState → DieState) : (modDie s k f).boot = s.boot := rfl
@[simp] theorem modDie_stamp (s : State) (k : Nat) (f : DieState → DieState) : (modDie s k f).stamp = s.stamp := rfl
@[simp] theorem modDie_gendrop (s : State) (k : Nat) (f : DieState → DieState) : (modDie s k f).gendrop = s.gendrop := rfl
@[simp] theorem modDie_cur (s : State) (k : Nat) (f : DieState → DieState) : (modDie s k f).cur = s.cur := rfl
@[simp] theorem modDie_agenda (s : State) (k : Nat) (f : DieState → DieState) : (modDie s k f).agenda = s.agenda := rfl
@[simp] theorem modDie_free (s : State) (k : Nat) (f : DieState → DieState) : (modDie s k f).free = s.free := rfl

@[simp] theorem modPort_mem (s : State) (k p : Nat) (f : PortState → PortState) : (modPort s k p f).mem = s.mem := rfl
@[simp] theorem modPort_units (s : State) (k p : Nat) (f : PortState → PortState) : (modPort s k p f).units = s.units := rfl
@[simp] theorem modPort_nextUid (s : State) (k p : Nat) (f : PortState → PortState) : (modPort s k p f).nextUid = s.nextUid := rfl
@[simp] theorem modPort_cores (s : State) (k p : Nat) (f : PortState → PortState) : (modPort s k p f).cores = s.cores := rfl
@[simp] theorem modPort_clusters (s : State) (k p : Nat) (f : PortState → PortState) : (modPort s k p f).clusters = s.clusters := rfl
@[simp] theorem modPort_conts (s : State) (k p : Nat) (f : PortState → PortState) : (modPort s k p f).conts = s.conts := rfl
@[simp] theorem modPort_harts (s : State) (k p : Nat) (f : PortState → PortState) : (modPort s k p f).harts = s.harts := rfl
@[simp] theorem modPort_order (s : State) (k p : Nat) (f : PortState → PortState) : (modPort s k p f).order = s.order := rfl
@[simp] theorem modPort_meter (s : State) (k p : Nat) (f : PortState → PortState) : (modPort s k p f).meter = s.meter := rfl
@[simp] theorem modPort_sched (s : State) (k p : Nat) (f : PortState → PortState) : (modPort s k p f).sched = s.sched := rfl
@[simp] theorem modPort_group (s : State) (k p : Nat) (f : PortState → PortState) : (modPort s k p f).group = s.group := rfl
@[simp] theorem modPort_power (s : State) (k p : Nat) (f : PortState → PortState) : (modPort s k p f).power = s.power := rfl
@[simp] theorem modPort_boot (s : State) (k p : Nat) (f : PortState → PortState) : (modPort s k p f).boot = s.boot := rfl
@[simp] theorem modPort_stamp (s : State) (k p : Nat) (f : PortState → PortState) : (modPort s k p f).stamp = s.stamp := rfl
@[simp] theorem modPort_gendrop (s : State) (k p : Nat) (f : PortState → PortState) : (modPort s k p f).gendrop = s.gendrop := rfl
@[simp] theorem modPort_cur (s : State) (k p : Nat) (f : PortState → PortState) : (modPort s k p f).cur = s.cur := rfl
@[simp] theorem modPort_agenda (s : State) (k p : Nat) (f : PortState → PortState) : (modPort s k p f).agenda = s.agenda := rfl
@[simp] theorem modPort_free (s : State) (k p : Nat) (f : PortState → PortState) : (modPort s k p f).free = s.free := rfl

@[simp] theorem modCont_mem (s : State) (k : Nat) (f : ContState → ContState) : (modCont s k f).mem = s.mem := rfl
@[simp] theorem modCont_units (s : State) (k : Nat) (f : ContState → ContState) : (modCont s k f).units = s.units := rfl
@[simp] theorem modCont_nextUid (s : State) (k : Nat) (f : ContState → ContState) : (modCont s k f).nextUid = s.nextUid := rfl
@[simp] theorem modCont_cores (s : State) (k : Nat) (f : ContState → ContState) : (modCont s k f).cores = s.cores := rfl
@[simp] theorem modCont_clusters (s : State) (k : Nat) (f : ContState → ContState) : (modCont s k f).clusters = s.clusters := rfl
@[simp] theorem modCont_dies (s : State) (k : Nat) (f : ContState → ContState) : (modCont s k f).dies = s.dies := rfl
@[simp] theorem modCont_harts (s : State) (k : Nat) (f : ContState → ContState) : (modCont s k f).harts = s.harts := rfl
@[simp] theorem modCont_order (s : State) (k : Nat) (f : ContState → ContState) : (modCont s k f).order = s.order := rfl
@[simp] theorem modCont_meter (s : State) (k : Nat) (f : ContState → ContState) : (modCont s k f).meter = s.meter := rfl
@[simp] theorem modCont_sched (s : State) (k : Nat) (f : ContState → ContState) : (modCont s k f).sched = s.sched := rfl
@[simp] theorem modCont_group (s : State) (k : Nat) (f : ContState → ContState) : (modCont s k f).group = s.group := rfl
@[simp] theorem modCont_power (s : State) (k : Nat) (f : ContState → ContState) : (modCont s k f).power = s.power := rfl
@[simp] theorem modCont_boot (s : State) (k : Nat) (f : ContState → ContState) : (modCont s k f).boot = s.boot := rfl
@[simp] theorem modCont_stamp (s : State) (k : Nat) (f : ContState → ContState) : (modCont s k f).stamp = s.stamp := rfl
@[simp] theorem modCont_gendrop (s : State) (k : Nat) (f : ContState → ContState) : (modCont s k f).gendrop = s.gendrop := rfl
@[simp] theorem modCont_cur (s : State) (k : Nat) (f : ContState → ContState) : (modCont s k f).cur = s.cur := rfl
@[simp] theorem modCont_agenda (s : State) (k : Nat) (f : ContState → ContState) : (modCont s k f).agenda = s.agenda := rfl
@[simp] theorem modCont_free (s : State) (k : Nat) (f : ContState → ContState) : (modCont s k f).free = s.free := rfl

@[simp] theorem modHart_mem (s : State) (k : Nat) (f : HartState → HartState) : (modHart s k f).mem = s.mem := rfl
@[simp] theorem modHart_units (s : State) (k : Nat) (f : HartState → HartState) : (modHart s k f).units = s.units := rfl
@[simp] theorem modHart_nextUid (s : State) (k : Nat) (f : HartState → HartState) : (modHart s k f).nextUid = s.nextUid := rfl
@[simp] theorem modHart_cores (s : State) (k : Nat) (f : HartState → HartState) : (modHart s k f).cores = s.cores := rfl
@[simp] theorem modHart_clusters (s : State) (k : Nat) (f : HartState → HartState) : (modHart s k f).clusters = s.clusters := rfl
@[simp] theorem modHart_dies (s : State) (k : Nat) (f : HartState → HartState) : (modHart s k f).dies = s.dies := rfl
@[simp] theorem modHart_conts (s : State) (k : Nat) (f : HartState → HartState) : (modHart s k f).conts = s.conts := rfl
@[simp] theorem modHart_order (s : State) (k : Nat) (f : HartState → HartState) : (modHart s k f).order = s.order := rfl
@[simp] theorem modHart_meter (s : State) (k : Nat) (f : HartState → HartState) : (modHart s k f).meter = s.meter := rfl
@[simp] theorem modHart_sched (s : State) (k : Nat) (f : HartState → HartState) : (modHart s k f).sched = s.sched := rfl
@[simp] theorem modHart_group (s : State) (k : Nat) (f : HartState → HartState) : (modHart s k f).group = s.group := rfl
@[simp] theorem modHart_power (s : State) (k : Nat) (f : HartState → HartState) : (modHart s k f).power = s.power := rfl
@[simp] theorem modHart_boot (s : State) (k : Nat) (f : HartState → HartState) : (modHart s k f).boot = s.boot := rfl
@[simp] theorem modHart_stamp (s : State) (k : Nat) (f : HartState → HartState) : (modHart s k f).stamp = s.stamp := rfl
@[simp] theorem modHart_gendrop (s : State) (k : Nat) (f : HartState → HartState) : (modHart s k f).gendrop = s.gendrop := rfl
@[simp] theorem modHart_cur (s : State) (k : Nat) (f : HartState → HartState) : (modHart s k f).cur = s.cur := rfl
@[simp] theorem modHart_agenda (s : State) (k : Nat) (f : HartState → HartState) : (modHart s k f).agenda = s.agenda := rfl
@[simp] theorem modHart_free (s : State) (k : Nat) (f : HartState → HartState) : (modHart s k f).free = s.free := rfl

/-! ## Parts that an update writes -/

@[simp] theorem getUnit_setUnit_same (s : State) (k : Nat) (u : UnitState) : getUnit (setUnit s k u) k = u := by
  simp [getUnit, setUnit]

theorem getUnit_setUnit_other (s : State) (k j : Nat) (u : UnitState) (h : j ≠ k) : getUnit (setUnit s k u) j = getUnit s j := by
  simp [getUnit, setUnit, tabGet_tabPut_other _ _ _ _ h]

@[simp] theorem getUnit_modUnit_same (s : State) (k : Nat) (f : UnitState → UnitState) : getUnit (modUnit s k f) k = f (getUnit s k) := by
  simp [modUnit]

theorem getUnit_modUnit_other (s : State) (k j : Nat) (f : UnitState → UnitState) (h : j ≠ k) :
    getUnit (modUnit s k f) j = getUnit s j := by
  simp [modUnit, getUnit_setUnit_other _ _ _ _ h]

@[simp] theorem seq_setSeq_same (u : UnitState) (q : Seq) (c : SeqState) : (u.setSeq q c).seq q = c := by
  cases q <;> simp [UnitState.setSeq, UnitState.seq]

theorem seq_setSeq_other (u : UnitState) (q p : Seq) (c : SeqState) (h : p ≠ q) : (u.setSeq q c).seq p = u.seq p := by
  cases q <;> cases p <;> first | exact absurd rfl h | simp [UnitState.setSeq, UnitState.seq]

@[simp] theorem getSeq_modSeq_same (s : State) (k : Nat) (q : Seq) (f : SeqState → SeqState) :
    getSeq (modSeq s k q f) k q = f (getSeq s k q) := by
  simp [getSeq, modSeq]

theorem getSeq_modSeq_other (s : State) (k : Nat) (q p : Seq) (f : SeqState → SeqState) (h : p ≠ q) :
    getSeq (modSeq s k q f) k p = getSeq s k p := by
  simp [getSeq, modSeq, seq_setSeq_other _ _ _ _ h]

@[simp] theorem getUnit_modSeq_same (s : State) (k : Nat) (q : Seq) (f : SeqState → SeqState) :
    getUnit (modSeq s k q f) k = (getUnit s k).setSeq q (f (getSeq s k q)) := by
  simp [modSeq, getSeq]

theorem getUnit_modSeq_other (s : State) (k j : Nat) (q : Seq) (f : SeqState → SeqState) (h : j ≠ k) :
    getUnit (modSeq s k q f) j = getUnit s j := getUnit_modUnit_other _ _ _ _ h

@[simp] theorem eq_setEq_same (c : SeqState) (e : Eng) (v : EngQueue) : (c.setEq e v).eq e = v := by
  cases e <;> simp [SeqState.setEq, SeqState.eq]

theorem eq_setEq_other (c : SeqState) (e g : Eng) (v : EngQueue) (h : g ≠ e) : (c.setEq e v).eq g = c.eq g := by
  cases e <;> cases g <;> first | exact absurd rfl h | simp [SeqState.setEq, SeqState.eq]

@[simp] theorem getCore_modCore_same (s : State) (k : Nat) (f : CoreState → CoreState) : getCore (modCore s k f) k = f (getCore s k) := by
  simp [getCore, modCore]

theorem getCore_modCore_other (s : State) (k j : Nat) (f : CoreState → CoreState) (h : j ≠ k) :
    getCore (modCore s k f) j = getCore s j := by
  simp [getCore, modCore, tabGet_tabPut_other _ _ _ _ h]

@[simp] theorem getCluster_modCluster_same (s : State) (k : Nat) (f : ClusterState → ClusterState) :
    getCluster (modCluster s k f) k = f (getCluster s k) := by
  simp [getCluster, modCluster]

theorem getCluster_modCluster_other (s : State) (k j : Nat) (f : ClusterState → ClusterState) (h : j ≠ k) :
    getCluster (modCluster s k f) j = getCluster s j := by
  simp [getCluster, modCluster, tabGet_tabPut_other _ _ _ _ h]

@[simp] theorem getCont_modCont_same (s : State) (k : Nat) (f : ContState → ContState) : getCont (modCont s k f) k = f (getCont s k) := by
  simp [getCont, modCont]

theorem getCont_modCont_other (s : State) (k j : Nat) (f : ContState → ContState) (h : j ≠ k) :
    getCont (modCont s k f) j = getCont s j := by
  simp [getCont, modCont, tabGet_tabPut_other _ _ _ _ h]

@[simp] theorem getHart_modHart_same (s : State) (k : Nat) (f : HartState → HartState) : getHart (modHart s k f) k = f (getHart s k) := by
  simp [getHart, modHart]

theorem getHart_modHart_other (s : State) (k j : Nat) (f : HartState → HartState) (h : j ≠ k) :
    getHart (modHart s k f) j = getHart s j := by
  simp [getHart, modHart, tabGet_tabPut_other _ _ _ _ h]

@[simp] theorem getDie_modDie_same (s : State) (k : Nat) (f : DieState → DieState) (h : k < 4) :
    getDie (modDie s k f) k = f (getDie s k) := by
  simp [getDie, modDie, h]

/-! ## The fields of a unit and of a sequencer under their updates -/

@[simp] theorem setSeq_ident (u : UnitState) (q : Seq) (c : SeqState) : (u.setSeq q c).ident = u.ident := by cases q <;> rfl
@[simp] theorem setSeq_place (u : UnitState) (q : Seq) (c : SeqState) : (u.setSeq q c).place = u.place := by cases q <;> rfl
@[simp] theorem setSeq_tokens (u : UnitState) (q : Seq) (c : SeqState) : (u.setSeq q c).tokens = u.tokens := by cases q <;> rfl
@[simp] theorem setSeq_bq (u : UnitState) (q : Seq) (c : SeqState) : (u.setSeq q c).bq = u.bq := by cases q <;> rfl
@[simp] theorem setSeq_vqin (u : UnitState) (q : Seq) (c : SeqState) : (u.setSeq q c).vqin = u.vqin := by cases q <;> rfl
@[simp] theorem setSeq_vqout (u : UnitState) (q : Seq) (c : SeqState) : (u.setSeq q c).vqout = u.vqout := by cases q <;> rfl
@[simp] theorem setSeq_aflags (u : UnitState) (q : Seq) (c : SeqState) : (u.setSeq q c).aflags = u.aflags := by cases q <;> rfl
@[simp] theorem setSeq_xs (u : UnitState) (q : Seq) (c : SeqState) : (u.setSeq q c).xs = u.xs := by cases q <;> rfl
@[simp] theorem setSeq_levels (u : UnitState) (q : Seq) (c : SeqState) : (u.setSeq q c).levels = u.levels := by cases q <;> rfl
@[simp] theorem setSeq_nlevel (u : UnitState) (q : Seq) (c : SeqState) : (u.setSeq q c).nlevel = u.nlevel := by cases q <;> rfl
@[simp] theorem setSeq_levelSpare (u : UnitState) (q : Seq) (c : SeqState) : (u.setSeq q c).levelSpare = u.levelSpare := by cases q <;> rfl
@[simp] theorem setSeq_reads (u : UnitState) (q : Seq) (c : SeqState) : (u.setSeq q c).reads = u.reads := by cases q <;> rfl
@[simp] theorem setSeq_press (u : UnitState) (q : Seq) (c : SeqState) : (u.setSeq q c).press = u.press := by cases q <;> rfl
@[simp] theorem setSeq_superstep (u : UnitState) (q : Seq) (c : SeqState) : (u.setSeq q c).superstep = u.superstep := by cases q <;> rfl
@[simp] theorem setSeq_energy (u : UnitState) (q : Seq) (c : SeqState) : (u.setSeq q c).energy = u.energy := by cases q <;> rfl
@[simp] theorem setSeq_energyPj (u : UnitState) (q : Seq) (c : SeqState) : (u.setSeq q c).energyPj = u.energyPj := by cases q <;> rfl
@[simp] theorem setSeq_exitLeft (u : UnitState) (q : Seq) (c : SeqState) : (u.setSeq q c).exitLeft = u.exitLeft := by cases q <;> rfl
@[simp] theorem setSeq_saved (u : UnitState) (q : Seq) (c : SeqState) : (u.setSeq q c).saved = u.saved := by cases q <;> rfl
@[simp] theorem setSeq_debugger (u : UnitState) (q : Seq) (c : SeqState) : (u.setSeq q c).debugger = u.debugger := by cases q <;> rfl
@[simp] theorem setSeq_alive (u : UnitState) (q : Seq) (c : SeqState) : (u.setSeq q c).alive = u.alive := by cases q <;> rfl

@[simp] theorem modFl_regs (c : SeqState) (f : Flight → Flight) : (c.modFl f).regs = c.regs := rfl
@[simp] theorem modFl_handles (c : SeqState) (f : Flight → Flight) : (c.modFl f).handles = c.handles := rfl
@[simp] theorem modFl_preds (c : SeqState) (f : Flight → Flight) : (c.modFl f).preds = c.preds := rfl
@[simp] theorem modFl_pc (c : SeqState) (f : Flight → Flight) : (c.modFl f).pc = c.pc := rfl
@[simp] theorem modFl_streamBase (c : SeqState) (f : Flight → Flight) : (c.modFl f).streamBase = c.streamBase := rfl
@[simp] theorem modFl_streamSize (c : SeqState) (f : Flight → Flight) : (c.modFl f).streamSize = c.streamSize := rfl
@[simp] theorem modFl_vc (c : SeqState) (f : Flight → Flight) : (c.modFl f).vc = c.vc := rfl
@[simp] theorem modFl_slots (c : SeqState) (f : Flight → Flight) : (c.modFl f).slots = c.slots := rfl
@[simp] theorem modFl_event (c : SeqState) (f : Flight → Flight) : (c.modFl f).event = c.event := rfl
@[simp] theorem modFl_dbg (c : SeqState) (f : Flight → Flight) : (c.modFl f).dbg = c.dbg := rfl
@[simp] theorem modFl_tr (c : SeqState) (f : Flight → Flight) : (c.modFl f).tr = c.tr := rfl
@[simp] theorem modFl_dq (c : SeqState) (f : Flight → Flight) : (c.modFl f).dq = c.dq := rfl
@[simp] theorem modFl_eng (c : SeqState) (f : Flight → Flight) : (c.modFl f).eng = c.eng := rfl
@[simp] theorem modFl_status (c : SeqState) (f : Flight → Flight) : (c.modFl f).status = c.status := rfl
@[simp] theorem modFl_fl (c : SeqState) (f : Flight → Flight) : (c.modFl f).fl = f c.fl := rfl

@[simp] theorem setEq_regs (c : SeqState) (e : Eng) (v : EngQueue) : (c.setEq e v).regs = c.regs := by cases e <;> rfl
@[simp] theorem setEq_handles (c : SeqState) (e : Eng) (v : EngQueue) : (c.setEq e v).handles = c.handles := by cases e <;> rfl
@[simp] theorem setEq_preds (c : SeqState) (e : Eng) (v : EngQueue) : (c.setEq e v).preds = c.preds := by cases e <;> rfl
@[simp] theorem setEq_pc (c : SeqState) (e : Eng) (v : EngQueue) : (c.setEq e v).pc = c.pc := by cases e <;> rfl
@[simp] theorem setEq_streamBase (c : SeqState) (e : Eng) (v : EngQueue) : (c.setEq e v).streamBase = c.streamBase := by cases e <;> rfl
@[simp] theorem setEq_streamSize (c : SeqState) (e : Eng) (v : EngQueue) : (c.setEq e v).streamSize = c.streamSize := by cases e <;> rfl
@[simp] theorem setEq_vc (c : SeqState) (e : Eng) (v : EngQueue) : (c.setEq e v).vc = c.vc := by cases e <;> rfl
@[simp] theorem setEq_slots (c : SeqState) (e : Eng) (v : EngQueue) : (c.setEq e v).slots = c.slots := by cases e <;> rfl
@[simp] theorem setEq_event (c : SeqState) (e : Eng) (v : EngQueue) : (c.setEq e v).event = c.event := by cases e <;> rfl
@[simp] theorem setEq_dbg (c : SeqState) (e : Eng) (v : EngQueue) : (c.setEq e v).dbg = c.dbg := by cases e <;> rfl
@[simp] theorem setEq_tr (c : SeqState) (e : Eng) (v : EngQueue) : (c.setEq e v).tr = c.tr := by cases e <;> rfl
@[simp] theorem setEq_dq (c : SeqState) (e : Eng) (v : EngQueue) : (c.setEq e v).dq = c.dq := by cases e <;> rfl
@[simp] theorem setEq_fl (c : SeqState) (e : Eng) (v : EngQueue) : (c.setEq e v).fl = c.fl := by cases e <;> rfl
@[simp] theorem setEq_status (c : SeqState) (e : Eng) (v : EngQueue) : (c.setEq e v).status = c.status := by cases e <;> rfl

end Sys2Proof.Machine
end

