-- ==== Sys2Proof/Laws/Issue.lean ====
section
/-!
SUPPORT. What the shared operation of issue does: a word that issues ends with its body's state, freezes, traps, or does not issue.
-/

namespace Sys2Proof.Machine

open Sys2Proof

@[simp] theorem flushPushes_nil (n : Nat) (s : State) (uid : Nat) (q : Seq) (h : (getSeq s uid q).fl.pushes = []) :
    flushPushes n s uid q = s := by
  cases n <;> simp [flushPushes, h]

/-- A word that issues and whose body succeeds ends its turn. -/
theorem issueThen_ok {s p t : State} {i : Instr} {tk : BitVec 2} {carried : Bool} {body : Ctx → M Unit} {after : Ctx → State → State}
    (h : Issues s i tk p) (hb : body (issueCtx s i tk) (bodyState s p) = .ok ((), t)) :
    issueThen i tk carried body after s = .next (after (issueCtx s i tk) (endWord s i tk carried t)) := by
  obtain ⟨h1, h2, h3, h4⟩ := h
  simp only [State.acting] at h3 h4
  simp only [bodyState] at hb
  simp [issueThen, popThen, afterPushes, h1, h2, h3, h4, hb, endWord]

theorem issue_ok {s p t : State} {i : Instr} {tk : BitVec 2} {carried : Bool} {body : Ctx → M Unit}
    (h : Issues s i tk p) (hb : body (issueCtx s i tk) (bodyState s p) = .ok ((), t)) :
    issue i tk carried body s = .next (endWord s i tk carried t) := issueThen_ok h hb

/-- A word that issues and whose body stops freezes or traps. -/
theorem issueThen_stop {s p : State} {i : Instr} {tk : BitVec 2} {carried : Bool} {body : Ctx → M Unit} {after : Ctx → State → State}
    {e : Stop} (h : Issues s i tk p) (hb : body (issueCtx s i tk) (bodyState s p) = .error e) :
    issueThen i tk carried body after s = .next (stopWord (if e.unpops i then s else p) (issueCtx s i tk) e) := by
  obtain ⟨h1, h2, h3, h4⟩ := h
  simp only [State.acting] at h3 h4
  simp only [bodyState] at hb
  simp [issueThen, popThen, afterPushes, h1, h2, h3, h4, hb]

/-- A word that is illegal in its sequencer traps with no token action, once no earlier push waits (R66, R68, R81). -/
theorem issueThen_illegal {s : State} {i : Instr} {tk : BitVec 2} {carried : Bool} {body : Ctx → M Unit} {after : Ctx → State → State}
    (h1 : canIssue s s.cur.uid s.cur.q = true) (h3 : (getSeq s.flushed s.cur.uid s.cur.q).fl.pushes = []) (h2 : i.legalIn s.cur.q = false) :
    issueThen i tk carried body after s =
      .next (takeTrap s.flushed s.cur.uid s.cur.q 1 ((wordOf i).setWidth 64) (wordOf i) false none) := by
  simp only [State.flushed] at h3
  simp [issueThen, popThen, afterPushes, h1, h2, h3, issueCtx, State.flushed]

/-- A sequencer that may not issue does nothing. -/
theorem issueThen_idle {s : State} {i : Instr} {tk : BitVec 2} {carried : Bool} {body : Ctx → M Unit} {after : Ctx → State → State}
    (h1 : canIssue s s.cur.uid s.cur.q = false) : issueThen i tk carried body after s = .next s := by
  simp [issueThen, popThen, h1]

/-! ## The monad of bodies -/

@[simp] theorem M_pure {α : Type} (a : α) (s : State) : (pure a : M α) s = .ok (a, s) := rfl

theorem M_bind_ok {α β : Type} {m : M α} {f : α → M β} {s t : State} {a : α} (h : m s = .ok (a, t)) : (m >>= f) s = f a t := by
  show (m s >>= fun p => f p.1 p.2) = _
  rw [h]; rfl

theorem M_bind_error {α β : Type} {m : M α} {f : α → M β} {s : State} {e : Stop} (h : m s = .error e) : (m >>= f) s = .error e := by
  show (m s >>= fun p => f p.1 p.2) = _
  rw [h]; rfl

/-- A bind that succeeds is its two parts. -/
theorem M_bind_eq_ok {α β : Type} {m : M α} {f : α → M β} {s t : State} {b : β} (h : (m >>= f) s = .ok (b, t)) :
    ∃ a u, m s = .ok (a, u) ∧ f a u = .ok (b, t) := by
  cases hm : m s with
  | ok p => exact ⟨p.1, p.2, rfl, by rw [M_bind_ok hm] at h; exact h⟩
  | error e => rw [M_bind_error hm] at h; cases h

@[simp] theorem M_get (s : State) : (get : M State) s = .ok (s, s) := rfl
@[simp] theorem M_set (s t : State) : (set t : M Unit) s = .ok ((), t) := rfl
@[simp] theorem upd_ok (f : State → State) (s : State) : upd f s = .ok ((), f s) := rfl
@[simp] theorem theUnit_ok (c : Ctx) (s : State) : theUnit c s = .ok (getUnit s c.uid, s) := rfl
@[simp] theorem theSeq_ok (c : Ctx) (s : State) : theSeq c s = .ok (getSeq s c.uid c.q, s) := rfl
@[simp] theorem updUnit_ok (c : Ctx) (f : UnitState → UnitState) (s : State) : updUnit c f s = .ok ((), modUnit s c.uid f) := rfl
@[simp] theorem updSeq_ok (c : Ctx) (f : SeqState → SeqState) (s : State) : updSeq c f s = .ok ((), modSeq s c.uid c.q f) := rfl
@[simp] theorem freeWord_ok (s : State) : freeWord s = .ok (Config.freeValue s.free, { s with free := s.free + 1 }) := rfl

end Sys2Proof.Machine
end

