-- ==== Sys2Proof/Laws/Scalar.lean ====
section
/-!
SUPPORT. What the shared operations of scalar words do: sources, results, and the forms of the scalar instructions.
-/

namespace Sys2Proof.Machine

open Sys2Proof

/-- With register checks off no read traps. -/
theorem pendCheck_off (c : Ctx) (k : LandKind) (n : Nat) (s : State) (h : (getSeq s c.uid c.q).dbg.getLsbD 0 = false) :
    pendCheck c k n s = .ok ((), s) := by
  unfold pendCheck
  rw [M_bind_ok (theSeq_ok c s)]
  have h' : (getSeq s c.uid c.q).dbg[0] = false := by simpa using h
  simp [h']

theorem rs_none (c : Ctx) {w : Nat} (r : BitVec w) (s : State) (h : r.toNat = 0 ∨ r.toNat = 61) : rs c r s = .ok (0, s) := by
  simp [rs, h]

theorem rs_pop (c : Ctx) {w : Nat} (r : BitVec w) (s : State) (h : r.toNat = 60) : rs c r s = popDqin c s := by
  have : ¬ (r.toNat = 0 ∨ r.toNat = 61) := by omega
  unfold rs
  rw [if_neg this, if_pos h]

theorem rs_reg (c : Ctx) {w : Nat} (r : BitVec w) (s : State) (h : r.toNat ≠ 0) (h1 : r.toNat ≠ 60) (h2 : r.toNat ≠ 61)
    (hd : (getSeq s c.uid c.q).dbg.getLsbD 0 = false) : rs c r s = .ok ((getSeq s c.uid c.q).regs[r.toNat]?.getD 0, s) := by
  have : ¬ (r.toNat = 0 ∨ r.toNat = 61) := by omega
  unfold rs
  rw [if_neg this, if_neg h1, M_bind_ok (pendCheck_off c _ _ s hd), M_bind_ok (theSeq_ok c s)]
  rfl

theorem popDqin_empty (c : Ctx) (s : State) (h : (getSeq s c.uid c.q).dq.dqin = []) : popDqin c s = .error (.freeze (.queue 8) none) := by
  unfold popDqin
  rw [M_bind_ok (theSeq_ok c s)]
  simp [h, freeze]

/-- A change of a sequencer and its unit that keeps the checks in force and what is in flight. -/
theorem popped_flight (s : State) (c : Ctx) (g : SeqState → SeqState) (f : UnitState → UnitState) (hg : ∀ d, (g d).dbg = d.dbg ∧ (g d).fl = d.fl)
    (hf : ∀ u q, (f u).seq q = u.seq q) :
    (getSeq (modUnit (modSeq s c.uid c.q g) c.uid f) c.uid c.q).dbg = (getSeq s c.uid c.q).dbg ∧
      (getSeq (modUnit (modSeq s c.uid c.q g) c.uid f) c.uid c.q).fl = (getSeq s c.uid c.q).fl := by
  simp only [getSeq, getUnit_modUnit_same, hf, getUnit_modSeq_same, seq_setSeq_same]
  exact hg _

/-- A scalar source changes neither the checks in force nor what is in flight at its sequencer. -/
theorem rs_flight {c : Ctx} {w : Nat} {a : BitVec w} {s t : State} {x : Word} (h : rs c a s = .ok (x, t)) :
    (getSeq t c.uid c.q).dbg = (getSeq s c.uid c.q).dbg ∧ (getSeq t c.uid c.q).fl = (getSeq s c.uid c.q).fl := by
  unfold rs at h
  split at h
  · cases h; exact ⟨rfl, rfl⟩
  split at h
  · unfold popDqin at h
    rw [M_bind_ok (theSeq_ok c s)] at h
    dsimp only at h
    cases hq : (getSeq s c.uid c.q).dq.dqin with
    | nil => rw [hq] at h; cases h
    | cons e r =>
    rw [hq] at h
    dsimp only at h
    cases hv : dqinConvert (getSeq s c.uid c.q).dq.src.toNat (getSeq s c.uid c.q).dq.snk.toNat e.val with
    | none => rw [hv] at h; cases h
    | some v =>
      rw [hv] at h
      dsimp only at h
      rw [M_bind_ok (updSeq_ok c _ s), M_bind_ok (updUnit_ok c _ _)] at h
      have base := popped_flight s c (fun sq => { sq with dq := { sq.dq with dqin := r } }) (fun u => { u with aflags := u.aflags ||| v.2 })
        (fun _ => ⟨rfl, rfl⟩) fun u q => by cases q <;> rfl
      cases ha : e.acq with
      | none =>
        rw [ha] at h
        dsimp only at h
        rw [M_pure] at h
        injection h with h
        injection h with _ h
        rw [← h]
        exact base
      | some rel =>
        rw [ha] at h
        dsimp only at h
        rw [M_bind_ok (upd_ok _ _), M_pure] at h
        injection h with h
        injection h with _ h
        rw [← h]
        exact base
  · obtain ⟨_, u, hp, h⟩ := M_bind_eq_ok h
    rw [M_bind_ok (theSeq_ok c u)] at h
    cases h
    unfold pendCheck at hp
    rw [M_bind_ok (theSeq_ok c s)] at hp
    split at hp
    · cases hp
    · cases hp; exact ⟨rfl, rfl⟩

/-- A source that can be read from some state of the sequencer is no pending one in another with the same checks and the same in flight. -/
theorem pendScalar_ok {c : Ctx} {w : Nat} {b : BitVec w} {s t u : State} {y : Word} (h : rs c b t = .ok (y, u))
    (hd : (getSeq t c.uid c.q).dbg = (getSeq s c.uid c.q).dbg) (hf : (getSeq t c.uid c.q).fl = (getSeq s c.uid c.q).fl) :
    pendScalar c b s = .ok ((), s) := by
  unfold pendScalar
  split
  · rfl
  · rename_i hn
    unfold rs at h
    rw [if_neg (by omega), if_neg (by omega)] at h
    obtain ⟨_, v, hp, -⟩ := M_bind_eq_ok h
    unfold pendCheck at hp ⊢
    rw [M_bind_ok (theSeq_ok c t)] at hp
    rw [M_bind_ok (theSeq_ok c s)]
    have e : pendingReg (getSeq t c.uid c.q) .scalar b.toNat = pendingReg (getSeq s c.uid c.q) .scalar b.toNat := by simp only [pendingReg, hf]
    rw [hd, e] at hp
    split at hp
    · cases hp
    · rename_i hc; rw [if_neg hc]; rfl

theorem rs2_ok {c : Ctx} {w : Nat} {a b : BitVec w} {s t u : State} {x y : Word} (h1 : rs c a s = .ok (x, t)) (h2 : rs c b t = .ok (y, u)) :
    rs2 c a b s = .ok ((x, y), u) := by
  unfold rs2
  rw [M_bind_ok (pendScalar_ok h1 rfl rfl), M_bind_ok (pendScalar_ok h2 (rs_flight h1).1 (rs_flight h1).2), M_bind_ok h1, M_bind_ok h2]; rfl

theorem pendScalar_same {c : Ctx} {w : Nat} {b : BitVec w} {s t : State} {u : Unit} (h : pendScalar c b s = .ok (u, t)) : t = s := by
  unfold pendScalar at h
  split at h
  · cases h; rfl
  · unfold pendCheck at h
    rw [M_bind_ok (theSeq_ok c s)] at h
    split at h
    · cases h
    · cases h; rfl

/-- Two scalar sources change neither the checks in force nor what is in flight at their sequencer. -/
theorem rs2_flight {c : Ctx} {w : Nat} {a b : BitVec w} {s t : State} {v : Word × Word} (h : rs2 c a b s = .ok (v, t)) :
    (getSeq t c.uid c.q).dbg = (getSeq s c.uid c.q).dbg ∧ (getSeq t c.uid c.q).fl = (getSeq s c.uid c.q).fl := by
  unfold rs2 at h
  obtain ⟨_, s1, h1, g1⟩ := M_bind_eq_ok h
  obtain ⟨_, s2, h2, g2⟩ := M_bind_eq_ok g1
  obtain ⟨_, s3, h3, g3⟩ := M_bind_eq_ok g2
  obtain ⟨_, s4, h4, g4⟩ := M_bind_eq_ok g3
  rw [pendScalar_same h2, pendScalar_same h1] at h3
  rw [M_pure] at g4
  injection g4 with g4
  injection g4 with _ g4
  rw [← g4]
  exact ⟨(rs_flight h4).1.trans (rs_flight h3).1, (rs_flight h4).2.trans (rs_flight h3).2⟩

/-- A number below the next reservation is one that is taken; the next one is not. -/
theorem lt_nextRid {l : List Nat} {n : Nat} (h : n ∈ l) : n < nextRid l := by
  induction l with
  | nil => simp at h
  | cons a l ih =>
    simp only [nextRid]
    rcases List.mem_cons.1 h with h | h
    · subst h; exact Nat.lt_of_lt_of_le (Nat.lt_succ_self _) (Nat.le_max_left _ _)
    · exact Nat.lt_of_lt_of_le (ih h) (Nat.le_max_right _ _)

theorem aluRR_ok {i : Instr} {tk : BitVec 2} {d a b : BitVec 6} {lat : Nat} {f : Word → Word → Word} {s p t0 t : State} {x y : Word}
    (h : Issues s i tk p) (h1 : rs2 (issueCtx s i tk) a b (bodyState s p) = .ok ((x, y), t0))
    (h2 : landScalar (issueCtx s i tk) d.toNat (f x y) lat t0 = .ok ((), t)) :
    aluRR i tk d a b lat f s = .next (endWord s i tk true t) := by
  refine issue_ok h ?_
  rw [M_bind_ok h1]; exact h2

theorem aluR_ok {i : Instr} {tk : BitVec 2} {d a : BitVec 6} {lat : Nat} {f : Word → Word} {s p t0 t : State} {x : Word}
    (h : Issues s i tk p) (h1 : rs (issueCtx s i tk) a (bodyState s p) = .ok (x, t0))
    (h2 : landScalar (issueCtx s i tk) d.toNat (f x) lat t0 = .ok ((), t)) :
    aluR i tk d a lat f s = .next (endWord s i tk true t) := by
  refine issue_ok h ?_
  rw [M_bind_ok h1]; exact h2

end Sys2Proof.Machine
end

