-- ==== Sys2Proof/Laws/Engine.lean ====
section
/-!
SUPPORT. What the issue of an engine command does: it enters the queue of its sequencer with its locks, or the word freezes.
-/

namespace Sys2Proof.Machine

open Sys2Proof

/-- A word whose body stops with anything but an illegal-instruction trap stops in the state after its pop. -/
theorem issue_stop' {s p : State} {i : Instr} {tk : BitVec 2} {carried : Bool} {body : Ctx → M Unit} {e : Stop}
    (h : Issues s i tk p) (he : e.unpops i = false) (hb : body (issueCtx s i tk) (bodyState s p) = .error e) :
    issue i tk carried body s = .next (stopWord p (issueCtx s i tk) e) := by
  have := issueThen_stop (carried := carried) (after := fun _ s => s) h hb
  simpa [he, issue] using this

/-- A check of a handle leaves the state as it was. -/
theorem checkHandle_same {c : Ctx} {h : Handle} {d : Bool} {m : Word} {s t : State} {u : Unit} (e : checkHandle c h d m s = .ok (u, t)) : t = s := by
  unfold checkHandle at e
  dsimp only at e
  split at e
  · cases e; rfl
  · cases e

theorem rh_same {c : Ctx} {n : Nat} {h : Handle} {s t : State} (e : rh c n s = .ok (h, t)) : t = s := by
  unfold rh at e
  obtain ⟨_, u, hp, e⟩ := M_bind_eq_ok e
  unfold pendCheck at hp
  rw [M_bind_ok (theSeq_ok c s)] at hp
  rw [M_bind_ok (theSeq_ok c u)] at e
  split at hp
  · cases hp
  · cases hp; cases e; rfl

theorem scaleOf_same {c : Ctx} {h g : Handle} {s t : State} (e : scaleOf c h s = .ok (g, t)) : t = s := by
  unfold scaleOf at e
  split at e
  · exact rh_same e
  · cases e; rfl

/-- A scale handle that can be read from some state of the sequencer is no pending one in another with the same checks and the same in flight. -/
theorem pendScale_ok {c : Ctx} {h g : Handle} {s t u : State} (e : scaleOf c h t = .ok (g, u))
    (hd : (getSeq t c.uid c.q).dbg = (getSeq s c.uid c.q).dbg) (hf : (getSeq t c.uid c.q).fl = (getSeq s c.uid c.q).fl) :
    pendScale c h s = .ok ((), s) := by
  unfold scaleOf at e
  unfold pendScale
  split
  · rename_i hs
    rw [if_pos hs] at e
    unfold rh at e
    obtain ⟨_, v, hp, -⟩ := M_bind_eq_ok e
    unfold pendCheck at hp ⊢
    rw [M_bind_ok (theSeq_ok c t)] at hp
    rw [M_bind_ok (theSeq_ok c s)]
    have e : pendingReg (getSeq t c.uid c.q) .handle (hSidx h) = pendingReg (getSeq s c.uid c.q) .handle (hSidx h) := by simp only [pendingReg, hf]
    rw [hd, e] at hp
    split at hp
    · cases hp
    · rename_i hc; rw [if_neg hc]; rfl
  · rfl

/-- The command that a sequencer issues to an engine, before its form sets its operands. -/
def freshCommand (s : State) (c : Ctx) (e : Eng) : EngCmd :=
  let u := getUnit s c.uid
  let b := performAll s c.uid c.q
  { code := 0, rl := false, seqNo := ((getSeq s c.uid c.q).eq e).issueNo, uid := c.uid, issuer := c.q, ra := 0, rb := 0, h := 0, h2 := 0,
    scale := 0, scale2 := 0, push := c.push, level := u.levels.head?.map (·.id), rel := releaseOf b (seqAgent u c.uid c.q) 1,
    lockNo := (getCore b u.place.core).lockNo, word := c.word, pos := 0, trace := [], recs := [], held := false, started := false, writes := [], flags := 0 }

/-- A form keeps what the issue of a command sets. -/
def KeepsIssue (mk : EngCmd → EngCmd) : Prop :=
  ∀ k, (mk k).uid = k.uid ∧ (mk k).issuer = k.issuer ∧ (mk k).push = k.push ∧ (mk k).seqNo = k.seqNo ∧ (mk k).pos = k.pos ∧ (mk k).recs = k.recs ∧
    (mk k).lockNo = k.lockNo

/-- The state after a command of a sequencer has entered a queue. -/
def queuedState (s : State) (c : Ctx) (e : Eng) (xs : List Extent) (k : EngCmd) : State :=
  let b := performAll s c.uid c.q
  let t := modCore (bumpRegion b (seqAgent (getUnit s c.uid) c.uid c.q)) (getUnit s c.uid).place.core fun k => { k with lockNo := k.lockNo + 1 }
  modUnit (modEq t c.uid c.q e fun x => { x with cmds := x.cmds ++ [k], issueNo := x.issueNo + 1 }) c.uid fun u =>
    { u with place := { u.place with locks := u.place.locks ++ xs.map fun x =>
      { eng := e, issuer := c.q, seqNo := ((getSeq s c.uid c.q).eq e).issueNo, no := (getCore b (getUnit s c.uid).place.core).lockNo, rows := x.rows,
        write := x.write, lo := x.lo, hi := x.hi } } }

theorem getUnit_bumpRegion (s : State) (a : Agent) (n : Nat) : getUnit (bumpRegion s a) n = getUnit s n := rfl
theorem getUnit_modCore (s : State) (k n : Nat) (f : CoreState → CoreState) : getUnit (modCore s k f) n = getUnit s n := rfl
theorem seq_withPlace (u : UnitState) (p : UnitPlaceState) (q : Seq) : ({ u with place := p } : UnitState).seq q = u.seq q := by cases q <;> rfl

theorem queuedState_queued {s : State} {c : Ctx} {e : Eng} {xs : List Extent} {mk : EngCmd → EngCmd} (hk : KeepsIssue mk) :
    Queued s (queuedState s c e xs (mk (freshCommand s c e))) c e xs [] (mk (freshCommand s c e)) := by
  obtain ⟨k1, k2, k3, k4, k5, k6, k7⟩ := hk (freshCommand s c e)
  refine ⟨rfl, ?_, k1, k2, k3, k4, k5, k6, ?_⟩
  · simp only [getSeq, queuedState, getUnit_modUnit_same, seq_withPlace, modEq, getUnit_modSeq_same, seq_setSeq_same, eq_setEq_same, getUnit_modCore, getUnit_bumpRegion]
  · simp only [queuedState, modEq, getUnit_modUnit_same, getUnit_modSeq_same, setSeq_place, getUnit_modCore, getUnit_bumpRegion, k4, k7]
    rfl

/-- With room in the queue a command enters it. -/
theorem pushCommand_ok {s : State} {c : Ctx} {e : Eng} {xs : List Extent} {mk : EngCmd → EngCmd} (h : QueueRoom s c e xs) :
    pushCommand c e xs mk s = .ok ((), queuedState s c e xs (mk (freshCommand s c e))) := by
  obtain ⟨h1, h2⟩ := h
  unfold pushCommand
  rw [M_bind_ok (M_get _), M_bind_ok (theUnit_ok _ _), M_bind_ok (theSeq_ok _ _)]
  rw [if_neg (Nat.not_le.2 h1), if_neg (Nat.not_lt.2 h2), M_bind_ok (upd_ok _ _), M_bind_ok (M_get _), M_bind_ok (upd_ok _ _), M_bind_ok (upd_ok _ _),
    M_bind_ok (upd_ok _ _)]
  exact updUnit_ok _ _ _

/-- A full queue freezes the word. -/
theorem pushCommand_full {s : State} {c : Ctx} {e : Eng} {xs : List Extent} {mk : EngCmd → EngCmd}
    (h : 16 ≤ ((getSeq s c.uid c.q).eq e).cmds.length) : pushCommand c e xs mk s = .error (.freeze (.queue (16 + engNum e)) none) := by
  unfold pushCommand
  rw [M_bind_ok (M_get _), M_bind_ok (theUnit_ok _ _), M_bind_ok (theSeq_ok _ _), if_pos h]
  rfl

/-! ## Retagging -/

/-- What decides where the bytes of partitions stand: the bytes, and of each unit the core, the partition and the tags. -/
def SameSpads (s t : State) : Prop :=
  t.mem = s.mem ∧ ∀ n, (getUnit t n).place.core = (getUnit s n).place.core ∧ (getUnit t n).place.spadBase = (getUnit s n).place.spadBase ∧
    (getUnit t n).place.tags = (getUnit s n).place.tags

/-- What a queued command is told by. -/
def SameQueues (s t : State) : Prop := (∀ n q, getSeq t n q = getSeq s n q) ∧ ∀ n, (getUnit t n).place.locks = (getUnit s n).place.locks

theorem modTags_same (s : State) (m : List Host.Cell) (uid : Nat) (f : Tab Nat (BitVec 3) → Tab Nat (BitVec 3)) :
    SameQueues s (modUnit { s with mem := m } uid fun u => { u with place := { u.place with tags := f u.place.tags } }) := by
  refine ⟨fun n q => ?_, fun n => ?_⟩ <;> by_cases h : n = uid
  · subst h; simp only [getSeq, getUnit_modUnit_same, seq_withPlace]; rfl
  · simp only [getSeq, getUnit_modUnit_other _ _ _ _ h]; rfl
  · subst h; simp only [getUnit_modUnit_same]; rfl
  · simp only [getUnit_modUnit_other _ _ _ _ h]; rfl

/-- The memory that retagging a region leaves. -/
def retaggedMem (s : State) (uid r z : Nat) : List Host.Cell :=
  if regionTag s uid r = z then s.mem
  else memPutBytes s.mem (spadPa (getUnit s uid) (4096 * r))
    ((List.range 4096).map fun i => memGet s.mem (rebank (regionTag s uid r) z (spadPa (getUnit s uid) (4096 * r) + i)))

theorem retagRegion_eq (s : State) (uid r z : Nat) : retagRegion s uid r z =
    modUnit { s with mem := retaggedMem s uid r z } uid fun u => { u with place := { u.place with tags := tabPut u.place.tags r (BitVec.ofNat 3 z) } } := by
  unfold retagRegion retaggedMem
  dsimp only
  split <;> rfl

theorem retagRegion_queues (s : State) (uid r z : Nat) : SameQueues s (retagRegion s uid r z) := by
  rw [retagRegion_eq]; exact modTags_same s _ uid (fun g => tabPut g r (BitVec.ofNat 3 z))

theorem retagRegion_spads {s t : State} (h : SameSpads s t) (uid r z : Nat) : SameSpads (retagRegion s uid r z) (retagRegion t uid r z) := by
  have h1 : regionTag t uid r = regionTag s uid r := by simp only [regionTag, (h.2 uid).2.2]
  have h2 : ∀ o, spadPa (getUnit t uid) o = spadPa (getUnit s uid) o := fun o => by simp only [spadPa, (h.2 uid).1, (h.2 uid).2.1]
  have hm : retaggedMem t uid r z = retaggedMem s uid r z := by unfold retaggedMem; rw [h1, h2, h.1]
  rw [retagRegion_eq, retagRegion_eq, hm]
  refine ⟨rfl, fun n => ?_⟩
  by_cases hn : n = uid
  · subst hn
    simp only [getUnit_modUnit_same]
    exact ⟨(h.2 n).1, (h.2 n).2.1, congrArg (fun x => tabPut x r (BitVec.ofNat 3 z)) (h.2 n).2.2⟩
  · simp only [getUnit_modUnit_other _ _ _ _ hn]
    exact h.2 n

theorem SameQueues.trans {s t u : State} (h : SameQueues s t) (g : SameQueues t u) : SameQueues s u :=
  ⟨fun n q => (g.1 n q).trans (h.1 n q), fun n => (g.2 n).trans (h.2 n)⟩

/-- Retagging keeps what a queued command is told by, and does the same to states with the same partitions. -/
theorem retag_same (xs : List Side) : (∀ s, SameQueues s (retag s xs)) ∧ ∀ s t, SameSpads s t → SameSpads (retag s xs) (retag t xs) := by
  have inner : ∀ (rs : List Nat) (x : Side),
      let go := fun s : State => rs.foldl (fun s r => if coversRegion x.off x.len r then retagRegion s x.owner r x.swz else s) s
      (∀ s, SameQueues s (go s)) ∧ ∀ s t, SameSpads s t → SameSpads (go s) (go t) := by
    intro rs x
    induction rs with
    | nil => exact ⟨fun s => ⟨fun _ _ => rfl, fun _ => rfl⟩, fun _ _ h => h⟩
    | cons r rs ih =>
      simp only [List.foldl_cons]
      by_cases h : coversRegion x.off x.len r
      · simp only [h, if_true]
        exact ⟨fun s => (retagRegion_queues s _ _ _).trans (ih.1 _), fun s t hs => ih.2 _ _ (retagRegion_spads hs _ _ _)⟩
      · simp only [h]
        exact ih
  induction xs with
  | nil => exact ⟨fun s => ⟨fun _ _ => rfl, fun _ => rfl⟩, fun _ _ h => h⟩
  | cons x xs ih =>
    obtain ⟨h1, h2⟩ := inner (regionsOf x.off x.len) x
    unfold retag at ih ⊢
    simp only [List.foldl_cons]
    by_cases h : x.write
    · simp only [h, if_true]
      exact ⟨fun s => (h1 s).trans (ih.1 _), fun s t hs => ih.2 _ _ (h2 _ _ hs)⟩
    · simp only [h]
      exact ih

theorem queuedState_spads (s : State) (c : Ctx) (e : Eng) (xs : List Extent) (k : EngCmd) : SameSpads (performAll s c.uid c.q) (queuedState s c e xs k) := by
  refine ⟨rfl, fun n => ?_⟩
  by_cases hn : n = c.uid
  · subst hn
    simp only [queuedState, modEq, getUnit_modUnit_same, getUnit_modSeq_same, setSeq_place, getUnit_modCore, getUnit_bumpRegion]
    refine ⟨?_, ?_, ?_⟩ <;> first | trivial | rfl
  · simp only [queuedState, modEq, getUnit_modUnit_other _ _ _ _ hn, getUnit_modSeq_other _ _ _ _ _ hn, getUnit_modCore, getUnit_bumpRegion]
    refine ⟨?_, ?_, ?_⟩ <;> first | trivial | rfl

theorem queued_retag {s : State} {c : Ctx} {e : Eng} {xs : List Extent} {mk : EngCmd → EngCmd} (hk : KeepsIssue mk) (ys : List Side) :
    Queued s (retag (queuedState s c e xs (mk (freshCommand s c e))) ys) c e xs ys (mk (freshCommand s c e)) := by
  obtain ⟨-, h2, h3, h4, h5, h6, h7, h8, h9⟩ := queuedState_queued (s := s) (c := c) (e := e) (xs := xs) hk
  obtain ⟨r1, r2⟩ := retag_same ys
  exact ⟨(r2 _ _ (queuedState_spads s c e xs _)).1, by rw [(r1 _).1]; exact h2, h3, h4, h5, h6, h7, h8, ((r1 _).2 _).trans h9⟩

/-- A checked command enters its queue. -/
theorem pushChecked_ok {s : State} {c : Ctx} {e : Eng} {xs : List Side} {mk : EngCmd → EngCmd} (h : QueueRoom s c e (locksOf c.uid xs))
    (hk : KeepsIssue mk) : ∃ t, pushChecked c e xs mk s = .ok ((), t) ∧
      Queued s t c e (locksOf c.uid xs) xs (mk (freshCommand s c e)) :=
  ⟨_, by unfold pushChecked; rw [M_bind_ok (pushCommand_ok h)]; exact upd_ok _ _,
    queued_retag hk xs⟩

theorem pushChecked_full {s : State} {c : Ctx} {e : Eng} {xs : List Side} {mk : EngCmd → EngCmd}
    (h : 16 ≤ ((getSeq s c.uid c.q).eq e).cmds.length) : pushChecked c e xs mk s = .error (.freeze (.queue (16 + engNum e)) none) := by
  unfold pushChecked
  rw [M_bind_error (pushCommand_full h)]

end Sys2Proof.Machine
end

