-- ==== Sys2Proof/Laws/Frame.lean ====
section
/-!
SUPPORT. What the shared operations of a word's issue leave alone: a relation between two states, and for each operation that it stands in it.
-/

namespace Sys2Proof.Machine

open Sys2Proof

/-! ## The relation -/

/-- What may change: the registers that may land, the bytes of memory that may be written, and whether flags, accumulator rows, tags, X's window and the
sequencer's settings may. -/
structure Allow where
  lands : LandKind → Nat → Prop
  bytes : Nat → Prop
  flags : Prop
  rows  : Prop
  tags  : Prop
  xs    : Prop
  sets  : Prop

/-- An entry of the landing buffer is allowed. -/
def Allow.entry (A : Allow) (e : Landing) : Prop := A.lands e.kind e.dst ∧ (e.kind = .row → A.rows) ∧ (e.flg ≠ 0 → A.flags)

/-- A store is allowed. -/
def Allow.store (A : Allow) (o : StoreOp) : Prop := A.rows ∧ ∀ y ∈ o.bytes, ∀ x, y.1 = Place.mem x → A.bytes x

/-- All that is in flight at a sequencer is allowed. -/
structure SeqReady (A : Allow) (c : SeqState) : Prop where
  running : ∀ e ∈ c.fl.running, A.entry e
  stores  : ∀ o ∈ c.fl.stores, A.store o
  raw     : ¬ A.flags → c.dq.src = 0 ∧ c.dq.snk = 0

/-- What of a sequencer does not change but for registers that may land. -/
structure SeqKeeps (A : Allow) (c d : SeqState) : Prop where
  regs    : ∀ n, (n = 0 ∨ ¬ A.lands .scalar n) → d.regs[n]? = c.regs[n]?
  preds   : ∀ n, (n = 0 ∨ ¬ A.lands .pred n) → d.preds[n]? = c.preds[n]?
  handles : ∀ n, ¬ A.lands .handle n → d.handles[n]? = c.handles[n]?
  fixed   : ¬ A.sets → d.tr = c.tr ∧ d.slots = c.slots ∧ d.dbg = c.dbg ∧ d.status = c.status ∧ d.event = c.event ∧ d.dq.src = c.dq.src ∧
    d.dq.snk = c.dq.snk ∧ d.dq.target = c.dq.target
  pour    : d.fl.pour = c.fl.pour

/-- What of a unit does not change but for what may. -/
structure UnitKeeps (A : Allow) (q : Seq) (u v : UnitState) : Prop where
  seq     : SeqKeeps A (u.seq q) (v.seq q)
  beside  : ∀ r, r ≠ q → ∃ fs ps, v.seq r = (u.seq r).modFl fun f => { f with faults := fs, pushes := ps }
  xs      : ¬ A.xs → v.xs = u.xs
  ident   : v.ident = u.ident
  gained  : ¬ A.sets → ∀ k, u.aflags.getLsbD k = true → v.aflags.getLsbD k = true
  noFlags : ¬ A.flags → v.aflags = u.aflags

/-- What of the machine does not change but for what may. -/
structure Keeps (A : Allow) (uid : Nat) (q : Seq) (s t : State) : Prop where
  memory : s.MemOk → t.MemOk ∧ ∀ x, ¬ A.bytes x → memGet t.mem x = memGet s.mem x
  unit   : UnitKeeps A q (getUnit s uid) (getUnit t uid)
  others : ∀ v, v ≠ uid → ∃ g, getUnit t v = { getUnit s v with place := { (getUnit s v).place with tags := g } } ∧
    (¬ A.tags → g = (getUnit s v).place.tags)
  rows   : ¬ A.rows → t.cores = s.cores
  rest   : t.conts = s.conts ∧ t.harts = s.harts ∧ t.sched = s.sched ∧ t.group = s.group ∧ t.power = s.power ∧ t.boot = s.boot ∧ t.cur = s.cur

/-- From a state in which all in flight is allowed to another such, with what may not change unchanged. -/
def Kept (A : Allow) (uid : Nat) (q : Seq) (s t : State) : Prop :=
  SeqReady A (getSeq s uid q) → SeqReady A (getSeq t uid q) ∧ Keeps A uid q s t

variable {A : Allow} {uid : Nat} {q : Seq}

theorem SeqKeeps.refl (c : SeqState) : SeqKeeps A c c :=
  ⟨fun _ _ => rfl, fun _ _ => rfl, fun _ _ => rfl, fun _ => ⟨rfl, rfl, rfl, rfl, rfl, rfl, rfl, rfl⟩, rfl⟩

theorem SeqKeeps.trans {c d e : SeqState} (h : SeqKeeps A c d) (g : SeqKeeps A d e) : SeqKeeps A c e where
  regs n hn := (g.regs n hn).trans (h.regs n hn)
  preds n hn := (g.preds n hn).trans (h.preds n hn)
  handles n hn := (g.handles n hn).trans (h.handles n hn)
  fixed hs := by
    obtain ⟨h1, h2, h3, h4, h5, h6, h7, h8⟩ := h.fixed hs
    obtain ⟨g1, g2, g3, g4, g5, g6, g7, g8⟩ := g.fixed hs
    exact ⟨g1.trans h1, g2.trans h2, g3.trans h3, g4.trans h4, g5.trans h5, g6.trans h6, g7.trans h7, g8.trans h8⟩
  pour := g.pour.trans h.pour

theorem UnitKeeps.refl (u : UnitState) : UnitKeeps A q u u :=
  ⟨SeqKeeps.refl _, fun _ _ => ⟨_, _, rfl⟩, fun _ => rfl, rfl, fun _ _ h => h, fun _ => rfl⟩

theorem UnitKeeps.trans {u v w : UnitState} (h : UnitKeeps A q u v) (g : UnitKeeps A q v w) : UnitKeeps A q u w where
  seq := h.seq.trans g.seq
  beside r hr := by
    obtain ⟨fs, ps, e⟩ := h.beside r hr
    obtain ⟨gs, qs, e'⟩ := g.beside r hr
    exact ⟨gs, qs, by rw [e', e]; rfl⟩
  xs hx := (g.xs hx).trans (h.xs hx)
  ident := g.ident.trans h.ident
  gained hs k hk := g.gained hs k (h.gained hs k hk)
  noFlags hf := (g.noFlags hf).trans (h.noFlags hf)

theorem Keeps.refl (s : State) : Keeps A uid q s s :=
  ⟨fun h => ⟨h, fun _ _ => rfl⟩, UnitKeeps.refl _, fun _ _ => ⟨_, rfl, fun _ => rfl⟩, fun _ => rfl, rfl, rfl, rfl, rfl, rfl, rfl, rfl⟩

theorem Keeps.trans {s t u : State} (h : Keeps A uid q s t) (g : Keeps A uid q t u) : Keeps A uid q s u where
  memory hs := by
    obtain ⟨h1, h2⟩ := h.memory hs
    obtain ⟨g1, g2⟩ := g.memory h1
    exact ⟨g1, fun x hx => (g2 x hx).trans (h2 x hx)⟩
  unit := h.unit.trans g.unit
  others v hv := by
    obtain ⟨a, e, k⟩ := h.others v hv
    obtain ⟨b, e', k'⟩ := g.others v hv
    refine ⟨b, by rw [e', e], fun ht => (k' ht).trans ?_⟩
    rw [e]; exact k ht
  rows hr := (g.rows hr).trans (h.rows hr)
  rest := by
    obtain ⟨h1, h2, h3, h4, h5, h6, h7⟩ := h.rest
    obtain ⟨g1, g2, g3, g4, g5, g6, g7⟩ := g.rest
    exact ⟨g1.trans h1, g2.trans h2, g3.trans h3, g4.trans h4, g5.trans h5, g6.trans h6, g7.trans h7⟩

theorem Kept.refl (s : State) : Kept A uid q s s := fun h => ⟨h, Keeps.refl s⟩

theorem Kept.trans {s t u : State} (h : Kept A uid q s t) (g : Kept A uid q t u) : Kept A uid q s u := fun hs =>
  have ⟨h1, h2⟩ := h hs
  have ⟨g1, g2⟩ := g h1
  ⟨g1, h2.trans g2⟩

/-! ## Changes of one part -/

/-- A change of parts that no clause names. -/
theorem Kept.ofRest {s t : State} (hm : t.mem = s.mem) (hu : t.units = s.units) (hc : t.cores = s.cores)
    (hr : t.conts = s.conts ∧ t.harts = s.harts ∧ t.sched = s.sched ∧ t.group = s.group ∧ t.power = s.power ∧ t.boot = s.boot ∧ t.cur = s.cur) :
    Kept A uid q s t := by
  have hg : ∀ v, getUnit t v = getUnit s v := fun v => by simp only [getUnit, hu]
  intro h
  refine ⟨by simpa only [getSeq, hg] using h, ⟨fun hs => ⟨by simpa only [State.MemOk, hm] using hs, fun _ _ => by rw [hm]⟩, by rw [hg]; exact UnitKeeps.refl _,
    fun v _ => ⟨_, by rw [hg], fun _ => rfl⟩, fun _ => hc, hr⟩⟩

/-- A change of the acting unit. -/
theorem Kept.ofUnit (s : State) (f : UnitState → UnitState)
    (h : SeqReady A ((getUnit s uid).seq q) → SeqReady A ((f (getUnit s uid)).seq q) ∧ UnitKeeps A q (getUnit s uid) (f (getUnit s uid))) :
    Kept A uid q s (modUnit s uid f) := by
  intro hs
  obtain ⟨h1, h2⟩ := h hs
  refine ⟨by simpa only [getSeq, getUnit_modUnit_same] using h1, ⟨fun hm => ⟨hm, fun _ _ => rfl⟩, by simpa only [getUnit_modUnit_same] using h2, ?_, fun _ => rfl,
    rfl, rfl, rfl, rfl, rfl, rfl, rfl⟩⟩
  intro v hv
  exact ⟨_, by rw [getUnit_modUnit_other _ _ _ _ hv], fun _ => rfl⟩

theorem UnitKeeps.ofSeq (u : UnitState) (c : SeqState) (h : SeqKeeps A (u.seq q) c) : UnitKeeps A q u (u.setSeq q c) where
  seq := by simpa only [seq_setSeq_same] using h
  beside r hr := ⟨(u.seq r).fl.faults, (u.seq r).fl.pushes, by rw [seq_setSeq_other _ _ _ _ hr]; rfl⟩
  xs _ := by cases q <;> rfl
  ident := by cases q <;> rfl
  gained _ k hk := by cases q <;> exact hk
  noFlags _ := by cases q <;> rfl

/-- A change of the acting sequencer. -/
theorem Kept.ofSeq (s : State) (f : SeqState → SeqState)
    (h : SeqReady A (getSeq s uid q) → SeqReady A (f (getSeq s uid q)) ∧ SeqKeeps A (getSeq s uid q) (f (getSeq s uid q))) :
    Kept A uid q s (modSeq s uid q f) :=
  Kept.ofUnit s _ fun hs => ⟨by rw [seq_setSeq_same]; exact (h hs).1, UnitKeeps.ofSeq _ _ (h hs).2⟩

/-- A change of what is in flight that keeps results and stores. -/
theorem Kept.ofFlight (s : State) (f : Flight → Flight) (hr : ∀ x, (f x).running = x.running) (hs : ∀ x, (f x).stores = x.stores)
    (hp : ∀ x, (f x).pour = x.pour) : Kept A uid q s (modSeq s uid q fun c => c.modFl f) :=
  Kept.ofSeq s _ fun h =>
    ⟨⟨by simpa only [SeqState.modFl, hr] using h.running, by simpa only [SeqState.modFl, hs] using h.stores, h.raw⟩,
      ⟨fun _ _ => rfl, fun _ _ => rfl, fun _ _ => rfl, fun _ => ⟨rfl, rfl, rfl, rfl, rfl, rfl, rfl, rfl⟩, hp _⟩⟩

/-! ## Writes of memory -/

/-- A state in which places were written, the bytes of memory among some. -/
structure Wrote (B : Nat → Prop) (s t : State) : Prop where
  memory : s.MemOk → t.MemOk ∧ ∀ x, ¬ B x → memGet t.mem x = memGet s.mem x
  shape  : ∃ m k o g, t = { s with mem := m, cores := k, order := o, meter := g }

theorem Wrote.refl {B : Nat → Prop} (s : State) : Wrote B s s := ⟨fun h => ⟨h, fun _ _ => rfl⟩, s.mem, s.cores, s.order, s.meter, rfl⟩

theorem Wrote.trans {B : Nat → Prop} {s t u : State} (h : Wrote B s t) (g : Wrote B t u) : Wrote B s u := by
  obtain ⟨m, k, o, a, rfl⟩ := h.shape
  obtain ⟨m', k', o', a', rfl⟩ := g.shape
  refine ⟨fun hs => ?_, m', k', o', a', rfl⟩
  obtain ⟨h1, h2⟩ := h.memory hs
  obtain ⟨g1, g2⟩ := g.memory h1
  exact ⟨g1, fun x hx => (g2 x hx).trans (h2 x hx)⟩

theorem Wrote.mono {B C : Nat → Prop} {s t : State} (h : Wrote B s t) (hc : ∀ x, B x → C x) : Wrote C s t :=
  ⟨fun hs => ⟨(h.memory hs).1, fun x hx => (h.memory hs).2 x fun hb => hx (hc x hb)⟩, h.shape⟩

theorem Wrote.kept {s t : State} (h : Wrote A.bytes s t) (hr : A.rows) : Kept A uid q s t := by
  obtain ⟨m, k, o, a, e⟩ := h.shape
  have hm := h.memory
  subst e
  intro hs
  exact ⟨hs, hm, UnitKeeps.refl _, fun v _ => ⟨_, rfl, fun _ => rfl⟩, fun n => absurd hr n, rfl, rfl, rfl, rfl, rfl, rfl, rfl⟩

/-- A change of the order alone. -/
theorem Wrote.ofOrder {B : Nat → Prop} (s : State) (o : OrderState) : Wrote B s { s with order := o } :=
  ⟨fun h => ⟨h, fun _ _ => rfl⟩, s.mem, s.cores, o, s.meter, rfl⟩

theorem Wrote.setRow {B : Nat → Prop} (s : State) (u row : Nat) (r : Row) : Wrote B s (setRow s u row r) := by
  unfold Machine.setRow
  dsimp only
  split
  · exact ⟨fun h => ⟨h, fun _ _ => rfl⟩, s.mem, _, s.order, s.meter, rfl⟩
  · exact Wrote.refl s

theorem Wrote.placePut {B : Nat → Prop} (s : State) (p : Place) (v : Byte) (h : ∀ x, p = .mem x → B x) : Wrote B s (placePut s p v) := by
  cases p with
  | mem pa =>
    refine ⟨fun hs => ⟨memPut_wf _ _ _ hs, fun x hx => memGet_memPut_other _ _ _ _ ?_ hs⟩, _, s.cores, s.order, s.meter, rfl⟩
    rintro rfl
    exact hx (h _ rfl)
  | acc u row b => exact Wrote.setRow _ _ _ _

theorem Wrote.placesPut {B : Nat → Prop} (bs : List (Place × Byte)) : ∀ (s : State), (∀ y ∈ bs, ∀ x, y.1 = Place.mem x → B x) → Wrote B s (placesPut s bs) := by
  induction bs with
  | nil => intro s _; exact Wrote.refl s
  | cons b bs ih =>
    intro s h
    exact (Wrote.placePut s b.1 b.2 (h b List.mem_cons_self)).trans (ih _ fun y hy => h y (List.mem_cons_of_mem _ hy))

theorem setHeads_order (s : State) (k : Nat) (rs : List Release) : ∃ o, setHeads s k rs = { s with order := o } := ⟨_, rfl⟩

theorem endHeads_order (ks : List Nat) : ∀ s : State, ∃ o, endHeads s ks = { s with order := o } := by
  induction ks with
  | nil => intro s; exact ⟨s.order, rfl⟩
  | cons k ks ih => intro s; exact ih _

theorem writeHeads_order (ks : List Nat) (rels : List Release) (rmw : Bool) : ∀ s : State, ∃ o, writeHeads s ks rels rmw = { s with order := o } := by
  induction ks with
  | nil => intro s; exact ⟨s.order, rfl⟩
  | cons k ks ih => intro s; exact ih _

theorem Wrote.performBytes {B : Nat → Prop} (s : State) (bs : List (Place × Byte)) (h : ∀ y ∈ bs, ∀ x, y.1 = Place.mem x → B x) :
    Wrote B s (performBytes s bs) := by
  obtain ⟨o, e⟩ := endHeads_order ((placeRuns (bs.map Prod.fst)).foldr (fun p acc =>
    (List.range p.2).filterMap (fun i => match p.1 with
      | .mem x => if (tabGet s.order.heads (x + 4 * i)).isSome then some (x + 4 * i) else none
      | _ => none) ++ acc) []) s
  have : storeMarksEnd s bs = { s with order := o } := e
  unfold Machine.performBytes
  rw [this]
  exact (Wrote.ofOrder s o).trans (Wrote.placesPut bs _ h)

theorem Wrote.performOp {B : Nat → Prop} (s : State) (ag : Agent) (o : StoreOp) (h : ∀ y ∈ o.bytes, ∀ x, y.1 = Place.mem x → B x) :
    Wrote B s (performOp s ag o) := by
  unfold Machine.performOp
  cases o.atom with
  | none => exact Wrote.performBytes s _ h
  | some a =>
    dsimp only
    have hp : ∀ s, Wrote B s (performAtomic s (o.bytes.map Prod.fst) a o.rels).2 := by
      intro s
      unfold Machine.performAtomic
      dsimp only
      split
      · exact Wrote.refl s
      · rename_i v hv
        obtain ⟨od, e⟩ := writeHeads_order (wordKeys s (o.bytes.map Prod.fst)) o.rels (a.fn != 1) s
        rw [e]
        refine (Wrote.ofOrder s od).trans (Wrote.placesPut _ _ ?_)
        intro y hy x hx
        obtain ⟨z, hz, e⟩ := List.mem_map.1 (List.of_mem_zip hy).1
        exact h z hz x (e.trans hx)
    split
    · exact hp s
    · exact Wrote.trans (Wrote.ofOrder s _) (hp _)

theorem Kept.performFor (s : State) (o : StoreOp) (h : A.store o) (u : Nat) (r : Seq) : Kept A uid q s (performFor s u r o) :=
  (Wrote.performOp s _ o h.2).kept h.1

/-! ## Tokens and retirement -/

theorem UnitKeeps.ofPlace (u v : UnitState) (h : ∀ r, v.seq r = u.seq r) (hx : v.xs = u.xs) (hi : v.ident = u.ident) (hf : v.aflags = u.aflags) :
    UnitKeeps A q u v :=
  ⟨by rw [h]; exact SeqKeeps.refl _, fun r _ => ⟨_, _, h r⟩, fun _ => hx, hi, fun _ k hk => by rw [hf]; exact hk, fun _ => hf⟩

/-- A change of parts of the unit that no clause names. -/
theorem Kept.ofPlace (s : State) (f : UnitState → UnitState) (h : ∀ u r, (f u).seq r = u.seq r) (hx : ∀ u, (f u).xs = u.xs)
    (hi : ∀ u, (f u).ident = u.ident) (hf : ∀ u, (f u).aflags = u.aflags) : Kept A uid q s (modUnit s uid f) :=
  Kept.ofUnit s f fun hs => ⟨by rw [h]; exact hs, UnitKeeps.ofPlace _ _ (h _) (hx _) (hi _) (hf _)⟩

theorem Kept.setTokens (s : State) (a b : Seq) (ts : UnitState → List Token) : Kept A uid q s (modUnit s uid fun u => Machine.setTokens u a b (ts u)) :=
  Kept.ofPlace s _ (fun _ r => by cases r <;> rfl) (fun _ => rfl) (fun _ => rfl) (fun _ => rfl)

/-- Faults raised and pushes made at any sequencer of the unit. -/
theorem Kept.aside (s : State) (r : Seq) (g : List PendFault → List PendFault) (p : List Push → List Push) :
    Kept A uid q s (modSeq s uid r fun c => c.modFl fun f => { f with faults := g f.faults, pushes := p f.pushes }) := by
  by_cases hr : r = q
  · subst hr
    exact Kept.ofFlight s _ (fun _ => rfl) (fun _ => rfl) fun _ => rfl
  · refine Kept.ofUnit s _ fun hs => ?_
    have hq : ∀ c, ((getUnit s uid).setSeq r c).seq q = (getUnit s uid).seq q := fun c => seq_setSeq_other _ _ _ _ fun h => hr h.symm
    refine ⟨by rw [hq]; exact hs, ⟨by rw [hq]; exact SeqKeeps.refl _, fun p hp => ?_, fun _ => by cases r <;> rfl, by cases r <;> rfl,
      fun _ k hk => by cases r <;> exact hk, fun _ => by cases r <;> rfl⟩⟩
    by_cases hpr : p = r
    · subst hpr
      exact ⟨_, _, by rw [seq_setSeq_same]; rfl⟩
    · exact ⟨((getUnit s uid).seq p).fl.faults, ((getUnit s uid).seq p).fl.pushes, by rw [seq_setSeq_other _ _ _ _ hpr]; rfl⟩

/-- Pushes that wait at a sequencer of the unit, made while there is room. -/
theorem Kept.flushPushes (n : Nat) (r : Seq) : ∀ s : State, Kept A uid q s (flushPushes n s uid r) := by
  induction n with
  | zero => intro s; exact Kept.refl s
  | succ n ih =>
    intro s
    unfold Machine.flushPushes
    split
    · exact Kept.refl s
    · split
      · rename_i p ps _ _
        exact ((Kept.aside s r id fun _ => ps).trans (Kept.setTokens _ r p.peer fun u => tokensOf u r p.peer ++ [p.rel])).trans (ih _)
      · exact Kept.refl s

theorem Kept.makePush (s : State) (p : Option Push) : Kept A uid q s (makePush s uid q p) := by
  cases p with
  | none => exact Kept.refl s
  | some p =>
    have h1 : Kept A uid q s (modSeq s uid q fun c => c.modFl fun f => { f with pushes := f.pushes ++ [p] }) :=
      Kept.ofFlight s _ (fun _ => rfl) (fun _ => rfl) fun _ => rfl
    exact h1.trans (Kept.flushPushes _ _ _)

theorem Kept.acquireRel (s : State) (a : Agent) (r : Release) : Kept A uid q s (acquireRel s a r) :=
  Kept.ofRest rfl rfl rfl ⟨rfl, rfl, rfl, rfl, rfl, rfl, rfl⟩

theorem Kept.takeToken {s t : State} {r : Seq} {x : Token} (h : takeToken s uid q r = some (x, t)) : Kept A uid q s t := by
  unfold Machine.takeToken at h
  split at h
  · cases h
  · cases h
    exact (Kept.setTokens s r q fun _ => _).trans (Kept.flushPushes _ _ _)

theorem Kept.popToken {s t : State} {r : Seq} (h : popToken s uid q r = some t) : Kept A uid q s t := by
  unfold Machine.popToken at h
  rw [Option.map_eq_some_iff] at h
  obtain ⟨⟨x, y⟩, hx, e⟩ := h
  dsimp only at e
  subst e
  exact (Kept.takeToken hx).trans (Kept.acquireRel y _ x)

/-- Stores forgotten, with some of the others kept. -/
theorem Kept.ofStores (s : State) (g : List StoreOp → List StoreOp) (h : ∀ os, (∀ o ∈ os, A.store o) → ∀ o ∈ g os, A.store o) :
    Kept A uid q s (modSeq s uid q fun c => c.modFl fun f => { f with stores := g f.stores }) :=
  Kept.ofSeq s _ fun hs => ⟨⟨hs.running, h _ hs.stores, hs.raw⟩,
    ⟨fun _ _ => rfl, fun _ _ => rfl, fun _ _ => rfl, fun _ => ⟨rfl, rfl, rfl, rfl, rfl, rfl, rfl, rfl⟩, rfl⟩⟩

theorem Kept.foldStores (os : List StoreOp) : ∀ s : State, (∀ o ∈ os, A.store o) → Kept A uid q s (os.foldl (fun s o => Machine.performFor s uid q o) s) := by
  induction os with
  | nil => intro s _; exact Kept.refl s
  | cons o os ih =>
    intro s h
    exact (Kept.performFor s o (h o List.mem_cons_self) uid q).trans (ih _ fun x hx => h x (List.mem_cons_of_mem _ hx))

theorem Kept.foldPushes (os : List StoreOp) : ∀ s : State, Kept A uid q s (os.foldl (fun s o => Machine.makePush s uid q o.push) s) := by
  induction os with
  | nil => intro s; exact Kept.refl s
  | cons o os ih => intro s; exact (Kept.makePush s o.push).trans (ih _)

theorem Kept.performAll (s : State) : Kept A uid q s (performAll s uid q) := by
  intro hs
  have h1 := Kept.foldStores (A := A) (uid := uid) (q := q) _ s hs.stores
  refine ((h1.trans (Kept.ofSeq _ (fun c => c.modFl fun f => { f with stores := (((getSeq s uid q).fl.stores).filter fun o => o.due != 0).map fun o =>
    { o with bytes := [], atom := none } }) ?_)).trans (Kept.foldPushes _ _)) hs
  intro ht
  refine ⟨⟨ht.running, ?_, ht.raw⟩, ⟨fun _ _ => rfl, fun _ _ => rfl, fun _ _ => rfl, fun _ => ⟨rfl, rfl, rfl, rfl, rfl, rfl, rfl, rfl⟩, rfl⟩⟩
  intro o ho
  obtain ⟨o', ho', rfl⟩ := List.mem_map.1 ho
  exact ⟨(hs.stores o' (List.mem_filter.1 ho').1).1, fun y hy => by simp at hy⟩

theorem Kept.retire (s : State) (p : Option Push) : Kept A uid q s (retire s uid q p) := by
  cases p with
  | none => exact Kept.refl s
  | some p => exact (Kept.performAll s).trans (Kept.makePush _ _)

theorem Kept.performDue (n : Nat) : ∀ s : State, Kept A uid q s (performDue n s uid q) := by
  induction n with
  | zero => intro s; exact Kept.refl s
  | succ n ih =>
    intro s
    unfold Machine.performDue
    split
    · split
      · exact Kept.refl s
      · rename_i o r he
        intro hs
        have ho := hs.stores o (by rw [he]; exact List.mem_cons_self)
        have h1 : Kept A uid q s (modSeq s uid q fun c => c.modFl fun f => { f with stores := r }) :=
          Kept.ofSeq s _ fun hs' => ⟨⟨hs'.running, fun o' ho' => hs.stores o' (by rw [he]; exact List.mem_cons_of_mem _ ho'), hs'.raw⟩,
            ⟨fun _ _ => rfl, fun _ _ => rfl, fun _ _ => rfl, fun _ => ⟨rfl, rfl, rfl, rfl, rfl, rfl, rfl, rfl⟩, rfl⟩⟩
        exact (((h1.trans (Kept.performFor _ o ho uid q)).trans (Kept.makePush _ _)).trans (ih _)) hs
    · exact Kept.refl s

/-! ## Landing -/

theorem addMark_order (s : State) (m : Mark) : ∃ o g, addMark s m = { s with order := o, meter := g } := by
  unfold addMark
  split
  · exact ⟨s.order, s.meter, rfl⟩
  · exact ⟨_, s.meter, rfl⟩

theorem checkMark_order {a : Agent} {g k j : Nat} {f : Place → Word} {w at0 : Bool} (ps : List (Place × Nat)) :
    ∀ {s t : State}, checkMark a g k j f w at0 ps s = .ok t → ∃ o m, t = { s with order := o, meter := m } := by
  induction ps with
  | nil => intro s t h; cases h; exact ⟨s.order, s.meter, rfl⟩
  | cons p ps ih =>
    intro s t h
    unfold checkMark at h
    split at h
    · cases h
    · obtain ⟨o, m, e⟩ := ih h
      split at e
      · obtain ⟨o', m', e'⟩ := addMark_order (meterAccess s a p.1 p.2)
          { word := p.1, words := p.2, va := (f p.1).toNat, agent := agentKey a, region := g, write := w, atomic := at0, cont := k, job := j, spilled := false }
        exact ⟨o, m, by rw [e, e']; rfl⟩
      · exact ⟨o, m, by rw [e]; rfl⟩

theorem Kept.ofOrder {s t : State} (h : ∃ o m, t = { s with order := o, meter := m }) : Kept A uid q s t := by
  obtain ⟨o, m, rfl⟩ := h
  exact Kept.ofRest rfl rfl rfl ⟨rfl, rfl, rfl, rfl, rfl, rfl, rfl⟩

theorem Kept.flags (s : State) (fl : Flags) (h : fl ≠ 0 → A.flags) : Kept A uid q s (modUnit s uid fun u => { u with aflags := u.aflags ||| fl }) :=
  Kept.ofUnit s _ fun hs => ⟨by cases q <;> exact hs, ⟨by cases q <;> exact SeqKeeps.refl _, fun r _ => ⟨((getUnit s uid).seq r).fl.faults, ((getUnit s uid).seq r).fl.pushes, by cases r <;> rfl⟩, fun _ => rfl, rfl,
    fun _ k hk => by simp [hk], fun hf => by
      by_cases h0 : fl = 0
      · subst h0; simp
      · exact absurd (h h0) hf⟩⟩

theorem Kept.rowAndTag (s : State) (row : Nat) (r : Row) (t : BitVec 6) (h : A.rows) : Kept A uid q s (setRowTag (setRow s uid row r) uid row t) :=
  Kept.trans ((Wrote.setRow s uid row r).kept h)
    (Kept.ofPlace (setRow s uid row r) (fun u => { u with place := { u.place with
        rowTags := tabPut u.place.rowTags row t, tagStray := u.place.tagStray.filter fun r => r != row } })
      (fun _ r => by cases r <;> rfl) (fun _ => rfl) (fun _ => rfl) (fun _ => rfl))

theorem Kept.landValue (s : State) (e : Landing) (h : A.entry e) : Kept A uid q s (landValue s uid q e) := by
  unfold Machine.landValue
  cases hk : e.kind with
  | scalar =>
    refine Kept.ofSeq s _ fun hs => ⟨?_, ?_⟩
    · unfold SeqState.setReg
      split
      · exact hs
      · exact ⟨hs.running, hs.stores, hs.raw⟩
    · unfold SeqState.setReg
      split
      · exact SeqKeeps.refl _
      · rename_i h0
        refine ⟨fun n hn => ?_, fun _ _ => rfl, fun _ _ => rfl, fun _ => ⟨rfl, rfl, rfl, rfl, rfl, rfl, rfl, rfl⟩, rfl⟩
        have hne : e.dst ≠ n := by
          rintro rfl
          rcases hn with hn | hn
          · exact h0 (.inl hn)
          · exact hn (hk ▸ h.1)
        simp [hne]
  | pred =>
    refine Kept.ofSeq s _ fun hs => ⟨?_, ?_⟩
    · unfold SeqState.setPred
      split
      · exact hs
      · exact ⟨hs.running, hs.stores, hs.raw⟩
    · unfold SeqState.setPred
      split
      · exact SeqKeeps.refl _
      · rename_i h0
        refine ⟨fun _ _ => rfl, fun n hn => ?_, fun _ _ => rfl, fun _ => ⟨rfl, rfl, rfl, rfl, rfl, rfl, rfl, rfl⟩, rfl⟩
        have hne : e.dst ≠ n := by
          rintro rfl
          rcases hn with hn | hn
          · exact h0 hn
          · exact hn (hk ▸ h.1)
        simp [hne]
  | handle =>
    refine Kept.ofSeq s _ fun hs => ⟨⟨hs.running, hs.stores, hs.raw⟩, ⟨fun _ _ => rfl, fun _ _ => rfl, fun n hn => ?_, fun _ => ⟨rfl, rfl, rfl, rfl, rfl, rfl, rfl, rfl⟩, rfl⟩⟩
    have hne : e.dst ≠ n := by
      rintro rfl
      exact hn (hk ▸ h.1)
    simp [SeqState.setHandle, hne]
  | tag => exact Kept.ofPlace s _ (fun _ r => by cases r <;> rfl) (fun _ => rfl) (fun _ => rfl) (fun _ => rfl)
  | dqout =>
    exact Kept.ofSeq s _ fun hs => ⟨⟨hs.running, hs.stores, hs.raw⟩, ⟨fun _ _ => rfl, fun _ _ => rfl, fun _ _ => rfl, fun _ => ⟨rfl, rfl, rfl, rfl, rfl, rfl, rfl, rfl⟩, rfl⟩⟩
  | vq =>
    refine Kept.ofPlace s _ (fun u r => ?_) (fun _ => ?_) (fun _ => ?_) (fun _ => ?_)
    · split <;> (cases r <;> rfl)
    all_goals (split <;> rfl)
  | row => exact Kept.rowAndTag _ _ _ _ (h.2.1 hk)
  | reserved => exact Kept.refl s

theorem Kept.ofLanding (s : State) (e : Landing) (h : A.entry e) : Kept A uid q s (modSeq s uid q fun sq => sq.modFl fun f => { f with running := f.running ++ [e] }) :=
  Kept.ofSeq s _ fun hs => ⟨⟨fun x hx => by
      rcases List.mem_append.1 hx with hx | hx
      · exact hs.running x hx
      · rw [List.mem_singleton.1 hx]; exact h, hs.stores, hs.raw⟩,
    ⟨fun _ _ => rfl, fun _ _ => rfl, fun _ _ => rfl, fun _ => ⟨rfl, rfl, rfl, rfl, rfl, rfl, rfl, rfl⟩, rfl⟩⟩

theorem Kept.landCheck {s t : State} {e : Landing} (h : landCheck s uid q e = .ok t) : Kept A uid q s t := by
  unfold Machine.landCheck at h
  split at h
  · exact Kept.ofOrder (checkMark_order _ h)
  · cases h; exact Kept.refl s

/-- A landing that races waits and faults at the next boundary. -/
theorem Kept.landLater (s : State) (e : Landing) (r : Race) (h : A.entry e) : Kept A uid q s (landLater s uid q e r) := by
  refine Kept.ofSeq s _ fun hs => ⟨⟨fun x hx => ?_, hs.stores, hs.raw⟩,
    ⟨fun _ _ => rfl, fun _ _ => rfl, fun _ _ => rfl, fun _ => ⟨rfl, rfl, rfl, rfl, rfl, rfl, rfl, rfl⟩, rfl⟩⟩
  rcases List.mem_append.1 hx with hx | hx
  · exact hs.running x hx
  · rw [List.mem_singleton.1 hx]; exact h

theorem Kept.landEntry (s : State) (e : Landing) (h : A.entry e) : Kept A uid q s (landEntry s uid q e) := by
  unfold Machine.landEntry
  cases hc : Machine.landCheck s uid q e with
  | error r => exact Kept.landLater s e r h
  | ok t => exact ((Kept.landCheck hc).trans ((Kept.flags t e.flg h.2.2).trans (Kept.landValue _ e h))).trans (Kept.retire _ _)

theorem insertOrd_mem (e d : Landing) (es : List Landing) : d ∈ insertOrd e es ↔ d = e ∨ d ∈ es := by
  induction es with
  | nil => simp [insertOrd]
  | cons x es ih =>
    unfold insertOrd
    split
    · simp
    · simp only [List.mem_cons, ih, or_left_comm]

theorem sortOrd_mem (d : Landing) (es : List Landing) : d ∈ sortOrd es ↔ d ∈ es := by
  have : ∀ (es acc : List Landing), d ∈ es.foldl (fun acc e => insertOrd e acc) acc ↔ d ∈ es ∨ d ∈ acc := by
    intro es
    induction es with
    | nil => simp
    | cons x es ih =>
      intro acc
      simp only [List.foldl_cons, ih, insertOrd_mem, List.mem_cons, or_assoc, or_left_comm]
  simpa [sortOrd] using this es []

theorem Kept.foldLand (es : List Landing) : ∀ s : State, (∀ e ∈ es, A.entry e) → Kept A uid q s (es.foldl (fun s e => Machine.landEntry s uid q e) s) := by
  induction es with
  | nil => intro s _; exact Kept.refl s
  | cons e es ih =>
    intro s h
    exact (Kept.landEntry s e (h e List.mem_cons_self)).trans (ih _ fun x hx => h x (List.mem_cons_of_mem _ hx))

theorem Kept.tick (s : State) : Kept A uid q s (tick s uid q) := by
  intro hs
  have he : ∀ e ∈ (getSeq s uid q).fl.running.map (fun e => { e with rem := e.rem - 1 }), A.entry e := by
    intro e he
    obtain ⟨d, hd, rfl⟩ := List.mem_map.1 he
    exact hs.running d hd
  refine (((Kept.performDue 24 s).trans (Kept.ofSeq _ (fun c => { c with vc := c.vc + 1, fl := { c.fl with
    running := ((getSeq s uid q).fl.running.map (fun e => { e with rem := e.rem - 1 })).filter fun e => 1 < e.rem
    stores := c.fl.stores.map fun o => { o with due := o.due - 1 } } }) ?_)).trans (Kept.foldLand _ _ ?_)) hs
  · intro ht
    refine ⟨⟨fun e h => he e (List.mem_filter.1 h).1, fun o ho => ?_, ht.raw⟩,
      ⟨fun _ _ => rfl, fun _ _ => rfl, fun _ _ => rfl, fun _ => ⟨rfl, rfl, rfl, rfl, rfl, rfl, rfl, rfl⟩, rfl⟩⟩
    obtain ⟨o', ho', rfl⟩ := List.mem_map.1 ho
    exact ht.stores o' ho'
  · intro e h
    rw [sortOrd_mem] at h
    exact he e (List.mem_filter.1 h).1

theorem Kept.bumpRegion (s : State) (a : Agent) : Kept A uid q s (bumpRegion s a) := Kept.ofOrder ⟨_, s.meter, rfl⟩

theorem Kept.countIssue (s : State) (c : Ctx) : Kept A uid q s (countIssue s c) := Kept.ofRest rfl rfl rfl ⟨rfl, rfl, rfl, rfl, rfl, rfl, rfl⟩

theorem Kept.issued (s : State) (c : Ctx) (carried : Bool) (hu : c.uid = uid) (hq : c.q = q) : Kept A uid q s (issued s c carried) := by
  subst hu hq
  unfold Machine.issued
  dsimp only
  refine Kept.trans (t := modSeq (Machine.countIssue s c) c.uid c.q fun sq => sq.modFl fun f => { f with frozen := none, tkDone := false, data := false })
    ((Kept.countIssue s c).trans (Kept.ofFlight _ _ (fun _ => rfl) (fun _ => rfl) fun _ => rfl)) ?_
  generalize (modSeq (Machine.countIssue s c) c.uid c.q fun sq => sq.modFl fun f => { f with frozen := none, tkDone := false, data := false }) = s
  have hr : Kept A c.uid c.q s (if carried = true then s else Machine.retire s c.uid c.q (pushOf s c.uid c.q c.push)) := by
    split
    · exact Kept.refl _
    · exact Kept.retire _ _
  refine hr.trans (Kept.trans ?_ (Kept.tick _))
  generalize (if carried = true then s else Machine.retire s c.uid c.q (pushOf s c.uid c.q c.push)) = t
  split
  · exact Kept.bumpRegion _ _
  · exact Kept.refl _

/-! ## Waiting and trapping -/

theorem Kept.askWalk (s : State) (d : Nat) (w : Walk) : Kept A uid q s (askWalk s d w) := by
  unfold Machine.askWalk
  dsimp only
  split
  · exact Kept.refl s
  · exact Kept.ofRest rfl rfl rfl ⟨rfl, rfl, rfl, rfl, rfl, rfl, rfl⟩

/-- A fault raised at a sequencer of the unit. -/
theorem Kept.besideFault (s : State) (r : Seq) (g : List PendFault → List PendFault) :
    Kept A uid q s (modSeq s uid r fun c => c.modFl fun f => { f with faults := g f.faults }) := Kept.aside s r g id

theorem Kept.queued (s : State) (n : Nat) : Kept A uid q s (queued s n) := by
  unfold Machine.queued
  split
  · exact Kept.ofRest rfl rfl rfl ⟨rfl, rfl, rfl, rfl, rfl, rfl, rfl⟩
  · exact Kept.refl s

theorem Kept.setFrozen (s : State) (w : Wait) : Kept A uid q s (setFrozen s uid q w) := by
  have h : Kept A uid q s (modSeq s uid q fun c => c.modFl fun f => { f with frozen := some w }) :=
    Kept.ofFlight s _ (fun _ => rfl) (fun _ => rfl) fun _ => rfl
  unfold Machine.setFrozen
  dsimp only
  split
  · exact h.trans (Kept.askWalk _ _ _)
  · unfold capacityFault
    dsimp only
    split
    · exact h
    · exact h.trans (Kept.besideFault _ _ fun fs => fs ++ [_])
  · exact h.trans (Kept.queued _ _)
  · exact h

/-- What a body comes to keeps what may not change; a trap of it is one that a handler catches, and undoes the body. -/
def Stays {α : Type} (A : Allow) (uid : Nat) (q : Seq) (s : State) : Except Stop (α × State) → Prop
  | .ok (_, t) => Kept A uid q s t
  | .error (.freeze _ k) => ∀ t, k = some t → Kept A uid q s t
  | .error (.trap cause _ _ k) => 1 ≤ cause ∧ cause ≤ 9 ∧ k = none

/-- A body that keeps what may not change. -/
def BodyKeeps {α : Type} (A : Allow) (c : Ctx) (m : M α) : Prop := ∀ s, Stays A c.uid c.q s (m s)

variable {α β : Type} {c : Ctx}

theorem Stays.bind {m : M α} {f : α → M β} {s : State} (h : Stays A c.uid c.q s (m s)) (g : ∀ a t, m s = .ok (a, t) → Stays A c.uid c.q t (f a t)) :
    Stays A c.uid c.q s ((m >>= f) s) := by
  cases hm : m s with
  | error e =>
    rw [M_bind_error hm]
    rw [hm] at h
    cases e <;> exact h
  | ok p =>
    obtain ⟨a, t⟩ := p
    rw [M_bind_ok hm]
    rw [hm] at h
    have g := g a t hm
    revert g
    cases f a t with
    | ok p => exact fun g => Kept.trans h g
    | error e =>
      cases e with
      | freeze w k => exact fun g x hx => Kept.trans h (g x hx)
      | trap => exact fun g => g

theorem BodyKeeps.bind {m : M α} {f : α → M β} (h : BodyKeeps A c m) (g : ∀ a, BodyKeeps A c (f a)) : BodyKeeps A c (m >>= f) :=
  fun s => Stays.bind (h s) fun a t _ => g a t

theorem BodyKeeps.pure (a : α) : BodyKeeps A c (pure a : M α) := fun s => Kept.refl s
theorem BodyKeeps.freeze (w : Wait) : BodyKeeps A c (freeze w : M α) := fun _ t h => by cases h
theorem BodyKeeps.raise (k : Nat) (v : Word) (h : 1 ≤ k ∧ k ≤ 9) : BodyKeeps A c (raise k v : M α) := fun _ => ⟨h.1, h.2, rfl⟩
theorem BodyKeeps.raiseRace (v : Word) (r : Race) : BodyKeeps A c (raiseRace v r : M α) := fun _ => ⟨by decide, by decide, rfl⟩
theorem BodyKeeps.formatFault (d : Ctx) : BodyKeeps A c (formatFault d : M α) := BodyKeeps.raise 2 _ ⟨by decide, by decide⟩
theorem BodyKeeps.windowFault (d : Ctx) : BodyKeeps A c (windowFault d : M α) := BodyKeeps.raise 4 _ ⟨by decide, by decide⟩
theorem BodyKeeps.swizzleFault (d : Ctx) : BodyKeeps A c (swizzleFault d : M α) := BodyKeeps.raise 3 _ ⟨by decide, by decide⟩
theorem BodyKeeps.get : BodyKeeps A c (get : M State) := fun s => Kept.refl s
theorem BodyKeeps.theUnit (d : Ctx) : BodyKeeps A c (theUnit d) := fun s => Kept.refl s
theorem BodyKeeps.theSeq (d : Ctx) : BodyKeeps A c (theSeq d) := fun s => Kept.refl s
theorem BodyKeeps.freeWord : BodyKeeps A c freeWord := fun _ => Kept.ofRest rfl rfl rfl ⟨rfl, rfl, rfl, rfl, rfl, rfl, rfl⟩
theorem BodyKeeps.upd (f : State → State) (h : ∀ s, Kept A c.uid c.q s (f s)) : BodyKeeps A c (upd f) := h
theorem BodyKeeps.updUnit (f : UnitState → UnitState) (h : ∀ s, Kept A c.uid c.q s (modUnit s c.uid f)) : BodyKeeps A c (updUnit c f) := h
theorem BodyKeeps.updSeq (f : SeqState → SeqState) (h : ∀ s, Kept A c.uid c.q s (modSeq s c.uid c.q f)) : BodyKeeps A c (updSeq c f) := h
theorem BodyKeeps.ite {p : Prop} [Decidable p] {m n : M α} (h : BodyKeeps A c m) (g : BodyKeeps A c n) : BodyKeeps A c (if p then m else n) := by
  split
  · exact h
  · exact g

/-! ## Operands -/

theorem BodyKeeps.pendCheck (k : LandKind) (n : Nat) : BodyKeeps A c (pendCheck c k n) :=
  (BodyKeeps.theSeq c).bind fun _ => BodyKeeps.ite (BodyKeeps.raise 9 _ ⟨by decide, by decide⟩) (BodyKeeps.pure _)

/-- The flags that a pop of raw queues sets are none. -/
theorem dqinConvert_raw (v w : Word) (fl : Flags) (h : dqinConvert 0 0 v = some (w, fl)) : fl = 0 := by
  simp [dqinConvert] at h
  exact h.2.symm

theorem BodyKeeps.popDqin : BodyKeeps A c (popDqin c) := by
  intro s
  unfold Machine.popDqin
  rw [M_bind_ok (theSeq_ok c s)]
  cases hd : (getSeq s c.uid c.q).dq.dqin with
  | nil => exact BodyKeeps.freeze _ _
  | cons e r =>
    dsimp only
    cases hv : dqinConvert (getSeq s c.uid c.q).dq.src.toNat (getSeq s c.uid c.q).dq.snk.toNat e.val with
    | none => exact BodyKeeps.formatFault c s
    | some p =>
      obtain ⟨v, fl⟩ := p
      dsimp only
      rw [M_bind_ok (updSeq_ok _ _ _), M_bind_ok (updUnit_ok _ _ _)]
      have hk : Kept A c.uid c.q s (modUnit (modSeq s c.uid c.q fun sq => { sq with dq := { sq.dq with dqin := r } }) c.uid fun u =>
          { u with aflags := u.aflags ||| fl }) := by
        intro hs
        refine Kept.trans (Kept.ofSeq s _ fun hs => ⟨⟨hs.running, hs.stores, hs.raw⟩,
          ⟨fun _ _ => rfl, fun _ _ => rfl, fun _ _ => rfl, fun _ => ⟨rfl, rfl, rfl, rfl, rfl, rfl, rfl, rfl⟩, rfl⟩⟩) (Kept.flags _ fl fun hne => ?_) hs
        by_cases hf : A.flags
        · exact hf
        · obtain ⟨h1, h2⟩ := hs.raw hf
          rw [h1, h2] at hv
          exact absurd (dqinConvert_raw _ _ _ hv) hne
      cases e.acq with
      | none => exact hk
      | some rel => exact hk.trans (Kept.acquireRel _ _ _)

theorem BodyKeeps.rs {w : Nat} (r : BitVec w) : BodyKeeps A c (rs c r) := by
  unfold Machine.rs
  dsimp only
  exact BodyKeeps.ite (BodyKeeps.pure _) (BodyKeeps.ite BodyKeeps.popDqin
    ((BodyKeeps.pendCheck _ _).bind fun _ => (BodyKeeps.theSeq c).bind fun _ => BodyKeeps.pure _))

theorem BodyKeeps.pendScalar {w : Nat} (r : BitVec w) : BodyKeeps A c (pendScalar c r) := BodyKeeps.ite (BodyKeeps.pure _) (BodyKeeps.pendCheck _ _)

theorem BodyKeeps.rs2 {w : Nat} (a b : BitVec w) : BodyKeeps A c (rs2 c a b) :=
  (BodyKeeps.pendScalar a).bind fun _ => (BodyKeeps.pendScalar b).bind fun _ => (BodyKeeps.rs a).bind fun _ => (BodyKeeps.rs b).bind fun _ => BodyKeeps.pure _

theorem BodyKeeps.rp {w : Nat} (r : BitVec w) : BodyKeeps A c (rp c r) :=
  (BodyKeeps.pendCheck _ _).bind fun _ => (BodyKeeps.theSeq c).bind fun _ => BodyKeeps.pure _

theorem BodyKeeps.rp1 {w : Nat} (r : BitVec w) : BodyKeeps A c (rp1 c r) := (BodyKeeps.rp r).bind fun _ => BodyKeeps.pure _

theorem BodyKeeps.rh (n : Nat) : BodyKeeps A c (rh c n) :=
  (BodyKeeps.pendCheck _ _).bind fun _ => (BodyKeeps.theSeq c).bind fun _ => BodyKeeps.pure _

/-! ## Results -/

theorem BodyKeeps.addLanding (e : Landing) (h : A.entry e) : BodyKeeps A c (addLanding c e) := fun s => Kept.ofLanding s _ h

/-- What an entry that only touches one register needs. -/
theorem Allow.blank (k : LandKind) (d lat : Nat) (v : Row) (h : A.lands k d) (hk : k ≠ .row) (d' : Ctx) : A.entry (d'.entry k d lat v) :=
  ⟨h, fun e => absurd e hk, fun e => absurd rfl e⟩

theorem BodyKeeps.landScalar (d : Nat) (v : Word) (lat : Nat) (h : A.lands .scalar d) (hq : A.lands .dqout 0) (p : Option Seq) :
    BodyKeeps A c (landScalar { c with push := p } d v lat) := by
  intro s
  unfold Machine.landScalar
  dsimp only
  split
  · split
    · exact BodyKeeps.freeze (c := c) _ s
    · refine Kept.trans (t := modSeq s c.uid c.q fun sq => { sq with dq := { sq.dq with
        dqout := sq.dq.dqout ++ [{ rid := nextRid ((getSeq s c.uid c.q).dq.dqout.map (·.rid) ++ (getSeq s c.uid c.q).fl.running.map (·.rid) ++
          (getSeq s c.uid c.q).fl.held.map (·.rid)), target := sq.dq.target, val := none }] } }) ?_ (Kept.ofLanding _ _ ⟨hq, fun e => ?_, fun e => absurd rfl e⟩)
      · exact Kept.ofSeq s _ fun hs => ⟨⟨hs.running, hs.stores, hs.raw⟩,
          ⟨fun _ _ => rfl, fun _ _ => rfl, fun _ _ => rfl, fun _ => ⟨rfl, rfl, rfl, rfl, rfl, rfl, rfl, rfl⟩, rfl⟩⟩
      · cases e
  · exact Kept.ofLanding s _ ⟨h, fun e => (by cases e), fun e => absurd rfl e⟩

theorem BodyKeeps.landPred (d : Nat) (m : Mask) (lat : Nat) (h : A.lands .pred d) : BodyKeeps A c (landPred c d m lat) :=
  BodyKeeps.addLanding _ (Allow.blank _ _ _ _ h (by decide) c)

theorem BodyKeeps.landHandle (d : Nat) (m : Handle) (lat : Nat) (h : A.lands .handle d) : BodyKeeps A c (landHandle c d m lat) :=
  BodyKeeps.addLanding _ (Allow.blank _ _ _ _ h (by decide) c)

/-! ## The turn of a word -/

/-- What a word's frame allows. -/
def allowed (s : State) (r : Touches) : Allow where
  lands k n := LandsAt s k n ∨ (k = .scalar ∧ (n = 0 ∨ n ∈ r.regs)) ∨ (k = .pred ∧ n ∈ r.preds) ∨ (k = .handle ∧ n ∈ r.handles) ∨
    (k = .row ∨ k = .vq ∨ k = .dqout ∨ k = .tag)
  bytes x := WaitsToWrite s x ∨ r.bytes x
  flags := r.flags = true ∨ (∃ e ∈ s.acting.fl.running, e.flg ≠ 0) ∨ ¬ (s.acting.dq.src = 0 ∧ s.acting.dq.snk = 0)
  rows := r.rows = true ∨ (∃ e ∈ s.acting.fl.running, e.kind = .row) ∨ s.acting.fl.stores ≠ []
  tags := r.tags = true
  xs := r.xs = true
  sets := r.sets = true

theorem allowed_ready (s : State) (r : Touches) : SeqReady (allowed s r) s.acting where
  running e he := ⟨.inl ⟨e, he, rfl, rfl⟩, fun hk => .inr (.inl ⟨e, he, hk⟩), fun hf => .inr (.inl ⟨e, he, hf⟩)⟩
  stores o ho := ⟨.inr (.inr fun h => by rw [h] at ho; cases ho), fun y hy x hx => .inl ⟨o, ho, y, hy, hx⟩⟩
  raw hf := by
    by_cases h : s.acting.dq.src = 0 ∧ s.acting.dq.snk = 0
    · exact h
    · exact absurd (.inr (.inr h)) hf

theorem Leaves.ofKept {s t : State} {r : Touches} (h : Kept (allowed s r) s.cur.uid s.cur.q s t) : Leaves s r t := by
  obtain ⟨-, h⟩ := h (allowed_ready s r)
  obtain ⟨hm, hu, ho, hr, hc⟩ := h
  have hl : ∀ n, n ∉ r.regs → ¬ LandsAt s .scalar n → (n = 0 ∨ ¬ (allowed s r).lands .scalar n) := by
    intro n h1 h2
    by_cases h0 : n = 0
    · exact .inl h0
    · refine .inr ?_
      rintro (h | ⟨-, h | h⟩ | ⟨h, -⟩ | ⟨h, -⟩ | h | h | h | h)
      · exact h2 h
      · exact h0 h
      · exact h1 h
      all_goals cases h
  have hp : ∀ n, n ∉ r.preds → ¬ LandsAt s .pred n → ¬ (allowed s r).lands .pred n := by
    rintro n h1 h2 (h | ⟨h, -⟩ | ⟨-, h⟩ | ⟨h, -⟩ | h | h | h | h)
    · exact h2 h
    · cases h
    · exact h1 h
    all_goals cases h
  have hh : ∀ n, n ∉ r.handles → ¬ LandsAt s .handle n → ¬ (allowed s r).lands .handle n := by
    rintro n h1 h2 (h | ⟨h, -⟩ | ⟨h, -⟩ | ⟨-, h⟩ | h | h | h | h)
    · exact h2 h
    · cases h
    · cases h
    · exact h1 h
    all_goals cases h
  exact {
    memory := fun hs x h1 h2 => (hm hs).2 x fun h => h.elim h1 h2
    regs := fun n h1 h2 => hu.seq.regs n (hl n h1 h2)
    preds := fun n h1 h2 => hu.seq.preds n (.inr (hp n h1 h2))
    handles := fun n h1 h2 => hu.seq.handles n (hh n h1 h2)
    trap := fun hs => .inl (hu.seq.fixed fun h => Bool.noConfusion (hs.symm.trans h)).1
    setting := fun hs => (hu.seq.fixed fun h => Bool.noConfusion (hs.symm.trans h)).2
    flags := fun hs => hu.gained fun h => Bool.noConfusion (hs.symm.trans h)
    noFlags := fun h1 h2 h3 h4 => hu.noFlags fun h => by
      rcases h with h | ⟨e, he, hf⟩ | h
      · rw [h1] at h; cases h
      · exact hf (h2 e he)
      · exact h ⟨h3, h4⟩
    window := ⟨fun hx => hu.xs fun h => Bool.noConfusion (hx.symm.trans h), hu.ident⟩
    rows := fun h1 h2 h3 => hr fun h => by
      rcases h with h | ⟨e, he, hf⟩ | h
      · rw [h1] at h; cases h
      · exact h2 e he hf
      · exact h h3
    beside := hu.beside
    others := fun v hv => by
      obtain ⟨g, e, hg⟩ := ho v hv
      exact ⟨g, e, fun ht => hg fun h => Bool.noConfusion (ht.symm.trans h)⟩
    rest := hc }

/-- The two states have the same pc and clock at a sequencer. -/
def SameTime (uid : Nat) (q : Seq) (s t : State) : Prop :=
  (getSeq t uid q).pc = (getSeq s uid q).pc ∧ (getSeq t uid q).vc = (getSeq s uid q).vc

theorem SameTime.trans {s t u : State} (h : SameTime uid q s t) (g : SameTime uid q t u) : SameTime uid q s u :=
  ⟨g.1.trans h.1, g.2.trans h.2⟩

theorem getSeq_setTokens (s : State) (a b : Seq) (ts : UnitState → List Token) :
    getSeq (modUnit s uid fun u => setTokens u a b (ts u)) uid q = getSeq s uid q := by
  simp only [getSeq, getUnit_modUnit_same]
  cases q <;> rfl

theorem flushPushes_time (n : Nat) (r : Seq) : ∀ s : State, SameTime uid q s (flushPushes n s uid r) := by
  induction n with
  | zero => intro s; exact ⟨rfl, rfl⟩
  | succ n ih =>
    intro s
    unfold flushPushes
    split
    · exact ⟨rfl, rfl⟩
    · split
      · rename_i p ps _ _
        refine SameTime.trans ?_ (ih _)
        have h : SameTime uid q s (modSeq s uid r fun c => c.modFl fun f => { f with pushes := ps }) := by
          by_cases hr : q = r
          · subst hr; exact ⟨by rw [getSeq_modSeq_same]; rfl, by rw [getSeq_modSeq_same]; rfl⟩
          · simp only [SameTime, getSeq, getUnit_modSeq_same, seq_setSeq_other _ _ _ _ hr, and_self]
        refine h.trans ?_
        constructor <;> rw [getSeq_setTokens (ts := fun u => tokensOf u r p.peer ++ [p.rel])]
      · exact ⟨rfl, rfl⟩

theorem acquireRel_time (s : State) (a : Agent) (x : Release) : SameTime uid q s (acquireRel s a x) := ⟨rfl, rfl⟩

theorem takeToken_time {s t : State} {r : Seq} {x : Token} (h : takeToken s uid q r = some (x, t)) : SameTime uid q s t := by
  unfold takeToken at h
  split at h
  · cases h
  · rename_i y r' _
    cases h
    refine SameTime.trans ?_ (flushPushes_time 64 r _)
    constructor <;> rw [getSeq_setTokens (ts := fun _ => r')]

theorem popToken_time {s t : State} {r : Seq} (h : popToken s uid q r = some t) : SameTime uid q s t := by
  obtain ⟨⟨x, y⟩, hx, rfl⟩ := Option.map_eq_some_iff.1 h
  exact (takeToken_time hx).trans (acquireRel_time _ _ _)

/-- A trap caught by the handler of a state that kept all keeps the rest. -/
theorem Leaves.ofTrap {s p : State} {r : Touches} (hs : Steady s) (h : Kept (allowed s r) s.cur.uid s.cur.q s p)
    (hpc : (getSeq p s.cur.uid s.cur.q).pc = s.acting.pc) (hvc : (getSeq p s.cur.uid s.cur.q).vc = s.acting.vc)
    (cause : Nat) (hc : 1 ≤ cause ∧ cause ≤ 9) (v : Word) (w : IWord) (e : Bool) (x : Option Race) (h0 : r.sets = false) :
    Leaves s r (takeTrap p s.cur.uid s.cur.q cause v w e x) := by
  obtain ⟨h1, h2, h3⟩ := hs
  unfold takeTrap
  dsimp only
  obtain ⟨-, hk⟩ := h (allowed_ready s r)
  have htr := (hk.unit.seq.fixed fun h => Bool.noConfusion (h0.symm.trans h)).1
  have hpo := hk.unit.seq.pour
  rw [show (getUnit s s.cur.uid).seq s.cur.q = s.acting from rfl] at htr hpo
  rw [show (getUnit p s.cur.uid).seq s.cur.q = getSeq p s.cur.uid s.cur.q from rfl] at htr hpo
  have ht : trapToHandler (getSeq p s.cur.uid s.cur.q) cause = true := by
    simp only [trapToHandler, htr, hc.1, hc.2, h2, bne_iff_ne.2 h1, decide_true, Bool.and_true, Bool.not_false]
  have hst : stopPour (getSeq p s.cur.uid s.cur.q) = getSeq p s.cur.uid s.cur.q := by simp [stopPour, hpo, h3]
  rw [if_pos ht]
  have base := Leaves.ofKept h
  have hseq : getSeq (modSeq p s.cur.uid s.cur.q fun c => enterHandler c cause v c.pc c.fl.tkDone) s.cur.uid s.cur.q =
      enterHandler (getSeq p s.cur.uid s.cur.q) cause v (getSeq p s.cur.uid s.cur.q).pc (getSeq p s.cur.uid s.cur.q).fl.tkDone := by
    simp only [getSeq, getUnit_modSeq_same, seq_setSeq_same]
  have hother : ∀ q, q ≠ s.cur.q → getSeq (modSeq p s.cur.uid s.cur.q fun c => enterHandler c cause v c.pc c.fl.tkDone) s.cur.uid q =
      getSeq p s.cur.uid q := by
    intro q hq
    simp only [getSeq, getUnit_modSeq_same, seq_setSeq_other _ _ _ _ hq]
  refine { memory := base.memory, regs := ?_, preds := ?_, handles := ?_, trap := fun _ => .inr ?_, setting := ?_, flags := ?_, noFlags := ?_, window := ?_,
           rows := base.rows, beside := ?_, others := ?_, rest := base.rest }
  · intro n g1 g2
    rw [hseq]
    simp only [enterHandler, hst]
    exact base.regs n g1 g2
  · intro n g1 g2
    rw [hseq]
    simp only [enterHandler, hst]
    exact base.preds n g1 g2
  · intro n g1 g2
    rw [hseq]
    simp only [enterHandler, hst]
    exact base.handles n g1 g2
  · rw [hseq]
    refine ⟨BitVec.ofNat 64 cause, v, (getSeq p s.cur.uid s.cur.q).fl.tkDone, ?_, ?_⟩
    · simp only [enterHandler, hst, htr, hpc, hvc, recordTrap]
    · simp only [enterHandler, hst, htr]
  · rw [hseq]
    simp only [enterHandler, hst]
    exact base.setting
  · intro h k hk
    have := base.flags h k hk
    simpa only [getUnit_modSeq_same, setSeq_aflags] using this
  · intro a b c d
    have := base.noFlags a b c d
    simpa only [getUnit_modSeq_same, setSeq_aflags] using this
  · have := base.window
    simpa only [getUnit_modSeq_same, setSeq_xs, setSeq_ident] using this
  · intro q hq
    rw [hother q hq]
    exact base.beside q hq
  · intro u hu
    rw [show getUnit (modSeq p s.cur.uid s.cur.q fun c => enterHandler c cause v c.pc c.fl.tkDone) u = getUnit p u from getUnit_modSeq_other _ _ _ _ _ hu]
    exact base.others u hu

/-- The same of a word that may change its settings: what traps has not changed them yet. -/
theorem Leaves.ofCaught {s p : State} {r : Touches} (hs : Steady s) (h : Kept (allowed s { r with sets := false }) s.cur.uid s.cur.q s p)
    (ht : SameTime s.cur.uid s.cur.q s p) (cause : Nat) (hc : 1 ≤ cause ∧ cause ≤ 9) (v : Word) (w : IWord) (e : Bool) (x : Option Race) :
    Leaves s r (takeTrap p s.cur.uid s.cur.q cause v w e x) :=
  have l := Leaves.ofTrap (r := { r with sets := false }) hs h ht.1 ht.2 cause hc v w e x rfl
  ⟨l.memory, l.regs, l.preds, l.handles, fun _ => l.trap rfl, fun _ => l.setting rfl, fun _ => l.flags rfl, l.noFlags, l.window, l.rows, l.beside, l.others, l.rest⟩

theorem Kept.pc (s : State) (f : SeqState → Word) : Kept A uid q s (modSeq s uid q fun c => { c with pc := f c }) :=
  Kept.ofSeq s _ fun hs => ⟨⟨hs.running, hs.stores, hs.raw⟩,
    ⟨fun _ _ => rfl, fun _ _ => rfl, fun _ _ => rfl, fun _ => ⟨rfl, rfl, rfl, rfl, rfl, rfl, rfl, rfl⟩, rfl⟩⟩

theorem tokenPop_some {s p : State} {sl : TokSlot} (h : tokenPop s uid q sl = some p) : SameTime uid q s p ∧ Kept A uid q s p := by
  unfold tokenPop at h
  dsimp only at h
  cases hp : sl.pop with
  | none => rw [hp] at h; cases h; exact ⟨⟨rfl, rfl⟩, Kept.refl s⟩
  | some r =>
    rw [hp] at h
    dsimp only at h
    split at h
    · cases h; exact ⟨⟨rfl, rfl⟩, Kept.refl s⟩
    · obtain ⟨t, ht, rfl⟩ := Option.map_eq_some_iff.1 h
      refine ⟨(popToken_time ht).trans ?_, (Kept.popToken ht).trans (Kept.ofFlight _ _ (fun _ => rfl) (fun _ => rfl) fun _ => rfl)⟩
      constructor <;> rw [getSeq_modSeq_same] <;> rfl

/-- A word whose body keeps what may not change leaves the rest, whatever it comes to. -/
theorem issue_leaves {s t : State} {i : Instr} {tk : BitVec 2} {carried : Bool} {body : Ctx → M Unit} {r : Touches} (hs : Steady s)
    (hb : ∀ p, PopsTo s tk p → Stays (allowed s r) s.cur.uid s.cur.q (bodyState s p) (body (issueCtx s i tk) (bodyState s p)))
    (h : issue i tk carried body s = .next t) : Leaves s r t := by
  unfold issue issueThen popThen afterPushes at h
  dsimp only at h
  split at h
  · cases h; exact Leaves.ofKept (Kept.refl s)
  have hf : Kept (allowed s r) s.cur.uid s.cur.q s (flushPushes 64 s s.cur.uid s.cur.q) := Kept.flushPushes 64 _ s
  have hft : SameTime s.cur.uid s.cur.q s (flushPushes 64 s s.cur.uid s.cur.q) := flushPushes_time 64 _ s
  split at h
  · cases h; exact Leaves.ofKept (hf.trans (Kept.setFrozen _ _))
  split at h
  · cases h; exact Leaves.ofCaught hs (Kept.flushPushes 64 _ s) hft 1 ⟨by decide, by decide⟩ _ _ _ _
  split at h
  · cases h; exact Leaves.ofKept (hf.trans (Kept.setFrozen _ _))
  · rename_i p hp
    obtain ⟨hpt, hpk⟩ := tokenPop_some (A := allowed s r) hp
    have hb := hb p hp
    have hk : Kept (allowed s r) s.cur.uid s.cur.q s (bodyState s p) := (hf.trans hpk).trans (Kept.pc _ fun c => c.pc + 4)
    revert hb
    cases hr : body (issueCtx s i tk) (bodyState s p) with
    | ok x =>
      intro hb
      rw [show body (issueCtx s i tk) (nextWord p s.cur.uid s.cur.q) = .ok x from hr] at h
      cases h
      exact Leaves.ofKept ((hk.trans hb).trans (Kept.issued _ _ _ rfl rfl))
    | error e =>
      intro hb
      rw [show body (issueCtx s i tk) (nextWord p s.cur.uid s.cur.q) = .error e from hr] at h
      cases h
      cases e with
      | freeze w k =>
        cases k with
        | none =>
          simp only [stopWord]
          by_cases hr : (Stop.freeze w none).unpops i = true
          · rw [if_pos hr]; exact Leaves.ofKept (hf.trans (Kept.setFrozen _ _))
          · rw [if_neg hr]; exact Leaves.ofKept ((hf.trans hpk).trans (Kept.setFrozen _ _))
        | some y => exact Leaves.ofKept (((hk.trans (hb y rfl)).trans (Kept.pc y fun _ => _)).trans (Kept.setFrozen _ _))
      | trap cause v x k =>
        obtain ⟨h1, h2, rfl⟩ := hb
        cases hc : cause == 1
        · simp only [stopWord, Stop.unpops, hc, Bool.false_eq_true, ↓reduceIte]
          exact Leaves.ofCaught hs ((Kept.flushPushes 64 _ s).trans (tokenPop_some hp).2) (hft.trans hpt) _ ⟨h1, h2⟩ _ _ _ _
        · simp only [stopWord, Stop.unpops, hc, ↓reduceIte]
          exact Leaves.ofCaught hs (Kept.flushPushes 64 _ s) hft _ ⟨h1, h2⟩ _ _ _ _

/-- The same when the body keeps it from every state. -/
theorem issue_frame {x i : Instr} {tk : BitVec 2} {carried : Bool} {body : Ctx → M Unit} {r : State → Touches}
    (he : ∀ s, exec x s = issue i tk carried body s) (hb : ∀ s, BodyKeeps (allowed s (r s)) (issueCtx s i tk) (body (issueCtx s i tk))) :
    FrameOf x r := fun s _ hs h => issue_leaves hs (fun p _ => hb s (bodyState s p)) ((he s).symm.trans h)

/-- The state in which a body runs keeps what may not change. -/
theorem bodyState_kept {s p : State} {tk : BitVec 2} (h : PopsTo s tk p) : Kept A s.cur.uid s.cur.q s (bodyState s p) :=
  ((Kept.flushPushes 64 _ s).trans (tokenPop_some h).2).trans (Kept.pc _ fun c => c.pc + 4)

/-- The acting sequencer stays the same one up to a point of a body. -/
theorem body_cur {s p t : State} {tk : BitVec 2} {r : Touches} (h : PopsTo s tk p) (hk : Kept (allowed s r) s.cur.uid s.cur.q (bodyState s p) t) :
    t.cur = s.cur :=
  ((bodyState_kept h).trans hk (allowed_ready s r)).2.rest.2.2.2.2.2.2

end Sys2Proof.Machine
end

