-- ==== Sys2Proof/Laws/FrameOps.lean ====
section
/-!
SUPPORT. The operations of loads, stores, jumps, vector words and engine commands keep what their frame does not allow.
-/

namespace Sys2Proof.Machine

open Sys2Proof

variable {A : Allow} {α β : Type} {c : Ctx} {uid : Nat} {q : Seq}

theorem allowed_reg {s : State} {r : Touches} {n : Nat} (h : n ∈ r.regs) : (allowed s r).lands .scalar n := .inr (.inl ⟨rfl, .inr h⟩)
theorem allowed_zero {s : State} {r : Touches} : (allowed s r).lands .scalar 0 := .inr (.inl ⟨rfl, .inl rfl⟩)
theorem allowed_pred {s : State} {r : Touches} {n : Nat} (h : n ∈ r.preds) : (allowed s r).lands .pred n := .inr (.inr (.inl ⟨rfl, h⟩))
theorem allowed_handle {s : State} {r : Touches} {n : Nat} (h : n ∈ r.handles) : (allowed s r).lands .handle n := .inr (.inr (.inr (.inl ⟨rfl, h⟩)))
theorem allowed_row {s : State} {r : Touches} (n : Nat) : (allowed s r).lands .row n := .inr (.inr (.inr (.inr (.inl rfl))))
theorem allowed_vq {s : State} {r : Touches} (n : Nat) : (allowed s r).lands .vq n := .inr (.inr (.inr (.inr (.inr (.inl rfl)))))
theorem allowed_dqout {s : State} {r : Touches} (n : Nat) : (allowed s r).lands .dqout n := .inr (.inr (.inr (.inr (.inr (.inr (.inl rfl))))))

theorem BodyKeeps.intro {m : M α} (h : ∀ s, Stays A c.uid c.q s (m s)) : BodyKeeps A c m := h

/-! ## Places, locks and reads -/

theorem BodyKeeps.seqPlaces (va : Word) (k : AccKind) (n : Nat) : BodyKeeps A c (seqPlaces c va k n) := by
  intro s
  unfold Machine.seqPlaces
  cases locateN s c.uid va k n with
  | ok ps =>
    dsimp only
    cases seqBudget s c.uid c.q ps with
    | none => exact Kept.refl s
    | some x => exact BodyKeeps.freeze _ s
  | error e =>
    dsimp only
    cases locateErr s c.uid va k n with
    | none => exact BodyKeeps.windowFault c s
    | some x =>
      obtain ⟨a, e⟩ := x
      cases e with
      | window => exact BodyKeeps.windowFault c s
      | unmapped => exact BodyKeeps.raise 4 _ ⟨by decide, by decide⟩ s
      | miss => exact BodyKeeps.freeze _ s

/-- Places found leave the state as it was. -/
theorem seqPlaces_ok {va : Word} {k : AccKind} {n : Nat} {s t : State} {ps : List Place} (h : seqPlaces c va k n s = .ok (ps, t)) :
    t = s ∧ locateN s c.uid va k n = .ok ps := by
  unfold seqPlaces at h
  cases hl : locateN s c.uid va k n with
  | ok qs =>
    rw [hl] at h
    dsimp only at h
    cases hb : seqBudget s c.uid c.q qs with
    | none => rw [hb] at h; cases h; exact ⟨rfl, rfl⟩
    | some x => rw [hb] at h; cases h
  | error e =>
    rw [hl] at h
    dsimp only at h
    cases he : locateErr s c.uid va k n with
    | none => rw [he] at h; cases h
    | some x =>
      obtain ⟨a, e⟩ := x
      rw [he] at h
      cases e <;> cases h

theorem BodyKeeps.seqLocks (ps : List Place) (w : Bool) : BodyKeeps A c (seqLocks c ps w) := by
  intro s
  unfold Machine.seqLocks
  cases forbidding (getUnit s c.uid) c.uid w ps with
  | nil => exact Kept.refl s
  | cons n ns => exact BodyKeeps.freeze _ s

theorem seqLocks_ok {ps : List Place} {w : Bool} {s t : State} {u : Unit} (h : seqLocks c ps w s = .ok (u, t)) : t = s := by
  unfold seqLocks at h
  cases hl : forbidding (getUnit s c.uid) c.uid w ps with
  | nil => rw [hl] at h; cases h; rfl
  | cons n ns => rw [hl] at h; cases h

theorem BodyKeeps.pendBytes (bs : List (Word × Place)) : BodyKeeps A c (pendBytes c bs) := by
  refine (BodyKeeps.theSeq c).bind fun sq => BodyKeeps.ite (BodyKeeps.get.bind fun s => (BodyKeeps.theUnit c).bind fun u => ?_) (BodyKeeps.pure _)
  split
  · exact BodyKeeps.raise 9 _ ⟨by decide, by decide⟩
  · exact BodyKeeps.pure _

theorem BodyKeeps.pendAt (va : Word) (k : AccKind) (n : Nat) : BodyKeeps A c (pendAt c va k n) := by
  intro s
  unfold Machine.pendAt
  split
  · exact BodyKeeps.pendBytes _ s
  · exact Kept.refl s

theorem plainRead_kept {s t : State} {a : Agent} {g : Nat} {va : Word} {own : List StoreOp} {ps : List Place} {bs : List Byte}
    (h : plainRead s uid a g va own ps = .ok (bs, t)) : Kept A uid q s t := by
  unfold plainRead at h
  split at h
  · cases h
  · dsimp only at h
    split at h
    · cases h
    · rename_i x hx
      cases h
      have hk : Kept A uid q s x := Kept.ofOrder (checkMark_order _ hx)
      split
      · refine hk.trans (Kept.ofPlace _ _ (fun _ r => by cases r <;> rfl) (fun _ => rfl) (fun _ => rfl) (fun _ => rfl))
      · exact hk

theorem BodyKeeps.loadBytes (va : Word) (n : Nat) : BodyKeeps A c (loadBytes c va n) := by
  refine (BodyKeeps.pendAt _ _ _).bind fun _ => (BodyKeeps.seqPlaces _ _ _).bind fun ps => (BodyKeeps.seqLocks _ _).bind fun _ => ?_
  intro s
  rw [M_bind_ok (M_get s), M_bind_ok (theUnit_ok c s)]
  cases hr : plainRead s c.uid (seqAgent (getUnit s c.uid) c.uid c.q) (regionOf s (seqAgent (getUnit s c.uid) c.uid c.q)) va (getSeq s c.uid c.q).fl.stores ps with
  | ok x => exact plainRead_kept hr
  | error e =>
    cases e with
    | wait => exact BodyKeeps.freeze _ s
    | deferred => exact BodyKeeps.formatFault c s
    | race r => exact BodyKeeps.raiseRace va r s

theorem BodyKeeps.loadInto (d a : BitVec 6) (o : BitVec 11) (z : BitVec 2) (g : Bool) (h : A.lands .scalar d.toNat) (hq : A.lands .dqout 0) :
    BodyKeeps A c (loadInto c d a o z g) :=
  (BodyKeeps.rs a).bind fun _ => (BodyKeeps.loadBytes _ _).bind fun _ => (BodyKeeps.theUnit c).bind fun _ =>
    BodyKeeps.landScalar d.toNat _ _ h hq c.push

/-! ## Stores -/

theorem allotGroup_kept {s t : State} {row : Nat} (h : allotGroup s uid row = some t) (hr : A.rows) : Kept A uid q s t := by
  unfold allotGroup at h
  dsimp only at h
  split at h
  · cases h; exact Kept.refl s
  · obtain ⟨g, -, rfl⟩ := Option.map_eq_some_iff.1 h
    refine Kept.trans (t := modUnit s uid fun u => { u with place := { u.place with
        groups := tabPut u.place.groups (row / 16) g, reserve := none
        rowTags := u.place.rowTags.filter fun p => p.1 / 16 != row / 16
        tagStray := u.place.tagStray.filter fun r => r / 16 != row / 16 } })
      (Kept.ofPlace _ _ (fun _ r => by cases r <;> rfl) (fun _ => rfl) (fun _ => rfl) (fun _ => rfl)) (Wrote.kept (A := A) ?_ hr)
    exact ⟨fun h => ⟨h, fun _ _ => rfl⟩, _, _, _, s.meter, rfl⟩

theorem BodyKeeps.needGroup (row : Nat) (hr : A.rows) : BodyKeeps A c (needGroup c row) := by
  intro s
  unfold Machine.needGroup
  cases h : allotGroup s c.uid row with
  | none => exact BodyKeeps.freeze _ s
  | some t => exact allotGroup_kept h hr

theorem BodyKeeps.needGroups (hr : A.rows) (ps : List Place) : BodyKeeps A c (needGroups c ps) := by
  induction ps with
  | nil => exact BodyKeeps.pure _
  | cons p ps ih =>
    cases p with
    | mem pa => exact ih
    | acc u row b => exact (BodyKeeps.needGroup row hr).bind fun _ => ih

theorem BodyKeeps.seqAccess (va : Word) (ps : List Place) (w at0 : Bool) : BodyKeeps A c (seqAccess c va ps w at0) := by
  intro s
  unfold Machine.seqAccess
  dsimp only
  cases hr : checkMark (seqAgent (getUnit s c.uid) c.uid c.q) (regionOf s (seqAgent (getUnit s c.uid) c.uid c.q)) (getUnit s c.uid).ident.key.cont
      (getUnit s c.uid).ident.key.job (wordVa va ps) w at0 (placeRuns ps) s with
  | ok x => exact Kept.ofOrder (checkMark_order _ hr)
  | error e => exact BodyKeeps.raiseRace va e s

theorem BodyKeeps.storeBytes (va : Word) (ps : List Place) (bs : List Byte) (due : Nat) (hr : A.rows) (h : ∀ x, Place.mem x ∈ ps → A.bytes x) :
    BodyKeeps A c (storeBytes c va ps bs due) := by
  refine (BodyKeeps.seqLocks _ _).bind fun _ => (BodyKeeps.needGroups hr _).bind fun _ => (BodyKeeps.seqAccess _ _ _ _).bind fun _ =>
    BodyKeeps.upd _ fun s => Kept.ofSeq s _ fun hs => ⟨⟨hs.running, fun o ho => ?_, hs.raw⟩,
      ⟨fun _ _ => rfl, fun _ _ => rfl, fun _ _ => rfl, fun _ => ⟨rfl, rfl, rfl, rfl, rfl, rfl, rfl, rfl⟩, rfl⟩⟩
  rcases List.mem_append.1 ho with ho | ho
  · exact hs.stores o ho
  · rw [List.mem_singleton.1 ho]
    refine ⟨hr, fun y hy x hx => h x ?_⟩
    rw [← hx]
    exact (List.of_mem_zip hy).1

/-! ## Collected stores -/

/-- The bytes of the stages of a unit's open levels are allowed. -/
def StagesOk (A : Allow) (u : UnitState) : Prop :=
  ∀ l ∈ u.levels, ∀ x, spadPa u l.stage ≤ x → x < spadPa u (l.stage + l.stageN * 4096) → A.bytes x

theorem stageWrite_kept (s : State) (u : UnitState) (l : CaskLevel) (bs : List Byte) (hr : A.rows)
    (h : ∀ x, spadPa u l.stage ≤ x → x < spadPa u (l.stage + l.stageN * 4096) → A.bytes x) :
    Kept A uid q s (stageWrite s u l bs) ∧ getUnit (stageWrite s u l bs) uid = getUnit s uid := by
  have h0 : Kept A uid q s { s with free := s.free + 1 } := Kept.ofRest rfl rfl rfl ⟨rfl, rfl, rfl, rfl, rfl, rfl, rfl⟩
  unfold stageWrite
  dsimp only
  by_cases hn : l.stageN * 4096 = 0
  · rw [if_pos hn]
    exact ⟨h0, rfl⟩
  · rw [if_neg hn]
    have key : ∀ (xs : List (Byte × Nat)) (t : State),
        Wrote A.bytes t (xs.foldl (fun s' x => { s' with mem := memPut s'.mem (spadPa u (l.stage + ((Config.freeValue s.free).toNat + x.2) % (l.stageN * 4096))) x.1 }) t) := by
      intro xs
      induction xs with
      | nil => intro t; exact Wrote.refl t
      | cons x xs ih =>
        intro t
        refine Wrote.trans (t := { t with mem := memPut t.mem (spadPa u (l.stage + ((Config.freeValue s.free).toNat + x.2) % (l.stageN * 4096))) x.1 }) ?_ (ih _)
        refine ⟨fun hm => ⟨memPut_wf _ _ _ hm, fun y hy => memGet_memPut_other _ _ _ _ ?_ hm⟩, _, t.cores, t.order, t.meter, rfl⟩
        rintro rfl
        have := Nat.mod_lt ((Config.freeValue s.free).toNat + x.2) (Nat.pos_of_ne_zero hn)
        exact hy (h _ (by simp only [spadPa]; omega) (by simp only [spadPa]; omega))
    have hk := key bs.zipIdx { s with free := s.free + 1 }
    refine ⟨h0.trans (hk.kept hr), ?_⟩
    obtain ⟨m, k, o, g, e⟩ := hk.shape
    exact (congrArg (fun t => getUnit t uid) e).trans rfl

theorem acceptRecord_kept {s t : State} {id : Nat} {r : CaskRec} (hr : A.rows) (hs : StagesOk A (getUnit s uid)) (h : acceptRecord s uid id r = .taken t) :
    Kept A uid q s t ∧ StagesOk A (getUnit t uid) := by
  unfold acceptRecord at h
  dsimp only at h
  split at h
  · cases h; exact ⟨Kept.refl s, hs⟩
  · split at h
    · cases h; exact ⟨Kept.refl s, hs⟩
    · rename_i l hl
      split at h
      · cases h
      · split at h
        · cases h
        · cases h
          have hm := List.mem_of_getElem? hl
          obtain ⟨h1, h2⟩ := stageWrite_kept (A := A) (uid := uid) (q := q) s (getUnit s uid) l r.bytes hr (hs l hm)
          refine ⟨h1.trans (Kept.ofPlace _ _ (fun _ r => by cases r <;> rfl) (fun _ => rfl) (fun _ => rfl) (fun _ => rfl)), ?_⟩
          rw [getUnit_modUnit_same, h2]
          intro l' hl' x hx1 hx2
          obtain ⟨l0, h0, rfl⟩ := List.mem_map.1 hl'
          refine hs l0 h0 x ?_ ?_
          · split at hx1 <;> exact hx1
          · split at hx2 <;> exact hx2

theorem offerRecords_stays (hr : A.rows) (rs : List CaskRec) : ∀ s, StagesOk A (getUnit s c.uid) → Stays A c.uid c.q s (offerRecords c rs s) := by
  induction rs with
  | nil => intro s _; exact Kept.refl s
  | cons r rs ih =>
    intro s hs
    unfold offerRecords
    rw [M_bind_ok (M_get s)]
    cases hl : (getUnit s c.uid).levels with
    | nil => exact Kept.refl s
    | cons l ls =>
      dsimp only
      cases ha : acceptRecord s c.uid l.id r with
      | race x => exact BodyKeeps.raiseRace _ _ s
      | full v =>
        dsimp only
        split
        · exact BodyKeeps.raise 6 _ ⟨by decide, by decide⟩ s
        · exact BodyKeeps.freeze _ s
      | taken t =>
        obtain ⟨h1, h2⟩ := acceptRecord_kept (q := c.q) hr hs ha
        dsimp only
        rw [M_bind_ok (M_set s t)]
        have := ih t h2
        revert this
        cases offerRecords c rs t with
        | ok x => exact fun h => h1.trans h
        | error e =>
          cases e with
          | freeze w k => exact fun h y hy => h1.trans (h y hy)
          | trap => exact fun h => h

theorem collectWrite_stays (va : Word) (rk : Nat) (o : Option AtomOp) (bs : List Byte) (s : State) (hr : A.rows) (hs : StagesOk A (getUnit s c.uid)) :
    Stays A c.uid c.q s (collectWrite c va rk o bs s) := by
  unfold collectWrite
  rw [M_bind_ok (theSeq_ok c s)]
  dsimp only
  have hret : BodyKeeps A c (upd fun s => retire s c.uid c.q (pushOf s c.uid c.q c.push)) := BodyKeeps.upd _ fun s => Kept.retire s _
  split
  · exact Stays.bind (BodyKeeps.pure () s) fun _ t _ => hret t
  · refine Stays.bind ((BodyKeeps.seqPlaces _ _ _) s) fun ps t ht => ?_
    obtain ⟨rfl, -⟩ := seqPlaces_ok ht
    rw [M_bind_ok (M_get t)]
    exact Stays.bind (offerRecords_stays hr _ t hs) fun _ u _ => hret u

/-- A write reaches the bytes of its address, or collected the stages. -/
theorem writeBytes_stays (va : Word) (rk : Nat) (bs : List Byte) (s : State) (hr : A.rows)
    (h : ∀ x, (if collectsWrite (getUnit s c.uid) (getSeq s c.uid c.q) va then
        ∃ l ∈ (getUnit s c.uid).levels, spadPa (getUnit s c.uid) l.stage ≤ x ∧ x < spadPa (getUnit s c.uid) (l.stage + l.stageN * 4096)
      else ∃ ps, locateN s c.uid va .write bs.length = .ok ps ∧ Place.mem x ∈ ps) → A.bytes x) : Stays A c.uid c.q s (writeBytes c va rk bs s) := by
  unfold writeBytes
  rw [M_bind_ok (theUnit_ok c s), M_bind_ok (theSeq_ok c s)]
  split
  · rename_i hc
    refine collectWrite_stays _ _ _ _ s hr fun l hl x h1 h2 => h x ?_
    rw [if_pos hc]
    exact ⟨l, hl, h1, h2⟩
  · rename_i hc
    refine Stays.bind ((BodyKeeps.seqPlaces _ _ _) s) fun ps t ht => ?_
    obtain ⟨rfl, hps⟩ := seqPlaces_ok ht
    refine BodyKeeps.storeBytes va ps bs 0 hr (fun x hx => h x ?_) t
    rw [if_neg hc]
    exact ⟨ps, hps, hx⟩

/-! ## Jumps -/

theorem BodyKeeps.goTo (a : Word) : BodyKeeps A c (goTo c a) := by
  refine (BodyKeeps.theSeq c).bind fun sq => ?_
  split
  · exact BodyKeeps.updSeq _ fun s => Kept.pc s fun _ => a
  · exact BodyKeeps.raise 1 _ ⟨by decide, by decide⟩

theorem BodyKeeps.link (d : Nat) (h : A.lands .scalar d) (hq : A.lands .dqout 0) : BodyKeeps A c (link c d) :=
  BodyKeeps.landScalar d _ 1 h hq none

/-! ## Vector words -/

theorem BodyKeeps.rowLock (row : Nat) : BodyKeeps A c (rowLock c row) := BodyKeeps.seqLocks _ _

theorem BodyKeeps.pendRow (row : Nat) : BodyKeeps A c (pendRow c row) := (BodyKeeps.pendCheck _ _).bind fun _ => BodyKeeps.pendCheck _ _

theorem BodyKeeps.pendVec (v : BitVec 5) : BodyKeeps A c (pendVec c v) :=
  (BodyKeeps.theUnit c).bind fun _ => BodyKeeps.ite (BodyKeeps.pure _) (BodyKeeps.pendRow _)

theorem BodyKeeps.readRow (row : Nat) : BodyKeeps A c (readRow c row) := by
  refine (BodyKeeps.pendRow row).bind fun _ => (BodyKeeps.rowLock row).bind fun _ => (BodyKeeps.theUnit c).bind fun u => ?_
  intro s
  dsimp only
  rw [M_bind_ok (M_get s)]
  cases hr : checkMark (seqAgent u c.uid c.q) (regionOf s (seqAgent u c.uid c.q)) u.ident.key.cont u.ident.key.job accVa false false
      [(.acc c.uid row 0, 256)] s with
  | ok t => exact Kept.ofOrder (checkMark_order _ hr)
  | error r => exact BodyKeeps.raiseRace _ r s

/-- A change of parts of the unit that no clause names, and flags gained. -/
theorem Kept.gains (s : State) (f : UnitState → UnitState) (h : ∀ u r, (f u).seq r = u.seq r) (hx : ∀ u, (f u).xs = u.xs)
    (hi : ∀ u, (f u).ident = u.ident) (hg : ∀ u k, u.aflags.getLsbD k = true → (f u).aflags.getLsbD k = true) (hf : A.flags) :
    Kept A uid q s (modUnit s uid f) :=
  Kept.ofUnit s f fun hs => ⟨by rw [h]; exact hs, ⟨by rw [h]; exact SeqKeeps.refl _, fun r _ => ⟨_, _, h _ r⟩, fun _ => hx _, hi _, fun _ => hg _, fun n => absurd hf n⟩⟩

theorem BodyKeeps.popVqin (hf : A.flags) : BodyKeeps A c (popVqin c) := by
  refine (BodyKeeps.theUnit c).bind fun u => ?_
  split
  · exact BodyKeeps.freeze _
  · exact BodyKeeps.formatFault c
  · rename_i r fl v _
    refine BodyKeeps.bind (BodyKeeps.updUnit _ fun s => ?_) fun _ => BodyKeeps.pure _
    exact Kept.gains s _ (fun _ r => by cases r <;> rfl) (fun _ => rfl) (fun _ => rfl) (fun _ k hk => by simp [hk]) hf

theorem BodyKeeps.rv (v : BitVec 5) (hf : A.flags) : BodyKeeps A c (rv c v) := by
  unfold Machine.rv
  dsimp only
  exact BodyKeeps.ite (BodyKeeps.pure _) (BodyKeeps.ite ((BodyKeeps.popVqin hf).bind fun _ => BodyKeeps.pure _)
    ((BodyKeeps.theUnit c).bind fun _ => (BodyKeeps.readRow _).bind fun _ => BodyKeeps.pure _))

theorem BodyKeeps.src1 (a : BitVec 5) (cls : Nat → Bool) (hf : A.flags) : BodyKeeps A c (src1 c a cls) :=
  (BodyKeeps.rv a hf).bind fun _ => BodyKeeps.ite (BodyKeeps.pure _) (BodyKeeps.formatFault c)

theorem BodyKeeps.src2 (a b : BitVec 5) (cls : Nat → Bool) (hf : A.flags) : BodyKeeps A c (src2 c a b cls) := by
  refine (BodyKeeps.pendVec a).bind fun _ => (BodyKeeps.pendVec b).bind fun _ => (BodyKeeps.rv a hf).bind fun ⟨ta, x⟩ =>
    (BodyKeeps.rv b hf).bind fun ⟨tb, y⟩ => ?_
  dsimp only
  cases joinTags ta tb with
  | none => exact BodyKeeps.formatFault c
  | some f => exact BodyKeeps.ite (BodyKeeps.pure _) (BodyKeeps.formatFault c)

theorem BodyKeeps.guarded (p : BitVec 4) (k : Mask → M Unit) (h : ∀ g, BodyKeeps A c (k g)) : BodyKeeps A c (guarded c p k) :=
  (BodyKeeps.rp p).bind fun g => BodyKeeps.ite (BodyKeeps.upd _ fun s => Kept.retire s _) (h g)

theorem BodyKeeps.landVec (vd : BitVec 5) (tag : Nat) (row : Row) (g : Option Mask) (fl : Flags) (lat : Nat) (hf : A.flags) (hr : A.rows)
    (h0 : A.lands .scalar 0) (h1 : ∀ n, A.lands .row n) (h2 : ∀ n, A.lands .vq n) : BodyKeeps A c (landVec c vd tag row g fl lat) := by
  unfold Machine.landVec
  dsimp only
  refine BodyKeeps.ite (BodyKeeps.addLanding _ ⟨h0, fun e => (by cases e), fun _ => hf⟩) (BodyKeeps.ite ?_ ?_)
  · refine (BodyKeeps.theUnit c).bind fun u => BodyKeeps.ite (BodyKeeps.formatFault c) (BodyKeeps.ite (BodyKeeps.freeze _) ?_)
    refine (BodyKeeps.theSeq c).bind fun sq => BodyKeeps.bind (BodyKeeps.updUnit _ fun s => ?_) fun _ =>
      BodyKeeps.addLanding _ ⟨h2 _, fun e => (by cases e), fun _ => hf⟩
    exact Kept.ofPlace _ _ (fun _ r => by cases r <;> rfl) (fun _ => rfl) (fun _ => rfl) (fun _ => rfl)
  · exact (BodyKeeps.theUnit c).bind fun u => (BodyKeeps.rowLock _).bind fun _ => (BodyKeeps.needGroup _ hr).bind fun _ =>
      BodyKeeps.addLanding _ ⟨h1 _, fun _ => hr, fun _ => hf⟩

/-! ## Engine commands -/

theorem BodyKeeps.checkHandle (h : Handle) (d : Bool) (m : Word) : BodyKeeps A c (checkHandle c h d m) := by
  intro s
  unfold Machine.checkHandle
  dsimp only
  cases hk : checkCause ((if d = true then checkWord s c.uid c.q h else checkWord s c.uid c.q h &&& ~~~(0x800#64)) &&& ~~~m) with
  | none => exact Kept.refl s
  | some k =>
    have : k = 3 ∨ k = 4 ∨ k = 2 := by
      unfold checkCause at hk
      obtain ⟨b, -, rfl⟩ := Option.map_eq_some_iff.1 hk
      split
      · exact .inl rfl
      · split
        · exact .inr (.inl rfl)
        · exact .inr (.inr rfl)
    exact BodyKeeps.raise k _ (by omega) s

theorem BodyKeeps.checkSides (bad : Bool) (xs : List Side) : BodyKeeps A c (checkSides c bad xs) := by
  intro s
  unfold Machine.checkSides
  split
  · exact BodyKeeps.windowFault c s
  · split
    · exact BodyKeeps.swizzleFault c s
    · exact Kept.refl s

theorem SeqReady.setEq {d : SeqState} (h : SeqReady A d) (e : Eng) (v : EngQueue) : SeqReady A (d.setEq e v) := by
  cases e <;> exact ⟨h.running, h.stores, h.raw⟩

theorem SeqKeeps.setEq (d : SeqState) (e : Eng) (v : EngQueue) : SeqKeeps A d (d.setEq e v) := by
  cases e <;> exact ⟨fun _ _ => rfl, fun _ _ => rfl, fun _ _ => rfl, fun _ => ⟨rfl, rfl, rfl, rfl, rfl, rfl, rfl, rfl⟩, rfl⟩

theorem Kept.modEq (s : State) (e : Eng) (f : EngQueue → EngQueue) : Kept A uid q s (modEq s uid q e f) :=
  Kept.ofSeq s _ fun hs => ⟨hs.setEq e _, SeqKeeps.setEq _ e _⟩

theorem Kept.modCore (s : State) (k : Nat) (f : CoreState → CoreState) (hr : A.rows) : Kept A uid q s (modCore s k f) :=
  Wrote.kept ⟨fun h => ⟨h, fun _ _ => rfl⟩, s.mem, _, s.order, s.meter, rfl⟩ hr

theorem BodyKeeps.pushCommand (e : Eng) (xs : List Extent) (mk : EngCmd → EngCmd) (hr : A.rows) : BodyKeeps A c (pushCommand c e xs mk) := by
  unfold Machine.pushCommand
  refine BodyKeeps.get.bind fun s => (BodyKeeps.theUnit c).bind fun u => (BodyKeeps.theSeq c).bind fun sq =>
    BodyKeeps.ite (BodyKeeps.freeze _) (BodyKeeps.ite (BodyKeeps.freeze _) ?_)
  refine BodyKeeps.bind (BodyKeeps.upd _ fun s => Kept.performAll s) fun _ => BodyKeeps.get.bind fun s =>
    BodyKeeps.bind (BodyKeeps.upd _ fun s => Kept.bumpRegion s _) fun _ => BodyKeeps.bind (BodyKeeps.upd _ fun s => Kept.modCore s _ _ hr) fun _ =>
    BodyKeeps.bind (BodyKeeps.upd _ fun s => Kept.modEq s _ _) fun _ => BodyKeeps.updUnit _ fun s => ?_
  exact Kept.ofPlace _ _ (fun _ r => by cases r <;> rfl) (fun _ => rfl) (fun _ => rfl) (fun _ => rfl)

theorem Kept.tags (s : State) (v : Nat) (g : UnitState → Tab Nat (BitVec 3)) (ht : A.tags) :
    Kept A uid q s (modUnit s v fun u => { u with place := { u.place with tags := g u } }) := by
  by_cases hv : v = uid
  · subst hv
    exact Kept.ofPlace _ _ (fun _ r => by cases r <;> rfl) (fun _ => rfl) (fun _ => rfl) (fun _ => rfl)
  · intro hs
    have hu : getUnit (modUnit s v fun u => { u with place := { u.place with tags := g u } }) uid = getUnit s uid :=
      getUnit_modUnit_other _ _ _ _ fun h => hv h.symm
    refine ⟨by rw [getSeq, hu]; exact hs, ⟨fun hm => ⟨hm, fun _ _ => rfl⟩, by rw [hu]; exact UnitKeeps.refl _, fun w hw => ?_, fun _ => rfl,
      rfl, rfl, rfl, rfl, rfl, rfl, rfl⟩⟩
    by_cases hwv : w = v
    · subst hwv
      exact ⟨g (getUnit s w), by rw [getUnit_modUnit_same], fun h => absurd ht h⟩
    · exact ⟨_, by rw [getUnit_modUnit_other _ _ _ _ hwv], fun _ => rfl⟩

/-- Where the partitions stand, and their tags. -/
def SamePlaces (s t : State) : Prop := ∀ n, (getUnit t n).place.core = (getUnit s n).place.core ∧ (getUnit t n).place.spadBase = (getUnit s n).place.spadBase ∧
  (getUnit t n).place.tags = (getUnit s n).place.tags

theorem SamePlaces.refl (s : State) : SamePlaces s s := fun _ => ⟨rfl, rfl, rfl⟩

theorem SamePlaces.trans {s t u : State} (h : SamePlaces s t) (g : SamePlaces t u) : SamePlaces s u := fun n =>
  ⟨(g n).1.trans (h n).1, (g n).2.1.trans (h n).2.1, (g n).2.2.trans (h n).2.2⟩

theorem SamePlaces.ofUnits {s t : State} (h : t.units = s.units) : SamePlaces s t := fun n => by simp only [getUnit, h, and_self]

theorem SamePlaces.modUnit (s : State) (v : Nat) (f : UnitState → UnitState) (h : ∀ u, (f u).place.core = u.place.core ∧
    (f u).place.spadBase = u.place.spadBase ∧ (f u).place.tags = u.place.tags) : SamePlaces s (modUnit s v f) := fun n => by
  by_cases hn : n = v
  · subst hn; rw [getUnit_modUnit_same]; exact h _
  · rw [getUnit_modUnit_other _ _ _ _ hn]; exact ⟨rfl, rfl, rfl⟩

theorem SamePlaces.modSeq (s : State) (v : Nat) (r : Seq) (f : SeqState → SeqState) : SamePlaces s (modSeq s v r f) :=
  SamePlaces.modUnit s v _ fun u => by rw [setSeq_place]; exact ⟨rfl, rfl, rfl⟩

theorem SamePlaces.flushPushes (n v : Nat) (r : Seq) : ∀ s : State, SamePlaces s (flushPushes n s v r) := by
  induction n with
  | zero => exact SamePlaces.refl
  | succ n ih =>
    intro s
    unfold Machine.flushPushes
    split
    · exact SamePlaces.refl s
    · split
      · rename_i p ps _ _
        exact ((SamePlaces.modSeq s v r fun c => c.modFl fun f => { f with pushes := ps }).trans
          (SamePlaces.modUnit _ v (fun u => setTokens u r p.peer (tokensOf u r p.peer ++ [p.rel])) fun _ => ⟨rfl, rfl, rfl⟩)).trans (ih _)
      · exact SamePlaces.refl s

theorem SamePlaces.makePush (s : State) (v : Nat) (r : Seq) (p : Option Push) : SamePlaces s (makePush s v r p) := by
  cases p with
  | none => exact SamePlaces.refl s
  | some p => exact (SamePlaces.modSeq s v r _).trans (SamePlaces.flushPushes _ _ _ _)

theorem SamePlaces.performOp (s : State) (a : Agent) (o : StoreOp) : SamePlaces s (performOp s a o) := by
  obtain ⟨m, k, d, g, e⟩ := (Wrote.performOp (B := fun _ => True) s a o fun _ _ _ _ => trivial).shape
  exact SamePlaces.ofUnits (by rw [e])

theorem SamePlaces.foldl {α : Type} (f : State → α → State) (h : ∀ s a, SamePlaces s (f s a)) (xs : List α) : ∀ s, SamePlaces s (xs.foldl f s) := by
  induction xs with
  | nil => exact SamePlaces.refl
  | cons x xs ih => exact fun s => (h s x).trans (ih _)

theorem SamePlaces.performAll (s : State) (v : Nat) (r : Seq) : SamePlaces s (performAll s v r) := by
  unfold Machine.performAll
  exact ((SamePlaces.foldl _ (fun s o => SamePlaces.performOp s _ o) _ s).trans (SamePlaces.modSeq _ _ _ _)).trans
    (SamePlaces.foldl _ (fun s (o : StoreOp) => SamePlaces.makePush s v r o.push) _ _)

/-- A command that enters its queue leaves the partitions and tags where they are. -/
theorem pushCommand_places {s t : State} {e : Eng} {xs : List Extent} {mk : EngCmd → EngCmd} {u : Unit} (h : pushCommand c e xs mk s = .ok (u, t)) :
    SamePlaces s t := by
  have room : QueueRoom s c e xs := by
    have h := h
    unfold Machine.pushCommand at h
    rw [M_bind_ok (M_get _), M_bind_ok (theUnit_ok _ _), M_bind_ok (theSeq_ok _ _)] at h
    dsimp only at h
    split at h
    · cases h
    · rename_i h1
      split at h
      · cases h
      · rename_i h2
        exact ⟨Nat.lt_of_not_le h1, Nat.le_of_not_lt h2⟩
  rw [pushCommand_ok room] at h
  simp only [Except.ok.injEq, Prod.mk.injEq, true_and] at h
  rw [← h]
  exact (SamePlaces.performAll s c.uid c.q).trans (queuedState_spads s c e xs _).2

theorem Retagged.same {s t : State} {xs : List Side} {b : Nat} (h : SamePlaces s t) (hb : Retagged t xs b) : Retagged s xs b := by
  obtain ⟨y, hy, hw, r, hc, ht, hl⟩ := hb
  refine ⟨y, hy, hw, r, hc, ?_, ?_⟩
  · simpa only [regionTag, (h y.owner).2.2] using ht
  · simpa only [spadPa, (h y.owner).1, (h y.owner).2.1] using hl

/-- Retagging one region writes its bytes only if its tag changes. -/
theorem Kept.retagRegion (s : State) (v r z : Nat) (ht : A.tags) (hr : A.rows)
    (hb : regionTag s v r ≠ z → ∀ b, spadPa (getUnit s v) (4096 * r) ≤ b → b < spadPa (getUnit s v) (4096 * r) + 4096 → A.bytes b) :
    Kept A uid q s (retagRegion s v r z) := by
  rw [retagRegion_eq]
  have h1 : Wrote A.bytes s { s with mem := retaggedMem s v r z } := by
    refine ⟨fun hs => ?_, _, s.cores, s.order, s.meter, rfl⟩
    unfold State.MemOk retaggedMem
    split
    · exact ⟨hs, fun _ _ => rfl⟩
    · rename_i hz
      generalize hl : (List.range 4096).map (fun i => memGet s.mem (rebank (regionTag s v r) z (spadPa (getUnit s v) (4096 * r) + i))) = bs
      have hn : bs.length = 4096 := by rw [← hl, List.length_map, List.length_range]
      refine ⟨memPutBytes_wf _ _ _ hs, fun x hx => memGet_memPutBytes_other _ _ _ _ hs ?_⟩
      by_cases h : spadPa (getUnit s v) (4096 * r) ≤ x ∧ x < spadPa (getUnit s v) (4096 * r) + 4096
      · exact absurd (hb hz x h.1 h.2) hx
      · rw [hn]; omega
  exact (h1.kept hr).trans (Kept.tags _ v (fun u => tabPut u.place.tags r (BitVec.ofNat 3 z)) ht)

/-- The regions that sides give a tag, in order. -/
def retagOps (xs : List Side) : List (Nat × Nat × Nat) :=
  (xs.filter (·.write)).flatMap fun x => ((regionsOf x.off x.len).filter fun r => coversRegion x.off x.len r).map fun r => (x.owner, r, x.swz)

theorem retag_ops (xs : List Side) : ∀ s : State, retag s xs = (retagOps xs).foldl (fun s o => retagRegion s o.1 o.2.1 o.2.2) s := by
  have inner : ∀ (rs : List Nat) (x : Side) (s : State), rs.foldl (fun s r => if coversRegion x.off x.len r then retagRegion s x.owner r x.swz else s) s =
      ((rs.filter fun r => coversRegion x.off x.len r).map fun r => (x.owner, r, x.swz)).foldl (fun s o => retagRegion s o.1 o.2.1 o.2.2) s := by
    intro rs x
    induction rs with
    | nil => intro s; rfl
    | cons r rs ih =>
      intro s
      by_cases h : coversRegion x.off x.len r = true
      · simp only [List.foldl_cons, h, if_true, List.filter_cons_of_pos, List.map_cons]; exact ih _
      · rw [List.filter_cons_of_neg h, List.foldl_cons, if_neg h]; exact ih _
  induction xs with
  | nil => intro s; rfl
  | cons x xs ih =>
    intro s
    unfold Machine.retag at ih ⊢
    simp only [List.foldl_cons]
    rw [ih]
    by_cases h : x.write = true
    · simp only [h, if_true, inner, retagOps, List.filter_cons_of_pos, List.flatMap_cons, List.foldl_append]
    · simp only [retagOps, List.filter_cons_of_neg (p := fun x : Side => x.write) h, if_neg h]

theorem regionTag_retagRegion (s : State) (v r z w k : Nat) :
    regionTag (retagRegion s v r z) w k = if w = v ∧ k = r then (BitVec.ofNat 3 z).toNat else regionTag s w k := by
  rw [retagRegion_eq]
  unfold regionTag
  by_cases hw : w = v
  · subst hw
    simp only [getUnit_modUnit_same, true_and]
    by_cases hk : k = r
    · subst hk; simp
    · rw [if_neg hk, tabGet_tabPut_other _ _ _ _ hk]; rfl
  · rw [if_neg fun h => hw h.1, getUnit_modUnit_other _ _ _ _ hw]; rfl

theorem spadPa_retagRegion (s : State) (v r z w o : Nat) : spadPa (getUnit (retagRegion s v r z) w) o = spadPa (getUnit s w) o := by
  rw [retagRegion_eq]
  by_cases hw : w = v
  · subst hw; simp only [spadPa, getUnit_modUnit_same]; rfl
  · rw [getUnit_modUnit_other _ _ _ _ hw]; rfl

theorem regionTag_lt (s : State) (v r : Nat) : regionTag s v r < 8 := BitVec.isLt _

/-- Retagging regions in turn writes only bytes of a region whose tag they change. -/
theorem Kept.foldRetag (ht : A.tags) (hr : A.rows) (ops : List (Nat × Nat × Nat)) : ∀ s : State,
    (∀ o ∈ ops, regionTag s o.1 o.2.1 ≠ o.2.2 → ∀ b, spadPa (getUnit s o.1) (4096 * o.2.1) ≤ b → b < spadPa (getUnit s o.1) (4096 * o.2.1) + 4096 → A.bytes b) →
    Kept A uid q s (ops.foldl (fun s o => Machine.retagRegion s o.1 o.2.1 o.2.2) s) := by
  induction ops with
  | nil => intro s _; exact Kept.refl s
  | cons o ops ih =>
    intro s h
    obtain ⟨v, r, z⟩ := o
    refine Kept.trans (Kept.retagRegion s v r z ht hr (h _ List.mem_cons_self)) (ih _ fun p hp hne b h1 h2 => ?_)
    rw [spadPa_retagRegion] at h1 h2
    rw [regionTag_retagRegion] at hne
    by_cases hs : regionTag s p.1 p.2.1 = p.2.2
    · by_cases he : p.1 = v ∧ p.2.1 = r
      · rw [if_pos he] at hne
        obtain ⟨e1, e2⟩ := he
        rw [e1, e2] at hs h1 h2
        refine h _ List.mem_cons_self (fun hz => hne ?_) b h1 h2
        have := regionTag_lt s v r
        rw [hz] at this hs
        rw [← hs, BitVec.toNat_ofNat, Nat.mod_eq_of_lt (by omega)]
      · rw [if_neg he] at hne; exact absurd hs hne
    · exact h p (List.mem_cons_of_mem _ hp) hs b h1 h2

/-- Retagging writes only bytes of the regions that change their tag. -/
theorem Kept.retag (xs : List Side) (ht : A.tags) (hr : A.rows) (s : State) (hb : ∀ b, Retagged s xs b → A.bytes b) : Kept A uid q s (retag s xs) := by
  rw [retag_ops]
  refine Kept.foldRetag ht hr _ s fun o ho hne b h1 h2 => hb b ?_
  obtain ⟨x, hx, ho⟩ := List.mem_flatMap.1 ho
  obtain ⟨r, hr, rfl⟩ := List.mem_map.1 ho
  exact ⟨x, (List.mem_filter.1 hx).1, (List.mem_filter.1 hx).2, r, (List.mem_filter.1 hr).2, hne, h1, h2⟩

/-- A command that enters its queue and retags the regions that it covers. -/
theorem pushRetag_stays (e : Eng) (ls : List Extent) (xs : List Side) (mk : EngCmd → EngCmd) (s : State) (hr : A.rows) (ht : A.tags)
    (hb : ∀ b, Retagged s xs b → A.bytes b) : Stays A c.uid c.q s ((pushCommand c e ls mk >>= fun _ => upd fun s => Machine.retag s xs) s) :=
  Stays.bind (BodyKeeps.pushCommand e ls mk hr s) fun _ t h =>
    Kept.retag xs ht hr t fun b hr => hb b (hr.same (pushCommand_places h))

theorem pushChecked_stays (e : Eng) (xs : List Side) (mk : EngCmd → EngCmd) (s : State) (hr : A.rows) (ht : A.tags)
    (hb : ∀ b, Retagged s xs b → A.bytes b) : Stays A c.uid c.q s (pushChecked c e xs mk s) := pushRetag_stays e _ xs _ s hr ht hb

theorem BodyKeeps.pendScale (h : Handle) : BodyKeeps A c (pendScale c h) := BodyKeeps.ite (BodyKeeps.pendCheck _ _) (BodyKeeps.pure _)

theorem BodyKeeps.scaleOf (h : Handle) : BodyKeeps A c (scaleOf c h) := BodyKeeps.ite (BodyKeeps.rh _) (BodyKeeps.pure _)

/-! ## What leaves the state as it was -/

/-- What succeeds only in the state that it found. -/
def Reads {α : Type} (m : M α) : Prop := ∀ s a t, m s = .ok (a, t) → t = s

theorem Reads.bind {m : M α} {f : α → M β} (h : Reads m) (g : ∀ a, Reads (f a)) : Reads (m >>= f) := fun s b t e => by
  obtain ⟨a, u, h1, h2⟩ := M_bind_eq_ok e
  rw [h s a u h1] at h2
  exact g a s b t h2

theorem Reads.pure (a : α) : Reads (pure a : M α) := fun s b t h => by cases h; rfl
theorem Reads.raise (k : Nat) (v : Word) : Reads (raise k v : M α) := fun s a t h => by cases h
theorem Reads.theSeq : Reads (theSeq c) := fun s a t h => by cases h; rfl
theorem Reads.pendCheck (k : LandKind) (n : Nat) : Reads (pendCheck c k n) := by
  refine Reads.theSeq.bind fun _ => ?_
  split
  · exact Reads.raise _ _
  · exact Reads.pure _
theorem Reads.rh (n : Nat) : Reads (rh c n) := (Reads.pendCheck _ _).bind fun _ => Reads.theSeq.bind fun _ => Reads.pure _
theorem Reads.pendScale (h : Handle) : Reads (pendScale c h) := by
  unfold Machine.pendScale
  split
  · exact Reads.pendCheck _ _
  · exact Reads.pure _
theorem Reads.scaleOf (h : Handle) : Reads (scaleOf c h) := by
  unfold Machine.scaleOf
  split
  · exact Reads.rh _
  · exact Reads.pure _
theorem Reads.checkHandle (h : Handle) (d : Bool) (m : Word) : Reads (checkHandle c h d m) := fun s a t e => by
  unfold Machine.checkHandle at e
  dsimp only at e
  split at e
  · cases e; rfl
  · cases e
theorem Reads.checkSides (bad : Bool) (xs : List Side) : Reads (checkSides c bad xs) := fun s a t e => by
  unfold Machine.checkSides at e
  split at e
  · cases e
  · split at e
    · cases e
    · cases e; rfl

/-- What leaves the state as it was and stays, before what stays from that state. -/
theorem Stays.reads {m : M α} {f : α → M β} {s : State} (h : BodyKeeps A c m) (r : Reads m) (g : ∀ a, m s = .ok (a, s) → Stays A c.uid c.q s (f a s)) :
    Stays A c.uid c.q s ((m >>= f) s) :=
  Stays.bind (h s) fun a t e => by
    have := r s a t e
    subst this
    exact g a e

end Sys2Proof.Machine
end

