-- ==== Sys2Proof/Laws/FrameWords.lean ====
section
/-!
SUPPORT. What the operations of vector, atomic, engine and cask words leave alone.
-/

namespace Sys2Proof.Machine

open Sys2Proof

variable {A : Allow} {uid : Nat} {q : Seq} {α β : Type} {c : Ctx}

theorem BodyKeeps.freezeKeep (w : Wait) : BodyKeeps A c (freezeKeep w : M α) := fun s t h => by cases h; exact Kept.refl s

theorem BodyKeeps.set {s t : State} (h : Kept A c.uid c.q s t) : Stays A c.uid c.q s ((set t : M Unit) s) := h

/-! ## The order of memory -/

theorem Kept.learn (s : State) (a : Agent) (h : Hist) : Kept A uid q s (learn s a h) := Kept.ofOrder ⟨_, s.meter, rfl⟩

theorem Kept.acquireHist (s : State) (a : Agent) (h : Hist) : Kept A uid q s (acquireHist s a h) := (Kept.learn s a h).trans (Kept.bumpRegion _ _)

theorem Kept.learnAll (s : State) (a : Agent) (n : Nat) (rs : List Release) : Kept A uid q s (learnAll s a n rs) := Kept.learn s a _

theorem Kept.fenceOrder (s : State) (a : Agent) (o n : Nat) : Kept A uid q s (fenceOrder s a o n) := by
  unfold Machine.fenceOrder
  dsimp only
  have h1 : Kept A uid q s (if ordAcquires o = true then Machine.learnAll s a n (readRels s a) else s) := by
    split
    · exact Kept.learnAll _ _ _ _
    · exact Kept.refl s
  generalize (if ordAcquires o = true then Machine.learnAll s a n (readRels s a) else s) = t at h1 ⊢
  refine (h1.trans ?_).trans (Kept.bumpRegion _ _)
  by_cases hr : ordReleases o = true
  · rw [if_pos hr]; exact Kept.ofOrder ⟨_, t.meter, rfl⟩
  · rw [if_neg hr]; exact Kept.refl t

theorem Kept.rememberReads (s : State) (a : Agent) (ks : List Nat) : Kept A uid q s (rememberReads s a ks) := Kept.ofOrder ⟨_, s.meter, rfl⟩

theorem Kept.atomicReadOrder (s : State) (a : Agent) (ks : List Nat) (o n : Nat) : Kept A uid q s (atomicReadOrder s a ks o n) := by
  unfold Machine.atomicReadOrder
  dsimp only
  split
  · exact (Kept.rememberReads s a ks).trans (Kept.learnAll _ _ _ _)
  · exact Kept.rememberReads s a ks

/-! ## What waits in the unit -/

/-- A change of the acting unit beside its sequencers, its identity, X's state and its flags. -/
theorem BodyKeeps.place (f : UnitState → UnitState) (h : ∀ u r, (f u).seq r = u.seq r) (hx : ∀ u, (f u).xs = u.xs) (hi : ∀ u, (f u).ident = u.ident)
    (hf : ∀ u, (f u).aflags = u.aflags) : BodyKeeps A c (Machine.updUnit c f) := BodyKeeps.updUnit _ fun s => Kept.ofPlace s f h hx hi hf

/-- A change of X's window, loop or compaction state. -/
theorem BodyKeeps.xs (f : XState → XState) (h : A.xs) : BodyKeeps A c (Machine.updUnit c fun u => { u with xs := f u.xs }) :=
  BodyKeeps.updUnit _ fun s => Kept.ofUnit s (fun u => { u with xs := f u.xs }) fun hs => by
    have e : ∀ r, ({ getUnit s c.uid with xs := f (getUnit s c.uid).xs } : UnitState).seq r = (getUnit s c.uid).seq r := fun r => by cases r <;> rfl
    exact ⟨by rw [e]; exact hs, ⟨by rw [e]; exact SeqKeeps.refl _, fun r _ => ⟨_, _, e r⟩, fun n => absurd h n, rfl, fun _ _ hk => hk, fun _ => rfl⟩⟩

/-- A change of the settings of the acting sequencer. -/
theorem BodyKeeps.sets (f : SeqState → SeqState) (h : A.sets) (hr : ∀ d, (f d).regs = d.regs ∧ (f d).preds = d.preds ∧ (f d).handles = d.handles ∧ (f d).fl = d.fl)
    (hd : A.flags ∨ ∀ d, (f d).dq.src = d.dq.src ∧ (f d).dq.snk = d.dq.snk) : BodyKeeps A c (Machine.updSeq c f) :=
  BodyKeeps.updSeq _ fun s => Kept.ofSeq s _ fun hs => by
    obtain ⟨h1, h2, h3, h4⟩ := hr (getSeq s c.uid c.q)
    refine ⟨⟨by rw [h4]; exact hs.running, by rw [h4]; exact hs.stores, fun hf => ?_⟩,
      ⟨fun _ _ => by rw [h1], fun _ _ => by rw [h2], fun _ _ => by rw [h3], fun n => absurd h n, by rw [h4]⟩⟩
    rcases hd with hd | hd
    · exact absurd hd hf
    · rw [(hd _).1, (hd _).2]; exact hs.raw hf

/-- A change of what is in flight that keeps results, stores and a pour. -/
theorem BodyKeeps.flight (f : Flight → Flight) (hr : ∀ x, (f x).running = x.running) (hs : ∀ x, (f x).stores = x.stores) (hp : ∀ x, (f x).pour = x.pour) :
    BodyKeeps A c (Machine.updSeq c fun sq => sq.modFl f) := BodyKeeps.updSeq _ fun s => Kept.ofFlight s f hr hs hp

theorem Kept.foldEng (f : State → Eng → State) (h : ∀ s e, Kept A uid q s (f s e)) (es : List Eng) : ∀ s, Kept A uid q s (es.foldl f s) := by
  induction es with
  | nil => exact Kept.refl
  | cons e es ih => exact fun s => (h s e).trans (ih _)

theorem Kept.foldHist (a : Agent) (rs : List Release) : ∀ s : State, Kept A uid q s (rs.foldl (fun s r => Machine.learn s a r.hist) s) := by
  induction rs with
  | nil => exact Kept.refl
  | cons r rs ih => exact fun s => (Kept.learn s a r.hist).trans (ih _)

theorem Kept.acquireDone (s : State) (e : Eng) : Kept A uid q s (acquireDone s uid q e) := (Kept.foldHist _ _ s).trans (Kept.modEq _ _ _)

theorem Kept.dropCmds (s : State) (e : Eng) (p : EngCmd → Bool) : Kept A uid q s (dropCmds s uid q e p) :=
  (Kept.modEq s e _).trans (Kept.ofPlace _ _ (fun _ r => by cases r <;> rfl) (fun _ => rfl) (fun _ => rfl) (fun _ => rfl))

theorem Kept.squash (s : State) (n : Nat) : Kept A uid q s (squash s uid q n) := by
  unfold Machine.squash
  have place : ∀ f : UnitState → UnitState, (∀ u r, (f u).seq r = u.seq r) → (∀ u, (f u).xs = u.xs) → (∀ u, (f u).ident = u.ident) →
      (∀ u, (f u).aflags = u.aflags) → Kept A uid q s (modUnit s uid f) := fun f => Kept.ofPlace s f
  have dq : ∀ f : SeqState → SeqState, (∀ d, (f d).regs = d.regs ∧ (f d).preds = d.preds ∧ (f d).handles = d.handles ∧ (f d).fl = d.fl ∧ (f d).tr = d.tr ∧
      (f d).slots = d.slots ∧ (f d).dbg = d.dbg ∧ (f d).status = d.status ∧ (f d).event = d.event ∧ (f d).dq.src = d.dq.src ∧ (f d).dq.snk = d.dq.snk ∧
      (f d).dq.target = d.dq.target) → Kept A uid q s (modSeq s uid q f) := fun f h => Kept.ofSeq s _ fun hs => by
    obtain ⟨h1, h2, h3, h4, h5, h6, h7, h8, h9, h10, h11, h12⟩ := h (getSeq s uid q)
    exact ⟨⟨by rw [h4]; exact hs.running, by rw [h4]; exact hs.stores, by rw [h10, h11]; exact hs.raw⟩,
      ⟨fun _ _ => by rw [h1], fun _ _ => by rw [h2], fun _ _ => by rw [h3], fun _ => ⟨h5, h6, h7, h8, h9, h10, h11, h12⟩, by rw [h4]⟩⟩
  split
  · exact Kept.dropCmds s _ _
  · split
    · exact (Kept.setTokens s _ _ fun _ => _).trans (Kept.flushPushes _ _ _)
    · split
      · exact (Kept.setTokens s _ _ fun _ => _).trans (Kept.flushPushes _ _ _)
      · split
        · exact dq _ fun _ => ⟨rfl, rfl, rfl, rfl, rfl, rfl, rfl, rfl, rfl, rfl, rfl, rfl⟩
        · split
          · exact dq _ fun _ => ⟨rfl, rfl, rfl, rfl, rfl, rfl, rfl, rfl, rfl, rfl, rfl, rfl⟩
          · split
            · exact place _ (fun _ r => by cases r <;> rfl) (fun _ => rfl) (fun _ => rfl) fun _ => rfl
            · split
              · exact place _ (fun _ r => by cases r <;> rfl) (fun _ => rfl) (fun _ => rfl) fun _ => rfl
              · exact place _ (fun _ r => by cases r <;> rfl) (fun _ => rfl) (fun _ => rfl) fun _ => rfl

/-! ## Fences and barriers -/

theorem BodyKeeps.fenceBody (o n : Nat) : BodyKeeps A c (fenceBody c o n) :=
  BodyKeeps.bind (BodyKeeps.upd _ fun s => Kept.performAll s) fun _ => BodyKeeps.upd _ fun s => Kept.fenceOrder s _ _ _

theorem BodyKeeps.barrierBody (b : Bool) : BodyKeeps A c (barrierBody c b) := by
  refine (BodyKeeps.theSeq c).bind fun sq => BodyKeeps.ite ?_ ?_
  · exact BodyKeeps.flight _ (fun _ => rfl) (fun _ => rfl) fun _ => rfl
  · refine BodyKeeps.bind (BodyKeeps.upd _ fun s => Kept.performAll s) fun _ => BodyKeeps.bind ?_ fun _ => BodyKeeps.freezeKeep _
    exact BodyKeeps.flight _ (fun _ => by cases b <;> rfl) (fun _ => by cases b <;> rfl) fun _ => by cases b <;> rfl

/-! ## Atomics -/

/-- An atomic performed now writes what it reaches, where it writes at all. -/
theorem performNow_stays (va : Word) (ps : List Place) (o : AtomOp) (s : State)
    (h : o.fn ≠ 0 → A.rows ∧ ∀ x, Place.mem x ∈ ps → A.bytes x) : Stays A c.uid c.q s (performNow c va ps o s) := by
  unfold Machine.performNow
  rw [M_bind_ok (M_get s)]
  dsimp only
  refine Stays.bind (BodyKeeps.seqAccess va ps _ true s) fun _ t _ => ?_
  rw [M_bind_ok (M_get t)]
  have h1 : Kept A c.uid c.q t (if o.fn = 1 then t else Machine.atomicReadOrder t (seqAgent (getUnit t c.uid) c.uid c.q) (wordKeys t ps) o.ord o.scope) := by
    split
    · exact Kept.refl t
    · exact Kept.atomicReadOrder _ _ _ _ _
  generalize (if o.fn = 1 then t else Machine.atomicReadOrder t (seqAgent (getUnit t c.uid) c.uid c.q) (wordKeys t ps) o.ord o.scope) = u at h1 ⊢
  have h2 : ∀ rels, Kept A c.uid c.q u (performAtomic u ps o rels).2 := by
    intro rels
    unfold Machine.performAtomic
    dsimp only
    cases hn : atomNew o (placesValue u ps) with
    | none => exact Kept.refl u
    | some v =>
      have h0 : o.fn ≠ 0 := fun e => by rw [atomNew, e] at hn; cases hn
      obtain ⟨od, e⟩ := writeHeads_order (wordKeys u ps) rels (o.fn != 1) u
      dsimp only
      rw [e]
      refine (Wrote.ofOrder u od).kept (h h0).1 |>.trans ((Wrote.placesPut _ _ ?_).kept (h h0).1)
      intro y hy x hx
      exact (h h0).2 x (hx ▸ (List.of_mem_zip hy).1)
  exact h1.trans ((h2 _).trans (Kept.bumpRegion _ _))

theorem atomicLater_stays (va : Word) (ps : List Place) (o : AtomOp) (s : State) (hr : A.rows) (h : ∀ x, Place.mem x ∈ ps → A.bytes x) :
    Stays A c.uid c.q s (atomicLater c va ps o s) := by
  refine Stays.bind (BodyKeeps.seqAccess va ps true true s) fun _ t _ => ?_
  rw [M_bind_ok (M_get t)]
  refine Kept.trans (t := modSeq t c.uid c.q fun sq => sq.modFl fun f => { f with stores := f.stores ++ [{ bytes := ps.map fun p => (p, 0), atom := some o, va := va, due := 0, push := none, rels := writeRels t (seqAgent (getUnit t c.uid) c.uid c.q) o.ord o.scope }] }) ?_ (Kept.bumpRegion _ _)
  refine Kept.ofSeq t _ fun hs => ⟨⟨hs.running, fun o' ho => ?_, hs.raw⟩,
    ⟨fun _ _ => rfl, fun _ _ => rfl, fun _ _ => rfl, fun _ => ⟨rfl, rfl, rfl, rfl, rfl, rfl, rfl, rfl⟩, rfl⟩⟩
  rcases List.mem_append.1 ho with ho | ho
  · exact hs.stores o' ho
  · rw [List.mem_singleton.1 ho]
    refine ⟨hr, fun y hy x hx => h x ?_⟩
    obtain ⟨p, hp, rfl⟩ := List.mem_map.1 hy
    exact hx ▸ hp

theorem Reads.get : Reads (get : M State) := fun s a t h => by cases h; rfl
theorem Reads.theUnit : Reads (theUnit c) := fun s a t h => by cases h; rfl
theorem Reads.freeze (w : Wait) : Reads (freeze w : M α) := fun s a t h => by cases h

theorem Reads.ite {p : Prop} [Decidable p] {m n : M α} (h : Reads m) (g : Reads n) : Reads (if p then m else n) := by
  split
  · exact h
  · exact g

theorem Reads.pendBytes (bs : List (Word × Place)) : Reads (pendBytes c bs) := by
  refine Reads.theSeq.bind fun sq => Reads.ite (Reads.get.bind fun s => Reads.theUnit.bind fun u => ?_) (Reads.pure _)
  split
  · exact Reads.raise _ _
  · exact Reads.pure _

theorem Reads.pendAt (va : Word) (k : AccKind) (n : Nat) : Reads (pendAt c va k n) := fun s a t h => by
  unfold Machine.pendAt at h
  cases hl : locateN s c.uid va k n with
  | error e => rw [hl] at h; cases h; rfl
  | ok ps => rw [hl] at h; exact Reads.pendBytes _ s a t h

theorem Reads.pendScalar {w : Nat} (r : BitVec w) : Reads (pendScalar c r) := by
  unfold Machine.pendScalar
  split
  · exact Reads.pure _
  · exact Reads.pendCheck _ _

/-- An atomic on memory writes the bytes of its word, and nothing where it only loads. -/
theorem atomicMem_stays (va : Word) (o : AtomOp) (d : BitVec 5) (lat : Nat) (s : State) (hd : A.lands .scalar d.toNat) (hq : A.lands .dqout 0)
    (h : o.fn ≠ 0 → A.rows ∧ ∀ ps, locateN s c.uid va .atomic o.size = .ok ps → ∀ x, Place.mem x ∈ ps → A.bytes x) :
    Stays A c.uid c.q s (atomicMem c va o d lat s) := by
  refine Stays.bind (BodyKeeps.seqPlaces _ _ _ s) fun ps t ht => ?_
  obtain ⟨rfl, hps⟩ := seqPlaces_ok ht
  have hw : o.fn ≠ 0 → A.rows ∧ ∀ x, Place.mem x ∈ ps → A.bytes x := fun h0 => ⟨(h h0).1, (h h0).2 ps hps⟩
  split
  · exact BodyKeeps.windowFault c t
  · refine Stays.bind (BodyKeeps.seqLocks _ _ t) fun _ u hu => ?_
    obtain rfl := seqLocks_ok hu
    split
    · refine Stays.bind (BodyKeeps.theSeq c u) fun sq v hv => ?_
      cases hv
      split
      · refine Stays.bind (performNow_stays va ps o u hw) fun old v _ => ?_
        split
        · exact BodyKeeps.landScalar d.toNat _ _ hd hq c.push v
        · exact Kept.refl v
      · exact BodyKeeps.freeze _ u
    · rename_i hz
      split
      · refine Stays.bind (BodyKeeps.upd _ (fun s => Kept.performAll s) u) fun _ v _ => ?_
        exact Stays.bind (performNow_stays va ps o v hw) fun _ w _ => Kept.refl w
      · rename_i h0
        have hn : o.fn ≠ 0 := fun e => h0 (.inl e)
        exact atomicLater_stays va ps o u (hw hn).1 (hw hn).2

theorem collectLoad_stays (va : Word) (o : AtomOp) (d : BitVec 5) (s : State) (hd : A.lands .scalar d.toNat) (hq : A.lands .dqout 0) (h0 : o.fn = 0) :
    Stays A c.uid c.q s (collectLoad c va o d s) := by
  refine Stays.bind (BodyKeeps.seqPlaces _ _ _ s) fun ps t ht => ?_
  rw [M_bind_ok (M_get t), M_bind_ok (theUnit_ok c t)]
  dsimp only
  cases readSources t c.uid (seqAgent (getUnit t c.uid) c.uid c.q) (regionOf t (seqAgent (getUnit t c.uid) c.uid c.q)) va (getSeq t c.uid c.q).fl.stores ps with
  | error e =>
    cases e with
    | wait => exact BodyKeeps.freeze _ t
    | deferred => exact BodyKeeps.formatFault c t
    | race r => exact BodyKeeps.raiseRace va r t
  | ok src =>
    dsimp only
    split
    · refine Stays.bind (atomicMem_stays va o d 10 t hd hq fun h => absurd h0 h) fun _ u _ => ?_
      exact BodyKeeps.place (fun u => keepRead u _ _ ps) (fun _ r => by cases r <;> rfl) (fun _ => rfl) (fun _ => rfl) (fun _ => rfl) u
    · refine Stays.bind (BodyKeeps.loadBytes va _ t) fun bs u _ => ?_
      refine Stays.bind (BodyKeeps.upd _ (fun s => Kept.bumpRegion s _) u) fun _ v _ => ?_
      exact BodyKeeps.landScalar d.toNat _ _ hd hq c.push v

/-- The body of an atomic after its operands are read. -/
def atomicRest (c : Ctx) (fn : Nat) (d : BitVec 5) (ord : Nat) (va : Word) (o : AtomOp) : M Unit := do
  let u ← theUnit c
  if va.toNat % o.size ≠ 0 then windowFault c
  else if collectsWrite u (u.seq c.q) va then
    if fn = 0 then collectLoad c va o d
    else if returning fn d then formatFault c
    else do
      upd fun s => bumpRegion s (seqAgent u c.uid c.q)
      collectWrite c va (if fn = 1 ∧ ord = 0 then 0 else 2) (if fn = 1 ∧ ord = 0 then none else some o) (leBytes o.size o.b.toNat)
  else atomicMem c va o d 4

theorem atomicBody_parts (fn : Nat) (d a b : BitVec 5) (ord scope : Nat) (w32 : Bool) :
    atomicBody c fn d a b ord scope w32 = (if fn = 3 then pendScalar c d else pure ()) >>= fun _ => rs2 c a b >>= fun z =>
      (if fn = 3 then rs c d else pure 0) >>= fun y =>
        (if fn = 1 then pure () else pendAt c z.1 .atomic (if w32 then 4 else 8)) >>= fun _ =>
          atomicRest c fn d ord z.1 { fn := fn, ord := ord, scope := scope, w32 := w32, b := z.2, c := y } := by
  unfold atomicBody
  by_cases h3 : fn = 3
  · subst h3; rfl
  · by_cases h1 : fn = 1
    · subst h1; rfl
    · simp only [if_neg h3, if_neg h1]; rfl

/-- An atomic writes the bytes of its word, or collected the stages of its unit's open levels, and nothing where it only loads. -/
theorem atomicBody_stays (fn : Nat) (d a b : BitVec 5) (ord scope : Nat) (w32 : Bool) (s : State) (hd : A.lands .scalar d.toNat) (hq : A.lands .dqout 0)
    (h : fn ≠ 0 → A.rows ∧ ∀ va v t0 y t1, rs2 c a b s = .ok ((va, v), t0) → (if fn = 3 then rs c d else pure 0) t0 = .ok (y, t1) → ∀ x,
      (if collectsWrite (getUnit t1 c.uid) (getSeq t1 c.uid c.q) va then
        ∃ l ∈ (getUnit t1 c.uid).levels, spadPa (getUnit t1 c.uid) l.stage ≤ x ∧ x < spadPa (getUnit t1 c.uid) (l.stage + l.stageN * 4096)
      else ∃ ps, locateN t1 c.uid va .atomic (if w32 then 4 else 8) = .ok ps ∧ Place.mem x ∈ ps) → A.bytes x) :
    Stays A c.uid c.q s (atomicBody c fn d a b ord scope w32 s) := by
  rw [atomicBody_parts]
  refine Stays.reads (m := if fn = 3 then pendScalar c d else pure ()) (BodyKeeps.ite (BodyKeeps.pendScalar d) (BodyKeeps.pure _)) ?_ fun _ _ => ?_
  · split
    · exact Reads.pendScalar d
    · exact Reads.pure _
  refine Stays.bind (BodyKeeps.rs2 a b s) fun z t0 h1 => ?_
  obtain ⟨va, v⟩ := z
  refine Stays.bind (m := if fn = 3 then rs c d else pure 0) (BodyKeeps.ite (BodyKeeps.rs d) (BodyKeeps.pure _) t0) fun y t1 h2 => ?_
  have hw := fun h0 : fn ≠ 0 => (h h0).2 va v t0 y t1 h1 h2
  refine Stays.reads (m := if fn = 1 then pure () else pendAt c va .atomic (if w32 then 4 else 8)) (BodyKeeps.ite (BodyKeeps.pure _) (BodyKeeps.pendAt _ _ _)) ?_
    fun _ _ => ?_
  · split
    · exact Reads.pure _
    · exact Reads.pendAt _ _ _
  unfold atomicRest
  rw [M_bind_ok (theUnit_ok c t1)]
  split
  · exact BodyKeeps.windowFault c t1
  · split
    · rename_i hc
      split
      · rename_i h0
        exact collectLoad_stays va _ d t1 hd hq h0
      · rename_i h0
        split
        · exact BodyKeeps.formatFault c t1
        · refine Stays.bind (BodyKeeps.upd _ (fun s => Kept.bumpRegion s _) t1) fun _ u hu => ?_
          cases hu
          refine collectWrite_stays va _ _ _ _ (h h0).1 fun l hl x h3 h4 => hw h0 x ?_
          rw [if_pos (show collectsWrite (getUnit t1 c.uid) (getSeq t1 c.uid c.q) va = true from hc)]
          exact ⟨l, hl, h3, h4⟩
    · rename_i hc
      refine atomicMem_stays va _ d 4 t1 hd hq fun h0 => ⟨(h h0).1, fun ps hps x hx => hw h0 x ?_⟩
      rw [if_neg (show ¬ collectsWrite (getUnit t1 c.uid) (getSeq t1 c.uid c.q) va = true from hc)]
      exact ⟨ps, hps, hx⟩

/-! ## Vector loads and stores -/

theorem Reads.checkRowPtr (f : VForm) (p : RowPtr) : Reads (checkRowPtr c f p) := fun s a t h => by
  unfold Machine.checkRowPtr at h
  split at h
  · cases h
  · split at h
    · cases h
    · cases hp : pointerOwner s c.uid p.seg p.core with
      | none => rw [hp] at h; cases h
      | some v => rw [hp] at h; cases h; rfl

theorem checkRowPtr_owner {f : VForm} {p : RowPtr} {s t : State} {v : Nat} (h : checkRowPtr c f p s = .ok (v, t)) :
    pointerOwner s c.uid p.seg p.core = some v := by
  unfold checkRowPtr at h
  split at h
  · cases h
  · split at h
    · cases h
    · cases hp : pointerOwner s c.uid p.seg p.core with
      | none => rw [hp] at h; cases h
      | some w => rw [hp] at h; cases h; rfl

theorem BodyKeeps.checkRowPtr (f : VForm) (p : RowPtr) : BodyKeeps A c (checkRowPtr c f p) := by
  intro s
  unfold Machine.checkRowPtr
  split
  · exact BodyKeeps.formatFault c s
  · split
    · exact BodyKeeps.windowFault c s
    · cases pointerOwner s c.uid p.seg p.core with
      | none => exact BodyKeeps.windowFault c s
      | some v => exact Kept.refl s

theorem BodyKeeps.checkSwizzle (v : Nat) (p : RowPtr) (bs : List Nat) : BodyKeeps A c (checkSwizzle c v p bs) := by
  intro s
  unfold Machine.checkSwizzle
  split
  · exact BodyKeeps.swizzleFault c s
  · exact Kept.refl s

theorem BodyKeeps.pendRowBytes (p : RowPtr) (os : List (Nat)) : BodyKeeps A c (pendRowBytes c p os) := by
  intro s
  unfold Machine.pendRowBytes
  cases (if fmtValid p.fmt = true then pointerOwner s c.uid p.seg p.core else none) with
  | none => exact Kept.refl s
  | some v => exact BodyKeeps.pendBytes _ s

theorem BodyKeeps.vecRead (v : Nat) (p : RowPtr) (os : List Nat) : BodyKeeps A c (vecRead c v p os) := by
  intro s
  unfold Machine.vecRead
  rw [M_bind_ok (M_get s)]
  refine Stays.bind (BodyKeeps.seqLocks _ _ s) fun _ t ht => ?_
  obtain rfl := seqLocks_ok ht
  rw [M_bind_ok (theUnit_ok c t)]
  dsimp only
  split
  · exact BodyKeeps.freeze _ t
  · cases hr : checkMark (seqAgent (getUnit t c.uid) c.uid c.q) (regionOf t (seqAgent (getUnit t c.uid) c.uid c.q)) (getUnit t c.uid).ident.key.cont
        (getUnit t c.uid).ident.key.job (rowByteVa t v p) false false (placeRuns ((os.map fun o => Place.mem (spadPa (getUnit t v) o)).filter
          fun q => (ownStore q (getSeq t c.uid c.q).fl.stores).isNone)) t with
    | error r => exact BodyKeeps.raiseRace _ r t
    | ok u => exact Kept.ofOrder (checkMark_order _ hr)

theorem BodyKeeps.landLoad (d : BitVec 5) (tag : Nat) (row : Row) (lat : Nat) (hf : A.flags) (hr : A.rows) (h0 : A.lands .scalar 0)
    (h1 : ∀ n, A.lands .row n) (h2 : ∀ n, A.lands .vq n) : BodyKeeps A c (landLoad c d tag row lat) := by
  unfold Machine.landLoad
  refine BodyKeeps.ite ((BodyKeeps.theUnit c).bind fun u => BodyKeeps.ite (BodyKeeps.formatFault c) (BodyKeeps.ite (BodyKeeps.freeze _) ?_))
    (BodyKeeps.landVec d tag row none 0 lat hf hr h0 h1 h2)
  refine (BodyKeeps.theSeq c).bind fun sq => BodyKeeps.bind ?_ fun _ => BodyKeeps.addLanding _ ⟨h2 _, fun e => (by cases e), fun _ => hf⟩
  exact BodyKeeps.place _ (fun _ r => by cases r <;> rfl) (fun _ => rfl) (fun _ => rfl) fun _ => rfl

theorem BodyKeeps.gatherIndices (p x : RowPtr) : BodyKeeps A c (gatherIndices c p x) := by
  refine (BodyKeeps.checkRowPtr _ _).bind fun v => BodyKeeps.get.bind fun s => BodyKeeps.ite (BodyKeeps.windowFault c) (BodyKeeps.ite (BodyKeeps.formatFault c) ?_)
  exact (BodyKeeps.checkSwizzle _ _ _).bind fun _ => (BodyKeeps.vecRead _ _ _).bind fun _ => BodyKeeps.pure _

theorem BodyKeeps.vecLoad (f : VForm) (d : BitVec 5) (a : BitVec 6) (imm lat : Nat) (hf : A.flags) (hr : A.rows) (h0 : A.lands .scalar 0)
    (h1 : ∀ n, A.lands .row n) (h2 : ∀ n, A.lands .vq n) : BodyKeeps A c (vecLoad c f d a imm lat) := by
  have land : ∀ tag row, BodyKeeps A c (Machine.landLoad c d tag row lat) := fun tag row => BodyKeeps.landLoad d tag row lat hf hr h0 h1 h2
  have tail : ∀ (p : RowPtr) (v : Nat) (offs : List (Option Nat)) (bytes : List Nat), BodyKeeps A c (Machine.checkSwizzle c v p bytes >>= fun _ =>
      Machine.vecRead c v p bytes >>= fun bs => Machine.landLoad c d p.fmt (rowFrom p.fmt (takeLanes p none offs bs)) lat) := fun p v offs bytes =>
    (BodyKeeps.checkSwizzle _ _ _).bind fun _ => (BodyKeeps.vecRead _ _ _).bind fun _ => land _ _
  unfold Machine.vecLoad
  by_cases hg : f = .vldg
  · subst hg
    simp only [if_true]
    refine (BodyKeeps.pendScalar _).bind fun _ => (BodyKeeps.rs a).bind fun v => (BodyKeeps.rs _).bind fun w => (BodyKeeps.pendRowBytes _ _).bind fun _ =>
      (BodyKeeps.checkRowPtr _ _).bind fun o => (BodyKeeps.gatherIndices _ _).bind fun idx => (BodyKeeps.pendRowBytes _ _).bind fun _ => BodyKeeps.get.bind fun s =>
      BodyKeeps.ite (BodyKeeps.windowFault c) (BodyKeeps.ite (BodyKeeps.formatFault c) (tail _ _ _ _))
  · simp only [if_neg hg]
    refine (BodyKeeps.rs a).bind fun v => (BodyKeeps.pure _).bind fun w => (BodyKeeps.pendRowBytes _ _).bind fun _ =>
      (BodyKeeps.checkRowPtr _ _).bind fun o => (BodyKeeps.pure _).bind fun idx => BodyKeeps.get.bind fun s =>
      BodyKeeps.ite (BodyKeeps.windowFault c) (BodyKeeps.ite (BodyKeeps.formatFault c) (tail _ _ _ _))

theorem BodyKeeps.popVqout (hf : A.flags) : BodyKeeps A c (popVqout c) := by
  refine (BodyKeeps.theUnit c).bind fun u => ?_
  split
  · exact BodyKeeps.freeze _
  · exact BodyKeeps.formatFault c
  · refine BodyKeeps.bind (BodyKeeps.updUnit _ fun s => ?_) fun _ => BodyKeeps.pure _
    exact Kept.gains s _ (fun _ r => by cases r <;> rfl) (fun _ => rfl) (fun _ => rfl) (fun _ k hk => by simp [hk]) hf

theorem BodyKeeps.storeRow (d : BitVec 5) (hf : A.flags) : BodyKeeps A c (storeRow c d) :=
  BodyKeeps.ite ((BodyKeeps.popVqout hf).bind fun _ => BodyKeeps.pure _) (BodyKeeps.rv d hf)

theorem rowElems_length (f : Nat) (r : Row) : (rowElems f r).length = laneCount f := by simp [rowElems]

theorem map_fst_zipIdx {α : Type} (xs : List α) (g : Nat → Nat) (n : Nat) :
    ((xs.zipIdx n).map fun x => (g x.2, x.1)).map Prod.fst = (List.range' n xs.length).map g := by
  induction xs generalizing n with
  | nil => rfl
  | cons x xs ih => simp only [List.zipIdx_cons, List.map_cons, ih, List.length_cons, List.range'_succ]

theorem leBytes_length (n v : Nat) : (leBytes n v).length = n := by
  induction n generalizing v with
  | zero => rfl
  | succ n ih => simp [leBytes, ih]

/-- The offsets of a store's image do not depend on the elements stored, of which there are always as many. -/
theorem storeImage_places (f : VForm) (p : RowPtr) (imm : Nat) (xs ys : List Nat) (h : xs.length = ys.length) :
    (storeImage f p imm xs).map Prod.fst = (storeImage f p imm ys).map Prod.fst := by
  unfold storeImage
  dsimp only
  split
  · rw [map_fst_zipIdx _ fun n => p.addr + imm * (rowN p.fmt * fmtBits p.fmt / 8) + n, map_fst_zipIdx _ fun n => p.addr + imm * (rowN p.fmt * fmtBits p.fmt / 8) + n,
      leBytes_length, leBytes_length]
  · generalize laneOffsets f p imm [] = os
    induction os generalizing xs ys with
    | nil => rfl
    | cons o os ih =>
      cases xs with
      | nil => cases ys with
        | nil => rfl
        | cons => cases h
      | cons x xs => cases ys with
        | nil => cases h
        | cons y ys =>
          simp only [List.zip_cons_cons, List.flatMap_cons, List.map_append]
          rw [ih xs ys (Nat.succ.inj h)]
          congr 1
          cases o with
          | none => rfl
          | some o => rw [map_fst_zipIdx _ fun n => p.addr + o / 8 + n, map_fst_zipIdx _ fun n => p.addr + o / 8 + n, leBytes_length, leBytes_length]

theorem storeAt_stays (f : VForm) (d : BitVec 5) (imm : Nat) (p : RowPtr) (s : State) (hf : A.flags) (hr : A.rows)
    (h : ∀ o, pointerOwner s c.uid p.seg p.core = some o → ∀ z ∈ (storeImage f p imm (rowElems p.fmt 0)).map Prod.fst, A.bytes (spadPa (getUnit s o) z)) :
    Stays A c.uid c.q s (storeAt c f d imm p s) := by
  unfold storeAt
  refine Stays.bind (BodyKeeps.checkRowPtr _ _ s) fun o t ho => ?_
  obtain rfl := Reads.checkRowPtr _ _ _ _ _ ho
  have h := h o (checkRowPtr_owner ho)
  rw [M_bind_ok (M_get t)]
  split
  · exact BodyKeeps.windowFault c t
  · refine Stays.bind (BodyKeeps.storeRow d hf t) fun z u _ => ?_
    obtain ⟨tg, r⟩ := z
    refine BodyKeeps.ite (BodyKeeps.formatFault c) (BodyKeeps.intro fun u => ?_) u
    refine Stays.bind (BodyKeeps.checkSwizzle _ _ _ u) fun _ u1 _ => ?_
    refine Stays.bind (BodyKeeps.seqLocks _ _ u1) fun _ u2 _ => ?_
    rw [M_bind_ok (M_get u2), M_bind_ok (theUnit_ok c u2)]
    generalize hm : checkMark (seqAgent (getUnit u2 c.uid) c.uid c.q) (regionOf u2 (seqAgent (getUnit u2 c.uid) c.uid c.q)) (getUnit u2 c.uid).ident.key.cont
      (getUnit u2 c.uid).ident.key.job (rowByteVa u2 o p) true false (placeRuns ((storeImage f p imm (rowElems p.fmt r)).map fun x =>
        Place.mem (spadPa (getUnit t o) x.1))) u2 = m
    cases m with
    | error r => exact BodyKeeps.raiseRace _ _ u2
    | ok w =>
      have hk : Kept A c.uid c.q u2 w := Kept.ofOrder (checkMark_order _ hm)
      refine hk.trans (Kept.ofSeq w _ fun hs => ⟨⟨hs.running, fun o' ho' => ?_, hs.raw⟩,
        ⟨fun _ _ => rfl, fun _ _ => rfl, fun _ _ => rfl, fun _ => ⟨rfl, rfl, rfl, rfl, rfl, rfl, rfl, rfl⟩, rfl⟩⟩)
      rcases List.mem_append.1 ho' with ho' | ho'
      · exact hs.stores o' ho'
      · rw [List.mem_singleton.1 ho']
        refine ⟨hr, fun y hy x hx => ?_⟩
        obtain ⟨z, hz, e⟩ := List.mem_map.1 (List.of_mem_zip hy).1
        rw [← e] at hx
        cases hx
        refine h z.1 ?_
        rw [← storeImage_places f p imm _ _ ((rowElems_length p.fmt r).trans (rowElems_length p.fmt 0).symm)]
        exact List.mem_map_of_mem hz

theorem Reads.pendVec (v : BitVec 5) : Reads (pendVec c v) := by
  unfold Machine.pendVec pendRow
  exact Reads.theUnit.bind fun u => Reads.ite (Reads.pure _) ((Reads.pendCheck _ _).bind fun _ => Reads.pendCheck _ _)

/-- A vector store writes the bytes of its image in the partition that its row pointer names. -/
theorem vecStore_stays (f : VForm) (d : BitVec 5) (a : BitVec 6) (imm : Nat) (s : State) (hf : A.flags) (hr : A.rows)
    (h : ∀ v t o, rs c a s = .ok (v, t) → pointerOwner t c.uid (rowPtr v).seg (rowPtr v).core = some o →
      ∀ z ∈ (storeImage f (rowPtr v) imm (rowElems (rowPtr v).fmt 0)).map Prod.fst, A.bytes (spadPa (getUnit t o) z)) :
    Stays A c.uid c.q s (vecStore c f d a imm s) := by
  have main : Stays A c.uid c.q s ((rs c a >>= fun v => storeAt c f d imm (rowPtr v)) s) :=
    Stays.bind (BodyKeeps.rs a s) fun v t hv => storeAt_stays f d imm _ t hf hr fun o => h v t o hv
  unfold vecStore
  by_cases hq : c.q = .s
  · simp only [if_pos hq]
    exact main
  · simp only [if_neg hq]
    exact Stays.reads (BodyKeeps.pendVec d) (Reads.pendVec d) fun _ _ => main

/-! ## Casks -/

/-- A state in which only the meter has changed. -/
def Metered (s t : State) : Prop := ∃ m, t = { s with meter := m }

theorem Metered.refl (s : State) : Metered s s := ⟨s.meter, rfl⟩

theorem Metered.trans {s t u : State} (h : Metered s t) (g : Metered t u) : Metered s u := by
  obtain ⟨m, rfl⟩ := h
  obtain ⟨n, rfl⟩ := g
  exact ⟨n, rfl⟩

theorem Metered.kept {s t : State} (h : Metered s t) : Kept A uid q s t := by
  obtain ⟨m, rfl⟩ := h
  exact Kept.ofOrder ⟨s.order, m, rfl⟩

theorem Metered.charge (s : State) (a : Account) (ps : List Place) : Metered s (chargePlaces s a ps) := ⟨_, rfl⟩

/-- Addresses lie where they lay. -/
theorem locateN_metered {s t : State} (h : Metered s t) (v : Nat) (k : AccKind) (n : Nat) : ∀ va, locateN t v va k n = locateN s v va k n := by
  obtain ⟨m, rfl⟩ := h
  induction n with
  | zero => intro va; rfl
  | succ n ih => intro va; unfold locateN; rw [ih]; rfl

theorem poolRead_metered {pool : Word} {off n : Nat} {s t : State} {bs : List Byte} (h : poolRead c pool off n s = .ok (bs, t)) : Metered s t := by
  unfold poolRead poolPlaces at h
  obtain ⟨ps, u, h1, h2⟩ := M_bind_eq_ok h
  obtain ⟨rfl, -⟩ := seqPlaces_ok h1
  cases h2
  exact Metered.charge _ _ _

theorem poolSerial_metered {pool : Word} {s t : State} {n : Nat} (h : poolSerial c pool s = .ok (n, t)) : Metered s t := by
  unfold poolSerial at h
  obtain ⟨bs, u, h1, h2⟩ := M_bind_eq_ok h
  cases h2
  exact poolRead_metered h1

theorem BodyKeeps.poolRead (pool : Word) (off n : Nat) : BodyKeeps A c (poolRead c pool off n) :=
  (BodyKeeps.seqPlaces _ _ _).bind fun ps => BodyKeeps.bind (BodyKeeps.upd _ fun s => (Metered.charge s _ ps).kept) fun _ => BodyKeeps.get.bind fun _ => BodyKeeps.pure _

theorem BodyKeeps.poolSerial (pool : Word) : BodyKeeps A c (poolSerial c pool) := (BodyKeeps.poolRead _ _ _).bind fun _ => BodyKeeps.pure _

theorem staleWord_metered {h : Handle} {w x : Word} {s t : State} (e : staleWord c h w s = .ok (x, t)) : Metered s t := by
  unfold staleWord at e
  split at e
  · cases e; exact Metered.refl s
  · cases hp : poolSerial c (ckPool h) s with
    | ok z => rw [hp] at e; cases e; exact poolSerial_metered hp
    | error z =>
      rw [hp] at e
      cases z with
      | freeze => cases e
      | trap =>
        dsimp only at e
        split at e
        · cases e
        · cases e; exact Metered.refl s

theorem BodyKeeps.staleWord (h : Handle) (w : Word) : BodyKeeps A c (staleWord c h w) := by
  intro s
  have hk := BodyKeeps.poolSerial (A := A) (c := c) (ckPool h) s
  unfold Machine.staleWord
  split
  · exact Kept.refl s
  · cases hp : Machine.poolSerial c (ckPool h) s with
    | ok z => rw [hp] at hk; exact hk
    | error z =>
      rw [hp] at hk
      cases z with
      | freeze => exact hk
      | trap =>
        dsimp only
        split
        · exact hk
        · exact Kept.refl s

theorem staleWords_metered (hs : List Handle) : ∀ {w x : Word} {s t : State}, staleWords c hs w s = .ok (x, t) → Metered s t := by
  induction hs with
  | nil => intro w x s t h; cases h; exact Metered.refl s
  | cons h hs ih =>
    intro w x s t e
    obtain ⟨y, u, h1, h2⟩ := M_bind_eq_ok e
    exact (staleWord_metered h1).trans (ih h2)

theorem BodyKeeps.staleWords (hs : List Handle) : ∀ w, BodyKeeps A c (staleWords c hs w) := by
  induction hs with
  | nil => exact fun _ => BodyKeeps.pure _
  | cons h hs ih => exact fun w => (BodyKeeps.staleWord h w).bind fun _ => ih _

theorem BodyKeeps.checkOperands (w : Word) (hs : List Handle) : BodyKeeps A c (checkOperands c w hs) :=
  (BodyKeeps.staleWords hs w).bind fun x => BodyKeeps.ite (BodyKeeps.pure _) (BodyKeeps.raise 2 _ ⟨by decide, by decide⟩)

theorem checkOperands_metered {w : Word} {hs : List Handle} {s t : State} {u : Unit} (e : checkOperands c w hs s = .ok (u, t)) : Metered s t := by
  obtain ⟨y, v, h1, h2⟩ := M_bind_eq_ok e
  unfold failCheck at h2
  split at h2
  · cases h2; exact staleWords_metered hs h1
  · cases h2

theorem BodyKeeps.checkCask (h : Handle) (w : CaskWant) : BodyKeeps A c (checkCask c h w) := (BodyKeeps.theUnit c).bind fun _ => BodyKeeps.checkOperands _ _

theorem checkCask_metered {h : Handle} {w : CaskWant} {s t : State} {u : Unit} (e : checkCask c h w s = .ok (u, t)) : Metered s t := by
  obtain ⟨y, v, h1, h2⟩ := M_bind_eq_ok e
  cases h1
  exact checkOperands_metered h2

/-- A write of a pool reaches the bytes of its addresses. -/
theorem poolWrite_stays (pool : Word) (bs : List Byte) (s : State) (hr : A.rows)
    (h : ∀ ps, locateN s c.uid pool .write bs.length = .ok ps → ∀ x, Place.mem x ∈ ps → A.bytes x) : Stays A c.uid c.q s (poolWrite c pool 0 bs s) := by
  unfold poolWrite poolPlaces
  rw [show pool + BitVec.ofNat 64 0 = pool from BitVec.add_zero pool]
  refine Stays.bind (BodyKeeps.seqPlaces _ _ _ s) fun ps t ht => ?_
  obtain ⟨rfl, hps⟩ := seqPlaces_ok ht
  refine ((Metered.charge t _ ps).kept).trans ((Wrote.placesPut _ _ fun y hy x hx => ?_).kept hr)
  exact h ps hps x (hx ▸ (List.of_mem_zip hy).1)

theorem BodyKeeps.popLevel : BodyKeeps A c (Machine.updUnit c Machine.popLevel) :=
  BodyKeeps.place Machine.popLevel (fun _ r => by cases r <;> rfl) (fun _ => rfl) (fun _ => rfl) fun _ => rfl

end Sys2Proof.Machine
end

