-- ==== Sys2Proof/Laws/PerInstr.lean ====
section
/-!
SUPPORT. The family `RoundTrip`: an instruction that a sequencer accepts, or a host form that the hart does not refuse, is what the decoder
reads from the word the encoder builds of it. One lemma for each constructor of `Instr`.
-/

namespace Sys2Proof

/-- What the decoder owes an instruction: its word decodes to it, in every sequencer that accepts it, and at the hart when it is a host form
(R63, R81, R85, R86). -/
def Laws.RoundTrip.Statement (i : Instr) : Prop :=
  ∀ w, encode i = some w →
    (∀ q, i.isHost = false → i.legalIn q = true → decode q w = some i) ∧ (i.isHost = true → i.wellFormed = true → decodeHost w = some i)

namespace Laws.RoundTrip

theorem of_raw {i : Instr} {w : IWord} (he : encode i = some w) (hh : i.isHost = false) (hr : decodeRaw w = some i) : Statement i := by
  intro v hv
  rw [he] at hv
  cases hv
  refine ⟨fun q _ hl => ?_, fun h => by rw [hh] at h; cases h⟩
  simp [decode, hr, hl]

theorem of_host {i : Instr} {w : IWord} (he : encode i = some w) (hh : i.isHost = true) (hr : i.wellFormed = true → decodeHost w = some i) :
    Statement i := by
  intro v hv
  rw [he] at hv
  cases hv
  exact ⟨fun q h _ => (by rw [hh] at h; cases h), fun _ => hr⟩

theorem of_event {i : Instr} (he : encode i = none) : Statement i := fun w hw => by rw [he] at hw; cases hw

theorem relocWord_low (l : BitVec 1) (c : BitVec 5) : BitVec.extractLsb' (n := 6) 0 5 (l ++ c) = c := by
  revert l c; decide

theorem relocWord_high (l : BitVec 1) (c : BitVec 5) : BitVec.extractLsb' (n := 6) 5 1 (l ++ c) = l := by
  revert l c; decide

theorem sixOfEight (f : BitVec 6) :
    BitVec.extractLsb' (n := 8) 6 2 (0#2 ++ f) = 0#2 ∧ BitVec.extractLsb' (n := 8) 0 6 (0#2 ++ f) = f := by revert f; decide

theorem fourOfEight (m : BitVec 4) :
    BitVec.extractLsb' (n := 8) 4 4 (0#4 ++ m) = 0#4 ∧ BitVec.extractLsb' (n := 8) 0 4 (0#4 ++ m) = m := by revert m; decide

theorem twoAndThree (m : BitVec 2) (g : BitVec 3) :
    BitVec.extractLsb' (n := 5) 3 2 (m ++ g) = m ∧ BitVec.extractLsb' (n := 5) 0 3 (m ++ g) = g := by revert m g; decide

theorem evenHandle_low (h : BitVec 3) : BitVec.extractLsb' (n := 4) 0 1 (h ++ 0#1) = 0#1 := by revert h; decide

theorem evenHandle_high (h : BitVec 3) : BitVec.extractLsb' (n := 4) 1 3 (h ++ 0#1) = h := by revert h; decide

theorem ill (d : BitVec 6) (a : BitVec 6) (i : BitVec 6) (t : BitVec 2) : Statement (.ill d a i t) := of_raw rfl rfl (by simp [decodeRaw, decodeSYS])

theorem nop (t : BitVec 2) : Statement (.nop t) := of_raw rfl rfl (by simp [decodeRaw, decodeSYS])

theorem halt (t : BitVec 2) : Statement (.halt t) := of_raw rfl rfl (by simp [decodeRaw, decodeSYS])

theorem trap (i : BitVec 6) (t : BitVec 2) : Statement (.trap i t) := of_raw rfl rfl (by simp [decodeRaw, decodeSYS])

theorem rett (t : BitVec 2) : Statement (.rett t) := of_raw rfl rfl (by simp [decodeRaw, decodeSYS])

theorem mfs (d : BitVec 6) (i : BitVec 6) (t : BitVec 2) : Statement (.mfs d i t) := of_raw rfl rfl (by simp [decodeRaw, decodeSYS])

theorem mts (a : BitVec 6) (i : BitVec 6) (t : BitVec 2) : Statement (.mts a i t) := of_raw rfl rfl (by simp [decodeRaw, decodeSYS])

theorem vcyc (d : BitVec 6) (t : BitVec 2) : Statement (.vcyc d t) := of_raw rfl rfl (by simp [decodeRaw, decodeSYS])

theorem dbgpend (d : BitVec 6) (i : BitVec 6) (t : BitVec 2) : Statement (.dbgpend d i t) := of_raw rfl rfl (by simp [decodeRaw, decodeSYS])

theorem bkpt (i : BitVec 6) (t : BitVec 2) : Statement (.bkpt i t) := of_raw rfl rfl (by simp [decodeRaw, decodeSYS])

theorem wfe (t : BitVec 2) : Statement (.wfe t) := of_raw rfl rfl (by simp [decodeRaw, decodeSYS])

theorem sev (i : BitVec 6) (t : BitVec 2) : Statement (.sev i t) := of_raw rfl rfl (by simp [decodeRaw, decodeSYS])

theorem tkcfg (i : BitVec 6) (t : BitVec 2) : Statement (.tkcfg i t) := of_raw rfl rfl (by simp [decodeRaw, decodeSYS])

theorem ident (d : BitVec 6) (i : BitVec 6) (t : BitVec 2) : Statement (.ident d i t) := of_raw rfl rfl (by simp [decodeRaw, decodeSYS])

theorem pace (a : BitVec 6) (i : BitVec 6) (t : BitVec 2) : Statement (.pace a i t) := of_raw rfl rfl (by simp [decodeRaw, decodeSYS])

theorem enrd (d : BitVec 6) (i : BitVec 6) (t : BitVec 2) : Statement (.enrd d i t) := of_raw rfl rfl (by simp [decodeRaw, decodeSYS])

theorem gceil (d : BitVec 6) (t : BitVec 2) : Statement (.gceil d t) := of_raw rfl rfl (by simp [decodeRaw, decodeSYS])

theorem add (d : BitVec 6) (a : BitVec 6) (b : BitVec 6) (t : BitVec 2) : Statement (.add d a b t) := of_raw rfl rfl (by simp [decodeRaw, decodeALUR])

theorem sub (d : BitVec 6) (a : BitVec 6) (b : BitVec 6) (t : BitVec 2) : Statement (.sub d a b t) := of_raw rfl rfl (by simp [decodeRaw, decodeALUR])

theorem and (d : BitVec 6) (a : BitVec 6) (b : BitVec 6) (t : BitVec 2) : Statement (.and d a b t) := of_raw rfl rfl (by simp [decodeRaw, decodeALUR])

theorem or (d : BitVec 6) (a : BitVec 6) (b : BitVec 6) (t : BitVec 2) : Statement (.or d a b t) := of_raw rfl rfl (by simp [decodeRaw, decodeALUR])

theorem xor (d : BitVec 6) (a : BitVec 6) (b : BitVec 6) (t : BitVec 2) : Statement (.xor d a b t) := of_raw rfl rfl (by simp [decodeRaw, decodeALUR])

theorem andn (d : BitVec 6) (a : BitVec 6) (b : BitVec 6) (t : BitVec 2) : Statement (.andn d a b t) := of_raw rfl rfl (by simp [decodeRaw, decodeALUR])

theorem sll (d : BitVec 6) (a : BitVec 6) (b : BitVec 6) (t : BitVec 2) : Statement (.sll d a b t) := of_raw rfl rfl (by simp [decodeRaw, decodeALUR])

theorem srl (d : BitVec 6) (a : BitVec 6) (b : BitVec 6) (t : BitVec 2) : Statement (.srl d a b t) := of_raw rfl rfl (by simp [decodeRaw, decodeALUR])

theorem sra (d : BitVec 6) (a : BitVec 6) (b : BitVec 6) (t : BitVec 2) : Statement (.sra d a b t) := of_raw rfl rfl (by simp [decodeRaw, decodeALUR])

theorem rol (d : BitVec 6) (a : BitVec 6) (b : BitVec 6) (t : BitVec 2) : Statement (.rol d a b t) := of_raw rfl rfl (by simp [decodeRaw, decodeALUR])

theorem slt (d : BitVec 6) (a : BitVec 6) (b : BitVec 6) (t : BitVec 2) : Statement (.slt d a b t) := of_raw rfl rfl (by simp [decodeRaw, decodeALUR])

theorem sltu (d : BitVec 6) (a : BitVec 6) (b : BitVec 6) (t : BitVec 2) : Statement (.sltu d a b t) := of_raw rfl rfl (by simp [decodeRaw, decodeALUR])

theorem min (d : BitVec 6) (a : BitVec 6) (b : BitVec 6) (t : BitVec 2) : Statement (.min d a b t) := of_raw rfl rfl (by simp [decodeRaw, decodeALUR])

theorem max (d : BitVec 6) (a : BitVec 6) (b : BitVec 6) (t : BitVec 2) : Statement (.max d a b t) := of_raw rfl rfl (by simp [decodeRaw, decodeALUR])

theorem minu (d : BitVec 6) (a : BitVec 6) (b : BitVec 6) (t : BitVec 2) : Statement (.minu d a b t) := of_raw rfl rfl (by simp [decodeRaw, decodeALUR])

theorem maxu (d : BitVec 6) (a : BitVec 6) (b : BitVec 6) (t : BitVec 2) : Statement (.maxu d a b t) := of_raw rfl rfl (by simp [decodeRaw, decodeALUR])

theorem mul (d : BitVec 6) (a : BitVec 6) (b : BitVec 6) (t : BitVec 2) : Statement (.mul d a b t) := of_raw rfl rfl (by simp [decodeRaw, decodeALUR])

theorem mulh (d : BitVec 6) (a : BitVec 6) (b : BitVec 6) (t : BitVec 2) : Statement (.mulh d a b t) := of_raw rfl rfl (by simp [decodeRaw, decodeALUR])

theorem mulhu (d : BitVec 6) (a : BitVec 6) (b : BitVec 6) (t : BitVec 2) : Statement (.mulhu d a b t) := of_raw rfl rfl (by simp [decodeRaw, decodeALUR])

theorem div (d : BitVec 6) (a : BitVec 6) (b : BitVec 6) (t : BitVec 2) : Statement (.div d a b t) := of_raw rfl rfl (by simp [decodeRaw, decodeALUR])

theorem divu (d : BitVec 6) (a : BitVec 6) (b : BitVec 6) (t : BitVec 2) : Statement (.divu d a b t) := of_raw rfl rfl (by simp [decodeRaw, decodeALUR])

theorem rem (d : BitVec 6) (a : BitVec 6) (b : BitVec 6) (t : BitVec 2) : Statement (.rem d a b t) := of_raw rfl rfl (by simp [decodeRaw, decodeALUR])

theorem remu (d : BitVec 6) (a : BitVec 6) (b : BitVec 6) (t : BitVec 2) : Statement (.remu d a b t) := of_raw rfl rfl (by simp [decodeRaw, decodeALUR])

theorem clz (d : BitVec 6) (a : BitVec 6) (t : BitVec 2) : Statement (.clz d a t) := of_raw rfl rfl (by simp [decodeRaw, decodeALUR])

theorem ctz (d : BitVec 6) (a : BitVec 6) (t : BitVec 2) : Statement (.ctz d a t) := of_raw rfl rfl (by simp [decodeRaw, decodeALUR])

theorem popc (d : BitVec 6) (a : BitVec 6) (t : BitVec 2) : Statement (.popc d a t) := of_raw rfl rfl (by simp [decodeRaw, decodeALUR])

theorem sext (d : BitVec 6) (a : BitVec 6) (b : BitVec 6) (t : BitVec 2) : Statement (.sext d a b t) := of_raw rfl rfl (by simp [decodeRaw, decodeALUR])

theorem zext (d : BitVec 6) (a : BitVec 6) (b : BitVec 6) (t : BitVec 2) : Statement (.zext d a b t) := of_raw rfl rfl (by simp [decodeRaw, decodeALUR])

theorem addw (d : BitVec 6) (a : BitVec 6) (b : BitVec 6) (t : BitVec 2) : Statement (.addw d a b t) := of_raw rfl rfl (by simp [decodeRaw, decodeALUR])

theorem subw (d : BitVec 6) (a : BitVec 6) (b : BitVec 6) (t : BitVec 2) : Statement (.subw d a b t) := of_raw rfl rfl (by simp [decodeRaw, decodeALUR])

theorem mulw (d : BitVec 6) (a : BitVec 6) (b : BitVec 6) (t : BitVec 2) : Statement (.mulw d a b t) := of_raw rfl rfl (by simp [decodeRaw, decodeALUR])

theorem addi (d : BitVec 6) (a : BitVec 6) (i : BitVec 10) (t : BitVec 2) : Statement (.addi d a i t) := of_raw rfl rfl (by simp [decodeRaw, decodeALUI])

theorem andi (d : BitVec 6) (a : BitVec 6) (i : BitVec 10) (t : BitVec 2) : Statement (.andi d a i t) := of_raw rfl rfl (by simp [decodeRaw, decodeALUI])

theorem ori (d : BitVec 6) (a : BitVec 6) (i : BitVec 10) (t : BitVec 2) : Statement (.ori d a i t) := of_raw rfl rfl (by simp [decodeRaw, decodeALUI])

theorem xori (d : BitVec 6) (a : BitVec 6) (i : BitVec 10) (t : BitVec 2) : Statement (.xori d a i t) := of_raw rfl rfl (by simp [decodeRaw, decodeALUI])

theorem slti (d : BitVec 6) (a : BitVec 6) (i : BitVec 10) (t : BitVec 2) : Statement (.slti d a i t) := of_raw rfl rfl (by simp [decodeRaw, decodeALUI])

theorem slli (d : BitVec 6) (a : BitVec 6) (i : BitVec 10) (t : BitVec 2) : Statement (.slli d a i t) := of_raw rfl rfl (by simp [decodeRaw, decodeALUI])

theorem srli (d : BitVec 6) (a : BitVec 6) (i : BitVec 10) (t : BitVec 2) : Statement (.srli d a i t) := of_raw rfl rfl (by simp [decodeRaw, decodeALUI])

theorem srai (d : BitVec 6) (a : BitVec 6) (i : BitVec 10) (t : BitVec 2) : Statement (.srai d a i t) := of_raw rfl rfl (by simp [decodeRaw, decodeALUI])

theorem movhi (d : BitVec 6) (i : BitVec 19) (t : BitVec 2) : Statement (.movhi d i t) := of_raw rfl rfl (by simp [decodeRaw, decodeMOVHI])

theorem ld (d : BitVec 6) (a : BitVec 6) (o : BitVec 11) (z : BitVec 2) (t : BitVec 2) : Statement (.ld d a o z t) := of_raw rfl rfl (by simp [decodeRaw, decodeLD])

theorem lds (d : BitVec 6) (a : BitVec 6) (o : BitVec 11) (z : BitVec 2) (t : BitVec 2) : Statement (.lds d a o z t) := of_raw rfl rfl (by simp [decodeRaw, decodeLDS])

theorem st (d : BitVec 6) (a : BitVec 6) (o : BitVec 11) (z : BitVec 2) (t : BitVec 2) : Statement (.st d a o z t) := of_raw rfl rfl (by simp [decodeRaw, decodeST])

theorem beqz (a : BitVec 6) (o : BitVec 15) (t : BitVec 2) : Statement (.beqz a o t) := of_raw rfl rfl (by simp [decodeRaw, decodeBR])

theorem bnez (a : BitVec 6) (o : BitVec 15) (t : BitVec 2) : Statement (.bnez a o t) := of_raw rfl rfl (by simp [decodeRaw, decodeBR])

theorem bltz (a : BitVec 6) (o : BitVec 15) (t : BitVec 2) : Statement (.bltz a o t) := of_raw rfl rfl (by simp [decodeRaw, decodeBR])

theorem bgez (a : BitVec 6) (o : BitVec 15) (t : BitVec 2) : Statement (.bgez a o t) := of_raw rfl rfl (by simp [decodeRaw, decodeBR])

theorem bgtz (a : BitVec 6) (o : BitVec 15) (t : BitVec 2) : Statement (.bgtz a o t) := of_raw rfl rfl (by simp [decodeRaw, decodeBR])

theorem blez (a : BitVec 6) (o : BitVec 15) (t : BitVec 2) : Statement (.blez a o t) := of_raw rfl rfl (by simp [decodeRaw, decodeBR])

theorem bp (a : BitVec 6) (o : BitVec 15) (t : BitVec 2) : Statement (.bp a o t) := of_raw rfl rfl (by simp [decodeRaw, decodeBR])

theorem bnp (a : BitVec 6) (o : BitVec 15) (t : BitVec 2) : Statement (.bnp a o t) := of_raw rfl rfl (by simp [decodeRaw, decodeBR])

theorem bq (o : BitVec 15) (t : BitVec 2) : Statement (.bq o t) := of_raw rfl rfl (by simp [decodeRaw, decodeBR])

theorem bnq (o : BitVec 15) (t : BitVec 2) : Statement (.bnq o t) := of_raw rfl rfl (by simp [decodeRaw, decodeBR])

theorem jmp (o : BitVec 25) (t : BitVec 2) : Statement (.jmp o t) := of_raw rfl rfl (by simp [decodeRaw, decodeJMP])

theorem call (o : BitVec 25) (t : BitVec 2) : Statement (.call o t) := of_raw rfl rfl (by simp [decodeRaw, decodeCALL])

theorem jr (d : BitVec 6) (a : BitVec 6) (i : BitVec 10) (t : BitVec 2) : Statement (.jr d a i t) := of_raw rfl rfl (by simp [decodeRaw, decodeJREG])

theorem callr (d : BitVec 6) (a : BitVec 6) (i : BitVec 10) (t : BitVec 2) : Statement (.callr d a i t) := of_raw rfl rfl (by simp [decodeRaw, decodeJREG])

theorem tkpush (q : BitVec 6) (t : BitVec 2) : Statement (.tkpush q t) := of_raw rfl rfl (by simp [decodeRaw, decodeQUE])

theorem tkpop (q : BitVec 6) (t : BitVec 2) : Statement (.tkpop q t) := of_raw rfl rfl (by simp [decodeRaw, decodeQUE])

theorem tkcnt (d : BitVec 6) (q : BitVec 6) (t : BitVec 2) : Statement (.tkcnt d q t) := of_raw rfl rfl (by simp [decodeRaw, decodeQUE])

theorem qpeek (d : BitVec 6) (q : BitVec 6) (t : BitVec 2) : Statement (.qpeek d q t) := of_raw rfl rfl (by simp [decodeRaw, decodeQUE])

theorem qcnt (d : BitVec 6) (q : BitVec 6) (t : BitVec 2) : Statement (.qcnt d q t) := of_raw rfl rfl (by simp [decodeRaw, decodeQUE])

theorem qsquash (q : BitVec 6) (t : BitVec 2) : Statement (.qsquash q t) := of_raw rfl rfl (by simp [decodeRaw, decodeQUE])

theorem qfmt (a : BitVec 6) (q : BitVec 6) (t : BitVec 2) : Statement (.qfmt a q t) := of_raw rfl rfl (by simp [decodeRaw, decodeQUE])

theorem qsel (q : BitVec 6) (t : BitVec 2) : Statement (.qsel q t) := of_raw rfl rfl (by simp [decodeRaw, decodeQUE])

theorem bqpush (a : BitVec 6) (t : BitVec 2) : Statement (.bqpush a t) := of_raw rfl rfl (by simp [decodeRaw, decodeQUE])

theorem qwait (q : BitVec 6) (t : BitVec 2) : Statement (.qwait q t) := of_raw rfl rfl (by simp [decodeRaw, decodeQUE])

theorem epop (d : BitVec 6) (q : BitVec 6) (t : BitVec 2) : Statement (.epop d q t) := of_raw rfl rfl (by simp [decodeRaw, decodeQUE])

theorem hmov (d : BitVec 4) (a : BitVec 4) (t : BitVec 2) : Statement (.hmov d a t) := of_raw rfl rfl (by simp [decodeRaw, decodeHND])

theorem hld (d : BitVec 4) (r : BitVec 6) (t : BitVec 2) : Statement (.hld d r t) := of_raw rfl rfl (by simp [decodeRaw, decodeHND])

theorem hst (a : BitVec 4) (r : BitVec 6) (t : BitVec 2) : Statement (.hst a r t) := of_raw rfl rfl (by simp [decodeRaw, decodeHND])

theorem hsetb (d : BitVec 4) (a : BitVec 4) (r : BitVec 6) (t : BitVec 2) : Statement (.hsetb d a r t) := of_raw rfl rfl (by simp [decodeRaw, decodeHND])

theorem hsetd (d : BitVec 4) (a : BitVec 4) (k : BitVec 4) (r : BitVec 6) (t : BitVec 2) : Statement (.hsetd d a k r t) := of_raw rfl rfl (by simp [decodeRaw, decodeHND])

theorem hsets (d : BitVec 4) (a : BitVec 4) (k : BitVec 4) (r : BitVec 6) (t : BitVec 2) : Statement (.hsets d a k r t) := of_raw rfl rfl (by simp [decodeRaw, decodeHND])

theorem hsetf (d : BitVec 4) (a : BitVec 4) (r : BitVec 6) (t : BitVec 2) : Statement (.hsetf d a r t) := of_raw rfl rfl (by simp [decodeRaw, decodeHND])

theorem hgetb (a : BitVec 4) (r : BitVec 6) (t : BitVec 2) : Statement (.hgetb a r t) := of_raw rfl rfl (by simp [decodeRaw, decodeHND])

theorem hgetd (a : BitVec 4) (k : BitVec 4) (r : BitVec 6) (t : BitVec 2) : Statement (.hgetd a k r t) := of_raw rfl rfl (by simp [decodeRaw, decodeHND])

theorem hoff (d : BitVec 4) (a : BitVec 4) (k : BitVec 4) (r : BitVec 6) (t : BitVec 2) : Statement (.hoff d a k r t) := of_raw rfl rfl (by simp [decodeRaw, decodeHND])

theorem hsub (d : BitVec 4) (a : BitVec 4) (r : BitVec 6) (t : BitVec 2) : Statement (.hsub d a r t) := of_raw rfl rfl (by simp [decodeRaw, decodeHND])

theorem hchk (a : BitVec 4) (r : BitVec 6) (t : BitVec 2) : Statement (.hchk a r t) := of_raw rfl rfl (by simp [decodeRaw, decodeHND])

theorem hclr (d : BitVec 4) (t : BitVec 2) : Statement (.hclr d t) := of_raw rfl rfl (by simp [decodeRaw, decodeHND])

theorem ctld (h : BitVec 4) (a : BitVec 6) (b : BitVec 6) (l : BitVec 1) (t : BitVec 2) : Statement (.ctld h a b l t) := of_raw rfl rfl (by simp [decodeRaw, decodeENG, -BitVec.extractLsb'_toNat, relocWord_low, relocWord_high])

theorem ctst (h : BitVec 4) (a : BitVec 6) (b : BitVec 6) (l : BitVec 1) (t : BitVec 2) : Statement (.ctst h a b l t) := of_raw rfl rfl (by simp [decodeRaw, decodeENG, -BitVec.extractLsb'_toNat, relocWord_low, relocWord_high])

theorem ccpy (h : BitVec 3) (a : BitVec 6) (b : BitVec 6) (l : BitVec 1) (t : BitVec 2) : Statement (.ccpy h a b l t) := of_raw rfl rfl (by simp [decodeRaw, decodeENG, -BitVec.extractLsb'_toNat, relocWord_low, relocWord_high, evenHandle_low, evenHandle_high])

theorem cfill (h : BitVec 4) (a : BitVec 6) (b : BitVec 6) (l : BitVec 1) (t : BitVec 2) : Statement (.cfill h a b l t) := of_raw rfl rfl (by simp [decodeRaw, decodeENG, -BitVec.extractLsb'_toNat, relocWord_low, relocWord_high])

theorem cpfx (h : BitVec 4) (a : BitVec 6) (b : BitVec 6) (l : BitVec 1) (t : BitVec 2) : Statement (.cpfx h a b l t) := of_raw rfl rfl (by simp [decodeRaw, decodeENG, -BitVec.extractLsb'_toNat, relocWord_low, relocWord_high])

theorem cxfr (a : BitVec 6) (b : BitVec 6) (l : BitVec 1) (t : BitVec 2) : Statement (.cxfr a b l t) := of_raw rfl rfl (by simp [decodeRaw, decodeENG, -BitVec.extractLsb'_toNat, relocWord_low, relocWord_high])

theorem gath (h : BitVec 4) (a : BitVec 6) (b : BitVec 6) (t : BitVec 2) : Statement (.gath h a b t) := of_raw rfl rfl (by simp [decodeRaw, decodeENG])

theorem scat (h : BitVec 4) (a : BitVec 6) (b : BitVec 6) (t : BitVec 2) : Statement (.scat h a b t) := of_raw rfl rfl (by simp [decodeRaw, decodeENG])

theorem gathp (h : BitVec 4) (a : BitVec 6) (b : BitVec 6) (t : BitVec 2) : Statement (.gathp h a b t) := of_raw rfl rfl (by simp [decodeRaw, decodeENG])

theorem scata (h : BitVec 4) (a : BitVec 6) (b : BitVec 6) (t : BitVec 2) : Statement (.scata h a b t) := of_raw rfl rfl (by simp [decodeRaw, decodeENG])

theorem xallr (h : BitVec 4) (a : BitVec 6) (b : BitVec 6) (t : BitVec 2) : Statement (.xallr h a b t) := of_raw rfl rfl (by simp [decodeRaw, decodeENG])

theorem xrds (h : BitVec 4) (a : BitVec 6) (b : BitVec 6) (t : BitVec 2) : Statement (.xrds h a b t) := of_raw rfl rfl (by simp [decodeRaw, decodeENG])

theorem xallg (h : BitVec 4) (a : BitVec 6) (b : BitVec 6) (t : BitVec 2) : Statement (.xallg h a b t) := of_raw rfl rfl (by simp [decodeRaw, decodeENG])

theorem xsend (h : BitVec 4) (a : BitVec 6) (b : BitVec 6) (t : BitVec 2) : Statement (.xsend h a b t) := of_raw rfl rfl (by simp [decodeRaw, decodeENG])

theorem xrecv (h : BitVec 4) (a : BitVec 6) (b : BitVec 6) (t : BitVec 2) : Statement (.xrecv h a b t) := of_raw rfl rfl (by simp [decodeRaw, decodeENG])

theorem xexch (h : BitVec 4) (a : BitVec 6) (b : BitVec 6) (t : BitVec 2) : Statement (.xexch h a b t) := of_raw rfl rfl (by simp [decodeRaw, decodeENG])

theorem ald (d : BitVec 5) (a : BitVec 5) (o : BitVec 3) (s : BitVec 4) (z : BitVec 1) : Statement (.ald d a o s z) := of_raw rfl rfl (by simp [decodeRaw, decodeATM])

theorem ast (a : BitVec 5) (b : BitVec 5) (o : BitVec 3) (s : BitVec 4) (z : BitVec 1) : Statement (.ast a b o s z) := of_raw rfl rfl (by simp [decodeRaw, decodeATM])

theorem aswp (d : BitVec 5) (a : BitVec 5) (b : BitVec 5) (o : BitVec 3) (s : BitVec 4) (z : BitVec 1) : Statement (.aswp d a b o s z) := of_raw rfl rfl (by simp [decodeRaw, decodeATM])

theorem acas (d : BitVec 5) (a : BitVec 5) (b : BitVec 5) (o : BitVec 3) (s : BitVec 4) (z : BitVec 1) : Statement (.acas d a b o s z) := of_raw rfl rfl (by simp [decodeRaw, decodeATM])

theorem aadd (d : BitVec 5) (a : BitVec 5) (b : BitVec 5) (o : BitVec 3) (s : BitVec 4) (z : BitVec 1) : Statement (.aadd d a b o s z) := of_raw rfl rfl (by simp [decodeRaw, decodeATM])

theorem aand (d : BitVec 5) (a : BitVec 5) (b : BitVec 5) (o : BitVec 3) (s : BitVec 4) (z : BitVec 1) : Statement (.aand d a b o s z) := of_raw rfl rfl (by simp [decodeRaw, decodeATM])

theorem aor (d : BitVec 5) (a : BitVec 5) (b : BitVec 5) (o : BitVec 3) (s : BitVec 4) (z : BitVec 1) : Statement (.aor d a b o s z) := of_raw rfl rfl (by simp [decodeRaw, decodeATM])

theorem axor (d : BitVec 5) (a : BitVec 5) (b : BitVec 5) (o : BitVec 3) (s : BitVec 4) (z : BitVec 1) : Statement (.axor d a b o s z) := of_raw rfl rfl (by simp [decodeRaw, decodeATM])

theorem amin (d : BitVec 5) (a : BitVec 5) (b : BitVec 5) (o : BitVec 3) (s : BitVec 4) (z : BitVec 1) : Statement (.amin d a b o s z) := of_raw rfl rfl (by simp [decodeRaw, decodeATM])

theorem amax (d : BitVec 5) (a : BitVec 5) (b : BitVec 5) (o : BitVec 3) (s : BitVec 4) (z : BitVec 1) : Statement (.amax d a b o s z) := of_raw rfl rfl (by simp [decodeRaw, decodeATM])

theorem aminu (d : BitVec 5) (a : BitVec 5) (b : BitVec 5) (o : BitVec 3) (s : BitVec 4) (z : BitVec 1) : Statement (.aminu d a b o s z) := of_raw rfl rfl (by simp [decodeRaw, decodeATM])

theorem amaxu (d : BitVec 5) (a : BitVec 5) (b : BitVec 5) (o : BitVec 3) (s : BitVec 4) (z : BitVec 1) : Statement (.amaxu d a b o s z) := of_raw rfl rfl (by simp [decodeRaw, decodeATM])

theorem afadd (d : BitVec 5) (a : BitVec 5) (b : BitVec 5) (o : BitVec 3) (s : BitVec 4) : Statement (.afadd d a b o s) := of_raw rfl rfl (by simp [decodeRaw, decodeATM])

theorem sigdec (d : BitVec 5) (a : BitVec 5) (b : BitVec 5) (o : BitVec 3) (s : BitVec 4) : Statement (.sigdec d a b o s) := of_raw rfl rfl (by simp [decodeRaw, decodeATM])

theorem sigadd (d : BitVec 5) (a : BitVec 5) (b : BitVec 5) (o : BitVec 3) (s : BitVec 4) : Statement (.sigadd d a b o s) := of_raw rfl rfl (by simp [decodeRaw, decodeATM])

theorem fence (s : BitVec 4) (o : BitVec 3) (t : BitVec 2) : Statement (.fence s o t) := of_raw rfl rfl (by simp [decodeRaw, decodeFEN])

theorem fencee (s : BitVec 4) (o : BitVec 3) (m : BitVec 8) (t : BitVec 2) : Statement (.fencee s o m t) := of_raw rfl rfl (by simp [decodeRaw, decodeFEN])

theorem ssync (t : BitVec 2) : Statement (.ssync t) := of_raw rfl rfl (by simp [decodeRaw, decodeFEN])

theorem cbar (t : BitVec 2) : Statement (.cbar t) := of_raw rfl rfl (by simp [decodeRaw, decodeFEN])

theorem waitv (s : BitVec 4) (o : BitVec 3) (a : BitVec 6) (c : BitVec 8) (t : BitVec 2) : Statement (.waitv s o a c t) := of_raw rfl rfl (by simp [decodeRaw, decodeFEN])

theorem ckopen (d : BitVec 4) (a : BitVec 4) (t : BitVec 2) : Statement (.ckopen d a t) := of_raw rfl rfl (by simp [decodeRaw, decodeCKS])

theorem ckopenGrow (d : BitVec 4) (a : BitVec 4) (t : BitVec 2) : Statement (.ckopenGrow d a t) := of_raw rfl rfl (by simp [decodeRaw, decodeCKS])

theorem ckseal (d : BitVec 4) (a : BitVec 4) (t : BitVec 2) : Statement (.ckseal d a t) := of_raw rfl rfl (by simp [decodeRaw, decodeCKS])

theorem ckblnd (d : BitVec 4) (a : BitVec 4) (b : BitVec 4) (t : BitVec 2) : Statement (.ckblnd d a b t) := of_raw rfl rfl (by simp [decodeRaw, decodeCKS])

theorem ckfilt (d : BitVec 4) (a : BitVec 4) (r : BitVec 6) (t : BitVec 2) : Statement (.ckfilt d a r t) := of_raw rfl rfl (by simp [decodeRaw, decodeCKS])

theorem ckrebs (d : BitVec 4) (a : BitVec 4) (r : BitVec 6) (t : BitVec 2) : Statement (.ckrebs d a r t) := of_raw rfl rfl (by simp [decodeRaw, decodeCKS])

theorem ckpour (a : BitVec 4) (r : BitVec 6) (t : BitVec 2) : Statement (.ckpour a r t) := of_raw rfl rfl (by simp [decodeRaw, decodeCKS])

theorem ckdrop (a : BitVec 4) (t : BitVec 2) : Statement (.ckdrop a t) := of_raw rfl rfl (by simp [decodeRaw, decodeCKS])

theorem ckinfo (a : BitVec 4) (k : BitVec 4) (r : BitVec 6) (t : BitVec 2) : Statement (.ckinfo a k r t) := of_raw rfl rfl (by simp [decodeRaw, decodeCKS])

theorem ckabort (a : BitVec 4) (t : BitVec 2) : Statement (.ckabort a t) := of_raw rfl rfl (by simp [decodeRaw, decodeCKS])

theorem glaunch (d : BitVec 6) (a : BitVec 6) (t : BitVec 2) : Statement (.glaunch d a t) := of_raw rfl rfl (by simp [decodeRaw, decodeSCH])

theorem gwait (d : BitVec 6) (a : BitVec 6) (i : BitVec 6) (t : BitVec 2) : Statement (.gwait d a i t) := of_raw rfl rfl (by simp [decodeRaw, decodeSCH])

theorem gcancel (d : BitVec 6) (a : BitVec 6) (i : BitVec 6) (t : BitVec 2) : Statement (.gcancel d a i t) := of_raw rfl rfl (by simp [decodeRaw, decodeSCH])

theorem gcnt (d : BitVec 6) (a : BitVec 6) (i : BitVec 6) (t : BitVec 2) : Statement (.gcnt d a i t) := of_raw rfl rfl (by simp [decodeRaw, decodeSCH])

theorem yield (t : BitVec 2) : Statement (.yield t) := of_raw rfl rfl (by simp [decodeRaw, decodeSCH])

theorem uexit (t : BitVec 2) : Statement (.uexit t) := of_raw rfl rfl (by simp [decodeRaw, decodeSCH])

theorem priset (d : BitVec 6) (a : BitVec 6) (t : BitVec 2) : Statement (.priset d a t) := of_raw rfl rfl (by simp [decodeRaw, decodeSCH])

theorem pset (d : BitVec 6) (a : BitVec 6) (i : BitVec 6) (t : BitVec 2) : Statement (.pset d a i t) := of_raw rfl rfl (by simp [decodeRaw, decodePRD])

theorem pand (d : BitVec 6) (a : BitVec 6) (i : BitVec 6) (t : BitVec 2) : Statement (.pand d a i t) := of_raw rfl rfl (by simp [decodeRaw, decodePRD])

theorem por (d : BitVec 6) (a : BitVec 6) (i : BitVec 6) (t : BitVec 2) : Statement (.por d a i t) := of_raw rfl rfl (by simp [decodeRaw, decodePRD])

theorem pxor (d : BitVec 6) (a : BitVec 6) (i : BitVec 6) (t : BitVec 2) : Statement (.pxor d a i t) := of_raw rfl rfl (by simp [decodeRaw, decodePRD])

theorem pnot (d : BitVec 6) (a : BitVec 6) (t : BitVec 2) : Statement (.pnot d a t) := of_raw rfl rfl (by simp [decodeRaw, decodePRD])

theorem pmov (d : BitVec 6) (a : BitVec 6) (t : BitVec 2) : Statement (.pmov d a t) := of_raw rfl rfl (by simp [decodeRaw, decodePRD])

theorem ptos (d : BitVec 6) (a : BitVec 6) (i : BitVec 6) (t : BitVec 2) : Statement (.ptos d a i t) := of_raw rfl rfl (by simp [decodeRaw, decodePRD])

theorem pall (d : BitVec 6) (a : BitVec 6) (i : BitVec 6) (t : BitVec 2) : Statement (.pall d a i t) := of_raw rfl rfl (by simp [decodeRaw, decodePRD])

theorem pany (d : BitVec 6) (a : BitVec 6) (i : BitVec 6) (t : BitVec 2) : Statement (.pany d a i t) := of_raw rfl rfl (by simp [decodeRaw, decodePRD])

theorem vwin (a : BitVec 6) (t : BitVec 2) : Statement (.vwin a t) := of_raw rfl rfl (by simp [decodeRaw, decodeVLP])

theorem loopx (a : BitVec 6) (i : BitVec 8) (t : BitVec 2) : Statement (.loopx a i t) := of_raw rfl rfl (by simp [decodeRaw, decodeVLP])

theorem loope (t : BitVec 2) : Statement (.loope t) := of_raw rfl rfl (by simp [decodeRaw, decodeVLP])

theorem vrot (i : BitVec 8) (t : BitVec 2) : Statement (.vrot i t) := of_raw rfl rfl (by simp [decodeRaw, decodeVLP])

theorem vtag (d : BitVec 5) (f : BitVec 6) (t : BitVec 2) : Statement (.vtag d f t) := of_raw rfl rfl (by simp [decodeRaw, decodeVLP, sixOfEight])

theorem vtagr (d : BitVec 5) (a : BitVec 6) (t : BitVec 2) : Statement (.vtagr d a t) := of_raw rfl rfl (by simp [decodeRaw, decodeVLP])

theorem vld (d : BitVec 5) (a : BitVec 6) (i : BitVec 8) (t : BitVec 2) : Statement (.vld d a i t) := of_raw rfl rfl (by simp [decodeRaw, decodeVLS])

theorem vst (d : BitVec 5) (a : BitVec 6) (i : BitVec 8) (t : BitVec 2) : Statement (.vst d a i t) := of_raw rfl rfl (by simp [decodeRaw, decodeVLS])

theorem vldt (d : BitVec 5) (a : BitVec 6) (m : BitVec 4) (t : BitVec 2) : Statement (.vldt d a m t) := of_raw rfl rfl (by simp [decodeRaw, decodeVLS, fourOfEight])

theorem vldg (d : BitVec 5) (a : BitVec 6) (b : BitVec 6) (t : BitVec 2) : Statement (.vldg d a b t) := of_raw rfl rfl (by simp [decodeRaw, decodeVLS, sixOfEight])

theorem vsts (d : BitVec 5) (a : BitVec 6) (m : BitVec 4) (t : BitVec 2) : Statement (.vsts d a m t) := of_raw rfl rfl (by simp [decodeRaw, decodeVLS, fourOfEight])

theorem vldb (d : BitVec 5) (a : BitVec 6) (m : BitVec 4) (t : BitVec 2) : Statement (.vldb d a m t) := of_raw rfl rfl (by simp [decodeRaw, decodeVLS, fourOfEight])

theorem vlds (d : BitVec 5) (a : BitVec 6) (m : BitVec 4) (t : BitVec 2) : Statement (.vlds d a m t) := of_raw rfl rfl (by simp [decodeRaw, decodeVLS, fourOfEight])

theorem plse (t : BitVec 2) : Statement (.plse t) := of_raw rfl rfl (by simp [decodeRaw, decodePRS])

theorem prel (t : BitVec 2) : Statement (.prel t) := of_raw rfl rfl (by simp [decodeRaw, decodePRS])

theorem pwld (h : BitVec 4) (a : BitVec 6) (t : BitVec 2) : Statement (.pwld h a t) := of_raw rfl rfl (by simp [decodeRaw, decodePRS])

theorem pmul (h : BitVec 4) (a : BitVec 6) (b : BitVec 6) (t : BitVec 2) : Statement (.pmul h a b t) := of_raw rfl rfl (by simp [decodeRaw, decodePRS])

theorem pmulz (h : BitVec 4) (a : BitVec 6) (b : BitVec 6) (t : BitVec 2) : Statement (.pmulz h a b t) := of_raw rfl rfl (by simp [decodeRaw, decodePRS])

theorem pdrn (c : BitVec 3) (h : BitVec 4) (a : BitVec 6) (t : BitVec 2) : Statement (.pdrn c h a t) := of_raw rfl rfl (by simp [decodeRaw, decodePRS])

theorem pstat (a : BitVec 6) (t : BitVec 2) : Statement (.pstat a t) := of_raw rfl rfl (by simp [decodeRaw, decodePRS])

theorem rwsmx (c : BitVec 3) (h : BitVec 4) (a : BitVec 6) (b : BitVec 6) (l : BitVec 1) (t : BitVec 2) : Statement (.rwsmx c h a b l t) := of_raw rfl rfl (by simp [decodeRaw, decodeRWE, -BitVec.extractLsb'_toNat, relocWord_low, relocWord_high])

theorem rwmax (c : BitVec 3) (h : BitVec 4) (a : BitVec 6) (b : BitVec 6) (l : BitVec 1) (t : BitVec 2) : Statement (.rwmax c h a b l t) := of_raw rfl rfl (by simp [decodeRaw, decodeRWE, -BitVec.extractLsb'_toNat, relocWord_low, relocWord_high])

theorem rwexps (c : BitVec 3) (h : BitVec 4) (a : BitVec 6) (b : BitVec 6) (l : BitVec 1) (t : BitVec 2) : Statement (.rwexps c h a b l t) := of_raw rfl rfl (by simp [decodeRaw, decodeRWE, -BitVec.extractLsb'_toNat, relocWord_low, relocWord_high])

theorem rwscl (c : BitVec 3) (h : BitVec 4) (a : BitVec 6) (b : BitVec 6) (l : BitVec 1) (t : BitVec 2) : Statement (.rwscl c h a b l t) := of_raw rfl rfl (by simp [decodeRaw, decodeRWE, -BitVec.extractLsb'_toNat, relocWord_low, relocWord_high])

theorem rwrms (c : BitVec 3) (h : BitVec 4) (a : BitVec 6) (b : BitVec 6) (l : BitVec 1) (t : BitVec 2) : Statement (.rwrms c h a b l t) := of_raw rfl rfl (by simp [decodeRaw, decodeRWE, -BitVec.extractLsb'_toNat, relocWord_low, relocWord_high])

theorem rwlnrm (c : BitVec 3) (h : BitVec 4) (a : BitVec 6) (b : BitVec 6) (l : BitVec 1) (t : BitVec 2) : Statement (.rwlnrm c h a b l t) := of_raw rfl rfl (by simp [decodeRaw, decodeRWE, -BitVec.extractLsb'_toNat, relocWord_low, relocWord_high])

theorem vadd (d : BitVec 5) (a : BitVec 5) (b : BitVec 5) (p : BitVec 4) (t : BitVec 2) : Statement (.vadd d a b p t) := of_raw rfl rfl (by simp [decodeRaw, decodeVEC0])

theorem vsub (d : BitVec 5) (a : BitVec 5) (b : BitVec 5) (p : BitVec 4) (t : BitVec 2) : Statement (.vsub d a b p t) := of_raw rfl rfl (by simp [decodeRaw, decodeVEC0])

theorem vmul (d : BitVec 5) (a : BitVec 5) (b : BitVec 5) (p : BitVec 4) (t : BitVec 2) : Statement (.vmul d a b p t) := of_raw rfl rfl (by simp [decodeRaw, decodeVEC0])

theorem vfma (d : BitVec 5) (a : BitVec 5) (b : BitVec 5) (p : BitVec 4) (t : BitVec 2) : Statement (.vfma d a b p t) := of_raw rfl rfl (by simp [decodeRaw, decodeVEC0])

theorem vfms (d : BitVec 5) (a : BitVec 5) (b : BitVec 5) (p : BitVec 4) (t : BitVec 2) : Statement (.vfms d a b p t) := of_raw rfl rfl (by simp [decodeRaw, decodeVEC0])

theorem vmin (d : BitVec 5) (a : BitVec 5) (b : BitVec 5) (p : BitVec 4) (t : BitVec 2) : Statement (.vmin d a b p t) := of_raw rfl rfl (by simp [decodeRaw, decodeVEC0])

theorem vmax (d : BitVec 5) (a : BitVec 5) (b : BitVec 5) (p : BitVec 4) (t : BitVec 2) : Statement (.vmax d a b p t) := of_raw rfl rfl (by simp [decodeRaw, decodeVEC0])

theorem vabs (d : BitVec 5) (a : BitVec 5) (p : BitVec 4) (t : BitVec 2) : Statement (.vabs d a p t) := of_raw rfl rfl (by simp [decodeRaw, decodeVEC0])

theorem vneg (d : BitVec 5) (a : BitVec 5) (p : BitVec 4) (t : BitVec 2) : Statement (.vneg d a p t) := of_raw rfl rfl (by simp [decodeRaw, decodeVEC0])

theorem vand (d : BitVec 5) (a : BitVec 5) (b : BitVec 5) (p : BitVec 4) (t : BitVec 2) : Statement (.vand d a b p t) := of_raw rfl rfl (by simp [decodeRaw, decodeVEC0])

theorem vor (d : BitVec 5) (a : BitVec 5) (b : BitVec 5) (p : BitVec 4) (t : BitVec 2) : Statement (.vor d a b p t) := of_raw rfl rfl (by simp [decodeRaw, decodeVEC0])

theorem vxor (d : BitVec 5) (a : BitVec 5) (b : BitVec 5) (p : BitVec 4) (t : BitVec 2) : Statement (.vxor d a b p t) := of_raw rfl rfl (by simp [decodeRaw, decodeVEC0])

theorem vsll (d : BitVec 5) (a : BitVec 5) (b : BitVec 5) (p : BitVec 4) (t : BitVec 2) : Statement (.vsll d a b p t) := of_raw rfl rfl (by simp [decodeRaw, decodeVEC0])

theorem vsrl (d : BitVec 5) (a : BitVec 5) (b : BitVec 5) (p : BitVec 4) (t : BitVec 2) : Statement (.vsrl d a b p t) := of_raw rfl rfl (by simp [decodeRaw, decodeVEC0])

theorem vsra (d : BitVec 5) (a : BitVec 5) (b : BitVec 5) (p : BitVec 4) (t : BitVec 2) : Statement (.vsra d a b p t) := of_raw rfl rfl (by simp [decodeRaw, decodeVEC0])

theorem vcmpeq (d : BitVec 5) (a : BitVec 5) (b : BitVec 5) (p : BitVec 4) (t : BitVec 2) : Statement (.vcmpeq d a b p t) := of_raw rfl rfl (by simp [decodeRaw, decodeVEC0])

theorem vcmplt (d : BitVec 5) (a : BitVec 5) (b : BitVec 5) (p : BitVec 4) (t : BitVec 2) : Statement (.vcmplt d a b p t) := of_raw rfl rfl (by simp [decodeRaw, decodeVEC0])

theorem vcmple (d : BitVec 5) (a : BitVec 5) (b : BitVec 5) (p : BitVec 4) (t : BitVec 2) : Statement (.vcmple d a b p t) := of_raw rfl rfl (by simp [decodeRaw, decodeVEC0])

theorem vsel (d : BitVec 5) (a : BitVec 5) (b : BitVec 5) (p : BitVec 4) (t : BitVec 2) : Statement (.vsel d a b p t) := of_raw rfl rfl (by simp [decodeRaw, decodeVEC0])

theorem vmov (d : BitVec 5) (a : BitVec 5) (p : BitVec 4) (t : BitVec 2) : Statement (.vmov d a p t) := of_raw rfl rfl (by simp [decodeRaw, decodeVEC0])

theorem vsat (d : BitVec 5) (a : BitVec 5) (b : BitVec 5) (p : BitVec 4) (t : BitVec 2) : Statement (.vsat d a b p t) := of_raw rfl rfl (by simp [decodeRaw, decodeVEC0])

theorem vaddsat (d : BitVec 5) (a : BitVec 5) (b : BitVec 5) (p : BitVec 4) (t : BitVec 2) : Statement (.vaddsat d a b p t) := of_raw rfl rfl (by simp [decodeRaw, decodeVEC0])

theorem vrcp (d : BitVec 5) (a : BitVec 5) (p : BitVec 4) (t : BitVec 2) : Statement (.vrcp d a p t) := of_raw rfl rfl (by simp [decodeRaw, decodeVEC1])

theorem vsqrt (d : BitVec 5) (a : BitVec 5) (p : BitVec 4) (t : BitVec 2) : Statement (.vsqrt d a p t) := of_raw rfl rfl (by simp [decodeRaw, decodeVEC1])

theorem vrsqrt (d : BitVec 5) (a : BitVec 5) (p : BitVec 4) (t : BitVec 2) : Statement (.vrsqrt d a p t) := of_raw rfl rfl (by simp [decodeRaw, decodeVEC1])

theorem vexp2 (d : BitVec 5) (a : BitVec 5) (p : BitVec 4) (t : BitVec 2) : Statement (.vexp2 d a p t) := of_raw rfl rfl (by simp [decodeRaw, decodeVEC1])

theorem vlog2 (d : BitVec 5) (a : BitVec 5) (p : BitVec 4) (t : BitVec 2) : Statement (.vlog2 d a p t) := of_raw rfl rfl (by simp [decodeRaw, decodeVEC1])

theorem vexp (d : BitVec 5) (a : BitVec 5) (p : BitVec 4) (t : BitVec 2) : Statement (.vexp d a p t) := of_raw rfl rfl (by simp [decodeRaw, decodeVEC1])

theorem vtanh (d : BitVec 5) (a : BitVec 5) (p : BitVec 4) (t : BitVec 2) : Statement (.vtanh d a p t) := of_raw rfl rfl (by simp [decodeRaw, decodeVEC1])

theorem vsigm (d : BitVec 5) (a : BitVec 5) (p : BitVec 4) (t : BitVec 2) : Statement (.vsigm d a p t) := of_raw rfl rfl (by simp [decodeRaw, decodeVEC1])

theorem vgelu (d : BitVec 5) (a : BitVec 5) (p : BitVec 4) (t : BitVec 2) : Statement (.vgelu d a p t) := of_raw rfl rfl (by simp [decodeRaw, decodeVEC1])

theorem vsilu (d : BitVec 5) (a : BitVec 5) (p : BitVec 4) (t : BitVec 2) : Statement (.vsilu d a p t) := of_raw rfl rfl (by simp [decodeRaw, decodeVEC1])

theorem vcvt (d : BitVec 5) (a : BitVec 5) (g : BitVec 5) (p : BitVec 4) (t : BitVec 2) : Statement (.vcvt d a g p t) := of_raw rfl rfl (by simp [decodeRaw, decodeVEC2])

theorem vcvtr (d : BitVec 5) (a : BitVec 5) (m : BitVec 2) (g : BitVec 3) (p : BitVec 4) (t : BitVec 2) : Statement (.vcvtr d a m g p t) := of_raw rfl rfl (by simp [decodeRaw, decodeVEC2, twoAndThree])

theorem vqmx (d : BitVec 5) (a : BitVec 5) (b : BitVec 5) (g : BitVec 4) (t : BitVec 2) : Statement (.vqmx d a b g t) := of_raw rfl rfl (by simp [decodeRaw, decodeVEC2])

theorem vdqmx (d : BitVec 5) (a : BitVec 5) (b : BitVec 5) (g : BitVec 4) (t : BitVec 2) : Statement (.vdqmx d a b g t) := of_raw rfl rfl (by simp [decodeRaw, decodeVEC2])

theorem vperm (d : BitVec 5) (a : BitVec 5) (b : BitVec 5) (p : BitVec 4) (t : BitVec 2) : Statement (.vperm d a b p t) := of_raw rfl rfl (by simp [decodeRaw, decodeVEC2])

theorem vshuf (d : BitVec 5) (a : BitVec 5) (b : BitVec 5) (p : BitVec 4) (t : BitVec 2) : Statement (.vshuf d a b p t) := of_raw rfl rfl (by simp [decodeRaw, decodeVEC2])

theorem vslide (d : BitVec 5) (a : BitVec 5) (b : BitVec 5) (p : BitVec 4) (t : BitVec 2) : Statement (.vslide d a b p t) := of_raw rfl rfl (by simp [decodeRaw, decodeVEC2])

theorem vbcst (d : BitVec 5) (a : BitVec 5) (b : BitVec 5) (p : BitVec 4) (t : BitVec 2) : Statement (.vbcst d a b p t) := of_raw rfl rfl (by simp [decodeRaw, decodeVEC2])

theorem vins (d : BitVec 5) (a : BitVec 5) (b : BitVec 5) (t : BitVec 2) : Statement (.vins d a b t) := of_raw rfl rfl (by simp [decodeRaw, decodeVEC2])

theorem vext (d : BitVec 5) (a : BitVec 5) (b : BitVec 5) (t : BitVec 2) : Statement (.vext d a b t) := of_raw rfl rfl (by simp [decodeRaw, decodeVEC2])

theorem vcmpct (a : BitVec 5) (p : BitVec 4) (t : BitVec 2) : Statement (.vcmpct a p t) := of_raw rfl rfl (by simp [decodeRaw, decodeVEC2])

theorem vcpop (d : BitVec 5) (p : BitVec 4) (t : BitVec 2) : Statement (.vcpop d p t) := of_raw rfl rfl (by simp [decodeRaw, decodeVEC2])

theorem vcflush (d : BitVec 5) (p : BitVec 4) (t : BitVec 2) : Statement (.vcflush d p t) := of_raw rfl rfl (by simp [decodeRaw, decodeVEC2])

theorem vrsum (d : BitVec 5) (a : BitVec 5) (p : BitVec 4) (t : BitVec 2) : Statement (.vrsum d a p t) := of_raw rfl rfl (by simp [decodeRaw, decodeVEC3])

theorem vrmax (d : BitVec 5) (a : BitVec 5) (p : BitVec 4) (t : BitVec 2) : Statement (.vrmax d a p t) := of_raw rfl rfl (by simp [decodeRaw, decodeVEC3])

theorem vrmin (d : BitVec 5) (a : BitVec 5) (p : BitVec 4) (t : BitVec 2) : Statement (.vrmin d a p t) := of_raw rfl rfl (by simp [decodeRaw, decodeVEC3])

theorem vrand (d : BitVec 5) (a : BitVec 5) (p : BitVec 4) (t : BitVec 2) : Statement (.vrand d a p t) := of_raw rfl rfl (by simp [decodeRaw, decodeVEC3])

theorem vror (d : BitVec 5) (a : BitVec 5) (p : BitVec 4) (t : BitVec 2) : Statement (.vror d a p t) := of_raw rfl rfl (by simp [decodeRaw, decodeVEC3])

theorem vdot (d : BitVec 5) (a : BitVec 5) (b : BitVec 5) (p : BitVec 4) (t : BitVec 2) : Statement (.vdot d a b p t) := of_raw rfl rfl (by simp [decodeRaw, decodeVEC3])

theorem vscan (d : BitVec 5) (a : BitVec 5) (p : BitVec 4) (t : BitVec 2) : Statement (.vscan d a p t) := of_raw rfl rfl (by simp [decodeRaw, decodeVEC3])

theorem vpcnt (d : BitVec 5) (a : BitVec 5) (p : BitVec 4) (t : BitVec 2) : Statement (.vpcnt d a p t) := of_raw rfl rfl (by simp [decodeRaw, decodeVEC3])

theorem cbind (s : BitVec 5) (p : BitVec 1) (d : BitVec 5) : Statement (.cbind s p d) :=
  of_host rfl rfl fun h => by
    simp [Instr.wellFormed, Instr.fieldsLegal, Instr.isHost] at h
    simp [decodeHost, decodeHostForm, HostForm.toInstr, h]

theorem cstart (r : BitVec 5) (s : BitVec 5) (p : BitVec 1) (d : BitVec 5) : Statement (.cstart r s p d) :=
  of_host rfl rfl fun h => by
    simp [Instr.wellFormed, Instr.fieldsLegal, Instr.isHost] at h
    simp [decodeHost, decodeHostForm, HostForm.toInstr, h]

theorem cjoin (s : BitVec 5) (p : BitVec 1) (d : BitVec 5) : Statement (.cjoin s p d) :=
  of_host rfl rfl fun h => by
    simp [Instr.wellFormed, Instr.fieldsLegal, Instr.isHost] at h
    simp [decodeHost, decodeHostForm, HostForm.toInstr, h]

theorem cquery (s : BitVec 5) (p : BitVec 1) (d : BitVec 5) : Statement (.cquery s p d) :=
  of_host rfl rfl fun h => by
    simp [Instr.wellFormed, Instr.fieldsLegal, Instr.isHost] at h
    simp [decodeHost, decodeHostForm, HostForm.toInstr, h]

theorem cfence (p : BitVec 1) (d : BitVec 5) : Statement (.cfence p d) :=
  of_host rfl rfl fun h => by
    simp [Instr.wellFormed, Instr.fieldsLegal, Instr.isHost] at h
    simp [decodeHost, decodeHostForm, HostForm.toInstr, h]

theorem cpark (p : BitVec 1) (d : BitVec 5) : Statement (.cpark p d) :=
  of_host rfl rfl fun h => by
    simp [Instr.wellFormed, Instr.fieldsLegal, Instr.isHost] at h
    simp [decodeHost, decodeHostForm, HostForm.toInstr, h]

theorem ccancel (r : BitVec 5) (s : BitVec 5) (p : BitVec 1) (d : BitVec 5) : Statement (.ccancel r s p d) :=
  of_host rfl rfl fun h => by
    simp [Instr.wellFormed, Instr.fieldsLegal, Instr.isHost] at h
    simp [decodeHost, decodeHostForm, HostForm.toInstr, h]

theorem cfree (p : BitVec 1) (d : BitVec 5) : Statement (.cfree p d) :=
  of_host rfl rfl fun h => by
    simp [Instr.wellFormed, Instr.fieldsLegal, Instr.isHost] at h
    simp [decodeHost, decodeHostForm, HostForm.toInstr, h]

theorem csignal (r : BitVec 5) (s : BitVec 5) (p : BitVec 1) (d : BitVec 5) : Statement (.csignal r s p d) :=
  of_host rfl rfl fun h => by
    simp [Instr.wellFormed, Instr.fieldsLegal, Instr.isHost] at h
    simp [decodeHost, decodeHostForm, HostForm.toInstr, h]

theorem cvers (s : BitVec 5) (p : BitVec 1) (d : BitVec 5) : Statement (.cvers s p d) :=
  of_host rfl rfl fun h => by
    simp [Instr.wellFormed, Instr.fieldsLegal, Instr.isHost] at h
    simp [decodeHost, decodeHostForm, HostForm.toInstr, h]

theorem cfault (r : BitVec 5) (s : BitVec 5) (p : BitVec 1) (d : BitVec 5) : Statement (.cfault r s p d) :=
  of_host rfl rfl fun h => by
    simp [Instr.wellFormed, Instr.fieldsLegal, Instr.isHost] at h
    simp [decodeHost, decodeHostForm, HostForm.toInstr, h]

theorem hostFormInterrupt (hart : Nat) : Statement (.hostFormInterrupt hart) := of_event rfl

theorem blockingFormReturn (hart : Nat) : Statement (.blockingFormReturn hart) := of_event rfl

theorem cpsave (hart : Nat) (addr : Word) : Statement (.cpsave hart addr) := of_event rfl

theorem cpload (hart : Nat) (addr : Word) : Statement (.cpload hart addr) := of_event rfl

theorem cpattn (hart : Nat) (rd : BitVec 5) : Statement (.cpattn hart rd) := of_event rfl

theorem registerWrite (reg : RegName) (v : Word) : Statement (.registerWrite reg v) := of_event rfl

theorem resultLand (u : Nat) (q : Seq) : Statement (.resultLand u q) := of_event rfl

theorem dqoutForward (u : Nat) (q : Seq) : Statement (.dqoutForward u q) := of_event rfl

theorem loadMissReturn (u : Nat) (q : Seq) : Statement (.loadMissReturn u q) := of_event rfl

theorem storePerformed (u : Nat) (q : Seq) : Statement (.storePerformed u q) := of_event rfl

theorem atomicPerformed (u : Nat) (q : Seq) : Statement (.atomicPerformed u q) := of_event rfl

theorem barrierDepart (u : Nat) (cluster : Bool) (late : List Nat) : Statement (.barrierDepart u cluster late) := of_event rfl

theorem waitvRecheck (u : Nat) (q : Seq) : Statement (.waitvRecheck u q) := of_event rfl

theorem rettReturn (u : Nat) (q : Seq) : Statement (.rettReturn u q) := of_event rfl

theorem sequencerExit (u : Nat) (q : Seq) : Statement (.sequencerExit u q) := of_event rfl

theorem engineCommandStart (core : Nat) (eng : Eng) : Statement (.engineCommandStart core eng) := of_event rfl

theorem engineCommandComplete (core : Nat) (eng : Eng) : Statement (.engineCommandComplete core eng) := of_event rfl

theorem engineCommandFail (core : Nat) (eng : Eng) : Statement (.engineCommandFail core eng) := of_event rfl

theorem relocationTake (core : Nat) (eng : Eng) (u : Nat) (q : Seq) : Statement (.relocationTake core eng u q) := of_event rfl

theorem engineFaultWaitResume (core : Nat) (eng : Eng) : Statement (.engineFaultWaitResume core eng) := of_event rfl

theorem pressArbitrate (cl : Nat) : Statement (.pressArbitrate cl) := of_event rfl

theorem pressReloadComplete (cl : Nat) : Statement (.pressReloadComplete cl) := of_event rfl

theorem pressCommandStart (cl : Nat) : Statement (.pressCommandStart cl) := of_event rfl

theorem pressCommandComplete (cl : Nat) : Statement (.pressCommandComplete cl) := of_event rfl

theorem pressGrantCyclesExpire (cl : Nat) : Statement (.pressGrantCyclesExpire cl) := of_event rfl

theorem collectiveContribution (die : Nat) (c : Contribution) : Statement (.collectiveContribution die c) := of_event rfl

theorem collectiveCommit (die : Nat) (idx : Nat) (late : Bool) : Statement (.collectiveCommit die idx late) := of_event rfl

theorem collectiveTimeout (die : Nat) (idx : Nat) : Statement (.collectiveTimeout die idx) := of_event rfl

theorem walkComplete (die : Nat) (idx : Nat) : Statement (.walkComplete die idx) := of_event rfl

theorem fqtailWrite (die : Nat) (v : Word) : Statement (.fqtailWrite die v) := of_event rfl

theorem fqcfgWrite (die : Nat) (v : Word) : Statement (.fqcfgWrite die v) := of_event rfl

theorem fqrplRetry (die : Nat) (w : Word) : Statement (.fqrplRetry die w) := of_event rfl

theorem fqrplReject (die : Nat) (w : Word) : Statement (.fqrplReject die w) := of_event rfl

theorem fqrplTerminate (die : Nat) (w : Word) : Statement (.fqrplTerminate die w) := of_event rfl

theorem sfenceVma (hart : Nat) (addr : Option Word) (space : FenceKind × Option Word) : Statement (.sfenceVma hart addr space) := of_event rfl

theorem leesSpill (agent : Agent) (n : Nat) : Statement (.leesSpill agent n) := of_event rfl

theorem stageFlush (u : Nat) (level : Nat) : Statement (.stageFlush u level) := of_event rfl

theorem hartDeviceRace (hart : Nat) (va : Word) (write : Bool) : Statement (.hartDeviceRace hart va write) := of_event rfl

theorem schedTick (now : Nat) : Statement (.schedTick now) := of_event rfl

theorem park (u : Nat) : Statement (.park u) := of_event rfl

theorem unpark (u : Nat) (places : List UnitPlace) : Statement (.unpark u places) := of_event rfl

theorem launchPlace (k : NodeKey) (places : List UnitPlace) (params : Word) : Statement (.launchPlace k places params) := of_event rfl

theorem nodeComplete (k : NodeKey) : Statement (.nodeComplete k) := of_event rfl

theorem waitEvaluate (k : NodeKey) : Statement (.waitEvaluate k) := of_event rfl

theorem signalNode (k : NodeKey) : Statement (.signalNode k) := of_event rfl

theorem copyNodeComplete (k : NodeKey) : Statement (.copyNodeComplete k) := of_event rfl

theorem phasePeriodTimer (cont job : Nat) (now : Nat) : Statement (.phasePeriodTimer cont job now) := of_event rfl

theorem agingExpire (k : NodeKey) (now : Nat) : Statement (.agingExpire k now) := of_event rfl

theorem energyEstimateTick (now : Nat) : Statement (.energyEstimateTick now) := of_event rfl

theorem refillBoundary (cont : Nat) (now : Nat) : Statement (.refillBoundary cont now) := of_event rfl

theorem arbiterPeriod (now : Nat) : Statement (.arbiterPeriod now) := of_event rfl

theorem biasMoveComplete (cl : Nat) : Statement (.biasMoveComplete cl) := of_event rfl

theorem thermalHeadroomLost (cl : Nat) : Statement (.thermalHeadroomLost cl) := of_event rfl

theorem thermalHeadroomRegained (cl : Nat) : Statement (.thermalHeadroomRegained cl) := of_event rfl

theorem thermalStepDown (cl : Nat) : Statement (.thermalStepDown cl) := of_event rfl

theorem ballastStart (die : Nat) : Statement (.ballastStart die) := of_event rfl

theorem ballastShed (die : Nat) : Statement (.ballastShed die) := of_event rfl

theorem trip (die : Nat) (limit : Nat) (now : Nat) : Statement (.trip die limit now) := of_event rfl

theorem breachReceive (member : Nat) (limit : Nat) (now : Nat) : Statement (.breachReceive member limit now) := of_event rfl

theorem ceilingStamp (now : Nat) : Statement (.ceilingStamp now) := of_event rfl

theorem heartbeatSend (now : Nat) : Statement (.heartbeatSend now) := of_event rfl

theorem heartbeatReceive (hb : Heartbeat) (now : Nat) : Statement (.heartbeatReceive hb now) := of_event rfl

theorem heartbeatMiss (member : Nat) (now : Nat) : Statement (.heartbeatMiss member now) := of_event rfl

theorem memberEvict (member : Nat) (now : Nat) : Statement (.memberEvict member now) := of_event rfl

theorem leaveComplete (now : Nat) : Statement (.leaveComplete now) := of_event rfl

theorem groupLinkUp (index : Nat) (peers : List Heartbeat) (version : Nat) : Statement (.groupLinkUp index peers version) := of_event rfl

theorem groupVersionChange (version : Nat) (now : Nat) : Statement (.groupVersionChange version now) := of_event rfl

theorem linkBringup (port : Nat) (lo hi : Nat) : Statement (.linkBringup port lo hi) := of_event rfl

theorem flitReceive (port : Nat) (flit : Flit) : Statement (.flitReceive port flit) := of_event rfl

theorem pauseReceive (port : Nat) (cls : Nat) : Statement (.pauseReceive port cls) := of_event rfl

theorem resumeReceive (port : Nat) (cls : Nat) : Statement (.resumeReceive port cls) := of_event rfl

theorem admissionWindow (port : Nat) (now : Nat) : Statement (.admissionWindow port now) := of_event rfl

theorem moduleReset : Statement (.moduleReset) := of_event rfl

theorem watchdogExpire : Statement (.watchdogExpire) := of_event rfl

theorem getver (major : Nat) : Statement (.getver major) := of_event rfl

theorem slotwr (piece : SlotPiece) : Statement (.slotwr piece) := of_event rfl

theorem slotact : Statement (.slotact) := of_event rfl

theorem confirm (atDeadline : Bool) : Statement (.confirm atDeadline) := of_event rfl

theorem wdset (seconds : Nat) : Statement (.wdset seconds) := of_event rfl

theorem mext (reg : Nat) (digest : List Byte) : Statement (.mext reg digest) := of_event rfl

theorem leescfg (base size max : Nat) : Statement (.leescfg base size max) := of_event rfl

theorem schcfg (base size : Nat) : Statement (.schcfg base size) := of_event rfl

theorem enset (cont : Nat) (setting : Word) : Statement (.enset cont setting) := of_event rfl

theorem capset (cap : Nat) (floors : List Nat) : Statement (.capset cap floors) := of_event rfl

theorem pwrstat (clear : Word) : Statement (.pwrstat clear) := of_event rfl

theorem qset (q : Nat) : Statement (.qset q) := of_event rfl

theorem layset (cls : Nat) (params : Word) : Statement (.layset cls params) := of_event rfl

theorem csetprog (set : Nat) (ranks : List Nat) (stamp : BitVec 32) : Statement (.csetprog set ranks stamp) := of_event rfl

theorem partcfg (part : Nat) (clusters : List Nat) : Statement (.partcfg part clusters) := of_event rfl

theorem getVersion (via : SpdmVia) : Statement (.getVersion via) := of_event rfl

theorem getCapabilities (via : SpdmVia) : Statement (.getCapabilities via) := of_event rfl

theorem negotiateAlgorithms (via : SpdmVia) : Statement (.negotiateAlgorithms via) := of_event rfl

theorem getDigests (via : SpdmVia) : Statement (.getDigests via) := of_event rfl

theorem getCertificate (via : SpdmVia) : Statement (.getCertificate via) := of_event rfl

theorem challenge (via : SpdmVia) : Statement (.challenge via) := of_event rfl

theorem getMeasurements (via : SpdmVia) (block : Nat) : Statement (.getMeasurements via block) := of_event rfl

theorem keyExchange (via : SpdmVia) (part : Option Nat) : Statement (.keyExchange via part) := of_event rfl

theorem finish (via : SpdmVia) : Statement (.finish via) := of_event rfl

theorem endSession (via : SpdmVia) : Statement (.endSession via) := of_event rfl

theorem tdispLock (part : Nat) : Statement (.tdispLock part) := of_event rfl

theorem tdispLeaveRun (part : Nat) : Statement (.tdispLeaveRun part) := of_event rfl

theorem spdmSessionExpire (part : Nat) : Statement (.spdmSessionExpire part) := of_event rfl

theorem tdispUnlock (part : Nat) : Statement (.tdispUnlock part) := of_event rfl

theorem hartAccess (hart : Nat) (acc : HartAcc) : Statement (.hartAccess hart acc) := of_event rfl

theorem externalHostAccess (acc : ExtAcc) : Statement (.externalHostAccess acc) := of_event rfl

theorem tdispRun (part : Nat) : Statement (.tdispRun part) := of_event rfl

end Laws.RoundTrip

end Sys2Proof
end

