-- ==== Sys2Proof/Tests/Slice0.lean ====
section
/-!
SUPPORT. Tests on fixed values: words of the manual decode to their instructions, ill-formed terms are refused, single steps give what the manual says, and
the hypotheses of the statements are met by concrete states.
-/

namespace Sys2Proof.Tests

open Sys2Proof Sys2Proof.Machine

set_option Elab.async false

/-- The module out of reset. -/
def up : State := { State.reset with boot := { State.reset.boot with stage := .running } }

/-- A resident unit whose sequencer q acts, with the word of an instruction for its stream. -/
def at0 (q : Seq) (i : Instr) : State := actAs (placeWord up q (wordOf i)) 0 q

/-- A word issues where its sequencer may issue, accepts it, and its token slot pops nothing. -/
theorem issuesAt0 {s : State} {i : Instr} {tk : BitVec 2}
    (h : (canIssue s s.cur.uid s.cur.q && i.legalIn s.cur.q && decide (s.acting.fl.pushes = []) &&
      decide ((tokSlot s.acting tk).pop = none)) = true) : Issues s i tk s := by
  simp only [Bool.and_eq_true, decide_eq_true_eq] at h
  exact ⟨h.1.1.1, h.1.1.2, h.1.2, by simp [tokenPop, h.2]⟩

/-- A state with a scalar register of a sequencer of unit 0 set. -/
def withReg (s : State) (q : Seq) (n : Nat) (v : Word) : State := modSeq s 0 q fun c => c.setReg n v

/-- A state with a handle of a sequencer of unit 0 set. -/
def withHandle (s : State) (q : Seq) (n : Nat) (h : Handle) : State := modSeq s 0 q fun c => { c with handles := c.handles.setIfInBounds n h }

/-- A state with a predicate of a sequencer of unit 0 set. -/
def withPred (s : State) (q : Seq) (n : Nat) (m : Mask) : State := modSeq s 0 q fun c => c.setPred n m

/-- A token that carries nothing. -/
def aToken : Token := { agent := { kind := 0, que := 0, id := 0, uid := 0, cont := 0, launch := 0, sub := 0 }, scope := 1, hist := [] }

/-- A body that ends without a stop gives a value and a state. -/
theorem okOf {α : Type} {m : M α} {s : State} (h : (match m s with | .ok _ => true | .error _ => false) = true) : ∃ a t, m s = .ok (a, t) := by
  cases hm : m s with
  | ok r => exact ⟨r.1, r.2, rfl⟩
  | error e => rw [hm] at h; cases h

/-- A word written out field by field from the opcode table decodes, in a sequencer that takes it, to its instruction. -/
def decodesTo (x : Seq × IWord × Instr) : Bool := decode x.1 x.2.1 == some x.2.2

/-- The words of the family SYS (R63, R72). -/
theorem test_decode_sys : ([
    (.c, 0#12 ++ 12#6 ++ 48#6 ++ 2#6 ++ 1#2, .ill 12 48 2 1),
    (.c, 262144#30 ++ 1#2, .nop 1),
    (.c, 524288#30 ++ 2#2, .halt 2),
    (.c, 12288#24 ++ 1#6 ++ 2#2, .trap 1 2),
    (.c, 1048576#30 ++ 2#2, .rett 2),
    (.c, 5#12 ++ 3#6 ++ 0#6 ++ 4#6 ++ 2#2, .mfs 3 4 2),
    (.c, 384#18 ++ 10#6 ++ 2#6 ++ 1#2, .mts 10 2 1),
    (.c, 7#12 ++ 23#6 ++ 0#12 ++ 3#2, .vcyc 23 3),
    (.c, 8#12 ++ 10#6 ++ 0#6 ++ 3#6 ++ 1#2, .dbgpend 10 3 1),
    (.c, 36864#24 ++ 2#6 ++ 1#2, .bkpt 2 1),
    (.c, 2621440#30 ++ 1#2, .wfe 1),
    (.c, 45056#24 ++ 8#6 ++ 1#2, .sev 8 1),
    (.c, 49152#24 ++ 36#6 ++ 1#2, .tkcfg 36 1),
    (.c, 13#12 ++ 3#6 ++ 0#6 ++ 4#6 ++ 2#2, .ident 3 4 2),
    (.c, 896#18 ++ 4#6 ++ 17#6 ++ 3#2, .pace 4 17 3),
    (.c, 15#12 ++ 26#6 ++ 0#6 ++ 5#6 ++ 1#2, .enrd 26 5 1),
    (.c, 16#12 ++ 30#6 ++ 0#12 ++ 2#2, .gceil 30 2)] : List (Seq × IWord × Instr)).all decodesTo = true := by decide

/-- The words of the family ALUR (R63, R72). -/
theorem test_decode_alur : ([
    (.c, 1#5 ++ 3#6 ++ 5#6 ++ 23#6 ++ 0#7 ++ 2#2, .add 3 5 23 2),
    (.c, 1#5 ++ 11#6 ++ 2#6 ++ 62#6 ++ 1#7 ++ 1#2, .sub 11 2 62 1),
    (.c, 1#5 ++ 1#6 ++ 7#6 ++ 36#6 ++ 2#7 ++ 2#2, .and 1 7 36 2),
    (.c, 1#5 ++ 57#6 ++ 2#6 ++ 4#6 ++ 3#7 ++ 3#2, .or 57 2 4 3),
    (.c, 1#5 ++ 3#6 ++ 19#6 ++ 1#6 ++ 4#7 ++ 2#2, .xor 3 19 1 2),
    (.c, 1#5 ++ 5#6 ++ 8#6 ++ 4#6 ++ 5#7 ++ 2#2, .andn 5 8 4 2),
    (.c, 1#5 ++ 6#6 ++ 3#6 ++ 17#6 ++ 6#7 ++ 1#2, .sll 6 3 17 1),
    (.c, 1#5 ++ 5#6 ++ 11#6 ++ 3#6 ++ 7#7 ++ 1#2, .srl 5 11 3 1),
    (.c, 1#5 ++ 12#6 ++ 7#6 ++ 9#6 ++ 8#7 ++ 2#2, .sra 12 7 9 2),
    (.c, 1#5 ++ 9#6 ++ 1#6 ++ 11#6 ++ 9#7 ++ 3#2, .rol 9 1 11 3),
    (.c, 1#5 ++ 16#6 ++ 1#6 ++ 7#6 ++ 10#7 ++ 2#2, .slt 16 1 7 2),
    (.c, 1#5 ++ 9#6 ++ 11#6 ++ 4#6 ++ 11#7 ++ 2#2, .sltu 9 11 4 2),
    (.c, 1#5 ++ 15#6 ++ 10#6 ++ 3#6 ++ 12#7 ++ 2#2, .min 15 10 3 2),
    (.c, 1#5 ++ 6#6 ++ 8#6 ++ 1#6 ++ 13#7 ++ 2#2, .max 6 8 1 2),
    (.c, 1#5 ++ 22#6 ++ 3#6 ++ 8#6 ++ 14#7 ++ 2#2, .minu 22 3 8 2),
    (.c, 1#5 ++ 1#6 ++ 6#6 ++ 24#6 ++ 15#7 ++ 3#2, .maxu 1 6 24 3),
    (.c, 1#5 ++ 2#6 ++ 7#6 ++ 13#6 ++ 16#7 ++ 1#2, .mul 2 7 13 1),
    (.c, 1#5 ++ 6#6 ++ 48#6 ++ 3#6 ++ 17#7 ++ 1#2, .mulh 6 48 3 1),
    (.c, 1#5 ++ 4#6 ++ 5#6 ++ 2#6 ++ 18#7 ++ 3#2, .mulhu 4 5 2 3),
    (.c, 1#5 ++ 15#6 ++ 10#6 ++ 36#6 ++ 19#7 ++ 2#2, .div 15 10 36 2),
    (.c, 1#5 ++ 15#6 ++ 1#6 ++ 16#6 ++ 20#7 ++ 3#2, .divu 15 1 16 3),
    (.c, 1#5 ++ 5#6 ++ 61#6 ++ 33#6 ++ 21#7 ++ 3#2, .rem 5 61 33 3),
    (.c, 1#5 ++ 2#6 ++ 18#6 ++ 5#6 ++ 22#7 ++ 3#2, .remu 2 18 5 3),
    (.c, 1#5 ++ 12#6 ++ 3#6 ++ 23#13 ++ 1#2, .clz 12 3 1),
    (.c, 1#5 ++ 31#6 ++ 12#6 ++ 24#13 ++ 2#2, .ctz 31 12 2),
    (.c, 1#5 ++ 6#6 ++ 3#6 ++ 25#13 ++ 2#2, .popc 6 3 2),
    (.c, 1#5 ++ 4#6 ++ 14#6 ++ 24#6 ++ 26#7 ++ 1#2, .sext 4 14 24 1),
    (.c, 1#5 ++ 1#6 ++ 53#6 ++ 15#6 ++ 27#7 ++ 2#2, .zext 1 53 15 2),
    (.c, 1#5 ++ 15#6 ++ 5#6 ++ 6#6 ++ 28#7 ++ 2#2, .addw 15 5 6 2),
    (.c, 1#5 ++ 1#6 ++ 20#6 ++ 2#6 ++ 29#7 ++ 3#2, .subw 1 20 2 3),
    (.c, 1#5 ++ 2#6 ++ 4#6 ++ 6#6 ++ 30#7 ++ 3#2, .mulw 2 4 6 3)] : List (Seq × IWord × Instr)).all decodesTo = true := by decide

/-- The words of the family ALUI (R63, R72). -/
theorem test_decode_alui : ([
    (.c, 2#5 ++ 19#6 ++ 2#6 ++ 0#3 ++ 3#10 ++ 1#2, .addi 19 2 3 1),
    (.c, 2#5 ++ 1#6 ++ 41#6 ++ 1#3 ++ 6#10 ++ 2#2, .andi 1 41 6 2),
    (.c, 2#5 ++ 3#6 ++ 12#6 ++ 2#3 ++ 435#10 ++ 2#2, .ori 3 12 435 2),
    (.c, 2#5 ++ 5#6 ++ 49#6 ++ 3#3 ++ 385#10 ++ 3#2, .xori 5 49 385 3),
    (.c, 2#5 ++ 33#6 ++ 11#6 ++ 4#3 ++ 3#10 ++ 2#2, .slti 33 11 3 2),
    (.c, 2#5 ++ 2#6 ++ 3#6 ++ 5#3 ++ 5#10 ++ 1#2, .slli 2 3 5 1),
    (.c, 2#5 ++ 6#6 ++ 55#6 ++ 6#3 ++ 2#10 ++ 3#2, .srli 6 55 2 3),
    (.c, 2#5 ++ 14#6 ++ 24#6 ++ 7#3 ++ 20#10 ++ 2#2, .srai 14 24 20 2)] : List (Seq × IWord × Instr)).all decodesTo = true := by decide

/-- The words of the family JUMP (R63, R72). -/
theorem test_decode_jump : ([
    (.c, 3#5 ++ 7#6 ++ 15#19 ++ 3#2, .movhi 7 15 3),
    (.c, 8#5 ++ 7#25 ++ 1#2, .jmp 7 1),
    (.c, 9#5 ++ 13#25 ++ 3#2, .call 13 3),
    (.c, 10#5 ++ 1#6 ++ 63#6 ++ 0#3 ++ 7#10 ++ 2#2, .jr 1 63 7 2),
    (.c, 10#5 ++ 1#6 ++ 7#6 ++ 1#3 ++ 12#10 ++ 2#2, .callr 1 7 12 2)] : List (Seq × IWord × Instr)).all decodesTo = true := by decide

/-- The words of the family MEM (R63, R72). -/
theorem test_decode_mem : ([
    (.c, 4#5 ++ 3#6 ++ 9#6 ++ 5#11 ++ 1#2 ++ 2#2, .ld 3 9 5 1 2),
    (.c, 5#5 ++ 14#6 ++ 8#6 ++ 139#11 ++ 3#2 ++ 2#2, .lds 14 8 139 3 2),
    (.c, 6#5 ++ 6#6 ++ 46#6 ++ 2#11 ++ 3#2 ++ 1#2, .st 6 46 2 3 1)] : List (Seq × IWord × Instr)).all decodesTo = true := by decide

/-- The words of the family BR (R63, R72). -/
theorem test_decode_br : ([
    (.c, 112#9 ++ 59#6 ++ 4#15 ++ 3#2, .beqz 59 4 3),
    (.c, 113#9 ++ 2#6 ++ 10#15 ++ 1#2, .bnez 2 10 1),
    (.c, 114#9 ++ 24#6 ++ 11#15 ++ 1#2, .bltz 24 11 1),
    (.c, 115#9 ++ 10#6 ++ 2#15 ++ 1#2, .bgez 10 2 1),
    (.c, 116#9 ++ 3#6 ++ 7#15 ++ 1#2, .bgtz 3 7 1),
    (.c, 117#9 ++ 12#6 ++ 9#15 ++ 1#2, .blez 12 9 1),
    (.c, 118#9 ++ 7#6 ++ 2#15 ++ 1#2, .bp 7 2 1),
    (.c, 119#9 ++ 7#6 ++ 3#15 ++ 1#2, .bnp 7 3 1),
    (.x, 7692#15 ++ 9#15 ++ 1#2, .bq 9 1),
    (.x, 7756#15 ++ 11#15 ++ 3#2, .bnq 11 3)] : List (Seq × IWord × Instr)).all decodesTo = true := by decide

/-- The words of the family QUE (R63, R72). -/
theorem test_decode_que : ([
    (.c, 5767168#24 ++ 2#6 ++ 1#2, .tkpush 2 1),
    (.l, 5771264#24 ++ 4#6 ++ 3#2, .tkpop 4 3),
    (.c, 1410#12 ++ 8#6 ++ 0#6 ++ 7#6 ++ 3#2, .tkcnt 8 7 3),
    (.c, 1411#12 ++ 5#6 ++ 0#6 ++ 8#6 ++ 2#2, .qpeek 5 8 2),
    (.c, 1412#12 ++ 10#6 ++ 0#6 ++ 9#6 ++ 1#2, .qcnt 10 9 1),
    (.c, 5787648#24 ++ 8#6 ++ 1#2, .qsquash 8 1),
    (.x, 90496#18 ++ 4#6 ++ 11#6 ++ 3#2, .qfmt 4 11 3),
    (.c, 5795840#24 ++ 2#6 ++ 1#2, .qsel 2 1),
    (.l, 90624#18 ++ 6#6 ++ 12#6 ++ 2#2, .bqpush 6 2),
    (.c, 5804032#24 ++ 3#6 ++ 1#2, .qwait 3 1),
    (.c, 1418#12 ++ 7#6 ++ 0#6 ++ 20#6 ++ 2#2, .epop 7 20 2)] : List (Seq × IWord × Instr)).all decodesTo = true := by decide

/-- The words of the family HND (R63, R72). -/
theorem test_decode_hnd : ([
    (.c, 12#5 ++ 15#4 ++ 6#4 ++ 0#17 ++ 3#2, .hmov 15 6 3),
    (.c, 12#5 ++ 3#4 ++ 0#8 ++ 15#6 ++ 1#7 ++ 1#2, .hld 3 15 1),
    (.c, 192#9 ++ 3#4 ++ 0#4 ++ 11#6 ++ 2#7 ++ 1#2, .hst 3 11 1),
    (.c, 12#5 ++ 4#4 ++ 10#4 ++ 0#4 ++ 45#6 ++ 3#7 ++ 1#2, .hsetb 4 10 45 1),
    (.c, 12#5 ++ 3#4 ++ 4#4 ++ 1#4 ++ 13#6 ++ 4#7 ++ 2#2, .hsetd 3 4 1 13 2),
    (.c, 12#5 ++ 11#4 ++ 5#4 ++ 3#4 ++ 12#6 ++ 5#7 ++ 1#2, .hsets 11 5 3 12 1),
    (.c, 12#5 ++ 6#4 ++ 11#4 ++ 0#4 ++ 3#6 ++ 6#7 ++ 1#2, .hsetf 6 11 3 1),
    (.c, 192#9 ++ 1#4 ++ 0#4 ++ 6#6 ++ 7#7 ++ 2#2, .hgetb 1 6 2),
    (.c, 192#9 ++ 10#4 ++ 1#4 ++ 3#6 ++ 8#7 ++ 2#2, .hgetd 10 1 3 2),
    (.c, 12#5 ++ 3#4 ++ 11#4 ++ 1#4 ++ 13#6 ++ 9#7 ++ 2#2, .hoff 3 11 1 13 2),
    (.c, 12#5 ++ 12#4 ++ 9#4 ++ 0#4 ++ 13#6 ++ 10#7 ++ 3#2, .hsub 12 9 13 3),
    (.c, 192#9 ++ 8#4 ++ 0#4 ++ 7#6 ++ 11#7 ++ 1#2, .hchk 8 7 1),
    (.c, 12#5 ++ 5#4 ++ 12#21 ++ 1#2, .hclr 5 1)] : List (Seq × IWord × Instr)).all decodesTo = true := by decide

/-- The words of the family ENG (R63, R72). -/
theorem test_decode_eng : ([
    (.c, 104#8 ++ 8#4 ++ 9#6 ++ 23#6 ++ 1#1 ++ 0#5 ++ 2#2, .ctld 8 9 23 1 2),
    (.c, 104#8 ++ 5#4 ++ 23#6 ++ 9#6 ++ 1#1 ++ 1#5 ++ 3#2, .ctst 5 23 9 1 3),
    (.c, 104#8 ++ 6#3 ++ 0#1 ++ 10#6 ++ 4#6 ++ 1#1 ++ 2#5 ++ 2#2, .ccpy 6 10 4 1 2),
    (.c, 104#8 ++ 4#4 ++ 12#6 ++ 13#6 ++ 1#1 ++ 3#5 ++ 2#2, .cfill 4 12 13 1 2),
    (.c, 104#8 ++ 7#4 ++ 6#6 ++ 2#6 ++ 1#1 ++ 4#5 ++ 3#2, .cpfx 7 6 2 1 3),
    (.c, 1664#12 ++ 17#6 ++ 10#6 ++ 1#1 ++ 5#5 ++ 2#2, .cxfr 17 10 1 2),
    (.c, 105#8 ++ 8#4 ++ 4#6 ++ 43#6 ++ 0#6 ++ 2#2, .gath 8 4 43 2),
    (.c, 105#8 ++ 12#4 ++ 8#6 ++ 5#6 ++ 1#6 ++ 3#2, .scat 12 8 5 3),
    (.c, 105#8 ++ 5#4 ++ 12#6 ++ 61#6 ++ 2#6 ++ 3#2, .gathp 5 12 61 3),
    (.c, 105#8 ++ 8#4 ++ 9#6 ++ 13#6 ++ 3#6 ++ 2#2, .scata 8 9 13 2),
    (.c, 106#8 ++ 5#4 ++ 19#6 ++ 10#6 ++ 0#6 ++ 1#2, .xallr 5 19 10 1),
    (.c, 106#8 ++ 7#4 ++ 4#6 ++ 1#6 ++ 1#6 ++ 2#2, .xrds 7 4 1 2),
    (.c, 106#8 ++ 11#4 ++ 7#6 ++ 27#6 ++ 2#6 ++ 1#2, .xallg 11 7 27 1),
    (.c, 106#8 ++ 2#4 ++ 14#6 ++ 5#6 ++ 3#6 ++ 1#2, .xsend 2 14 5 1),
    (.c, 106#8 ++ 10#4 ++ 5#6 ++ 2#6 ++ 4#6 ++ 3#2, .xrecv 10 5 2 3),
    (.c, 106#8 ++ 10#4 ++ 9#6 ++ 13#6 ++ 5#6 ++ 2#2, .xexch 10 9 13 2)] : List (Seq × IWord × Instr)).all decodesTo = true := by decide

/-- The words of the family ATM (R63, R72). -/
theorem test_decode_atm : ([
    (.c, 14#5 ++ 13#5 ++ 6#5 ++ 0#9 ++ 4#3 ++ 5#4 ++ 1#1, .ald 13 6 4 5 1),
    (.c, 448#10 ++ 2#5 ++ 3#5 ++ 1#4 ++ 4#3 ++ 9#4 ++ 1#1, .ast 2 3 4 9 1),
    (.c, 14#5 ++ 15#5 ++ 5#5 ++ 3#5 ++ 2#4 ++ 2#3 ++ 9#4 ++ 1#1, .aswp 15 5 3 2 9 1),
    (.c, 14#5 ++ 4#5 ++ 10#5 ++ 21#5 ++ 3#4 ++ 3#3 ++ 5#4 ++ 1#1, .acas 4 10 21 3 5 1),
    (.c, 14#5 ++ 15#5 ++ 7#5 ++ 13#5 ++ 4#4 ++ 4#3 ++ 10#4 ++ 1#1, .aadd 15 7 13 4 10 1),
    (.c, 14#5 ++ 22#5 ++ 5#5 ++ 10#5 ++ 5#4 ++ 2#3 ++ 9#4 ++ 1#1, .aand 22 5 10 2 9 1),
    (.c, 14#5 ++ 4#5 ++ 5#5 ++ 11#5 ++ 6#4 ++ 2#3 ++ 9#4 ++ 1#1, .aor 4 5 11 2 9 1),
    (.c, 14#5 ++ 7#5 ++ 9#5 ++ 22#5 ++ 7#4 ++ 3#3 ++ 2#4 ++ 1#1, .axor 7 9 22 3 2 1),
    (.c, 14#5 ++ 3#5 ++ 14#5 ++ 8#5 ++ 8#4 ++ 2#3 ++ 10#4 ++ 1#1, .amin 3 14 8 2 10 1),
    (.c, 14#5 ++ 26#5 ++ 2#5 ++ 24#5 ++ 9#4 ++ 4#3 ++ 8#4 ++ 1#1, .amax 26 2 24 4 8 1),
    (.c, 14#5 ++ 26#5 ++ 18#5 ++ 6#5 ++ 10#4 ++ 2#3 ++ 3#4 ++ 1#1, .aminu 26 18 6 2 3 1),
    (.c, 14#5 ++ 15#5 ++ 5#5 ++ 6#5 ++ 11#4 ++ 2#3 ++ 7#4 ++ 1#1, .amaxu 15 5 6 2 7 1),
    (.c, 14#5 ++ 14#5 ++ 6#5 ++ 28#5 ++ 12#4 ++ 1#3 ++ 3#4 ++ 1#1, .afadd 14 6 28 1 3),
    (.c, 14#5 ++ 3#5 ++ 12#5 ++ 5#5 ++ 13#4 ++ 2#3 ++ 8#4 ++ 0#1, .sigdec 3 12 5 2 8),
    (.c, 14#5 ++ 15#5 ++ 28#5 ++ 2#5 ++ 14#4 ++ 3#3 ++ 4#4 ++ 0#1, .sigadd 15 28 2 3 4)] : List (Seq × IWord × Instr)).all decodesTo = true := by decide

/-- The words of the family FEN (R63, R72). -/
theorem test_decode_fen : ([
    (.c, 240#9 ++ 6#4 ++ 2#3 ++ 0#14 ++ 3#2, .fence 6 2 3),
    (.c, 241#9 ++ 4#4 ++ 2#3 ++ 0#6 ++ 10#8 ++ 3#2, .fencee 4 2 10 3),
    (.c, 507510784#30 ++ 3#2, .ssync 3),
    (.c, 509607936#30 ++ 3#2, .cbar 3),
    (.c, 244#9 ++ 9#4 ++ 1#3 ++ 5#6 ++ 2#8 ++ 3#2, .waitv 9 1 5 2 3)] : List (Seq × IWord × Instr)).all decodesTo = true := by decide

/-- The words of the family CKS (R63, R72). -/
theorem test_decode_cks : ([
    (.c, 16#5 ++ 8#4 ++ 4#4 ++ 0#17 ++ 1#2, .ckopen 8 4 1),
    (.c, 16#5 ++ 1#4 ++ 9#4 ++ 8192#17 ++ 3#2, .ckopenGrow 1 9 3),
    (.c, 16#5 ++ 9#4 ++ 13#4 ++ 1#17 ++ 3#2, .ckseal 9 13 3),
    (.c, 16#5 ++ 7#4 ++ 14#4 ++ 9#4 ++ 2#13 ++ 2#2, .ckblnd 7 14 9 2),
    (.c, 16#5 ++ 15#4 ++ 7#4 ++ 0#4 ++ 29#6 ++ 3#7 ++ 3#2, .ckfilt 15 7 29 3),
    (.c, 16#5 ++ 6#4 ++ 5#4 ++ 0#4 ++ 14#6 ++ 4#7 ++ 2#2, .ckrebs 6 5 14 2),
    (.c, 256#9 ++ 4#4 ++ 0#4 ++ 2#6 ++ 5#7 ++ 1#2, .ckpour 4 2 1),
    (.c, 256#9 ++ 10#4 ++ 6#17 ++ 1#2, .ckdrop 10 1),
    (.c, 256#9 ++ 10#4 ++ 1#4 ++ 5#6 ++ 7#7 ++ 2#2, .ckinfo 10 1 5 2),
    (.c, 256#9 ++ 1#4 ++ 8#17 ++ 3#2, .ckabort 1 3)] : List (Seq × IWord × Instr)).all decodesTo = true := by decide

/-- The words of the family SCH (R63, R72). -/
theorem test_decode_sch : ([
    (.c, 2176#12 ++ 10#6 ++ 4#6 ++ 0#6 ++ 3#2, .glaunch 10 4 3),
    (.c, 2177#12 ++ 11#6 ++ 6#6 ++ 2#6 ++ 3#2, .gwait 11 6 2 3),
    (.c, 2178#12 ++ 14#6 ++ 7#6 ++ 3#6 ++ 2#2, .gcancel 14 7 3 2),
    (.c, 2179#12 ++ 3#6 ++ 8#6 ++ 2#6 ++ 1#2, .gcnt 3 8 2 1),
    (.c, 571473920#30 ++ 2#2, .yield 2),
    (.c, 571736064#30 ++ 2#2, .uexit 2),
    (.c, 2182#12 ++ 9#6 ++ 18#6 ++ 0#6 ++ 2#2, .priset 9 18 2)] : List (Seq × IWord × Instr)).all decodesTo = true := by decide

/-- The words of the family PRD (R63, R72). -/
theorem test_decode_prd : ([
    (.c, 2304#12 ++ 4#6 ++ 42#6 ++ 6#6 ++ 1#2, .pset 4 42 6 1),
    (.c, 2305#12 ++ 11#6 ++ 6#6 ++ 8#6 ++ 3#2, .pand 11 6 8 3),
    (.c, 2306#12 ++ 9#6 ++ 3#6 ++ 2#6 ++ 1#2, .por 9 3 2 1),
    (.c, 2307#12 ++ 4#6 ++ 2#6 ++ 3#6 ++ 1#2, .pxor 4 2 3 1),
    (.c, 2308#12 ++ 11#6 ++ 7#6 ++ 0#6 ++ 1#2, .pnot 11 7 1),
    (.c, 2309#12 ++ 1#6 ++ 9#6 ++ 0#6 ++ 3#2, .pmov 1 9 3),
    (.x, 2310#12 ++ 2#6 ++ 7#6 ++ 6#6 ++ 1#2, .ptos 2 7 6 1),
    (.x, 2311#12 ++ 10#6 ++ 3#6 ++ 1#6 ++ 2#2, .pall 10 3 1 2),
    (.x, 2312#12 ++ 6#6 ++ 1#6 ++ 3#6 ++ 2#2, .pany 6 1 3 2)] : List (Seq × IWord × Instr)).all decodesTo = true := by decide

/-- The words of the family VLP (R63, R72). -/
theorem test_decode_vlp : ([
    (.x, 608#10 ++ 25#6 ++ 0#14 ++ 1#2, .vwin 25 1),
    (.x, 608#10 ++ 34#6 ++ 3#8 ++ 1#6 ++ 1#2, .loopx 34 3 1),
    (.x, 637534210#30 ++ 1#2, .loope 1),
    (.x, 38912#16 ++ 13#8 ++ 3#6 ++ 2#2, .vrot 13 2),
    (.x, 19#5 ++ 19#5 ++ 0#8 ++ 2#6 ++ 4#6 ++ 1#2, .vtag 19 2 1),
    (.x, 19#5 ++ 20#5 ++ 47#6 ++ 5#14 ++ 1#2, .vtagr 20 47 1)] : List (Seq × IWord × Instr)).all decodesTo = true := by decide

/-- The words of the family VLS (R63, R72). -/
theorem test_decode_vls : ([
    (.x, 20#5 ++ 2#5 ++ 3#6 ++ 6#8 ++ 0#6 ++ 1#2, .vld 2 3 6 1),
    (.x, 20#5 ++ 17#5 ++ 4#6 ++ 10#8 ++ 1#6 ++ 3#2, .vst 17 4 10 3),
    (.x, 20#5 ++ 7#5 ++ 3#6 ++ 0#4 ++ 8#4 ++ 2#6 ++ 2#2, .vldt 7 3 8 2),
    (.x, 20#5 ++ 9#5 ++ 2#6 ++ 0#2 ++ 14#6 ++ 3#6 ++ 3#2, .vldg 9 2 14 3),
    (.x, 20#5 ++ 6#5 ++ 4#6 ++ 0#4 ++ 5#4 ++ 4#6 ++ 1#2, .vsts 6 4 5 1),
    (.x, 20#5 ++ 21#5 ++ 6#6 ++ 0#4 ++ 7#4 ++ 5#6 ++ 1#2, .vldb 21 6 7 1),
    (.x, 20#5 ++ 3#5 ++ 18#6 ++ 0#4 ++ 5#4 ++ 6#6 ++ 1#2, .vlds 3 18 5 1)] : List (Seq × IWord × Instr)).all decodesTo = true := by decide

/-- The words of the family PRS (R63, R72). -/
theorem test_decode_prs : ([
    (.c, 704643072#30 ++ 2#2, .plse 2),
    (.c, 704643073#30 ++ 3#2, .prel 3),
    (.c, 168#8 ++ 15#4 ++ 18#6 ++ 2#12 ++ 3#2, .pwld 15 18 3),
    (.c, 168#8 ++ 2#4 ++ 49#6 ++ 26#6 ++ 3#6 ++ 3#2, .pmul 2 49 26 3),
    (.c, 168#8 ++ 9#4 ++ 3#6 ++ 2#6 ++ 4#6 ++ 1#2, .pmulz 9 3 2 1),
    (.c, 21#5 ++ 4#3 ++ 3#4 ++ 10#6 ++ 5#12 ++ 2#2, .pdrn 4 3 10 2),
    (.c, 2688#12 ++ 29#6 ++ 6#12 ++ 1#2, .pstat 29 1)] : List (Seq × IWord × Instr)).all decodesTo = true := by decide

/-- The words of the family RWE (R63, R72). -/
theorem test_decode_rwe : ([
    (.c, 22#5 ++ 7#3 ++ 13#4 ++ 3#6 ++ 10#6 ++ 1#1 ++ 0#5 ++ 2#2, .rwsmx 7 13 3 10 1 2),
    (.c, 22#5 ++ 4#3 ++ 3#4 ++ 12#6 ++ 6#6 ++ 1#1 ++ 1#5 ++ 2#2, .rwmax 4 3 12 6 1 2),
    (.c, 22#5 ++ 4#3 ++ 9#4 ++ 33#6 ++ 27#6 ++ 1#1 ++ 2#5 ++ 3#2, .rwexps 4 9 33 27 1 3),
    (.c, 22#5 ++ 7#3 ++ 13#4 ++ 4#6 ++ 3#6 ++ 1#1 ++ 3#5 ++ 2#2, .rwscl 7 13 4 3 1 2),
    (.c, 22#5 ++ 4#3 ++ 7#4 ++ 2#6 ++ 22#6 ++ 1#1 ++ 4#5 ++ 3#2, .rwrms 4 7 2 22 1 3),
    (.c, 22#5 ++ 4#3 ++ 7#4 ++ 8#6 ++ 17#6 ++ 1#1 ++ 5#5 ++ 2#2, .rwlnrm 4 7 8 17 1 2)] : List (Seq × IWord × Instr)).all decodesTo = true := by decide

/-- The words of the family VEC0 (R63, R72). -/
theorem test_decode_vec0 : ([
    (.x, 24#5 ++ 4#5 ++ 5#5 ++ 7#5 ++ 9#4 ++ 0#6 ++ 1#2, .vadd 4 5 7 9 1),
    (.x, 24#5 ++ 29#5 ++ 13#5 ++ 6#5 ++ 11#4 ++ 1#6 ++ 1#2, .vsub 29 13 6 11 1),
    (.x, 24#5 ++ 1#5 ++ 2#5 ++ 6#5 ++ 10#4 ++ 2#6 ++ 3#2, .vmul 1 2 6 10 3),
    (.x, 24#5 ++ 9#5 ++ 2#5 ++ 8#5 ++ 4#4 ++ 3#6 ++ 1#2, .vfma 9 2 8 4 1),
    (.x, 24#5 ++ 16#5 ++ 17#5 ++ 11#5 ++ 5#4 ++ 4#6 ++ 1#2, .vfms 16 17 11 5 1),
    (.x, 24#5 ++ 3#5 ++ 26#5 ++ 14#5 ++ 5#4 ++ 5#6 ++ 1#2, .vmin 3 26 14 5 1),
    (.x, 24#5 ++ 2#5 ++ 16#5 ++ 6#5 ++ 4#4 ++ 6#6 ++ 3#2, .vmax 2 16 6 4 3),
    (.x, 24#5 ++ 19#5 ++ 6#5 ++ 0#5 ++ 1#4 ++ 7#6 ++ 3#2, .vabs 19 6 1 3),
    (.x, 24#5 ++ 10#5 ++ 2#5 ++ 0#5 ++ 6#4 ++ 8#6 ++ 3#2, .vneg 10 2 6 3),
    (.x, 24#5 ++ 14#5 ++ 11#5 ++ 27#5 ++ 1#4 ++ 9#6 ++ 2#2, .vand 14 11 27 1 2),
    (.x, 24#5 ++ 10#5 ++ 22#5 ++ 8#5 ++ 7#4 ++ 10#6 ++ 1#2, .vor 10 22 8 7 1),
    (.x, 24#5 ++ 17#5 ++ 1#5 ++ 5#5 ++ 9#4 ++ 11#6 ++ 3#2, .vxor 17 1 5 9 3),
    (.x, 24#5 ++ 10#5 ++ 6#5 ++ 15#5 ++ 2#4 ++ 12#6 ++ 1#2, .vsll 10 6 15 2 1),
    (.x, 24#5 ++ 18#5 ++ 1#5 ++ 6#5 ++ 5#4 ++ 13#6 ++ 2#2, .vsrl 18 1 6 5 2),
    (.x, 24#5 ++ 10#5 ++ 3#5 ++ 9#5 ++ 7#4 ++ 14#6 ++ 1#2, .vsra 10 3 9 7 1),
    (.x, 24#5 ++ 7#5 ++ 20#5 ++ 5#5 ++ 11#4 ++ 15#6 ++ 3#2, .vcmpeq 7 20 5 11 3),
    (.x, 24#5 ++ 4#5 ++ 7#5 ++ 15#5 ++ 3#4 ++ 16#6 ++ 1#2, .vcmplt 4 7 15 3 1),
    (.x, 24#5 ++ 1#5 ++ 8#5 ++ 20#5 ++ 11#4 ++ 17#6 ++ 2#2, .vcmple 1 8 20 11 2),
    (.x, 24#5 ++ 14#5 ++ 10#5 ++ 4#5 ++ 3#4 ++ 18#6 ++ 1#2, .vsel 14 10 4 3 1),
    (.x, 24#5 ++ 7#5 ++ 30#5 ++ 0#5 ++ 8#4 ++ 19#6 ++ 2#2, .vmov 7 30 8 2),
    (.x, 24#5 ++ 6#5 ++ 30#5 ++ 2#5 ++ 5#4 ++ 20#6 ++ 3#2, .vsat 6 30 2 5 3),
    (.x, 24#5 ++ 5#5 ++ 9#5 ++ 13#5 ++ 4#4 ++ 21#6 ++ 2#2, .vaddsat 5 9 13 4 2)] : List (Seq × IWord × Instr)).all decodesTo = true := by decide

/-- The words of the family VEC1 (R63, R72). -/
theorem test_decode_vec1 : ([
    (.x, 25#5 ++ 15#5 ++ 14#5 ++ 0#5 ++ 10#4 ++ 0#6 ++ 2#2, .vrcp 15 14 10 2),
    (.x, 25#5 ++ 26#5 ++ 6#5 ++ 0#5 ++ 11#4 ++ 1#6 ++ 1#2, .vsqrt 26 6 11 1),
    (.x, 25#5 ++ 6#5 ++ 11#5 ++ 0#5 ++ 7#4 ++ 2#6 ++ 1#2, .vrsqrt 6 11 7 1),
    (.x, 25#5 ++ 23#5 ++ 5#5 ++ 0#5 ++ 10#4 ++ 3#6 ++ 3#2, .vexp2 23 5 10 3),
    (.x, 25#5 ++ 6#5 ++ 11#5 ++ 0#5 ++ 4#4 ++ 4#6 ++ 1#2, .vlog2 6 11 4 1),
    (.x, 25#5 ++ 26#5 ++ 1#5 ++ 0#5 ++ 3#4 ++ 5#6 ++ 2#2, .vexp 26 1 3 2),
    (.x, 25#5 ++ 21#5 ++ 1#5 ++ 0#5 ++ 4#4 ++ 6#6 ++ 3#2, .vtanh 21 1 4 3),
    (.x, 25#5 ++ 17#5 ++ 12#5 ++ 0#5 ++ 5#4 ++ 7#6 ++ 1#2, .vsigm 17 12 5 1),
    (.x, 25#5 ++ 12#5 ++ 3#5 ++ 0#5 ++ 8#4 ++ 8#6 ++ 1#2, .vgelu 12 3 8 1),
    (.x, 25#5 ++ 1#5 ++ 14#5 ++ 0#5 ++ 9#4 ++ 9#6 ++ 2#2, .vsilu 1 14 9 2)] : List (Seq × IWord × Instr)).all decodesTo = true := by decide

/-- The words of the family VEC2 (R63, R72). -/
theorem test_decode_vec2 : ([
    (.x, 26#5 ++ 24#5 ++ 13#5 ++ 4#5 ++ 1#4 ++ 0#6 ++ 3#2, .vcvt 24 13 4 1 3),
    (.x, 26#5 ++ 2#5 ++ 18#5 ++ 3#2 ++ 6#3 ++ 9#4 ++ 1#6 ++ 1#2, .vcvtr 2 18 3 6 9 1),
    (.x, 26#5 ++ 11#5 ++ 18#5 ++ 30#5 ++ 1#4 ++ 2#6 ++ 2#2, .vqmx 11 18 30 1 2),
    (.x, 26#5 ++ 28#5 ++ 3#5 ++ 5#5 ++ 1#4 ++ 3#6 ++ 2#2, .vdqmx 28 3 5 1 2),
    (.x, 26#5 ++ 6#5 ++ 1#5 ++ 11#5 ++ 2#4 ++ 4#6 ++ 3#2, .vperm 6 1 11 2 3),
    (.x, 26#5 ++ 4#5 ++ 15#5 ++ 8#5 ++ 10#4 ++ 5#6 ++ 1#2, .vshuf 4 15 8 10 1),
    (.x, 26#5 ++ 25#5 ++ 1#5 ++ 17#5 ++ 6#4 ++ 6#6 ++ 3#2, .vslide 25 1 17 6 3),
    (.x, 26#5 ++ 28#5 ++ 6#5 ++ 8#5 ++ 11#4 ++ 7#6 ++ 3#2, .vbcst 28 6 8 11 3),
    (.x, 26#5 ++ 9#5 ++ 27#5 ++ 4#5 ++ 8#10 ++ 1#2, .vins 9 27 4 1),
    (.x, 26#5 ++ 6#5 ++ 23#5 ++ 27#5 ++ 9#10 ++ 2#2, .vext 6 23 27 2),
    (.x, 832#10 ++ 7#5 ++ 0#5 ++ 1#4 ++ 10#6 ++ 2#2, .vcmpct 7 1 2),
    (.x, 26#5 ++ 6#5 ++ 0#10 ++ 10#4 ++ 11#6 ++ 2#2, .vcpop 6 10 2),
    (.x, 26#5 ++ 5#5 ++ 0#10 ++ 1#4 ++ 12#6 ++ 3#2, .vcflush 5 1 3)] : List (Seq × IWord × Instr)).all decodesTo = true := by decide

/-- The words of the family VEC3 (R63, R72). -/
theorem test_decode_vec3 : ([
    (.x, 27#5 ++ 4#5 ++ 27#5 ++ 0#5 ++ 6#4 ++ 0#6 ++ 2#2, .vrsum 4 27 6 2),
    (.x, 27#5 ++ 6#5 ++ 11#5 ++ 0#5 ++ 3#4 ++ 1#6 ++ 1#2, .vrmax 6 11 3 1),
    (.x, 27#5 ++ 7#5 ++ 3#5 ++ 0#5 ++ 10#4 ++ 2#6 ++ 2#2, .vrmin 7 3 10 2),
    (.x, 27#5 ++ 3#5 ++ 1#5 ++ 0#5 ++ 5#4 ++ 3#6 ++ 2#2, .vrand 3 1 5 2),
    (.x, 27#5 ++ 12#5 ++ 4#5 ++ 0#5 ++ 6#4 ++ 4#6 ++ 1#2, .vror 12 4 6 1),
    (.x, 27#5 ++ 10#5 ++ 5#5 ++ 7#5 ++ 3#4 ++ 5#6 ++ 2#2, .vdot 10 5 7 3 2),
    (.x, 27#5 ++ 10#5 ++ 26#5 ++ 0#5 ++ 7#4 ++ 6#6 ++ 1#2, .vscan 10 26 7 1),
    (.x, 27#5 ++ 9#5 ++ 2#5 ++ 0#5 ++ 5#4 ++ 7#6 ++ 3#2, .vpcnt 9 2 5 3)] : List (Seq × IWord × Instr)).all decodesTo = true := by decide

/-- The words of the host forms decode to them (R85). -/
theorem test_decode_host : ∀ x ∈ ([
    (0#12 ++ 5#5 ++ 0#2 ++ 1#1 ++ 2#5 ++ 11#7, .cbind 5 1 2),
    (1#7 ++ 14#5 ++ 13#5 ++ 0#2 ++ 1#1 ++ 13#5 ++ 11#7, .cstart 14 13 1 13),
    (64#12 ++ 10#5 ++ 0#2 ++ 1#1 ++ 2#5 ++ 11#7, .cjoin 10 1 2),
    (96#12 ++ 1#5 ++ 0#2 ++ 1#1 ++ 1#5 ++ 11#7, .cquery 1 1 1),
    (16384#19 ++ 1#1 ++ 13#5 ++ 11#7, .cfence 1 13),
    (20480#19 ++ 1#1 ++ 4#5 ++ 11#7, .cpark 1 4),
    (6#7 ++ 11#5 ++ 1#5 ++ 0#2 ++ 1#1 ++ 7#5 ++ 11#7, .ccancel 11 1 1 7),
    (28672#19 ++ 1#1 ++ 2#5 ++ 11#7, .cfree 1 2),
    (8#7 ++ 3#5 ++ 2#5 ++ 0#2 ++ 1#1 ++ 5#5 ++ 11#7, .csignal 3 2 1 5),
    (288#12 ++ 6#5 ++ 0#2 ++ 1#1 ++ 5#5 ++ 11#7, .cvers 6 1 5),
    (10#7 ++ 1#5 ++ 18#5 ++ 0#2 ++ 1#1 ++ 3#5 ++ 11#7, .cfault 1 18 1 3)] : List (IWord × HostForm)), decodeHostForm x.1 = some x.2 := by decide

/-- An instruction with one field outside its limits is ill-formed, one for each limit (R64, R69 to R76, R85). -/
theorem test_illFormed_sys : ([
    .mfs 0 10 0, .mts 0 10 0, .dbgpend 0 4 0, .sev 4 0, .tkcfg 0 0, .ident 0 12 0, .enrd 0 6 0] : List Instr).all (fun i => !i.wellFormed) = true := by decide

/-- An instruction with one field outside its limits is ill-formed, one for each limit (R64, R69 to R76, R85). -/
theorem test_illFormed_alu : ([
    .slli 0 0 64 0, .srli 0 0 64 0, .srai 0 0 64 0] : List Instr).all (fun i => !i.wellFormed) = true := by decide

/-- An instruction with one field outside its limits is ill-formed, one for each limit (R64, R69 to R76, R85). -/
theorem test_illFormed_branch : ([
    .bp 12 0 0, .bnp 12 0 0, .bqpush 12 0] : List Instr).all (fun i => !i.wellFormed) = true := by decide

/-- An instruction with one field outside its limits is ill-formed, one for each limit (R64, R69 to R76, R85). -/
theorem test_illFormed_handle : ([
    .hsetd 0 0 4 0 0, .hsets 0 0 0 0 0, .hsets 0 0 4 0 0, .hgetd 0 8 0 0, .hoff 0 0 4 0 0] : List Instr).all (fun i => !i.wellFormed) = true := by decide

/-- An instruction with one field outside its limits is ill-formed, one for each limit (R64, R69 to R76, R85). -/
theorem test_illFormed_atomic1 : ([
    .ald 0 0 2 0 0, .ald 0 0 0 11 0, .ast 0 0 1 0 0, .ast 0 0 0 11 0, .aswp 0 0 0 5 0 0, .aswp 0 0 0 0 11 0, .acas 0 0 0 5 0 0, .acas 0 0 0 0 11 0,
    .aadd 0 0 0 5 0 0, .aadd 0 0 0 0 11 0, .aand 0 0 0 5 0 0, .aand 0 0 0 0 11 0, .aor 0 0 0 5 0 0, .aor 0 0 0 0 11 0, .axor 0 0 0 5 0 0, .axor 0 0 0 0 11 0,
    .amin 0 0 0 5 0 0, .amin 0 0 0 0 11 0, .amax 0 0 0 5 0 0, .amax 0 0 0 0 11 0, .aminu 0 0 0 5 0 0, .aminu 0 0 0 0 11 0, .amaxu 0 0 0 5 0 0, .amaxu 0 0 0 0 11 0] : List Instr).all (fun i => !i.wellFormed) = true := by decide

/-- An instruction with one field outside its limits is ill-formed, one for each limit (R64, R69 to R76, R85). -/
theorem test_illFormed_atomic2 : ([
    .afadd 0 0 0 5 0, .afadd 0 0 0 0 11, .sigdec 0 0 0 0 0, .sigdec 0 0 0 5 0, .sigdec 0 0 0 2 11, .sigadd 0 0 0 0 0, .sigadd 0 0 0 5 0, .sigadd 0 0 0 2 11,
    .fence 11 1 0, .fence 0 0 0, .fence 0 5 0, .fencee 11 1 1 0, .fencee 0 0 1 0, .fencee 0 5 1 0, .fencee 0 1 0 0, .fencee 0 1 32 0,
    .waitv 11 0 0 0 0, .waitv 0 2 0 0 0, .waitv 0 0 0 6 0] : List Instr).all (fun i => !i.wellFormed) = true := by decide

/-- An instruction with one field outside its limits is ill-formed, one for each limit (R64, R69 to R76, R85). -/
theorem test_illFormed_cask : ([
    .ckfilt 0 0 0 0, .ckfilt 0 0 59 0, .ckrebs 0 0 0 0, .ckrebs 0 0 58 0, .ckpour 0 0 0, .ckpour 0 60 0, .ckpour 0 61 0, .ckinfo 0 5 0 0] : List Instr).all (fun i => !i.wellFormed) = true := by decide

/-- An instruction with one field outside its limits is ill-formed, one for each limit (R64, R69 to R76, R85). -/
theorem test_illFormed_sched : ([
    .glaunch 0 0 0, .glaunch 0 59 0, .gwait 0 0 6 0, .gwait 0 59 0 0, .gcancel 0 0 6 0, .gcancel 0 59 0 0, .gcnt 0 0 6 0, .gcnt 0 59 0 0] : List Instr).all (fun i => !i.wellFormed) = true := by decide

/-- An instruction with one field outside its limits is ill-formed, one for each limit (R64, R69 to R76, R85). -/
theorem test_illFormed_pred : ([
    .pset 12 0 0 0, .pset 0 0 8 0, .pand 12 0 0 0, .pand 0 12 0 0, .pand 0 0 12 0, .por 12 0 0 0, .por 0 12 0 0, .por 0 0 12 0,
    .pxor 12 0 0 0, .pxor 0 12 0 0, .pxor 0 0 12 0, .pnot 12 0 0, .pnot 0 12 0, .pmov 12 0 0, .pmov 0 12 0, .ptos 0 12 0 0,
    .ptos 0 0 16 0, .pall 0 12 0 0, .pall 0 0 4 0, .pany 0 12 0 0, .pany 0 0 4 0] : List Instr).all (fun i => !i.wellFormed) = true := by decide

/-- An instruction with one field outside its limits is ill-formed, one for each limit (R64, R69 to R76, R85). -/
theorem test_illFormed_window : ([
    .loopx 0 0 0, .loopx 0 5 0, .vtag 30 0 0, .vtagr 30 0 0, .vldt 0 0 11 0, .vsts 0 0 11 0, .vldb 0 0 11 0, .vlds 0 0 11 0] : List Instr).all (fun i => !i.wellFormed) = true := by decide

/-- An instruction with one field outside its limits is ill-formed, one for each limit (R64, R69 to R76, R85). -/
theorem test_illFormed_vec1 : ([
    .vadd 0 0 0 12 0, .vsub 0 0 0 12 0, .vmul 0 0 0 12 0, .vfma 0 0 0 12 0, .vfms 0 0 0 12 0, .vmin 0 0 0 12 0, .vmax 0 0 0 12 0, .vabs 0 0 12 0,
    .vneg 0 0 12 0, .vand 0 0 0 12 0, .vor 0 0 0 12 0, .vxor 0 0 0 12 0, .vsll 0 0 0 12 0, .vsrl 0 0 0 12 0, .vsra 0 0 0 12 0, .vcmpeq 12 0 0 0 0,
    .vcmpeq 0 0 0 12 0, .vcmplt 12 0 0 0 0, .vcmplt 0 0 0 12 0, .vcmple 12 0 0 0 0, .vcmple 0 0 0 12 0, .vsel 0 0 0 12 0, .vmov 0 0 12 0, .vsat 0 0 0 12 0] : List Instr).all (fun i => !i.wellFormed) = true := by decide

/-- An instruction with one field outside its limits is ill-formed, one for each limit (R64, R69 to R76, R85). -/
theorem test_illFormed_vec2 : ([
    .vaddsat 0 0 0 12 0, .vrcp 0 0 12 0, .vsqrt 0 0 12 0, .vrsqrt 0 0 12 0, .vexp2 0 0 12 0, .vlog2 0 0 12 0, .vexp 0 0 12 0, .vtanh 0 0 12 0,
    .vsigm 0 0 12 0, .vgelu 0 0 12 0, .vsilu 0 0 12 0, .vcvt 0 0 0 0 0, .vcvt 0 0 19 0 0, .vcvt 0 0 1 12 0, .vcvtr 0 0 0 0 0 0, .vcvtr 0 0 1 0 12 0,
    .vqmx 0 0 0 5 0, .vdqmx 0 0 0 3 0, .vperm 0 0 0 12 0, .vshuf 0 0 0 12 0, .vslide 0 0 0 12 0, .vbcst 0 0 0 12 0, .vcmpct 0 12 0, .vcpop 0 12 0] : List Instr).all (fun i => !i.wellFormed) = true := by decide

/-- An instruction with one field outside its limits is ill-formed, one for each limit (R64, R69 to R76, R85). -/
theorem test_illFormed_vec3 : ([
    .vcflush 0 12 0, .vrsum 0 0 12 0, .vrmax 0 0 12 0, .vrmin 0 0 12 0, .vrand 0 0 12 0, .vror 0 0 12 0, .vdot 0 0 0 12 0, .vscan 0 0 12 0,
    .vpcnt 0 0 12 0] : List Instr).all (fun i => !i.wellFormed) = true := by decide

/-- An instruction with one field outside its limits is ill-formed, one for each limit (R64, R69 to R76, R85). -/
theorem test_illFormed_host : ([
    .cbind 0 0 1, .cstart 0 0 0 1, .cjoin 0 0 1, .cquery 0 0 1, .cfence 0 1, .cpark 0 1, .ccancel 0 0 0 1, .cfree 0 1,
    .csignal 0 0 0 1, .cvers 0 0 1, .cfault 0 0 0 1] : List Instr).all (fun i => !i.wellFormed) = true := by decide

/-- A queue that a sequencer may not name, an instruction of another sequencer, and an instruction that no sequencer takes are refused (R77 to R80). -/
theorem test_illFormed_sequencer : ([
    (.c, .tkpush 0 0), (.l, .tkpush 1 0), (.c, .tkpush 4 0), (.x, .tkpop 6 0), (.c, .tkpop 3 0), (.s, .tkcnt 1 3 0), (.c, .tkcnt 1 8 0), (.c, .qpeek 1 9 0),
    (.c, .qcnt 1 10 0), (.s, .qcnt 1 12 0), (.c, .qsquash 11 0), (.l, .qfmt 1 11 0), (.c, .qfmt 1 9 0), (.x, .qsel 2 0), (.c, .qsel 4 0), (.c, .bqpush 1 0),
    (.x, .qwait 16 0), (.s, .qwait 17 0), (.l, .epop 1 18 0), (.c, .epop 1 12 0), (.l, .pace 1 20 0), (.c, .pace 1 8 0), (.l, .fencee 3 2 4 0),
    (.x, .ld 1 2 0 3 0)] : List (Seq × Instr)).all (fun x => !(x.2.legalIn x.1)) = true := by decide

/-- The same forms are accepted where the tables allow them. -/
theorem test_wellFormed_sequencer : ([
    (.c, .tkpush 1 0), (.l, .tkpop 4 0), (.s, .tkcnt 1 2 0), (.x, .qpeek 1 12 0), (.x, .qfmt 1 11 0), (.c, .qsel 1 0), (.l, .bqpush 11 0), (.s, .qwait 16 0),
    (.c, .epop 1 20 0), (.l, .pace 1 17 0), (.c, .fencee 3 2 31 0), (.l, .vld 30 1 0 0), (.s, .vst 30 1 0 0), (.x, .pset 1 2 7 0)] :
    List (Seq × Instr)).all (fun x => x.2.legalIn x.1) = true := by decide

/-- The least number divided by −1 wraps to itself, and a division by 0 gives all ones with the dividend left as the remainder (R143). -/
theorem test_div_corners : aluDiv 0x8000000000000000 0xFFFFFFFFFFFFFFFF = 0x8000000000000000 ∧ aluDiv 5 0 = 0xFFFFFFFFFFFFFFFF ∧ aluRem 5 0 = 5 ∧
    aluRem 0xFFFFFFFFFFFFFFF9 2 = 0xFFFFFFFFFFFFFFFF := by decide

/-- The high half of (−1) × (−1), signed and unsigned (R143). -/
theorem test_mulh : aluMulh 0xFFFFFFFFFFFFFFFF 0xFFFFFFFFFFFFFFFF = 0 ∧ aluMulhu 0xFFFFFFFFFFFFFFFF 0xFFFFFFFFFFFFFFFF = 0xFFFFFFFFFFFFFFFE := by decide

/-- A 32-bit sum wraps and is sign-extended (R143). -/
theorem test_addw_wraps : aluAddw 0x7FFFFFFF 1 = 0xFFFFFFFF80000000 := by decide

/-- 1 + 2^−24 is a tie that goes to the even 1, and the next odd number's to the even above it, in `f32` by hand (R99). -/
theorem test_f32_ties : (laneAdd 8 0x3F800000 0x33800000).1 = 0x3F800000 ∧ (laneAdd 8 0x3F800001 0x33800000).1 = 0x3F800002 := by decide

/-- (1 + 2^−23)(1 − 2^−23) − 1 rounds once, to −2^−46 (R219). -/
theorem test_fma_once : (laneFma false 8 0x3F800001 0x3F7FFFFE 0xBF800000).1 = 0xA8800000 := by decide

/-- An arithmetic shift by the width or more leaves the sign, a logical one 0 (R219). -/
theorem test_lane_shift : (laneSra 1 0x80 8).1 = 0xFF ∧ (laneSrl 1 0x80 8).1 = 0 ∧ (laneSll 1 1 8).1 = 0 := by decide

/-- 127 + 1 in `i8` saturates (R92). -/
theorem test_addsat : (laneAddsat 1 127 1).1 = 127 ∧ (laneAddsat 1 0x80 0xFF).1 = 0x80 := by decide

/-- A unit whose sequencer q acts, with one word for its stream. -/
theorem wit_ScalarSourcesByName :
    (∃ s : State, (getSeq s 0 .c).dq.dqin = [] ∧ (getSeq s 0 .c).dbg.getLsbD 0 = false) ∧
    ∃ (s : State) (e : DqIn), (getSeq s 0 .c).dq.dqin = [e] ∧ e.acq = none ∧ (getSeq s 0 .c).dq.src = 0 ∧ (getSeq s 0 .c).dq.snk = 0 :=
  ⟨⟨at0 .c (.nop 0), rfl, rfl⟩,
    ⟨modSeq (at0 .c (.nop 0)) 0 .c fun c => { c with dq := { c.dq with dqin := [{ val := 7, acq := none }] } }, _, rfl, rfl, rfl, rfl⟩⟩

theorem wit_ScalarResultsGoInFlight :
    (∃ s : State, 16 ≤ (getSeq s 0 .c).dq.dqout.length) ∧ ∃ s : State, (getSeq s 0 .c).dq.dqout.length < 16 :=
  ⟨⟨modSeq (at0 .c (.nop 0)) 0 .c fun c => { c with dq := { c.dq with dqout := List.replicate 16 { rid := 0, target := .l, val := none } } },
    by decide⟩, ⟨at0 .c (.nop 0), by decide⟩⟩

theorem wit_AluRegisterResults :
    (∃ s p t0 t x y, Issues s (.div 3 1 2 0) 0 p ∧ rs2 (issueCtx s (.div 3 1 2 0) 0) 1#6 2#6 (bodyState s p) = .ok ((x, y), t0) ∧
      landScalar (issueCtx s (.div 3 1 2 0) 0) 3 5 18 t0 = .ok ((), t)) ∧
    ∃ s p t0 t x, Issues s (.clz 61 1 0) 0 p ∧ rs (issueCtx s (.clz 61 1 0) 0) 1#6 (bodyState s p) = .ok (x, t0) ∧
      landScalar (issueCtx s (.clz 61 1 0) 0) 61 5 1 t0 = .ok ((), t) :=
  ⟨⟨at0 .c (.div 3 1 2 0), at0 .c (.div 3 1 2 0), _, _, _, _, issuesAt0 (by decide), rfl, rfl⟩,
   ⟨at0 .c (.clz 61 1 0), at0 .c (.clz 61 1 0), _, _, _, issuesAt0 (by decide), rfl, rfl⟩⟩

theorem wit_AluImmediateResults :
    (∃ s p t0 t x, Issues s (.slli 3 1 63 0) 0 p ∧ rs (issueCtx s (.slli 3 1 63 0) 0) 1#6 (bodyState s p) = .ok (x, t0) ∧
      landScalar (issueCtx s (.slli 3 1 63 0) 0) 3 5 1 t0 = .ok ((), t)) ∧
    (∃ s p t, Issues s (.movhi 3 1 0) 0 p ∧ landScalar (issueCtx s (.movhi 3 1 0) 0) 3 1024 1 (bodyState s p) = .ok ((), t)) ∧
    ∃ s : State, canIssue s s.cur.uid s.cur.q = true ∧ (getSeq s.flushed s.cur.uid s.cur.q).fl.pushes = [] ∧ 64 ≤ (64#10).toNat :=
  ⟨⟨at0 .c (.slli 3 1 63 0), at0 .c (.slli 3 1 63 0), _, _, _, issuesAt0 (by decide), rfl, rfl⟩,
   ⟨at0 .c (.movhi 3 1 0), at0 .c (.movhi 3 1 0), _, issuesAt0 (by decide), rfl⟩,
   ⟨at0 .c (.nop 0), by decide, by decide, by decide⟩⟩

theorem wit_SystemReadsReturnTheirRegister :
    (∃ s p t, Issues s (.mfs 3 9 0) 0 p ∧ landScalar (issueCtx s (.mfs 3 9 0) 0) 3 1 1 (bodyState s p) = .ok ((), t)) ∧
    (∃ s p t, Issues s (.vcyc 61 0) 0 p ∧ landScalar (issueCtx s (.vcyc 61 0) 0) 61 0 1 (bodyState s p) = .ok ((), t)) ∧
    (∃ s p t, Issues s (.ident 3 11 0) 0 p ∧ landScalar (issueCtx s (.ident 3 11 0) 0) 3 0 1 (bodyState s p) = .ok ((), t)) ∧
    ∃ s p t, Issues s (.gceil 3 0) 0 p ∧ landScalar (issueCtx s (.gceil 3 0) 0) 3 0x604B00640 1 (bodyState s p) = .ok ((), t) ∧
      (0x604B00640#64).extractLsb' 0 16 = BitVec.ofNat 16 (bodyState s p).group.ceiling ∧
      (0x604B00640#64).extractLsb' 16 16 = BitVec.ofNat 16 (effectiveClock (bodyState s p) ((getUnit (bodyState s p) s.cur.uid).place.core / 4)) ∧
      (0x604B00640#64).extractLsb' 32 3 = BitVec.ofNat 3 (bodyState s p).group.state ∧ (0x604B00640#64).extractLsb' 35 29 = 0 :=
  ⟨⟨at0 .c (.mfs 3 9 0), at0 .c (.mfs 3 9 0), _, issuesAt0 (by decide), rfl⟩,
   ⟨at0 .x (.vcyc 61 0), at0 .x (.vcyc 61 0), _, issuesAt0 (by decide), rfl⟩,
   ⟨at0 .s (.ident 3 11 0), at0 .s (.ident 3 11 0), _, issuesAt0 (by decide), rfl⟩,
   ⟨at0 .c (.gceil 3 0), at0 .c (.gceil 3 0), _, issuesAt0 (by decide), rfl, by decide, by decide, by decide, by decide⟩⟩

theorem wit_EnergyReadings :
    ∃ s p t, Issues s (.enrd 61 4 0) 0 p ∧
      landScalar (issueCtx s (.enrd 61 4 0) 0) 61 (BitVec.ofNat 64 (unspent (bodyState s p) 0 [0, 1])) 1 (bodyState s p) = .ok ((), t) :=
  ⟨at0 .c (.enrd 61 4 0), at0 .c (.enrd 61 4 0), _, issuesAt0 (by decide), rfl⟩

theorem wit_SystemWordsChangeTheirRegister :
    (∃ s p t x, Issues s (.mts 1 8 0) 0 p ∧ rsFlags (issueCtx s (.mts 1 8 0) 0) 1#6 (bodyState s p) = .ok (x, t)) ∧
    (∃ s p, Issues s (.sev 11 0) 0 p) ∧ (∃ s p, Issues s (.tkcfg 25 0) 0 p) ∧
    (∃ s p t x, Issues s (.pace 1 20 0) 0 p ∧ rs (issueCtx s (.pace 1 20 0) 0) 1#6 (bodyState s p) = .ok (x, t)) ∧
    (∃ s p, Issues s (.halt 0) 0 p) ∧ (∃ s p, Issues s (.nop 0) 0 p) ∧
    ∃ s p t, Issues s (.dbgpend 3 3 0) 0 p ∧ landScalar (issueCtx s (.dbgpend 3 3 0) 0) 3 0 1 (bodyState s p) = .ok ((), t) :=
  ⟨⟨at0 .x (.mts 1 8 0), at0 .x (.mts 1 8 0), _, _, issuesAt0 (by decide), rfl⟩, ⟨at0 .c (.sev 11 0), _, issuesAt0 (by decide)⟩,
   ⟨at0 .l (.tkcfg 25 0), _, issuesAt0 (by decide)⟩,
   ⟨at0 .c (.pace 1 20 0), at0 .c (.pace 1 20 0), _, _, issuesAt0 (by decide), rfl⟩,
   ⟨at0 .c (.halt 0), _, issuesAt0 (by decide)⟩, ⟨at0 .c (.nop 0), _, issuesAt0 (by decide)⟩,
   ⟨at0 .c (.dbgpend 3 3 0), at0 .c (.dbgpend 3 3 0), _, issuesAt0 (by decide), rfl⟩⟩

theorem wit_BranchesFollowTheirCondition :
    (∃ s p t v, Issues s (.beqz 1 0 0) 0 p ∧ rs (issueCtx s (.beqz 1 0 0) 0) 1#6 (bodyState s p) = .ok (v, t) ∧ (v == 0) = true ∧
      s.hasCode (s.here + 4 * (0#15).signExtend 64)) ∧
    (∃ s p t v, Issues s (.bltz 1 1 0) 0 p ∧ rs (issueCtx s (.bltz 1 1 0) 0) 1#6 (bodyState s p) = .ok (v, t) ∧ v.slt 0 = false) ∧
    (∃ s p t v, Issues s (.bgez 1 1 0) 0 p ∧ rs (issueCtx s (.bgez 1 1 0) 0) 1#6 (bodyState s p) = .ok (v, t) ∧ (!v.slt 0) = true ∧
      ¬ s.hasCode (s.here + 4 * (1#15).signExtend 64)) ∧
    (∃ s p t v, Issues s (.bp 1 0 0) 0 p ∧ rp (issueCtx s (.bp 1 0 0) 0) 1#6 (bodyState s p) = .ok (v, t) ∧ v.getLsbD 0 = true ∧
      s.hasCode (s.here + 4 * (0#15).signExtend 64)) ∧
    (∃ s p, Issues s (.bq 0 0) 0 p ∧ (getUnit (bodyState s p) s.cur.uid).bq = []) ∧
    ∃ s p, Issues s (.bnq 0 0) 0 p ∧ (getUnit (bodyState s p) s.cur.uid).bq = [false] :=
  ⟨⟨at0 .c (.beqz 1 0 0), at0 .c (.beqz 1 0 0), _, _, issuesAt0 (by decide), rfl, by decide, by decide⟩,
   ⟨at0 .l (.bltz 1 1 0), at0 .l (.bltz 1 1 0), _, _, issuesAt0 (by decide), rfl, by decide⟩,
   ⟨at0 .s (.bgez 1 1 0), at0 .s (.bgez 1 1 0), _, _, issuesAt0 (by decide), rfl, by decide, by decide⟩,
   ⟨withPred (at0 .c (.bp 1 0 0)) .c 1 1, withPred (at0 .c (.bp 1 0 0)) .c 1 1, _, _, issuesAt0 (by decide), rfl, by decide +kernel, by decide⟩,
   ⟨at0 .x (.bq 0 0), at0 .x (.bq 0 0), issuesAt0 (by decide), rfl⟩,
   ⟨modUnit (at0 .x (.bnq 0 0)) 0 fun u => { u with bq := [false] }, _, issuesAt0 (by decide), rfl⟩⟩

theorem wit_JumpsGoToTheirTarget :
    (∃ s p, Issues s (.jmp 0 0) 0 p ∧ s.hasCode (s.here + 4 * (0#25).signExtend 64)) ∧
    (∃ s p, Issues s (.jmp 1 0) 0 p ∧ ¬ s.hasCode (s.here + 4 * (1#25).signExtend 64)) ∧
    (∃ s p t, Issues s (.call 0 0) 0 p ∧ s.hasCode (s.here + 4 * (0#25).signExtend 64) ∧
      landScalar { issueCtx s (.call 0 0) 0 with push := none } 62 (s.here + 4) 1 ((bodyState s p).goes (s.here + 4 * (0#25).signExtend 64)) =
        .ok ((), t)) ∧
    ∃ s p t0 t, Issues s (.jr 61 0 0 0) 0 p ∧ rs (issueCtx s (.jr 61 0 0 0) 0) 0#6 (bodyState s p) = .ok (0, t0) ∧
      s.hasCode (0 + 0 + 4 * (0#10).signExtend 64) ∧
      landScalar { issueCtx s (.jr 61 0 0 0) 0 with push := none } 61 (s.here + 4) 1 (t0.goes (0 + 0 + 4 * (0#10).signExtend 64)) = .ok ((), t) :=
  ⟨⟨at0 .c (.jmp 0 0), at0 .c (.jmp 0 0), issuesAt0 (by decide), by decide⟩,
   ⟨at0 .c (.jmp 1 0), at0 .c (.jmp 1 0), issuesAt0 (by decide), by decide⟩,
   ⟨at0 .l (.call 0 0), at0 .l (.call 0 0), _, issuesAt0 (by decide), by decide, rfl⟩,
   ⟨at0 .s (.jr 61 0 0 0), at0 .s (.jr 61 0 0 0), _, _, issuesAt0 (by decide), rfl, by decide, rfl⟩⟩

theorem wit_PredicateWordsComputeTheirBits :
    (∃ s p t0 t1 t x y, Issues s (.pand 1 0 2 0) 0 p ∧ rp (issueCtx s (.pand 1 0 2 0) 0) 0#6 (bodyState s p) = .ok (x, t0) ∧
      rp (issueCtx s (.pand 1 0 2 0) 0) 2#6 t0 = .ok (y, t1) ∧ landPred (issueCtx s (.pand 1 0 2 0) 0) 1 0 2 t1 = .ok ((), t)) ∧
    (∃ s p t0 t x, Issues s (.pnot 1 0 0) 0 p ∧ rp (issueCtx s (.pnot 1 0 0) 0) 0#6 (bodyState s p) = .ok (x, t0) ∧
      landPred (issueCtx s (.pnot 1 0 0) 0) 1 0 1 t0 = .ok ((), t)) ∧
    (∃ s p t0 t v, Issues s (.pset 1 0 7 0) 0 p ∧ rs (issueCtx s (.pset 1 0 7 0) 0) 0#6 (bodyState s p) = .ok (v, t0) ∧ v = 0 ∧
      landPred (issueCtx s (.pset 1 0 7 0) 0) 1 0 2 t0 = .ok ((), t)) ∧
    (∃ s p t0 t x, Issues s (.ptos 3 2 15 0) 0 p ∧ rp (issueCtx s (.ptos 3 2 15 0) 0) 2#6 (bodyState s p) = .ok (x, t0) ∧ keptBits s.cur.q x = 0 ∧
      landScalar (issueCtx s (.ptos 3 2 15 0) 0) 3 0 2 t0 = .ok ((), t)) ∧
    ∃ s p t0 t x, Issues s (.pall 3 0 3 0) 0 p ∧ rp (issueCtx s (.pall 3 0 3 0) 0) 0#6 (bodyState s p) = .ok (x, t0) ∧
      landScalar (issueCtx s (.pall 3 0 3 0) 0) 3 1 2 t0 = .ok ((), t) :=
  ⟨⟨at0 .x (.pand 1 0 2 0), at0 .x (.pand 1 0 2 0), _, _, _, _, _, issuesAt0 (by decide), rfl, rfl, rfl⟩,
   ⟨at0 .c (.pnot 1 0 0), at0 .c (.pnot 1 0 0), _, _, _, issuesAt0 (by decide), rfl, rfl⟩,
   ⟨at0 .x (.pset 1 0 7 0), at0 .x (.pset 1 0 7 0), _, _, _, issuesAt0 (by decide), rfl, rfl, rfl⟩,
   ⟨at0 .x (.ptos 3 2 15 0), at0 .x (.ptos 3 2 15 0), _, _, _, issuesAt0 (by decide), rfl, rfl, rfl⟩,
   ⟨at0 .x (.pall 3 0 3 0), at0 .x (.pall 3 0 3 0), _, _, _, issuesAt0 (by decide), rfl, rfl⟩⟩

theorem wit_LoadsExtendWhatTheyRead :
    (∃ s p t0 t1 t base bs, Issues s (.lds 3 1 0 1 0) 0 p ∧ rs (issueCtx s (.lds 3 1 0 1 0) 0) 1#6 (bodyState s p) = .ok (base, t0) ∧
      loadBytes (issueCtx s (.lds 3 1 0 1 0) 0) (base + (0#11).signExtend 64 * BitVec.ofNat 64 2) 2 t0 = .ok (bs, t1) ∧ bs = [0x04, 0x80] ∧
      landScalar (issueCtx s (.lds 3 1 0 1 0) 0) 3 0xFFFFFFFFFFFF8004 4 t1 = .ok ((), t)) ∧
    ∃ s p t0 t base v, Issues s (.st 3 1 0 0 0) 0 p ∧ rs2 (issueCtx s (.st 3 1 0 0 0) 0) 1#6 3#6 (bodyState s p) = .ok ((base, v), t0) ∧
      v = 0x123 ∧ writeBytes (issueCtx s (.st 3 1 0 0 0) 0) (base + (0#11).signExtend 64 * BitVec.ofNat 64 1) 0 [0x23] t0 = .ok ((), t) :=
  ⟨⟨withReg (at0 .c (.lds 3 1 0 1 0)) .c 1 0x10000, withReg (at0 .c (.lds 3 1 0 1 0)) .c 1 0x10000, _, _, _, _, _, issuesAt0 (by decide), rfl,
      rfl, by decide, rfl⟩,
   ⟨withReg (withReg (at0 .c (.st 3 1 0 0 0)) .c 1 0x10000) .c 3 0x123, withReg (withReg (at0 .c (.st 3 1 0 0 0)) .c 1 0x10000) .c 3 0x123,
      _, _, _, _, issuesAt0 (by decide), rfl, rfl, rfl⟩⟩

theorem wit_TrapWordsEnterTheHandler :
    (∃ s, canIssue s s.cur.uid s.cur.q = true ∧ s.flushed.acting.fl.pushes = []) ∧
    (∃ s p, Issues s (.trap 5 0) 0 p ∧
      (getSeq (endWord s (.trap 5 0) 0 false (bodyState s p)) s.cur.uid s.cur.q).tr.tvec ≠ BitVec.allOnes 64 ∧
      (getSeq (endWord s (.trap 5 0) 0 false (bodyState s p)) s.cur.uid s.cur.q).tr.tstat.getLsbD 0 = false) ∧
    (∃ s p, Issues s (.rett 0) 0 p ∧ (getSeq (bodyState s p) s.cur.uid s.cur.q).tr.tepc = 0 ∧
      0 < (getSeq (bodyState s p) s.cur.uid s.cur.q).streamSize ∧ (getSeq (bodyState s p) s.cur.uid s.cur.q).tr.tstat.getLsbD 0 = true) ∧
    (∃ s p, Issues s (.bkpt 5 0) 0 p ∧ (getUnit s s.cur.uid).debugger = true) ∧
    (∃ s p, Issues s (.wfe 0) 0 p ∧ (getSeq (bodyState s p) s.cur.uid s.cur.q).event = false) ∧
    ∃ s p, Issues s (.wfe 0) 0 p ∧ (getSeq (bodyState s p) s.cur.uid s.cur.q).event = true :=
  ⟨⟨at0 .c (.ill 1 2 3 0), by decide, by decide⟩,
   ⟨modSeq (at0 .c (.trap 5 0)) 0 .c fun c => { c with tr := { c.tr with tvec := 0 } }, _, issuesAt0 (by decide), by decide, by decide⟩,
   ⟨modSeq (at0 .c (.rett 0)) 0 .c fun c => { c with tr := { c.tr with tstat := 1 } }, _, issuesAt0 (by decide), by decide, by decide, by decide⟩,
   ⟨modUnit (at0 .c (.bkpt 5 0)) 0 fun u => { u with debugger := true }, _, issuesAt0 (by decide), by decide⟩,
   ⟨at0 .c (.wfe 0), _, issuesAt0 (by decide), by decide⟩,
   ⟨modSeq (at0 .c (.wfe 0)) 0 .c fun c => { c with event := true }, _, issuesAt0 (by decide), by decide⟩⟩

theorem wit_TakingATrapSavesAndEnters :
    ∃ s : State, (getSeq s 0 .c).tr.tvec ≠ BitVec.allOnes 64 ∧ (getSeq s 0 .c).tr.tstat.getLsbD 0 = false :=
  ⟨modSeq (at0 .c (.trap 5 0)) 0 .c fun c => { c with tr := { c.tr with tvec := 0 } }, by decide, by decide⟩

theorem wit_TokenWordsMoveOneToken :
    (∃ s p, Issues s (.tkpush 1 0) 0 p ∧ (tokensOf (getUnit (performAll (bodyState s p) 0 .c) 0) .c .l).length < 15) ∧
    (∃ s p, Issues s (.tkpush 1 0) 0 p ∧ 15 ≤ (tokensOf (getUnit (performAll (bodyState s p) 0 .c) 0) .c .l).length) ∧
    (∃ s p, Issues s (.tkpop 7 0) 0 p ∧ tokensOf (getUnit (bodyState s p) 0) .s .c = []) ∧
    ∃ s p, Issues s (.tkpop 7 0) 0 p ∧ tokensOf (getUnit (bodyState s p) 0) .s .c = [aToken] :=
  ⟨⟨at0 .c (.tkpush 1 0), _, issuesAt0 (by decide), by decide⟩,
   ⟨modUnit (at0 .c (.tkpush 1 0)) 0 fun u => setTokens u .c .l (List.replicate 15 aToken), _, issuesAt0 (by decide), by decide⟩,
   ⟨at0 .c (.tkpop 7 0), _, issuesAt0 (by decide), by decide⟩,
   ⟨modUnit (at0 .c (.tkpop 7 0)) 0 fun u => setTokens u .s .c [aToken], _, issuesAt0 (by decide), by decide⟩⟩

theorem wit_QueueReadsShowTheirQueue :
    (∃ s p t, Issues s (.qcnt 3 12 0) 0 p ∧ QueueHolds (getUnit (bodyState s p) s.cur.uid) s.cur.q 12 0 ∧
      landScalar (issueCtx s (.qcnt 3 12 0) 0) 3 0 1 (bodyState s p) = .ok ((), t)) ∧
    (∃ s p, Issues s (.qpeek 3 12 0) 0 p ∧ (getUnit (bodyState s p) s.cur.uid).bq = []) ∧
    (∃ s p t, Issues s (.qpeek 3 12 0) 0 p ∧ (getUnit (bodyState s p) s.cur.uid).bq = [true] ∧
      landScalar (issueCtx s (.qpeek 3 12 0) 0) 3 1 1 (bodyState s p) = .ok ((), t)) ∧
    (∃ s p, Issues s (.epop 3 16 0) 0 p ∧ ((getSeq (bodyState s p) s.cur.uid s.cur.q).eq .copy).results = [{ word := 9, rel := none }]) ∧
    (∃ s p, Issues s (.qwait 9 0) 0 p ∧ QueueIsReady (bodyState s p) s.cur.uid s.cur.q 9) ∧
    (∃ s p, Issues s (.qwait 8 0) 0 p ∧ ¬ QueueIsReady (bodyState s p) s.cur.uid s.cur.q 8) ∧
    ∃ s p t m, Issues s (.bqpush 1 0) 0 p ∧ rp (issueCtx s (.bqpush 1 0) 0) 1#6 (bodyState s p) = .ok (m, t) ∧ (getUnit t s.cur.uid).bq.length < 64 :=
  ⟨⟨at0 .x (.qcnt 3 12 0), at0 .x (.qcnt 3 12 0), _, issuesAt0 (by decide), by simp [QueueHolds, engineQueues]; decide, rfl⟩,
   ⟨at0 .x (.qpeek 3 12 0), at0 .x (.qpeek 3 12 0), issuesAt0 (by decide), rfl⟩,
   ⟨modUnit (at0 .x (.qpeek 3 12 0)) 0 fun u => { u with bq := [true] }, modUnit (at0 .x (.qpeek 3 12 0)) 0 fun u => { u with bq := [true] }, _,
     issuesAt0 (by decide), rfl, rfl⟩,
   ⟨modEq (at0 .c (.epop 3 16 0)) 0 .c .copy fun e => { e with results := [{ word := 9, rel := none }] }, _, issuesAt0 (by decide), rfl⟩,
   ⟨at0 .c (.qwait 9 0), at0 .c (.qwait 9 0), issuesAt0 (by decide), by simp [QueueIsReady, engineQueues]; decide⟩,
   ⟨at0 .c (.qwait 8 0), at0 .c (.qwait 8 0), issuesAt0 (by decide), fun h => h.2.2.1 rfl rfl⟩,
   ⟨at0 .l (.bqpush 1 0), at0 .l (.bqpush 1 0), _, _, issuesAt0 (by decide), rfl, by decide⟩⟩

theorem wit_QueueWordsSetTheirQueue :
    (∃ s p, Issues s (.qsquash 12 0) 0 p) ∧ (∃ s p, Issues s (.qsquash 16 0) 0 p) ∧
    (∃ s p t v, Issues s (.qfmt 1 8 0) 0 p ∧ rs (issueCtx s (.qfmt 1 8 0) 0) 1#6 (bodyState s p) = .ok (v, t) ∧ v = 0x0101 ∧
      qfmtLegal false 1 1 = true) ∧
    (∃ s p t v, Issues s (.qfmt 1 8 0) 0 p ∧ rs (issueCtx s (.qfmt 1 8 0) 0) 1#6 (bodyState s p) = .ok (v, t) ∧ v = 0x1208 ∧
      qfmtLegal false 8 18 = false) ∧
    ∃ s p, Issues s (.qsel 2 0) 0 p :=
  ⟨⟨at0 .x (.qsquash 12 0), _, issuesAt0 (by decide)⟩, ⟨at0 .c (.qsquash 16 0), _, issuesAt0 (by decide)⟩,
   ⟨withReg (at0 .c (.qfmt 1 8 0)) .c 1 0x0101, withReg (at0 .c (.qfmt 1 8 0)) .c 1 0x0101, _, _, issuesAt0 (by decide), rfl, rfl, by decide⟩,
   ⟨withReg (at0 .c (.qfmt 1 8 0)) .c 1 0x1208, withReg (at0 .c (.qfmt 1 8 0)) .c 1 0x1208, _, _, issuesAt0 (by decide), rfl, rfl, by decide⟩,
   ⟨at0 .c (.qsel 2 0), _, issuesAt0 (by decide)⟩⟩

theorem wit_HandleWordsChangeTheirFields :
    (∃ s p t0 t h, Issues s (.hmov 1 2 0) 0 p ∧ rh (issueCtx s (.hmov 1 2 0) 0) 2 (bodyState s p) = .ok (h, t0) ∧
      landHandle (issueCtx s (.hmov 1 2 0) 0) 1 h 1 t0 = .ok ((), t)) ∧
    (∃ s p t, Issues s (.hclr 1 0) 0 p ∧ landHandle (issueCtx s (.hclr 1 0) 0) 1 0 1 (bodyState s p) = .ok ((), t)) ∧
    (∃ s p t0 t1 t h v, Issues s (.hsetd 1 2 3 4 0) 0 p ∧ rh (issueCtx s (.hsetd 1 2 3 4 0) 0) 2 (bodyState s p) = .ok (h, t0) ∧
      rs (issueCtx s (.hsetd 1 2 3 4 0) 0) 4#6 t0 = .ok (v, t1) ∧ v = 65536 ∧ landHandle (issueCtx s (.hsetd 1 2 3 4 0) 0) 1 0 1 t1 = .ok ((), t)) ∧
    (∃ s p t0 t h, Issues s (.hgetd 2 3 4 0) 0 p ∧ rh (issueCtx s (.hgetd 2 3 4 0) 0) 2 (bodyState s p) = .ok (h, t0) ∧ h = 0 ∧
      landScalar (issueCtx s (.hgetd 2 3 4 0) 0) 4 65536 1 t0 = .ok ((), t)) ∧
    (∃ s p t0 t h, Issues s (.hchk 2 4 0) 0 p ∧ rh (issueCtx s (.hchk 2 4 0) 0) 2 (bodyState s p) = .ok (h, t0) ∧
      landScalar (issueCtx s (.hchk 2 4 0) 0) 4 (checkWord t0 s.cur.uid s.cur.q h) 1 t0 = .ok ((), t)) :=
  ⟨⟨at0 .c (.hmov 1 2 0), at0 .c (.hmov 1 2 0), _, _, _, issuesAt0 (by decide), rfl, rfl⟩,
   ⟨at0 .c (.hclr 1 0), at0 .c (.hclr 1 0), _, issuesAt0 (by decide), rfl⟩,
   ⟨withReg (at0 .c (.hsetd 1 2 3 4 0)) .c 4 65536, withReg (at0 .c (.hsetd 1 2 3 4 0)) .c 4 65536, _, _, _, _, _, issuesAt0 (by decide), rfl, rfl, rfl, rfl⟩,
   ⟨at0 .c (.hgetd 2 3 4 0), at0 .c (.hgetd 2 3 4 0), _, _, _, issuesAt0 (by decide), rfl, rfl, rfl⟩,
   ⟨at0 .c (.hchk 2 4 0), at0 .c (.hchk 2 4 0), _, _, _, issuesAt0 (by decide), rfl, rfl⟩⟩


theorem wit_HandleWordsChangeTheirFields_hld :
    ∃ s p t0 t1 t va bs, Issues s (.hld 1 4 0) 0 p ∧ rs (issueCtx s (.hld 1 4 0) 0) 4#6 (bodyState s p) = .ok (va, t0) ∧ va.toNat % 32 = 0 ∧
      loadBytes (issueCtx s (.hld 1 4 0) 0) va 32 t0 = .ok (bs, t1) ∧ landHandle (issueCtx s (.hld 1 4 0) 0) 1 0 4 t1 = .ok ((), t) :=
  ⟨withReg (at0 .c (.hld 1 4 0)) .c 4 0x10000, withReg (at0 .c (.hld 1 4 0)) .c 4 0x10000, _, _, _, _, _, issuesAt0 (by decide), rfl, by decide, rfl, rfl⟩

theorem wit_HandleWordsChangeTheirFields_hst :
    ∃ s p t0 t1 va h, Issues s (.hst 2 4 0) 0 p ∧ rh (issueCtx s (.hst 2 4 0) 0) 2 (bodyState s p) = .ok (h, t0) ∧ h = 0 ∧
      rs (issueCtx s (.hst 2 4 0) 0) 4#6 t0 = .ok (va, t1) ∧ va.toNat % 32 = 0 ∧
      ∃ u t, writeBytes (issueCtx s (.hst 2 4 0) 0) va 1 (List.replicate 32 0) t1 = .ok (u, t) :=
  ⟨withReg (at0 .c (.hst 2 4 0)) .c 4 0x10000, withReg (at0 .c (.hst 2 4 0)) .c 4 0x10000, _, _, _, _, issuesAt0 (by decide), rfl, rfl, rfl,
    by decide, okOf (by decide +kernel)⟩

theorem wit_HandleOffsetsMoveTheBase :
    (∃ s p t0 t1 t h v, Issues s (.hoff 1 2 0 4 0) 0 p ∧ rh (issueCtx s (.hoff 1 2 0 4 0) 0) 2 (bodyState s p) = .ok (h, t0) ∧
      rs (issueCtx s (.hoff 1 2 0 4 0) 0) 4#6 t0 = .ok (v, t1) ∧ hasElements h = true ∧ v = 3 ∧
      landHandle (issueCtx s (.hoff 1 2 0 4 0) 0) 1 (withField h 0 64 3) 1 t1 = .ok ((), t)) ∧
    (∃ s p t0 t1 t h v, Issues s (.hsub 1 2 4 0) 0 p ∧ rh (issueCtx s (.hsub 1 2 4 0) 0) 2 (bodyState s p) = .ok (h, t0) ∧
      rs (issueCtx s (.hsub 1 2 4 0) 0) 4#6 t0 = .ok (v, t1) ∧ hasElements h = true ∧ v = 0 ∧
      (∀ k < 4, (v.extractLsb' (16 * k) 16).toNat < if k < hRank h then hDim h k else 1) ∧
      landHandle (issueCtx s (.hsub 1 2 4 0) 0) 1 h 1 t1 = .ok ((), t)) ∧
    (∃ s p t0 t1 h v, Issues s (.hsub 1 2 4 0) 0 p ∧ rh (issueCtx s (.hsub 1 2 4 0) 0) 2 (bodyState s p) = .ok (h, t0) ∧
      rs (issueCtx s (.hsub 1 2 4 0) 0) 4#6 t0 = .ok (v, t1) ∧ hasElements h = true ∧
      (∀ k < 4, (v.extractLsb' (16 * k) 16).toNat < if k < hRank h then hDim h k else 1) ∧ v.toNat * fmtBits (hFmt h) % 8 ≠ 0) ∧
    ∃ s p t0 h, Issues s (.hoff 1 2 0 4 0) 0 p ∧ rh (issueCtx s (.hoff 1 2 0 4 0) 0) 2 (bodyState s p) = .ok (h, t0) ∧ hasElements h = false :=
  ⟨⟨withReg (at0 .c (.hoff 1 2 0 4 0)) .c 4 3, withReg (at0 .c (.hoff 1 2 0 4 0)) .c 4 3, _, _, _, _, _, issuesAt0 (by decide), rfl, rfl,
     by decide, rfl, rfl⟩,
   ⟨at0 .c (.hsub 1 2 4 0), at0 .c (.hsub 1 2 4 0), _, _, _, _, _, issuesAt0 (by decide), rfl, rfl, by decide, rfl, by decide, rfl⟩,
   ⟨withReg (withHandle (at0 .c (.hsub 1 2 4 0)) .c 2 (BitVec.ofNat 256 (0x12 * 2 ^ 200))) .c 4 1, _, _, _, _, _, issuesAt0 (by decide), rfl, rfl, by decide, by decide, by decide⟩,
   ⟨withHandle (at0 .c (.hoff 1 2 0 4 0)) .c 2 (BitVec.ofNat 256 (0x2F * 2 ^ 200)), _, _, _, issuesAt0 (by decide), rfl, by decide⟩⟩

theorem wit_AtomicStepOnTheWord : State.reset.MemOk ∧ ∃ o : AtomOp, o.fn ≤ 14 ∧ o.fn ≠ 12 :=
  ⟨rfl, { fn := 14, ord := 0, scope := 1, w32 := false, b := 1, c := 0 }, by decide⟩

theorem wit_AtomicsRunTheirStep_now :
    ∃ s p t0 t1 t3 va x ps, Issues s (.aadd 3 1 2 0 5 0) 0 p ∧ rs (issueCtx s (.aadd 3 1 2 0 5 0) 0) 1#5 (bodyState s p) = .ok (va, t0) ∧
      rs (issueCtx s (.aadd 3 1 2 0 5 0) 0) 2#5 t0 = .ok (x, t1) ∧ pendAt (issueCtx s (.aadd 3 1 2 0 5 0) 0) va .atomic 8 t1 = .ok ((), t1) ∧ va.toNat % 8 = 0 ∧ (getUnit t1 0).levels = [] ∧
      (getSeq t1 0 .c).fl.data = false ∧ seqPlaces (issueCtx s (.aadd 3 1 2 0 5 0) 0) va .atomic 8 t1 = .ok (ps, t3) ∧
      seqLocks (issueCtx s (.aadd 3 1 2 0 5 0) 0) ps true t3 = .ok ((), t3) ∧
      (getSeq t3 0 .c).fl.stores = [] ∧
      ∃ old t6, performNow (issueCtx s (.aadd 3 1 2 0 5 0) 0) va ps { fn := 4, ord := 0, scope := 5, w32 := false, b := x, c := 0 } t3 = .ok (old, t6) :=
  ⟨withReg (at0 .c (.aadd 3 1 2 0 5 0)) .c 1 0x10000, withReg (at0 .c (.aadd 3 1 2 0 5 0)) .c 1 0x10000, _, _, _, _, _, _, issuesAt0 (by decide), rfl,
    rfl, rfl, by decide, rfl, rfl, rfl, rfl, rfl, okOf (by decide +kernel)⟩

theorem wit_AtomicsRunTheirStep_later :
    ∃ s p va ps t0, Issues s (.ast 1 2 2 5 0) 0 p ∧ rs (issueCtx s (.ast 1 2 2 5 0) 0) 1#5 (bodyState s p) = .ok (va, bodyState s p) ∧ va.toNat % 8 = 0 ∧
      seqPlaces (issueCtx s (.ast 1 2 2 5 0) 0) va .atomic 8 (bodyState s p) = .ok (ps, t0) ∧
      ∃ r u, atomicLater (issueCtx s (.ast 1 2 2 5 0) 0) va ps { fn := 1, ord := 2, scope := 5, w32 := false, b := 0, c := 0 } t0 = .ok (r, u) :=
  ⟨withReg (at0 .c (.ast 1 2 2 5 0)) .c 1 0x10000, withReg (at0 .c (.ast 1 2 2 5 0)) .c 1 0x10000, _, _, _, issuesAt0 (by decide), rfl, by decide, rfl,
    okOf (by decide +kernel)⟩

theorem wit_FencesAndBarriersComplete :
    (∃ s p, Issues s (.fence 3 3 0) 0 p) ∧ (∃ s p, Issues s (.fencee 3 2 1 0) 0 p ∧ outstanding (bodyState s p) 0 .c .copy = false) ∧
    (∃ s p, Issues s (.ssync 0) 0 p ∧ (getSeq (bodyState s p) 0 .c).fl.departed = false) ∧
    (∃ s p, Issues s (.cbar 0) 0 p ∧ (getSeq (bodyState s p) 0 .c).fl.departed = true) ∧
    ∃ s p t0 va ps, Issues s (.waitv 5 1 1 1 0) 0 p ∧ rs (issueCtx s (.waitv 5 1 1 1 0) 0) 1#6 (bodyState s p) = .ok (va, t0) ∧ va.toNat % 8 = 0 ∧
      seqPlaces (issueCtx s (.waitv 5 1 1 1 0) 0) va .atomic 8 t0 = .ok (ps, t0) ∧ seqLocks (issueCtx s (.waitv 5 1 1 1 0) 0) ps false t0 = .ok ((), t0) ∧
      (BitVec.ofNat 64 (placesValue (performAll t0 0 .c) ps) != 0) = true ∧
      ∃ old t, performNow (issueCtx s (.waitv 5 1 1 1 0) 0) va ps { fn := 0, ord := 1, scope := 5, w32 := false, b := 0, c := 0 } (performAll t0 0 .c) =
        .ok (old, t) :=
  ⟨⟨at0 .c (.fence 3 3 0), _, issuesAt0 (by decide)⟩, ⟨at0 .c (.fencee 3 2 1 0), _, issuesAt0 (by decide), by decide⟩,
   ⟨at0 .c (.ssync 0), _, issuesAt0 (by decide), rfl⟩,
   ⟨modSeq (at0 .c (.cbar 0)) 0 .c fun c => c.modFl fun f => { f with departed := true }, _, issuesAt0 (by decide), rfl⟩,
   ⟨withReg (at0 .c (.waitv 5 1 1 1 0)) .c 1 0x10000, withReg (at0 .c (.waitv 5 1 1 1 0)) .c 1 0x10000, _, _, _, issuesAt0 (by decide), rfl, by decide,
     rfl, rfl, by decide +kernel, okOf (by decide +kernel)⟩⟩

theorem wit_SchedulerWordsAnswer :
    (∃ s p t0 t id x, Issues s (.gwait 3 1 4 0) 0 p ∧ schName (issueCtx s (.gwait 3 1 4 0) 0) 1 4 (bodyState s p) = .ok ((id, x), t0) ∧
      namedInstance t0 0 4 id x = none ∧ landScalar (issueCtx s (.gwait 3 1 4 0) 0) 3 (replyWord 3 0 0 0) 1 t0 = .ok ((), t)) ∧
    (∃ s p t0 t id x, Issues s (.gcancel 3 1 4 0) 0 p ∧ schName (issueCtx s (.gcancel 3 1 4 0) 0) 1 4 (bodyState s p) = .ok ((id, x), t0) ∧
      namedInstance t0 0 4 id x = none ∧ landScalar (issueCtx s (.gcancel 3 1 4 0) 0) 3 (replyWord 3 0 0 0) 1 t0 = .ok ((), t)) ∧
    (∃ s p t0 t id x, Issues s (.gcnt 3 1 4 0) 0 p ∧ schName (issueCtx s (.gcnt 3 1 4 0) 0) 1 4 (bodyState s p) = .ok ((id, x), t0) ∧
      namedInstance t0 0 4 id x = none ∧ landScalar (issueCtx s (.gcnt 3 1 4 0) 0) 3 (BitVec.allOnes 64) 1 t0 = .ok ((), t)) ∧
    (∃ s p t0 t v, Issues s (.priset 3 1 0) 0 p ∧ rs (issueCtx s (.priset 3 1 0) 0) 1#6 (bodyState s p) = .ok (v, t0) ∧ v.toNat ≤ 3 ∧
      landScalar (issueCtx s (.priset 3 1 0) 0) 3 0 1 t0 = .ok ((), t)) ∧
    (∃ s p, Issues s (.yield 0) 0 p) ∧ ∃ s p, Issues s (.uexit 0) 0 p :=
  ⟨⟨at0 .c (.gwait 3 1 4 0), at0 .c (.gwait 3 1 4 0), _, _, _, _, issuesAt0 (by decide), rfl, by decide, rfl⟩,
   ⟨at0 .c (.gcancel 3 1 4 0), at0 .c (.gcancel 3 1 4 0), _, _, _, _, issuesAt0 (by decide), rfl, by decide, rfl⟩,
   ⟨at0 .c (.gcnt 3 1 4 0), at0 .c (.gcnt 3 1 4 0), _, _, _, _, issuesAt0 (by decide), rfl, by decide, rfl⟩,
   ⟨at0 .c (.priset 3 1 0), at0 .c (.priset 3 1 0), _, _, _, issuesAt0 (by decide), rfl, by decide, rfl⟩,
   ⟨at0 .c (.yield 0), _, issuesAt0 (by decide)⟩, ⟨at0 .c (.uexit 0), _, issuesAt0 (by decide)⟩⟩

/-- A unit of a live continuation with room for a job, and a descriptor of a job of kind 1 with one phase at 0x10000, which `GLAUNCH` reads. -/
def withDesc : State :=
  let s := withReg (at0 .c (.glaunch 3 1 0)) .c 1 0x10000
  let s := modCont { s with sched := { s.sched with backSize := 0x40000000 } } 0 fun c => { c with live := true }
  match locateN s 0 0x10000 .read 4 with
  | .ok ps => (ps.zip [1, 1, 1, 0]).foldl (fun s x => placePut s x.1 x.2) s
  | .error _ => s

/-- A result and what holds of it. -/
def andThen {ε α : Type} (r : Except ε (α × State)) (p : α → State → Bool) : Bool :=
  match r with
  | .ok x => p x.1 x.2
  | .error _ => false

theorem andThen_ok {ε α : Type} {r : Except ε (α × State)} {p : α → State → Bool} (h : andThen r p = true) : ∃ a t, r = .ok (a, t) ∧ p a t = true := by
  cases r with
  | ok x => exact ⟨x.1, x.2, rfl, h⟩
  | error e => cases h

theorem wit_SchedulerWordsAnswer_glaunch :
    ∃ s, Issues s (.glaunch 3 1 0) 0 s ∧ (getCont s 0).live = true ∧
      ∃ dv t0, rs (issueCtx s (.glaunch 3 1 0) 0) 1#6 (bodyState s s) = .ok (dv, t0) ∧ dv = 0x10000 ∧
      ∃ pv t1, rs (issueCtx s (.glaunch 3 1 0) 0) 2#6 t0 = .ok (pv, t1) ∧ pv = 0 ∧ (getCont (performAll t1 0 .c) 0).live = true ∧
      partitionFailed (performAll t1 0 .c) 0 = false ∧
      ∃ desc t3, schBytes (issueCtx s (.glaunch 3 1 0) 0) dv 64 (performAll t1 0 .c) = .ok (desc, t3) ∧
      ∃ z t6, schSizes (issueCtx s (.glaunch 3 1 0) 0) (patchedImages t3 0 (readDesc desc) (readPatches [] 0).1) t3 = .ok (z, t6) ∧
      ∃ id t7, tryStart t6 0 desc [] 0 z none (releaseOf t6 (seqAgent (getUnit (performAll t1 0 .c) 0) 0 .c) 5) = .ok (id, t7) ∧
      ∃ x t, landScalar (issueCtx s (.glaunch 3 1 0) 0) 3 (replyWord 0 1 0 id) 1
        (bumpRegion t7 (seqAgent (getUnit (performAll t1 0 .c) 0) 0 .c)) = .ok (x, t) := by
  refine ⟨withDesc, issuesAt0 (by decide), by decide +kernel, ?_⟩
  have h : (andThen (rs (issueCtx withDesc (.glaunch 3 1 0) 0) 1#6 (bodyState withDesc withDesc)) fun dv t0 => decide (dv = 0x10000) &&
      andThen (rs (issueCtx withDesc (.glaunch 3 1 0) 0) 2#6 t0) fun pv t1 =>
      decide (pv = 0 ∧ (getCont (performAll t1 0 .c) 0).live = true ∧ partitionFailed (performAll t1 0 .c) 0 = false) &&
      andThen (schBytes (issueCtx withDesc (.glaunch 3 1 0) 0) dv 64 (performAll t1 0 .c)) fun desc t3 =>
      andThen (schSizes (issueCtx withDesc (.glaunch 3 1 0) 0) (patchedImages t3 0 (readDesc desc) (readPatches [] 0).1) t3) fun z t6 =>
      andThen (tryStart t6 0 desc [] 0 z none (releaseOf t6 (seqAgent (getUnit (performAll t1 0 .c) 0) 0 .c) 5)) fun id t7 =>
      andThen (landScalar (issueCtx withDesc (.glaunch 3 1 0) 0) 3 (replyWord 0 1 0 id) 1
        (bumpRegion t7 (seqAgent (getUnit (performAll t1 0 .c) 0) 0 .c))) fun _ _ => true) = true := by decide +kernel
  obtain ⟨dv, t0, h1, h⟩ := andThen_ok h
  rw [Bool.and_eq_true, decide_eq_true_eq] at h
  obtain ⟨pv, t1, h2, g⟩ := andThen_ok h.2
  rw [Bool.and_eq_true, decide_eq_true_eq] at g
  obtain ⟨desc, t3, h3, k⟩ := andThen_ok g.2
  obtain ⟨z, t6, h4, k⟩ := andThen_ok k
  obtain ⟨id, t7, h5, k⟩ := andThen_ok k
  obtain ⟨x, t, h6, -⟩ := andThen_ok k
  exact ⟨dv, t0, h1, h.1, pv, t1, h2, g.1.1, g.1.2.1, g.1.2.2, desc, t3, h3, z, t6, h4, id, t7, h5, x, t, h6⟩

/-- A valid tensor handle: format, place, swizzle code, rank, two extents, the stride of dimension 1, and base. -/
def tensorAt (fmt place swz rank d0 d1 s1 base : Nat) : Handle :=
  BitVec.ofNat 256 (base + d0 * 2 ^ 64 + d1 * 2 ^ 80 + s1 * 2 ^ 128 + fmt * 2 ^ 200 + swz * 2 ^ 206 + place * 2 ^ 210 + (rank - 1) * 2 ^ 228 + 2 ^ 248)

/-- Sixteen F32 elements in global memory. -/
def row16 : Handle := tensorAt 8 0 0 1 16 1 0 0x10000

/-- A one-row tile of four elements at partition offset 0. -/
def fourAt0 : Word := BitVec.ofNat 64 (3 * 2 ^ 36)

/-- A unit about to issue a word, with 64 KiB of scratchpad, the tensor in h2 and h3, and two scalars. -/
def withTensor (i : Instr) (x y : Word) : State :=
  withReg (withReg (withHandle (withHandle (modUnit (at0 .c i) 0 fun u => { u with place := { u.place with spadSize := 65536 } }) .c 2 row16) .c 3 row16)
    .c 4 x) .c 5 y

theorem wit_CopyWordsQueueTheirCommand_tile :
    ∃ s tile t4, Issues s (.ctld 2 4 5 0 0) 0 s ∧ rh (issueCtx s (.ctld 2 4 5 0 0) 0) 2 (bodyState s s) = .ok (row16, bodyState s s) ∧
      rs2 (issueCtx s (.ctld 2 4 5 0 0) 0) 4#6 5#6 (bodyState s s) = .ok ((0, fourAt0), bodyState s s) ∧
      checkHandle (issueCtx s (.ctld 2 4 5 0 0) 0) row16 false 0 (bodyState s s) = .ok ((), bodyState s s) ∧
      tileSide (bodyState s s) 0 row16 (tilePtr fourAt0) true = some tile ∧
      checkSides (issueCtx s (.ctld 2 4 5 0 0) 0) (tilePtr fourAt0).bad [tile] (bodyState s s) = .ok ((), t4) ∧
      copyLegal (.tensor row16 0 (coordOf 0)) (tileEnd row16 (tilePtr fourAt0)) = true ∧
      QueueRoom t4 (issueCtx s (.ctld 2 4 5 0 0) 0) .copy (locksOf 0 [tile]) :=
  ⟨withTensor (.ctld 2 4 5 0 0) 0 fourAt0, _, _, issuesAt0 (by decide), rfl, rfl, rfl, rfl, rfl, by decide, by decide +kernel, by decide +kernel⟩

theorem wit_CopyWordsQueueTheirCommand_copy :
    ∃ s t7, Issues s (.ccpy 1 0 0 0 0) 0 s ∧ rh (issueCtx s (.ccpy 1 0 0 0 0) 0) 2 (bodyState s s) = .ok (row16, bodyState s s) ∧
      rh (issueCtx s (.ccpy 1 0 0 0 0) 0) 3 (bodyState s s) = .ok (row16, bodyState s s) ∧
      checkHandle (issueCtx s (.ccpy 1 0 0 0 0) 0) row16 true destMask (bodyState s s) = .ok ((), bodyState s s) ∧
      checkSides (issueCtx s (.ccpy 1 0 0 0 0) 0) false [] (bodyState s s) = .ok ((), t7) ∧
      copyLegal (.tensor row16 0 (coordOf 0)) (.tensor row16 0 (coordOf 0)) = true ∧ QueueRoom t7 (issueCtx s (.ccpy 1 0 0 0 0) 0) .copy [] :=
  ⟨withTensor (.ccpy 1 0 0 0 0) 0 0, _, issuesAt0 (by decide), rfl, rfl, rfl, rfl, by decide, by decide +kernel, by decide +kernel⟩

theorem wit_CopyWordsQueueTheirCommand_fill :
    ∃ s t3, Issues s (.cfill 2 0 0 0 0) 0 s ∧ rh (issueCtx s (.cfill 2 0 0 0 0) 0) 2 (bodyState s s) = .ok (row16, bodyState s s) ∧
      checkHandle (issueCtx s (.cfill 2 0 0 0 0) 0) row16 true destMask (bodyState s s) = .ok ((), bodyState s s) ∧
      checkSides (issueCtx s (.cfill 2 0 0 0 0) 0) false [] (bodyState s s) = .ok ((), t3) ∧ QueueRoom t3 (issueCtx s (.cfill 2 0 0 0 0) 0) .copy [] :=
  ⟨withTensor (.cfill 2 0 0 0 0) 0 0, _, issuesAt0 (by decide), rfl, rfl, rfl, by decide +kernel, by decide +kernel⟩

theorem wit_CopyWordsQueueTheirCommand_prefetch :
    ∃ s, Issues s (.cpfx 2 0 0 0 0) 0 s ∧ rh (issueCtx s (.cpfx 2 0 0 0 0) 0) 2 (bodyState s s) = .ok (row16, bodyState s s) ∧
      checkHandle (issueCtx s (.cpfx 2 0 0 0 0) 0) row16 false 0 (bodyState s s) = .ok ((), bodyState s s) ∧
      QueueRoom (bodyState s s) (issueCtx s (.cpfx 2 0 0 0 0) 0) .copy [] :=
  ⟨withTensor (.cpfx 2 0 0 0 0) 0 0, issuesAt0 (by decide), rfl, rfl, by decide +kernel, by decide +kernel⟩

theorem wit_CopyWordsQueueTheirCommand_transfer :
    ∃ s, Issues s (.cxfr 4 5 0 0) 0 s ∧ rs2 (issueCtx s (.cxfr 4 5 0 0) 0) 4#6 5#6 (bodyState s s) = .ok ((3 * 2 ^ 32, 0), bodyState s s) ∧
      (xferLegal (3 * 2 ^ 32) 0 && rangeFits (bodyState s s) 0 0 0 4 &&
        !(extentsInStage (getUnit (bodyState s s) 0) (xferLocks (bodyState s s) 0 (3 * 2 ^ 32) 0))) = true ∧
      QueueRoom (bodyState s s) (issueCtx s (.cxfr 4 5 0 0) 0) .copy (xferLocks (bodyState s s) 0 (3 * 2 ^ 32) 0) :=
  ⟨withTensor (.cxfr 4 5 0 0) (3 * 2 ^ 32) 0, issuesAt0 (by decide), rfl, by decide +kernel, by decide +kernel, by decide +kernel⟩

/-- Rows of eight F32 elements in global memory. -/
def rows8 : Handle := tensorAt 8 0 0 3 8 4 8 0x10000

theorem wit_GatherWordsQueueTheirCommand :
    ∃ s list sides, Issues s (.gath 2 4 5 0) 0 s ∧ rh (issueCtx s (.gath 2 4 5 0) 0) 2 (bodyState s s) = .ok (rows8, bodyState s s) ∧
      rs2 (issueCtx s (.gath 2 4 5 0) 0) 4#6 5#6 (bodyState s s) = .ok ((0x100, 0), bodyState s s) ∧
      checkHandle (issueCtx s (.gath 2 4 5 0) 0) rows8 false 0 (bodyState s s) = .ok ((), bodyState s s) ∧ GatherTakes 0 rows8 ∧
      gatherSides (bodyState s s) 0 0 rows8 0x100 0 = some (list, sides) ∧ rangeFits (bodyState s s) 0 list.owner list.off list.len = true ∧
      ∃ r t3, checkSides (issueCtx s (.gath 2 4 5 0) 0) (listBad 0x100 || rowPtrBad 0) sides (bodyState s s) = .ok (r, t3) ∧
        QueueRoom (bodyState s s) (issueCtx s (.gath 2 4 5 0) 0) .gather (locksOf 0 (list :: sides)) :=
  ⟨withHandle (withTensor (.gath 2 4 5 0) 0x100 0) .c 2 rows8, _, _, issuesAt0 (by decide), rfl, rfl, rfl, ⟨by decide +kernel, by decide +kernel, by decide⟩,
    rfl, by decide +kernel, _, _, rfl, by decide +kernel, by decide +kernel⟩

theorem wit_CollectiveWordsQueueTheirCommand :
    ∃ s, Issues s (.xallr 2 4 5 0) 0 s ∧ rh (issueCtx s (.xallr 2 4 5 0) 0) 2 (bodyState s s) = .ok (row16, bodyState s s) ∧
      rs2 (issueCtx s (.xallr 2 4 5 0) 0) 4#6 5#6 (bodyState s s) = .ok ((0, 0), bodyState s s) ∧
      checkHandle (issueCtx s (.xallr 2 4 5 0) 0) row16 true 0 (bodyState s s) = .ok ((), bodyState s s) ∧
      (colWordsLegal 0 0 0 = true ∧ colLegal (bodyState s s) 0 row16 0 = true ∧ collecting (getUnit (bodyState s s) 0) = false) ∧
      QueueRoom (bodyState s s) (issueCtx s (.xallr 2 4 5 0) 0) .coll [] :=
  ⟨{ withTensor (.xallr 2 4 5 0) 0 0 with sched := { (withTensor (.xallr 2 4 5 0) 0 0).sched with colsets := [(0, { ranks := [0, 1], stamp := 7 })] } },
    issuesAt0 (by decide), rfl, rfl, rfl, ⟨by decide +kernel, by decide +kernel, rfl⟩, by decide +kernel, by decide +kernel⟩

theorem wit_RowWordsQueueTheirCommand :
    ∃ s, Issues s (.rwrms 2 3 4 5 0 0) 0 s ∧ rh (issueCtx s (.rwrms 2 3 4 5 0 0) 0) 3 (bodyState s s) = .ok (row16, bodyState s s) ∧
      rh (issueCtx s (.rwrms 2 3 4 5 0 0) 0) 2 (bodyState s s) = .ok (row16, bodyState s s) ∧
      rs2 (issueCtx s (.rwrms 2 3 4 5 0 0) 0) 4#6 5#6 (bodyState s s) = .ok ((0, 0), bodyState s s) ∧
      checkHandle (issueCtx s (.rwrms 2 3 4 5 0 0) 0) row16 true 0 (bodyState s s) = .ok ((), bodyState s s) ∧
      (rowLegal 4 row16 row16 0 0 = true ∧ rowCollects (getUnit (bodyState s s) 0) 4 row16 row16 = false) ∧
      extentsInStage (getUnit (bodyState s s) 0) (rowLocks (bodyState s s) 0 4 row16 row16 0 0) = false ∧
      QueueRoom (bodyState s s) (issueCtx s (.rwrms 2 3 4 5 0 0) 0) .row (rowLocks (bodyState s s) 0 4 row16 row16 0 0) :=
  ⟨withTensor (.rwrms 2 3 4 5 0 0) 0 0, issuesAt0 (by decide), rfl, rfl, rfl, rfl, ⟨by decide +kernel, by decide +kernel⟩, by decide +kernel,
    by decide +kernel, by decide +kernel⟩

/-- A unit about to issue a press word, with tensors in the local segment: rows of 256 I8 elements in h2, F32 rows in h3, and a ternary image in h6. -/
def withPress (i : Instr) (x y : Word) : State :=
  withHandle (withHandle (withHandle (withTensor i x y) .c 2 (tensorAt 1 2 0 2 256 4 256 0xFF00000000000000)) .c 3
    (tensorAt 8 2 0 2 256 4 256 0xFF00000000002000)) .c 6 (tensorAt 0x2F 2 0 2 256 256 256 0xFF00000000004000)

theorem wit_PressWordsQueueOrAnswer_lease :
    (∃ s, Issues s (.plse 0) 0 s ∧ prelPending (settlePress (bodyState s s) 0) 0 = false) ∧
    (∃ s u, Issues s (.pstat 3 0) 0 s ∧ landScalar (issueCtx s (.pstat 3 0) 0) 3 0 1 (bodyState s s) = .ok ((), u)) ∧
    ∃ s, Issues s (.prel 0) 0 s ∧ QueueRoom (bodyState s s) (issueCtx s (.prel 0) 0) .press [] :=
  ⟨⟨at0 .c (.plse 0), issuesAt0 (by decide), by decide⟩, ⟨at0 .c (.pstat 3 0), _, issuesAt0 (by decide), rfl⟩,
    ⟨at0 .c (.prel 0), issuesAt0 (by decide), by decide, by decide⟩⟩

theorem wit_PressWordsQueueOrAnswer_load :
    ∃ s w off, Issues s (.pwld 6 4 0) 0 s ∧ rh (issueCtx s (.pwld 6 4 0) 0) 6 (bodyState s s) = .ok (w, bodyState s s) ∧
      rs (issueCtx s (.pwld 6 4 0) 0) 4#6 (bodyState s s) = .ok (0, bodyState s s) ∧
      (fmtAligned (hFmt w) = true ∧ hRank w = 2 ∧ hDim w 0 = 256 ∧ hDim w 1 = 256 ∧ 0 ≤ imagePlanes (hFmt w)) ∧
      checkPlace (issueCtx s (.pwld 6 4 0) 0) w (imageBytes (imagePlanes (hFmt w))) 256 (bodyState s s) = .ok (off, bodyState s s) ∧
      checkHandle (issueCtx s (.pwld 6 4 0) 0) w false 0 (bodyState s s) = .ok ((), bodyState s s) ∧
      QueueRoom (bodyState s s) (issueCtx s (.pwld 6 4 0) 0) .press [{ rows := false, write := false, lo := off, hi := off + imageBytes 2 }] :=
  ⟨withPress (.pwld 6 4 0) 0 0, _, _, issuesAt0 (by decide), rfl, rfl, by decide +kernel, rfl, rfl, by decide +kernel, by decide +kernel⟩

theorem wit_PressWordsQueueOrAnswer_multiply :
    ∃ s h off, Issues s (.pmul 2 4 5 0) 0 s ∧ rh (issueCtx s (.pmul 2 4 5 0) 0) 2 (bodyState s s) = .ok (h, bodyState s s) ∧
      rs2 (issueCtx s (.pmul 2 4 5 0) 0) 4#6 5#6 (bodyState s s) = .ok ((0, 0), bodyState s s) ∧
      (actFmtLegal h false = true ∧ streamLegal h 0 = true) ∧
      checkPlace (issueCtx s (.pmul 2 4 5 0) 0) h (hSpan h) 1 (bodyState s s) = .ok (off, bodyState s s) ∧
      checkHandle (issueCtx s (.pmul 2 4 5 0) 0) h false 0 (bodyState s s) = .ok ((), bodyState s s) ∧
      ∃ r t5, allotAll (issueCtx s (.pmul 2 4 5 0) 0) (streamGroups 0) (bodyState s s) = .ok (r, t5) :=
  ⟨withPress (.pmul 2 4 5 0) 0 0, _, _, issuesAt0 (by decide), rfl, rfl, by decide +kernel, rfl, rfl, okOf (by decide +kernel)⟩

theorem wit_PressWordsQueueOrAnswer_drain :
    ∃ s h off, Issues s (.pdrn 0 3 4 0) 0 s ∧ rh (issueCtx s (.pdrn 0 3 4 0) 0) 3 (bodyState s s) = .ok (h, bodyState s s) ∧
      drainLegal (getUnit (bodyState s s) 0) (bodyState s s) 0 h 0 0 0 = true ∧
      checkPlace (issueCtx s (.pdrn 0 3 4 0) 0) h (hSpan h) 1 (bodyState s s) = .ok (off, bodyState s s) ∧
      checkHandle (issueCtx s (.pdrn 0 3 4 0) 0) h true 0 (bodyState s s) = .ok ((), bodyState s s) :=
  ⟨withPress (.pdrn 0 3 4 0) 0 0, _, _, issuesAt0 (by decide), rfl, by decide +kernel, rfl, rfl⟩

/-- A pool descriptor for a 4 KiB pool at 0x10000, with one stage page and abort target 0. -/
def aPool : Handle := BitVec.ofNat 256 (0x10000 + 4096 * 2 ^ 64 + 1 * 2 ^ 128 + 2 ^ 248 + 2 ^ 251 + 2 ^ 252)

/-- A unit about to issue a word, with the descriptor in h2. -/
def withPool (i : Instr) : State := withHandle (modUnit (at0 .c i) 0 fun u => { u with place := { u.place with spadSize := 65536 } }) .c 2 aPool

/-- Two bodies in a row that end without a stop. -/
theorem okThen {α β : Type} {m : M α} {n : α → M β} {s : State} (h : (match (m >>= n) s with | .ok _ => true | .error _ => false) = true) :
    ∃ a t, m s = .ok (a, t) ∧ ∃ b u, n a t = .ok (b, u) := by
  cases hm : m s with
  | ok r =>
    refine ⟨r.1, r.2, rfl, okOf ?_⟩
    have : (m >>= n) s = n r.1 r.2 := by
      show (m s >>= fun p => n p.1 p.2) = _
      rw [hm]; rfl
    rw [← this]; exact h
  | error e =>
    have : (m >>= n) s = .error e := by
      show (m s >>= fun p => n p.1 p.2) = _
      rw [hm]; rfl
    rw [this] at h; cases h

theorem wit_LevelsOpenGrowAndSeal_open :
    ∃ s, Issues s (.ckopen 3 2 0) 0 s ∧ rh (issueCtx s (.ckopen 3 2 0) 0) 2 (bodyState s s) = .ok (aPool, bodyState s s) ∧
      descWord (getUnit (bodyState s s) 0) aPool true = 0 ∧
      ∃ n t1, poolSerial (issueCtx s (.ckopen 3 2 0) 0) (ckPool aPool) (bodyState s s) = .ok (n, t1) :=
  ⟨withPool (.ckopen 3 2 0), issuesAt0 (by decide), rfl, by decide +kernel, okOf (by decide +kernel)⟩

/-- An open level on that pool. -/
def aLevel : CaskLevel := { id := 0, pool := 0x10000, cap := 4096, serial := 1, used := 32, recs := [], stage := 0, stageN := 1, abt := 0 }

/-- A unit that collects, with the level's open handle in h3 and a descriptor of a larger pool in h2. -/
def withLevel (i : Instr) : State :=
  withHandle (withHandle (modUnit (withPool i) 0 fun u => { u with levels := [aLevel], nlevel := 1 }) .c 3 (openHandle (getUnit (withPool i) 0) 0 aLevel)) .c 2
    (BitVec.ofNat 256 (0x20000 + 8192 * 2 ^ 64 + 1 * 2 ^ 128 + 2 ^ 248 + 2 ^ 251 + 2 ^ 252))

theorem wit_LevelsOpenGrowAndSeal_grow :
    ∃ s g h, Issues s (.ckopenGrow 3 2 0) 0 s ∧ rh (issueCtx s (.ckopenGrow 3 2 0) 0) 3 (bodyState s s) = .ok (g, bodyState s s) ∧
      rh (issueCtx s (.ckopenGrow 3 2 0) 0) 2 (bodyState s s) = .ok (h, bodyState s s) ∧ caskWord (getUnit (bodyState s s) 0) g .anyOpen = 0 ∧
      (getUnit (bodyState s s) 0).levels[levelPlace (getUnit (bodyState s s) 0) (ckLvl g)]? = some aLevel ∧
      (descWord (getUnit (bodyState s s) 0) h false ||| flagBit 7 (ckCap h < 32 || overlap (ckPool h).toNat (ckCap h) 0x10000 4096)) = 0 :=
  ⟨withLevel (.ckopenGrow 3 2 0), _, _, issuesAt0 (by decide), rfl, rfl, by decide +kernel, by decide +kernel, by decide +kernel⟩

theorem wit_LevelsOpenGrowAndSeal_seal :
    ∃ s h, Issues s (.ckseal 4 3 0) 0 s ∧ rh (issueCtx s (.ckseal 4 3 0) 0) 3 (bodyState s s) = .ok (h, bodyState s s) ∧
      (getUnit (bodyState s s) 0).levels = [aLevel] ∧ levelBusy (bodyState s s) 0 0 = false ∧
      ∃ r t1, checkCask (issueCtx s (.ckseal 4 3 0) 0) h .innermost (bodyState s s) = .ok (r, t1) :=
  ⟨withLevel (.ckseal 4 3 0), _, issuesAt0 (by decide), rfl, rfl, by decide +kernel, okOf (by decide +kernel)⟩

/-- A sealed cask with no record in the pool at 0x10000, whose serial is the word that stands there. -/
def emptyCask (i : Instr) : Handle := ckHandle true 0 0 (wordOf i).toNat 0 32 4096 0x10000

/-- A unit about to issue a word, with that cask in h2 and h3 and a descriptor in h4. -/
def withCask (i : Instr) : State :=
  withHandle (withHandle (withHandle (at0 .c i) .c 2 (emptyCask i)) .c 3 (emptyCask i)) .c 4 (BitVec.ofNat 256 (0x20000 + 8192 * 2 ^ 64 + 2 ^ 248 + 2 ^ 251 + 2 ^ 252))

theorem wit_CasksDerivePourAndDrop_derive :
    ∃ s g, Issues s (.ckblnd 4 2 3 0) 0 s ∧ rh (issueCtx s (.ckblnd 4 2 3 0) 0) 4 (bodyState s s) = .ok (g, bodyState s s) ∧
      rh (issueCtx s (.ckblnd 4 2 3 0) 0) 2 (bodyState s s) = .ok ((emptyCask (.ckblnd 4 2 3 0)), bodyState s s) ∧
      ∃ r t3, checkDerive (issueCtx s (.ckblnd 4 2 3 0) 0) g [(emptyCask (.ckblnd 4 2 3 0)), (emptyCask (.ckblnd 4 2 3 0))] 32 (bodyState s s) = .ok (r, t3) ∧
      ∃ l t4, caskRecords (issueCtx s (.ckblnd 4 2 3 0) 0) (emptyCask (.ckblnd 4 2 3 0)) t3 = .ok (l, t4) :=
  ⟨withCask (.ckblnd 4 2 3 0), _, issuesAt0 (by decide), rfl, rfl, okThen (by decide +kernel)⟩

theorem wit_CasksDerivePourAndDrop_filter :
    (∃ s, Issues s (.ckfilt 4 2 8 0) 0 s ∧ rs2 (issueCtx s (.ckfilt 4 2 8 0) 0) 8#6 9#6 (bodyState s s) = .ok ((0, 0), bodyState s s)) ∧
    ∃ s, Issues s (.ckrebs 4 2 8 0) 0 s ∧ rs (issueCtx s (.ckrebs 4 2 8 0) 0) 10#6 (bodyState s s) = .ok (0, bodyState s s) :=
  ⟨⟨withCask (.ckfilt 4 2 8 0), issuesAt0 (by decide), rfl⟩, ⟨withCask (.ckrebs 4 2 8 0), issuesAt0 (by decide), rfl⟩⟩

theorem wit_CasksDerivePourAndDrop_pour :
    ∃ s, Issues s (.ckpour 2 8 0) 0 s ∧ rh (issueCtx s (.ckpour 2 8 0) 0) 2 (bodyState s s) = .ok ((emptyCask (.ckpour 2 8 0)), bodyState s s) ∧
      rs (issueCtx s (.ckpour 2 8 0) 0) 8#6 (bodyState s s) = .ok (0, bodyState s s) ∧ pourLegal 0 [] = true ∧
      ∃ r t2, checkCask (issueCtx s (.ckpour 2 8 0) 0) (emptyCask (.ckpour 2 8 0)) .sealed (bodyState s s) = .ok (r, t2) ∧
      ∃ l t3, caskRecords (issueCtx s (.ckpour 2 8 0) 0) (emptyCask (.ckpour 2 8 0)) t2 = .ok (l, t3) :=
  ⟨withCask (.ckpour 2 8 0), issuesAt0 (by decide), rfl, rfl, rfl, okThen (by decide +kernel)⟩

theorem wit_CasksDerivePourAndDrop_drop :
    (∃ s, Issues s (.ckdrop 2 0) 0 s ∧ ∃ r t1, checkCask (issueCtx s (.ckdrop 2 0) 0) (emptyCask (.ckdrop 2 0)) .sealed (bodyState s s) = .ok (r, t1) ∧
      ∃ r t, poolWrite (issueCtx s (.ckdrop 2 0) 0) 0x10000 0 (leBytes 8 1) t1 = .ok (r, t)) ∧
    (∃ s, Issues s (.ckinfo 2 1 8 0) 0 s ∧ ∃ r t1, checkCask (issueCtx s (.ckinfo 2 1 8 0) 0) (emptyCask (.ckinfo 2 1 8 0)) .either (bodyState s s) = .ok (r, t1)) ∧
    ∃ s h, Issues s (.ckabort 3 0) 0 s ∧ rh (issueCtx s (.ckabort 3 0) 0) 3 (bodyState s s) = .ok (h, bodyState s s) ∧
      (getUnit (bodyState s s) 0).levels = [aLevel] ∧
      ∃ r t, checkCask (issueCtx s (.ckabort 3 0) 0) h .innermost (bodyState s s) = .ok (r, t) :=
  ⟨⟨withCask (.ckdrop 2 0), issuesAt0 (by decide), okThen (by decide +kernel)⟩,
    ⟨withCask (.ckinfo 2 1 8 0), issuesAt0 (by decide), okOf (by decide +kernel)⟩,
    ⟨withLevel (.ckabort 3 0), _, issuesAt0 (by decide), rfl, rfl, okOf (by decide +kernel)⟩⟩

/-- A unit whose X acts, with rows 1 and 2 allotted and of a tag, and p0 all ones. -/
def withRows (i : Instr) (tag : BitVec 6) : State :=
  modUnit (at0 .x i) 0 fun u => { u with place := { u.place with groups := [(0, 0)], rowTags := [(1, tag), (2, tag), (3, tag)] } }

theorem wit_VectorLanesFollowTheirTable_two :
    ∃ s, Issues s (.vadd 4 1 2 0 0) 0 s ∧ rp (issueCtx s (.vadd 4 1 2 0 0) 0) 0#4 (bodyState s s) = .ok (BitVec.allOnes 1024, bodyState s s) ∧
      ∃ x t1, rv (issueCtx s (.vadd 4 1 2 0 0) 0) 1#5 (bodyState s s) = .ok (x, t1) ∧ ∃ y t2, rv (issueCtx s (.vadd 4 1 2 0 0) 0) 2#5 t1 = .ok (y, t2) :=
  ⟨withRows (.vadd 4 1 2 0 0) 3, issuesAt0 (by decide), rfl, okThen (by decide +kernel)⟩

theorem wit_VectorLanesFollowTheirTable_one :
    ∃ s, Issues s (.vrcp 4 1 0 0) 0 s ∧ rp (issueCtx s (.vrcp 4 1 0 0) 0) 0#4 (bodyState s s) = .ok (BitVec.allOnes 1024, bodyState s s) ∧
      ∃ x t1, rv (issueCtx s (.vrcp 4 1 0 0) 0) 1#5 (bodyState s s) = .ok (x, t1) ∧
      ∃ r u, landVec (issueCtx s (.vrcp 4 1 0 0) 0) 4 8 0 none 0 14 t1 = .ok (r, u) :=
  ⟨withRows (.vrcp 4 1 0 0) 8, issuesAt0 (by decide), rfl, okThen (by decide +kernel)⟩

theorem wit_MultiplyAddCompareAndSelect :
    (∃ s, Issues s (.vfma 3 1 2 0 0) 0 s ∧ rp (issueCtx s (.vfma 3 1 2 0 0) 0) 0#4 (bodyState s s) = .ok (BitVec.allOnes 1024, bodyState s s) ∧
      ∃ x t1, rv (issueCtx s (.vfma 3 1 2 0 0) 0) 1#5 (bodyState s s) = .ok (x, t1) ∧ ∃ y t2, rv (issueCtx s (.vfma 3 1 2 0 0) 0) 3#5 t1 = .ok (y, t2)) ∧
    (∃ s, Issues s (.vcmplt 2 1 2 0 0) 0 s ∧ ∃ x t1, rv (issueCtx s (.vcmplt 2 1 2 0 0) 0) 1#5 (bodyState s s) = .ok (x, t1) ∧
      ∃ y t2, rv (issueCtx s (.vcmplt 2 1 2 0 0) 0) 2#5 t1 = .ok (y, t2)) ∧
    ∃ s, Issues s (.vsel 4 1 2 0 0) 0 s ∧ ∃ x t1, rv (issueCtx s (.vsel 4 1 2 0 0) 0) 1#5 (bodyState s s) = .ok (x, t1) ∧
      ∃ y t2, rv (issueCtx s (.vsel 4 1 2 0 0) 0) 2#5 t1 = .ok (y, t2) :=
  ⟨⟨withRows (.vfma 3 1 2 0 0) 8, issuesAt0 (by decide), rfl, okThen (by decide +kernel)⟩,
    ⟨withRows (.vcmplt 2 1 2 0 0) 3, issuesAt0 (by decide), okThen (by decide +kernel)⟩,
    ⟨withRows (.vsel 4 1 2 0 0) 3, issuesAt0 (by decide), okThen (by decide +kernel)⟩⟩

theorem wit_ConversionsTakeLanesAcross :
    (∃ s, Issues s (.vcvt 4 1 8 0 0) 0 s ∧ rp (issueCtx s (.vcvt 4 1 8 0 0) 0) 0#4 (bodyState s s) = .ok (BitVec.allOnes 1024, bodyState s s) ∧
      ∃ x t1, rv (issueCtx s (.vcvt 4 1 8 0 0) 0) 1#5 (bodyState s s) = .ok (x, t1)) ∧
    (∃ s, Issues s (.vqmx 4 1 5 0 0) 0 s ∧ ∃ x t1, rv (issueCtx s (.vqmx 4 1 5 0 0) 0) 1#5 (bodyState s s) = .ok (x, t1) ∧
      ∃ r u, landVec (issueCtx s (.vqmx 4 1 5 0 0) 0) 4 0x0B 0 none 0 3 t1 = .ok (r, u)) ∧
    ∃ s, Issues s (.vdqmx 4 1 2 0 0) 0 s ∧ ∃ x t1, rv (issueCtx s (.vdqmx 4 1 2 0 0) 0) 1#5 (bodyState s s) = .ok (x, t1) ∧
      ∃ y t2, rv (issueCtx s (.vdqmx 4 1 2 0 0) 0) 2#5 t1 = .ok (y, t2) :=
  ⟨⟨withRows (.vcvt 4 1 8 0 0) 3, issuesAt0 (by decide), rfl, okOf (by decide +kernel)⟩,
    ⟨withRows (.vqmx 4 1 5 0 0) 8, issuesAt0 (by decide), okThen (by decide +kernel)⟩,
    ⟨withRows (.vdqmx 4 1 2 0 0) 0x0B, issuesAt0 (by decide), okThen (by decide +kernel)⟩⟩

theorem wit_PermutesMoveElements_rows :
    (∃ s, Issues s (.vperm 4 1 2 0 0) 0 s ∧ ∃ x t1, rv (issueCtx s (.vperm 4 1 2 0 0) 0) 1#5 (bodyState s s) = .ok (x, t1) ∧
      ∃ y t2, rv (issueCtx s (.vperm 4 1 2 0 0) 0) 2#5 t1 = .ok (y, t2)) ∧
    (∃ s, Issues s (.vslide 4 1 2 0 0) 0 s ∧ ∃ x t1, rv (issueCtx s (.vslide 4 1 2 0 0) 0) 1#5 (bodyState s s) = .ok (x, t1) ∧
      ∃ v t2, rs (issueCtx s (.vslide 4 1 2 0 0) 0) 2#5 t1 = .ok (v, t2)) ∧
    (∃ s, Issues s (.vins 1 2 3 0) 0 s ∧ ∃ v t0, rs2 (issueCtx s (.vins 1 2 3 0) 0) 2#5 3#5 (bodyState s s) = .ok (v, t0) ∧
      ∃ x t1, rv (issueCtx s (.vins 1 2 3 0) 0) 1#5 t0 = .ok (x, t1)) ∧
    ∃ s, Issues s (.vext 4 1 2 0) 0 s ∧ ∃ x t1, rv (issueCtx s (.vext 4 1 2 0) 0) 1#5 (bodyState s s) = .ok (x, t1) ∧
      ∃ r t, landScalar (issueCtx s (.vext 4 1 2 0) 0) 4 0 3 t1 = .ok (r, t) :=
  ⟨⟨withRows (.vperm 4 1 2 0 0) 3, issuesAt0 (by decide), okThen (by decide +kernel)⟩,
    ⟨withRows (.vslide 4 1 2 0 0) 3, issuesAt0 (by decide), okThen (by decide +kernel)⟩,
    ⟨withRows (.vins 1 2 3 0) 3, issuesAt0 (by decide), okThen (by decide +kernel)⟩,
    ⟨withRows (.vext 4 1 2 0) 3, issuesAt0 (by decide), okThen (by decide +kernel)⟩⟩

theorem wit_PermutesMoveElements_buffer :
    (∃ s, Issues s (.vcmpct 1 0 0) 0 s ∧ ∃ x t1, rv (issueCtx s (.vcmpct 1 0 0) 0) 1#5 (bodyState s s) = .ok (x, t1)) ∧
    (∃ s, Issues s (.vcpop 4 2 0) 0 s ∧ ∃ r t1, landPred (issueCtx s (.vcpop 4 2 0) 0) 2 0 3 (bodyState s s) = .ok (r, t1)) ∧
    ∃ s, Issues s (.vcflush 4 2 0) 0 s ∧ ∃ r t1, landVec (issueCtx s (.vcflush 4 2 0) 0) 4 0 0 none 0 3 (bodyState s s) = .ok (r, t1) ∧
      ∃ r t2, landPred (issueCtx s (.vcflush 4 2 0) 0).noPush 2 0 3 t1 = .ok (r, t2) :=
  ⟨⟨withRows (.vcmpct 1 0 0) 3, issuesAt0 (by decide), okOf (by decide +kernel)⟩,
    ⟨withRows (.vcpop 4 2 0) 3, issuesAt0 (by decide), okOf (by decide +kernel)⟩,
    ⟨withRows (.vcflush 4 2 0) 3, issuesAt0 (by decide), okThen (by decide +kernel)⟩⟩

theorem wit_ReductionsCombineSelectedLanes :
    (∃ s, Issues s (.vrsum 4 1 0 0) 0 s ∧ rp (issueCtx s (.vrsum 4 1 0 0) 0) 0#4 (bodyState s s) = .ok (BitVec.allOnes 1024, bodyState s s) ∧
      ∃ x t1, rv (issueCtx s (.vrsum 4 1 0 0) 0) 1#5 (bodyState s s) = .ok (x, t1) ∧
      ∃ r u, landVec (issueCtx s (.vrsum 4 1 0 0) 0) 4 3 0 none 0 6 t1 = .ok (r, u)) ∧
    (∃ s, Issues s (.vdot 4 1 2 0 0) 0 s ∧ ∃ x t1, rv (issueCtx s (.vdot 4 1 2 0 0) 0) 1#5 (bodyState s s) = .ok (x, t1) ∧
      ∃ y t2, rv (issueCtx s (.vdot 4 1 2 0 0) 0) 2#5 t1 = .ok (y, t2)) ∧
    ∃ s, Issues s (.vscan 4 1 0 0) 0 s ∧ ∃ x t1, rv (issueCtx s (.vscan 4 1 0 0) 0) 1#5 (bodyState s s) = .ok (x, t1) :=
  ⟨⟨withRows (.vrsum 4 1 0 0) 3, issuesAt0 (by decide), rfl, okThen (by decide +kernel)⟩,
    ⟨withRows (.vdot 4 1 2 0 0) 3, issuesAt0 (by decide), okThen (by decide +kernel)⟩,
    ⟨withRows (.vscan 4 1 0 0) 3, issuesAt0 (by decide), okOf (by decide +kernel)⟩⟩

theorem wit_WindowsLoopsAndTags :
    (∃ s, Issues s (.vwin 4 0) 0 s ∧ rs (issueCtx s (.vwin 4 0) 0) 4#6 (bodyState s s) = .ok (0, bodyState s s)) ∧
    (∃ s, Issues s (.vrot 1 0) 0 s) ∧
    (∃ s, Issues s (.loopx 4 2 0) 0 s ∧ rs (issueCtx s (.loopx 4 2 0) 0) 4#6 (bodyState s s) = .ok (3, bodyState s s)) ∧
    (∃ s, Issues s (.loope 0) 0 s ∧ (getUnit (bodyState s s) 0).xs.act = true ∧ codeLegal (getSeq (bodyState s s) 0 .x) ((getUnit (bodyState s s) 0).xs.start.setWidth 64) = true ∧
      ((getUnit (bodyState s s) 0).xs.lpi + 1).toNat < (getUnit (bodyState s s) 0).xs.lpn.toNat) ∧
    (∃ s, Issues s (.vtag 1 3 0) 0 s ∧ ∃ r t, landTag (issueCtx s (.vtag 1 3 0) 0) 1 3 (bodyState s s) = .ok (r, t)) ∧
    ∃ s, Issues s (.vtagr 1 4 0) 0 s ∧ rs (issueCtx s (.vtagr 1 4 0) 0) 4#6 (bodyState s s) = .ok (3, bodyState s s) :=
  ⟨⟨at0 .x (.vwin 4 0), issuesAt0 (by decide), rfl⟩, ⟨at0 .x (.vrot 1 0), issuesAt0 (by decide)⟩,
    ⟨withReg (at0 .x (.loopx 4 2 0)) .x 4 3, issuesAt0 (by decide), rfl⟩,
    ⟨modUnit (at0 .x (.loope 0)) 0 fun u => { u with xs := { u.xs with act := true, lpn := 4 } }, issuesAt0 (by decide), rfl, by decide, by decide⟩,
    ⟨withRows (.vtag 1 3 0) 8, issuesAt0 (by decide), okOf (by decide +kernel)⟩,
    ⟨withReg (at0 .x (.vtagr 1 4 0)) .x 4 3, issuesAt0 (by decide), rfl⟩⟩

/-- A unit with scratchpad whose sequencer q acts, with a row pointer of I32 elements at offset 0 in s4 and of ui32 in s5. -/
def withRowPtr (q : Seq) (i : Instr) : State :=
  withReg (withReg (modUnit (at0 q i) 0 fun u => { u with place := { u.place with spadSize := 65536 } }) q 4 (BitVec.ofNat 64 (3 * 2 ^ 38))) q 5
    (BitVec.ofNat 64 (7 * 2 ^ 38))

theorem wit_VectorLoadsAndStoresMoveRows_load :
    ∃ s v owner, Issues s (.vldt 30 4 1 0) 0 s ∧ rs (issueCtx s (.vldt 30 4 1 0) 0) 4#6 (bodyState s s) = .ok (v, bodyState s s) ∧
      checkRowPtr (issueCtx s (.vldt 30 4 1 0) 0) .vldt (rowPtr v) (bodyState s s) = .ok (owner, bodyState s s) ∧
      bytesFit (bodyState s s) 0 owner (rowBytes (rowPtr v) (laneOffsets .vldt (rowPtr v) 1 [])) = true ∧ vformAccepts .vldt (rowPtr v) 1 = true ∧
      (∃ r t, checkSwizzle (issueCtx s (.vldt 30 4 1 0) 0) owner (rowPtr v) (rowBytes (rowPtr v) (laneOffsets .vldt (rowPtr v) 1 [])) (bodyState s s) = .ok (r, t) ∧
        ∃ bs u, vecRead (issueCtx s (.vldt 30 4 1 0) 0) owner (rowPtr v) (rowBytes (rowPtr v) (laneOffsets .vldt (rowPtr v) 1 [])) t = .ok (bs, u)) ∧
      ∃ r u, landLoad (issueCtx s (.vldt 30 4 1 0) 0) 30 3 0 10 (bodyState s s) = .ok (r, u) :=
  ⟨withRowPtr .l (.vldt 30 4 1 0), _, _, issuesAt0 (by decide), rfl, rfl, by decide +kernel, by decide +kernel, okThen (by decide +kernel),
    okOf (by decide +kernel)⟩

theorem wit_VectorLoadsAndStoresMoveRows_gather :
    ∃ s v u owner, Issues s (.vldg 30 4 5 0) 0 s ∧ rs (issueCtx s (.vldg 30 4 5 0) 0) 4#6 (bodyState s s) = .ok (v, bodyState s s) ∧
      checkRowPtr (issueCtx s (.vldg 30 4 5 0) 0) .vldg (rowPtr v) (bodyState s s) = .ok (owner, bodyState s s) ∧
      rs (issueCtx s (.vldg 30 4 5 0) 0) 5#6 (bodyState s s) = .ok (u, bodyState s s) ∧
      ∃ idx t2, gatherIndices (issueCtx s (.vldg 30 4 5 0) 0) (rowPtr v) (rowPtr u) (bodyState s s) = .ok (idx, t2) :=
  ⟨withRowPtr .l (.vldg 30 4 5 0), _, _, _, issuesAt0 (by decide), rfl, rfl, rfl, okOf (by decide +kernel)⟩

theorem wit_VectorLoadsAndStoresMoveRows_store :
    ∃ s v owner, Issues s (.vst 1 4 0 0) 0 s ∧ rs (issueCtx s (.vst 1 4 0 0) 0) 4#6 (bodyState s s) = .ok (v, bodyState s s) ∧
      checkRowPtr (issueCtx s (.vst 1 4 0 0) 0) .vst (rowPtr v) (bodyState s s) = .ok (owner, bodyState s s) ∧
      bytesFit (bodyState s s) 0 owner (rowBytes (rowPtr v) (laneOffsets .vst (rowPtr v) 0 [])) = true ∧ vformAccepts .vst (rowPtr v) 0 = true ∧
      ∃ x t1, storeRow (issueCtx s (.vst 1 4 0 0) 0) 1 (bodyState s s) = .ok (x, t1) :=
  ⟨modUnit (withRowPtr .x (.vst 1 4 0 0)) 0 fun u => { u with place := { u.place with groups := [(0, 0)], rowTags := [(1, 3)] } }, _, _,
    issuesAt0 (by decide), rfl, rfl, by decide +kernel, by decide +kernel, okOf (by decide +kernel)⟩

/-- Hart 0 with an empty port of its own thread. -/
def aHart : State := modHart up 0 fun h => { h with port := { h.port with owner := some 0 } }

/-- Hart 0 with a port on continuation 1, which lives, and an address in x6. -/
def aPort (va : Word) : State :=
  modCont (modHart aHart 0 fun h => { h with port := { h.port with cont := 1 }, x := h.x.setIfInBounds 6 va }) 1 fun k => { k with live := true }

theorem wit_HostFormsComplete :
    (∃ s : State, HartFree s ∧ portBound s.actingHart = false) ∧
    (∃ s : State, FormRuns s 1 5 ∧ s.actingHart.port.cont = 0xFFFFFFFF ∧ (s.actingHart.reg 0).toNat < 256 ∧
      (s.conts.filter fun x => x.2.live).length < 100000) ∧
    (∃ (s : State) (desc : List Byte), FormRuns s 1 5 ∧ PortHas s 1 ∧ Sound s 1 ∧ (s.actingHart.reg 6).toNat % 64 = 0 ∧
      portRead s 0 (wordHost 1 0 6 1 5) (s.actingHart.reg 6) 64 = .ok desc) ∧
    (∃ s : State, FormRuns s 1 5 ∧ PortHas s 1 ∧ Sound s 1 ∧ findJob s 1 0 = none ∧ openJobs (getCont s 1) = []) ∧
    (∃ s : State, FormRuns s 1 5 ∧ PortHas s 1 ∧ quiet (cancelAll s 1 11) 1 = true) ∧
    (∃ (s : State) (ps : List Nat), FormRuns s 1 5 ∧ PortHas s 1 ∧ Sound s 1 ∧ (s.actingHart.reg 6).toNat % 8 = 0 ∧
      hartReach s 0 (s.actingHart.reg 6) true 8 = .ok ps ∧ physWaits s (.form 0 (wordHost 8 0 6 1 5)) ps = none) ∧
    ∃ s : State, FormRuns s 1 5 ∧ PortHas s 1 ∧ (s.actingHart.reg 6).toNat % 64 = 0 ∧ (getCont s 1).faultQ = [] :=
  ⟨⟨modHart up 0 fun h => { h with cpthr := 5 }, ⟨rfl, rfl⟩, by decide⟩, ⟨aHart, ⟨⟨rfl, rfl⟩, by decide, by decide⟩, by decide, by decide, by decide⟩,
   ⟨aPort 0x10000000000, _, ⟨⟨rfl, rfl⟩, by decide, by decide⟩, ⟨by decide, rfl, rfl⟩, ⟨rfl, by decide⟩, by decide, rfl⟩,
   ⟨aPort 0, ⟨⟨rfl, rfl⟩, by decide, by decide⟩, ⟨by decide, rfl, rfl⟩, ⟨rfl, by decide⟩, by decide, rfl⟩,
   ⟨aPort 0, ⟨⟨rfl, rfl⟩, by decide, by decide⟩, ⟨by decide, rfl, rfl⟩, by decide +kernel⟩,
   ⟨aPort 0x10000000000, _, ⟨⟨rfl, rfl⟩, by decide, by decide⟩, ⟨by decide, rfl, rfl⟩, ⟨rfl, by decide⟩, by decide, rfl, rfl⟩,
   ⟨aPort 0, ⟨⟨rfl, rfl⟩, by decide, by decide⟩, ⟨by decide, rfl, rfl⟩, by decide, rfl⟩⟩

theorem wit_HartsAndExternalHostAct :
    (∃ s, (getHart s 0).user = true) ∧
    (∃ (s : State) (addr : Word), (getHart s 0).user = false ∧ addr.toNat % 256 = 0 ∧ (getHart s ((getHart s 0).cpsel.toNat % 128)).waiting = none ∧
      hartQueued s 0 = false ∧ allPopulated addr.toNat 256 = true ∧ physWaits s (.port 0 addr true) (bytesFrom addr.toNat 256) = none) ∧
    (∃ (s : State) (ps : List Nat) (va : Word), HartActs s 0 ∧ hartReach s 0 va true 8 = .ok ps ∧ va.toNat % 8 = 0 ∧ (getHart s 0).user = false ∧
      physWaits s (.hart 0 (.store va 8 0)) ps = none) ∧
    (∃ (s : State) (w : Waiting), (getHart s 0).waiting = some w ∧ (waitEnd s 0 w.what).isSome = true) ∧
    (allPopulated 0x10000000000 8 = true ∧ allPopulated 0x300000000 8 = false) :=
  ⟨⟨modHart up 0 fun h => { h with user := true }, rfl⟩, ⟨up, 0x10000000000, rfl, by decide, rfl, rfl, by decide +kernel, by decide +kernel⟩,
    ⟨up, _, 0x10000000000, ⟨rfl, rfl⟩, rfl, by decide, rfl, rfl⟩,
    ⟨modHart up 0 fun h => { h with waiting := some { what := .join 1 5, reply := true, rd := 3 } }, _, rfl, by decide +kernel⟩,
    by decide +kernel, by decide +kernel⟩

theorem wit_MarksSpillAndStagesFlush :
    (∃ (s : State) (a : Agent), 32 * (leesOf s ((s.order.marks.filter fun m => m.agent == agentKey a && !m.spilled).take 1 ++ s.order.marks.filter (·.spilled))).length ≤
      grownSize s.sched.leesMax (leesOf s ((s.order.marks.filter fun m => m.agent == agentKey a && !m.spilled).take 1 ++
        s.order.marks.filter (·.spilled))).length 64 s.sched.leesSize) ∧
    (∃ s : State, grownSize s.sched.leesMax (leesOf s (s.order.marks.filter (·.spilled))).length 64 s.sched.leesSize <
        32 * (leesOf s (s.order.marks.filter (·.spilled))).length ∧ leesOf s (s.order.marks.filter (·.spilled)) ≠ []) ∧
    ∃ (s : State) (ps : List Place), (getUnit s 0).alive = true ∧ (getUnit s 0).levels = [aLevel] ∧
      locateN s 0 aLevel.pool .write ((levelImage (getUnit s 0).ident.key.cont aLevel).take (32 + (aLevel.used - 32) / 4096 * 4096)).length = .ok ps :=
  ⟨⟨up, seqAgent (getUnit up 0) 0 .c, by decide +kernel⟩,
    ⟨{ up with order := { up.order with marks := [{ word := .mem 0x10000000000, words := 1, va := 0, agent := hartAgent 0 1, region := 0, write := true, atomic := false, cont := 1, job := 0, spilled := true }] } }, by decide +kernel, by decide +kernel⟩,
    ⟨withLevel (.nop 0), _, rfl, rfl, rfl⟩⟩

/-- The state of `at0` with the sequencer of its unit changed. -/
def withSeq (q : Seq) (f : SeqState → SeqState) : State := modSeq (at0 q (.nop 0)) 0 q f

theorem wit_SequencerEventsHappen :
    (∃ s : State, ((getUnit s 0).alive = true ∧ (getUnit s 0).place.resident = true ∧
      (getCore s (getUnit s 0).place.core).issuing = some (getUnit s 0).place.slot) ∧ (getSeq s 0 .c).status = .halting) ∧
    (∃ (s : State) (e : DqOut), (getSeq s 0 .c).dq.dqout = [e] ∧ e.val = some 7 ∧ (getSeq s 0 e.target).dq.dqin.length < 16) ∧
    (∃ (s : State), (getSeq s 0 .c).fl.frozen = some (.walk 0 0x10000 .read) ∧ translated s 0 0x10000 .read = true) ∧
    (∃ s : State, (getSeq s 0 .c).fl.frozen = some (.watch (.mem 0)) ∧ waitOver s 0 .c = true) ∧
    (∃ (s : State) (o : StoreOp), (getSeq s 0 .c).fl.stores = [o] ∧ o.due = 0 ∧ o.atom = none ∧ (o.bytes.map Prod.fst).Nodup ∧ s.MemOk) ∧
    (∃ s : State, (getSeq s 0 .c).fl.stores = [] ∧ (getSeq s 0 .c).fl.frozen = some .atomic) ∧
    (∃ s : State, (getSeq s 0 .c).status = .returning 8 ∧ (getSeq s 0 .c).fl.running = [] ∧ (getUnit s 0).alive = true) ∧
    (∃ s : State, (getUnit s 0).alive = true ∧ (getSeq s 0 .c).status = .halting ∧ dueFault (getSeq s 0 .c) = none ∧
      seqDone s 0 .c = true ∧ (getUnit s 0).exitLeft ≠ 1 ∧ (getUnit s 0).exitLeft ≠ 0) ∧
    (∃ (s : State) (f : PendFault), (getUnit s 0).alive = true ∧ (getSeq s 0 .c).status = .halting ∧ dueFault (getSeq s 0 .c) = some f ∧
      trapToHandler (getSeq s 0 .c) f.cause = true) := by
  refine ⟨⟨withSeq .c fun c => { c with status := .halting }, ⟨rfl, rfl, rfl⟩, rfl⟩,
    ⟨withSeq .c fun c => { c with dq := { c.dq with dqout := [{ rid := 0, target := .l, val := some 7 }] } }, _, rfl, rfl, by decide⟩,
    ⟨withSeq .c fun c => c.modFl fun f => { f with frozen := some (.walk 0 0x10000 .read) }, rfl, by decide +kernel⟩,
    ⟨withSeq .c fun c => c.modFl fun f => { f with frozen := some (.watch (.mem 0)) }, rfl, by decide +kernel⟩,
    ⟨withSeq .c fun c => c.modFl fun f => { f with stores := [{ bytes := [(.mem 0x10000000040, 5)], atom := none, va := 0, due := 0, push := none, rels := [] }] },
      _, rfl, rfl, rfl, by decide, by rfl⟩,
    ⟨withSeq .c fun c => c.modFl fun f => { f with frozen := some .atomic }, rfl, rfl⟩,
    ⟨withSeq .c fun c => { c with status := .returning 8 }, rfl, rfl, rfl⟩,
    ⟨withSeq .c fun c => { c with status := .halting }, rfl, rfl, rfl, by decide +kernel, by decide, by decide⟩,
    ⟨withSeq .c fun c => { c with status := .halting, tr := { c.tr with tvec := 0x40 }, fl := { c.fl with faults := [{ cause := 2, tval := 9, eng := none, race := none }] } },
      _, rfl, rfl, rfl, rfl⟩⟩

/-- A unit whose C has arrived at a barrier, its other sequencers exited. -/
def arrived (cl : Bool) : State := modUnit (at0 .c (.nop 0)) 0 fun u =>
  let u := (u.setSeq .l { u.seq .l with status := .exited }).setSeq .s { u.seq .s with status := .exited }
  u.setSeq .c ((u.seq .c).modFl fun f => { f with frozen := some (.barrier cl), arrivedC := cl, arrivedS := !cl })

theorem wit_BarriersDepartTogether :
    (∃ s : State, (getUnit s 0).alive = true ∧ allArrivedAt s (barrierUnits s 0 true) true = true ∧ 0 ∈ barrierUnits s 0 true ∧ (getSeq s 0 .c).status ≠ .exited ∧
      ∀ v ∈ barrierUnits s 0 true, (getUnit s v).place.resident = true) ∧
    (∃ s : State, (getUnit s 0).alive = true ∧ allArrivedAt s (barrierUnits s 0 false) false = true ∧ (barrierUnits s 0 false).Nodup ∧
      (exchangeTable s (getUnit s 0).ident.key 0).xfers.any (xferBlocked s (barrierUnits s 0 false)) = false ∧
      (∀ v ∈ barrierUnits s 0 false, (getUnit s v).place.resident = true) ∧
      (exchangeTable s (getUnit s 0).ident.key 0).xfers = []) ∧
    (∃ s : State, (getUnit s 0).alive = true ∧ allArrivedAt s (barrierUnits s 0 true) true = false) ∧
    ∃ (s : State) (x : Transfer), s.MemOk ∧ unitOfIndex s [0] x.src = some 0 ∧ unitOfIndex s [0] x.dst = some 0 ∧ 0 < x.bytes ∧
      (match runXfer [0] (schedAgent 0 (getUnit s 0).ident.key) s x with | .ok _ => true | .error _ => false) = true :=
  ⟨⟨arrived true, rfl, by decide +kernel, by decide +kernel, by decide, by decide +kernel⟩,
    ⟨arrived false, rfl, by decide +kernel, by decide +kernel, by decide +kernel, by decide +kernel, by rfl⟩,
    ⟨at0 .c (.nop 0), rfl, by decide +kernel⟩,
    ⟨arrived false, { at0 := 0, bytes := 4, src := 0, dst := 0, foff := 0, toff := 64 }, by rfl, rfl, rfl, by decide, by decide +kernel⟩⟩

/-- A command of the C of unit 0. -/
def aCmd (code : Nat) (rl : Bool) : EngCmd := { code := code, rl := rl, seqNo := 3, uid := 0, issuer := .c, ra := 0, rb := 0, h := 0, h2 := 0, scale := 0, scale2 := 0, push := none, level := none, rel := { agent := seqAgent (getUnit up 0) 0 .c, scope := 1, hist := [] }, lockNo := 7, word := 0, pos := 0, trace := [], recs := [], held := false, started := false, writes := [], flags := 0 }

/-- Such a command as it runs. -/
def aRun (fin : Bool) (hold : Hold) : RunCmd := { cmd := aCmd 2 false, pos := 1, trace := [], fin := fin, hold := hold, recs := [] }

/-- The state of `at0` with a command in the queue of an engine. -/
def withCmd (e : Eng) (c : EngCmd) : State := modEq (at0 .c (.nop 0)) 0 .c e fun x => { x with cmds := [c] }

/-- The state of `at0` with a command that an engine of core 0 runs. -/
def withRun (e : Eng) (r : RunCmd) : State := setRun (at0 .c (.nop 0)) (.own 0 e) (some r)

theorem wit_EngineEventsRunCommands :
    (∃ (s : State) (k : Nat) (q : Seq) (us : List Nat), resumeWaiting s 0 .copy = s ∧ ((getCore s 0).engine .copy).run = none ∧
      nextQueue s 0 .copy ((getCore s 0).engine .copy).next = some (k, q, us)) ∧
    (∃ (s : State) (r : RunCmd), runAt s (.own 0 .row) = some r ∧ runAt s (.reloc 0 .row) = none ∧ (getUnit s r.cmd.uid).alive = true ∧ r.fin = true ∧ tokenFits s r.cmd = true) ∧
    (∃ (s : State) (r : RunCmd), runAt s (.own 0 .row) = some r ∧ runAt s (.reloc 0 .row) = none ∧ (getUnit s r.cmd.uid).alive = true ∧ r.hold = .failed 2 ∧ r.recs = []) ∧
    (∃ (s : State) (c : EngCmd), (getUnit s 0).place.core = 0 ∧ ((getCore s 0).engine .row).run.isSome = true ∧ engineHasWork s 1 .row = false ∧
      runAt s (.reloc 1 .row) = none ∧ readyHead s 0 .row 0 .c = some c ∧ c.rl = true ∧ c.started = false) ∧
    (∃ (s : State) (r : RunCmd), (getCluster s 0).press.cur = some r ∧ canResume s r = true) ∧
    (∃ (s : State) (r : RunCmd), ((getCore s 0).engine .copy).run = none ∧ runAt s (.reloc 0 .copy) = none ∧
      ((getCore s 0).engine .copy).waiting.find? (fun r => canResume s r || hasFailed r || !(recordHolds s r)) = some r) :=
  ⟨⟨withCmd .copy (aCmd 2 false), _, _, _, rfl, rfl, by rfl⟩,
    ⟨withRun .row (aRun true .none), _, rfl, rfl, rfl, rfl, rfl⟩,
    ⟨withRun .row (aRun false (.failed 2)), _, rfl, rfl, rfl, rfl, rfl⟩,
    ⟨setRun (withCmd .row (aCmd 2 true)) (.own 0 .row) (some (aRun false .none)), _, rfl, rfl, by rfl, rfl, by rfl, rfl, rfl⟩,
    ⟨setRun (at0 .c (.nop 0)) (.press 0) (some (aRun false .none)), _, rfl, rfl⟩,
    ⟨modCore (at0 .c (.nop 0)) 0 fun c => c.setEngine .copy { c.engine .copy with waiting := [aRun false (.failed 2)] }, _, rfl, rfl, by rfl⟩⟩

/-- The state of `at0` with C requesting the press, and the press changed. -/
def withLease (f : PressState → PressState) : State :=
  modPress (modUnit (at0 .c (.nop 0)) 0 fun u => { u with press := { u.press with lreq := true } }) 0 f

theorem wit_PressEventsGrantLoadAndEnd :
    (∃ s : State, (getCluster (settleLease s 0) 0).press.holder = none ∧ (getCluster (settleLease s 0) 0).press.cur = none ∧
      (getCluster (settleLease s 0) 0).press.reload = false ∧ requestsLease (settleLease s 0) 0 0 = true) ∧
    (∃ s : State, (getCluster (settleLease s 0) 0).press.reload = true ∧ (getCluster (settleLease s 0) 0).press.unit = some 0 ∧
      (getUnit (settleLease s 0) 0).press.wrec = some (0, 1) ∧ (getUnit (settleLease s 0) 0).place.locks = []) ∧
    (∃ (s : State) (c : EngCmd), (getCluster (settleLease s 0) 0).press.unit = some 0 ∧ (getCluster (settleLease s 0) 0).press.cur = none ∧
      readyHead (settleLease s 0) 0 .press 0 .c = some c ∧ c.code ≠ 1) ∧
    ∃ (s : State) (r : RunCmd), (getCluster s 0).press.cur = some r ∧ r.fin = true ∧ (getUnit s r.cmd.uid).alive = true ∧ tokenFits s r.cmd = true ∧
      (getCluster s 0).press.holder.isSome :=
  ⟨⟨withLease id, rfl, rfl, rfl, rfl⟩,
    ⟨modUnit (withLease fun p => { p with reload := true, holder := some 0, unit := some 0 }) 0 fun u => { u with press := { u.press with wrec := some (0, 1) } },
      rfl, rfl, rfl, rfl⟩,
    ⟨modEq (withLease fun p => { p with holder := some 0, unit := some 0, cmds := 16 }) 0 .c .press fun x => { x with cmds := [aCmd 3 false] }, _,
      by rfl, by rfl, by rfl, by decide⟩,
    ⟨withLease fun p => { p with holder := some 0, cur := some (aRun true .none) }, _, rfl, rfl, rfl, rfl, rfl⟩⟩

/-- The state of `at0` with a collective command of unit 0 at die 0. -/
def withColl (c : EngCmd) (silent mismatch : Bool) : State := modDie (at0 .c (.nop 0)) 0 fun d => { d with
  coll := [{ core := 0, cmd := c, started := false, elems := [], contribs := [], mismatch := mismatch, silent := silent, hold := .none, trace := [], result := none }] }

theorem wit_CollectivesMatchAndCommit :
    (∃ s : State, readyUnits s 0 .coll .c ≠ [] ∧ takesPart s = true) ∧ (∃ s : State, takesPart s = false) ∧
    (∃ (s : State) (x : CollCmd), (getDie s 0).coll[0]? = some x ∧ (getUnit s x.cmd.uid).alive = true ∧ tokenFits s x.cmd = true ∧ x.silent = true ∧
      x.result = none ∧ staleCmd s x.cmd = false) ∧
    (∃ (s : State) (x : CollCmd), (getDie s 0).coll[0]? = some x ∧ (getUnit s x.cmd.uid).alive = true ∧ tokenFits s x.cmd = true ∧ x.silent = false ∧
      x.mismatch = true ∧ x.result = none) ∧
    (∃ (s : State) (x : CollCmd), (getDie s 0).coll[0]? = some x ∧ x.cmd.code ≠ 5 ∧ x.cmd.rb.toNat % 2 ^ 24 ≠ 0) ∧
    ∃ (s : State) (x : CollCmd), (getDie s 0).coll[0]? = some x ∧ x.silent = false ∧ x.mismatch = false ∧ allArrived s x = false :=
  ⟨⟨let s := withCmd .coll (aCmd 0 false); { s with group := { s.group with state := 2 } }, by decide +kernel, rfl⟩, ⟨up, rfl⟩,
    ⟨withColl (aCmd 0 false) true false, _, rfl, rfl, rfl, rfl, rfl, rfl⟩, ⟨withColl (aCmd 0 false) false true, _, rfl, rfl, rfl, rfl, rfl, rfl⟩,
    ⟨withColl { aCmd 0 false with rb := 5 } false false, _, rfl, by decide, by decide⟩,
    ⟨withColl (aCmd 0 false) false false, _, rfl, rfl, rfl, rfl⟩⟩

/-- A walk for the C of unit 0, of a continuation and a generation. -/
def aWalk (cont gen : Nat) : Walk := { cont := cont, gen := gen, va := 0x40000, kind := .read, waiter := .seq 0 .c, agent := seqAgent (getUnit up 0) 0 .c, core := 0 }

/-- The state of `at0` with a walk in progress on die 0 and the die changed. -/
def withWalk (w : Walk) (f : DieState → DieState) : State := modDie (at0 .c (.nop 0)) 0 fun d => f { d with walks := [w] }

/-- A live continuation 0 of generation 0 with a translation mode. -/
def liveCont (satp : Word) (s : State) : State := modCont s 0 fun c => { c with live := true, gen := 0, satp := satp }

/-- A fault record. -/
def aFault : FaultRec := newFault (getDie up 0) (aWalk 0 0) 0

/-- A walk that maps. -/
theorem mapsSome {w : Walked} (h : (match w with | .mapped _ => true | _ => false) = true) : ∃ m, w = .mapped m := by
  cases w <;> simp_all

theorem wit_WalksFaultsAndReplaysAct :
    (∃ s : State, (getDie s 0).walks[0]? = some (aWalk 5 1) ∧ ¬ ((getCont s 5).live = true ∧ (getCont s 5).gen.toNat = 1)) ∧
    (∃ s : State, (getDie s 0).walks[0]? = some (aWalk 0 0) ∧ (getCont s 0).live = true ∧ (getCont s 0).gen.toNat = 0 ∧
      walkQueues s (aWalk 0 0) = false ∧ ∃ m, walkVa s.mem (getCont s 0).satp (getCont s 0).hgatp 0x40000 false = .mapped m) ∧
    (∃ s : State, (getDie s 0).walks[0]? = some (aWalk 0 0) ∧ walkQueues s (aWalk 0 0) = true) ∧
    (∃ (s : State) (why : Nat), (getDie s 0).walks[0]? = some (aWalk 0 0) ∧ (getCont s 0).live = true ∧ (getCont s 0).gen.toNat = 0 ∧
      walkVa s.mem (getCont s 0).satp (getCont s 0).hgatp 0x40000 false = .fault why ∧ (getDie s 0).faults = [] ∧ (getDie s 0).ring.on = true ∧
      (getDie s 0).ring.room = true ∧ unposted (getDie s 0) = none) ∧
    (∃ (s : State) (r : FaultRec), (getDie s 0).faults.find? (fun r => r.seq == (0 : Word).toNat % 2 ^ 32 && r.gen % 65536 == (0 : Word).toNat / 2 ^ 48) = some r ∧
      (getCont s r.cont).live = true ∧ (getCont s r.cont).terminated = none) ∧
    (getDie up 0).faults.find? (fun r => r.seq == (0 : Word).toNat % 2 ^ 32 && r.gen % 65536 == (0 : Word).toNat / 2 ^ 48) = none := by
  refine ⟨⟨withWalk (aWalk 5 1) id, rfl, by decide⟩, ⟨{ liveCont (0xA000000010000000#64) (withWalk (aWalk 0 0) id) with
      mem := memPutBytes (memPutBytes (memPutBytes (memPutBytes (memPutBytes [] 0x10000000000 (leBytes 8 0x4000000401)) 0x10000001000 (leBytes 8 0x4000000801))
        0x10000002000 (leBytes 8 0x4000000C01)) 0x10000003000 (leBytes 8 0x4000001001)) 0x10000004200 (leBytes 8 0x40000014DF) }, rfl, rfl, rfl, by decide +kernel, mapsSome (by decide +kernel)⟩,
    ⟨modDie (liveCont (0xA000000010000000#64) (withWalk (aWalk 0 0) id)) 0 fun d => { d with budgets := [(0, 0)] }, rfl, by decide +kernel⟩,
    ⟨liveCont 0 (withWalk (aWalk 0 0) fun d => { d with ring := { d.ring with cfg := 0x20 } }), 0, rfl, rfl, rfl, rfl, rfl, rfl, by decide +kernel, rfl⟩,
    ⟨liveCont 0 (modDie up 0 fun d => { d with faults := [aFault] }), aFault, by decide +kernel, rfl, rfl⟩, by decide +kernel⟩

/-- A graph of one LAUNCH node, one of a kind, and END. -/
def aGraph (kind : Nat) (a b : Word) : GraphRec := { image := 0x1000, edges := [], waits := [], nodes :=
  [{ kind := 0, hold := false, press := false, preds := 0, f08 := 0, f10 := 1, f18 := 0, f20 := 0 }, { kind := kind, hold := false, press := false, preds := 0, f08 := a, f10 := b, f18 := 0, f20 := 0 },
   { kind := 4, hold := false, press := false, preds := 2, f08 := 0, f10 := 0, f18 := 0, f20 := 0 }] }

/-- A launch of one core with 16 KiB of scratchpad and no parameters. -/
def aLaunch : LaunchInfo := { image := 0x1000, streams := [], entry := [0, 4, 8, 12], trap := [], spad := 16384, data := [], tables := [], block := [], file := [] }

/-- A job of continuation 0 whose phase 0 runs, with node states. -/
def aJob (g : GraphRec) (ns : List NodeRun) : Job := { id := 1, op := 0, cls := 2, nphase := 1, graph := 0, image := 0, gindex := 0, period := 0, patches := [], hart := none, t0 := 0, next := 1, phase := some { index := 0, graph := g, nodes := ns, status := 2, rel := [] }, past := [], status := 2, rel := [], endRel := [] }

/-- The running machine with a job of continuation 0. -/
def withJob (s : State) (j : Job) : State := modCont s 0 fun c => { c with live := true, jobs := [j] }

/-- A key of that job's phase. -/
def nodeKey (i : Nat) : NodeKey := { cont := 0, job := 1, phase := 0, node := i }

/-- A node in a state, with its launch. -/
def aNode (st : NodeStatus) : NodeRun := { NodeRun.init with status := st, launch := some aLaunch }

/-- Partition bytes saved by a park. -/
def aSaved : SavedUnit := { spad := [(4, 7)], rows := [], marks := [], heads := [], rowHeads := [], record := true, spill := 0 }

/-- A value that passes a test. -/
theorem someOf {α : Type} {o : Option α} {p : α → Bool} (h : o.any p = true) : ∃ x, o = some x ∧ p x = true := by
  cases o <;> simp_all

/-- A parked unit with bytes saved. -/
def aParked : State := modUnit up 0 fun u => { u with saved := some aSaved, place := { u.place with spadSize := 16384 } }

/-- Whether a result is there. -/
def isOk {ε α : Type} : Except ε α → Bool
  | .ok _ => true
  | .error _ => false

/-- A result that is there. -/
theorem okIn {ε α : Type} {e : Except ε α} (h : isOk e = true) : ∃ x, e = .ok x := by
  cases e with
  | ok x => exact ⟨x, rfl⟩
  | error e => cases h

/-- A place of core 0. -/
def aPlace : UnitPlace := { core := 0, slot := 0, base := 0, group := 0 }

theorem parkedComesBack : ∃ (b t : State) (d : Decision), resuming aParked (getUnit aParked 0).ident.key [aPlace] = some (d, b) ∧
    seatParked aParked (getUnit aParked 0).ident.key [aPlace] b = .ok t ∧ b.units = aParked.units ∧ b.MemOk := by
  obtain ⟨⟨d, b⟩, h, k⟩ := someOf (o := resuming aParked (getUnit aParked 0).ident.key [aPlace])
    (p := fun x => decide (x.2.units = aParked.units) && memWf x.2.mem) (by decide +kernel)
  obtain ⟨y, g, z⟩ := someOf (o := resuming aParked (getUnit aParked 0).ident.key [aPlace])
    (p := fun x => isOk (seatParked aParked (getUnit aParked 0).ident.key [aPlace] x.2)) (by decide +kernel)
  obtain rfl : (d, b) = y := Option.some.inj (h.symm.trans g)
  obtain ⟨t, e⟩ := okIn z
  rw [Bool.and_eq_true, decide_eq_true_eq] at k
  exact ⟨b, t, d, h, e, k.1, k.2⟩

/-- The machine with a ready launch of one core. -/
def aReady : State := withJob up (aJob (aGraph 1 0 0) [aNode .ready, aNode .waiting, aNode .waiting])

/-- The launch's record. -/
def aLaunchNode : NodeRec := { kind := 0, hold := false, press := false, preds := 0, f08 := 0, f10 := 1, f18 := 0, f20 := 0 }

theorem readyIsPlaced : ∃ (b : State) (d : Decision), placing aReady (nodeKey 0) aLaunchNode (aNode .ready) aLaunch [aPlace] = some (d, b) ∧
    b.nextUid = aReady.nextUid ∧ findNode b (nodeKey 0) = some (aNode .ready) := by
  obtain ⟨⟨d, b⟩, h, k⟩ := someOf (o := placing aReady (nodeKey 0) aLaunchNode (aNode .ready) aLaunch [aPlace])
    (p := fun x => decide (x.2.nextUid = aReady.nextUid) && decide (findNode x.2 (nodeKey 0) = some (aNode .ready))) (by decide +kernel)
  rw [Bool.and_eq_true, decide_eq_true_eq, decide_eq_true_eq] at k
  exact ⟨b, d, h, k.1, k.2⟩

theorem wit_ClocksParksAndPlacementsAct :
    (∃ s : State, busyCores s ≠ [] ∧ (s.units.map Prod.fst).Nodup ∧ proposals (atTime s 5) (fun _ => true) = []) ∧
    (∃ s : State, (unitsOf s (getUnit s 0).ident.key).filter (fun v => (getUnit s v).place.resident) = [0] ∧ pressBusy s 0 = false ∧ gangRoom s [0] = true ∧ mayPark s (getUnit s 0).ident.key = true ∧ (s.units.map Prod.fst).Nodup ∧ saveStop s (getUnit s 0).ident.key = none ∧
      gangRoom ([0].foldl haltUnit (leaveQueue s (.context (getUnit s 0).ident.key))) [0] = true) ∧
    (∃ (s b t : State) (d : Decision) (p : UnitPlace), parkedUnits s (getUnit s 0).ident.key = [0] ∧ resuming s (getUnit s 0).ident.key [p] = some (d, b) ∧
      seatParked s (getUnit s 0).ident.key [p] b = .ok t ∧ b.units = s.units ∧ restoreSound (getUnit s 0) = true ∧ (getUnit s 0).saved = some aSaved ∧ b.MemOk ∧
      memWf aSaved.spad = true ∧ ∀ c ∈ aSaved.spad, c.1 < (getUnit s 0).place.spadSize) ∧
    (∃ (s : State) (p : UnitPlace) (j : Job) (n : NodeRec) (r : NodeRun) (d : Decision) (b : State) (ps : List Place), findJob s 0 1 = some j ∧ nodeRec s (nodeKey 0) = some n ∧ findNode s (nodeKey 0) = some r ∧
      r.launch = some aLaunch ∧ r.status = .ready ∧ placing s (nodeKey 0) n r aLaunch [p] = some (d, b) ∧
      b.nextUid = s.nextUid ∧ findNode b (nodeKey 0) = some r ∧ inParams s 0 0 aLaunch.block.length = false ∧ nodePlaces s (nodeKey 0) 0 .write aLaunch.block.length = .ok ps) ∧
    (∃ (s : State) (j : Job) (g : GraphRec), findJob s 0 1 = some j ∧ j.status = 2 ∧ j.phase = none ∧ j.next < j.nphase ∧ laterGraph s 0 j = some g) ∧
    (∃ (s : State) (r : NodeRun), findNode s (nodeKey 0) = some r ∧ r.status = .ready ∧ issuing s (nodeKey 0) = false ∧ r.idleAt + 20000000 ≤ max s.stamp 20000000) := by
  refine ⟨⟨at0 .c (.nop 0), by decide +kernel, by decide +kernel, by decide +kernel⟩,
    ⟨modCont (at0 .c (.nop 0)) 0 fun c => { c with parkAsked := [{ cont := 0, job := 0, phase := 0, node := 0 }] }, by decide +kernel, by decide +kernel, by decide +kernel, by decide +kernel, by decide +kernel, by decide +kernel, by decide +kernel⟩,
    (let ⟨b, t, d, h, g, k, m⟩ := parkedComesBack; ⟨aParked, b, t, d, _, by decide +kernel, h, g, k, by decide +kernel, rfl, m, rfl, by decide +kernel⟩),
    (let ⟨b, d, h, k, m⟩ := readyIsPlaced; ⟨aReady, aPlace, _, _, _, d, b, _, rfl, rfl, rfl, rfl, rfl, h, k, m, by decide +kernel, rfl⟩),
    ⟨withJob (modCont up 0 fun c => { c with graphs := [(0, aGraph 1 0 0)] }) { aJob (aGraph 1 0 0) [] with phase := none, nphase := 2 }, _, _, rfl, rfl, rfl, by decide, rfl⟩,
    ⟨withJob up (aJob (aGraph 1 0 0) [aNode .ready, aNode .waiting, aNode .waiting]), _, rfl, rfl, by decide +kernel, by decide +kernel⟩⟩

/-- Die 0 with the translation of a page of continuation 0 that stands at node 0. -/
def withPage (s : State) : State := modDie s 0 fun d => { d with
  tlb := [{ cont := 0, gen := 0, base := 0x40000, pbase := 0x10000000000, log2 := 12, read := true, write := true, leaf := 12, gbase := 0x10000000000, gleaf := 12 }] }

/-- Places that a node reaches are its places while no budget is spent. -/
theorem nodePlaces_ok {s : State} {k : NodeKey} {va : Word} {kind : AccKind} {n : Nat} {ps : List Place} (h : nodeReach s k false va kind n = .ok ps)
    (hb : (askBudget s (.node k) false ps).isSome = false) : nodePlaces s k va kind n = .ok ps := by
  cases hk : askBudget s (.node k) false ps with
  | none => simp [nodePlaces, nodeServed, h, hk]
  | some t => rw [hk] at hb; cases hb

theorem wit_NodesCompleteInTheirPhase :
    (∃ (s : State) (j : Job) (p : PhaseRun), (nodeRec s (nodeKey 2)).map (·.kind) = some 4 ∧ (findNode s (nodeKey 2)).map (·.status) = some .running ∧ findJob s 0 1 = some j ∧
      j.phase = some p ∧ j.nphase ≤ j.next ∧ statusFinal j.status = false ∧ ((getCont s 0).jobs.filter fun x => x.id == 1) = [j]) ∧
    (∃ (s : State) (j : Job) (p : PhaseRun), (nodeRec s (nodeKey 2)).map (·.kind) = some 4 ∧ (findNode s (nodeKey 2)).map (·.status) = some .running ∧ findJob s 0 1 = some j ∧
      j.phase = some p ∧ j.next < j.nphase ∧ j.status = 2 ∧ ((getCont s 0).jobs.filter fun x => x.id == 1) = [j]) ∧
    (∃ (s : State) (n : NodeRec) (r : NodeRun), nodeRec s (nodeKey 0) = some n ∧ findNode s (nodeKey 0) = some r ∧ r.status = .running ∧ n.kind = 0 ∧ launchCounter n r = 0) ∧
    (∃ (s : State) (p : PhaseRun) (n : NodeRec) (x : List (Int × Int) × State), nodeRec s (nodeKey 1) = some n ∧ n.kind = 1 ∧ (findJob s 0 1).bind (·.phase) = some p ∧
      readCounters (nodeKey 1) (waitEntries p n) s = .ok x) ∧
    (∃ (s : State) (n : NodeRec) (ps : List Place) (t : State), nodeRec s (nodeKey 1) = some n ∧ n.kind = 2 ∧ (findNode s (nodeKey 1)).map (·.status) = some .running ∧
      nodePlaces s (nodeKey 1) n.f08 .atomic 8 = .ok ps ∧ nodeMark s (nodeKey 1) n.f08 ps true true = .ok t ∧ s.MemOk ∧ ps.Nodup) ∧
    (∃ (s t : State) (n : NodeRec) (i : Nat), nodeRec s (nodeKey 1) = some n ∧ n.kind = 3 ∧
      copyBytesNode (nodeKey 1) n 0 (Nat.min (4096 - 0 % 4096) (n.f18.toNat - 0)) s = (t, i, none)) := by
  refine ⟨⟨withJob up (aJob (aGraph 1 0 0) [aNode .complete, aNode .complete, aNode .running]), _, _, rfl, rfl, rfl, rfl, by decide, rfl, by rfl⟩,
    ⟨withJob up { aJob (aGraph 1 0 0) [aNode .complete, aNode .complete, aNode .running] with nphase := 2 }, _, _, rfl, rfl, rfl, rfl, by decide, rfl, by rfl⟩,
    ⟨withJob up (aJob (aGraph 1 0 0) [{ aNode .running with units := [(0, 0)] }, aNode .waiting, aNode .waiting]), _, _, rfl, rfl, rfl, rfl, by decide +kernel⟩,
    ⟨withJob up (aJob (aGraph 1 0 0) [aNode .running, aNode .running, aNode .waiting]), _, _, _, rfl, rfl, rfl, rfl⟩,
    ⟨withJob (withPage up) (aJob (aGraph 2 0x40008 1) [aNode .running, aNode .running, aNode .waiting]), _, _, _, rfl, rfl, rfl,
      nodePlaces_ok rfl (by decide +kernel), rfl, rfl, by decide +kernel⟩,
    ⟨withJob up (aJob (aGraph 3 0x40008 1) [aNode .running, aNode .running, aNode .waiting]), _, _, _, rfl, rfl, rfl⟩⟩

theorem wit_EnergyAndPowerEventsAct :
    (∃ s : State, (getCont s 0).live = true ∧ (getCont s 0).energy.quota ≠ 0 ∧ (atTime s 10000000).stamp % (1000000 * (getCont s 0).energy.period) = 0) ∧
    (∃ s : State, (atTime s 1000000).stamp % 1000000 = 0 ∧ (∀ i, (getCluster s 0).partition = some i → i < 8) ∧ (getCluster s 0).headroom = true ∧ holdsClass0 s 0 = true ∧ s.power.pendingCap = some (2000, [])) ∧
    (∃ s : State, (getCluster s 0).moving = some 7) ∧ (∃ s : State, (getDie s 0).ballast = true) :=
  ⟨⟨modCont up 0 fun c => { c with live := true, energy := { c.energy with quota := 5, period := 10 } }, rfl, by decide, by decide⟩,
    ⟨{ at0 .c (.nop 0) with power := { up.power with pendingCap := some (2000, []) } }, by decide, by decide, rfl, by decide +kernel, rfl⟩,
    ⟨modCluster up 0 fun c => { c with moving := some 7 }, rfl⟩, ⟨modDie up 0 fun d => { d with ballast := true }, rfl⟩⟩

/-- The running machine in a group, in a state and with one peer. -/
def inState (n : Nat) (p : Peer) : State := { up with group := { up.group with state := n, peers := [(3, p)] } }

/-- A peer in a state. -/
def aPeer (n missed : Nat) : Peer := { state := n, seq := 0, limit := 1200, next := none, missed := missed, evictAt := none, leaveAt := none }

theorem wit_GroupEventsMoveTheCeiling :
    inGroup (inState 2 (aPeer 2 0)).group = true ∧ inGroup up.group = false ∧ tabGet (inState 2 (aPeer 2 4)).group.peers 3 = some (aPeer 2 4) ∧
    tabGet (inState 2 (aPeer 4 0)).group.peers 3 = some (aPeer 4 0) ∧ (∃ s : State, s.group.next = some (1000, 5) ∧ s.group.state = 1) ∧
    (atTime (inState 2 (aPeer 2 0)) 20000).stamp % 20000 = 0 ∧ (∃ s : State, s.group.state = 3 ∧ s.group.leaveAt = some 0 ∧ 0 + 200000 ≤ (atTime s 200000).stamp) ∧
    (∃ s : State, inGroup s.group = true ∧ s.group.nextVersion = some (0x10000, 0) ∧ collectivesFly s = false) ∧ tabGet up.group.peers 3 = none :=
  ⟨rfl, rfl, rfl, rfl, ⟨{ up with group := { up.group with state := 1, next := some (1000, 5) } }, rfl, rfl⟩, by decide,
    ⟨{ up with group := { up.group with state := 3, leaveAt := some 0 } }, rfl, rfl, by decide⟩,
    ⟨{ up with group := { up.group with state := 2, nextVersion := some (0x10000, 0) } }, rfl, rfl, by decide +kernel⟩, rfl⟩

theorem wit_PortEventsAdmitAndPause :
    (getPort up 0 0).windowAt + 1000 ≤ (atTime up 1000).stamp ∧ (atTime up 999).stamp < (getPort up 0 0).windowAt + 1000 := ⟨by decide, by decide⟩

theorem wit_FirmwareInterfaceServesAndBoots :
    (∃ s : State, s.boot.stage = .rom) ∧ (∃ s : State, s.boot.stage = .recovery ∧ s.boot.refused = false) ∧
    (∃ s : State, s.boot.stage = .running ∧ s.boot.refused = true) ∧
    (∃ s : State, s.boot.stage = .running ∧ s.boot.refused = false ∧ s.boot.armed = true ∧ s.boot.expired = false ∧ s.boot.booted < 2 ∧ (getCont s 0).live = true ∧
      s.group.index ∈ [0, 1] ∧ (∀ k ∈ [3, 4], (getCluster s k).partition = none) ∧ tabGet s.boot.parts 2 = none ∧ ∀ k ∈ [3, 4], clusterHolds s k = false) ∧
    rangeInNode0 0x10000000000 (max 4096 8192) = true ∧ rangeInNode0 0 (max 4096 8192) = false :=
  ⟨⟨State.reset, rfl⟩, ⟨{ up with boot := { up.boot with stage := .recovery } }, rfl, rfl⟩, ⟨{ up with boot := { up.boot with refused := true } }, rfl, rfl⟩,
    ⟨{ modCont up 0 (fun c => { c with live := true }) with boot := { up.boot with armed := true } }, rfl, rfl, rfl, rfl, by decide, rfl, by decide, by decide, rfl,
      by decide⟩,
    by decide, by decide⟩

/-- The running machine with partition 2 in a state, and the opening requests of SPDM done over a way. -/
def withPart (st : TdispState) (session : Bool) : State :=
  { up with boot := { up.boot with mctp := { up.boot.mctp with asked := 3 }, parts := [(2, { clusters := [5], tdisp := st, session := session, root := none })] } }

theorem wit_AttestationAndInterfacesAct :
    State.reset.boot.stage ≠ .running ∧ (up.boot.stage = .running ∧ (wayOf up.boot .doe).asked < 1) ∧
    ((withPart .run true).boot.stage = .running ∧ 3 ≤ (wayOf (withPart .run true).boot .mctp).asked) ∧
    (∃ s : State, (wayOf s.boot .doe).handshake = some (some 2)) ∧
    (∃ s : State, (wayOf s.boot .doe).sessions = [some 2] ∧ (tabGet s.boot.parts 2).map (·.session) = some true) ∧
    (tabGet (withPart .unlocked false).boot.parts 2).map (·.tdisp) = some .unlocked ∧ (tabGet (withPart .locked false).boot.parts 2).map (·.tdisp) = some .locked ∧
    ((tabGet (withPart .run true).boot.parts 2).map (·.tdisp) = some .run ∧ ((withPart .run true).conts.map Prod.fst).Nodup ∧ (withPart .run true).MemOk) ∧
    (∃ s : State, (getCont s 1).live = true ∧ (getCont s 1).partition = some 2 ∧ (getCont s 1).terminated = none) :=
  ⟨by decide, ⟨rfl, by decide⟩, ⟨rfl, by decide⟩, ⟨modWay up .doe fun w => { w with handshake := some (some 2) }, rfl⟩,
    ⟨modWay (withPart .run true) .doe fun w => { w with sessions := [some 2] }, rfl, rfl⟩, rfl, rfl, ⟨rfl, by decide, rfl⟩,
    ⟨modCont up 1 fun c => { c with live := true, partition := some 2 }, rfl, rfl, rfl⟩⟩

/-- A sequencer at address 0 with results in flight. -/
def withResults (es : List Landing) : State := modSeq (at0 .x (.nop 0)) 0 .x fun c => c.modFl fun f => { f with running := es }

/-- A result due now. -/
def dueNow (k : LandKind) (dst ord : Nat) : Landing :=
  { ord := BitVec.ofNat 32 ord, flg := 0, tag := 3, dst := dst, kind := k, rem := 2, payload := 7, mask := none, push := none, rid := 0, region := 0, slot := 0, hidden := 0, resv := 0 }

theorem wit_CyclesLandWhatIsDue :
    ∃ s : State, (∀ o ∈ (getSeq s 0 .x).fl.stores, o.due ≠ 1) ∧
      (∀ e ∈ (getSeq s 0 .x).fl.running.filter fun e => e.rem ≤ 2, e.push = none ∧ e.kind ≠ .row) ∧
      ∃ e ∈ (getSeq s 0 .x).fl.running.filter fun e => e.rem ≤ 2, e.kind = .scalar ∧ e.dst = 63 ∧
        ∀ f ∈ (getSeq s 0 .x).fl.running.filter fun e => e.rem ≤ 2, f = e ∨ f.ord.toNat < e.ord.toNat :=
  ⟨withResults [dueNow .scalar 63 0, dueNow .scalar 63 1], by decide, by decide, dueNow .scalar 63 1, by decide +kernel, rfl, rfl, by decide +kernel⟩

theorem wit_CyclesLandWhatIsDue_others :
    (∃ s : State, (getSeq s 0 .x).fl.running.filter (fun e => e.rem ≤ 2) = [dueNow .pred 11 0]) ∧
    (∃ s : State, (getSeq s 0 .x).fl.running.filter (fun e => e.rem ≤ 2) = [dueNow .handle 15 0]) ∧
    ∃ s : State, (getSeq s 0 .x).fl.running.filter (fun e => e.rem ≤ 2) = [dueNow .row 15 0] ∧ rowGroup (getUnit s 0) 15 = some 0 ∧
      (∀ o ∈ (getSeq s 0 .x).fl.stores, o.due ≠ 1) ∧
      ∃ r, checkMark (seqAgent (getUnit s 0) 0 .x) 0 (getUnit s 0).ident.key.cont (getUnit s 0).ident.key.job accVa true false
        [(.acc 0 15 0, 256)] s = .ok r :=
  ⟨⟨withResults [dueNow .pred 11 0], rfl⟩, ⟨withResults [dueNow .handle 15 0], rfl⟩,
   ⟨modUnit (withResults [dueNow .row 15 0]) 0 fun u => { u with place := { u.place with groups := [(0, 0)] } }, rfl, rfl, by decide, _, rfl⟩⟩

/-- A word to run, in a sequencer whose handler stands in its stream. -/
def steadyAt (q : Seq) (i : Instr) : State := modSeq (at0 q i) 0 q fun c => { c with tr := { c.tr with tvec := 0 } }

/-- A word comes to a next state where its handler can be entered. -/
def RunsSteady (i : Instr) : Prop := ∃ s t : State, Steady s ∧ s.MemOk ∧ exec i s = .next t

/-- A result that is a next state. -/
def isNext : Host.Outcome State Fault Refusal → Bool
  | .next _ => true
  | _ => false

theorem runsSteady (q : Seq) (i : Instr) (h : (decide ((steadyAt q i).acting.tr.tvec ≠ BitVec.allOnes 64 ∧ (steadyAt q i).acting.tr.tstat.getLsbD 0 = false ∧
    (steadyAt q i).acting.fl.pour = none) && memWf (steadyAt q i).mem && isNext (exec i (steadyAt q i))) = true) : RunsSteady i := by
  simp only [Bool.and_eq_true, decide_eq_true_eq] at h
  cases hx : exec i (steadyAt q i) with
  | next t => exact ⟨_, t, h.1.1, h.1.2, hx⟩
  | _ => rw [hx] at h; exact absurd h.2 (by simp [isNext])

theorem wit_ScalarWordsFrame :
    RunsSteady (.add 63 1 2 0) ∧ RunsSteady (.jmp 0 0) ∧ RunsSteady (.pand 11 1 2 0) ∧ RunsSteady (.hmov 15 1 0) ∧ RunsSteady (.hgetb 15 3 0) ∧
      RunsSteady (.call 0 0) ∧ RunsSteady (.callr 62 0 0 0) :=
  ⟨runsSteady .c _ (by decide), runsSteady .c _ (by decide), runsSteady .c _ (by decide), runsSteady .l _ (by decide), runsSteady .l _ (by decide),
   runsSteady .c _ (by decide), runsSteady .c _ (by decide)⟩

theorem wit_ScalarWordsFrame_stores : RunsSteady (.st 3 1 0 3 0) ∧ RunsSteady (.hst 15 1 0) :=
  ⟨runsSteady .c _ (by decide), runsSteady .l _ (by decide)⟩

theorem wit_ScalarWordsFrame_queues : RunsSteady (.tkpush 1 0) ∧ RunsSteady (.fence 3 2 0) ∧ RunsSteady (.ssync 0) ∧ RunsSteady (.pace 1 13 0) :=
  ⟨runsSteady .c _ (by decide), runsSteady .c _ (by decide), runsSteady .c _ (by decide), runsSteady .c _ (by decide)⟩

theorem wit_ScalarWordsFrame_settings :
    RunsSteady (.halt 0) ∧ RunsSteady (.tkcfg 16 0) ∧ RunsSteady (.dbgpend 63 1 0) ∧ RunsSteady (.mts 1 1 0) ∧ RunsSteady (.qfmt 0 8 0) ∧ RunsSteady (.epop 31 13 0) :=
  ⟨runsSteady .c _ (by decide), runsSteady .c _ (by decide), runsSteady .c _ (by decide), runsSteady .c _ (by decide), runsSteady .c _ (by decide),
   runsSteady .c _ (by decide)⟩

theorem wit_ScalarWordsFrame_atomics : RunsSteady (.aadd 31 1 2 0 0 0) ∧ RunsSteady (.ckdrop 0 0) ∧ RunsSteady (.ckseal 15 0 0) :=
  ⟨runsSteady .c _ (by decide), runsSteady .c _ (by decide), runsSteady .c _ (by decide)⟩

theorem wit_VectorAndEngineWordsFrame :
    RunsSteady (.vadd 29 0 1 0 0) ∧ RunsSteady (.vabs 29 0 0 0) ∧ RunsSteady (.vrsum 0 1 0 0) ∧ RunsSteady (.vsel 2 0 1 0 0) ∧ RunsSteady (.vcmpeq 11 0 1 0 0) :=
  ⟨runsSteady .x _ (by decide +kernel), runsSteady .x _ (by decide +kernel), runsSteady .x _ (by decide +kernel), runsSteady .x _ (by decide +kernel), runsSteady .x _ (by decide +kernel)⟩

theorem wit_VectorAndEngineWordsFrame_engines :
    RunsSteady (.cpfx 1 2 3 0 0) ∧ RunsSteady (.ctld 1 2 3 0 0) ∧ RunsSteady (.cxfr 1 2 0 0) ∧ RunsSteady (.gath 1 2 3 0) ∧ RunsSteady (.scata 1 2 3 0) :=
  ⟨runsSteady .l _ (by decide), runsSteady .l _ (by decide), runsSteady .l _ (by decide), runsSteady .l _ (by decide), runsSteady .l _ (by decide)⟩

theorem wit_VectorAndEngineWordsFrame_rest :
    RunsSteady (.vext 31 0 1 0) ∧ RunsSteady (.vcmpct 0 0 0) ∧ RunsSteady (.vcflush 29 11 0) ∧ RunsSteady (.vrot 255 0) ∧ RunsSteady (.loopx 1 7 0) ∧
      RunsSteady (.vtag 29 0 0) ∧ RunsSteady (.vld 29 1 255 0) ∧ RunsSteady (.vst 29 1 255 0) :=
  ⟨runsSteady .x _ (by decide +kernel), runsSteady .x _ (by decide +kernel), runsSteady .x _ (by decide +kernel), runsSteady .x _ (by decide +kernel),
   runsSteady .x _ (by decide +kernel), runsSteady .x _ (by decide +kernel), runsSteady .x _ (by decide +kernel), runsSteady .x _ (by decide +kernel)⟩

theorem wit_VectorAndEngineWordsFrame_commands :
    RunsSteady (.rwsmx 7 15 1 2 1 0) ∧ RunsSteady (.xallr 15 1 2 0) ∧ RunsSteady (.pmul 15 1 2 0) ∧ RunsSteady (.prel 0) :=
  ⟨runsSteady .c _ (by decide), runsSteady .c _ (by decide), runsSteady .c _ (by decide), runsSteady .c _ (by decide)⟩

/-- A sequencer at address 0, given its turn, with its pc at a place of a stream of 4 bytes. -/
def turnAt (pc : Word) : State := { modSeq (at0 .c (.nop 0)) 0 .c fun c => { c with pc := pc } with agenda := [.issue 0 .c] }

theorem wit_StepRunsTheDecodedInstruction :
    ∃ (s : State) (ps : List Place), s.boot.stage = .running ∧ s.agenda = [.issue 0 .c] ∧ canIssue { s with agenda := [] } 0 .c = true ∧
      dueFault (getSeq { s with agenda := [] } 0 .c) = none ∧ (getSeq { s with agenda := [] } 0 .c).pc.toNat % 4 = 0 ∧
      (getSeq { s with agenda := [] } 0 .c).pc.toNat < (getSeq { s with agenda := [] } 0 .c).streamSize ∧
      locateN { s with agenda := [] } 0 ((getSeq { s with agenda := [] } 0 .c).streamBase + (getSeq { s with agenda := [] } 0 .c).pc) .fetch 4 = .ok ps ∧
      seqBudget { s with agenda := [] } 0 .c ps = none ∧
      decode .c (BitVec.ofNat 32 (ofBytes (ps.map (placeGet { s with agenda := [] })))) = some (.nop 0) :=
  ⟨turnAt 0, _, rfl, rfl, by decide, by decide, by decide, by decide, rfl, by decide, by decide⟩

theorem wit_StepRunsTheDecodedInstruction_others :
    (∃ s : State, s.boot.stage = .running ∧ s.agenda = [.issue 0 .c] ∧ canIssue { s with agenda := [] } 0 .c = true ∧
      (getSeq { s with agenda := [] } 0 .c).streamSize = (getSeq { s with agenda := [] } 0 .c).pc.toNat) ∧
    (∃ (s : State) (f : HostForm), s.boot.stage = .running ∧ s.agenda = [.hostWord 0 0x02C5950B] ∧ decodeHostForm 0x02C5950B = some f) ∧
    (∃ s : State, s.boot.stage = .running ∧ s.agenda = [.event .moduleReset]) ∧
    (∃ s : State, s.boot.stage = .running ∧ s.agenda = [] ∧ moves s = []) ∧
    ∃ s : State, s.boot.stage = .running ∧ s.agenda = [] ∧ moves s ≠ [] :=
  ⟨⟨turnAt 4, rfl, rfl, by decide, by decide⟩, ⟨{ up with agenda := [.hostWord 0 0x02C5950B] }, _, rfl, rfl, rfl⟩,
   ⟨{ up with agenda := [.event .moduleReset] }, rfl, rfl⟩, ⟨up, rfl, rfl, by decide⟩, ⟨{ turnAt 0 with agenda := [] }, rfl, rfl, by decide⟩⟩

/-- A job of which a WAIT node runs and is due. -/
def aDue : State := withJob up (aJob (aGraph 1 0 0) [aNode .complete, { NodeRun.init with status := .running, due := true }, aNode .waiting])

theorem wit_StepRunsTheDecodedInstruction_after :
    (stoppedLaunches up up = [] ∧ dueNodes up up = [] ∧ (readyKeys up).filter (fun k => topReady up k && !((readyKeys up).contains k)) = [] ∧
      idleCores up = []) ∧
    stoppedLaunches aDue aDue = [] ∧ waitingNodes aDue = [nodeKey 1] ∧ dueNodes aDue aDue = [nodeKey 1] ∧
      (let v := evaluateNode aDue (nodeKey 1)
       (readyKeys v).filter (fun k => topReady v k && !((readyKeys aDue).contains k)) = [] ∧ idleCores v = []) :=
  ⟨by decide +kernel, by decide +kernel, by decide +kernel, by decide +kernel, by decide +kernel⟩





theorem wit_DecodingUndoesEncoding :
    (∃ w, encode (.acas 31 30 29 4 8 1) = some w ∧ (Instr.acas 31 30 29 4 8 1).isHost = false ∧ (Instr.acas 31 30 29 4 8 1).legalIn .c = true) ∧
    ∃ (f : HostForm) (w : IWord), encode f.toInstr = some w ∧ f.toInstr.isHost = true ∧ f.toInstr.wellFormed = true :=
  ⟨⟨_, rfl, rfl, by decide⟩, ⟨.cstart 12 11 1 10, _, rfl, rfl, rfl⟩⟩

theorem wit_StepKeepsMemoryForm : ∃ s t : State, s.MemOk ∧ s.mem ≠ [] ∧ step s = .next t :=
  ⟨turnAt 0, _, rfl, by decide, rfl⟩

theorem wit_EncodingUndoesDecoding : (∃ i, decode .s 0xC9C60017 = some i) ∨ (∃ i, decode .x 0xC9C60017 = some i) ∧ ∃ f, decodeHostForm 0x02C5950B = some f :=
  .inr ⟨⟨_, rfl⟩, ⟨_, rfl⟩⟩

end Sys2Proof.Tests
end

section
/-!
PROOFS. After a module reset: what the sparse tables give for parts that they do not list, what a step does with nothing given, and a sequencer at the start
of its unit (R9, R124, R436).
-/

namespace Sys2Proof.Machine

open Sys2Proof

/-! ## The parts of the machine at reset -/

@[simp] theorem getCluster_reset (cl : Nat) : getCluster State.reset cl = ClusterState.init := rfl
@[simp] theorem getCore_reset (core : Nat) : getCore State.reset core = CoreState.init := rfl
@[simp] theorem getHart_reset (hart : Nat) : getHart State.reset hart = HartState.init hart := rfl

@[simp] theorem getDie_reset (d : Nat) : getDie State.reset d = DieState.init := by
  unfold getDie State.reset
  by_cases h : d < 4 <;> simp [h]

/-! ## A step of the machine at reset -/

/-- Before boot the machine has no move of its own (R436). -/
theorem moves_of_not_running {s : State} (h : s.boot.stage ≠ .running) : moves s = [] := by
  simp [moves, h]

/-- A free turn with no move to choose changes nothing. -/
theorem freeTurn_of_no_moves {s : State} (h : moves s = []) : freeTurn s = .next s := by
  simp [freeTurn, h]

/-- No unit, node or announced version stands at reset, so nothing follows a turn that changes nothing. -/
theorem afterTurn_reset : afterTurn State.reset State.reset = State.reset := rfl

/-- With an empty agenda a step at reset finds no move and leaves the machine as it is. -/
theorem step_reset : step State.reset = .next State.reset := by
  have hfree : freeTurn State.reset = .next State.reset := freeTurn_of_no_moves (moves_of_not_running (by decide))
  change turnThen State.reset (freeTurn State.reset) = _
  rw [hfree, turnThen, afterTurn_reset]

/-! ## A sequencer at the start of its unit -/

/-- All predicates but p0 are false at the start of a unit (R124). -/
theorem init_preds_false (q : Seq) (n : Nat) (h0 : 1 ≤ n) (h : n < 12) : (SeqState.init q).preds[n]? = some 0 := by
  have h1 : 0 ≠ n := by omega
  simp [SeqState.init, h, h1]

/-- Predicate p0 is true in every lane at the start of a unit (R124). -/
theorem init_preds_zero (q : Seq) : (SeqState.init q).preds[0]? = some (BitVec.allOnes 1024) := by
  simp [SeqState.init]

/-- Settles O57: each part of the machine at reset is read off its initial record. -/
theorem resetLeavesTheMachine : Obligations.ResetLeavesTheMachine := by
  refine ⟨reset_memWf, rfl, rfl, rfl, rfl, step_reset, fun k hk => ?mrs, fun d _ => ?die, fun cl => ?press, fun core => ?core, fun hart => ?hart, fun q => ?seq⟩
  case mrs => simp [State.reset, hk]
  case die => simp [DieState.init]
  case press => simp [ClusterState.init, PressState.init]
  case core => simp +contextual [CoreState.init]
  case hart => simp [HartState.init, Port.init]
  case seq =>
    refine ⟨rfl, init_preds_false q, init_preds_zero q, fun n hn => ?_, fun n hn => ?_, rfl, rfl, rfl, rfl, fun k hk => ?_, rfl, rfl, rfl, rfl, rfl, rfl⟩
    · simp [SeqState.init, hn]
    · simp [SeqState.init, hn]
    · simp [SeqState.init, hk]

end Sys2Proof.Machine
end

section
/-!
PROOFS. Rules about tables and harts, each stated once: a key written twice, a hart changed twice, what an exception leaves, what charging a request and the order
of memory leave alone.
-/

namespace Sys2Proof.Machine

open Sys2Proof

/-! ## A part written twice -/

@[simp] theorem tabPut_tabPut_same {κ α : Type} [DecidableEq κ] (t : Tab κ α) (k : κ) (v w : α) : tabPut (tabPut t k v) k w = tabPut t k w := by
  induction t with
  | nil => simp [tabPut]
  | cons p r ih =>
    obtain ⟨k', v'⟩ := p
    by_cases h : k' = k <;> simp [tabPut, h, ih]

/-- A hart changed twice is changed once by both. -/
@[simp] theorem modHart_modHart (s : State) (k : Nat) (f g : HartState → HartState) : modHart (modHart s k f) k g = modHart s k fun h => g (f h) := by
  simp [modHart, getHart]

/-! ## A hart's registers -/

/-- An integer register written leaves the rest of the hart, so that the pc may be set before or after it. -/
theorem setReg_withPc (h : HartState) (d : BitVec 5) (v a : Word) : HartState.setReg { h with pc := a } d v = { h.setReg d v with pc := a } := by
  unfold HartState.setReg
  split <;> rfl

@[simp] theorem setReg_pc (h : HartState) (d : BitVec 5) (v : Word) : (h.setReg d v).pc = h.pc := by
  unfold HartState.setReg
  split <;> rfl

@[simp] theorem popAttn_pc (h : HartState) : (popAttn h).2.pc = h.pc := by
  unfold popAttn
  split
  · rfl
  · split <;> rfl

theorem popAttn_nil {h : HartState} (e : h.attn = []) : popAttn h = (0, h) := by simp [popAttn, e]

/-- The oldest entry is popped, and the entries only counted follow as one of kind 15 (R353). -/
theorem popAttn_cons {h : HartState} {e : Word} {r : List Word} (he : h.attn = e :: r) :
    (popAttn h).1 = e ∧ (popAttn h).2.attnLost = 0 ∧ (popAttn h).2.attn = r ++ if h.attnLost = 0 then [] else [attnWord 15 (min 255 h.attnLost) 0 0] := by
  by_cases hl : h.attnLost = 0 <;> simp [popAttn, he, hl]

/-! ## Exceptions (R86, R322, R350) -/

/-- The state of a hart after an exception; no other hart changes. -/
theorem getHart_hartException (s : State) (hart cause k : Nat) (v : Word) :
    getHart (hartException s hart cause v) k = if k = hart then { getHart s hart with
      scause := BitVec.ofNat 64 cause, sepc := (getHart s hart).pc, stval := v, pc := Config.freeValue s.free, user := false, waiting := none }
      else getHart s k := by
  unfold hartException
  split
  · next h => subst h; exact getHart_modHart_same _ _ _
  · next h => exact getHart_modHart_other _ _ _ _ h

theorem excepts_hartException (s : State) (hart cause : Nat) (v : Word) : Excepts s hart cause v (hartException s hart cause v) :=
  ⟨rfl, Config.freeValue s.free, by simp [getHart_hartException]⟩

/-- An exception leaves every port as it was. -/
theorem hartException_port (s : State) (hart cause k : Nat) (v : Word) : (getHart (hartException s hart cause v) k).port = (getHart s k).port := by
  rw [getHart_hartException]
  split
  · next h => rw [h]
  · rfl

/-! ## What charging a request and the order of memory leave alone -/

/-- Charging an access to its controllers changes the meter alone (R400). -/
theorem meterPlaces_meter (s : State) (a : Agent) (ps : List Place) : ∃ m, meterPlaces s a ps = { s with meter := m } := by
  suffices h : ∀ (rs : List (Place × Nat)) (s : State), ∃ m, rs.foldl (fun s r => meterAccess s a r.1 r.2) s = { s with meter := m } from h _ s
  intro rs
  induction rs with
  | nil => exact fun s => ⟨s.meter, rfl⟩
  | cons r rs ih =>
    intro s
    obtain ⟨m, hm⟩ := ih (meterAccess s a r.1 r.2)
    exact ⟨m, hm⟩

@[simp] theorem meterPlaces_mem (s : State) (a : Agent) (ps : List Place) : (meterPlaces s a ps).mem = s.mem := by
  obtain ⟨m, h⟩ := meterPlaces_meter s a ps
  rw [h]

@[simp] theorem meterPlaces_units (s : State) (a : Agent) (ps : List Place) : (meterPlaces s a ps).units = s.units := by
  obtain ⟨m, h⟩ := meterPlaces_meter s a ps
  rw [h]

@[simp] theorem getHart_meterPlaces (s : State) (a : Agent) (ps : List Place) (k : Nat) : getHart (meterPlaces s a ps) k = getHart s k := by
  obtain ⟨m, h⟩ := meterPlaces_meter s a ps
  rw [h]; rfl

@[simp] theorem hartCharged_mem (s : State) (hart : Nat) (ps : List Nat) : (hartCharged s hart ps).mem = s.mem := meterPlaces_mem _ _ _

@[simp] theorem getHart_hartCharged (s : State) (hart : Nat) (ps : List Nat) (k : Nat) : getHart (hartCharged s hart ps) k = getHart s k := getHart_meterPlaces _ _ _ _

/-- The order effects of an atomic read change the order of memory alone (R270). -/
theorem atomicReadOrder_order (s : State) (a : Agent) (ks : List Nat) (ord scope : Nat) : ∃ o, atomicReadOrder s a ks ord scope = { s with order := o } := by
  by_cases h : ordAcquires ord = true
  · exact ⟨_, by simp only [atomicReadOrder, h, if_true]; rfl⟩
  · exact ⟨_, by simp only [atomicReadOrder, h]; rfl⟩

/-- Where the attention entries of a loaded port go is kept with its continuation: memory stays (R353). -/
@[simp] theorem followHart_mem (s : State) (p : Port) (hart : Nat) : (followHart s p hart).mem = s.mem := by
  simp only [followHart]
  split <;> rfl

@[simp] theorem getHart_followHart (s : State) (p : Port) (hart k : Nat) : getHart (followHart s p hart) k = getHart s k := by
  simp only [followHart]
  split <;> rfl

end Sys2Proof.Machine
end

section
/-!
PROOFS. CSRs and register writes, harts' accesses, waiting forms and the external host (R8, R269, R278, R322, R324, R331, R339, R350, R353, R396, R398): one rule for each
outcome of each event, and O37 from them.
-/

namespace Sys2Proof.Machine

open Sys2Proof

variable {s t : State} {hart : Nat}

/-! ## CSRs (R322, R353) -/

theorem csr_user {f : State → Host.Outcome State Fault Refusal} (h : (getHart s hart).user = true) : csr s hart f = .next (hartException s hart 2 0) := by
  simp [csr, h]

theorem csr_kernel {f : State → Host.Outcome State Fault Refusal} (h : (getHart s hart).user = false) : csr s hart f = f s := by
  simp [csr, h]

/-- A CSR that a hart only sets is set as the hart goes on. -/
theorem setCsr_kernel (f : HartState → HartState) (h : (getHart s hart).user = false) :
    setCsr s hart f = .next (modHart s hart fun k => f { k with pc := k.pc + 4 }) := by
  simp only [setCsr, csr_kernel h, hartNext, modHart_modHart]

theorem execCpattn_kernel (d : BitVec 5) (h : (getHart s hart).user = false) :
    execCpattn hart d s = .next (modHart s hart fun k => { (popAttn k).2.setReg d (popAttn k).1 with pc := k.pc + 4 }) := by
  simp only [execCpattn, csr_kernel h, hartNext, modHart_modHart, setReg_pc, popAttn_pc]
  rfl

/-- Every access to the port's CSRs, from user mode, takes exception 2 (R322). -/
theorem csrs_user (v : Word) (d : BitVec 5) (h : (getHart s hart).user = true) :
    ∀ i ∈ [Instr.cpsave hart v, .cpload hart v, .cpattn hart d, .registerWrite (.cpthr hart) v, .registerWrite (.cpsel hart) v,
        .registerWrite (.cpgdrop hart) v, .registerWrite (.sie hart) v],
      ∃ t, exec i s = .next t ∧ Excepts s hart 2 0 t := by
  intro i hi
  refine ⟨hartException s hart 2 0, ?_, excepts_hartException s hart 2 0⟩
  simp only [List.mem_cons, List.not_mem_nil, or_false] at hi
  rcases hi with rfl | rfl | rfl | rfl | rfl | rfl | rfl <;>
    simp [execCpsave, execCpload, execCpattn, execRegisterWrite, setCsr, csr_user h]

/-! ## Ports saved and loaded (R321, R322, R324) -/

section Ports

variable {addr : Word} (hu : (getHart s hart).user = false) (ha : addr.toNat % 256 = 0)
  (hw : (getHart s ((getHart s hart).cpsel.toNat % 128)).waiting = none) (hq : hartQueued s hart = false)

include hu ha hw hq

theorem execCpsave_hole (h : allPopulated addr.toNat 256 = false) : execCpsave hart addr s = .fault .unpopulatedAddress := by
  simp [execCpsave, csr_kernel hu, ha, hw, hq, h]

theorem execCpload_hole (h : allPopulated addr.toNat 256 = false) : execCpload hart addr s = .fault .unpopulatedAddress := by
  simp [execCpload, csr_kernel hu, ha, hw, hq, h]

theorem execCpsave_waits {q : State} (h : allPopulated addr.toNat 256 = true)
    (hb : physWaits s (.port hart addr false) (bytesFrom addr.toNat 256) = some q) : execCpsave hart addr s = .next q := by
  simp [execCpsave, csr_kernel hu, ha, hw, hq, h, hb]

theorem execCpload_waits {q : State} (h : allPopulated addr.toNat 256 = true)
    (hb : physWaits s (.port hart addr true) (bytesFrom addr.toNat 256) = some q) : execCpload hart addr s = .next q := by
  simp [execCpload, csr_kernel hu, ha, hw, hq, h, hb]

/-- A save writes the block of the selected port and empties the port. -/
theorem execCpsave_saves (h : allPopulated addr.toNat 256 = true) (hb : physWaits s (.port hart addr false) (bytesFrom addr.toNat 256) = none) :
    let sel := (getHart s hart).cpsel.toNat % 128
    let m := hartCharged s hart (bytesFrom addr.toNat 256)
    execCpsave hart addr s =
      .next (modHart (hartNext (physPut m addr.toNat (portBlock m sel (getHart s sel).port)) hart) sel fun h => { h with port := Port.init }) := by
  simp [execCpsave, csr_kernel hu, ha, hw, hq, h, hb, hartCharged]

/-- A load takes a block whose seal holds. -/
theorem execCpload_sealed (h : allPopulated addr.toNat 256 = true) (hb : physWaits s (.port hart addr true) (bytesFrom addr.toNat 256) = none)
    (hs : blockSealed (hartCharged s hart (bytesFrom addr.toNat 256)) (physBytes (hartCharged s hart (bytesFrom addr.toNat 256)) addr.toNat 256) = true) :
    let sel := (getHart s hart).cpsel.toNat % 128
    let m := hartCharged s hart (bytesFrom addr.toNat 256)
    let p := loadPort sel (physBytes m addr.toNat 256)
    execCpload hart addr s = .next (followHart (modHart (hartNext m hart) sel fun h => { h with port := p }) p sel) := by
  simp only [hartCharged] at hs
  simp [execCpload, csr_kernel hu, ha, hw, hq, h, hb, hs, hartCharged]

/-- A load of a block whose seal does not hold empties the port and takes exception 26. -/
theorem execCpload_unsealed (h : allPopulated addr.toNat 256 = true) (hb : physWaits s (.port hart addr true) (bytesFrom addr.toNat 256) = none)
    (hs : blockSealed (hartCharged s hart (bytesFrom addr.toNat 256)) (physBytes (hartCharged s hart (bytesFrom addr.toNat 256)) addr.toNat 256) = false) :
    let sel := (getHart s hart).cpsel.toNat % 128
    let m := hartCharged s hart (bytesFrom addr.toNat 256)
    execCpload hart addr s = .next (hartException (modHart m sel fun h => { h with port := Port.init }) hart 26 addr) := by
  simp only [hartCharged] at hs
  simp [execCpload, csr_kernel hu, ha, hw, hq, h, hb, hs, hartCharged]

end Ports

/-- A hart goes on with no other hart changed. -/
theorem getHart_hartNext_other {k : Nat} (h : k ≠ hart) : getHart (hartNext s hart) k = getHart s k := getHart_modHart_other _ _ _ _ h

@[simp] theorem hartNext_mem (s : State) (hart : Nat) : (hartNext s hart).mem = s.mem := rfl

@[simp] theorem hartException_mem (s : State) (hart cause : Nat) (v : Word) : (hartException s hart cause v).mem = s.mem := rfl

/-! ## Registers written (R8, R396) -/

/-- The address of a ring that the register holds: a multiple of 4 KiB. -/
theorem fqbase_mask : ~~~(0xFFF#64) = (0xFFFFFFFFFFFFF000 : Word) := by decide

theorem writeFqbase_ignored {die : Nat} {v : Word}
    (h : (getDie s die).ring.on = true ∨ inNode0 (v &&& 0xFFFFFFFFFFFFF000).toNat = false) : writeFqbase s die v = s := by
  rcases h with h | h <;> simp only [writeFqbase, fqbase_mask, h, Bool.not_false, Bool.true_or, Bool.or_true, if_true]

theorem writeFqbase_taken {die : Nat} {v : Word} (h : (getDie s die).ring.on = false) (hn : inNode0 (v &&& 0xFFFFFFFFFFFFF000).toNat = true) :
    writeFqbase s die v = modDie s die fun d => { d with ring := { d.ring with base := v &&& 0xFFFFFFFFFFFFF000 } } := by
  simp only [writeFqbase, fqbase_mask, h, hn, Bool.not_true, Bool.or_false, Bool.false_eq_true, if_false]

/-! ## CSRs and ring registers read (R322, R353, R394, R396) -/

/-- The service interrupt stands at a hart that the ring of some die names and has raised. -/
theorem serviceRaised_iff (s : State) (hart : Nat) :
    serviceRaised s hart = true ↔ ∃ d < 4, (getDie s d).ring.irq = true ∧ (getDie s d).ring.cfg.toNat / 65536 % 128 = hart := by
  have hmem (d : Nat) : d ∈ [0, 1, 2, 3] ↔ d < 4 := by simp only [List.mem_cons, List.not_mem_nil, or_false]; omega
  rw [serviceRaised, List.any_eq_true]
  exact exists_congr fun d => and_congr (hmem d) (by simp [bits])

/-- What `sip` shows: port-attention by the queue, and the service interrupt. -/
theorem hartPending_eq (s : State) (hart : Nat) : hartPending s hart =
    (if (getHart s hart).attn = [] then 0 else 0x80000) ||| (if serviceRaised s hart then 1#64 <<< serviceNumber else 0) := by
  simp [hartPending]

/-- A hart that acts makes its access. -/
theorem execHartAccess_csr (d : BitVec 5) (num : Nat) (v : Word) (h : HartActs s hart) (hn : num ≠ 0xDC0) (hv : readCsr s hart num = some v) :
    execHartAccess hart (.csr d num) s = setCsr s hart fun k => k.setReg d v := by
  obtain ⟨hw, hq⟩ := h
  simp [execHartAccess, hw, hq, hn, hv]

/-- A register of a ring stands at its offset in its die's block. -/
theorem fqBlock_of_lt {die off : Nat} (hd : die < 4) (ho : off < 0x1000) : fqBlock (0x40000000 + die * 0x1000 + off) = some (die, off) := by
  simp only [fqBlock]
  rw [if_pos (by omega)]
  simp only [Option.some.injEq, Prod.mk.injEq]
  omega

theorem execHartAccess_ring {d : BitVec 5} {die off : Nat} {v : Word} (h : HartActs s hart) (hd : die < 4) (ho : off < 0x1000) (hv : readFq s die off = some v) :
    execHartAccess hart (.deviceLoad d (0x40000000 + die * 0x1000 + off)) s = .next (modHart s hart fun k => { k.setReg d v with pc := k.pc + 4 }) := by
  obtain ⟨hw, hq⟩ := h
  have hm : inMail (0x40000000 + die * 0x1000 + off) = false := by
    have hl : ¬ mailBase ≤ 0x40000000 + die * 0x1000 + off := by simp only [mailBase]; omega
    simp only [inMail, hl, decide_false, Bool.false_and]
  simp [execHartAccess, hw, hq, deviceLoad, hm, fqBlock_of_lt hd ho, hv, hartNext, setReg_withPc]

/-! ## Harts' accesses (R269, R278, R350) -/

section Accesses

variable {acc : HartAcc} {va : Word} {n : Nat} {w a : Bool} {f : State → List Nat → State} {ps : List Nat}

theorem hartDo_fault {k : Nat} {v : Word} (h : hartReach s hart va (w || a) n = .fault k v) : hartDo s hart acc va n w a f = .next (hartException s hart k v) := by
  simp [hartDo, h]

theorem hartDo_hole (h : hartReach s hart va (w || a) n = .none) : hartDo s hart acc va n w a f = .fault .unpopulatedAddress := by
  simp [hartDo, h]

theorem hartDo_waits {q : State} (h : hartReach s hart va (w || a) n = .ok ps) (hb : physWaits s (.hart hart acc) ps = some q) :
    hartDo s hart acc va n w a f = .next q := by
  simp [hartDo, h, hb]

theorem hartDo_races {r : Race} (h : hartReach s hart va (w || a) n = .ok ps) (hb : physWaits s (.hart hart acc) ps = none)
    (hm : hartMark s hart va ps w a = .error r) : hartDo s hart acc va n w a f = .next (hartRaced s hart va r) := by
  simp [hartDo, h, hb, hm]

theorem hartDo_done (h : hartReach s hart va (w || a) n = .ok ps) (hb : physWaits s (.hart hart acc) ps = none)
    (hm : hartMark s hart va ps w a = .ok t) : hartDo s hart acc va n w a f = .next (hartNext (f t ps) hart) := by
  simp [hartDo, h, hb, hm]

theorem execHartAccess_load (d : BitVec 5) (h : HartActs s hart) :
    execHartAccess hart (.load d va n) s = hartDo s hart (.load d va n) va n false false fun s ps =>
      modHart s hart fun h => h.setReg d (BitVec.ofNat 64 (leValue (ps.map (physGet s)))) := by
  obtain ⟨hw, hq⟩ := h
  simp [execHartAccess, hw, hq]

theorem execHartAccess_store (v : Word) (h : HartActs s hart) :
    execHartAccess hart (.store va n v) s = hartDo s hart (.store va n v) va n true false fun s ps => physPuts s ps (leBytes n v.toNat) := by
  obtain ⟨hw, hq⟩ := h
  simp [execHartAccess, hw, hq]

variable {d : BitVec 5} {fn ord : Nat} {w32 : Bool} {b c : Word}

theorem execHartAccess_amo_misaligned (h : HartActs s hart) (hn : va.toNat % (if w32 then 4 else 8) ≠ 0) :
    execHartAccess hart (.amo d fn ord w32 va b c) s = .next (hartException s hart 6 va) := by
  obtain ⟨hw, hq⟩ := h
  simp [execHartAccess, hw, hq, hn]

theorem execHartAccess_amo (h : HartActs s hart) (hn : va.toNat % (if w32 then 4 else 8) = 0) :
    execHartAccess hart (.amo d fn ord w32 va b c) s = hartDo s hart (.amo d fn ord w32 va b c) va (if w32 then 4 else 8) (fn != 0) true
      (hartAtomic hart d { fn := fn, ord := ord, scope := 7, w32 := w32, b := b, c := c }) := by
  obtain ⟨hw, hq⟩ := h
  simp [execHartAccess, hw, hq, hn]

theorem execHartAccess_fence (h : HartActs s hart) :
    execHartAccess hart (.fence ord) s = .next (hartNext (fenceOrder s (agentOf s hart) ord 7) hart) := by
  obtain ⟨hw, hq⟩ := h
  simp [execHartAccess, hw, hq]

end Accesses

/-- A race at a hart raises exception 25 with the address (R350). -/
theorem hartRaced_cause (s : State) (hart : Nat) (va : Word) (r : Race) :
    (getHart (hartRaced s hart va r) hart).scause = 25 ∧ (getHart (hartRaced s hart va r) hart).stval = va := by
  simp only [hartRaced, getHart_hartException, if_true]
  exact ⟨rfl, trivial⟩

/-! ## Waiting forms (R331, R334, R339) -/

/-- A form ends as its hart goes on and waits no more. -/
theorem endForm_eq (s : State) (hart : Nat) (reply : Bool) (rd : BitVec 5) (v : Word) :
    endForm s hart reply rd v = modHart s hart fun h => { (if reply then h.setReg rd v else h) with pc := h.pc + 4, waiting := none } := by
  rw [endForm, hartNext, modHart_modHart]
  congr 1
  funext h
  cases reply <;> simp [setReg_withPc]

theorem execBlockingFormReturn_idle (h : (getHart s hart).waiting = none) : execBlockingFormReturn hart s = .next s := by
  simp [execBlockingFormReturn, h]

theorem execBlockingFormReturn_stands {w : Waiting} (h : (getHart s hart).waiting = some w) (he : waitEnd s hart w.what = none) :
    execBlockingFormReturn hart s = .next s := by
  simp [execBlockingFormReturn, h, he]

theorem execBlockingFormReturn_returns {w : Waiting} {v : Word} (h : (getHart s hart).waiting = some w) (he : waitEnd s hart w.what = some (t, v)) :
    execBlockingFormReturn hart s = .next (endForm t hart w.reply w.rd v) := by
  simp [execBlockingFormReturn, h, he]

theorem execHostFormInterrupt_idle (h : (getHart s hart).waiting = none) : execHostFormInterrupt hart s = .next s := by
  simp [execHostFormInterrupt, h]

theorem execHostFormInterrupt_drops {w : Waiting} (h : (getHart s hart).waiting = some w) :
    ∃ t, execHostFormInterrupt hart s = .next t ∧ t.mem = s.mem ∧ (getHart t hart).waiting = none ∧
      (getHart t hart).sepc = (getHart s hart).pc ∧ (getHart t hart).x = (getHart s hart).x ∧ (getHart t hart).user = false := by
  simp only [execHostFormInterrupt, h, Option.isNone_some, Bool.false_eq_true, if_false]
  exact ⟨_, rfl, rfl, by simp [getHart, modHart]⟩

/-! ## The external host (R269, R445) -/

theorem allPopulated_eq (pa n : Nat) : allPopulated pa n = (bytesFrom pa n).all populated := by
  simp [allPopulated, bytesFrom, List.all_map, Function.comp_def]

/-- A request is aborted that comes through an interface in its error state. -/
theorem extAborts_read_iff (s : State) (via : Option Nat) (pa n : Nat) :
    extAborts s (.read via pa n) = true ↔ ∃ p x, via = some p ∧ tabGet s.boot.parts p = some x ∧ x.tdisp = .error := by
  cases via with
  | none => simp [extAborts]
  | some p => simp [extAborts, Option.any_eq_true]

theorem extAborts_write (s : State) (via : Option Nat) (pa n : Nat) (v : Word) : extAborts s (.write via pa n v) = extAborts s (.read via pa n) := by
  cases via <;> rfl

theorem execExternalHostAccess_aborts {acc : ExtAcc} (h : extAborts s acc = true) : execExternalHostAccess acc s = .next s := by
  simp [execExternalHostAccess, h]

section External

variable {acc : ExtAcc} (ha : extAborts s acc = false)
include ha

theorem execExternalHostAccess_hole (h : (extBytes acc).all populated = false) : execExternalHostAccess acc s = .fault .unpopulatedAddress := by
  rw [execExternalHostAccess, ha, h]; rfl

theorem execExternalHostAccess_waits {q : State} (h : (extBytes acc).all populated = true) (hb : physWaits s (.ext acc) (extBytes acc) = some q) :
    execExternalHostAccess acc s = .next q := by
  rw [execExternalHostAccess, ha, h, hb]; rfl

theorem execExternalHostAccess_done (h : (extBytes acc).all populated = true) (hb : physWaits s (.ext acc) (extBytes acc) = none) :
    execExternalHostAccess acc s = .next (extDo s acc) := by
  rw [execExternalHostAccess, ha, h, hb]; rfl

end External

/-- A read of the external host changes neither memory nor units. -/
theorem extDo_read (s : State) (via : Option Nat) (pa n : Nat) : (extDo s (.read via pa n)).mem = s.mem ∧ (extDo s (.read via pa n)).units = s.units := by
  simp only [extDo]
  obtain ⟨o, ho⟩ := atomicReadOrder_order (meterPlaces s extAgent ((extBytes (.read via pa n)).map Place.mem)) extAgent
    (extKeys (meterPlaces s extAgent ((extBytes (.read via pa n)).map Place.mem)) pa n) 4 8
  rw [ho]
  simp [bumpRegion]

/-- A write of the external host leaves the memory that its bytes make. -/
theorem extDo_write_mem (s : State) (via : Option Nat) (pa n : Nat) (v : Word) : (extDo s (.write via pa n v)).mem =
    (physPut (meterPlaces s extAgent ((bytesFrom pa n).map Place.mem)) pa (leBytes n v.toNat)).mem := by
  simp only [extDo, extBytes]
  generalize meterPlaces s extAgent ((bytesFrom pa n).map Place.mem) = m
  obtain ⟨o, ho⟩ := writeHeads_order (extKeys m pa n) (writeRels m extAgent 4 8) false (physPut m pa (leBytes n v.toNat))
  rw [ho]; rfl

end Sys2Proof.Machine

namespace Sys2Proof.Machine

open Sys2Proof

/-- Settles O37: each event's outcomes, one by one, by the rules above. -/
theorem hartsAndExternalHostAct : Obligations.HartsAndExternalHostAct := by
  refine ⟨fun hart v d s h => csrs_user v d h, ?ports, ?attn, ?writes, ?reads, ?rings, ?accesses, ?deviceRace, ?forms, ?external⟩
  case ports =>
    intro hart addr s hu sel here m wait ha hw hq
    refine ⟨fun h => ⟨execCpsave_hole hu ha hw hq h, execCpload_hole hu ha hw hq h⟩,
      fun h q => ⟨execCpsave_waits hu ha hw hq h, execCpload_waits hu ha hw hq h⟩, fun h hb => ?saves, fun h hb hs => ?sealed, fun h hb hs => ?unsealed⟩
    case saves =>
      refine ⟨_, execCpsave_saves hu ha hw hq h hb, rfl, by rw [getHart_modHart_same], fun k hk hs => ?_⟩
      rw [getHart_modHart_other _ _ _ _ hs, getHart_hartNext_other hk]
    case sealed =>
      exact ⟨_, execCpload_sealed hu ha hw hq h hb hs, by rw [followHart_mem, modHart_mem, hartNext_mem, hartCharged_mem],
        by rw [getHart_followHart, getHart_modHart_same]⟩
    case unsealed =>
      refine ⟨_, execCpload_unsealed hu ha hw hq h hb hs, by rw [hartException_mem, modHart_mem, hartCharged_mem], ?_, ?_⟩
      · rw [hartException_port, getHart_modHart_same]
      · rw [getHart_hartException, if_pos rfl]
        refine ⟨rfl, rfl, ?_⟩
        by_cases hs : hart = (getHart s hart).cpsel.toNat % 128
        · rw [← hs, getHart_modHart_same, getHart_hartCharged]
        · rw [getHart_modHart_other _ _ _ _ hs, getHart_hartCharged]
  case attn => exact fun hart d s hu => ⟨execCpattn_kernel d hu, popAttn_nil, fun e r => popAttn_cons⟩
  case writes =>
    intro hart core off die v s
    refine ⟨by simp [execRegisterWrite], fun h => ?ignored, fun h hn => ?taken, rfl, fun hl hh hc => ?window, fun hu => ?_, fun hu => ?_, fun hu => ?_, fun hu => ?_⟩
    case ignored => rw [exec_registerWrite, execRegisterWrite, writeFqbase_ignored h]
    case taken => rw [exec_registerWrite, execRegisterWrite, writeFqbase_taken h hn]
    case window => rw [exec_registerWrite, execRegisterWrite, if_pos ⟨hl, hh, hc⟩]
    all_goals exact setCsr_kernel _ hu
  case reads =>
    intro hart d s hh h sip
    refine ⟨serviceRaised_iff s hart, fun x hx => ?_⟩
    have hv : x.1 ≠ 0xDC0 ∧ readCsr s hart x.1 = some x.2 := by
      simp only [List.mem_cons, List.not_mem_nil, or_false] at hx
      rcases hx with rfl | rfl | rfl | rfl | rfl | rfl | rfl <;> refine ⟨by simp, ?_⟩
      case inr.inl => exact congrArg some (hartPending_eq s hart)
      all_goals rfl
    rw [exec_hartAccess, execHartAccess_csr d x.1 x.2 hh hv.1 hv.2]
    refine ⟨fun hu => ?_, fun hu => ⟨_, csr_user hu, excepts_hartException _ _ _ _⟩⟩
    rw [setCsr_kernel _ hu]
    simp only [setReg_withPc]
  case rings =>
    intro hart die d s hh hd r x hx
    have hv : x.1 < 0x1000 ∧ readFq s die x.1 = some x.2 := by
      simp only [List.mem_cons, List.not_mem_nil, or_false] at hx
      rcases hx with rfl | rfl | rfl | rfl | rfl | rfl <;> exact ⟨by simp, rfl⟩
    exact execHartAccess_ring hh hd hv.1 hv.2
  case accesses =>
    intro hart d va data b c fn ord w32 size ps s t hh a n o m x wait
    refine ⟨fun q h hb => ?_, fun h hb hm => ?_, fun h hb hm => ?_, fun hn => ?_, fun hn h hb hm => ?_, execHartAccess_fence hh, fun k w h => ?_, fun r h hb hm => ?_,
      fun h => ?_⟩
    · exact (execHartAccess_store data hh).trans (hartDo_waits h hb)
    · exact (execHartAccess_load d hh).trans (hartDo_done h hb hm)
    · exact (execHartAccess_store data hh).trans (hartDo_done h hb hm)
    · exact ⟨_, execHartAccess_amo_misaligned hh hn, excepts_hartException _ _ _ _⟩
    · exact (execHartAccess_amo hh hn).trans (hartDo_done ((Bool.or_true _).symm ▸ h) hb hm)
    · exact ⟨_, (execHartAccess_load d hh).trans (hartDo_fault h), excepts_hartException _ _ _ _⟩
    · exact ⟨(execHartAccess_store data hh).trans (hartDo_races h hb hm), hartRaced_cause s hart va r⟩
    · exact (execHartAccess_load d hh).trans (hartDo_hole h)
  case deviceRace =>
    intro hart va w ps s t h
    exact ⟨fun r hm => by simp [execHartDeviceRace, h, hm], fun hm => by simp [execHartDeviceRace, h, hm]⟩
  case forms =>
    intro hart s
    refine ⟨fun h => ⟨execBlockingFormReturn_idle h, execHostFormInterrupt_idle h⟩,
      fun w h => ⟨execBlockingFormReturn_stands h, fun t v he => ?_, execHostFormInterrupt_drops h⟩⟩
    rw [exec_blockingFormReturn, execBlockingFormReturn_returns h he, endForm_eq]
  case external =>
    intro via pa n data s m wait aborts
    have hw : extAborts s (.write via pa n data) = extAborts s (.read via pa n) := extAborts_write s via pa n data
    have hr : ¬ aborts → extAborts s (.read via pa n) = false := fun h => Bool.eq_false_iff.mpr fun e => h ((extAborts_read_iff s via pa n).mp e)
    refine ⟨fun acc hacc => ?_, fun ha hp => ?_⟩
    · have hx : extAborts s acc = extAborts s (.read via pa n) ∧ extBytes acc = bytesFrom pa n := by
        simp only [List.mem_cons, List.not_mem_nil, or_false] at hacc
        rcases hacc with rfl | rfl
        · exact ⟨rfl, rfl⟩
        · exact ⟨hw, rfl⟩
      obtain ⟨he, hb⟩ := hx
      rw [exec_externalHostAccess, allPopulated_eq, ← hb]
      refine ⟨fun h => ?_, fun ha hp => ?_, fun q ha hp hq => ?_⟩
      · exact execExternalHostAccess_aborts (he.trans ((extAborts_read_iff s via pa n).mpr h))
      · exact execExternalHostAccess_hole (he.trans (hr ha)) hp
      · exact execExternalHostAccess_waits (he.trans (hr ha)) hp (hb ▸ hq)
    · rw [allPopulated_eq] at hp
      exact ⟨fun hb => ⟨_, execExternalHostAccess_done (hr ha) hp hb, extDo_read s via pa n⟩,
        fun hb => ⟨_, execExternalHostAccess_done (hw.trans (hr ha)) hp hb, extDo_write_mem s via pa n data⟩⟩

end Sys2Proof.Machine
end

section
/-!
PROOFS. The ROM's boot (R436, R439, R440): the words and images of the two slots, a slot that passes, and what an order of slots boots.
-/

namespace Sys2Proof.Machine

open Sys2Proof

/-! ## Slots -/

@[simp] theorem slotWord_setSlot_same (b : BootState) (k : Nat) (w : SlotWord) : slotWord (setSlot b k w) k = w := by
  by_cases h : k = 0 <;> simp [slotWord, setSlot, h]

/-- A slot's word set leaves that of the other slot. -/
theorem slotWord_setSlot_other (b : BootState) {k j : Nat} (w : SlotWord) (hj : j = 0 ↔ k ≠ 0) : slotWord (setSlot b k w) j = slotWord b j := by
  by_cases h : k = 0 <;> simp [slotWord, setSlot, h, hj]

@[simp] theorem slotWord_setSlot_flip (b : BootState) (k : Nat) (w : SlotWord) : slotWord (setSlot b k w) (1 - k) = slotWord b (1 - k) :=
  slotWord_setSlot_other b w (by omega)

/-- A reply of the firmware interface leaves the slots. -/
@[simp] theorem slotWord_reply (b : BootState) (k : Nat) (r : Nat × List Byte) : slotWord { b with reply := r } k = slotWord b k := rfl

@[simp] theorem slotImage_setSlot (b : BootState) (k j : Nat) (w : SlotWord) : slotImage (setSlot b k w) j = slotImage b j := by
  by_cases h : k = 0 <;> simp [slotImage, setSlot, h]

@[simp] theorem slotImage_setImage_same (b : BootState) (k : Nat) (bs : List Byte) : slotImage (setImage b k bs) k = bs := by
  by_cases h : k = 0 <;> simp [slotImage, setImage, h]

@[simp] theorem slotImage_setImage_flip (b : BootState) (k : Nat) (bs : List Byte) : slotImage (setImage b k bs) (1 - k) = slotImage b (1 - k) := by
  by_cases h : k = 0
  · simp [slotImage, setImage, h]
  · have h1 : 1 - k = 0 := by omega
    simp [slotImage, setImage, h, h1]

@[simp] theorem slotWord_setImage (b : BootState) (k j : Nat) (bs : List Byte) : slotWord (setImage b k bs) j = slotWord b j := by
  by_cases h : k = 0 <;> simp [slotWord, setImage, h]

@[simp] theorem setSlot_images (b : BootState) (k : Nat) (w : SlotWord) : (setSlot b k w).imageA = b.imageA ∧ (setSlot b k w).imageB = b.imageB := by
  by_cases h : k = 0 <;> simp [setSlot, h]

@[simp] theorem setSlot_svn (b : BootState) (k : Nat) (w : SlotWord) : (setSlot b k w).svn = b.svn := by
  by_cases h : k = 0 <;> simp [setSlot, h]

@[simp] theorem setSlot_boots (b : BootState) (k : Nat) (w : SlotWord) : (setSlot b k w).boots = b.boots := by
  by_cases h : k = 0 <;> simp [setSlot, h]

@[simp] theorem setSlot_booted (b : BootState) (k : Nat) (w : SlotWord) : (setSlot b k w).booted = b.booted := by
  by_cases h : k = 0 <;> simp [setSlot, h]

/-! ## A slot tried -/

/-- Whether a slot may be booted and passes the chain of checks (R436, R437). -/
def slotPasses (b : BootState) (k : Nat) : Bool := bootable b k && slotAccepted b.svn (slotImage b k)

/-- Boot's measurement changes measurement registers and the identity key alone (R438, R443). -/
theorem measureBoot_keeps (b : BootState) (k : Nat) (images : List (List Byte)) : ∃ m i, measureBoot b k images = { b with mrs := m, identity := i } := by
  simp only [measureBoot, extendMr]
  exact ⟨_, _, rfl⟩

/-- The ROM has booted a slot: it runs, and the watchdog is armed exactly when the slot was pending (R440). -/
structure Boots (b t : BootState) (k : Nat) : Prop where
  stage : t.stage = .running
  slot : t.booted = k
  armed : t.armed = true ↔ slotWord b k = .pending

theorem tryBoot_pass {b : BootState} {k : Nat} (r : List Nat) (h : slotPasses b k = true) :
    Boots b (tryBoot (k :: r) b) k ∧ (tryBoot (k :: r) b).boots = b.boots ∧ (tryBoot (k :: r) b).svn = b.svn := by
  simp only [slotPasses] at h
  simp only [tryBoot, h, if_true]
  obtain ⟨m, i, hm⟩ := measureBoot_keeps { b with stage := .running, booted := k, armed := slotWord b k == .pending } k (slotImages (slotImage b k))
  rw [hm]
  exact ⟨⟨rfl, rfl, beq_iff_eq⟩, rfl, rfl⟩

theorem tryBoot_fail {b : BootState} {k : Nat} (r : List Nat) (h : slotPasses b k = false) : tryBoot (k :: r) b = tryBoot r (failTried b k) := by
  simp only [slotPasses] at h
  simp [tryBoot, h]

/-- A slot that was tried in vain leaves the other slot and the counters as they were. -/
theorem failTried_keeps (b : BootState) (k : Nat) :
    slotWord (failTried b k) (1 - k) = slotWord b (1 - k) ∧ slotImage (failTried b k) = slotImage b ∧ (failTried b k).svn = b.svn ∧
      (failTried b k).boots = b.boots := by
  unfold failTried
  split
  · exact ⟨slotWord_setSlot_flip _ _ _, funext fun j => slotImage_setSlot _ _ _ _, setSlot_svn _ _ _, setSlot_boots _ _ _⟩
  · exact ⟨rfl, rfl, rfl, rfl⟩

theorem slotPasses_failTried (b : BootState) (k : Nat) : slotPasses (failTried b k) (1 - k) = slotPasses b (1 - k) := by
  obtain ⟨hw, hi, hs, -⟩ := failTried_keeps b k
  simp only [slotPasses, bootable, hw, hi, hs]

/-! ## The two slots tried in an order -/

/-- What the boot of a slot and then the other one leaves: the first that passes, else recovery. -/
theorem tryBoot_order (b : BootState) (k : Nat) :
    let t := tryBoot [k, 1 - k] b
    t.boots = b.boots ∧ t.svn = b.svn ∧ (slotPasses b k = true → Boots b t k) ∧
      (slotPasses b k = false → slotPasses b (1 - k) = true → Boots b t (1 - k)) ∧
      (slotPasses b k = false → slotPasses b (1 - k) = false → t.stage = .recovery) := by
  intro t
  cases h : slotPasses b k with
  | true =>
    obtain ⟨hb, hn, hs⟩ := tryBoot_pass [1 - k] h
    exact ⟨hn, hs, fun _ => hb, fun e => absurd e (by decide), fun e => absurd e (by decide)⟩
  | false =>
    obtain ⟨hw, -, hs, hn⟩ := failTried_keeps b k
    have ht : t = tryBoot [1 - k] (failTried b k) := tryBoot_fail _ h
    have hp := slotPasses_failTried b k
    cases h1 : slotPasses b (1 - k) with
    | true =>
      obtain ⟨⟨hr, hk, ha⟩, hn', hs'⟩ := tryBoot_pass [] (hp.trans h1)
      rw [ht]
      exact ⟨hn'.trans hn, hs'.trans hs, fun e => absurd e (by decide), fun _ _ => ⟨hr, hk, hw ▸ ha⟩, fun _ e => absurd e (by decide)⟩
    | false =>
      obtain ⟨-, -, hs', hn'⟩ := failTried_keeps (failTried b k) (1 - k)
      rw [ht, tryBoot_fail [] (hp.trans h1)]
      exact ⟨hn'.trans hn, hs'.trans hs, fun e => absurd e (by decide), fun _ e => absurd e (by decide), fun _ _ => rfl⟩

theorem find_slot_lt {p : Nat → Bool} {k : Nat} (h : [0, 1].find? p = some k) : k < 2 := by
  have := List.mem_of_find?_eq_some h
  simp only [List.mem_cons, List.not_mem_nil, or_false] at this
  omega

/-- The ROM tries one of the two slots first, a pending one before others, and then the other (R439, R440). -/
theorem bootOrder_eq (b : BootState) : ∃ k < 2, bootOrder b = [k, 1 - k] ∧ ∀ j, pendingSlot b = some j → j = k := by
  refine ⟨((pendingSlot b).orElse fun _ => activeSlot b).getD 0, ?_, rfl, fun j hj => by simp [hj]⟩
  cases hp : pendingSlot b with
  | some k => simpa using find_slot_lt hp
  | none =>
    cases ha : activeSlot b with
    | some k => simpa using find_slot_lt ha
    | none => simp

/-- What the ROM's boot leaves (R436, R439, R440): a slot that passes runs, a pending one before the other, and with none it recovers. -/
theorem tryBoot_bootOrder (b : BootState) :
    let t := tryBoot (bootOrder b) b
    t.boots = b.boots ∧ t.svn = b.svn ∧ (slotPasses b 0 = false → slotPasses b 1 = false → t.stage = .recovery) ∧
      (slotPasses b 0 = true ∨ slotPasses b 1 = true → ∃ k < 2, slotPasses b k = true ∧ Boots b t k) ∧
      ∀ k, pendingSlot b = some k → slotPasses b k = true → t.booted = k := by
  obtain ⟨k, hk, ho, hp⟩ := bootOrder_eq b
  rw [ho]
  obtain ⟨hn, hs, first, other, none⟩ := tryBoot_order b k
  have two : ∀ p : Nat → Prop, p 0 ∧ p 1 ↔ p k ∧ p (1 - k) := fun p => by
    have : k = 0 ∨ k = 1 := by omega
    rcases this with rfl | rfl
    · exact Iff.rfl
    · exact and_comm
  refine ⟨hn, hs, fun h0 h1 => ?_, fun h => ?_, fun j hj h => ?_⟩
  · obtain ⟨g, g'⟩ := (two fun k => slotPasses b k = false).mp ⟨h0, h1⟩
    exact none g g'
  · cases g : slotPasses b k with
    | true => exact ⟨k, hk, g, first g⟩
    | false =>
      cases g' : slotPasses b (1 - k) with
      | true => exact ⟨1 - k, by omega, g', other g g'⟩
      | false =>
        obtain ⟨h0, h1⟩ := (two fun k => slotPasses b k = false).mpr ⟨g, g'⟩
        simp [h0, h1] at h
  · rw [hp j hj] at h ⊢
    exact (first h).slot

end Sys2Proof.Machine
end

section
/-!
PROOFS. The firmware interface (R442): who is served, what each command makes of the state, and O50 from the boot above and these.
-/

namespace Sys2Proof.Machine

open Sys2Proof

/-! ## Lists and tables -/

theorem eraseDups_length_le {α : Type} [DecidableEq α] : ∀ l : List α, l.eraseDups.length ≤ l.length
  | [] => Nat.le_refl _
  | a :: as => by
    rw [List.eraseDups_cons]
    exact Nat.succ_le_succ (Nat.le_trans (eraseDups_length_le _) (List.length_filter_le _ _))
  termination_by l => l.length
  decreasing_by exact Nat.lt_succ_of_le (List.length_filter_le _ _)

/-- Erasing duplicates keeps the length of just the lists without any. -/
theorem eraseDups_length_eq_iff {α : Type} [DecidableEq α] (l : List α) : l.eraseDups.length = l.length ↔ l.Nodup := by
  induction l with
  | nil => exact ⟨fun _ => List.nodup_nil, fun _ => rfl⟩
  | cons a as ih =>
    have hfilter : as.filter (fun b => !b == a) = as ↔ a ∉ as := by
      rw [List.filter_eq_self]
      exact ⟨fun h ha => by simpa using h a ha, fun h b hb => by simpa using fun e : b = a => h (e ▸ hb)⟩
    rw [List.eraseDups_cons, List.length_cons, List.length_cons, Nat.add_right_cancel_iff, List.nodup_cons]
    constructor
    · intro h
      have hall : (as.filter fun b => !b == a).length = as.length :=
        Nat.le_antisymm (List.length_filter_le _ _) (h ▸ eraseDups_length_le _)
      have hself := List.filter_eq_self.mpr (List.length_filter_eq_length_iff.mp hall)
      rw [hself] at h
      exact ⟨hfilter.mp hself, ih.mp h⟩
    · rintro ⟨ha, hn⟩
      rw [hfilter.mpr ha]
      exact ih.mpr hn

/-- A piece put at an offset, byte by byte: zeros fill what lies before it and was not held. -/
theorem putPiece_getElem? (old bs : List Byte) {off : Nat} (h : 0 < off) (i : Nat) : (putPiece old { off := off, bytes := bs })[i]? =
    if i < off then (if i < old.length then old[i]? else some 0) else if i < off + bs.length then bs[i - off]? else old[i]? := by
  have h0 : off ≠ 0 := by omega
  have hl : (old.take off ++ List.replicate (off - old.length) (0 : Byte)).length = off := by simp; omega
  simp only [putPiece, h0, if_false, List.append_assoc]
  rw [← List.append_assoc]
  split
  · next hi =>
    rw [List.getElem?_append_left (by omega)]
    split
    · next ho => rw [List.getElem?_append_left (by simp; omega), List.getElem?_take_of_lt hi]
    · next ho => rw [List.getElem?_append_right (by simp; omega), List.getElem?_replicate_of_lt (by simp; omega)]
  · next hi =>
    rw [List.getElem?_append_right (by omega), hl]
    split
    · next hb => rw [List.getElem?_append_left (by omega)]
    · next hb =>
      rw [List.getElem?_append_right (by omega), List.getElem?_drop]
      congr 1
      omega

/-! ## Who is served (R435, R440, R442) -/

section Served

variable {s : State} {inRecovery : Bool} {f : State → State}

theorem fwCommand_rom (h : s.boot.stage = .rom) : fwCommand inRecovery s f = s := by
  simp [fwCommand, h]

theorem fwCommand_refused (h : s.boot.stage ≠ .rom) (hr : s.boot.refused = true) : fwCommand inRecovery s f = fwEnd s 3 := by
  cases hs : s.boot.stage with
  | rom => exact absurd hs h
  | running => simp [fwCommand, hs, hr]
  | recovery => simp [fwCommand, hs, hr]

theorem fwCommand_recovery (h : s.boot.stage = .recovery) : fwCommand false s f = fwEnd s 3 := by
  simp [fwCommand, h]

theorem fwCommand_running (h : s.boot.stage = .running) (hr : s.boot.refused = false) : fwCommand inRecovery s f = f s := by
  simp [fwCommand, h, hr]

/-- A command that takes an image is served in recovery too. -/
theorem fwCommand_image (h : s.boot.stage ≠ .rom) (hr : s.boot.refused = false) : fwCommand true s f = f s := by
  cases hs : s.boot.stage with
  | rom => exact absurd hs h
  | running => simp [fwCommand, hs, hr]
  | recovery => simp [fwCommand, hs, hr]

end Served

/-- An event that is a command of the firmware interface, served in recovery or not. -/
def IsFwCommand (i : Instr) (s : State) (inRecovery : Bool) : Prop := ∃ f, exec i s = .next (fwCommand inRecovery s f)

/-- The commands that take no image are refused in recovery (R440). -/
theorem isFwCommand_plain (n m c : Nat) (bs : List Byte) (w : Word) (d : Bool) (ns : List Nat) (v : BitVec 32) (s : State) :
    ∀ i ∈ [Instr.confirm d, .wdset n, .mext n bs, .leescfg n m c, .schcfg n m, .enset c w, .capset n ns, .pwrstat w, .qset n, .layset n w, .csetprog n ns v,
      .partcfg n ns], IsFwCommand i s false := by
  simp only [List.forall_mem_cons, List.not_mem_nil, false_implies, implies_true, and_true]
  exact ⟨⟨_, rfl⟩, ⟨_, rfl⟩, ⟨_, rfl⟩, ⟨_, rfl⟩, ⟨_, rfl⟩, ⟨_, rfl⟩, ⟨_, rfl⟩, ⟨_, rfl⟩, ⟨_, rfl⟩, ⟨_, rfl⟩, ⟨_, rfl⟩, ⟨_, rfl⟩⟩

theorem IsFwCommand.rom {i : Instr} {s : State} {r : Bool} (h : IsFwCommand i s r) (hs : s.boot.stage = .rom) : exec i s = .next s := by
  obtain ⟨f, hf⟩ := h
  rw [hf, fwCommand_rom hs]

theorem IsFwCommand.refused {i : Instr} {s : State} {r : Bool} (h : IsFwCommand i s r) (hs : s.boot.stage ≠ .rom) (hr : s.boot.refused = true) :
    Replies s i 3 [] s := by
  obtain ⟨f, hf⟩ := h
  rw [Replies, hf, fwCommand_refused hs hr]; rfl

theorem IsFwCommand.recovery {i : Instr} {s : State} (h : IsFwCommand i s false) (hs : s.boot.stage = .recovery) : Replies s i 3 [] s := by
  obtain ⟨f, hf⟩ := h
  rw [Replies, hf, fwCommand_recovery hs]; rfl

/-- A command that tests its payload, on the side of the test where it stands. -/
theorem Replies.of_test {p : Prop} [Decidable p] {s a b : State} {i : Instr} {st st' : Nat} (h : exec i s = .next (if p then fwEnd a st else fwEnd b st')) :
    (p → Replies s i st [] a) ∧ (¬ p → Replies s i st' [] b) :=
  ⟨fun hp => by rw [Replies, h, if_pos hp]; rfl, fun hp => by rw [Replies, h, if_neg hp]; rfl⟩

/-- The state that a command without a payload in its reply ends in. -/
theorem Replies.exec_eq {s t : State} {i : Instr} {st : Nat} (h : Replies s i st [] t) : exec i s = .next (fwEnd t st) := h

@[simp] theorem getCont_fwEnd (s : State) (st k : Nat) : getCont (fwEnd s st) k = getCont s k := rfl

@[simp] theorem getCluster_fwEnd (s : State) (st k : Nat) : getCluster (fwEnd s st) k = getCluster s k := rfl

@[simp] theorem getCluster_modBoot (s : State) (f : BootState → BootState) (k : Nat) : getCluster (modBoot s f) k = getCluster s k := rfl

/-- A request of a code that no command has is answered with status 1 (R442). -/
theorem fwRequest_unknown {code : Nat} (bs : List Byte) {s : State} (hr : s.boot.refused = false) (h : code ∉ fwCodes) : fwRequest code bs s = fwEnd s 1 := by
  unfold fwRequest
  split
  case h_16 => simp [hr, h]
  all_goals exact absurd (by decide) h

/-! ## Images and their confirmation (R437, R439, R440) -/

section Images

variable {s : State} (hs : s.boot.stage ≠ .rom) (hr : s.boot.refused = false)
include hs hr

theorem exec_slotwr_served (x : SlotPiece) : exec (.slotwr x) s = .next (if 4096 < x.bytes.length then fwEnd s 2
    else fwEnd (modBoot s fun b => setSlot (setImage b (targetSlot s.boot) (putPiece (slotImage b (targetSlot s.boot)) x)) (targetSlot s.boot) .empty) 0) := by
  rw [exec_slotwr, execSlotwr, fwCommand_image hs hr]

theorem exec_slotact_served : exec .slotact s = .next (if slotAccepted s.boot.svn (slotImage s.boot (targetSlot s.boot)) = false then fwEnd s 3
    else fwEnd (modBoot s fun b => setSlot b (targetSlot s.boot) .pending) 0) := by
  rw [exec_slotact, execSlotact, fwCommand_image hs hr]
  simp only [Bool.not_eq_eq_eq_not, Bool.not_true]

end Images

/-- The counters raised by images counted from a number on: those below it stay, and each kind's takes the greater of itself and its image's. -/
theorem raise_getElem? (images : List (List Byte)) : ∀ (n : Nat) (v : Vector Nat 3),
    let u := (images.zipIdx n).foldl (fun v x => v.setIfInBounds x.2 (Nat.max (v[x.2]?.getD 0) (imageSvn x.1))) v
    (∀ k < n, u[k]? = v[k]?) ∧ ∀ k img, images[k]? = some img → u[n + k]? = v[n + k]?.map fun x => max x (imageSvn img) := by
  induction images with
  | nil => simp
  | cons a r ih =>
    intro n v
    obtain ⟨hlow, hup⟩ := ih (n + 1) (v.setIfInBounds n (Nat.max (v[n]?.getD 0) (imageSvn a)))
    refine ⟨fun k hk => (hlow k (by omega)).trans (by simp [show n ≠ k by omega]), fun k img hk => ?_⟩
    cases k with
    | zero =>
      obtain rfl : a = img := by simpa using hk
      refine (hlow n (by omega)).trans ?_
      by_cases hn : n < 3 <;> simp [hn]
    | succ k =>
      have hn : n + 1 + k = n + (k + 1) := by omega
      refine (hn ▸ hup k img (by simpa using hk)).trans ?_
      simp

/-- A confirmed slot raises the counter of each kind to its image's (R437). -/
theorem raiseSvn_getElem? (svn : Vector Nat 3) {images : List (List Byte)} {k : Nat} {img : List Byte} (h : images[k]? = some img) :
    (raiseSvn svn images)[k]? = svn[k]?.map fun x => max x (imageSvn img) := by
  have := (raise_getElem? images 0 svn).2 k img h
  simpa [raiseSvn] using this

/-- The pending slot that runs becomes the active one, and the other is not active any more (R440). -/
theorem confirmed_slots (b : BootState) : slotWord (confirmed b) b.booted = .active ∧ slotWord (confirmed b) (1 - b.booted) ≠ .active := by
  by_cases h : slotWord (setSlot b b.booted .active) (1 - b.booted) = .empty
  · have hc (j : Nat) : slotWord (confirmed b) j = slotWord (setSlot b b.booted .active) j := by simp only [confirmed, h, if_true]; rfl
    rw [hc, hc, h]
    exact ⟨slotWord_setSlot_same _ _ _, by decide⟩
  · have hc (j : Nat) : slotWord (confirmed b) j = slotWord (setSlot (setSlot b b.booted .active) (1 - b.booted) .valid) j := by
      simp only [confirmed, h, if_false]; rfl
    rw [hc, hc, slotWord_setSlot_other _ _ (by omega), slotWord_setSlot_same, slotWord_setSlot_same]
    exact ⟨rfl, by decide⟩

/-- A confirmation raises the counters to those of the images that run. -/
theorem confirmed_svn (b : BootState) {k : Nat} {img : List Byte} (h : (slotImages (slotImage b b.booted))[k]? = some img) :
    (confirmed b).svn[k]? = b.svn[k]?.map fun x => max x (imageSvn img) := by
  by_cases hw : slotWord b (1 - b.booted) = .empty <;>
    simp [confirmed, hw, raiseSvn_getElem? b.svn h]

/-! ## Registers -/

section Running

variable {s : State} (hs : s.boot.stage = .running) (hr : s.boot.refused = false)
include hs hr

theorem exec_confirm_running (d : Bool) : exec (.confirm d) s =
    .next (if s.boot.armed = false ∨ s.boot.expired = true ∨ d = true then fwEnd s 3 else fwEnd (modBoot s confirmed) 0) := by
  rw [exec_confirm, execConfirm, fwCommand_running hs hr]
  simp only [Bool.or_eq_true, Bool.not_eq_eq_eq_not, Bool.not_true, or_assoc]

/-- A confirmation in time makes the slot that runs the active one and raises the counters. -/
theorem confirm_inTime (ha : s.boot.armed = true) (he : s.boot.expired = false) : ∃ t, exec (.confirm false) s = .next t ∧ t.boot.reply = (0, []) ∧
    slotWord t.boot s.boot.booted = .active ∧ slotWord t.boot (1 - s.boot.booted) ≠ .active ∧ t.boot.armed = false ∧
    ∀ (k : Nat) (img : List Byte), (slotImages (slotImage s.boot s.boot.booted))[k]? = some img → t.boot.svn[k]? = (s.boot.svn[k]?).map fun x => max x (imageSvn img) := by
  obtain ⟨hact, hoth⟩ := confirmed_slots s.boot
  refine ⟨_, (Replies.of_test (exec_confirm_running hs hr false)).2 (by simp [ha, he]), rfl, ?_, ?_, rfl, fun k img h => confirmed_svn s.boot h⟩
  · rw [slotWord_reply]; exact hact
  · rw [slotWord_reply]; exact hoth

theorem exec_wdset_running (n : Nat) : exec (.wdset n) s =
    .next (if n = 0 ∨ 120 < n then fwEnd s 2 else fwEnd (modBoot s fun b => { b with deadline := n }) 0) := by
  rw [exec_wdset, execWdset, fwCommand_running hs hr]

theorem exec_mext_running (n : Nat) (bs : List Byte) : exec (.mext n bs) s =
    .next (if n < 4 ∨ 7 < n ∨ bs.length ≠ 64 then fwEnd s 2 else fwEnd (modBoot s fun b => extendMr b n bs) 0) := by
  rw [exec_mext, execMext, fwCommand_running hs hr]

/-- MEXT extends its register and no other. -/
theorem mext_extends {n : Nat} {bs : List Byte} (h4 : 4 ≤ n) (h7 : n ≤ 7) (hl : bs.length = 64) : ∃ t, exec (.mext n bs) s = .next t ∧ t.boot.reply = (0, []) ∧
    t.boot.mrs[n]? = some (exactly 64 (Config.shake256 ((s.boot.mrs[n]?.getD []) ++ bs))) ∧ ∀ k, k ≠ n → t.boot.mrs[k]? = s.boot.mrs[k]? := by
  refine ⟨_, (Replies.of_test (exec_mext_running hs hr n bs)).2 (by omega), rfl, ?_, fun k hk => ?_⟩
  · simp [modBoot, extendMr, show n < 16 by omega]
  · simp [modBoot, extendMr, Ne.symm hk]

theorem exec_leescfg_running (n m c : Nat) : exec (.leescfg n m c) s = .next (if rangeInNode0 n (max m c) = false then fwEnd s 2
    else fwEnd { s with sched := { s.sched with leesBase := n, leesSize := m, leesMax := c, lees := [] } } 0) := by
  rw [exec_leescfg, execLeescfg, fwCommand_running hs hr]
  simp only [Bool.not_eq_eq_eq_not, Bool.not_true]

theorem exec_schcfg_running (n m : Nat) : exec (.schcfg n m) s = .next (if rangeInNode0 n m = false then fwEnd s 2
    else fwEnd { s with sched := { s.sched with backBase := n, backSize := m } } 0) := by
  rw [exec_schcfg, execSchcfg, fwCommand_running hs hr]
  simp only [Bool.not_eq_eq_eq_not, Bool.not_true]

omit hs hr in
/-- The period of a setting is over its greatest exactly when its field is, since a field of 0 stands for 10. -/
theorem settingPeriod_over (w : Word) : 1000 < settingPeriod w ↔ 1000 < w.toNat / 2 ^ 40 % 2 ^ 16 := by
  have h : settingPeriod w = if w.toNat / 2 ^ 40 % 2 ^ 16 = 0 then 10 else w.toNat / 2 ^ 40 % 2 ^ 16 := rfl
  rw [h]
  split <;> omega

theorem exec_enset_running (c : Nat) (w : Word) : exec (.enset c w) s =
    .next (if (getCont s c).live = false ∨ 1000 < w.toNat / 2 ^ 40 % 2 ^ 16 then fwEnd s 2
      else fwEnd (modCont s c fun k => { k with energy := { k.energy with pending := some (w &&& 0xFFFFFFFFFFFFFF) } }) 0) := by
  rw [exec_enset, execEnset, fwCommand_running hs hr]
  simp only [settingPeriod_over, Bool.not_eq_eq_eq_not, Bool.not_true]

/-- ENSET leaves a setting that waits for its boundary with its continuation, and no other changes. -/
theorem enset_pends {c : Nat} {w : Word} (hl : (getCont s c).live = true) (hp : w.toNat / 2 ^ 40 % 2 ^ 16 ≤ 1000) :
    ∃ t, exec (.enset c w) s = .next t ∧ t.boot.reply = (0, []) ∧
      (getCont t c).energy = { (getCont s c).energy with pending := some (w &&& 0xFFFFFFFFFFFFFF) } ∧ ∀ k, k ≠ c → getCont t k = getCont s k := by
  have h : ¬ ((getCont s c).live = false ∨ 1000 < w.toNat / 2 ^ 40 % 2 ^ 16) := by rw [hl]; exact not_or.mpr ⟨by decide, by omega⟩
  refine ⟨_, ((Replies.of_test (exec_enset_running hs hr c w)).2 h).exec_eq, rfl, ?_, fun k hk => ?_⟩
  · rw [getCont_fwEnd, getCont_modCont_same]
  · rw [getCont_fwEnd, getCont_modCont_other _ _ _ _ hk]

theorem exec_capset_running (n : Nat) (ns : List Nat) : exec (.capset n ns) s =
    .next (if 8 < ns.length then fwEnd s 2 else fwEnd { s with power := { s.power with pendingCap := some (min n 3200, ns) } } 0) := by
  rw [exec_capset, execCapset, fwCommand_running hs hr]

theorem exec_pwrstat_running (w : Word) : exec (.pwrstat w) s = .next (fwReply { s with power := { clearPower s.power w with breaches := 0 } } 0
    (leBytes 8 (powerWord s).toNat ++ leBytes 4 (capWritten s.power) ++ leBytes 4 s.power.breaches)) := by
  rw [exec_pwrstat, execPwrstat, fwCommand_running hs hr]

theorem exec_qset_running (n : Nat) : exec (.qset n) s =
    .next (if n = 0 then fwEnd s 2 else fwEnd { s with sched := { s.sched with quantum := n } } 0) := by
  rw [exec_qset, execQset, fwCommand_running hs hr]

theorem exec_layset_running (n : Nat) (w : Word) : exec (.layset n w) s =
    .next (if n < 3 ∨ 7 < n then fwEnd s 2 else fwEnd { s with sched := { s.sched with layouts := tabPut s.sched.layouts n w } } 0) := by
  rw [exec_layset, execLayset, fwCommand_running hs hr]

theorem exec_csetprog_running (n : Nat) (ns : List Nat) (v : BitVec 32) : exec (.csetprog n ns v) s =
    .next (if 63 < n ∨ ns.length < 2 ∨ 512 < ns.length ∨ ¬ ns.Nodup ∨ s.group.index ∉ ns then fwEnd s 2
      else fwEnd { s with sched := { s.sched with colsets := tabPut s.sched.colsets n { ranks := ns, stamp := v } } } 0) := by
  rw [exec_csetprog, execCsetprog, fwCommand_running hs hr]
  simp only [ne_eq, eraseDups_length_eq_iff, Bool.not_eq_eq_eq_not, Bool.not_true, List.contains_eq_mem, decide_eq_false_iff_not]

end Running

/-- A bit of the trips, after a write of ones to the status word, by the die (R418). -/
theorem clearPower_trip (p : PowerState) (w : Word) {k : Nat} (h : k < 4) : (clearPower p w).trip.getLsbD k = (p.trip.getLsbD k && !w.getLsbD (32 + k)) := by
  simp [clearPower, h]

/-! ## Partitions (R444) -/

/-- The state with clusters bound to a partition, or to none. -/
def bindClusters (s : State) (p : Option Nat) (ks : List Nat) : State := ks.foldl (fun s c => modCluster s c fun k => { k with partition := p }) s

theorem bindClusters_clusters (p : Option Nat) (ks : List Nat) : ∀ s : State, ∃ t, bindClusters s p ks = { s with clusters := t } := by
  induction ks with
  | nil => exact fun s => ⟨s.clusters, rfl⟩
  | cons c r ih =>
    intro s
    obtain ⟨t, ht⟩ := ih (modCluster s c fun k => { k with partition := p })
    exact ⟨t, ht⟩

/-- Just the clusters of the list change their partition. -/
theorem bindClusters_partition (p : Option Nat) (ks : List Nat) (k : Nat) : ∀ s : State,
    (getCluster (bindClusters s p ks) k).partition = if k ∈ ks then p else (getCluster s k).partition := by
  induction ks with
  | nil => simp [bindClusters]
  | cons c r ih =>
    intro s
    refine (ih (modCluster s c fun k => { k with partition := p })).trans ?_
    by_cases hr : k ∈ r
    · simp [hr]
    · by_cases hc : k = c
      · subst hc; simp [hr]
      · simp [hr, hc, getCluster_modCluster_other _ _ _ _ hc]

/-- A list of clusters that a partition may have: each of the module, none twice, none of another partition. -/
def ClustersFit (s : State) (n : Nat) (ns : List Nat) : Prop :=
  n ≤ 7 ∧ (∀ k ∈ ns, k < 192) ∧ ns.Nodup ∧ ∀ k ∈ ns, ∀ p, (getCluster s k).partition = some p → p = n

/-- Nothing stands in the way of a partition's clusters changing: its interface is unlocked, and none of them holds a living unit. -/
def ClustersFree (s : State) (n : Nat) (ns : List Nat) : Prop :=
  (∀ p, tabGet s.boot.parts n = some p → p.tdisp = .unlocked) ∧ ∀ k ∈ ns ++ partClusters s n, clusterHolds s k = false

/-- A test that fails just where a condition holds is that condition's failure. -/
theorem eq_not_of_not_iff {p q : Prop} (h : ¬ p ↔ q) : p = ¬ q :=
  propext ⟨fun hp hq => h.mpr hq hp, fun hq => Classical.byContradiction fun hp => hq (h.mp hp)⟩

section Partcfg

variable {s : State} (hs : s.boot.stage = .running) (hr : s.boot.refused = false) (n : Nat) (ns : List Nat)
include hs hr

open Classical in
theorem exec_partcfg_running : exec (.partcfg n ns) s = .next (if ¬ ClustersFit s n ns then fwEnd s 2 else if ¬ ClustersFree s n ns then fwEnd s 3
    else fwEnd (modBoot (bindClusters (bindClusters s none (partClusters s n)) (some n) ns) fun b =>
      { b with parts := tabPut b.parts n { clusters := ns, tdisp := .unlocked, session := false, root := none } }) 0) := by
  rw [exec_partcfg, execPartcfg, fwCommand_running hs hr]
  refine congrArg _ (ite_congr ?fit (fun _ => rfl) fun _ => ite_congr ?free (fun _ => rfl) fun _ => rfl)
  case fit =>
    refine eq_not_of_not_iff ?_
    simp only [not_or, ClustersFit, ne_eq, eraseDups_length_eq_iff, not_not, List.any_eq_true, not_exists, not_and, decide_eq_true_eq]
    refine and_congr (by omega) (and_congr (forall₂_congr fun k _ => by omega) (and_congr_right fun _ => forall₂_congr fun k _ => ?_))
    cases (getCluster s k).partition <;> simp
  case free =>
    refine eq_not_of_not_iff ?_
    rw [Bool.not_eq_true, Bool.or_eq_false_iff, List.any_eq_false, ClustersFree]
    refine and_congr ?_ (by simp)
    cases tabGet s.boot.parts n <;> simp

variable {n ns}

theorem partcfg_unfit (h : ¬ ClustersFit s n ns) : Replies s (.partcfg n ns) 2 [] s := by
  rw [Replies, exec_partcfg_running hs hr, if_pos h]; rfl

theorem partcfg_held (h : ClustersFit s n ns) (hf : ¬ ClustersFree s n ns) : Replies s (.partcfg n ns) 3 [] s := by
  rw [Replies, exec_partcfg_running hs hr, if_neg (not_not_intro h), if_pos hf]; rfl

/-- PARTCFG binds its clusters and unbinds those that the partition had before, and leaves the interface unlocked. -/
theorem partcfg_binds (hg : ClustersFit s n ns) (hf : ClustersFree s n ns) : ∃ t, exec (.partcfg n ns) s = .next t ∧ t.boot.reply = (0, []) ∧ t.mem = s.mem ∧
    t.units = s.units ∧ tabGet t.boot.parts n = some { clusters := ns, tdisp := .unlocked, session := false, root := none } ∧
    ∀ k, (getCluster t k).partition = if k ∈ ns then some n else if k ∈ partClusters s n then none else (getCluster s k).partition := by
  have hx := exec_partcfg_running hs hr n ns
  rw [if_neg (not_not_intro hg), if_neg (not_not_intro hf)] at hx
  obtain ⟨u, hu⟩ := bindClusters_clusters none (partClusters s n) s
  obtain ⟨t, ht⟩ := bindClusters_clusters (some n) ns (bindClusters s none (partClusters s n))
  refine ⟨_, hx, rfl, by rw [ht, hu]; rfl, by rw [ht, hu]; rfl, tabGet_tabPut_same _ _ _, fun k => ?_⟩
  rw [getCluster_fwEnd, getCluster_modBoot, bindClusters_partition, bindClusters_partition]

end Partcfg

end Sys2Proof.Machine

namespace Sys2Proof.Machine

open Sys2Proof

/-- A module reset empties what it resets, keeps the stamp and the agenda, and boots from the slots (R9, R427, R436). -/
theorem exec_moduleReset_boots (s : State) : ∃ t, exec .moduleReset s = .next t ∧ t.mem = [] ∧ t.units = [] ∧ t.conts = [] ∧ t.harts = [] ∧
    t.stamp = s.stamp ∧ t.agenda = s.agenda ∧ t.group.state = (if s.group.state = 5 then 0 else 6) ∧
    t.boot = tryBoot (bootOrder (bootReset s.boot)) (bootReset s.boot) :=
  ⟨_, rfl, rfl, rfl, rfl, rfl, rfl, rfl, rfl, rfl⟩

/-- Settles O50: the boot from what an order of slots boots, each command by its equation in a machine that serves it. -/
theorem firmwareInterfaceServesAndBoots : Obligations.FirmwareInterfaceServesAndBoots := by
  refine ⟨fun s => ?reset, fun s => ?watchdog, fun major s => ?version, fun n m c bs x w d ns v s => ?refusals,
    fun code bs s hr h => fwRequest_unknown bs hr h, fun x s hs hr => ?images, fun old bs off => ⟨rfl, fun h i => putPiece_getElem? old bs h i⟩,
    fun n m c bs w d ns v s hs hr => ?commands⟩
  case reset =>
    obtain ⟨t, ht, hm, hu, hc, hh, hst, ha, hg, hb⟩ := exec_moduleReset_boots s
    obtain ⟨hn, hv, none, some, pending⟩ := tryBoot_bootOrder (bootReset s.boot)
    rw [← hb] at hn hv none some pending
    refine ⟨t, ht, hm, hu, hc, hh, hst, ha, hn, hv, hg, none, fun h => ?_, pending⟩
    obtain ⟨k, hk, hp, hr, hs, harm⟩ := some h
    rw [hs]
    exact ⟨hr, hk, hp, harm⟩
  case watchdog => exact ⟨fun h => by simp [execWatchdogExpire, h], fun h => by simp [execWatchdogExpire, h, modBoot]⟩
  case version =>
    refine ⟨fun h => by simp [execGetver, h], fun h => ?_⟩
    rw [Replies, exec_getver, execGetver, if_neg h]
    rfl
  case refusals =>
    intro cmds
    have hp : ∀ i ∈ cmds, IsFwCommand i s false := isFwCommand_plain n m c bs w d ns v s
    have ha : ∀ i ∈ [Instr.slotwr x, .slotact] ++ cmds, ∃ r, IsFwCommand i s r := by
      simp only [List.cons_append, List.nil_append, List.forall_mem_cons]
      exact ⟨⟨true, _, rfl⟩, ⟨true, _, rfl⟩, fun i hi => ⟨false, hp i hi⟩⟩
    refine ⟨fun i hi => ?_, fun h i hi => (hp i hi).recovery h⟩
    obtain ⟨r, hf⟩ := ha i hi
    exact ⟨hf.rom, hf.refused⟩
  case images =>
    intro k
    have hw := exec_slotwr_served hs hr x
    have ha := exec_slotact_served hs hr
    refine ⟨(Replies.of_test hw).1, fun h => ⟨_, (Replies.of_test hw).2 (by omega), rfl, ?_, ?_, ?_, ?_⟩, (Replies.of_test ha).1,
      fun h => ⟨_, (Replies.of_test ha).2 ((Bool.not_eq_false _).mpr h), rfl, ?_, ?_, ?_⟩⟩
    · exact (slotImage_setSlot _ _ _ _).trans (slotImage_setImage_same _ _ _)
    · exact slotWord_setSlot_same _ _ _
    · exact (slotImage_setSlot _ _ _ _).trans (slotImage_setImage_flip _ _ _)
    · exact (slotWord_setSlot_flip _ _ _).trans (slotWord_setImage _ _ _ _)
    · exact slotWord_setSlot_same _ _ _
    · exact slotWord_setSlot_flip _ _ _
    · exact setSlot_images _ _ _
  case commands =>
    have confirm := Replies.of_test (exec_confirm_running hs hr d)
    have wdset := Replies.of_test (exec_wdset_running hs hr n)
    have mext := Replies.of_test (exec_mext_running hs hr n bs)
    have leescfg := Replies.of_test (exec_leescfg_running hs hr n m c)
    have schcfg := Replies.of_test (exec_schcfg_running hs hr n m)
    have enset := Replies.of_test (exec_enset_running hs hr c w)
    have capset := Replies.of_test (exec_capset_running hs hr n ns)
    have qset := Replies.of_test (exec_qset_running hs hr n)
    have layset := Replies.of_test (exec_layset_running hs hr n w)
    have csetprog := Replies.of_test (exec_csetprog_running hs hr n ns v)
    refine ⟨confirm.1, fun ha he hd _ => ?confirmed, wdset.1, fun h1 h2 => wdset.2 (by omega), mext.1, mext_extends hs hr, leescfg.1,
      fun h => leescfg.2 (by simp [h]), schcfg.1, fun h => schcfg.2 (by simp [h]), enset.1, enset_pends hs hr, capset.1, fun h => capset.2 (by omega), ?power,
      qset.2, layset.1, fun h3 h7 => ?layout, csetprog.1, fun hn h2 h5 hd hi => ?set, ?partition⟩
    case confirmed =>
      subst hd
      obtain ⟨t, ht, hrep, hact, hoth, harm, hsvn⟩ := confirm_inTime hs hr ha he
      exact ⟨t, ht, hrep, hact, hoth, harm, fun k _ => hsvn k⟩
    case power =>
      exact ⟨_, exec_pwrstat_running hs hr w, rfl, rfl, rfl, rfl, rfl, fun k hk => clearPower_trip s.power w hk⟩
    case layout => exact ⟨_, layset.2 (by omega), rfl, tabGet_tabPut_same _ _ _, fun k hk => tabGet_tabPut_other _ _ _ _ hk⟩
    case set =>
      exact ⟨_, csetprog.2 (by simp [hd, hi]; omega), rfl, tabGet_tabPut_same _ _ _, fun k hk => tabGet_tabPut_other _ _ _ _ hk⟩
    case partition => exact ⟨partcfg_unfit hs hr, partcfg_held hs hr, partcfg_binds hs hr⟩

end Sys2Proof.Machine
end

section
/-!
PROOFS. The words that read a queue (R35, R77, R153): what an index names, what a queue's count, head and readiness are for the queue of each index, and
O14 from these.
-/

namespace Sys2Proof.Machine

open Sys2Proof

/-! ## The queues of the indices (R35, R77) -/

/-- An engine queue's index names its engine. -/
theorem engOfQueue_of_mem : ∀ r ∈ engineQueues, engOfQueue r.1 = some r.2 := by decide

theorem engineQueues_ge : ∀ r ∈ engineQueues, 16 ≤ r.1 := by decide

/-- Two engine queues of one index are of one engine. -/
theorem engineQueues_inj : ∀ r ∈ engineQueues, ∀ x ∈ engineQueues, r.1 = x.1 → r.2 = x.2 := by decide

theorem engOfQueue_none {n : Nat} (h : n < 16) : engOfQueue n = none := by
  have below : ∀ m < 16, engOfQueue m = none := by decide
  exact below n h

theorem tokenPeer_out {n : BitVec 6} (h : n.toNat < 4) : tokenPeer n = seqOf n.toNat := by
  rw [tokenPeer, Nat.mod_eq_of_lt h]; rfl

theorem tokenPeer_in {n : BitVec 6} (h : 4 ≤ n.toNat) (h' : n.toNat < 8) : tokenPeer n = seqOf (n.toNat - 4) := by
  rw [tokenPeer, show n.toNat % 4 = n.toNat - 4 by omega]; rfl

/-- A legal index names a token queue, one of the queues 8 to 12, or an engine. -/
theorem queueLegal_cases {q : Seq} {n : Nat} (h : queueLegal q n = true) :
    n < 4 ∨ (4 ≤ n ∧ n < 8) ∨ n = 8 ∨ n = 9 ∨ n = 10 ∨ n = 11 ∨ n = 12 ∨ ∃ r ∈ engineQueues, n = r.1 := by
  by_cases h13 : n < 13
  · omega
  · have heng : n = 16 ∨ n = 17 ∨ n = 18 ∨ n = 19 ∨ n = 20 := by grind [queueLegal]
    have hmem : ∃ r ∈ engineQueues, n = r.1 := by simpa [engineQueues] using heng
    simp only [hmem, or_true]

theorem Issues.accepted {s p : State} {i : Instr} {tk : BitVec 2} (h : Issues s i tk p) : i.acceptedIn s.cur.q = true := by
  obtain ⟨-, hlegal, -, -⟩ := h
  exact (Bool.and_eq_true_iff.1 hlegal).2

/-! ## Counts (R35, R153) -/

theorem tokenQueue_out (u : UnitState) (q : Seq) {n : BitVec 6} (h : n.toNat < 4) : tokenQueue u q n.toNat = tokensOf u q (tokenPeer n) := by
  rw [tokenQueue, if_pos h, tokenPeer_out h]

theorem tokenQueue_in (u : UnitState) (q : Seq) {n : BitVec 6} (h : 4 ≤ n.toNat) (h' : n.toNat < 8) :
    tokenQueue u q n.toNat = tokensOf u (tokenPeer n) q := by
  rw [tokenQueue, if_neg (by omega), tokenPeer_in h h']

theorem queueCount_tokens (u : UnitState) (q : Seq) {n : Nat} (h : n < 8) : queueCount u q n = (tokenQueue u q n).length := by
  simp [queueCount, engOfQueue_none (show n < 16 by omega), h]

theorem queueCount_engine (u : UnitState) (q : Seq) {r : Nat × Eng} (h : r ∈ engineQueues) :
    queueCount u q r.1 = ((u.seq q).eq r.2).cmds.length % 65536 + ((u.seq q).eq r.2).results.length % 65536 * 65536 := by
  simp [queueCount, engOfQueue_of_mem r h]

/-- The number that a legal queue holds is the one that is counted. -/
theorem QueueHolds.eq_queueCount {u : UnitState} {q : Seq} {n : BitVec 6} {k : Nat} (h : QueueHolds u q n k) (hq : queueLegal q n.toNat = true) :
    k = queueCount u q n.toNat := by
  obtain ⟨hout, hin, h8, h9, h10, h11, h12, heng⟩ := h
  rcases queueLegal_cases hq with hn | ⟨hn, hn'⟩ | hn | hn | hn | hn | hn | ⟨r, hr, hn⟩
  · rw [queueCount_tokens u q (by omega), tokenQueue_out u q hn, hout hn]
  · rw [queueCount_tokens u q hn', tokenQueue_in u q hn hn', hin hn hn']
  · rw [h8 hn, hn]; rfl
  · rw [h9 hn, hn]; rfl
  · rw [h10 hn, hn]; rfl
  · rw [h11 hn, hn]; rfl
  · rw [h12 hn, hn]; rfl
  · rw [heng r hr hn, hn, queueCount_engine u q hr, Nat.mul_comm]

/-! ## Heads (R139, R153) -/

theorem dqinConvert_sink_raw (src : Nat) (v : Word) : dqinConvert src 0 v = some (v, 0) := if_pos (.inl rfl)

/-- A peek waits at an empty queue. -/
theorem peekQueue_wait {u : UnitState} {q : Seq} {n : Nat}
    (h : (n = 12 ∧ u.bq = []) ∨ (n = 8 ∧ (u.seq q).dq.dqin = []) ∨ ∃ r ∈ engineQueues, n = r.1 ∧ ((u.seq q).eq r.2).results = []) :
    peekQueue u q n = .wait := by
  rcases h with ⟨rfl, hbq⟩ | ⟨rfl, hdq⟩ | ⟨r, hr, rfl, hres⟩
  · simp [peekQueue, engOfQueue, hbq]
  · simp [peekQueue, engOfQueue, hdq]
  · simp [peekQueue, engOfQueue_of_mem r hr, hres]

/-- A peek shows the head of `bq`, of `dqin` read with both formats raw, or of an engine's results. -/
theorem peekQueue_got {u : UnitState} {q : Seq} {n : Nat} {v : Word}
    (h : (∃ b r, n = 12 ∧ u.bq = b :: r ∧ v = if b then 1 else 0) ∨
      (∃ e r, n = 8 ∧ (u.seq q).dq.dqin = e :: r ∧ (u.seq q).dq.src = 0 ∧ (u.seq q).dq.snk = 0 ∧ v = e.val) ∨
      ∃ x ∈ engineQueues, ∃ e r, n = x.1 ∧ ((u.seq q).eq x.2).results = e :: r ∧ v = e.word) :
    peekQueue u q n = .got v := by
  rcases h with ⟨b, r, rfl, hbq, rfl⟩ | ⟨e, r, rfl, hdq, -, hsnk, rfl⟩ | ⟨x, hx, e, r, rfl, hres, rfl⟩
  · simp [peekQueue, engOfQueue, hbq]
  · simp [peekQueue, engOfQueue, hdq, hsnk, dqinConvert_sink_raw]
  · simp [peekQueue, engOfQueue_of_mem x hx, hres]

/-! ## Readiness (R153) -/

theorem headFilled_iff (v : VecQueue) : headFilled v = true ↔ ∃ e r, v.entries = e :: r ∧ e.val.isSome = true := by
  cases hv : v.entries <;> simp [headFilled, hv]

/-- The condition that `QWAIT` tests at a legal queue is the one that it waits for. -/
theorem queueReady_iff {s : State} {uid : Nat} {q : Seq} {n : BitVec 6} (hq : queueLegal q n.toNat = true) :
    queueReady s uid q n.toNat = true ↔ QueueIsReady s uid q n := by
  rcases queueLegal_cases hq with hn | ⟨hn, hn'⟩ | hn | hn | hn | hn | hn | ⟨r, hr, hn⟩
  · have hready : queueReady s uid q n.toNat = (tokensOf (getUnit s uid) q (tokenPeer n)).isEmpty := by
      simp [queueReady, engOfQueue_none (show n.toNat < 16 by omega), hn, tokenQueue_out _ q hn]
    rw [hready, List.isEmpty_iff]
    exact ⟨fun h => ⟨fun _ => h, by omega, by omega, by omega, by omega, by omega, by omega,
      fun r hr e => absurd (engineQueues_ge r hr) (by omega)⟩, fun ⟨hout, _⟩ => hout hn⟩
  · have hready : queueReady s uid q n.toNat = !(tokensOf (getUnit s uid) (tokenPeer n) q).isEmpty := by
      simp [queueReady, engOfQueue_none (show n.toNat < 16 by omega), show ¬ n.toNat < 4 by omega, hn', tokenQueue_in _ q hn hn']
    rw [hready, Bool.not_eq_true', ← Bool.not_eq_true, List.isEmpty_iff]
    exact ⟨fun h => ⟨by omega, fun _ _ => h, by omega, by omega, by omega, by omega, by omega,
      fun r hr e => absurd (engineQueues_ge r hr) (by omega)⟩, fun ⟨_, hin, _⟩ => hin hn hn'⟩
  · simp [queueReady, QueueIsReady, hn, engOfQueue, engineQueues]
  · simp [queueReady, QueueIsReady, hn, engOfQueue, engineQueues]
  · by_cases hx : q = .x <;> simp [queueReady, QueueIsReady, hn, engOfQueue, engineQueues, hx, headFilled_iff]
  · by_cases hx : q = .s <;> simp [queueReady, QueueIsReady, hn, engOfQueue, engineQueues, hx, headFilled_iff]
  · by_cases hx : q = .x <;> simp [queueReady, QueueIsReady, hn, engOfQueue, engineQueues, hx]
  · have hready : queueReady s uid q n.toNat = !outstanding s uid q r.2 := by simp [queueReady, hn, engOfQueue_of_mem r hr]
    have hge := engineQueues_ge r hr
    rw [hready, Bool.not_eq_true']
    exact ⟨fun h => ⟨by omega, by omega, by omega, by omega, by omega, by omega, by omega,
      fun x hx e => engineQueues_inj r hr x hx (hn ▸ e) ▸ h⟩, fun ⟨_, _, _, _, _, _, _, heng⟩ => heng r hr hn⟩

/-! ## The words -/

theorem rp1_ok {c : Ctx} {a : BitVec 6} {s t : State} {m : Mask} (h : rp c a s = .ok (m, t)) : rp1 c a s = .ok (m.getLsbD 0, t) := by
  rw [rp1, M_bind_ok h]; rfl

/-- The state with the oldest result of an engine at a sequencer gone. -/
def dropResult (s : State) (uid : Nat) (q : Seq) (e : Eng) : State := modEq s uid q e fun k => { k with results := ((getSeq s uid q).eq e).results.tail }

@[simp] theorem dropResult_mem (s : State) (uid : Nat) (q : Seq) (e : Eng) : (dropResult s uid q e).mem = s.mem := rfl

@[simp] theorem results_dropResult (s : State) (uid : Nat) (q : Seq) (e : Eng) :
    ((getSeq (dropResult s uid q e) uid q).eq e).results = ((getSeq s uid q).eq e).results.tail := by
  simp [dropResult, modEq]

@[simp] theorem regs_dropResult (s : State) (uid : Nat) (q : Seq) (e : Eng) :
    (getSeq (dropResult s uid q e) uid q).regs = (getSeq s uid q).regs := by
  simp [dropResult, modEq]

/-- The acquire that goes with a result element: of its release, where it has one. -/
def acquireResult (s : State) (uid : Nat) (q : Seq) (e : Result) : State :=
  match e.rel with
  | none => s
  | some rel => acquireRel s (seqAgent (getUnit s uid) uid q) rel

@[simp] theorem acquireResult_mem (s : State) (uid : Nat) (q : Seq) (e : Result) : (acquireResult s uid q e).mem = s.mem := by
  unfold acquireResult
  cases e.rel <;> rfl

@[simp] theorem getSeq_acquireResult (s : State) (uid uid' : Nat) (q q' : Seq) (e : Result) :
    getSeq (acquireResult s uid q e) uid' q' = getSeq s uid' q' := by
  unfold acquireResult
  cases e.rel <;> rfl

section Words

variable {s p t : State} {a d n : BitVec 6} {tk : BitVec 2}

theorem tkcnt_legal (h : Issues s (.tkcnt d n tk) tk p) : n.toNat ≤ 7 ∧ queueLegal s.cur.q n.toNat = true := by
  have hlegal : (n.toNat ≤ 7 && queueLegal s.cur.q n.toNat) = true := h.accepted
  simpa using hlegal

theorem exec_tkcnt_ok (h : Issues s (.tkcnt d n tk) tk p)
    (ht : landScalar (issueCtx s (.tkcnt d n tk) tk) d.toNat
      (BitVec.ofNat 64 (queueCount (getUnit (bodyState s p) s.cur.uid) s.cur.q n.toNat)) 1 (bodyState s p) = .ok ((), t)) :
    exec (.tkcnt d n tk) s = .next (endWord s (.tkcnt d n tk) tk true t) := by
  obtain ⟨hn, -⟩ := tkcnt_legal h
  rw [queueCount_tokens _ _ (Nat.lt_succ_of_le hn)] at ht
  rw [exec_tkcnt, execTkcnt]
  refine issue_ok h ?_
  rw [M_bind_ok (theUnit_ok _ _)]
  exact ht

theorem exec_qcnt_ok (h : Issues s (.qcnt d n tk) tk p)
    (ht : landScalar (issueCtx s (.qcnt d n tk) tk) d.toNat
      (BitVec.ofNat 64 (queueCount (getUnit (bodyState s p) s.cur.uid) s.cur.q n.toNat)) 1 (bodyState s p) = .ok ((), t)) :
    exec (.qcnt d n tk) s = .next (endWord s (.qcnt d n tk) tk true t) := by
  rw [exec_qcnt, execQcnt]
  refine issue_ok h ?_
  rw [M_bind_ok (theUnit_ok _ _)]
  exact ht

theorem exec_qpeek_wait (h : Issues s (.qpeek d n tk) tk p)
    (hw : peekQueue (getUnit (bodyState s p) s.cur.uid) s.cur.q n.toNat = .wait) :
    exec (.qpeek d n tk) s = .next (stopWord p (issueCtx s (.qpeek d n tk) tk) (.freeze (.queue n.toNat) none)) := by
  rw [exec_qpeek, execQpeek]
  refine issue_stop' h rfl ?_
  rw [M_bind_ok (theUnit_ok _ _)]
  simp only [issueCtx, hw]
  rfl

theorem exec_qpeek_got {v : Word} (h : Issues s (.qpeek d n tk) tk p)
    (hv : peekQueue (getUnit (bodyState s p) s.cur.uid) s.cur.q n.toNat = .got v)
    (ht : landScalar (issueCtx s (.qpeek d n tk) tk) d.toNat v 1 (bodyState s p) = .ok ((), t)) :
    exec (.qpeek d n tk) s = .next (endWord s (.qpeek d n tk) tk true t) := by
  rw [exec_qpeek, execQpeek]
  refine issue_ok h ?_
  rw [M_bind_ok (theUnit_ok _ _)]
  simp only [issueCtx] at ht ⊢
  simp only [hv, ht]

theorem exec_epop_empty {e : Eng} (h : Issues s (.epop d n tk) tk p) (he : engOfQueue n.toNat = some e)
    (hres : ((getSeq (bodyState s p) s.cur.uid s.cur.q).eq e).results = []) :
    exec (.epop d n tk) s = .next (stopWord p (issueCtx s (.epop d n tk) tk) (.freeze (.queue n.toNat) none)) := by
  rw [exec_epop, execEpop]
  refine issue_stop' h rfl ?_
  simp only [he]
  rw [M_bind_ok (theSeq_ok _ _)]
  simp only [issueCtx, hres]
  rfl

/-- `EPOP` lands the word of the oldest result, in the state without it and with its writes acquired. -/
theorem exec_epop_ok {e : Eng} {x : Result} {rest : List Result} (h : Issues s (.epop d n tk) tk p) (he : engOfQueue n.toNat = some e)
    (hres : ((getSeq (bodyState s p) s.cur.uid s.cur.q).eq e).results = x :: rest)
    (ht : landScalar (issueCtx s (.epop d n tk) tk) d.toNat x.word 1
      (acquireResult (dropResult (bodyState s p) s.cur.uid s.cur.q e) s.cur.uid s.cur.q x) = .ok ((), t)) :
    exec (.epop d n tk) s = .next (endWord s (.epop d n tk) tk true t) := by
  rw [exec_epop, execEpop]
  refine issue_ok h ?_
  simp only [he]
  rw [M_bind_ok (theSeq_ok _ _)]
  simp only [issueCtx, hres]
  rw [M_bind_ok (upd_ok _ _)]
  simp only [dropResult, hres] at ht
  cases hrel : x.rel with
  | none =>
    simp only [acquireResult, hrel] at ht ⊢
    exact ht
  | some rel =>
    simp only [acquireResult, hrel] at ht ⊢
    rw [M_bind_ok (upd_ok _ _)]
    exact ht

theorem exec_qwait_ready (h : Issues s (.qwait n tk) tk p) (hr : queueReady (bodyState s p) s.cur.uid s.cur.q n.toNat = true) :
    exec (.qwait n tk) s = .next (endWord s (.qwait n tk) tk false (bodyState s p)) := by
  rw [exec_qwait, execQwait]
  refine issue_ok h ?_
  rw [M_bind_ok (M_get _)]
  simp only [issueCtx, hr]
  rfl

theorem exec_qwait_waits (h : Issues s (.qwait n tk) tk p) (hr : ¬ queueReady (bodyState s p) s.cur.uid s.cur.q n.toNat = true) :
    exec (.qwait n tk) s = .next (stopWord p (issueCtx s (.qwait n tk) tk) (.freeze (.queue n.toNat) none)) := by
  rw [exec_qwait, execQwait]
  refine issue_stop' h rfl ?_
  rw [M_bind_ok (M_get _)]
  simp only [issueCtx, hr]
  rfl

theorem exec_bqpush_full {m : Mask} (h : Issues s (.bqpush a tk) tk p) (hm : rp (issueCtx s (.bqpush a tk) tk) a (bodyState s p) = .ok (m, t))
    (hf : 64 ≤ (getUnit t s.cur.uid).bq.length) :
    exec (.bqpush a tk) s = .next (stopWord p (issueCtx s (.bqpush a tk) tk) (.freeze (.queue 12) none)) := by
  rw [exec_bqpush, execBqpush]
  refine issue_stop' h rfl ?_
  rw [M_bind_ok (rp1_ok hm), M_bind_ok (theUnit_ok _ _)]
  exact congrFun (if_pos hf) t

theorem exec_bqpush_ok {m : Mask} (h : Issues s (.bqpush a tk) tk p) (hm : rp (issueCtx s (.bqpush a tk) tk) a (bodyState s p) = .ok (m, t))
    (hf : (getUnit t s.cur.uid).bq.length < 64) :
    exec (.bqpush a tk) s = .next (endWord s (.bqpush a tk) tk false (modUnit t s.cur.uid fun u => { u with bq := u.bq ++ [m.getLsbD 0] })) := by
  rw [exec_bqpush, execBqpush]
  refine issue_ok h ?_
  rw [M_bind_ok (rp1_ok hm), M_bind_ok (theUnit_ok _ _)]
  exact congrFun (if_neg (Nat.not_le.2 hf)) t

end Words

/-- Settles O14: each word's body by the count, head or readiness of the queue that its index names. -/
theorem queueReadsShowTheirQueue : Obligations.QueueReadsShowTheirQueue := by
  refine ⟨?counts, ?peek, ?epop, fun n tk s p h => ?wait, fun a tk s p t m h hm => ⟨exec_bqpush_full h hm, exec_bqpush_ok h hm⟩⟩
  case counts =>
    simp only [List.forall_mem_cons, List.not_mem_nil, false_implies, implies_true, and_true]
    refine ⟨fun d n tk s p t k h hk ht => ?tkcnt, fun d n tk s p t k h hk ht => ?qcnt⟩
    case tkcnt =>
      obtain ⟨-, hlegal⟩ := tkcnt_legal h
      exact exec_tkcnt_ok h (hk.eq_queueCount hlegal ▸ ht)
    case qcnt => exact exec_qcnt_ok h (hk.eq_queueCount h.accepted ▸ ht)
  case peek =>
    intro d n tk s p t v i u c h
    exact ⟨fun hw => exec_qpeek_wait h (peekQueue_wait hw), fun hv ht => exec_qpeek_got h (peekQueue_got hv) ht⟩
  case epop =>
    intro x hx d n tk s p hn i b h
    have he : engOfQueue n.toNat = some x.2 := hn ▸ engOfQueue_of_mem x hx
    refine ⟨exec_epop_empty h he, fun e r hres => ⟨acquireResult (dropResult b s.cur.uid s.cur.q x.2) s.cur.uid s.cur.q e, ?_, ?_, ?_, fun t ht =>
      exec_epop_ok h he hres ht⟩⟩
    · simp
    · simp [hres]
    · simp
  case wait =>
    have hready := queueReady_iff (s := bodyState s p) (uid := s.cur.uid) (n := n) h.accepted
    exact ⟨fun hr => exec_qwait_ready h (hready.2 hr), fun hr => exec_qwait_waits h fun g => hr (hready.1 g)⟩

end Sys2Proof.Machine
end

section
/-!
PROOFS. Decoding undoes encoding (R62 to R65, R81, R85, R86): the round trip of every constructor, and O58 from it.
-/

namespace Sys2Proof

/-- Every instruction meets `Laws.RoundTrip.Statement`: the lemmas of the family put together, one for each constructor. -/
theorem roundTrip_statement (i : Instr) : Laws.RoundTrip.Statement i := by
  cases i with
  | ill d a i t => exact Laws.RoundTrip.ill d a i t
  | nop t => exact Laws.RoundTrip.nop t
  | halt t => exact Laws.RoundTrip.halt t
  | trap i t => exact Laws.RoundTrip.trap i t
  | rett t => exact Laws.RoundTrip.rett t
  | mfs d i t => exact Laws.RoundTrip.mfs d i t
  | mts a i t => exact Laws.RoundTrip.mts a i t
  | vcyc d t => exact Laws.RoundTrip.vcyc d t
  | dbgpend d i t => exact Laws.RoundTrip.dbgpend d i t
  | bkpt i t => exact Laws.RoundTrip.bkpt i t
  | wfe t => exact Laws.RoundTrip.wfe t
  | sev i t => exact Laws.RoundTrip.sev i t
  | tkcfg i t => exact Laws.RoundTrip.tkcfg i t
  | ident d i t => exact Laws.RoundTrip.ident d i t
  | pace a i t => exact Laws.RoundTrip.pace a i t
  | enrd d i t => exact Laws.RoundTrip.enrd d i t
  | gceil d t => exact Laws.RoundTrip.gceil d t
  | add d a b t => exact Laws.RoundTrip.add d a b t
  | sub d a b t => exact Laws.RoundTrip.sub d a b t
  | and d a b t => exact Laws.RoundTrip.and d a b t
  | or d a b t => exact Laws.RoundTrip.or d a b t
  | xor d a b t => exact Laws.RoundTrip.xor d a b t
  | andn d a b t => exact Laws.RoundTrip.andn d a b t
  | sll d a b t => exact Laws.RoundTrip.sll d a b t
  | srl d a b t => exact Laws.RoundTrip.srl d a b t
  | sra d a b t => exact Laws.RoundTrip.sra d a b t
  | rol d a b t => exact Laws.RoundTrip.rol d a b t
  | slt d a b t => exact Laws.RoundTrip.slt d a b t
  | sltu d a b t => exact Laws.RoundTrip.sltu d a b t
  | min d a b t => exact Laws.RoundTrip.min d a b t
  | max d a b t => exact Laws.RoundTrip.max d a b t
  | minu d a b t => exact Laws.RoundTrip.minu d a b t
  | maxu d a b t => exact Laws.RoundTrip.maxu d a b t
  | mul d a b t => exact Laws.RoundTrip.mul d a b t
  | mulh d a b t => exact Laws.RoundTrip.mulh d a b t
  | mulhu d a b t => exact Laws.RoundTrip.mulhu d a b t
  | div d a b t => exact Laws.RoundTrip.div d a b t
  | divu d a b t => exact Laws.RoundTrip.divu d a b t
  | rem d a b t => exact Laws.RoundTrip.rem d a b t
  | remu d a b t => exact Laws.RoundTrip.remu d a b t
  | clz d a t => exact Laws.RoundTrip.clz d a t
  | ctz d a t => exact Laws.RoundTrip.ctz d a t
  | popc d a t => exact Laws.RoundTrip.popc d a t
  | sext d a b t => exact Laws.RoundTrip.sext d a b t
  | zext d a b t => exact Laws.RoundTrip.zext d a b t
  | addw d a b t => exact Laws.RoundTrip.addw d a b t
  | subw d a b t => exact Laws.RoundTrip.subw d a b t
  | mulw d a b t => exact Laws.RoundTrip.mulw d a b t
  | addi d a i t => exact Laws.RoundTrip.addi d a i t
  | andi d a i t => exact Laws.RoundTrip.andi d a i t
  | ori d a i t => exact Laws.RoundTrip.ori d a i t
  | xori d a i t => exact Laws.RoundTrip.xori d a i t
  | slti d a i t => exact Laws.RoundTrip.slti d a i t
  | slli d a i t => exact Laws.RoundTrip.slli d a i t
  | srli d a i t => exact Laws.RoundTrip.srli d a i t
  | srai d a i t => exact Laws.RoundTrip.srai d a i t
  | movhi d i t => exact Laws.RoundTrip.movhi d i t
  | ld d a o z t => exact Laws.RoundTrip.ld d a o z t
  | lds d a o z t => exact Laws.RoundTrip.lds d a o z t
  | st d a o z t => exact Laws.RoundTrip.st d a o z t
  | beqz a o t => exact Laws.RoundTrip.beqz a o t
  | bnez a o t => exact Laws.RoundTrip.bnez a o t
  | bltz a o t => exact Laws.RoundTrip.bltz a o t
  | bgez a o t => exact Laws.RoundTrip.bgez a o t
  | bgtz a o t => exact Laws.RoundTrip.bgtz a o t
  | blez a o t => exact Laws.RoundTrip.blez a o t
  | bp a o t => exact Laws.RoundTrip.bp a o t
  | bnp a o t => exact Laws.RoundTrip.bnp a o t
  | bq o t => exact Laws.RoundTrip.bq o t
  | bnq o t => exact Laws.RoundTrip.bnq o t
  | jmp o t => exact Laws.RoundTrip.jmp o t
  | call o t => exact Laws.RoundTrip.call o t
  | jr d a i t => exact Laws.RoundTrip.jr d a i t
  | callr d a i t => exact Laws.RoundTrip.callr d a i t
  | tkpush q t => exact Laws.RoundTrip.tkpush q t
  | tkpop q t => exact Laws.RoundTrip.tkpop q t
  | tkcnt d q t => exact Laws.RoundTrip.tkcnt d q t
  | qpeek d q t => exact Laws.RoundTrip.qpeek d q t
  | qcnt d q t => exact Laws.RoundTrip.qcnt d q t
  | qsquash q t => exact Laws.RoundTrip.qsquash q t
  | qfmt a q t => exact Laws.RoundTrip.qfmt a q t
  | qsel q t => exact Laws.RoundTrip.qsel q t
  | bqpush a t => exact Laws.RoundTrip.bqpush a t
  | qwait q t => exact Laws.RoundTrip.qwait q t
  | epop d q t => exact Laws.RoundTrip.epop d q t
  | hmov d a t => exact Laws.RoundTrip.hmov d a t
  | hld d r t => exact Laws.RoundTrip.hld d r t
  | hst a r t => exact Laws.RoundTrip.hst a r t
  | hsetb d a r t => exact Laws.RoundTrip.hsetb d a r t
  | hsetd d a k r t => exact Laws.RoundTrip.hsetd d a k r t
  | hsets d a k r t => exact Laws.RoundTrip.hsets d a k r t
  | hsetf d a r t => exact Laws.RoundTrip.hsetf d a r t
  | hgetb a r t => exact Laws.RoundTrip.hgetb a r t
  | hgetd a k r t => exact Laws.RoundTrip.hgetd a k r t
  | hoff d a k r t => exact Laws.RoundTrip.hoff d a k r t
  | hsub d a r t => exact Laws.RoundTrip.hsub d a r t
  | hchk a r t => exact Laws.RoundTrip.hchk a r t
  | hclr d t => exact Laws.RoundTrip.hclr d t
  | ctld h a b l t => exact Laws.RoundTrip.ctld h a b l t
  | ctst h a b l t => exact Laws.RoundTrip.ctst h a b l t
  | ccpy h a b l t => exact Laws.RoundTrip.ccpy h a b l t
  | cfill h a b l t => exact Laws.RoundTrip.cfill h a b l t
  | cpfx h a b l t => exact Laws.RoundTrip.cpfx h a b l t
  | cxfr a b l t => exact Laws.RoundTrip.cxfr a b l t
  | gath h a b t => exact Laws.RoundTrip.gath h a b t
  | scat h a b t => exact Laws.RoundTrip.scat h a b t
  | gathp h a b t => exact Laws.RoundTrip.gathp h a b t
  | scata h a b t => exact Laws.RoundTrip.scata h a b t
  | xallr h a b t => exact Laws.RoundTrip.xallr h a b t
  | xrds h a b t => exact Laws.RoundTrip.xrds h a b t
  | xallg h a b t => exact Laws.RoundTrip.xallg h a b t
  | xsend h a b t => exact Laws.RoundTrip.xsend h a b t
  | xrecv h a b t => exact Laws.RoundTrip.xrecv h a b t
  | xexch h a b t => exact Laws.RoundTrip.xexch h a b t
  | ald d a o s z => exact Laws.RoundTrip.ald d a o s z
  | ast a b o s z => exact Laws.RoundTrip.ast a b o s z
  | aswp d a b o s z => exact Laws.RoundTrip.aswp d a b o s z
  | acas d a b o s z => exact Laws.RoundTrip.acas d a b o s z
  | aadd d a b o s z => exact Laws.RoundTrip.aadd d a b o s z
  | aand d a b o s z => exact Laws.RoundTrip.aand d a b o s z
  | aor d a b o s z => exact Laws.RoundTrip.aor d a b o s z
  | axor d a b o s z => exact Laws.RoundTrip.axor d a b o s z
  | amin d a b o s z => exact Laws.RoundTrip.amin d a b o s z
  | amax d a b o s z => exact Laws.RoundTrip.amax d a b o s z
  | aminu d a b o s z => exact Laws.RoundTrip.aminu d a b o s z
  | amaxu d a b o s z => exact Laws.RoundTrip.amaxu d a b o s z
  | afadd d a b o s => exact Laws.RoundTrip.afadd d a b o s
  | sigdec d a b o s => exact Laws.RoundTrip.sigdec d a b o s
  | sigadd d a b o s => exact Laws.RoundTrip.sigadd d a b o s
  | fence s o t => exact Laws.RoundTrip.fence s o t
  | fencee s o m t => exact Laws.RoundTrip.fencee s o m t
  | ssync t => exact Laws.RoundTrip.ssync t
  | cbar t => exact Laws.RoundTrip.cbar t
  | waitv s o a c t => exact Laws.RoundTrip.waitv s o a c t
  | ckopen d a t => exact Laws.RoundTrip.ckopen d a t
  | ckopenGrow d a t => exact Laws.RoundTrip.ckopenGrow d a t
  | ckseal d a t => exact Laws.RoundTrip.ckseal d a t
  | ckblnd d a b t => exact Laws.RoundTrip.ckblnd d a b t
  | ckfilt d a r t => exact Laws.RoundTrip.ckfilt d a r t
  | ckrebs d a r t => exact Laws.RoundTrip.ckrebs d a r t
  | ckpour a r t => exact Laws.RoundTrip.ckpour a r t
  | ckdrop a t => exact Laws.RoundTrip.ckdrop a t
  | ckinfo a k r t => exact Laws.RoundTrip.ckinfo a k r t
  | ckabort a t => exact Laws.RoundTrip.ckabort a t
  | glaunch d a t => exact Laws.RoundTrip.glaunch d a t
  | gwait d a i t => exact Laws.RoundTrip.gwait d a i t
  | gcancel d a i t => exact Laws.RoundTrip.gcancel d a i t
  | gcnt d a i t => exact Laws.RoundTrip.gcnt d a i t
  | yield t => exact Laws.RoundTrip.yield t
  | uexit t => exact Laws.RoundTrip.uexit t
  | priset d a t => exact Laws.RoundTrip.priset d a t
  | pset d a i t => exact Laws.RoundTrip.pset d a i t
  | pand d a i t => exact Laws.RoundTrip.pand d a i t
  | por d a i t => exact Laws.RoundTrip.por d a i t
  | pxor d a i t => exact Laws.RoundTrip.pxor d a i t
  | pnot d a t => exact Laws.RoundTrip.pnot d a t
  | pmov d a t => exact Laws.RoundTrip.pmov d a t
  | ptos d a i t => exact Laws.RoundTrip.ptos d a i t
  | pall d a i t => exact Laws.RoundTrip.pall d a i t
  | pany d a i t => exact Laws.RoundTrip.pany d a i t
  | vwin a t => exact Laws.RoundTrip.vwin a t
  | loopx a i t => exact Laws.RoundTrip.loopx a i t
  | loope t => exact Laws.RoundTrip.loope t
  | vrot i t => exact Laws.RoundTrip.vrot i t
  | vtag d f t => exact Laws.RoundTrip.vtag d f t
  | vtagr d a t => exact Laws.RoundTrip.vtagr d a t
  | vld d a i t => exact Laws.RoundTrip.vld d a i t
  | vst d a i t => exact Laws.RoundTrip.vst d a i t
  | vldt d a m t => exact Laws.RoundTrip.vldt d a m t
  | vldg d a b t => exact Laws.RoundTrip.vldg d a b t
  | vsts d a m t => exact Laws.RoundTrip.vsts d a m t
  | vldb d a m t => exact Laws.RoundTrip.vldb d a m t
  | vlds d a m t => exact Laws.RoundTrip.vlds d a m t
  | plse t => exact Laws.RoundTrip.plse t
  | prel t => exact Laws.RoundTrip.prel t
  | pwld h a t => exact Laws.RoundTrip.pwld h a t
  | pmul h a b t => exact Laws.RoundTrip.pmul h a b t
  | pmulz h a b t => exact Laws.RoundTrip.pmulz h a b t
  | pdrn c h a t => exact Laws.RoundTrip.pdrn c h a t
  | pstat a t => exact Laws.RoundTrip.pstat a t
  | rwsmx c h a b l t => exact Laws.RoundTrip.rwsmx c h a b l t
  | rwmax c h a b l t => exact Laws.RoundTrip.rwmax c h a b l t
  | rwexps c h a b l t => exact Laws.RoundTrip.rwexps c h a b l t
  | rwscl c h a b l t => exact Laws.RoundTrip.rwscl c h a b l t
  | rwrms c h a b l t => exact Laws.RoundTrip.rwrms c h a b l t
  | rwlnrm c h a b l t => exact Laws.RoundTrip.rwlnrm c h a b l t
  | vadd d a b p t => exact Laws.RoundTrip.vadd d a b p t
  | vsub d a b p t => exact Laws.RoundTrip.vsub d a b p t
  | vmul d a b p t => exact Laws.RoundTrip.vmul d a b p t
  | vfma d a b p t => exact Laws.RoundTrip.vfma d a b p t
  | vfms d a b p t => exact Laws.RoundTrip.vfms d a b p t
  | vmin d a b p t => exact Laws.RoundTrip.vmin d a b p t
  | vmax d a b p t => exact Laws.RoundTrip.vmax d a b p t
  | vabs d a p t => exact Laws.RoundTrip.vabs d a p t
  | vneg d a p t => exact Laws.RoundTrip.vneg d a p t
  | vand d a b p t => exact Laws.RoundTrip.vand d a b p t
  | vor d a b p t => exact Laws.RoundTrip.vor d a b p t
  | vxor d a b p t => exact Laws.RoundTrip.vxor d a b p t
  | vsll d a b p t => exact Laws.RoundTrip.vsll d a b p t
  | vsrl d a b p t => exact Laws.RoundTrip.vsrl d a b p t
  | vsra d a b p t => exact Laws.RoundTrip.vsra d a b p t
  | vcmpeq d a b p t => exact Laws.RoundTrip.vcmpeq d a b p t
  | vcmplt d a b p t => exact Laws.RoundTrip.vcmplt d a b p t
  | vcmple d a b p t => exact Laws.RoundTrip.vcmple d a b p t
  | vsel d a b p t => exact Laws.RoundTrip.vsel d a b p t
  | vmov d a p t => exact Laws.RoundTrip.vmov d a p t
  | vsat d a b p t => exact Laws.RoundTrip.vsat d a b p t
  | vaddsat d a b p t => exact Laws.RoundTrip.vaddsat d a b p t
  | vrcp d a p t => exact Laws.RoundTrip.vrcp d a p t
  | vsqrt d a p t => exact Laws.RoundTrip.vsqrt d a p t
  | vrsqrt d a p t => exact Laws.RoundTrip.vrsqrt d a p t
  | vexp2 d a p t => exact Laws.RoundTrip.vexp2 d a p t
  | vlog2 d a p t => exact Laws.RoundTrip.vlog2 d a p t
  | vexp d a p t => exact Laws.RoundTrip.vexp d a p t
  | vtanh d a p t => exact Laws.RoundTrip.vtanh d a p t
  | vsigm d a p t => exact Laws.RoundTrip.vsigm d a p t
  | vgelu d a p t => exact Laws.RoundTrip.vgelu d a p t
  | vsilu d a p t => exact Laws.RoundTrip.vsilu d a p t
  | vcvt d a g p t => exact Laws.RoundTrip.vcvt d a g p t
  | vcvtr d a m g p t => exact Laws.RoundTrip.vcvtr d a m g p t
  | vqmx d a b g t => exact Laws.RoundTrip.vqmx d a b g t
  | vdqmx d a b g t => exact Laws.RoundTrip.vdqmx d a b g t
  | vperm d a b p t => exact Laws.RoundTrip.vperm d a b p t
  | vshuf d a b p t => exact Laws.RoundTrip.vshuf d a b p t
  | vslide d a b p t => exact Laws.RoundTrip.vslide d a b p t
  | vbcst d a b p t => exact Laws.RoundTrip.vbcst d a b p t
  | vins d a b t => exact Laws.RoundTrip.vins d a b t
  | vext d a b t => exact Laws.RoundTrip.vext d a b t
  | vcmpct a p t => exact Laws.RoundTrip.vcmpct a p t
  | vcpop d p t => exact Laws.RoundTrip.vcpop d p t
  | vcflush d p t => exact Laws.RoundTrip.vcflush d p t
  | vrsum d a p t => exact Laws.RoundTrip.vrsum d a p t
  | vrmax d a p t => exact Laws.RoundTrip.vrmax d a p t
  | vrmin d a p t => exact Laws.RoundTrip.vrmin d a p t
  | vrand d a p t => exact Laws.RoundTrip.vrand d a p t
  | vror d a p t => exact Laws.RoundTrip.vror d a p t
  | vdot d a b p t => exact Laws.RoundTrip.vdot d a b p t
  | vscan d a p t => exact Laws.RoundTrip.vscan d a p t
  | vpcnt d a p t => exact Laws.RoundTrip.vpcnt d a p t
  | cbind s p d => exact Laws.RoundTrip.cbind s p d
  | cstart r s p d => exact Laws.RoundTrip.cstart r s p d
  | cjoin s p d => exact Laws.RoundTrip.cjoin s p d
  | cquery s p d => exact Laws.RoundTrip.cquery s p d
  | cfence p d => exact Laws.RoundTrip.cfence p d
  | cpark p d => exact Laws.RoundTrip.cpark p d
  | ccancel r s p d => exact Laws.RoundTrip.ccancel r s p d
  | cfree p d => exact Laws.RoundTrip.cfree p d
  | csignal r s p d => exact Laws.RoundTrip.csignal r s p d
  | cvers s p d => exact Laws.RoundTrip.cvers s p d
  | cfault r s p d => exact Laws.RoundTrip.cfault r s p d
  | hostFormInterrupt hart => exact Laws.RoundTrip.hostFormInterrupt hart
  | blockingFormReturn hart => exact Laws.RoundTrip.blockingFormReturn hart
  | cpsave hart addr => exact Laws.RoundTrip.cpsave hart addr
  | cpload hart addr => exact Laws.RoundTrip.cpload hart addr
  | cpattn hart rd => exact Laws.RoundTrip.cpattn hart rd
  | registerWrite reg v => exact Laws.RoundTrip.registerWrite reg v
  | resultLand u q => exact Laws.RoundTrip.resultLand u q
  | dqoutForward u q => exact Laws.RoundTrip.dqoutForward u q
  | loadMissReturn u q => exact Laws.RoundTrip.loadMissReturn u q
  | storePerformed u q => exact Laws.RoundTrip.storePerformed u q
  | atomicPerformed u q => exact Laws.RoundTrip.atomicPerformed u q
  | barrierDepart u cluster late => exact Laws.RoundTrip.barrierDepart u cluster late
  | waitvRecheck u q => exact Laws.RoundTrip.waitvRecheck u q
  | rettReturn u q => exact Laws.RoundTrip.rettReturn u q
  | sequencerExit u q => exact Laws.RoundTrip.sequencerExit u q
  | engineCommandStart core eng => exact Laws.RoundTrip.engineCommandStart core eng
  | engineCommandComplete core eng => exact Laws.RoundTrip.engineCommandComplete core eng
  | engineCommandFail core eng => exact Laws.RoundTrip.engineCommandFail core eng
  | relocationTake core eng u q => exact Laws.RoundTrip.relocationTake core eng u q
  | engineFaultWaitResume core eng => exact Laws.RoundTrip.engineFaultWaitResume core eng
  | pressArbitrate cl => exact Laws.RoundTrip.pressArbitrate cl
  | pressReloadComplete cl => exact Laws.RoundTrip.pressReloadComplete cl
  | pressCommandStart cl => exact Laws.RoundTrip.pressCommandStart cl
  | pressCommandComplete cl => exact Laws.RoundTrip.pressCommandComplete cl
  | pressGrantCyclesExpire cl => exact Laws.RoundTrip.pressGrantCyclesExpire cl
  | collectiveContribution die c => exact Laws.RoundTrip.collectiveContribution die c
  | collectiveCommit die idx late => exact Laws.RoundTrip.collectiveCommit die idx late
  | collectiveTimeout die idx => exact Laws.RoundTrip.collectiveTimeout die idx
  | walkComplete die idx => exact Laws.RoundTrip.walkComplete die idx
  | fqtailWrite die v => exact Laws.RoundTrip.fqtailWrite die v
  | fqcfgWrite die v => exact Laws.RoundTrip.fqcfgWrite die v
  | fqrplRetry die w => exact Laws.RoundTrip.fqrplRetry die w
  | fqrplReject die w => exact Laws.RoundTrip.fqrplReject die w
  | fqrplTerminate die w => exact Laws.RoundTrip.fqrplTerminate die w
  | sfenceVma hart addr space => exact Laws.RoundTrip.sfenceVma hart addr space
  | leesSpill agent n => exact Laws.RoundTrip.leesSpill agent n
  | stageFlush u level => exact Laws.RoundTrip.stageFlush u level
  | hartDeviceRace hart va write => exact Laws.RoundTrip.hartDeviceRace hart va write
  | schedTick now => exact Laws.RoundTrip.schedTick now
  | park u => exact Laws.RoundTrip.park u
  | unpark u places => exact Laws.RoundTrip.unpark u places
  | launchPlace k places params => exact Laws.RoundTrip.launchPlace k places params
  | nodeComplete k => exact Laws.RoundTrip.nodeComplete k
  | waitEvaluate k => exact Laws.RoundTrip.waitEvaluate k
  | signalNode k => exact Laws.RoundTrip.signalNode k
  | copyNodeComplete k => exact Laws.RoundTrip.copyNodeComplete k
  | phasePeriodTimer cont job now => exact Laws.RoundTrip.phasePeriodTimer cont job now
  | agingExpire k now => exact Laws.RoundTrip.agingExpire k now
  | energyEstimateTick now => exact Laws.RoundTrip.energyEstimateTick now
  | refillBoundary cont now => exact Laws.RoundTrip.refillBoundary cont now
  | arbiterPeriod now => exact Laws.RoundTrip.arbiterPeriod now
  | biasMoveComplete cl => exact Laws.RoundTrip.biasMoveComplete cl
  | thermalHeadroomLost cl => exact Laws.RoundTrip.thermalHeadroomLost cl
  | thermalHeadroomRegained cl => exact Laws.RoundTrip.thermalHeadroomRegained cl
  | thermalStepDown cl => exact Laws.RoundTrip.thermalStepDown cl
  | ballastStart die => exact Laws.RoundTrip.ballastStart die
  | ballastShed die => exact Laws.RoundTrip.ballastShed die
  | trip die limit now => exact Laws.RoundTrip.trip die limit now
  | breachReceive member limit now => exact Laws.RoundTrip.breachReceive member limit now
  | ceilingStamp now => exact Laws.RoundTrip.ceilingStamp now
  | heartbeatSend now => exact Laws.RoundTrip.heartbeatSend now
  | heartbeatReceive hb now => exact Laws.RoundTrip.heartbeatReceive hb now
  | heartbeatMiss member now => exact Laws.RoundTrip.heartbeatMiss member now
  | memberEvict member now => exact Laws.RoundTrip.memberEvict member now
  | leaveComplete now => exact Laws.RoundTrip.leaveComplete now
  | groupLinkUp index peers version => exact Laws.RoundTrip.groupLinkUp index peers version
  | groupVersionChange version now => exact Laws.RoundTrip.groupVersionChange version now
  | linkBringup port lo hi => exact Laws.RoundTrip.linkBringup port lo hi
  | flitReceive port flit => exact Laws.RoundTrip.flitReceive port flit
  | pauseReceive port cls => exact Laws.RoundTrip.pauseReceive port cls
  | resumeReceive port cls => exact Laws.RoundTrip.resumeReceive port cls
  | admissionWindow port now => exact Laws.RoundTrip.admissionWindow port now
  | moduleReset => exact Laws.RoundTrip.moduleReset
  | watchdogExpire => exact Laws.RoundTrip.watchdogExpire
  | getver major => exact Laws.RoundTrip.getver major
  | slotwr piece => exact Laws.RoundTrip.slotwr piece
  | slotact => exact Laws.RoundTrip.slotact
  | confirm atDeadline => exact Laws.RoundTrip.confirm atDeadline
  | wdset seconds => exact Laws.RoundTrip.wdset seconds
  | mext reg digest => exact Laws.RoundTrip.mext reg digest
  | leescfg base size max => exact Laws.RoundTrip.leescfg base size max
  | schcfg base size => exact Laws.RoundTrip.schcfg base size
  | enset cont setting => exact Laws.RoundTrip.enset cont setting
  | capset cap floors => exact Laws.RoundTrip.capset cap floors
  | pwrstat clear => exact Laws.RoundTrip.pwrstat clear
  | qset q => exact Laws.RoundTrip.qset q
  | layset cls params => exact Laws.RoundTrip.layset cls params
  | csetprog set ranks stamp => exact Laws.RoundTrip.csetprog set ranks stamp
  | partcfg part clusters => exact Laws.RoundTrip.partcfg part clusters
  | getVersion via => exact Laws.RoundTrip.getVersion via
  | getCapabilities via => exact Laws.RoundTrip.getCapabilities via
  | negotiateAlgorithms via => exact Laws.RoundTrip.negotiateAlgorithms via
  | getDigests via => exact Laws.RoundTrip.getDigests via
  | getCertificate via => exact Laws.RoundTrip.getCertificate via
  | challenge via => exact Laws.RoundTrip.challenge via
  | getMeasurements via block => exact Laws.RoundTrip.getMeasurements via block
  | keyExchange via part => exact Laws.RoundTrip.keyExchange via part
  | finish via => exact Laws.RoundTrip.finish via
  | endSession via => exact Laws.RoundTrip.endSession via
  | tdispLock part => exact Laws.RoundTrip.tdispLock part
  | tdispLeaveRun part => exact Laws.RoundTrip.tdispLeaveRun part
  | spdmSessionExpire part => exact Laws.RoundTrip.spdmSessionExpire part
  | tdispUnlock part => exact Laws.RoundTrip.tdispUnlock part
  | hartAccess hart acc => exact Laws.RoundTrip.hartAccess hart acc
  | externalHostAccess acc => exact Laws.RoundTrip.externalHostAccess acc
  | tdispRun part => exact Laws.RoundTrip.tdispRun part
/-- Settles O58: the round trip of the instruction, at the sequencers that accept it and at the hart. -/
theorem decodingUndoesEncoding : Obligations.DecodingUndoesEncoding := by
  intro i w hw
  obtain ⟨hdev, hhost⟩ := roundTrip_statement i w hw
  exact ⟨fun hi q hl => hdev q hi hl, hhost⟩

end Sys2Proof
end

section
/-!
PROOFS. Encoding undoes decoding (R62 to R65, R68, R71, R81, R85): a word is put together from its fields, each major's functions keep every field, O60 from
these, and O56.
-/

namespace Sys2Proof

/-! ## The fields of a word (R63) -/

/-- A field whose number is known is known. -/
theorem eq_ofNat_of_toNat {w n : Nat} {x : BitVec w} (h : x.toNat = n) : x = BitVec.ofNat w n := by
  subst h; simp

/-- A field is its high part before its low one. -/
theorem high_append_low {n k : Nat} (x : BitVec (n + k)) : x.extractLsb' k n ++ x.extractLsb' 0 k = x := by
  refine BitVec.eq_of_getLsbD_eq fun i hi => ?_
  simp only [BitVec.getLsbD_append, BitVec.getLsbD_extractLsb']
  grind

theorem zeros_append {n k : Nat} {x : BitVec (n + k)} (h : x.extractLsb' k n = 0#n) : 0#n ++ x.extractLsb' 0 k = x := by
  rw [← h, high_append_low]

/-- The function of an engine's word is its release bit before its code. -/
theorem eq_bit_append_code {fn : BitVec 6} {n : Nat} (h : (fn.extractLsb' 0 5).toNat = n) : fn = fn.extractLsb' 5 1 ++ BitVec.ofNat 5 n := by
  rw [← eq_ofNat_of_toNat h]
  exact (high_append_low (n := 1) (k := 5) fn).symm

theorem wordR_fields (w : IWord) : wordR (w.extractLsb' 27 5) (w.extractLsb' 21 6) (w.extractLsb' 15 6) (w.extractLsb' 9 6) (w.extractLsb' 2 7) (w.extractLsb' 0 2) = w := by
  refine BitVec.eq_of_getLsbD_eq fun i hi => ?_
  rw [wordR_bit]
  simp only [BitVec.getLsbD_append, BitVec.getLsbD_extractLsb']
  grind

theorem wordI_fields (w : IWord) : wordI (w.extractLsb' 27 5) (w.extractLsb' 21 6) (w.extractLsb' 15 6) (w.extractLsb' 12 3) (w.extractLsb' 2 10) (w.extractLsb' 0 2) = w := by
  refine BitVec.eq_of_getLsbD_eq fun i hi => ?_
  rw [wordI_bit]
  simp only [BitVec.getLsbD_append, BitVec.getLsbD_extractLsb']
  grind

theorem wordU_fields (w : IWord) : wordU (w.extractLsb' 27 5) (w.extractLsb' 21 6) (w.extractLsb' 2 19) (w.extractLsb' 0 2) = w := by
  refine BitVec.eq_of_getLsbD_eq fun i hi => ?_
  rw [wordU_bit]
  simp only [BitVec.getLsbD_append, BitVec.getLsbD_extractLsb']
  grind

theorem wordM_fields (w : IWord) : wordM (w.extractLsb' 27 5) (w.extractLsb' 21 6) (w.extractLsb' 15 6) (w.extractLsb' 4 11) (w.extractLsb' 2 2) (w.extractLsb' 0 2) = w := by
  refine BitVec.eq_of_getLsbD_eq fun i hi => ?_
  rw [wordM_bit]
  simp only [BitVec.getLsbD_append, BitVec.getLsbD_extractLsb']
  grind

theorem wordB_fields (w : IWord) : wordB (w.extractLsb' 27 5) (w.extractLsb' 23 4) (w.extractLsb' 17 6) (w.extractLsb' 2 15) (w.extractLsb' 0 2) = w := by
  refine BitVec.eq_of_getLsbD_eq fun i hi => ?_
  rw [wordB_bit]
  simp only [BitVec.getLsbD_append, BitVec.getLsbD_extractLsb']
  grind

theorem wordJ_fields (w : IWord) : wordJ (w.extractLsb' 27 5) (w.extractLsb' 2 25) (w.extractLsb' 0 2) = w := by
  refine BitVec.eq_of_getLsbD_eq fun i hi => ?_
  rw [wordJ_bit]
  simp only [BitVec.getLsbD_append, BitVec.getLsbD_extractLsb']
  grind

theorem wordS_fields (w : IWord) : wordS (w.extractLsb' 27 5) (w.extractLsb' 20 7) (w.extractLsb' 14 6) (w.extractLsb' 8 6) (w.extractLsb' 2 6) (w.extractLsb' 0 2) = w := by
  refine BitVec.eq_of_getLsbD_eq fun i hi => ?_
  rw [wordS_bit]
  simp only [BitVec.getLsbD_append, BitVec.getLsbD_extractLsb']
  grind

theorem wordH_fields (w : IWord) : wordH (w.extractLsb' 27 5) (w.extractLsb' 23 4) (w.extractLsb' 19 4) (w.extractLsb' 15 4) (w.extractLsb' 9 6) (w.extractLsb' 2 7) (w.extractLsb' 0 2) = w := by
  refine BitVec.eq_of_getLsbD_eq fun i hi => ?_
  rw [wordH_bit]
  simp only [BitVec.getLsbD_append, BitVec.getLsbD_extractLsb']
  grind

theorem wordE_fields (w : IWord) : wordE (w.extractLsb' 27 5) (w.extractLsb' 24 3) (w.extractLsb' 20 4) (w.extractLsb' 14 6) (w.extractLsb' 8 6) (w.extractLsb' 2 6) (w.extractLsb' 0 2) = w := by
  refine BitVec.eq_of_getLsbD_eq fun i hi => ?_
  rw [wordE_bit]
  simp only [BitVec.getLsbD_append, BitVec.getLsbD_extractLsb']
  grind

theorem wordV_fields (w : IWord) : wordV (w.extractLsb' 27 5) (w.extractLsb' 22 5) (w.extractLsb' 17 5) (w.extractLsb' 12 5) (w.extractLsb' 8 4) (w.extractLsb' 2 6) (w.extractLsb' 0 2) = w := by
  refine BitVec.eq_of_getLsbD_eq fun i hi => ?_
  rw [wordV_bit]
  simp only [BitVec.getLsbD_append, BitVec.getLsbD_extractLsb']
  grind

theorem wordVL_fields (w : IWord) : wordVL (w.extractLsb' 27 5) (w.extractLsb' 22 5) (w.extractLsb' 16 6) (w.extractLsb' 8 8) (w.extractLsb' 2 6) (w.extractLsb' 0 2) = w := by
  refine BitVec.eq_of_getLsbD_eq fun i hi => ?_
  rw [wordVL_bit]
  simp only [BitVec.getLsbD_append, BitVec.getLsbD_extractLsb']
  grind

theorem wordA_fields (w : IWord) : wordA (w.extractLsb' 27 5) (w.extractLsb' 22 5) (w.extractLsb' 17 5) (w.extractLsb' 12 5) (w.extractLsb' 8 4) (w.extractLsb' 5 3) (w.extractLsb' 1 4) (w.extractLsb' 0 1) = w := by
  refine BitVec.eq_of_getLsbD_eq fun i hi => ?_
  rw [wordA_bit]
  simp only [BitVec.getLsbD_append, BitVec.getLsbD_extractLsb']
  grind

theorem wordF_fields (w : IWord) : wordF (w.extractLsb' 27 5) (w.extractLsb' 23 4) (w.extractLsb' 19 4) (w.extractLsb' 16 3) (w.extractLsb' 10 6) (w.extractLsb' 2 8) (w.extractLsb' 0 2) = w := by
  refine BitVec.eq_of_getLsbD_eq fun i hi => ?_
  rw [wordF_bit]
  simp only [BitVec.getLsbD_append, BitVec.getLsbD_extractLsb']
  grind

/-! ## The functions of each major (R71)

In each case of the code a reserved field that is refused unless it is 0 is 0, and the word of the instruction is the one read. -/

theorem encode_of_decodeSYS {fn : BitVec 7} {rd ra imm : BitVec 6} {tk : BitVec 2} {i : Instr}
    (h : decodeSYS fn rd ra imm tk = some i) : encode i = some (wordS 0#5 fn rd ra imm tk) := by
  unfold decodeSYS at h
  split at h
  case h_18 => cases h
  all_goals
    next hf =>
    rw [eq_ofNat_of_toNat hf]
    simp only [Option.ite_none_right_eq_some, Option.some.injEq] at h
    obtain ⟨⟨rfl, rfl, rfl⟩, rfl⟩ := h
    rfl

theorem encode_of_decodeALUR {rd ra rb : BitVec 6} {fn : BitVec 7} {tk : BitVec 2} {i : Instr}
    (h : decodeALUR rd ra rb fn tk = some i) : encode i = some (wordR 1#5 rd ra rb fn tk) := by
  unfold decodeALUR at h
  split at h
  case h_32 => cases h
  all_goals
    next hf =>
    rw [eq_ofNat_of_toNat hf]
    simp only [Option.ite_none_right_eq_some, Option.some.injEq] at h
    obtain ⟨rfl, rfl⟩ := h
    rfl

theorem encode_of_decodeALUI {rd ra : BitVec 6} {fn : BitVec 3} {imm : BitVec 10} {tk : BitVec 2} {i : Instr}
    (h : decodeALUI rd ra fn imm tk = some i) : encode i = some (wordI 2#5 rd ra fn imm tk) := by
  unfold decodeALUI at h
  split at h
  case h_9 => cases h
  all_goals
    next hf =>
    rw [eq_ofNat_of_toNat hf]
    cases h
    rfl

theorem encode_of_decodeMOVHI {rd : BitVec 6} {imm : BitVec 19} {tk : BitVec 2} {i : Instr}
    (h : decodeMOVHI rd imm tk = some i) : encode i = some (wordU 3#5 rd imm tk) := by
  cases h
  rfl

theorem encode_of_decodeLD {rd ra : BitVec 6} {off : BitVec 11} {sz tk : BitVec 2} {i : Instr}
    (h : decodeLD rd ra off sz tk = some i) : encode i = some (wordM 4#5 rd ra off sz tk) := by
  cases h
  rfl

theorem encode_of_decodeLDS {rd ra : BitVec 6} {off : BitVec 11} {sz tk : BitVec 2} {i : Instr}
    (h : decodeLDS rd ra off sz tk = some i) : encode i = some (wordM 5#5 rd ra off sz tk) := by
  cases h
  rfl

theorem encode_of_decodeST {rd ra : BitVec 6} {off : BitVec 11} {sz tk : BitVec 2} {i : Instr}
    (h : decodeST rd ra off sz tk = some i) : encode i = some (wordM 6#5 rd ra off sz tk) := by
  cases h
  rfl

theorem encode_of_decodeBR {cond : BitVec 4} {ra : BitVec 6} {off : BitVec 15} {tk : BitVec 2} {i : Instr}
    (h : decodeBR cond ra off tk = some i) : encode i = some (wordB 7#5 cond ra off tk) := by
  unfold decodeBR at h
  split at h
  case h_11 => cases h
  all_goals
    next hf =>
    rw [eq_ofNat_of_toNat hf]
    simp only [Option.ite_none_right_eq_some, Option.some.injEq] at h
    obtain ⟨rfl, rfl⟩ := h
    rfl

theorem encode_of_decodeJMP {off : BitVec 25} {tk : BitVec 2} {i : Instr}
    (h : decodeJMP off tk = some i) : encode i = some (wordJ 8#5 off tk) := by
  cases h
  rfl

theorem encode_of_decodeCALL {off : BitVec 25} {tk : BitVec 2} {i : Instr}
    (h : decodeCALL off tk = some i) : encode i = some (wordJ 9#5 off tk) := by
  cases h
  rfl

theorem encode_of_decodeJREG {rd ra : BitVec 6} {fn : BitVec 3} {imm : BitVec 10} {tk : BitVec 2} {i : Instr}
    (h : decodeJREG rd ra fn imm tk = some i) : encode i = some (wordI 10#5 rd ra fn imm tk) := by
  unfold decodeJREG at h
  split at h
  case h_3 => cases h
  all_goals
    next hf =>
    rw [eq_ofNat_of_toNat hf]
    cases h
    rfl

theorem encode_of_decodeQUE {fn : BitVec 7} {rd ra imm : BitVec 6} {tk : BitVec 2} {i : Instr}
    (h : decodeQUE fn rd ra imm tk = some i) : encode i = some (wordS 11#5 fn rd ra imm tk) := by
  unfold decodeQUE at h
  split at h
  case h_12 => cases h
  all_goals
    next hf =>
    rw [eq_ofNat_of_toNat hf]
    simp only [Option.ite_none_right_eq_some, Option.some.injEq] at h
    obtain ⟨⟨rfl, rfl⟩, rfl⟩ := h
    rfl

theorem encode_of_decodeHND {hd ha hb : BitVec 4} {ra : BitVec 6} {fn : BitVec 7} {tk : BitVec 2} {i : Instr}
    (h : decodeHND hd ha hb ra fn tk = some i) : encode i = some (wordH 12#5 hd ha hb ra fn tk) := by
  unfold decodeHND at h
  split at h
  case h_14 => cases h
  all_goals
    next hf =>
    rw [eq_ofNat_of_toNat hf]
    simp only [Option.ite_none_right_eq_some, Option.some.injEq] at h
    obtain ⟨⟨rfl, rfl, rfl⟩, rfl⟩ := h
    rfl

theorem encode_of_decodeENG {eng : BitVec 3} {ha : BitVec 4} {ra rb fn : BitVec 6} {tk : BitVec 2} {i : Instr}
    (h : decodeENG eng ha ra rb fn tk = some i) : encode i = some (wordE 13#5 eng ha ra rb fn tk) := by
  unfold decodeENG at h
  split at h
  case h_17 => cases h
  case h_3 heng hfn =>
    simp only [Option.ite_none_right_eq_some, Option.some.injEq] at h
    obtain ⟨heven, rfl⟩ := h
    rw [encode, ← heven, high_append_low (n := 3) (k := 1), eq_ofNat_of_toNat heng, ← eq_bit_append_code hfn]
  all_goals
    next heng hfn =>
    rw [eq_ofNat_of_toNat heng]
    have hfn := eq_bit_append_code hfn
    generalize fn.extractLsb' 5 1 = l at h hfn
    simp only [Option.ite_none_right_eq_some, Option.some.injEq] at h
    obtain ⟨rfl, rfl⟩ := h
    rw [hfn]
    rfl

theorem encode_of_decodeATM {rd ra rb : BitVec 5} {fn : BitVec 4} {ord : BitVec 3} {scope : BitVec 4} {sz : BitVec 1} {i : Instr}
    (h : decodeATM rd ra rb fn ord scope sz = some i) : encode i = some (wordA 14#5 rd ra rb fn ord scope sz) := by
  unfold decodeATM at h
  split at h
  case h_16 => cases h
  all_goals
    next hf =>
    rw [eq_ofNat_of_toNat hf]
    simp only [Option.ite_none_right_eq_some, Option.some.injEq] at h
    obtain ⟨rfl, rfl⟩ := h
    rfl

theorem encode_of_decodeFEN {fn scope : BitVec 4} {ord : BitVec 3} {ra : BitVec 6} {imm : BitVec 8} {tk : BitVec 2} {i : Instr}
    (h : decodeFEN fn scope ord ra imm tk = some i) : encode i = some (wordF 15#5 fn scope ord ra imm tk) := by
  unfold decodeFEN at h
  split at h
  case h_6 => cases h
  all_goals
    next hf =>
    rw [eq_ofNat_of_toNat hf]
    simp only [Option.ite_none_right_eq_some, Option.some.injEq] at h
    obtain ⟨⟨rfl, rfl, rfl, rfl⟩, rfl⟩ := h
    rfl

theorem encode_of_decodeCKS {hd ha hb : BitVec 4} {ra : BitVec 6} {fn : BitVec 7} {tk : BitVec 2} {i : Instr}
    (h : decodeCKS hd ha hb ra fn tk = some i) : encode i = some (wordH 16#5 hd ha hb ra fn tk) := by
  unfold decodeCKS at h
  split at h
  case h_10 => cases h
  case h_1 hf =>
    rw [eq_ofNat_of_toNat hf]
    split at h
    · next hc =>
      obtain ⟨rfl, rfl⟩ := hc
      cases h
      rfl
    · simp only [Option.ite_none_right_eq_some, Option.some.injEq] at h
      obtain ⟨⟨rfl, rfl⟩, rfl⟩ := h
      rfl
  all_goals
    next hf =>
    rw [eq_ofNat_of_toNat hf]
    simp only [Option.ite_none_right_eq_some, Option.some.injEq] at h
    obtain ⟨⟨rfl, rfl, rfl⟩, rfl⟩ := h
    rfl

theorem encode_of_decodeSCH {fn : BitVec 7} {rd ra imm : BitVec 6} {tk : BitVec 2} {i : Instr}
    (h : decodeSCH fn rd ra imm tk = some i) : encode i = some (wordS 17#5 fn rd ra imm tk) := by
  unfold decodeSCH at h
  split at h
  case h_8 => cases h
  all_goals
    next hf =>
    rw [eq_ofNat_of_toNat hf]
    simp only [Option.ite_none_right_eq_some, Option.some.injEq] at h
    obtain ⟨⟨rfl, rfl, rfl⟩, rfl⟩ := h
    rfl

theorem encode_of_decodePRD {fn : BitVec 7} {rd ra imm : BitVec 6} {tk : BitVec 2} {i : Instr}
    (h : decodePRD fn rd ra imm tk = some i) : encode i = some (wordS 18#5 fn rd ra imm tk) := by
  unfold decodePRD at h
  split at h
  case h_10 => cases h
  all_goals
    next hf =>
    rw [eq_ofNat_of_toNat hf]
    simp only [Option.ite_none_right_eq_some, Option.some.injEq] at h
    obtain ⟨rfl, rfl⟩ := h
    rfl

theorem encode_of_decodeVLP {vd : BitVec 5} {ra : BitVec 6} {imm : BitVec 8} {fn : BitVec 6} {tk : BitVec 2} {i : Instr}
    (h : decodeVLP vd ra imm fn tk = some i) : encode i = some (wordVL 19#5 vd ra imm fn tk) := by
  unfold decodeVLP at h
  split at h
  case h_7 => cases h
  case h_5 hf =>
    simp only [Option.ite_none_right_eq_some, Option.some.injEq] at h
    obtain ⟨⟨hz, rfl⟩, rfl⟩ := h
    rw [eq_ofNat_of_toNat hf, encode, zeros_append (n := 2) (k := 6) hz]
  all_goals
    next hf =>
    rw [eq_ofNat_of_toNat hf]
    simp only [Option.ite_none_right_eq_some, Option.some.injEq] at h
    obtain ⟨⟨rfl, rfl, rfl⟩, rfl⟩ := h
    rfl

theorem encode_of_decodeVLS {vd : BitVec 5} {ra : BitVec 6} {imm : BitVec 8} {fn : BitVec 6} {tk : BitVec 2} {i : Instr}
    (h : decodeVLS vd ra imm fn tk = some i) : encode i = some (wordVL 20#5 vd ra imm fn tk) := by
  unfold decodeVLS at h
  split at h
  case h_8 => cases h
  case h_1 hf | h_2 hf =>
    cases h
    rw [eq_ofNat_of_toNat hf]
    rfl
  case h_4 hf =>
    simp only [Option.ite_none_right_eq_some, Option.some.injEq] at h
    obtain ⟨hz, rfl⟩ := h
    rw [eq_ofNat_of_toNat hf, encode, zeros_append (n := 2) (k := 6) hz]
  all_goals
    next hf =>
    simp only [Option.ite_none_right_eq_some, Option.some.injEq] at h
    obtain ⟨hz, rfl⟩ := h
    rw [eq_ofNat_of_toNat hf, encode, zeros_append (n := 4) (k := 4) hz]

theorem encode_of_decodePRS {eng : BitVec 3} {ha : BitVec 4} {ra rb fn : BitVec 6} {tk : BitVec 2} {i : Instr}
    (h : decodePRS eng ha ra rb fn tk = some i) : encode i = some (wordE 21#5 eng ha ra rb fn tk) := by
  unfold decodePRS at h
  split at h
  case h_8 => cases h
  all_goals
    next hf =>
    rw [eq_ofNat_of_toNat hf]
    simp only [Option.ite_none_right_eq_some, Option.some.injEq] at h
    obtain ⟨⟨rfl, rfl, rfl, rfl⟩, rfl⟩ := h
    rfl

theorem encode_of_decodeRWE {eng : BitVec 3} {ha : BitVec 4} {ra rb fn : BitVec 6} {tk : BitVec 2} {i : Instr}
    (h : decodeRWE eng ha ra rb fn tk = some i) : encode i = some (wordE 22#5 eng ha ra rb fn tk) := by
  unfold decodeRWE at h
  split at h
  case h_7 => cases h
  all_goals
    next hfn =>
    have hfn := eq_bit_append_code hfn
    generalize fn.extractLsb' 5 1 = l at h hfn
    cases h
    rw [hfn]
    rfl

theorem encode_of_decodeVEC0 {vd va vb : BitVec 5} {pg : BitVec 4} {fn : BitVec 6} {tk : BitVec 2} {i : Instr}
    (h : decodeVEC0 vd va vb pg fn tk = some i) : encode i = some (wordV 24#5 vd va vb pg fn tk) := by
  unfold decodeVEC0 at h
  split at h
  case h_23 => cases h
  all_goals
    next hf =>
    rw [eq_ofNat_of_toNat hf]
    simp only [Option.ite_none_right_eq_some, Option.some.injEq] at h
    obtain ⟨rfl, rfl⟩ := h
    rfl

theorem encode_of_decodeVEC1 {vd va vb : BitVec 5} {pg : BitVec 4} {fn : BitVec 6} {tk : BitVec 2} {i : Instr}
    (h : decodeVEC1 vd va vb pg fn tk = some i) : encode i = some (wordV 25#5 vd va vb pg fn tk) := by
  unfold decodeVEC1 at h
  split at h
  case h_11 => cases h
  all_goals
    next hf =>
    rw [eq_ofNat_of_toNat hf]
    simp only [Option.ite_none_right_eq_some, Option.some.injEq] at h
    obtain ⟨rfl, rfl⟩ := h
    rfl

theorem encode_of_decodeVEC2 {vd va vb : BitVec 5} {pg : BitVec 4} {fn : BitVec 6} {tk : BitVec 2} {i : Instr}
    (h : decodeVEC2 vd va vb pg fn tk = some i) : encode i = some (wordV 26#5 vd va vb pg fn tk) := by
  unfold decodeVEC2 at h
  split at h
  case h_14 => cases h
  case h_2 hf =>
    cases h
    rw [eq_ofNat_of_toNat hf, encode, high_append_low (n := 2) (k := 3)]
  all_goals
    next hf =>
    rw [eq_ofNat_of_toNat hf]
    simp only [Option.ite_none_right_eq_some, Option.some.injEq] at h
    obtain ⟨⟨rfl, rfl⟩, rfl⟩ := h
    rfl

theorem encode_of_decodeVEC3 {vd va vb : BitVec 5} {pg : BitVec 4} {fn : BitVec 6} {tk : BitVec 2} {i : Instr}
    (h : decodeVEC3 vd va vb pg fn tk = some i) : encode i = some (wordV 27#5 vd va vb pg fn tk) := by
  unfold decodeVEC3 at h
  split at h
  case h_9 => cases h
  all_goals
    next hf =>
    rw [eq_ofNat_of_toNat hf]
    simp only [Option.ite_none_right_eq_some, Option.some.injEq] at h
    obtain ⟨rfl, rfl⟩ := h
    rfl

/-! ## Words and host forms -/

/-- A device word is the encoding of what it is read as. -/
theorem encode_of_decodeRaw {w : IWord} {i : Instr} (h : decodeRaw w = some i) : encode i = some w := by
  unfold decodeRaw at h
  split at h
  case h_1 hm => rw [encode_of_decodeSYS h, ← eq_ofNat_of_toNat hm, wordS_fields]
  case h_2 hm => rw [encode_of_decodeALUR h, ← eq_ofNat_of_toNat hm, wordR_fields]
  case h_3 hm => rw [encode_of_decodeALUI h, ← eq_ofNat_of_toNat hm, wordI_fields]
  case h_4 hm => rw [encode_of_decodeMOVHI h, ← eq_ofNat_of_toNat hm, wordU_fields]
  case h_5 hm => rw [encode_of_decodeLD h, ← eq_ofNat_of_toNat hm, wordM_fields]
  case h_6 hm => rw [encode_of_decodeLDS h, ← eq_ofNat_of_toNat hm, wordM_fields]
  case h_7 hm => rw [encode_of_decodeST h, ← eq_ofNat_of_toNat hm, wordM_fields]
  case h_8 hm => rw [encode_of_decodeBR h, ← eq_ofNat_of_toNat hm, wordB_fields]
  case h_9 hm => rw [encode_of_decodeJMP h, ← eq_ofNat_of_toNat hm, wordJ_fields]
  case h_10 hm => rw [encode_of_decodeCALL h, ← eq_ofNat_of_toNat hm, wordJ_fields]
  case h_11 hm => rw [encode_of_decodeJREG h, ← eq_ofNat_of_toNat hm, wordI_fields]
  case h_12 hm => rw [encode_of_decodeQUE h, ← eq_ofNat_of_toNat hm, wordS_fields]
  case h_13 hm => rw [encode_of_decodeHND h, ← eq_ofNat_of_toNat hm, wordH_fields]
  case h_14 hm => rw [encode_of_decodeENG h, ← eq_ofNat_of_toNat hm, wordE_fields]
  case h_15 hm => rw [encode_of_decodeATM h, ← eq_ofNat_of_toNat hm, wordA_fields]
  case h_16 hm => rw [encode_of_decodeFEN h, ← eq_ofNat_of_toNat hm, wordF_fields]
  case h_17 hm => rw [encode_of_decodeCKS h, ← eq_ofNat_of_toNat hm, wordH_fields]
  case h_18 hm => rw [encode_of_decodeSCH h, ← eq_ofNat_of_toNat hm, wordS_fields]
  case h_19 hm => rw [encode_of_decodePRD h, ← eq_ofNat_of_toNat hm, wordS_fields]
  case h_20 hm => rw [encode_of_decodeVLP h, ← eq_ofNat_of_toNat hm, wordVL_fields]
  case h_21 hm => rw [encode_of_decodeVLS h, ← eq_ofNat_of_toNat hm, wordVL_fields]
  case h_22 hm => rw [encode_of_decodePRS h, ← eq_ofNat_of_toNat hm, wordE_fields]
  case h_23 hm => rw [encode_of_decodeRWE h, ← eq_ofNat_of_toNat hm, wordE_fields]
  case h_24 hm => rw [encode_of_decodeVEC0 h, ← eq_ofNat_of_toNat hm, wordV_fields]
  case h_25 hm => rw [encode_of_decodeVEC1 h, ← eq_ofNat_of_toNat hm, wordV_fields]
  case h_26 hm => rw [encode_of_decodeVEC2 h, ← eq_ofNat_of_toNat hm, wordV_fields]
  case h_27 hm => rw [encode_of_decodeVEC3 h, ← eq_ofNat_of_toNat hm, wordV_fields]
  case h_28 => cases h

/-- A custom-0 word with a zero field in bits 14 and 13 is put together from its other fields (R85). -/
theorem wordHost_fields {w : IWord} (hop : w.extractLsb' 0 7 = 0x0B#7) (hz : w.extractLsb' 13 2 = 0#2) :
    wordHost (w.extractLsb' 25 7) (w.extractLsb' 20 5) (w.extractLsb' 15 5) (w.extractLsb' 12 1) (w.extractLsb' 7 5) = w := by
  refine BitVec.eq_of_getLsbD_eq fun i hi => ?_
  rw [wordHost_bit, ← hop, ← hz]
  simp only [BitVec.getLsbD_append, BitVec.getLsbD_extractLsb']
  grind

/-- A host form's word is the encoding of the form it is read as. -/
theorem encode_of_decodeHostForm {w : IWord} {f : HostForm} (h : decodeHostForm w = some f) : encode f.toInstr = some w := by
  simp only [decodeHostForm, Option.ite_none_right_eq_some] at h
  obtain ⟨⟨hop, hz⟩, -, h⟩ := h
  rw [← wordHost_fields hop hz]
  generalize w.extractLsb' 25 7 = funct7 at h ⊢
  generalize w.extractLsb' 20 5 = rs2 at h ⊢
  generalize w.extractLsb' 15 5 = rs1 at h ⊢
  split at h
  case h_12 => cases h
  all_goals
    next hf =>
    rw [eq_ofNat_of_toNat hf]
    simp only [Option.ite_none_right_eq_some, Option.some.injEq] at h
    obtain ⟨⟨rfl, rfl⟩, rfl⟩ := h
    rfl

/-- Settles O60: no field of a word that decodes is dropped, major by major and code by code. -/
theorem encodingUndoesDecoding : Obligations.EncodingUndoesDecoding := by
  refine ⟨fun q w i h => ?_, fun w f => encode_of_decodeHostForm⟩
  unfold decode at h
  split at h
  · next hraw =>
    simp only [Option.ite_none_right_eq_some, Option.some.injEq] at h
    obtain ⟨-, rfl⟩ := h
    exact encode_of_decodeRaw hraw
  · cases h

/-- Settles O56: each word of the manual is read, a word that is in no table by each sequencer. -/
theorem wordsOfTheManualDecode : Obligations.WordsOfTheManualDecode := by
  refine ⟨?device, rfl, rfl, ?reserved, rfl, rfl, rfl⟩
  case device => decide
  case reserved =>
    simp only [List.forall_mem_cons, List.not_mem_nil, false_implies, implies_true, and_true]
    intro q
    cases q <;> exact ⟨rfl, rfl, rfl, rfl, rfl⟩

end Sys2Proof
end

section
/-!
PROOFS. Token words (R66, R67, R153): a token queue written, the pushes that a flush makes, what each word does with its queue, and O13 from these.
-/

namespace Sys2Proof.Machine
open Sys2Proof

/-! ## Token queues (R35, R66) -/

/-- A token queue has its number to itself. -/
theorem tokQueue_inj {src dst a b : Seq} (h : tokQueue a b = tokQueue src dst) : (a, b) = (src, dst) := by
  have hlt : ∀ q : Seq, q.idx < 4 := fun q => by cases q <;> decide
  have hinj : ∀ q r : Seq, q.idx = r.idx → q = r := fun q r e => by cases q <;> cases r <;> simp_all [Seq.idx]
  have := hlt b
  have := hlt dst
  simp only [tokQueue] at h
  exact Prod.ext (hinj a src (by omega)) (hinj b dst (by omega))

@[simp] theorem tokensOf_setTokens_same (u : UnitState) (a b : Seq) (ts : List Token) : tokensOf (setTokens u a b ts) a b = ts := by
  simp [tokensOf, setTokens]

theorem tokensOf_setTokens_other (u : UnitState) {src dst a b : Seq} (ts : List Token) (h : (a, b) ≠ (src, dst)) :
    tokensOf (setTokens u src dst ts) a b = tokensOf u a b := by
  simp only [tokensOf, setTokens]
  rw [tabGet_tabPut_other _ _ _ _ fun e => h (tokQueue_inj e)]

@[simp] theorem tokensOf_setSeq (u : UnitState) (q : Seq) (c : SeqState) (a b : Seq) : tokensOf (u.setSeq q c) a b = tokensOf u a b := by
  simp [tokensOf]

@[simp] theorem seq_setTokens (u : UnitState) (a b q : Seq) (ts : List Token) : (setTokens u a b ts).seq q = u.seq q := by
  cases q <;> rfl

@[simp] theorem getUnit_acquireRel (s : State) (a : Agent) (r : Release) (k : Nat) : getUnit (acquireRel s a r) k = getUnit s k := rfl

/-- Pushes that wait at a sequencer of a unit are made: tokens may follow those that it sent to a peer, and other queues, memory and all of the sequencer
but its waiting pushes stay (R66). -/
structure PushesMade (uid : Nat) (q : Seq) (s t : State) : Prop where
  sent : ∀ y, ∃ more, tokensOf (getUnit t uid) q y = tokensOf (getUnit s uid) q y ++ more
  others : ∀ a b, a ≠ q → tokensOf (getUnit t uid) a b = tokensOf (getUnit s uid) a b
  mem : t.mem = s.mem
  seq : ∃ ps, getSeq t uid q = (getSeq s uid q).modFl fun f => { f with pushes := ps }

theorem PushesMade.refl (uid : Nat) (q : Seq) (s : State) : PushesMade uid q s s :=
  ⟨fun _ => ⟨[], by simp⟩, fun _ _ _ => rfl, rfl, (getSeq s uid q).fl.pushes, rfl⟩

theorem PushesMade.trans {uid : Nat} {q : Seq} {s t v : State} (h : PushesMade uid q s t) (g : PushesMade uid q t v) : PushesMade uid q s v where
  sent y := by
    obtain ⟨m, hm⟩ := h.sent y
    obtain ⟨n, hn⟩ := g.sent y
    exact ⟨m ++ n, by rw [hn, hm, List.append_assoc]⟩
  others a b ha := (g.others a b ha).trans (h.others a b ha)
  mem := g.mem.trans h.mem
  seq := by
    obtain ⟨ps, hp⟩ := h.seq
    obtain ⟨qs, hq⟩ := g.seq
    exact ⟨qs, by rw [hq, hp]; rfl⟩

theorem flushPushes_made (uid : Nat) (q : Seq) (n : Nat) (s : State) : PushesMade uid q s (flushPushes n s uid q) := by
  induction n generalizing s with
  | zero => exact .refl uid q s
  | succ n ih =>
    unfold flushPushes
    split
    · exact .refl uid q s
    · next p r _ =>
      split
      · refine PushesMade.trans ⟨fun y => ?_, fun a b ha => ?_, ?_, r, ?_⟩ (ih _)
        · by_cases hy : y = p.peer
          · subst hy; exact ⟨[p.rel], by simp⟩
          · refine ⟨[], ?_⟩
            rw [getUnit_modUnit_same, tokensOf_setTokens_other _ _ (by simp [hy])]
            simp
        · rw [getUnit_modUnit_same, tokensOf_setTokens_other _ _ (by simp [ha])]
          simp
        · rfl
        · simp [getSeq]
      · exact .refl uid q s

section Tokens

variable {s p : State} {n : BitVec 6} {tk : BitVec 2}

/-- A push's token is sent: a release at `core` scope (R67). -/
def sendToken (s : State) (uid : Nat) (q peer : Seq) : State :=
  let a := seqAgent (getUnit s uid) uid q
  bumpRegion (modUnit s uid fun u => setTokens u q peer (tokensOf u q peer ++ [releaseOf s a 1])) a

theorem exec_tkpush_room (h : Issues s (.tkpush n tk) tk p)
    (hr : (tokensOf (getUnit (performAll (bodyState s p) s.cur.uid s.cur.q) s.cur.uid) s.cur.q (seqOf n.toNat)).length < 15) :
    exec (.tkpush n tk) s = .next (endWord s (.tkpush n tk) tk false
      (sendToken (performAll (bodyState s p) s.cur.uid s.cur.q) s.cur.uid s.cur.q (seqOf n.toNat))) := by
  rw [exec_tkpush, execTkpush]
  refine issue_ok h ?_
  rw [M_bind_ok (upd_ok _ _), M_bind_ok (theUnit_ok _ _), M_bind_ok (M_get _)]
  exact congrFun (if_neg (Nat.not_le.2 hr)) _

theorem exec_tkpush_full (h : Issues s (.tkpush n tk) tk p)
    (hr : 15 ≤ (tokensOf (getUnit (performAll (bodyState s p) s.cur.uid s.cur.q) s.cur.uid) s.cur.q (seqOf n.toNat)).length) :
    exec (.tkpush n tk) s = .next (stopWord p (issueCtx s (.tkpush n tk) tk) (.freeze (.queue n.toNat) none)) := by
  rw [exec_tkpush, execTkpush]
  refine issue_stop' h rfl ?_
  rw [M_bind_ok (upd_ok _ _), M_bind_ok (theUnit_ok _ _), M_bind_ok (M_get _)]
  exact congrFun (if_pos hr) _

theorem exec_tkpop_empty (h : Issues s (.tkpop n tk) tk p)
    (he : tokensOf (getUnit (bodyState s p) s.cur.uid) (seqOf (n.toNat - 4)) s.cur.q = []) :
    exec (.tkpop n tk) s = .next (stopWord p (issueCtx s (.tkpop n tk) tk) (.freeze (.queue n.toNat) none)) := by
  rw [exec_tkpop, execTkpop]
  refine issue_stop' h rfl ?_
  rw [M_bind_ok (M_get _)]
  simp only [popToken, takeToken, issueCtx, he]
  rfl

/-- The state of `TKPOP` with the oldest token gone and the pushes made that then find room. -/
def dropToken (s : State) (uid : Nat) (q peer : Seq) (rest : List Token) : State :=
  flushPushes 64 (modUnit s uid fun u => setTokens u peer q rest) uid peer

theorem exec_tkpop_ok {r : Token} {rest : List Token} (h : Issues s (.tkpop n tk) tk p)
    (he : tokensOf (getUnit (bodyState s p) s.cur.uid) (seqOf (n.toNat - 4)) s.cur.q = r :: rest) :
    let t := dropToken (bodyState s p) s.cur.uid s.cur.q (seqOf (n.toNat - 4)) rest
    exec (.tkpop n tk) s = .next (endWord s (.tkpop n tk) tk false (acquireRel t (seqAgent (getUnit t s.cur.uid) s.cur.uid s.cur.q) r)) := by
  intro t
  rw [exec_tkpop, execTkpop]
  refine issue_ok h ?_
  rw [M_bind_ok (M_get _)]
  simp only [popToken, takeToken, issueCtx, he]
  rfl

end Tokens

/-- The queue of a popped token holds the rest and what the peer's waiting pushes add; with none waiting nothing follows (R66). -/
theorem dropToken_tokens (s : State) (uid : Nat) (q peer : Seq) (rest : List Token) :
    let t := dropToken s uid q peer rest
    ∃ more, tokensOf (getUnit t uid) peer q = rest ++ more ∧ t.mem = s.mem ∧
      (∀ a b, a ≠ peer → tokensOf (getUnit t uid) a b = tokensOf (getUnit s uid) a b) ∧
      ((getSeq s uid peer).fl.pushes = [] → more = [] ∧ ∀ y, y ≠ q → tokensOf (getUnit t uid) peer y = tokensOf (getUnit s uid) peer y) := by
  intro t
  obtain ⟨hsent, hothers, hmem, -⟩ := flushPushes_made uid peer 64 (modUnit s uid fun u => setTokens u peer q rest)
  obtain ⟨more, hmore⟩ := hsent q
  rw [getUnit_modUnit_same, tokensOf_setTokens_same] at hmore
  refine ⟨more, hmore, hmem, fun a b ha => ?_, fun hp => ?_⟩
  · refine (hothers a b ha).trans ?_
    rw [getUnit_modUnit_same, tokensOf_setTokens_other _ _ (by simp [ha])]
  · have ht : t = modUnit s uid fun u => setTokens u peer q rest := flushPushes_nil _ _ _ _ (by simpa [getSeq] using hp)
    have hq : tokensOf (getUnit t uid) peer q = rest ++ more := hmore
    rw [ht, getUnit_modUnit_same, tokensOf_setTokens_same] at hq
    refine ⟨by simpa using hq, fun y hy => ?_⟩
    rw [ht, getUnit_modUnit_same, tokensOf_setTokens_other _ _ (by simp [hy])]

/-- Settles O13: a push sends one token, and a pop drops the oldest before the peer's waiting pushes are made. -/
theorem tokenWordsMoveOneToken : Obligations.TokenWordsMoveOneToken := by
  refine ⟨?push, ?pop⟩
  case push =>
    intro n tk s p hn i q u h
    rw [tokenPeer_out hn]
    refine ⟨fun hr => ⟨_, releaseOf u (seqAgent (getUnit u s.cur.uid) s.cur.uid q) 1, exec_tkpush_room h hr, ?_, rfl, rfl, fun a b hab => ?_⟩, exec_tkpush_full h⟩
    · simp only [sendToken, getUnit_bumpRegion, getUnit_modUnit_same, tokensOf_setTokens_same, u, q]
    · simp only [sendToken, getUnit_bumpRegion, getUnit_modUnit_same]
      exact tokensOf_setTokens_other _ _ hab
  case pop =>
    intro n tk s p hn hn' i q u h
    rw [tokenPeer_in hn hn']
    refine ⟨exec_tkpop_empty h, fun r rest hr => ?_⟩
    obtain ⟨more, hmore, hmem, hother, hnone⟩ := dropToken_tokens u s.cur.uid q (seqOf (n.toNat - 4)) rest
    exact ⟨_, more, exec_tkpop_ok h hr, hmore, hmem, hother, hnone⟩

end Sys2Proof.Machine
end

section
/-!
PROOFS. What sequencers do between words (R67, R125, R131, R138, R147, R158, R159, R285, R289, R392): cycles after the last word, forwards, waits that end,
stores performed, handler returns and exits, and O39 from one rule for each outcome.
-/

namespace Sys2Proof.Machine

open Sys2Proof

variable {s : State} {u : Nat} {q : Seq}

/-! ## Cycles after the last word (R125, R131, R158) -/

theorem runsOut_iff (c : SeqState) : runsOut c = true ↔ c.status = .halting ∨ ∃ a, c.status = .returning a := by
  unfold runsOut
  split <;> simp_all

/-- The held results that go on when no handler returns are the same results, and those in flight stay. -/
theorem unholdBank_keeps (c : SeqState) : (unholdBank c).regs = c.regs ∧ (unholdBank c).vc = c.vc ∧
    (unholdBank c).fl.running ++ (unholdBank c).fl.held = c.fl.running ++ c.fl.held ∧ (c.fl.running ≠ [] → (unholdBank c).fl.running = c.fl.running) := by
  unfold unholdBank
  split
  · next h =>
    obtain ⟨-, hr⟩ := Bool.and_eq_true_iff.1 h
    simp [List.isEmpty_iff.1 hr]
  · exact ⟨rfl, rfl, rfl, fun _ => rfl⟩

theorem pushedThen_waits {k : State → State} (h : (getSeq (flushPushes 64 s u q) u q).fl.pushes ≠ []) : pushedThen s u q k = flushPushes 64 s u q := if_neg h

theorem pushedThen_done {k : State → State} (h : (getSeq (flushPushes 64 s u q) u q).fl.pushes = []) :
    pushedThen s u q k = k (flushPushes 64 s u q) := if_pos h

/-- A sequencer's unit lives in the slot that its core issues from. -/
def CoreIssues (s : State) (u : Nat) : Prop :=
  (getUnit s u).alive = true ∧ (getUnit s u).place.resident = true ∧
    (getCore s (getUnit s u).place.core).issuing = some (getUnit s u).place.slot

theorem execResultLand_runs (h : CoreIssues s u) (hr : (getSeq s u q).status = .halting ∨ ∃ a, (getSeq s u q).status = .returning a) :
    execResultLand u q s = .next (pushedThen s u q fun s => tick (modSeq s u q unholdBank) u q) := by
  obtain ⟨ha, hp, hc⟩ := h
  simp [execResultLand, ha, hp, hc, (runsOut_iff _).2 hr]

theorem execResultLand_idle (h : ¬ CoreIssues s u ∨ ¬ ((getSeq s u q).status = .halting ∨ ∃ a, (getSeq s u q).status = .returning a)) :
    execResultLand u q s = .next s := by
  rw [← runsOut_iff] at h
  refine congrArg Host.Outcome.next (if_neg fun hc => ?_)
  simp only [Bool.and_eq_true, beq_iff_eq] at hc
  obtain ⟨⟨⟨ha, hp⟩, hi⟩, hr⟩ := hc
  exact h.elim (fun h => h ⟨ha, hp, hi⟩) fun h => h hr

/-! ## Forwards (R138) -/

/-- A `dqout` with no filled head for a `dqin` forwards nothing there. -/
theorem forwardHead_skips {target : Seq} (h : ∀ x, (getSeq s u q).dq.dqout.head? = some x → x.val = none ∨ x.target ≠ target) :
    forwardHead u target s q = s := by
  unfold forwardHead
  split
  · rfl
  · next x r hx =>
    split
    · rfl
    · next v hv => exact if_pos (.inl ((h x (by simp [hx])).resolve_left (by simp [hv])))

theorem forwardHead_full {target : Seq} (h : 16 ≤ (getSeq s u target).dq.dqin.length) : forwardHead u target s q = s := by
  unfold forwardHead
  split
  · rfl
  · split
    · rfl
    · exact if_pos (.inr h)

/-- The state with the head of a `dqout` moved to a `dqin`. -/
def moveHead (s : State) (u : Nat) (q target : Seq) (r : List DqOut) (v : Word) : State :=
  modSeq (modSeq s u q fun c => { c with dq := { c.dq with dqout := r } }) u target fun c =>
    { c with dq := { c.dq with dqin := c.dq.dqin ++ [{ val := v, acq := none }] } }

theorem forwardHead_moves {e : DqOut} {r : List DqOut} {v : Word} (hq : (getSeq s u q).dq.dqout = e :: r) (hv : e.val = some v)
    (hroom : (getSeq s u e.target).dq.dqin.length < 16) : forwardHead u e.target s q = moveHead s u q e.target r v := by
  simp only [forwardHead, hq, hv]
  exact if_neg (by simpa using hroom)

/-- What a sequencer holds after a head has moved. -/
theorem getSeq_moveHead (s : State) (u : Nat) (q target p : Seq) (r : List DqOut) (v : Word) :
    (getSeq (moveHead s u q target r v) u p).regs = (getSeq s u p).regs ∧
      (getSeq (moveHead s u q target r v) u p).dq.dqout = (if p = q then r else (getSeq s u p).dq.dqout) ∧
      (getSeq (moveHead s u q target r v) u p).dq.dqin = (getSeq s u p).dq.dqin ++ if p = target then [{ val := v, acq := none }] else [] := by
  unfold moveHead
  by_cases ht : p = target
  · subst ht
    by_cases hq : p = q
    · subst hq; simp
    · simp [getSeq_modSeq_other _ _ _ _ _ hq, hq]
  · rw [getSeq_modSeq_other _ _ _ _ _ ht]
    by_cases hq : p = q
    · subst hq; simp [ht]
    · simp [getSeq_modSeq_other _ _ _ _ _ hq, hq, ht]

theorem getUnit_moveHead_other (s : State) (q target : Seq) (r : List DqOut) (v : Word) {w : Nat} (h : w ≠ u) :
    getUnit (moveHead s u q target r v) w = getUnit s w := by
  rw [moveHead, getUnit_modSeq_other _ _ _ _ _ h, getUnit_modSeq_other _ _ _ _ _ h]

theorem foldl_forwardHead_skips {target : Seq} (l : List Seq)
    (h : ∀ p ∈ l, ∀ x, (getSeq s u p).dq.dqout.head? = some x → x.val = none ∨ x.target ≠ target) : l.foldl (forwardHead u target) s = s := by
  induction l with
  | nil => rfl
  | cons p l ih =>
    rw [List.foldl_cons, forwardHead_skips (h p List.mem_cons_self)]
    exact ih fun p hp => h p (List.mem_cons_of_mem _ hp)

/-- One filled head for a `dqin` with room moves there, whatever its place in the order of the sequencers. -/
theorem foldl_forwardHead_moves {e : DqOut} {r : List DqOut} {v : Word} (hq : (getSeq s u q).dq.dqout = e :: r) (hv : e.val = some v)
    (hroom : (getSeq s u e.target).dq.dqin.length < 16)
    (hothers : ∀ p, p ≠ q → ∀ x, (getSeq s u p).dq.dqout.head? = some x → x.val = none ∨ x.target ≠ e.target) :
    allSeqs.foldl (forwardHead u e.target) s = moveHead s u q e.target r v := by
  have hsplit : ∃ a b : List Seq, allSeqs = a ++ q :: b ∧ q ∉ a ∧ q ∉ b := by
    cases q
    · exact ⟨[], [.l, .x, .s], rfl, by decide, by decide⟩
    · exact ⟨[.c], [.x, .s], rfl, by decide, by decide⟩
    · exact ⟨[.c, .l], [.s], rfl, by decide, by decide⟩
    · exact ⟨[.c, .l, .x], [], rfl, by decide, by decide⟩
  obtain ⟨a, b, hab, ha, hb⟩ := hsplit
  rw [hab, List.foldl_append, List.foldl_cons,
    foldl_forwardHead_skips a fun p hp => hothers p fun e => ha (e ▸ hp), forwardHead_moves hq hv hroom]
  refine foldl_forwardHead_skips b fun p hp x hx => ?_
  have hne : p ≠ q := fun e => hb (e ▸ hp)
  rw [(getSeq_moveHead s u q e.target p r v).2.1, if_neg hne] at hx
  exact hothers p hne x hx

theorem execDqoutForward_filled {e : DqOut} {r : List DqOut} {v : Word} (hq : (getSeq s u q).dq.dqout = e :: r) (hv : e.val = some v) :
    execDqoutForward u q s = .next (allSeqs.foldl (forwardHead u e.target) s) := by
  simp [execDqoutForward, hq, hv]

theorem execDqoutForward_stays
    (h : ∀ e, (getSeq s u q).dq.dqout.head? = some e → e.val = none ∨ 16 ≤ (getSeq s u e.target).dq.dqin.length) : execDqoutForward u q s = .next s := by
  have hfull (target : Seq) (hf : 16 ≤ (getSeq s u target).dq.dqin.length) (l : List Seq) : l.foldl (forwardHead u target) s = s := by
    induction l with
    | nil => rfl
    | cons p l ih => rw [List.foldl_cons, forwardHead_full hf, ih]
  cases hq : (getSeq s u q).dq.dqout with
  | nil => simp [execDqoutForward, hq]
  | cons e r =>
    cases hv : e.val with
    | none => simp [execDqoutForward, hq, hv]
    | some v => rw [execDqoutForward_filled hq hv, hfull e.target ((h e (by simp [hq])).resolve_left (by simp [hv]))]

/-! ## Waits that end (R289, R392) -/

/-- The state in which a sequencer that was frozen waits no more, where a condition holds. -/
def thawIf (b : Bool) (s : State) (u : Nat) (q : Seq) : State :=
  if b then modSeq s u q fun c => c.modFl fun f => { f with frozen := none } else s

theorem thawIf_keeps (b : Bool) (s : State) (u : Nat) (q : Seq) :
    (thawIf b s u q).mem = s.mem ∧ (getSeq (thawIf b s u q) u q).fl.frozen = (if b then none else (getSeq s u q).fl.frozen) ∧
      (getSeq (thawIf b s u q) u q).pc = (getSeq s u q).pc := by
  cases b <;> simp [thawIf]

theorem execLoadMissReturn_walk {die : Nat} {va : Word} {k : AccKind} (h : (getSeq s u q).fl.frozen = some (.walk die va k)) :
    execLoadMissReturn u q s = .next (thawIf (translated s u va k) s u q) := by
  simp [execLoadMissReturn, h, thawIf]

theorem execLoadMissReturn_other (h : ∀ die va k, (getSeq s u q).fl.frozen ≠ some (.walk die va k)) : execLoadMissReturn u q s = .next s := by
  unfold execLoadMissReturn
  split
  · next die va k hw => exact absurd hw (h die va k)
  · rfl

theorem execWaitvRecheck_watch {p : Place} (h : (getSeq s u q).fl.frozen = some (.watch p)) :
    execWaitvRecheck u q s = .next (thawIf (waitOver s u q) s u q) := by
  simp [execWaitvRecheck, h, thawIf]

theorem execWaitvRecheck_other (h : ∀ p, (getSeq s u q).fl.frozen ≠ some (.watch p)) : execWaitvRecheck u q s = .next s := by
  unfold execWaitvRecheck
  split
  · next p hw => exact absurd hw (h p)
  · rfl

/-! ## Stores performed (R67, R147, R285) -/

/-- A byte written once among some holds its value after them. -/
theorem memGet_placesPut {bs : List (Place × Byte)} (hs : s.MemOk) (hn : (bs.map Prod.fst).Nodup) {a : Nat} {v : Byte} (hm : (Place.mem a, v) ∈ bs) :
    memGet (placesPut s bs).mem a = v := by
  induction bs generalizing s with
  | nil => cases hm
  | cons b bs ih =>
    obtain ⟨hb, hn⟩ := List.nodup_cons.1 hn
    have hput : (placePut s b.1 b.2).MemOk := (Wrote.placePut (B := fun _ => True) s b.1 b.2 fun _ _ => trivial).memory hs |>.1
    rcases List.mem_cons.1 hm with rfl | hm
    · have hrest : Wrote (fun x => x ≠ a) (placePut s (.mem a) v) (placesPut (placePut s (.mem a) v) bs) :=
        Wrote.placesPut bs _ fun y hy _ hx hxa => hb (List.mem_map.2 ⟨y, hy, hxa ▸ hx⟩)
      exact ((hrest.memory hput).2 a (fun h => h rfl)).trans (memGet_memPut_same _ _ _ hs)
    · exact ih hput hn hm

/-- A store performed leaves every unit as it was. -/
theorem getUnit_performFor (s : State) (u : Nat) (q : Seq) (o : StoreOp) (w : Nat) : getUnit (performFor s u q o) w = getUnit s w := by
  obtain ⟨m, k, d, g, e⟩ := (Wrote.performOp (B := fun _ => True) s (seqAgent (getUnit s u) u q) o fun _ _ _ _ => trivial).shape
  rw [performFor, e]
  rfl

theorem getSeq_performFor (s : State) (u : Nat) (q : Seq) (o : StoreOp) (w : Nat) (r : Seq) : getSeq (performFor s u q o) w r = getSeq s w r := by
  simp only [getSeq, getUnit_performFor]

/-- A store performed leaves the bytes that it does not write. -/
theorem memGet_performFor_other {o : StoreOp} (hs : s.MemOk) {a : Nat} (h : ∀ b ∈ o.bytes, b.1 ≠ .mem a) :
    memGet (performFor s u q o).mem a = memGet s.mem a :=
  ((Wrote.performOp (B := fun x => x ≠ a) s _ o fun y hy _ hx hxa => h y hy (hxa ▸ hx)).memory hs).2 a fun h => h rfl

/-- The release sequences that a plain write ends are no part of memory (R276). -/
@[simp] theorem storeMarksEnd_mem (s : State) (bs : List (Place × Byte)) : (storeMarksEnd s bs).mem = s.mem := by
  unfold storeMarksEnd
  obtain ⟨d, e⟩ := endHeads_order _ s
  rw [e]

/-- A plain store performed writes its bytes. -/
theorem memGet_performFor_plain {o : StoreOp} (hs : s.MemOk) (ho : o.atom = none) (hn : (o.bytes.map Prod.fst).Nodup) {a : Nat} {v : Byte}
    (hm : (Place.mem a, v) ∈ o.bytes) : memGet (performFor s u q o).mem a = v := by
  simp only [performFor, performOp, ho, performBytes]
  exact memGet_placesPut (by rwa [State.MemOk, storeMarksEnd_mem]) hn hm

theorem makePush_made (s : State) (u : Nat) (q : Seq) (p : Option Push) :
    (makePush s u q p).mem = s.mem ∧ ∃ ps, getSeq (makePush s u q p) u q = (getSeq s u q).modFl fun f => { f with pushes := ps } := by
  cases p with
  | none => exact ⟨rfl, (getSeq s u q).fl.pushes, rfl⟩
  | some p =>
    obtain ⟨-, -, hmem, ps, hseq⟩ := flushPushes_made u q 64 (modSeq s u q fun c => c.modFl fun f => { f with pushes := f.pushes ++ [p] })
    exact ⟨hmem, ps, hseq.trans (by rw [getSeq_modSeq_same]; rfl)⟩

theorem performHead_nil (h : (getSeq s u q).fl.stores = []) : performHead s u q = s := by
  simp [performHead, h]

theorem performHead_waits {o : StoreOp} {r : List StoreOp} (h : (getSeq s u q).fl.stores = o :: r) (hd : o.due ≠ 0) : performHead s u q = s := by
  simp [performHead, h, hd]

/-- The oldest store is performed and leaves. -/
theorem performHead_performs {o : StoreOp} {r : List StoreOp} (h : (getSeq s u q).fl.stores = o :: r) (hd : o.due = 0) :
    let t := performHead s u q
    (getSeq t u q).fl.stores = r ∧ (getSeq t u q).regs = (getSeq s u q).regs ∧
      (s.MemOk → ∀ a, (∀ b ∈ o.bytes, b.1 ≠ .mem a) → memGet t.mem a = memGet s.mem a) ∧
      (s.MemOk → o.atom = none → (o.bytes.map Prod.fst).Nodup → ∀ a v, (Place.mem a, v) ∈ o.bytes → memGet t.mem a = v) := by
  let b := modSeq s u q fun c => c.modFl fun f => { f with stores := r }
  intro t
  have ht : t = makePush (performFor b u q o) u q o.push := by simp [t, b, performHead, h, hd]
  obtain ⟨hmem, ps, hseq⟩ := makePush_made (performFor b u q o) u q o.push
  rw [getSeq_performFor, getSeq_modSeq_same] at hseq
  rw [ht, hmem, hseq]
  exact ⟨rfl, rfl, fun hs a ha => memGet_performFor_other (s := b) hs ha, fun hs ho hn a v hm => memGet_performFor_plain (s := b) hs ho hn hm⟩

/-- After every store is performed those that stay have a time to wait for and write nothing more. -/
theorem stores_performAll (s : State) (u : Nat) (q : Seq) : ∀ x ∈ (getSeq (performAll s u q) u q).fl.stores, x.due ≠ 0 ∧ x.bytes = [] := by
  have hpushes (os : List StoreOp) (t : State) :
      (getSeq (os.foldl (fun s o => makePush s u q o.push) t) u q).fl.stores = (getSeq t u q).fl.stores := by
    induction os generalizing t with
    | nil => rfl
    | cons o os ih =>
      obtain ⟨-, ps, hseq⟩ := makePush_made t u q o.push
      rw [List.foldl_cons, ih, hseq]
      rfl
  intro x hx
  rw [performAll, hpushes, getSeq_modSeq_same] at hx
  obtain ⟨o, ho, rfl⟩ := List.mem_map.1 hx
  exact ⟨by simpa using (List.mem_filter.1 ho).2, rfl⟩

/-! ## Handler returns (R131, R159) -/

theorem execRettReturn_stays (h : (∀ a, (getSeq s u q).status ≠ .returning a) ∨ (getSeq s u q).fl.running ≠ []) : execRettReturn u q s = .next s := by
  unfold execRettReturn
  split
  · next target ht =>
    refine congrArg Host.Outcome.next (if_neg fun hc => ?_)
    obtain ⟨-, hr⟩ := Bool.and_eq_true_iff.1 hc
    exact h.elim (fun h => h target ht) fun h => h (List.isEmpty_iff.1 hr)
  · rfl

theorem execRettReturn_landed {target : Word} (hs : (getSeq s u q).status = .returning target) (hr : (getSeq s u q).fl.running = [])
    (ha : (getUnit s u).alive = true) : execRettReturn u q s = .next (pushedThen s u q fun s => modSeq s u q fun c => leaveHandler c target) := by
  simp [execRettReturn, hs, hr, ha]

/-! ## Exits (R158, R186) -/

theorem execSequencerExit_stays
    (h : (getSeq s u q).status ≠ .halting ∨ (dueFault (getSeq s u q) = none ∧ seqDone s u q = false)) : execSequencerExit u q s = .next s := by
  refine congrArg Host.Outcome.next ?_
  rcases h with h | ⟨hf, hd⟩
  · simp [h]
  · simp [hf, hd]

/-- The state with a sequencer's own exit done. -/
def markExit (s : State) (u : Nat) (q : Seq) : State :=
  modUnit s u fun x => { x.setSeq q { x.seq q with status := .exited } with exitLeft := x.exitLeft - 1 }

theorem getUnit_markExit (s : State) (u : Nat) (q : Seq) :
    (getUnit (markExit s u q) u).exitLeft = (getUnit s u).exitLeft - 1 ∧ (getUnit (markExit s u q) u).alive = (getUnit s u).alive := by
  rw [markExit, getUnit_modUnit_same]
  exact ⟨rfl, setSeq_alive _ _ _⟩

theorem status_markExit (s : State) (u : Nat) (q : Seq) : (getSeq (markExit s u q) u q).status = .exited := by
  rw [markExit, getSeq, getUnit_modUnit_same]
  exact congrArg SeqState.status (seq_setSeq_same _ _ _)

theorem execSequencerExit_done (ha : (getUnit s u).alive = true) (hh : (getSeq s u q).status = .halting) (hf : dueFault (getSeq s u q) = none)
    (hd : seqDone s u q = true) : execSequencerExit u q s =
      .next (if (getUnit s u).exitLeft - 1 = 0 then completeUnit (markExit s u q) u else decideBlocked s (markExit s u q) u) := by
  have hx : exitSeq s u q = if (getUnit (markExit s u q) u).exitLeft = 0 then completeUnit (markExit s u q) u else decideBlocked s (markExit s u q) u := rfl
  rw [(getUnit_markExit s u q).1] at hx
  simp [execSequencerExit, ha, hh, hf, hd, hx]

theorem execSequencerExit_faults {f : PendFault} (ha : (getUnit s u).alive = true) (hh : (getSeq s u q).status = .halting)
    (hf : dueFault (getSeq s u q) = some f) : execSequencerExit u q s = .next (boundaryFault (modSeq s u q fun c => { c with status := .running, pc := c.pc - 4 }) u q f) := by
  simp [execSequencerExit, ha, hh, hf]

/-- A pour that stops writes its index into a register and leaves the rest of the sequencer. -/
theorem stopPour_keeps (c : SeqState) : (stopPour c).pc = c.pc ∧ (stopPour c).tr = c.tr ∧ (stopPour c).vc = c.vc ∧ (stopPour c).status = c.status ∧
    (stopPour c).fl.running = c.fl.running := by
  unfold stopPour
  split
  · exact ⟨rfl, rfl, rfl, rfl, rfl⟩
  · unfold SeqState.setReg
    split <;> exact ⟨rfl, rfl, rfl, rfl, rfl⟩

/-- What a handler's entry leaves of a sequencer (R130). -/
theorem enterHandler_keeps (c : SeqState) (cause : Nat) (tval tepc : Word) (tkp : Bool) :
    let d := enterHandler c cause tval tepc tkp
    d.status = c.status ∧ d.pc = c.tr.tvec ∧ d.tr.tepc = tepc ∧ d.tr.tcause = BitVec.ofNat 64 cause ∧ d.tr.tval = tval ∧
      d.fl.held = c.fl.running ∧ d.fl.running = [] := by
  obtain ⟨-, htr, -, hst, hrun⟩ := stopPour_keeps c
  simp [enterHandler, recordTrap, htr, hst, hrun]

/-- A fault that waits and has a handler is taken at the pc. -/
theorem boundaryFault_handled {f : PendFault} (h : trapToHandler (getSeq s u q) f.cause = true) :
    let t := boundaryFault s u q f
    let c := getSeq s u q
    let d := getSeq t u q
    t.mem = s.mem ∧ d.status = c.status ∧ d.pc = c.tr.tvec ∧ d.tr.tepc = c.pc ∧ d.tr.tcause = BitVec.ofNat 64 f.cause ∧ d.tr.tval = f.tval ∧
      d.fl.held = c.fl.running ∧ d.fl.running = [] := by
  intro t c d
  have hm : trapToHandler (c.modFl fun fl => { fl with faults := fl.faults.erase f }) f.cause = true := h
  have ht : t = modSeq (modSeq s u q fun c => c.modFl fun fl => { fl with faults := fl.faults.erase f }) u q fun c =>
      enterHandler c f.cause f.tval c.pc c.fl.tkDone := by
    simp only [t, boundaryFault, takeTrap, getSeq_modSeq_same]
    exact if_pos hm
  have hd : d = enterHandler (c.modFl fun fl => { fl with faults := fl.faults.erase f }) f.cause f.tval c.pc c.fl.tkDone := by
    simp only [d, ht, getSeq_modSeq_same]
    rfl
  refine ⟨by rw [ht]; rfl, ?_⟩
  rw [hd]
  exact enterHandler_keeps _ _ _ _ _

end Sys2Proof.Machine

namespace Sys2Proof.Machine

open Sys2Proof

/-- Settles O39: each event's outcomes, one by one, by the rules above. -/
theorem sequencerEventsHappen : Obligations.SequencerEventsHappen := by
  refine ⟨?land, fun u q s => ?stays, ?forward, ?waits, ?stores, fun u q s h => ?noStore, ?returns, ?exits⟩
  case land =>
    intro u q s p c issues runsOut
    refine ⟨fun h => flushPushes_nil _ _ _ _ h, fun hi hr hp => ?_, fun hi hr hp => ?_, execResultLand_idle⟩
    · rw [exec_resultLand, execResultLand_runs hi hr, pushedThen_waits hp]
    · refine ⟨modSeq p u q unholdBank, ?_, rfl, ?_⟩
      · rw [exec_resultLand, execResultLand_runs hi hr, pushedThen_done hp]
      · rw [getSeq_modSeq_same]
        exact unholdBank_keeps c
  case stays => exact execDqoutForward_stays
  case forward =>
    intro u q s e r v hq hv
    refine ⟨execDqoutForward_filled hq hv, fun hothers hroom => ⟨moveHead s u q e.target r v, ?_, ?_, ?_, rfl, fun p => ?_, fun w => ?_⟩⟩
    · rw [exec_dqoutForward, execDqoutForward_filled hq hv, foldl_forwardHead_moves hq hv hroom hothers]
    · exact (getSeq_moveHead s u q e.target q r v).2.1.trans (if_pos rfl)
    · exact (getSeq_moveHead s u q e.target e.target r v).2.2.trans (by rw [if_pos rfl])
    · exact (getSeq_moveHead s u q e.target p r v).1
    · exact getUnit_moveHead_other s q e.target r v
  case waits =>
    intro u q s die va k p c
    exact ⟨execLoadMissReturn_other, fun h => ⟨_, execLoadMissReturn_walk h, thawIf_keeps _ s u q⟩,
      execWaitvRecheck_other, fun h => ⟨_, execWaitvRecheck_watch h, thawIf_keeps _ s u q⟩⟩
  case stores =>
    intro u q s o r h
    refine ⟨fun hd => congrArg _ (performHead_waits h hd), fun hd => ⟨_, rfl, performHead_performs h hd⟩, fun hf => ?_, fun hf =>
      ⟨_, ?_, stores_performAll s u q⟩⟩
    · simp [execAtomicPerformed, execStorePerformed, hf]
    · simp [execAtomicPerformed, hf]
  case noStore => exact congrArg Host.Outcome.next (performHead_nil h)
  case returns =>
    intro u q s target p c landed
    refine ⟨execRettReturn_stays, fun hl hp => ?_, fun hl hp => ?_⟩ <;> obtain ⟨hs, hr, ha⟩ := hl
    · rw [exec_rettReturn, execRettReturn_landed hs hr ha, pushedThen_waits hp]
    · refine ⟨modSeq p u q fun c => leaveHandler c target, ?_, rfl, ?_⟩
      · rw [exec_rettReturn, execRettReturn_landed hs hr ha, pushedThen_done hp]
      · rw [getSeq_modSeq_same]
        exact ⟨rfl, rfl, rfl, rfl, rfl, rfl, rfl, rfl⟩
  case exits =>
    intro u q s c
    refine ⟨execSequencerExit_stays, fun ha hh hf hd => ⟨fun h1 h0 => ?others, fun h1 => ?last⟩, fun f ha hh hf hk => ?fault⟩
    case others =>
      obtain ⟨hleft, halive⟩ := getUnit_markExit s u q
      refine ⟨markExit s u q, ?_, rfl, status_markExit s u q, hleft, halive.trans ha, fun w hw => getUnit_modUnit_other _ _ _ _ hw⟩
      rw [exec_sequencerExit, execSequencerExit_done ha hh hf hd, if_neg (by omega)]
    case last =>
      obtain ⟨hleft, -⟩ := getUnit_markExit s u q
      refine ⟨markExit s u q, ?_, rfl, status_markExit s u q, hleft.trans (by rw [h1])⟩
      rw [exec_sequencerExit, execSequencerExit_done ha hh hf hd, if_pos (by rw [h1])]
    case fault =>
      refine ⟨_, execSequencerExit_faults ha hh hf, ?_⟩
      obtain ⟨hmem, hrest⟩ := boundaryFault_handled (s := modSeq s u q fun c => { c with status := .running, pc := c.pc - 4 }) (u := u) (q := q) (f := f)
        (by rw [getSeq_modSeq_same]; exact hk)
      rw [getSeq_modSeq_same] at hrest
      exact ⟨hmem, hrest⟩

end Sys2Proof.Machine
end

section
/-!
PROOFS. A step runs the instruction that the bytes at the pc decode to (O55): what the agenda's head gives, the branches of an issue turn, and
what follows a turn.
-/

namespace Sys2Proof.Machine

open Sys2Proof

/-! ## The agenda -/

/-- With a turn on the agenda the step is that turn, in the state without it on the agenda. -/
theorem step_agenda_cons {s : State} {t : Turn} {r : List Turn} (h : s.agenda = t :: r) :
    step s = turnThen s (runTurn { s with agenda := r } t) := by
  simp only [step, nextTurn, h]

theorem step_agenda_nil {s : State} (h : s.agenda = []) : step s = turnThen s (freeTurn s) := by
  simp only [step, nextTurn, h]

theorem runTurn_issue {s : State} (h : s.boot.stage = .running) (uid : Nat) (q : Seq) : runTurn s (.issue uid q) = issueTurn s uid q := by
  simp [runTurn, h]

theorem runTurn_event {s : State} (h : s.boot.stage = .running) {e : Instr} (he : e.fieldsLegal = true) : runTurn s (.event e) = exec e s := by
  simp [runTurn, h, he]

theorem execHostForm_toInstr (f : HostForm) (s : State) : execHostForm f s = exec f.toInstr s := by
  cases f <;> rfl

/-- The word of a host form runs it as the hart. -/
theorem runTurn_hostForm {s : State} (h : s.boot.stage = .running) {hart : Nat} (hh : hart < 128) {w : IWord} {f : HostForm}
    (hf : decodeHostForm w = some f) :
    runTurn s (.hostWord hart w) = exec f.toInstr { s with cur := { s.cur with hart := hart } } := by
  simp [runTurn, h, hh, hostTurn, hf, execHostForm_toInstr]

/-- The free turn of a machine that may move is one of its moves. -/
theorem freeTurn_mem {s : State} (h : moves s ≠ []) : ∃ m ∈ moves s, freeTurn s = runMove { s with free := s.free + 1 } m := by
  have hlt : Config.pick s.free % (moves s).length < (moves s).length := Nat.mod_lt _ (List.length_pos_iff.2 h)
  refine ⟨(moves s)[Config.pick s.free % (moves s).length], List.getElem_mem hlt, ?_⟩
  simp only [freeTurn, List.getElem?_eq_getElem hlt]

/-! ## A sequencer's turn (R62, R81, R151) -/

/-- The statements' value of bytes is the model's. -/
theorem ofBytes_eq_leValue (l : List Byte) : ofBytes l = leValue l := by
  induction l with
  | nil => rfl
  | cons b r ih => simp only [ofBytes, leValue, ih]

section Issue

variable {s : State} {uid : Nat} {q : Seq}

theorem issueTurn_fault {f : PendFault} (hi : canIssue s uid q = true) (hf : dueFault (getSeq s uid q) = some f) :
    issueTurn s uid q = .next (boundaryFault s uid q f) := by
  simp [issueTurn, hi, hf]

theorem issueTurn_stop {k : State → State} (hi : canIssue s uid q = true) (hf : dueFault (getSeq s uid q) = none)
    (hw : fetch s uid q = .stop k) : issueTurn s uid q = afterPushes s uid q fun z => .next (k z) := by
  simp [issueTurn, hi, hf, hw]

section Word

variable {w : IWord} {ps : List Place} (hi : canIssue s uid q = true) (hf : dueFault (getSeq s uid q) = none) (hw : fetch s uid q = .word w ps)
include hi hf hw

theorem issueTurn_decoded {i : Instr} (hd : decode q w = some i) : issueTurn s uid q = fetched s uid q ps (exec i (actAs s uid q)) := by
  simp [issueTurn, hi, hf, hw, hd]

theorem issueTurn_undecoded (hd : decode q w = none) :
    issueTurn s uid q = fetched s uid q ps (afterPushes s uid q fun z => .next (takeTrap z uid q 1 (w.setWidth 64) w false none)) := by
  simp [issueTurn, hi, hf, hw, hd]

end Word

/-- A pc that is misaligned or outside the stream fetches nothing and traps with the pc. -/
theorem fetch_bad_pc (h : (getSeq s uid q).pc.toNat % 4 ≠ 0 ∨ (getSeq s uid q).streamSize ≤ (getSeq s uid q).pc.toNat) :
    fetch s uid q = .stop fun z => takeTrap z uid q 1 (getSeq s uid q).pc 0 false none :=
  if_pos h

section Located

variable {ps : List Place} (ha : (getSeq s uid q).pc.toNat % 4 = 0) (hr : (getSeq s uid q).pc.toNat < (getSeq s uid q).streamSize)
  (hp : locateN s uid ((getSeq s uid q).streamBase + (getSeq s uid q).pc) .fetch 4 = .ok ps)
include ha hr hp

/-- The fetch at a pc in the stream whose bytes have places waits for a period where the sequencer's bandwidth is spent. -/
theorem fetch_over_budget {k n : Nat} (hb : seqBudget s uid q ps = some (k, n)) :
    fetch s uid q = .stop fun z => setFrozen z uid q (.budget k n) := by
  have hpc : ¬ ((getSeq s uid q).pc.toNat % 4 ≠ 0 ∨ (getSeq s uid q).streamSize ≤ (getSeq s uid q).pc.toNat) := by omega
  simp only [fetch, if_neg hpc, hp, hb]

/-- Otherwise the word comes, the value of its four bytes. -/
theorem fetch_word (hb : seqBudget s uid q ps = none) :
    fetch s uid q = .word (BitVec.ofNat 32 (ofBytes (ps.map (placeGet s)))) ps := by
  have hpc : ¬ ((getSeq s uid q).pc.toNat % 4 ≠ 0 ∨ (getSeq s uid q).streamSize ≤ (getSeq s uid q).pc.toNat) := by omega
  simp only [fetch, if_neg hpc, hp, hb, ofBytes_eq_leValue, placesValue]

end Located

theorem fetched_unfrozen {ps : List Place} (h : (getSeq s uid q).fl.frozen = none) (z : State) :
    fetched s uid q ps (.next z) = .next (meterPlaces z (seqAgent (getUnit s uid) uid q) ps) := by
  simp only [fetched, h]

theorem afterPushes_no_pushes (h : (getSeq s uid q).fl.pushes = []) (k : State → Host.Outcome State Fault Refusal) :
    afterPushes s uid q k = k s := by
  simp [afterPushes, h]

end Issue

/-! ## What follows a turn -/

theorem sameCycle_no_stop {s t : State} (h : stoppedLaunches s t = []) : sameCycle s t = t := by
  rw [sameCycle, h, List.foldl_nil]

theorem evaluateNodes_nil (n : Nat) (s : State) : evaluateNodes n [] s = s := by
  cases n <;> rfl

theorem decideReady_no_new {s t : State} (h : (readyKeys t).filter (fun k => topReady t k && !((readyKeys s).contains k)) = []) :
    decideReady s t = t := by
  rw [decideReady, h, List.foldl_nil]

/-- Where no launch stopped, and the evaluation of the nodes that are due leaves no launch to decide and no core without its launch, only the
leases and the group's version follow it. -/
theorem afterTurn_quiet {s u v : State} (hs : stoppedLaunches s u = []) (hv : evaluateNodes (waitingNodes u).length (dueNodes s u) u = v)
    (hr : (readyKeys v).filter (fun k => topReady v k && !((readyKeys s).contains k)) = []) (hi : idleCores v = []) :
    afterTurn s u = settleVersion ((unitClusters v).foldl settleLease v) := by
  simp only [afterTurn, sameCycle_no_stop hs, hv, decideReady_no_new hr, hi, List.isEmpty_nil, if_true]

/-- Settles O55: by the kind of the agenda's head, and for an issue turn by its fault, its pc, its bandwidth and its word. -/
theorem stepRunsTheDecodedInstruction : Obligations.StepRunsTheDecodedInstruction := by
  intro s r hup t
  have ht : t.boot.stage = .running := hup
  refine ⟨?issue, ?charge, ?pushes, ?hart, ?event, ?rest, ?move, ?after, ?quiet, ?node⟩
  case issue =>
    intro uid q hag hi
    have hstep : step s = turnThen s (issueTurn t uid q) := by rw [step_agenda_cons hag, runTurn_issue ht]
    rw [hstep]
    refine ⟨?fault, ?badPc, ?located⟩
    case fault => exact fun f hf => by rw [issueTurn_fault hi hf]
    case badPc => exact fun hf hpc => by rw [issueTurn_stop hi hf (fetch_bad_pc hpc)]
    case located =>
      intro hf ps c ha hr hp w
      cases hb : seqBudget t uid q ps with
      | some kn =>
        exact congrArg (turnThen s) (issueTurn_stop hi hf (fetch_over_budget ha hr hp hb))
      | none =>
        have hword := fetch_word ha hr hp hb
        exact ⟨fun i hd => congrArg (turnThen s) (issueTurn_decoded hi hf hword hd), fun hd => congrArg (turnThen s) (issueTurn_undecoded hi hf hword hd)⟩
  case charge => exact fun uid q ps z h => fetched_unfrozen h z
  case pushes => exact fun uid q k h => afterPushes_no_pushes h k
  case hart => exact fun hart w f hag hh hf => by rw [step_agenda_cons hag, runTurn_hostForm ht hh hf]
  case event => exact fun e hag he => by rw [step_agenda_cons hag, runTurn_event ht he]
  case rest => exact fun hag hm => by rw [step_agenda_nil hag, freeTurn_of_no_moves hm]
  case move =>
    intro hag hm
    obtain ⟨m, hmem, hfree⟩ := freeTurn_mem hm
    exact ⟨m, hmem, by rw [step_agenda_nil hag, hfree]⟩
  case after => exact fun u => rfl
  case quiet => exact fun u hs hd hr hi => afterTurn_quiet hs (by rw [hd, evaluateNodes_nil]) hr hi
  case node =>
    intro u k hs hw hd v hr hi
    have hv : evaluateNodes (waitingNodes u).length (dueNodes s u) u = v := by rw [hw, hd]; rfl
    exact afterTurn_quiet hs hv hr hi

end Sys2Proof.Machine
end

section
/-!
PROOFS. The host forms (R86, R323, R325, R326, R329 to R337, R355): the course of a form by what its body comes to, the continuation that it acts on,
one rule for each outcome of each form, and O36 from them.
-/

namespace Sys2Proof.Machine

open Sys2Proof

/-! ## The course of a form (R86, R323, R325) -/

/-- The forms of a port with their words. -/
noncomputable def portForms (r a d : BitVec 5) (p : BitVec 1) : List (Instr × IWord) :=
  [(.cbind a p d, wordHost 0 0 a p d), (.cstart r a p d, wordHost 1 r a p d), (.cjoin a p d, wordHost 2 0 a p d), (.cquery a p d, wordHost 3 0 a p d),
    (.cfence p d, wordHost 4 0 0 p d), (.cpark p d, wordHost 5 0 0 p d), (.ccancel r a p d, wordHost 6 r a p d), (.cfree p d, wordHost 7 0 0 p d),
    (.csignal r a p d, wordHost 8 r a p d), (.cvers a p d, wordHost 9 0 a p d), (.cfault r a p d, wordHost 10 r a p d)]

/-- Every form is the course of a form with its own body. -/
theorem exec_portForm {r a d : BitVec 5} {p : BitVec 1} (s : State) : ∀ f ∈ portForms r a d p, ∃ body, exec f.1 s = hostForm f.2 p d body s := by
  simp only [portForms, List.forall_mem_cons, List.not_mem_nil, false_implies, implies_true, and_true]
  exact ⟨⟨_, exec_cbind ..⟩, ⟨_, exec_cstart ..⟩, ⟨_, exec_cjoin ..⟩, ⟨_, exec_cquery ..⟩, ⟨_, exec_cfence ..⟩, ⟨_, exec_cpark ..⟩,
    ⟨_, exec_ccancel ..⟩, ⟨_, exec_cfree ..⟩, ⟨_, exec_csignal ..⟩, ⟨_, exec_cvers ..⟩, ⟨_, exec_cfault ..⟩⟩

section Course

variable {s t : State} {i : Instr} {word : IWord} {p : BitVec 1} {d : BitVec 5} {body : Nat → State → FormEnd} {v : Word}

theorem hartFree_iff : HartFree s ↔ ((getHart s s.cur.hart).waiting.isSome || hartQueued s s.cur.hart) = false := by
  simp [HartFree, State.actingHart]

theorem hostForm_busy (h : ¬ HartFree s) : hostForm word p d body s = .next s := by
  rw [hartFree_iff, Bool.not_eq_false] at h
  exact if_pos h

theorem hostForm_illegal (h : HartFree s) (hp : p = 0) (hd : d ≠ 0) :
    hostForm word p d body s = .next (hartException s s.cur.hart 2 (word.setWidth 64)) := by
  have hbad : p = 0 ∧ d ≠ 0 := ⟨hp, hd⟩
  simp only [hostForm, hartFree_iff.1 h, Bool.false_eq_true, if_false, if_pos hbad]

theorem hostForm_unbound (h : HartFree s) (hp : p = 0 → d = 0) (hb : portBound s.actingHart = false) :
    hostForm word p d body s = .next (hartException s s.cur.hart 24 (word.setWidth 64)) := by
  have hlegal : ¬ (p = 0 ∧ d ≠ 0) := fun ⟨h0, hd⟩ => hd (hp h0)
  rw [State.actingHart] at hb
  simp only [hostForm, hartFree_iff.1 h, if_neg hlegal, hb, Bool.false_eq_true, if_false, Bool.not_false, if_true]

/-- A form that runs passes the guards of its course. -/
theorem formRuns_guards (h : FormRuns s p d) :
    ((getHart s s.cur.hart).waiting.isSome || hartQueued s s.cur.hart) = false ∧ ¬ (p = 0 ∧ d ≠ 0) ∧ portBound (getHart s s.cur.hart) = true := by
  obtain ⟨hfree, hp, hport⟩ := h
  exact ⟨hartFree_iff.1 hfree, fun ⟨h0, hd⟩ => hd (hp h0), hport⟩

section Runs

variable (h : FormRuns s p d) (hi : exec i s = hostForm word p d body s)
include h hi

theorem answers_of_done (hb : body s.cur.hart s = .done t v) : Answers s i p d t v := by
  obtain ⟨hfree, hlegal, hport⟩ := formRuns_guards h
  simp only [Answers, hi, hostForm, hfree, if_neg hlegal, hport, hb, endForm_eq, beq_iff_eq, Bool.false_eq_true, if_false, Bool.not_true]

theorem standsIn_of_wait {w : HostWait} (hb : body s.cur.hart s = .wait t w) : StandsIn s i p d t w := by
  obtain ⟨hfree, hlegal, hport⟩ := formRuns_guards h
  simp only [StandsIn, hi, hostForm, hfree, if_neg hlegal, hport, hb, Bool.false_eq_true, if_false, Bool.not_true]

theorem exec_of_trapped (hb : body s.cur.hart s = .trapped t) : exec i s = .next t := by
  obtain ⟨hfree, hlegal, hport⟩ := formRuns_guards h
  simp only [hi, hostForm, hfree, if_neg hlegal, hport, hb, Bool.false_eq_true, if_false, Bool.not_true]

end Runs

end Course

/-! ## The continuation that a form acts on (R326, R355) -/

section Forms

variable {s t u : State} {p : BitVec 1} {r a d : BitVec 5} {c : Nat}

theorem portCont_of_portHas (h : PortHas s c) : portCont s s.cur.hart = some c := by
  obtain ⟨hne, rfl, hlive⟩ := h
  rw [State.actingHart] at hne hlive
  simp only [portCont, State.actingHart, if_neg hne, if_pos hlive]

theorem portHas_of_portCont (h : portCont s s.cur.hart = some c) : PortHas s c := by
  simp only [portCont] at h
  split at h
  · cases h
  · next hne =>
    split at h
    · next hlive => cases h; exact ⟨hne, rfl, hlive⟩
    · cases h

theorem formCont_always (h : PortHas s c) : formCont s s.cur.hart true = .ok c := by
  simp [formCont, portCont_of_portHas h]

theorem formCont_sound (h : PortHas s c) (hc : Sound s c) : formCont s s.cur.hart false = .ok c := by
  obtain ⟨hterm, hfail⟩ := hc
  simp [formCont, portCont_of_portHas h, hterm, hfail]

/-- A port whose continuation the device has not terminated refuses nothing of itself. -/
theorem endedRst_living (h : Living s) (n : Nat) : endedRst s s.cur.hart n = n := by
  unfold endedRst
  cases hc : portCont s s.cur.hart with
  | none => rfl
  | some c => simp [h c (portHas_of_portCont hc)]

theorem endedRst_terminated {st : Nat} (h : PortHas s c) (ht : (getCont s c).terminated = some st) (n : Nat) :
    endedRst s s.cur.hart n = if st = 7 then 7 else 1 := by
  simp [endedRst, portCont_of_portHas h, ht]

/-! ## CBIND (R329) -/

theorem cbind_bound (h : FormRuns s p d) (hb : s.actingHart.port.cont ≠ 0xFFFFFFFF) :
    Answers s (.cbind a p d) p d s (replyWord (endedRst s s.cur.hart 2) 0 0 0) := by
  refine answers_of_done h (exec_cbind ..) ?_
  rw [State.actingHart] at hb
  simp only [if_pos hb, refuse]

/-- What the binding of a continuation leaves: its record, its bytes on its die, and its partition with its root. -/
def boundIn (s : State) (v : Word) : State :=
  let t := { s with free := s.free + 1 }
  let c := freshCont s
  rootBound (setUsed (modCont t c fun _ => boundState t s.cur.hart c v) (homeDie c) (usedOn t (homeDie c) + 256)) c

/-- The device has no room for one more continuation: by their number, or by the bytes of a die (R329). -/
def NoRoom (s : State) : Prop :=
  100000 ≤ (s.conts.filter fun x => x.2.live).length ∨
    backingPart { s with free := s.free + 1 } < usedOn { s with free := s.free + 1 } (homeDie (freshCont s)) + 256

section Unbound

variable (h : FormRuns s p d) (hb : s.actingHart.port.cont = 0xFFFFFFFF)
include h hb

theorem cbind_flags (hv : 256 ≤ (s.actingHart.reg a).toNat) : Answers s (.cbind a p d) p d s (replyWord 4 0 0 0) := by
  refine answers_of_done h (exec_cbind ..) ?_
  have hflags : (s.actingHart.reg a).toNat / 256 ≠ 0 := by omega
  rw [State.actingHart] at hb hflags
  simp only [hb, ne_eq, not_true_eq_false, if_false, hflags, not_false_eq_true, if_true, refuse]

variable (hv : (s.actingHart.reg a).toNat < 256)
include hv

theorem cbind_full (hn : NoRoom s) : Answers s (.cbind a p d) p d { s with free := s.free + 1 } (replyWord 9 0 0 0) := by
  refine answers_of_done h (exec_cbind ..) ?_
  have hflags : (s.actingHart.reg a).toNat / 256 = 0 := Nat.div_eq_of_lt hv
  rw [State.actingHart] at hb hflags
  simp only [hb, ne_eq, not_true_eq_false, if_false, hflags, refuse]
  exact if_pos hn

theorem cbind_done (hn : ¬ NoRoom s) (hf : partitionFailed (boundIn s (s.actingHart.reg a)) (freshCont s) = false) :
    let k := boundState { s with free := s.free + 1 } s.cur.hart (freshCont s) (s.actingHart.reg a)
    Answers s (.cbind a p d) p d
      (modHart (boundIn s (s.actingHart.reg a)) s.cur.hart fun x => { x with port := { x.port with
        cont := BitVec.ofNat 32 (freshCont s), gen := k.gen, vers := 0x10000, flags := (s.actingHart.reg a).setWidth 32
        hart := BitVec.ofNat 32 s.cur.hart, lastjob := 0 } })
      (replyWord 0 0 (k.gen.toNat % 65536) (freshCont s)) := by
  intro k
  refine answers_of_done h (exec_cbind ..) ?_
  have hflags : (s.actingHart.reg a).toNat / 256 = 0 := Nat.div_eq_of_lt hv
  rw [State.actingHart] at hb hflags
  simp only [hb, ne_eq, not_true_eq_false, if_false, hflags]
  refine (if_neg hn).trans ((if_neg ?_).trans rfl)
  exact Bool.eq_false_iff.1 hf

end Unbound

/-- The root of a partition is a matter of the boot state alone. -/
theorem rootBound_boot (s : State) (c : Nat) : ∃ b, rootBound s c = { s with boot := b } := by
  unfold rootBound
  split
  · unfold modPart
    split
    · exact ⟨_, rfl⟩
    · exact ⟨s.boot, rfl⟩
  · exact ⟨s.boot, rfl⟩

@[simp] theorem rootBound_mem (s : State) (c : Nat) : (rootBound s c).mem = s.mem := by
  obtain ⟨b, hb⟩ := rootBound_boot s c
  rw [hb]

@[simp] theorem getCont_rootBound (s : State) (c k : Nat) : getCont (rootBound s c) k = getCont s k := by
  obtain ⟨b, hb⟩ := rootBound_boot s c
  rw [hb]; rfl

@[simp] theorem getCont_setUsed (s : State) (die n k : Nat) : getCont (setUsed s die n) k = getCont s k := rfl

@[simp] theorem setUsed_mem (s : State) (die n : Nat) : (setUsed s die n).mem = s.mem := rfl

theorem boundIn_mem (s : State) (v : Word) : (boundIn s v).mem = s.mem := by
  simp [boundIn]

theorem getCont_boundIn (s : State) (v : Word) :
    getCont (boundIn s v) (freshCont s) = boundState { s with free := s.free + 1 } s.cur.hart (freshCont s) v := by
  simp [boundIn]

/-! ## CSTART (R330) -/

section Start

variable (h : FormRuns s p d) (hp : PortHas s c) (hc : Sound s c)
include h hp hc

theorem cstart_misaligned (hv : (s.actingHart.reg a).toNat % 64 ≠ 0) : Answers s (.cstart r a p d) p d s (replyWord 4 0 0 0) := by
  refine answers_of_done h (exec_cstart ..) ?_
  rw [State.actingHart] at hv
  simp only [formCont_sound hp hc, if_pos hv, refuse]

variable (hv : (s.actingHart.reg a).toNat % 64 = 0)
include hv

theorem cstart_unread {x : State} (hr : portRead s s.cur.hart (wordHost 1 r a p d) (s.actingHart.reg a) 64 = .error x) :
    exec (.cstart r a p d) s = .next x := by
  refine exec_of_trapped h (exec_cstart ..) ?_
  rw [State.actingHart] at hv hr
  simp only [formCont_sound hp hc, hv, ne_eq, not_true_eq_false, if_false, hr]

variable {n : Nat} {desc ps : List Byte} {sizes : Tab Word Nat}
  (hr : portRead s s.cur.hart (wordHost 1 r a p d) (s.actingHart.reg a) 64 = .ok desc)
  (hl : portPatches s s.cur.hart (wordHost 1 r a p d) (s.actingHart.reg r) = .ok (n, ps)) (hn : n ≤ 65536)
  (hz : portSizes s s.cur.hart (wordHost 1 r a p d) (patchedImages s c (readDesc desc) (readPatches ps n).1) = .ok sizes)
  (hu : u = portCharge s s.cur.hart (startParts (s.actingHart.reg a) (s.actingHart.reg r) n ++
    (patchedImages s c (readDesc desc) (readPatches ps n).1).map fun x => (x + 0x30, 4)))
include hr hl hn hz hu

theorem cstart_refused {e : Nat} (ht : tryStart u c desc ps n sizes (some s.cur.hart) (releaseOf u (agentOf u s.cur.hart) 7) = .error e) :
    Answers s (.cstart r a p d) p d u (replyWord e 0 0 0) := by
  refine answers_of_done h (exec_cstart ..) ?_
  rw [State.actingHart] at hv hr hl hu
  simp only [formCont_sound hp hc, hv, ne_eq, not_true_eq_false, if_false, hr, hl, if_neg (Nat.not_lt.2 hn), hz, ← hu, ht, refuse]

theorem cstart_started {id : Nat} (ht : tryStart u c desc ps n sizes (some s.cur.hart) (releaseOf u (agentOf u s.cur.hart) 7) = .ok (id, t)) :
    Answers s (.cstart r a p d) p d (startedJob t s.cur.hart c id (openJobs (getCont u c)).isEmpty) (replyWord 0 1 0 id) := by
  refine answers_of_done h (exec_cstart ..) ?_
  rw [State.actingHart] at hv hr hl hu
  simp only [formCont_sound hp hc, hv, ne_eq, not_true_eq_false, if_false, hr, hl, if_neg (Nat.not_lt.2 hn), hz, ← hu, ht]

end Start

/-! ## CJOIN, CQUERY and CFENCE (R331) -/

section Jobs

variable (h : FormRuns s p d) (hp : PortHas s c)
include h hp

theorem cjoin_unknown (hj : findJob s c (namedJob s s.cur.hart (s.actingHart.reg a)) = none) :
    Answers s (.cjoin a p d) p d s (replyWord 3 0 0 0) := by
  refine answers_of_done h (exec_cjoin ..) ?_
  rw [State.actingHart] at hj
  simp only [formCont_always hp, waitFor, waitEnd, hj]

theorem cquery_unknown (hj : findJob s c (namedJob s s.cur.hart (s.actingHart.reg a)) = none) :
    Answers s (.cquery a p d) p d s (replyWord 3 0 0 0) := by
  refine answers_of_done h (exec_cquery ..) ?_
  rw [State.actingHart] at hj
  simp only [formCont_always hp, hj, refuse]

variable {j : Job} (hj : findJob s c (namedJob s s.cur.hart (s.actingHart.reg a)) = some j)
include hj

theorem cjoin_open (ho : statusFinal j.status = false) : StandsIn s (.cjoin a p d) p d s (.join c (namedJob s s.cur.hart (s.actingHart.reg a))) := by
  refine standsIn_of_wait h (exec_cjoin ..) ?_
  rw [State.actingHart] at hj ⊢
  simp only [formCont_always hp, waitFor, waitEnd, hj, ho, Bool.false_eq_true, if_false]

theorem cjoin_final (hf : statusFinal j.status = true) :
    Answers s (.cjoin a p d) p d (acquireJob s s.cur.hart j)
      (replyWord 0 j.status (getCont s c).faultQ.length (namedJob s s.cur.hart (s.actingHart.reg a))) := by
  refine answers_of_done h (exec_cjoin ..) ?_
  rw [State.actingHart] at hj ⊢
  simp only [formCont_always hp, waitFor, waitEnd, hj, hf, if_true]

theorem cquery_known : Answers s (.cquery a p d) p d (acquireJob s s.cur.hart j)
    (replyWord 0 j.status (j.nphase - (j.past.filter fun q => q.status == 0).length) j.id) := by
  refine answers_of_done h (exec_cquery ..) ?_
  rw [State.actingHart] at hj
  simp only [formCont_always hp, hj]

end Jobs

/-- An acquire of what a job released changes the order of memory alone. -/
@[simp] theorem acquireJob_mem (s : State) (hart : Nat) (j : Job) : (acquireJob s hart j).mem = s.mem := by
  have hfold (l : List Release) : ∀ s : State, (l.foldl (fun s r => acquireHist s (agentOf s hart) r.hist) s).mem = s.mem := by
    induction l with
    | nil => exact fun s => rfl
    | cons r l ih => exact fun s => ih _
  unfold acquireJob
  split
  · exact hfold j.endRel s
  · rfl

theorem acquireJobs_mem (hart : Nat) (js : List Job) : ∀ s : State, (js.foldl (fun s j => acquireJob s hart j) s).mem = s.mem := by
  induction js with
  | nil => exact fun s => rfl
  | cons j js ih => exact fun s => (ih _).trans (acquireJob_mem s hart j)

/-- The jobs that `CSTART` started on a continuation. -/
def startedIds (s : State) (c : Nat) : List Nat := ((getCont s c).jobs.filter fun j => j.hart.isSome).map (·.id)

section Fence

variable (h : FormRuns s p d) (hp : PortHas s c) (hc : Sound s c)
include h hp hc

theorem cfence_open (ho : ∃ j ∈ openJobs (getCont s c), j.id ∈ startedIds s c) : StandsIn s (.cfence p d) p d s (.fence c (startedIds s c)) := by
  refine standsIn_of_wait h (exec_cfence ..) ?_
  have hany : ((openJobs (getCont s c)).any fun j => (startedIds s c).contains j.id) = true := by simpa using ho
  rw [startedIds] at hany ⊢
  simp only [formCont_sound hp hc, waitFor, waitEnd, hany, if_true]

theorem cfence_final (ho : ∀ j ∈ openJobs (getCont s c), j.id ∉ startedIds s c) :
    Answers s (.cfence p d) p d
      (((getCont s c).jobs.filter fun j => (startedIds s c).contains j.id).foldl (fun t j => acquireJob t s.cur.hart j) s)
      (replyWord 0 (if (failedJobs (getCont s c) (startedIds s c)).length = 0 then 0 else 3) (failedJobs (getCont s c) (startedIds s c)).length 0) := by
  refine answers_of_done h (exec_cfence ..) ?_
  have hany : ((openJobs (getCont s c)).any fun j => (startedIds s c).contains j.id) = false := by simpa using ho
  rw [startedIds] at hany ⊢
  simp only [formCont_sound hp hc, waitFor, waitEnd, hany, Bool.false_eq_true, if_false]

/-! ## CPARK and CCANCEL (R332, R333) -/

theorem cpark_marks : Answers s (.cpark p d) p d
    (modCont s c fun k => { k with parkAsked := ((residentUnits s c).map fun u => (getUnit s u).ident.key).eraseDups })
    (replyWord 0 0 (residentUnits s c).length 0) := by
  refine answers_of_done h (exec_cpark ..) ?_
  simp only [formCont_sound hp hc]

theorem ccancel_reserved {v : Nat} (hv : v = (s.actingHart.reg r).toNat) (hbad : 256 ≤ v ∧ (v % 256 ≠ 0 ∨ 2 ^ 24 ≤ v)) :
    Answers s (.ccancel r a p d) p d s (replyWord 4 0 0 0) := by
  subst hv
  refine answers_of_done h (exec_ccancel ..) ?_
  rw [State.actingHart] at hbad
  simp only [formCont_sound hp hc, refuse]
  exact if_pos (by omega)

section Named

variable {v : Nat} (hv : v = (s.actingHart.reg r).toNat) (hok : ¬ (256 ≤ v ∧ (v % 256 ≠ 0 ∨ 2 ^ 24 ≤ v)))
include hv hok

theorem ccancel_unknown (hf : instanceAt s c (v % 256) (s.actingHart.reg a).toNat (v / 256) none = none) :
    Answers s (.ccancel r a p d) p d s (replyWord 3 0 0 0) := by
  subst hv
  refine answers_of_done h (exec_ccancel ..) ?_
  rw [State.actingHart] at hf hok
  simp only [formCont_sound hp hc, refuse, hf]
  exact if_neg (by omega)

theorem ccancel_cancels {x : Instance} (hf : instanceAt s c (v % 256) (s.actingHart.reg a).toNat (v / 256) none = some x) :
    Answers s (.ccancel r a p d) p d (cancelInstance s c (v % 256) (s.actingHart.reg a).toNat (v / 256))
      (replyWord 0 (cancelledStatus (v % 256) x) 0 (s.actingHart.reg a).toNat) := by
  subst hv
  refine answers_of_done h (exec_ccancel ..) ?_
  rw [State.actingHart] at hf hok ⊢
  simp only [formCont_sound hp hc, hf]
  exact if_neg (by omega)

end Named

end Fence

/-! ## CFREE (R334) -/

theorem cfree_quiet (h : FormRuns s p d) (hp : PortHas s c) (hq : quiet (cancelAll s c 11) c = true) :
    Answers s (.cfree p d) p d (freeCont (cancelAll s c 11) s.cur.hart c) (replyWord 0 0 0 c) := by
  refine answers_of_done h (exec_cfree ..) ?_
  simp only [formCont_always hp, waitFor, waitEnd, hq, if_true]

theorem cfree_busy (h : FormRuns s p d) (hp : PortHas s c) (hq : quiet (cancelAll s c 11) c = false) :
    StandsIn s (.cfree p d) p d (cancelAll s c 11) (.free c) := by
  refine standsIn_of_wait h (exec_cfree ..) ?_
  simp only [formCont_always hp, waitFor, waitEnd, hq, Bool.false_eq_true, if_false]

/-! ## CSIGNAL (R335) -/

section Signal

variable (h : FormRuns s p d) (hp : PortHas s c) (hc : Sound s c)
include h hp hc

theorem csignal_misaligned (hv : (s.actingHart.reg a).toNat % 8 ≠ 0) :
    exec (.csignal r a p d) s = .next (hartException s s.cur.hart 6 (s.actingHart.reg a)) := by
  refine exec_of_trapped h (exec_csignal ..) ?_
  rw [State.actingHart] at hv ⊢
  simp only [formCont_sound hp hc, if_pos hv]

variable {ps : List Nat} (hv : (s.actingHart.reg a).toNat % 8 = 0) (hr : hartReach s s.cur.hart (s.actingHart.reg a) true 8 = .ok ps)
include hv hr

theorem csignal_waits {q : State} (hw : physWaits s (.form s.cur.hart (wordHost 8 r a p d)) ps = some q) :
    exec (.csignal r a p d) s = .next q := by
  refine exec_of_trapped h (exec_csignal ..) ?_
  rw [State.actingHart] at hv hr
  simp only [formCont_sound hp hc, hv, ne_eq, not_true_eq_false, if_false, hr, hw]

theorem csignal_done (hw : physWaits s (.form s.cur.hart (wordHost 8 r a p d)) ps = none)
    (hm : hartMark s s.cur.hart (s.actingHart.reg a) ps true true = .ok t) :
    let ag := agentOf t s.cur.hart
    let m := rememberReads t ag (wordKeys t (hartPlaces t ps))
    let x := hartAtomicAt m ps { fn := 13, ord := 2, scope := 7, w32 := false, b := s.actingHart.reg r, c := 0 } (writeRels m ag 2 7)
    let v := BitVec.ofNat 64 x.1 - s.actingHart.reg r
    Answers s (.csignal r a p d) p d (bumpRegion x.2 ag) (replyWord 0 (if v.msb then 1 else 0) 0 v.toNat) := by
  intro ag m x v
  refine answers_of_done h (exec_csignal ..) ?_
  rw [State.actingHart] at hv hr hm
  simp only [formCont_sound hp hc, hv, ne_eq, not_true_eq_false, if_false, hr, hw, hm]
  rfl

end Signal

/-! ## CVERS (R336, R435) -/

theorem cvers_terminated {st : Nat} (h : FormRuns s p d) (hp : PortHas s c) (ht : (getCont s c).terminated = some st) :
    Answers s (.cvers a p d) p d s (replyWord (if st = 7 then 7 else 1) 0 0 0) := by
  refine answers_of_done h (exec_cvers ..) ?_
  have hne : (if st = 7 then 7 else 1) ≠ 0 := by split <;> decide
  simp only [endedRst_terminated hp ht, if_pos hne, refuse]

section Version

variable (h : FormRuns s p d) (hl : Living s)
include h hl

theorem cvers_current (hv : s.actingHart.reg a = 0) : Answers s (.cvers a p d) p d s (replyWord 0 0 0 s.actingHart.port.vers.toNat) := by
  refine answers_of_done h (exec_cvers ..) ?_
  rw [State.actingHart] at hv ⊢
  simp only [endedRst_living hl, ne_eq, not_true_eq_false, if_false, hv, if_true]

theorem cvers_taken (hv : (s.actingHart.reg a).toNat / 65536 % 65536 = 1) :
    Answers s (.cvers a p d) p d (modHart s s.cur.hart fun h => { h with port := { h.port with vers := 0x10000 } }) (replyWord 0 0 0 0x10000) := by
  refine answers_of_done h (exec_cvers ..) ?_
  have hne : s.actingHart.reg a ≠ 0 := by
    intro h0
    rw [h0] at hv
    exact absurd hv (by decide)
  rw [State.actingHart] at hv hne
  simp only [endedRst_living hl, ne_eq, not_true_eq_false, if_false, if_neg hne]
  exact if_pos hv

theorem cvers_refused (hne : s.actingHart.reg a ≠ 0) (hv : (s.actingHart.reg a).toNat / 65536 % 65536 ≠ 1) :
    Answers s (.cvers a p d) p d s (replyWord 6 0 0 0) := by
  refine answers_of_done h (exec_cvers ..) ?_
  rw [State.actingHart] at hv hne
  simp only [endedRst_living hl, ne_eq, not_true_eq_false, if_false, if_neg hne, refuse]
  exact if_neg hv

end Version

/-! ## CFAULT (R337, R351, R352) -/

section Fault

variable (h : FormRuns s p d) (hp : PortHas s c)
include h hp

theorem cfault_misaligned (hv : (s.actingHart.reg a).toNat % 64 ≠ 0) : Answers s (.cfault r a p d) p d s (replyWord 4 0 0 0) := by
  refine answers_of_done h (exec_cfault ..) ?_
  rw [State.actingHart] at hv
  simp only [formCont_always hp, if_pos hv, refuse]

variable (hv : (s.actingHart.reg a).toNat % 64 = 0)
include hv

theorem cfault_none (hq : (getCont s c).faultQ = []) : Answers s (.cfault r a p d) p d s (replyWord 0 0 0 0) := by
  refine answers_of_done h (exec_cfault ..) ?_
  rw [State.actingHart] at hv
  simp only [formCont_always hp, hv, ne_eq, not_true_eq_false, if_false, hq]

variable {f : FaultRecord} {rest : List FaultRecord} (hq : (getCont s c).faultQ = f :: rest)
include hq

theorem cfault_short (hn : (s.actingHart.reg r).toNat < (faultBytes f).length) : Answers s (.cfault r a p d) p d s (replyWord 8 0 0 0) := by
  refine answers_of_done h (exec_cfault ..) ?_
  rw [State.actingHart] at hv hn
  simp only [formCont_always hp, hv, ne_eq, not_true_eq_false, if_false, hq, if_pos hn, refuse]

theorem cfault_oldest {ps : List Nat} (hn : (faultBytes f).length ≤ (s.actingHart.reg r).toNat)
    (hr : hartReach s s.cur.hart (s.actingHart.reg a) true (faultBytes f).length = .ok ps)
    (hw : physWaits s (.form s.cur.hart (wordHost 10 r a p d)) ps = none) :
    Answers s (.cfault r a p d) p d
      (modCont (physPuts (meterPlaces s (agentOf s s.cur.hart) (ps.map Place.mem)) ps (faultBytes f)) c fun k => { k with faultQ := rest })
      (replyWord 0 0 rest.length (faultBytes f).length) := by
  refine answers_of_done h (exec_cfault ..) ?_
  rw [State.actingHart] at hv hn hr
  simp only [formCont_always hp, hv, ne_eq, not_true_eq_false, if_false, hq, if_neg (Nat.not_lt.2 hn), hr, hw]

end Fault

end Forms

/-- Settles O36: each form's outcomes, one by one, by the rules above. -/
theorem hostFormsComplete : Obligations.HostFormsComplete := by
  refine ⟨?course, ?bind, ?start, ?jobs, ?fence, ?cancel, ?free, ?signal, ?ended, ?vers, ?fault⟩
  case course =>
    intro r a d p s f hf
    obtain ⟨body, hbody⟩ := exec_portForm s f hf
    rw [hbody]
    exact ⟨hostForm_busy, fun hfree hp hd => ⟨_, hostForm_illegal hfree hp hd, excepts_hartException _ _ _ _⟩,
      fun hfree hp hb => ⟨_, hostForm_unbound hfree hp hb, excepts_hartException _ _ _ _⟩⟩
  case bind =>
    intro a d p s h i v n
    refine ⟨?bound, ?flags, ?full, ?done⟩
    case bound =>
      intro hb hl
      have hans := cbind_bound (a := a) h hb
      rwa [endedRst_living hl] at hans
    case flags => exact cbind_flags h
    case full => exact fun hb hv hn => cbind_full h hb hv (.inl hn)
    case done =>
      intro hb hv hn hroom hf
      refine ⟨_, freshCont s, _, cbind_done h hb hv (not_or.2 ⟨Nat.not_le.2 hn, Nat.not_lt.2 hroom⟩) hf, boundIn_mem s v, ?_⟩
      have hcont := getCont_boundIn s v
      refine ⟨congrArg ContState.live hcont, congrArg ContState.gen hcont, congrArg ContState.satp hcont, congrArg ContState.partition hcont,
        (congrArg ContState.cls hcont).trans (by simp [boundState, bits]), congrArg ContState.jobs hcont, ?_, ?_⟩ <;> simp
  case start =>
    intro r a d p s t u c n id desc ps sizes h hp hc i va list w images
    exact ⟨cstart_misaligned h hp hc, fun x hv hr => cstart_unread h hp hc hv hr, fun hv hr hl hn hz hu =>
      ⟨fun e ht => cstart_refused h hp hc hv hr hl hn hz hu ht, fun ht => cstart_started h hp hc hv hr hl hn hz hu ht⟩⟩
  case jobs =>
    intro a d p s c h hp id
    exact ⟨fun hj => ⟨cjoin_unknown h hp hj, cquery_unknown h hp hj⟩, fun j hj =>
      ⟨cjoin_open h hp hj, cjoin_final h hp hj, cquery_known h hp hj⟩⟩
  case fence =>
    intro d p s c h hp hc ids us
    exact ⟨cfence_open h hp hc, fun ho => ⟨_, _, cfence_final h hp hc ho, rfl, acquireJobs_mem _ _ _⟩, cpark_marks h hp hc⟩
  case cancel =>
    intro r a d p s c h hp hc id v found
    exact ⟨fun hv hbad => ccancel_reserved h hp hc rfl ⟨hv, hbad⟩, ccancel_unknown h hp hc rfl, fun hok x hf => ccancel_cancels h hp hc rfl hok hf⟩
  case free => exact fun d p s c h hp => ⟨cfree_quiet h hp, cfree_busy h hp⟩
  case signal =>
    intro r a d p s t c ps h hp hc va ag o m x wait v
    exact ⟨fun hv => ⟨_, csignal_misaligned h hp hc hv, excepts_hartException _ _ _ _⟩, fun hv hr q hw => csignal_waits h hp hc hv hr hw,
      fun hv hr hw hm => csignal_done h hp hc hv hr hw hm⟩
  case ended =>
    intro a d p s c st h hp ht
    have hbind := cbind_bound (a := a) h hp.1
    rw [endedRst_terminated hp ht] at hbind
    simpa only [List.forall_mem_cons, List.not_mem_nil, false_implies, implies_true, and_true] using ⟨hbind, cvers_terminated h hp ht⟩
  case vers => exact fun a d p s h hl => ⟨cvers_current h hl, cvers_taken h hl, cvers_refused h hl⟩
  case fault =>
    intro r a d p s c h hp va
    exact ⟨cfault_misaligned h hp, cfault_none h hp, fun f rest hv hq => ⟨cfault_short h hp hv hq, fun hn ps hr hw => cfault_oldest h hp hv hq hn hr hw⟩⟩

end Sys2Proof.Machine
end
